-- ==== Sys2Proof/Word.lean ====
section
/-! DEFINITION. Word.lean: the fixed-width words of the machine (R10, R49) and the numbers that name its registers. -/

namespace Sys2Proof

/-- One byte of memory, scratchpad or a register (R4). -/
abbrev Byte := BitVec 8
/-- A bundle word (R49, R50), or one walker field (R10). -/
abbrev W32 := BitVec 32
/-- A g register or a system register (R10). -/
abbrev W64 := BitVec 64
/-- A v register, a scratchpad row or a plane column: 256 bytes, byte 0 lowest (R10, R126). -/
abbrev VReg := BitVec 2048
/-- A p register: one bit per byte lane (R10). -/
abbrev PReg := BitVec 256
/-- A copy-shape register (R259). -/
abbrev XReg := BitVec 256
/-- A row of the accumulator: 128 columns of 32 bits, column 0 lowest (R126). -/
abbrev AccRow := BitVec 4096
/-- A scale column: 64 bytes (R126). -/
abbrev ScaleCol := BitVec 512

/-- Register numbers as the fields of R53 to R59 hold them. -/
abbrev GR := BitVec 5
abbrev VR := BitVec 5
abbrev PR := BitVec 3
abbrev AR := BitVec 4
abbrev QR := BitVec 3
abbrev XR := BitVec 3
abbrev SpR := BitVec 4

/-- The extension word of a slot word whose E bit is set (R50). -/
abbrev Ext := Option W32

end Sys2Proof
end

