-- ==== Sys2Proof/Syntax.lean ====
section
/-! DEFINITION. Syntax.lean: the instructions of the machine, one constructor for each row of spec/opcode_table.json: the slot operations of R53 to R66, then the steps of the other agents and of the outside, which have no encoding and carry their data as arguments. -/

namespace Sys2Proof

/-- The 4-bit V-slot element type (R27). -/
inductive Ty where
  | i8 | i16 | i32 | n8 | n16 | n32 | f16 | bf16 | f32
  deriving DecidableEq, Repr

/-- Rounding modes (R41). -/
inductive RMode where
  | rne | rtz | rup | rdn | sr
  deriving DecidableEq, Repr

/-- Scopes (R52, R211). -/
inductive Scope where
  | core | cluster | device | system
  deriving DecidableEq, Repr

/-- SZ of a scalar access (R56). -/
inductive Sz where
  | i8 | i16 | i32 | n8 | n16 | n32 | b64
  deriving DecidableEq, Repr

/-- KIND of a FENCE (R56). -/
inductive FenceKind where
  | acquire | release | full
  deriving DecidableEq, Repr

/-- AOP of an AMO (R226). -/
inductive Aop where
  | swap | add | and | or | xor | min | max | minn | maxn
  deriving DecidableEq, Repr

/-- CND of VCMP (R112). -/
inductive Cnd where
  | eq | ne | lt | le | gt | ge | un
  deriving DecidableEq, Repr

/-- Format codes 0x00 to 0x14 (R26), in code order. -/
inductive Fmt where
  | raw | f32 | f16 | bf16 | e5m2 | e4m3 | e3m2 | e2m3 | e2m1
  | int16 | int8 | uint8 | int4 | uint4 | int2
  | b32e4m3 | b32e2m1 | b128e4m3 | b128e2m1 | aq8 | aq4
  deriving DecidableEq, Repr

/-- The operation field of VRED and VSCAN (R118). -/
inductive RedOp where
  | add | min | max | and | or | xor
  deriving DecidableEq, Repr

/-- The system registers by SEL code (R54). -/
inductive SysReg where
  | status | cause | faddr | epc | flags | ord | ctxid | nctx
  | vk | nvk | cutcount | mowner | msave | rngkey | rngctrLo | rngctrHi
  deriving DecidableEq, Repr

/-- The extension word of formats V3, VG, VC and VK (R60). -/
structure VExt where
  qa : Bool
  qb : Bool
  px : PR
  deriving DecidableEq, Repr

/-- The shadow operations of the M word (R58). -/
inductive ShadowOp where
  | mlds | mldst | mldss
  deriving DecidableEq, Repr

/-- The shadow field of an M word (R58): operation, walker, step mark. -/
structure Shadow where
  op : ShadowOp
  w : AR
  mark : Bool
  deriving DecidableEq, Repr

/-- ACQ, REL and SCOPE of a copy command (R59, R265). -/
structure CmdOrder where
  acq : Bool
  rel : Bool
  scope : Scope
  deriving DecidableEq, Repr

/-- The scratchpad side of a copy command (R265): a walker row `[aw]`, `[aw+]`, or spool `sN` (VAR[2] set). -/
inductive CopySide where
  | walker (w : AR) (mark : Bool)
  | spool (n : SpR)
  deriving DecidableEq, Repr

/-- A plain shuffle packet (R360) of a sender on device `dev`, bound for the rank `vk` of the job on device `dest`, with its block's envelopes (`crc`, one CRC-32C per 64 bytes). `plainOnly` marks a re-send as unpairable (R367); `bad` is an envelope error that ECC cannot correct, or a block that could not be read again (R368). -/
structure ShufPkt where
  dev : Nat
  dest : Nat
  job : Nat
  vk : Nat
  shid : Nat
  blk : Nat
  src : Nat
  dst : Nat
  holders : List Nat
  crc : List Nat
  payload : List Byte
  plainOnly : Bool
  bad : Bool
  deriving DecidableEq, Repr

/-- An overprint: both packets' headers and envelopes, the XOR of the payloads, which of the two receivers this copy is bound for (R365), and the port at which it comes to the device (R366). -/
structure Overprint where
  p : ShufPkt
  q : ShufPkt
  payload : List Byte
  toP : Bool
  toQ : Bool
  port : Nat
  deriving DecidableEq, Repr

/-- The classes of fabric packets (R283, R338). -/
inductive PktClass where
  | request | reply | control
  deriving DecidableEq, Repr

/-- What a fabric packet carries (R338, R340). -/
inductive PktBody where
  /-- A read by another device, from a local physical address on, of the bytes that `en` enables; the reply goes back to `dev` under `tag`. -/
  | read (dev : Nat) (tag : Nat) (pa : Nat) (en : List Bool)
  /-- A write by another device of the bytes that `en` enables; `many` says that the access it belongs to touches several cells (R238); its confirmation goes back to `dev` under `tag`. -/
  | write (dev : Nat) (tag : Nat) (many : Bool) (pa : Nat) (en : List Bool) (bytes : List Byte)
  /-- An atomic by another device (R226); `wide` selects 64 bits. -/
  | amo (dev : Nat) (tag : Nat) (op : Aop) (wide : Bool) (pa : Nat) (b : W64)
  /-- A compare-and-swap by another device (R227). -/
  | cas (dev : Nat) (tag : Nat) (wide : Bool) (pa : Nat) (b : W64) (c : W64)
  /-- The answer to a request: the bytes it returns, and a cause code of R289 where it failed, else 0, with the physical address there of the cell or byte that failed. -/
  | reply (tag : Nat) (bytes : List Byte) (cause : Nat) (off : Nat)
  /-- A piece of the contribution of a position to a collective (R345), sent by device `dev`: its order (R344), the bytes of its source shard from `off` on, and how many the shard has. -/
  | contribution (dev : Nat) (job comm k pos : Nat) (order : List Byte) (total off : Nat) (data : List Byte)
  /-- Device `dev` has accepted a piece of a contribution (R343). -/
  | contribAck (dev : Nat) (job comm k pos off : Nat)
  /-- A member's collective has aborted (R353), or its orders differ (R346). -/
  | collAbort (job comm k : Nat) (mismatch : Bool)
  | hold (job comm pos : Nat)
  | resume (job comm pos : Nat)
  | shuffle (p : ShufPkt)
  | overprint (o : Overprint)
  /-- Acknowledgement that a block was written at its receiver (R356). -/
  | shufAck (job shid blk src dst : Nat)
  | reissue (job shid blk src dst : Nat)
  /-- An abort of a shuffle for one member (R370): the number of XSHUFs with that SHID that its sender had issued. -/
  | shufAbort (job vk shid dst num : Nat)
  /-- A refusal of a request packet by a full spill area (R379). -/
  | retry (b : PktBody)
  /-- A piece of a rank's state as its source device sends it (R377), for the virtual function that will host it: `bytes` from `off` on of `total`, under the transfer key. -/
  | migrant (vf vk dvf : Nat) (compress : Bool) (total off : Nat) (bytes : List Byte)
  /-- An update of the rank-location map (R377): a rank of a job lives on device `dev`. -/
  | rankAt (job vk dev : Nat)
  deriving DecidableEq, Repr

/-- A fabric packet: destination device and body (R340). -/
structure Packet where
  dev : Nat
  body : PktBody
  deriving DecidableEq, Repr

/-- The units that enforce activity budgets (R323). -/
inductive BudgetUnit where
  | copyEngine | fabric | hbm | slice
  deriving DecidableEq, Repr

/-- A register of the JHL that has no row of its own in the table (R391, R393, R395, R322). -/
inductive HostReg where
  | qring (vf q : Nat)
  | qcfg (vf q : Nat)
  | frseq (vf : Nat)
  | vfBlock (vf : Nat) (off : Nat) (len : Nat)
  | rkaddr
  | sealbase
  | attbase
  | sealn
  | attnonce (word : Nat)
  | reserved (off : Nat)
  /-- `len` bytes at a device physical address, through the physical function's memory aperture. -/
  | memory (pa len : Nat)
  deriving DecidableEq, Repr

/-- The instructions. The encoded ones name their operands by the fields of R53 to R60; `x` is the extension word.
An event names what it happens to: `k` a context, `id` an access, command or launch, `rank` a rank, `vf` a virtual function, `q` a queue. -/
inductive Instr where
  -- S slots (R61)
  | snop
  | add (d a b : GR) | sub (d a b : GR) | mul (d a b : GR) | mulh (d a b : GR) | mulhn (d a b : GR)
  | div (d a b : GR) | divn (d a b : GR) | rem (d a b : GR) | remn (d a b : GR)
  | and (d a b : GR) | or (d a b : GR) | xor (d a b : GR) | andn (d a b : GR)
  | shl (d a b : GR) | shr (d a b : GR) | sar (d a b : GR) | rol (d a b : GR)
  | min (d a b : GR) | max (d a b : GR) | minn (d a b : GR) | maxn (d a b : GR)
  | seq (d a b : GR) | sne (d a b : GR) | slt (d a b : GR) | sltn (d a b : GR) | sle (d a b : GR) | slen (d a b : GR)
  | clz (d a : GR) | ctz (d a : GR) | popc (d a : GR) | brev (d a : GR)
  | addi (x : Ext) (d a : GR) (i : BitVec 15) | andi (x : Ext) (d a : GR) (i : BitVec 15)
  | ori (x : Ext) (d a : GR) (i : BitVec 15) | xori (x : Ext) (d a : GR) (i : BitVec 15)
  | shli (d a : GR) (i : BitVec 15) | shri (d a : GR) (i : BitVec 15) | sari (d a : GR) (i : BitVec 15)
  | slti (x : Ext) (d a : GR) (i : BitVec 15) | li (x : Ext) (d : GR) (i : BitVec 15)
  | lih (x : Ext) (d a : GR) (i : BitVec 15)
  | bfx (d a : GR) (pos wid : BitVec 6) | bfxn (d a : GR) (pos wid : BitVec 6) | bfi (d a : GR) (pos wid : BitVec 6)
  | sext (d a : GR) (wid : BitVec 6) | zext (d a : GR) (wid : BitVec 6)
  | sel (d a b c : GR)
  | mova (g : GR) (w : AR)
  | wset (x : Ext) (g : GR) (w : AR) (i : BitVec 13) | wstep (x : Ext) (g : GR) (w : AR) (i : BitVec 13)
  | wstride (x : Ext) (g : GR) (w : AR) (l : BitVec 3) (i : BitVec 13)
  | sysrd (g : GR) (s : SysReg) | syswr (g : GR) (s : SysReg)
  -- C slot (R62)
  | cnop
  | beq (x : Ext) (a b : GR) (o : BitVec 15) | bne (x : Ext) (a b : GR) (o : BitVec 15)
  | blt (x : Ext) (a b : GR) (o : BitVec 15) | bge (x : Ext) (a b : GR) (o : BitVec 15)
  | bltn (x : Ext) (a b : GR) (o : BitVec 15) | bgen (x : Ext) (a b : GR) (o : BitVec 15)
  | jmp (x : Ext) (o : BitVec 15) | jmpg (a : GR)
  | loop (x : Ext) (l : BitVec 3) (n : BitVec 8) (r : Bool) (c : BitVec 13)
  | loopbrk (l : BitVec 3)
  | wait (ld st cp tl : BitVec 4)
  | yield | exit
  | gjoin (a : GR) (g : BitVec 10) | gleave (a : GR) (g : BitVec 10) | gbar (a : GR) (g : BitVec 10)
  | gcnt (d a : GR) (g : BitVec 10)
  | pref (x : Ext) (a : GR) (o : BitVec 20)
  | trap (code : BitVec 16) | tret | ordset (o : BitVec 4)
  -- L slot (R63)
  | lnop
  | ld (x : Ext) (g a : GR) (sz : Sz) (o : BitVec 12) | st (x : Ext) (g a : GR) (sz : Sz) (o : BitVec 12)
  | vld (x : Ext) (v : VR) (a : GR) (p : PR) (o : BitVec 12) | vst (x : Ext) (v : VR) (a : GR) (p : PR) (o : BitVec 12)
  | vlds (v : VR) (w : AR) (m : Bool) (p : PR) | vsts (v : VR) (w : AR) (m : Bool) (p : PR)
  | spld (g : GR) (w : AR) (m : Bool) (sz : Sz) | spst (g : GR) (w : AR) (m : Bool) (sz : Sz)
  | lda (x : Ext) (g a : GR) (sz : Sz) (scope : Scope) (o : BitVec 10)
  | stl (x : Ext) (g a : GR) (sz : Sz) (scope : Scope) (o : BitVec 10)
  | amo (g a b : GR) (op : Aop) (sc : Bool) (scope : Scope) (wide : Bool)
  | cas (g a b c : GR) (sc : Bool) (scope : Scope) (wide : Bool)
  | amow (a b : GR) | wopen (a b : GR) | wclose (a : GR)
  | fence (scope : Scope) (kind : FenceKind) | drain
  | waitm (g a b : GR) (scope : Scope)
  | prefd (x : Ext) (a : GR) (l2 : Bool) (o : BitVec 12)
  | expose (a b : GR) | fix (a b : GR) | ldrec (g a b : GR)
  | clean (x : Ext) (n a : GR) (o : BitVec 12)
  -- V slot (R64)
  | vnop
  | vadd (x : Option VExt) (d a b : VR) (t : Ty) (m : RMode) (p : PR) | vsub (x : Option VExt) (d a b : VR) (t : Ty) (m : RMode) (p : PR)
  | vmul (x : Option VExt) (d a b : VR) (t : Ty) (m : RMode) (p : PR) | vfma (x : Option VExt) (d a b : VR) (t : Ty) (m : RMode) (p : PR)
  | vmin (x : Option VExt) (d a b : VR) (t : Ty) (p : PR) | vmax (x : Option VExt) (d a b : VR) (t : Ty) (p : PR)
  | vabs (x : Option VExt) (d a : VR) (t : Ty) (p : PR) | vneg (x : Option VExt) (d a : VR) (t : Ty) (p : PR)
  | vadds (x : Option VExt) (d a b : VR) (t : Ty) (p : PR) | vsubs (x : Option VExt) (d a b : VR) (t : Ty) (p : PR)
  | vand (x : Option VExt) (d a b : VR) (t : Ty) (p : PR) | vor (x : Option VExt) (d a b : VR) (t : Ty) (p : PR)
  | vxor (x : Option VExt) (d a b : VR) (t : Ty) (p : PR)
  | vshl (x : Option VExt) (d a b : VR) (t : Ty) (p : PR) | vshr (x : Option VExt) (d a b : VR) (t : Ty) (p : PR)
  | vsar (x : Option VExt) (d a b : VR) (t : Ty) (p : PR) | vclamp (x : Option VExt) (d a b : VR) (t : Ty) (p : PR)
  | vdiv (x : Option VExt) (d a b : VR) (t : Ty) (m : RMode) (p : PR)
  | vsqrt (x : Option VExt) (d a : VR) (t : Ty) (m : RMode) (p : PR) | vrcp (x : Option VExt) (d a : VR) (t : Ty) (m : RMode) (p : PR)
  | vrsq (x : Option VExt) (d a : VR) (t : Ty) (m : RMode) (p : PR) | vexp (x : Option VExt) (d a : VR) (t : Ty) (m : RMode) (p : PR)
  | vexp2 (x : Option VExt) (d a : VR) (t : Ty) (m : RMode) (p : PR) | vlog2 (x : Option VExt) (d a : VR) (t : Ty) (m : RMode) (p : PR)
  | vtanh (x : Option VExt) (d a : VR) (t : Ty) (m : RMode) (p : PR) | vrint (x : Option VExt) (d a : VR) (t : Ty) (m : RMode) (p : PR)
  | vcmp (x : Option VExt) (pd : PR) (a b : VR) (t : Ty) (c : Cnd) (p : PR)
  | vsel (x : Option VExt) (d a b : VR) (t : Ty) (p : PR)
  | vcvt (x : Option VExt) (d a : VR) (f : Fmt) (t : Ty) (m : RMode) (toTy : Bool)
  | vred (x : Option VExt) (d a : VR) (op : RedOp) (t : Ty) (m : RMode) (p : PR)
  | vscan (x : Option VExt) (d a : VR) (op : RedOp) (t : Ty) (m : RMode) (p : PR)
  | vpart (x : Option VExt) (d : VR) (g : GR) (t : Ty) (p : PR)
  | vgath (x : Option VExt) (d a b : VR) (t : Ty) (p : PR) | vscat (x : Option VExt) (d a b : VR) (t : Ty) (p : PR)
  | vperm (x : Option VExt) (d a b : VR) (t : Ty) (p : PR) | vzip (x : Option VExt) (d a b : VR) (t : Ty) (p : PR)
  | vunzip (x : Option VExt) (d a b : VR) (t : Ty) (p : PR)
  | vbcast (x : Option VExt) (d : VR) (g : GR) (t : Ty) (p : PR)
  | vext (x : Option VExt) (d : GR) (a : VR) (g : GR) (t : Ty)
  | vins (x : Option VExt) (d : VR) (a : GR) (g : GR) (t : Ty)
  | viota (x : Option VExt) (d : VR) (g : GR) (t : Ty) (p : PR)
  | vrand (x : Option VExt) (d : VR) (t : Ty) (p : PR)
  | plog (d a b : PR) (lop : BitVec 4) | pcnt (a b : PR) (g : GR)
  | vmov (x : Option VExt) (d a : VR) (t : Ty) (p : PR)
  -- M slot (R58, R65); `h` is the shadow field beside the beat
  | mnop
  | mpush (a : AR) (am : Bool) (s : AR) (sm : Bool) (qs : Bool) (h : Option Shadow)
  | mpushz (a : AR) (am : Bool) (s : AR) (sm : Bool) (qs : Bool) (h : Option Shadow)
  | mdrain (a : AR) (am : Bool) (d : VR) (h : Option Shadow) | mdrainz (a : AR) (am : Bool) (d : VR) (h : Option Shadow)
  | mdrains (a : AR) (am : Bool) (s : AR) (sm : Bool) (h : Option Shadow)
  | mdrainw (a : AR) (am : Bool) (g : GR) (h : Option Shadow)
  | mzero (a : AR) (am : Bool) (h : Option Shadow)
  | mswap
  | mmodeWrap (h : Option Shadow) | mmodeSat (h : Option Shadow) | mmodeClrovf (h : Option Shadow)
  | mstsave (a : GR) (h : Option Shadow) | mstload (a : GR) (h : Option Shadow)
  | mlds (w : AR) (mark : Bool) | mldst (w : AR) (mark : Bool) | mldss (w : AR) (mark : Bool)
  -- X slot (R66)
  | xnop
  | cpLd (a b : GR) (x : XR) (s : CopySide) (o : CmdOrder) | cpSt (a b : GR) (x : XR) (s : CopySide) (o : CmdOrder)
  | cpMv (b : GR) (x : XR) (s : CopySide) (o : CmdOrder)
  | cpm (a b : GR) (x : XR) (n : SpR) (o : CmdOrder)
  | cpg (a b : GR) (x : XR) (s : CopySide) (o : CmdOrder) | cps (a b : GR) (x : XR) (s : CopySide) (o : CmdOrder)
  | cpw (a : GR) (x : XR) (s : CopySide) (o : CmdOrder)
  | cpfScratch (b : GR) (x : XR) (s : CopySide) (o : CmdOrder) | cpfGlobal (a b : GR) (x : XR) (o : CmdOrder)
  | xshape (a b : GR) (x : XR) (h : Bool)
  | spdef (a : GR) (n : SpR) (size : BitVec 8) (elem : BitVec 2)
  | sbind (q : QR) (n : SpR) | sbindNone (q : QR)
  | spadvP (a : GR) (n : SpR) | spadvC (a : GR) (n : SpR)
  | xfmt (a b : GR)
  | qpost (a : GR) (k : QR) | qtake (a d : GR) (k : QR)
  | launch (a : GR) | xcoll (a : GR) | xshuf (a : GR)
  | xstat (d : GR) (what : BitVec 3) (n : SpR)
  | rngsetAdd (a b : GR) | rngsetSub (a b : GR)
  -- I. Steps that the machine makes by itself
  -- Landings, accesses and translations (R18, R131, R23, R206, R197, R200, R202)
  | loadRetire (id : Nat)
  | accessPerform (id : Nat) (part : Nat)
  | windowCloseWrite (id : Nat)
  -- Boundary causes and pre-emption (R297, R298, R307, R310, R289, R318, R315)
  | restoration (k : Nat) (core hw : Nat)
  -- Copy engine (R256, R277, R273)
  | copyCommandStart (id : Nat)
  | spoolElementFire (id n : Nat)
  | copyCommandRetire (id : Nat)
  | commandFailure (id : Nat)
  -- Latent cells (R238, R242)
  | evaluatorStart (cell : Nat) (place : Option (Nat × Nat))
  -- Groups and queues (R158, R164)
  | barrierComplete (rank g : Nat)
  | queueTermination (rank q : Nat)
  -- Launches (R179, R166, R409, R167)
  | launchPlacement (id : Nat) (places : List (Nat × Nat))
  | parkedLaunchDrain (rank : Nat)
  | childQueueStart (vf : Nat)
  | launchComplete (id : Nat)
  -- Commands of a command queue (R176)
  | cmdLaunch (vf q : Nat)
  | cmdLaunchIndirect (vf q : Nat)
  | waitev (vf q : Nat)
  | waitevSatisfied (vf q : Nat)
  | signal (vf q : Nat)
  | cmdLoop (vf q : Nat)
  | cmdIf (vf q : Nat)
  | cmdCopy (vf q : Nat)
  | tlbinv (vf q : Nat)
  | holdpoint (vf q : Nat)
  -- Residency and tiers (R375, R374, R410)
  | makeResident (rank : Nat)
  -- Cuts, time slices, collections (R319, R320, R324, R323, R327, R328, R329, R325, R322)
  | consistentCut (rank : Nat)
  | quantumExpiry (part : Nat)
  | queueVacancy (vf q : Nat) (cycles : Nat)
  | rankForget (value : W64)
  -- Fabric, collectives, shuffles (R340, R382, R350 to R353, R360 to R370, R379)
  | packetRoute (p : Packet)
  | collectivePacket (coll : Nat) (pos : Nat)
  | slotRequest (coll : Nat) (node : Nat) (port : Nat)
  | collectiveRetire (coll : Nat) (pos : Nat)
  | holdNotice (job comm pos : Nat)
  | resumeNotice (job comm pos : Nat)
  | shufflePacket (p : ShufPkt)
  | pairingTimeout (index : Nat)
  | overprintDecode (group : Nat)
  | reissuePlain (rank : Nat) (shid blk dst : Nat)
  | shuffleAbort (rank : Nat) (shid : Nat)
  | shuffleRetire (rank : Nat) (shid : Nat)
  -- Journal, seals, attestation, mailboxes, host registers (R400 to R404, R380, R390 to R395)
  | interruptRecord (box : Option Nat)
  -- Power and start (R405 to R407), the issue of a bundle (R69), the rest of the outside
  | powerOn (verified : Bool)
  | bundleIssue (k : Nat)
  -- II. Steps that a choice or the outside makes, and parts of other steps as steps of their own
  -- Landings, accesses and translations (R18, R131, R23, R206, R197, R200, R202)
  | fixedLatencyLanding (k : Nat)
  | beatLanding (k : Nat)
  | walkComplete (core : Nat) (rank : Nat) (va : Nat)
  | windowAdd (id : Nat)
  -- Boundary causes and pre-emption (R297, R298, R307, R310, R289, R318, R315)
  | boundaryFailureTrap (k : Nat)
  | asyncTrap (k : Nat)
  | preempt (k : Nat)
  | budgetExceeded (k : Nat)
  | cutOverrun (k : Nat)
  | matrixSwitch (k : Nat)
  -- Latent cells (R238, R242)
  | latentCellRead (id : Nat) (part : Nat)
  -- Residency and tiers (R375, R374, R410)
  | tierMove (rank : Nat) (va : Nat) (pa : Nat)
  | deschedule (rank : Nat)
  -- Cuts, time slices, collections (R319, R320, R324, R323, R327, R328, R329, R325, R322)
  | cutAbandon (rank : Nat)
  | budgetWindowEnd (vf : Nat) (u : BudgetUnit)
  | lastCollection (addr : Nat)
  | lastCollectionOverrun (vf q : Nat)
  | restore (addr : Nat)
  | restoreReplay (addr : Nat)
  | vfReset (vf : Nat)
  | vfEnable (vf : Nat)
  | migration (order : Nat) (attested accepted linkOk : Bool)
  | clpart (value : W64)
  -- Fabric, collectives, shuffles (R340, R382, R350 to R353, R360 to R370, R379)
  | linkFailure (port : Nat)
  | slotLeaseExpiry (slot : Nat)
  | collTimeout (coll : Nat) (pos : Nat)
  | shuffleTimeout (rank : Nat) (shid : Nat)
  | spill (rank : Nat) (b : PktBody)
  | retry (b : PktBody)
  -- Journal, seals, attestation, mailboxes, host registers (R400 to R404, R380, R390 to R395)
  | sealcons (value : W64)
  | jcons (value : W64)
  | mbox (vf : Nat) (addr : W64)
  | hvmbox (addr : W64)
  | doorbell (vf q : Nat) (value : W64)
  | qctlRestart (vf q : Nat)
  | qctlRestartAfter (vf q : Nat)
  | qctlDiscard (vf q : Nat)
  | fractResume (vf : Nat)
  | fractEnd (vf : Nat)
  | queueEnable (vf q : Nat) (cfg : W64)
  | queueDisable (vf q : Nat)
  | cap (value : W64)
  | registerWrite (r : HostReg) (value : Nat)
  | hostWindowRead (vf w off len : Nat)
  | hostWindowWrite (vf w off : Nat) (bytes : List Byte)
  -- Power and start (R405 to R407), the issue of a bundle (R69), the rest of the outside
  | jhlRetrain (vf : Nat)
  | routingTableWrite (dev : Nat) (ports : List Nat)
  | dlqcons (rank : Nat) (value : W32)
  -- Cuts, time slices, collections (R319, R320, R324, R323, R327, R328, R329, R325, R322)
  | rankCreate
  -- Fabric, collectives, shuffles (R340, R382, R350 to R353, R360 to R370, R379)
  | retryResend
  -- Journal, seals, attestation, mailboxes, host registers (R400 to R404, R380, R390 to R395)
  | seal
  | sealreq
  | attreq
  -- Power and start (R405 to R407), the issue of a bundle (R69), the rest of the outside
  | thermalLimit
  | thermalShutdown
  | deviceReset
  | temperatureLimitCleared
  deriving DecidableEq, Repr

end Sys2Proof
end

