-- ==== Sys2Proof/WellFormed.lean ====
section
/-! DEFINITION. WellFormed.lean: which slot operations are legal encodings (R52, R75 and the chapters it names): the codes and combinations that a field can hold and an instruction reserves. -/

namespace Sys2Proof

/-- w: bytes of a lane (R27, R106). -/
def Ty.width : Ty → Nat
  | .i8 | .n8 => 1
  | .i16 | .n16 | .f16 | .bf16 => 2
  | .i32 | .n32 | .f32 => 4

/-- I and F of R109. -/
def Ty.isInt : Ty → Bool
  | .f16 | .bf16 | .f32 => false
  | .i8 | .i16 | .i32 | .n8 | .n16 | .n32 => true

def Ty.isFloat (t : Ty) : Bool := !t.isInt

/-- The V-slot integer types read as two's complement (R27). -/
def Ty.signed : Ty → Bool
  | .i8 | .i16 | .i32 => true
  | .n8 | .n16 | .n32 | .f16 | .bf16 | .f32 => false

/-- L: lanes of a register (R106). -/
def Ty.lanes (t : Ty) : Nat := 256 / t.width

/-- SZ codes that a store may hold (R56). -/
def Sz.storable : Sz → Bool
  | .n8 | .n16 | .n32 => false
  | .i8 | .i16 | .i32 | .b64 => true

/-- Bits of an element in a scratchpad row or a v register (R26). -/
def Fmt.bits : Fmt → Nat
  | .raw | .e5m2 | .e4m3 | .e3m2 | .e2m3 | .int8 | .uint8 | .b32e4m3 | .b128e4m3 | .aq8 => 8
  | .f32 => 32
  | .f16 | .bf16 | .int16 => 16
  | .e2m1 | .int4 | .uint4 | .b32e2m1 | .b128e2m1 | .aq4 => 4
  | .int2 => 2

/-- Bits of an element in memory (R26). -/
def Fmt.memBits : Fmt → Nat
  | .e3m2 | .e2m3 => 6
  | .raw => 8
  | .f32 => 32 | .f16 => 16 | .bf16 => 16 | .e5m2 => 8 | .e4m3 => 8 | .e2m1 => 4 | .int16 => 16
  | .int8 => 8 | .uint8 => 8 | .int4 => 4 | .uint4 => 4 | .int2 => 2 | .b32e4m3 => 8 | .b32e2m1 => 4
  | .b128e4m3 => 8 | .b128e2m1 => 4 | .aq8 => 8 | .aq4 => 4

/-- Elements of one 256-byte row: the K of a beat (R26). -/
def Fmt.perRow (f : Fmt) : Nat := 2048 / f.bits

/-- Elements of one block of a block-scaled format, 0 for the others (R34). -/
def Fmt.block : Fmt → Nat
  | .b32e4m3 | .b32e2m1 => 32
  | .b128e4m3 | .b128e2m1 => 128
  | .raw | .f32 | .f16 | .bf16 | .e5m2 | .e4m3 | .e3m2 | .e2m3 | .e2m1
  | .int16 | .int8 | .uint8 | .int4 | .uint4 | .int2 | .aq8 | .aq4 => 0

def Fmt.isBlock (f : Fmt) : Bool := f.block != 0

def Fmt.isAq : Fmt → Bool
  | .aq8 | .aq4 => true
  | .raw | .f32 | .f16 | .bf16 | .e5m2 | .e4m3 | .e3m2 | .e2m3 | .e2m1
  | .int16 | .int8 | .uint8 | .int4 | .uint4 | .int2 | .b32e4m3 | .b32e2m1 | .b128e4m3 | .b128e2m1 => false

/-- NFMT codes that VCVT takes (R57, R115). -/
def Fmt.convertible (f : Fmt) : Bool := f != .raw && !f.isAq

/-- The MODE an arithmetic op takes: 0 on integer lanes, 0 to 3 on float lanes (R41, R109). -/
def arithMode (t : Ty) (m : RMode) : Bool := if t.isFloat then m != .sr else m == .rne

/-- Operation, type and mode of VRED and VSCAN (R118). -/
def redOk (op : RedOp) (t : Ty) (m : RMode) : Bool :=
  match op with
  | .add => arithMode t m
  | .min | .max => m == .rne
  | .and | .or | .xor => t.isInt && m == .rne

/-- The extension word of a V-slot operation other than VCVT: PX is zero, and QA or QB only where the position may be a stream register, which VA[4:3] = 0 (VB[4:3] = 0) names (R60, R108). -/
def extOk (x : Option VExt) (qaOk qbOk : Bool) (a b : VR) : Bool :=
  match x with
  | none => true
  | some e => e.px == 0 && (!e.qa || (qaOk && decide (a.toNat < 8))) && (!e.qb || (qbOk && decide (b.toNat < 8)))

/-- Elements per register of the source side of a VCVT, and of its destination side (R116). -/
def cvtSrc (f : Fmt) (t : Ty) (toTy : Bool) : Nat := if toTy then f.perRow else t.lanes
def cvtDst (f : Fmt) (t : Ty) (toTy : Bool) : Nat := if toTy then t.lanes else f.perRow

/-- k: how many element registers a VCVT reads (R116). -/
def cvtRegs (f : Fmt) (t : Ty) (toTy : Bool) : Nat :=
  if cvtDst f t toTy < cvtSrc f t toTy then 1 else cvtDst f t toTy / cvtSrc f t toTy

/-- The register numbers and extension word of a VCVT (R108, R116, R117). -/
def cvtOk (x : Option VExt) (d a : VR) (f : Fmt) (t : Ty) (toTy : Bool) : Bool :=
  let k := cvtRegs f t toTy
  decide (k ≤ 4) && decide (a.toNat % (if f.isBlock && toTy then 2 * k else k) = 0)
    && (!(f.isBlock && !toTy) || (decide (d.toNat % 2 = 0) && (match x with | none => true | some e => e.px == 0)))
    && (match x with
        | none => true
        | some e => !e.qb && (!e.qa || (k == 1 && !(f.isBlock && toTy) && decide (a.toNat < 8))))

/-- With neither ACQ nor REL, SCOPE is 0 (R265). -/
def CmdOrder.ok (o : CmdOrder) : Bool := o.acq || o.rel || o.scope == .core

/-- A slot operation is well formed when no reserved code and no reserved combination stands in it (R75). An event is always well formed. -/
def Instr.wf : Instr → Bool
  | .shli _ _ i => decide (i.toNat < 64)
  | .shri _ _ i => decide (i.toNat < 64)
  | .sari _ _ i => decide (i.toNat < 64)
  | .bfx _ _ pos wid => decide (pos.toNat + wid.toNat + 1 ≤ 64)
  | .bfxn _ _ pos wid => decide (pos.toNat + wid.toNat + 1 ≤ 64)
  | .bfi _ _ pos wid => decide (pos.toNat + wid.toNat + 1 ≤ 64)
  | .wstride _ _ _ l _ => decide (l.toNat < 6)
  | .loop x l _ r c => decide (l.toNat < 6 ∧ (if r then x = none ∧ c.toNat < 32 else (x = none ∨ c = 0)))
  | .loopbrk l => decide (l.toNat < 6)
  | .ordset o => decide (o = 1)
  | .st _ _ _ sz _ => decide (sz.storable)
  | .spst _ _ _ sz => decide (sz.storable)
  | .stl _ _ _ sz _ _ => decide (sz.storable)
  | .amo _ _ _ _ sc scope _ => decide (sc = true ∨ scope = .core)
  | .cas _ _ _ _ sc scope _ => decide (sc = true ∨ scope = .core)
  | .vadd x _ a b t m _ => decide (arithMode t m ∧ extOk x true true a b)
  | .vsub x _ a b t m _ => decide (arithMode t m ∧ extOk x true true a b)
  | .vmul x _ a b t m _ => decide (arithMode t m ∧ extOk x true true a b)
  | .vfma x _ a b t m _ => decide (arithMode t m ∧ extOk x true true a b)
  | .vmin x _ a b _ _ => decide (extOk x true true a b)
  | .vmax x _ a b _ _ => decide (extOk x true true a b)
  | .vabs x _ a _ _ => decide (extOk x true false a 0)
  | .vneg x _ a _ _ => decide (extOk x true false a 0)
  | .vadds x _ a b t _ => decide (t.isInt ∧ extOk x true true a b)
  | .vsubs x _ a b t _ => decide (t.isInt ∧ extOk x true true a b)
  | .vand x _ a b _ _ => decide (extOk x true true a b)
  | .vor x _ a b _ _ => decide (extOk x true true a b)
  | .vxor x _ a b _ _ => decide (extOk x true true a b)
  | .vshl x _ a b t _ => decide (t.isInt ∧ extOk x true true a b)
  | .vshr x _ a b t _ => decide (t.isInt ∧ extOk x true true a b)
  | .vsar x _ a b t _ => decide (t.isInt ∧ extOk x true true a b)
  | .vclamp x _ a b _ _ => decide (extOk x true true a b)
  | .vdiv x _ a b t m _ => decide (t.isFloat ∧ m ≠ .sr ∧ extOk x true true a b)
  | .vsqrt x _ a t m _ => decide (t.isFloat ∧ m ≠ .sr ∧ extOk x true false a 0)
  | .vrcp x _ a t m _ => decide (t.isFloat ∧ m ≠ .sr ∧ extOk x true false a 0)
  | .vrsq x _ a t m _ => decide (t.isFloat ∧ m ≠ .sr ∧ extOk x true false a 0)
  | .vexp x _ a t m _ => decide (t.isFloat ∧ m ≠ .sr ∧ extOk x true false a 0)
  | .vexp2 x _ a t m _ => decide (t.isFloat ∧ m ≠ .sr ∧ extOk x true false a 0)
  | .vlog2 x _ a t m _ => decide (t.isFloat ∧ m ≠ .sr ∧ extOk x true false a 0)
  | .vtanh x _ a t m _ => decide (t.isFloat ∧ m ≠ .sr ∧ extOk x true false a 0)
  | .vrint x _ a t m _ => decide (t.isFloat ∧ m ≠ .sr ∧ extOk x true false a 0)
  | .vcmp x _ a b _ _ _ => decide (extOk x true true a b)
  | .vsel x _ a b _ _ => decide (extOk x true true a b)
  | .vcvt x d a f t _ toTy => decide (f.convertible ∧ cvtOk x d a f t toTy)
  | .vred x _ a op t m _ => decide (redOk op t m ∧ extOk x true false a 0)
  | .vscan x _ a op t m _ => decide (redOk op t m ∧ extOk x true false a 0)
  | .vpart x d g t _ => decide (d.toNat % 2 = 0 ∧ g.toNat % 2 = 0 ∧ g ≠ 0 ∧ t.width ≠ 1 ∧ extOk x false false 0 0)
  | .vgath x _ a b t _ => decide (t.width ≠ 1 ∧ extOk x true true a b)
  | .vscat x _ a b t _ => decide (t.width ≠ 1 ∧ extOk x true true a b)
  | .vperm x _ a b _ _ => decide (extOk x true true a b)
  | .vzip x _ a b _ _ => decide (extOk x true true a b)
  | .vunzip x _ a b _ _ => decide (extOk x true true a b)
  | .vbcast x _ _ _ _ => decide (extOk x false false 0 0)
  | .vext x _ a _ _ => decide (extOk x true false a 0)
  | .vins x _ _ _ _ => decide (extOk x false false 0 0)
  | .viota x _ _ t _ => decide (t.isInt ∧ extOk x false false 0 0)
  | .vrand x _ _ _ => decide (extOk x false false 0 0)
  | .vmov x _ a _ _ => decide (extOk x true false a 0)
  | .mpush _ _ s sm qs _ => decide (qs = false ∨ (s.toNat < 8 ∧ sm = false))
  | .mpushz _ _ s sm qs _ => decide (qs = false ∨ (s.toNat < 8 ∧ sm = false))
  | .mdrain _ _ d _ => decide (d.toNat % 2 = 0)
  | .mdrainz _ _ d _ => decide (d.toNat % 2 = 0)
  | .cpLd _ _ _ _ o => decide (o.ok)
  | .cpSt _ _ _ _ o => decide (o.ok)
  | .cpMv _ _ _ o => decide (o.ok)
  | .cpm _ _ _ _ o => decide (o.ok)
  | .cpg _ _ _ _ o => decide (o.ok)
  | .cps _ _ _ _ o => decide (o.ok)
  | .cpw _ _ _ o => decide (o.ok)
  | .cpfScratch _ _ _ o => decide (o.ok)
  | .cpfGlobal _ _ _ o => decide (o.ok)
  | .xstat _ what _ => decide (what.toNat ≤ 4)
  | .snop .. | .add .. | .sub .. | .mul .. | .mulh .. | .mulhn ..
  | .div .. | .divn .. | .rem .. | .remn .. | .and .. | .or ..
  | .xor .. | .andn .. | .shl .. | .shr .. | .sar .. | .rol ..
  | .min .. | .max .. | .minn .. | .maxn .. | .seq .. | .sne ..
  | .slt .. | .sltn .. | .sle .. | .slen .. | .clz .. | .ctz ..
  | .popc .. | .brev .. | .addi .. | .andi .. | .ori .. | .xori ..
  | .slti .. | .li .. | .lih .. | .sext .. | .zext .. | .sel ..
  | .mova .. | .wset .. | .wstep .. | .sysrd .. | .syswr .. | .cnop ..
  | .beq .. | .bne .. | .blt .. | .bge .. | .bltn .. | .bgen ..
  | .jmp .. | .jmpg .. | .wait .. | .yield .. | .exit .. | .gjoin ..
  | .gleave .. | .gbar .. | .gcnt .. | .pref .. | .trap .. | .tret ..
  | .lnop .. | .ld .. | .vld .. | .vst .. | .vlds .. | .vsts ..
  | .spld .. | .lda .. | .amow .. | .wopen .. | .wclose .. | .fence ..
  | .drain .. | .waitm .. | .prefd .. | .expose .. | .fix .. | .ldrec ..
  | .clean .. | .vnop .. | .plog .. | .pcnt .. | .mnop .. | .mdrains ..
  | .mdrainw .. | .mzero .. | .mswap .. | .mmodeWrap .. | .mmodeSat .. | .mmodeClrovf ..
  | .mstsave .. | .mstload .. | .mlds .. | .mldst .. | .mldss .. | .xnop ..
  | .xshape .. | .spdef .. | .sbind .. | .sbindNone .. | .spadvP .. | .spadvC ..
  | .xfmt .. | .qpost .. | .qtake .. | .launch .. | .xcoll .. | .xshuf ..
  | .rngsetAdd .. | .rngsetSub ..
    => true
  | .fixedLatencyLanding .. | .beatLanding .. | .loadRetire .. | .accessPerform .. | .walkComplete .. | .windowAdd ..
  | .windowCloseWrite .. | .boundaryFailureTrap .. | .asyncTrap .. | .preempt .. | .restoration .. | .budgetExceeded ..
  | .cutOverrun .. | .matrixSwitch .. | .copyCommandStart .. | .spoolElementFire .. | .copyCommandRetire .. | .commandFailure ..
  | .latentCellRead .. | .evaluatorStart .. | .barrierComplete .. | .queueTermination .. | .launchPlacement .. | .parkedLaunchDrain ..
  | .childQueueStart .. | .launchComplete .. | .cmdLaunch .. | .cmdLaunchIndirect .. | .waitev .. | .waitevSatisfied ..
  | .signal .. | .cmdLoop .. | .cmdIf .. | .cmdCopy .. | .tlbinv .. | .holdpoint ..
  | .tierMove .. | .makeResident .. | .deschedule .. | .consistentCut .. | .cutAbandon .. | .quantumExpiry ..
  | .budgetWindowEnd .. | .lastCollection .. | .queueVacancy .. | .lastCollectionOverrun .. | .restore .. | .restoreReplay ..
  | .vfReset .. | .vfEnable .. | .migration .. | .rankCreate .. | .rankForget .. | .clpart ..
  | .packetRoute .. | .linkFailure .. | .slotRequest .. | .slotLeaseExpiry .. | .collectivePacket .. | .collectiveRetire ..
  | .collTimeout .. | .holdNotice .. | .resumeNotice .. | .shufflePacket .. | .pairingTimeout .. | .overprintDecode ..
  | .reissuePlain .. | .shuffleAbort .. | .shuffleTimeout .. | .shuffleRetire .. | .spill .. | .retry ..
  | .retryResend .. | .seal .. | .sealreq .. | .sealcons .. | .jcons .. | .attreq ..
  | .interruptRecord .. | .mbox .. | .hvmbox .. | .doorbell .. | .qctlRestart .. | .qctlRestartAfter ..
  | .qctlDiscard .. | .fractResume .. | .fractEnd .. | .queueEnable .. | .queueDisable .. | .cap ..
  | .registerWrite .. | .hostWindowRead .. | .hostWindowWrite .. | .thermalLimit .. | .thermalShutdown .. | .powerOn ..
  | .deviceReset .. | .bundleIssue .. | .jhlRetrain .. | .routingTableWrite .. | .dlqcons .. | .temperatureLimitCleared ..
    => true

end Sys2Proof
end

