-- ==== Sys2Proof/Decode.lean ====
section
/-! DEFINITION. Decode.lean: slot words and bundle headers to and from instructions (R49 to R66), total on every word; a word that names no legal operation of its slot decodes to nothing, and the bundle that holds it is illegal (R75). -/

namespace Sys2Proof

/-- The slots by the kind of word they hold; S0 and S1 share one format (R50). -/
inductive Slot where
  | s | l | v | m | x | c
  deriving DecidableEq, Repr

/-- Bits [lo + len - 1 : lo] of a word. -/
def bitsOf (w lo len : Nat) : Nat := w / 2 ^ lo % 2 ^ len

/-- Code of the encoding tables for each Ty. -/
def Ty.code : Ty → Nat
  | .i8 => 0
  | .i16 => 1
  | .i32 => 2
  | .n8 => 3
  | .n16 => 4
  | .n32 => 5
  | .f16 => 6
  | .bf16 => 7
  | .f32 => 8

/-- The Ty of a code; a reserved code names none (R75). -/
def Ty.ofCode : Nat → Option Ty
  | 0 => some .i8
  | 1 => some .i16
  | 2 => some .i32
  | 3 => some .n8
  | 4 => some .n16
  | 5 => some .n32
  | 6 => some .f16
  | 7 => some .bf16
  | 8 => some .f32
  | _ => none

/-- Code of the encoding tables for each RMode. -/
def RMode.code : RMode → Nat
  | .rne => 0
  | .rtz => 1
  | .rup => 2
  | .rdn => 3
  | .sr => 4

/-- The RMode of a code; a reserved code names none (R75). -/
def RMode.ofCode : Nat → Option RMode
  | 0 => some .rne
  | 1 => some .rtz
  | 2 => some .rup
  | 3 => some .rdn
  | 4 => some .sr
  | _ => none

/-- Code of the encoding tables for each Scope. -/
def Scope.code : Scope → Nat
  | .core => 0
  | .cluster => 1
  | .device => 2
  | .system => 3

/-- The Scope of a code; a reserved code names none (R75). -/
def Scope.ofCode : Nat → Option Scope
  | 0 => some .core
  | 1 => some .cluster
  | 2 => some .device
  | 3 => some .system
  | _ => none

/-- Code of the encoding tables for each Sz. -/
def Sz.code : Sz → Nat
  | .i8 => 0
  | .i16 => 1
  | .i32 => 2
  | .n8 => 3
  | .n16 => 4
  | .n32 => 5
  | .b64 => 6

/-- The Sz of a code; a reserved code names none (R75). -/
def Sz.ofCode : Nat → Option Sz
  | 0 => some .i8
  | 1 => some .i16
  | 2 => some .i32
  | 3 => some .n8
  | 4 => some .n16
  | 5 => some .n32
  | 6 => some .b64
  | _ => none

/-- Code of the encoding tables for each FenceKind. -/
def FenceKind.code : FenceKind → Nat
  | .acquire => 0
  | .release => 1
  | .full => 2

/-- The FenceKind of a code; a reserved code names none (R75). -/
def FenceKind.ofCode : Nat → Option FenceKind
  | 0 => some .acquire
  | 1 => some .release
  | 2 => some .full
  | _ => none

/-- Code of the encoding tables for each Aop. -/
def Aop.code : Aop → Nat
  | .swap => 0
  | .add => 1
  | .and => 2
  | .or => 3
  | .xor => 4
  | .min => 5
  | .max => 6
  | .minn => 7
  | .maxn => 8

/-- The Aop of a code; a reserved code names none (R75). -/
def Aop.ofCode : Nat → Option Aop
  | 0 => some .swap
  | 1 => some .add
  | 2 => some .and
  | 3 => some .or
  | 4 => some .xor
  | 5 => some .min
  | 6 => some .max
  | 7 => some .minn
  | 8 => some .maxn
  | _ => none

/-- Code of the encoding tables for each Cnd. -/
def Cnd.code : Cnd → Nat
  | .eq => 0
  | .ne => 1
  | .lt => 2
  | .le => 3
  | .gt => 4
  | .ge => 5
  | .un => 6

/-- The Cnd of a code; a reserved code names none (R75). -/
def Cnd.ofCode : Nat → Option Cnd
  | 0 => some .eq
  | 1 => some .ne
  | 2 => some .lt
  | 3 => some .le
  | 4 => some .gt
  | 5 => some .ge
  | 6 => some .un
  | _ => none

/-- Code of the encoding tables for each Fmt. -/
def Fmt.code : Fmt → Nat
  | .raw => 0
  | .f32 => 1
  | .f16 => 2
  | .bf16 => 3
  | .e5m2 => 4
  | .e4m3 => 5
  | .e3m2 => 6
  | .e2m3 => 7
  | .e2m1 => 8
  | .int16 => 9
  | .int8 => 10
  | .uint8 => 11
  | .int4 => 12
  | .uint4 => 13
  | .int2 => 14
  | .b32e4m3 => 15
  | .b32e2m1 => 16
  | .b128e4m3 => 17
  | .b128e2m1 => 18
  | .aq8 => 19
  | .aq4 => 20

/-- The Fmt of a code; a reserved code names none (R75). -/
def Fmt.ofCode : Nat → Option Fmt
  | 0 => some .raw
  | 1 => some .f32
  | 2 => some .f16
  | 3 => some .bf16
  | 4 => some .e5m2
  | 5 => some .e4m3
  | 6 => some .e3m2
  | 7 => some .e2m3
  | 8 => some .e2m1
  | 9 => some .int16
  | 10 => some .int8
  | 11 => some .uint8
  | 12 => some .int4
  | 13 => some .uint4
  | 14 => some .int2
  | 15 => some .b32e4m3
  | 16 => some .b32e2m1
  | 17 => some .b128e4m3
  | 18 => some .b128e2m1
  | 19 => some .aq8
  | 20 => some .aq4
  | _ => none

/-- Code of the encoding tables for each RedOp. -/
def RedOp.code : RedOp → Nat
  | .add => 0
  | .min => 1
  | .max => 2
  | .and => 3
  | .or => 4
  | .xor => 5

/-- The RedOp of a code; a reserved code names none (R75). -/
def RedOp.ofCode : Nat → Option RedOp
  | 0 => some .add
  | 1 => some .min
  | 2 => some .max
  | 3 => some .and
  | 4 => some .or
  | 5 => some .xor
  | _ => none

/-- Code of the encoding tables for each SysReg. -/
def SysReg.code : SysReg → Nat
  | .status => 0
  | .cause => 1
  | .faddr => 2
  | .epc => 3
  | .flags => 4
  | .ord => 5
  | .ctxid => 6
  | .nctx => 7
  | .vk => 8
  | .nvk => 9
  | .cutcount => 10
  | .mowner => 11
  | .msave => 12
  | .rngkey => 13
  | .rngctrLo => 14
  | .rngctrHi => 15

/-- The SysReg of a code; a reserved code names none (R75). -/
def SysReg.ofCode : Nat → Option SysReg
  | 0 => some .status
  | 1 => some .cause
  | 2 => some .faddr
  | 3 => some .epc
  | 4 => some .flags
  | 5 => some .ord
  | 6 => some .ctxid
  | 7 => some .nctx
  | 8 => some .vk
  | 9 => some .nvk
  | 10 => some .cutcount
  | 11 => some .mowner
  | 12 => some .msave
  | 13 => some .rngkey
  | 14 => some .rngctrLo
  | 15 => some .rngctrHi
  | _ => none

/-- Code of the encoding tables for each ShadowOp. -/
def ShadowOp.code : ShadowOp → Nat
  | .mlds => 1
  | .mldst => 2
  | .mldss => 3

/-- The ShadowOp of a code; a reserved code names none (R75). -/
def ShadowOp.ofCode : Nat → Option ShadowOp
  | 1 => some .mlds
  | 2 => some .mldst
  | 3 => some .mldss
  | _ => none

/-- QA, QB and PX of an extension word; bits [26:0] are reserved (R60). -/
def VExt.ofWord (w : Nat) : Option VExt :=
  if w % 2 ^ 27 = 0 then some ⟨bitsOf w 31 1 == 1, bitsOf w 30 1 == 1, BitVec.ofNat 3 (w / 2 ^ 27)⟩ else none

def VExt.toWord (e : VExt) : Nat := e.qa.toNat * 2 ^ 31 + e.qb.toNat * 2 ^ 30 + e.px.toNat * 2 ^ 27

/-- The extension word of a V-slot operation, when it has one: absent, legal, or reserved. -/
def vext? : Ext → Option (Option VExt)
  | none => some none
  | some w => (VExt.ofWord w.toNat).map some

/-- The shadow field, bits [7:0] of an M word (R58): with SOP 0, SW and SSM are 0. -/
def Shadow.ofBits (b : Nat) : Option (Option Shadow) :=
  if b = 0 then some none
  else (ShadowOp.ofCode (bitsOf b 5 3)).map fun op => some ⟨op, BitVec.ofNat 4 (b / 2), b % 2 == 1⟩

def Shadow.bits : Option Shadow → Nat
  | none => 0
  | some h => h.op.code * 2 ^ 5 + h.w.toNat * 2 + h.mark.toNat

/-- AW, SM and VAR[2] of an XE word (R59, R265): with VAR[2] the AW field names the spool and SM is 0. -/
def CopySide.ofBits (aw sm v2 : Nat) : Option CopySide :=
  if v2 = 1 then (if sm = 0 then some (.spool (BitVec.ofNat 4 aw)) else none)
  else some (.walker (BitVec.ofNat 4 aw) (sm == 1))

def CopySide.bits : CopySide → Nat
  | .walker w m => w.toNat * 2 ^ 8 + m.toNat * 2 ^ 7
  | .spool n => n.toNat * 2 ^ 8 + 4

/-- SCOPE, ACQ and REL of an XE word (R59). -/
def CmdOrder.ofBits (f : Nat) : Option CmdOrder :=
  (Scope.ofCode (bitsOf f 5 2)).map fun sc => ⟨bitsOf f 4 1 == 1, bitsOf f 3 1 == 1, sc⟩

def CmdOrder.bits (o : CmdOrder) : Nat := o.scope.code * 2 ^ 5 + o.acq.toNat * 2 ^ 4 + o.rel.toNat * 2 ^ 3

/-! ### Fields -/

/-- The five-bit field at [24:20], [19:15], [14:10] and [9:5] (R53 to R59). -/
def f20 (f : Nat) : BitVec 5 := BitVec.ofNat 5 (f / 2 ^ 20)
def f15 (f : Nat) : BitVec 5 := BitVec.ofNat 5 (f / 2 ^ 15)
def f10 (f : Nat) : BitVec 5 := BitVec.ofNat 5 (f / 2 ^ 10)
def f5 (f : Nat) : BitVec 5 := BitVec.ofNat 5 (f / 2 ^ 5)
/-- The four-bit walker field at [19:16] (R53, R56). -/
def w16 (f : Nat) : BitVec 4 := BitVec.ofNat 4 (f / 2 ^ 16)

/-- An operation without an extension word whose bits below `lo` that its format reserves are zero. -/
def plainIf (x : Ext) (rest : Nat) (i : Instr) : Option Instr := if x = none ∧ rest = 0 then some i else none

/-- The S slots (R53, R54, R61). -/
def decodeS (op f : Nat) (x : Ext) : Option Instr :=
  match op with
  | 0x00 => plainIf x f .snop
  | 0x01 => plainIf x (f % 2 ^ 10) (.add (f20 f) (f15 f) (f10 f))
  | 0x02 => plainIf x (f % 2 ^ 10) (.sub (f20 f) (f15 f) (f10 f))
  | 0x03 => plainIf x (f % 2 ^ 10) (.mul (f20 f) (f15 f) (f10 f))
  | 0x04 => plainIf x (f % 2 ^ 10) (.mulh (f20 f) (f15 f) (f10 f))
  | 0x05 => plainIf x (f % 2 ^ 10) (.mulhn (f20 f) (f15 f) (f10 f))
  | 0x06 => plainIf x (f % 2 ^ 10) (.div (f20 f) (f15 f) (f10 f))
  | 0x07 => plainIf x (f % 2 ^ 10) (.divn (f20 f) (f15 f) (f10 f))
  | 0x08 => plainIf x (f % 2 ^ 10) (.rem (f20 f) (f15 f) (f10 f))
  | 0x09 => plainIf x (f % 2 ^ 10) (.remn (f20 f) (f15 f) (f10 f))
  | 0x0A => plainIf x (f % 2 ^ 10) (.and (f20 f) (f15 f) (f10 f))
  | 0x0B => plainIf x (f % 2 ^ 10) (.or (f20 f) (f15 f) (f10 f))
  | 0x0C => plainIf x (f % 2 ^ 10) (.xor (f20 f) (f15 f) (f10 f))
  | 0x0D => plainIf x (f % 2 ^ 10) (.andn (f20 f) (f15 f) (f10 f))
  | 0x0E => plainIf x (f % 2 ^ 10) (.shl (f20 f) (f15 f) (f10 f))
  | 0x0F => plainIf x (f % 2 ^ 10) (.shr (f20 f) (f15 f) (f10 f))
  | 0x10 => plainIf x (f % 2 ^ 10) (.sar (f20 f) (f15 f) (f10 f))
  | 0x11 => plainIf x (f % 2 ^ 10) (.rol (f20 f) (f15 f) (f10 f))
  | 0x12 => plainIf x (f % 2 ^ 10) (.min (f20 f) (f15 f) (f10 f))
  | 0x13 => plainIf x (f % 2 ^ 10) (.max (f20 f) (f15 f) (f10 f))
  | 0x14 => plainIf x (f % 2 ^ 10) (.minn (f20 f) (f15 f) (f10 f))
  | 0x15 => plainIf x (f % 2 ^ 10) (.maxn (f20 f) (f15 f) (f10 f))
  | 0x16 => plainIf x (f % 2 ^ 10) (.seq (f20 f) (f15 f) (f10 f))
  | 0x17 => plainIf x (f % 2 ^ 10) (.sne (f20 f) (f15 f) (f10 f))
  | 0x18 => plainIf x (f % 2 ^ 10) (.slt (f20 f) (f15 f) (f10 f))
  | 0x19 => plainIf x (f % 2 ^ 10) (.sltn (f20 f) (f15 f) (f10 f))
  | 0x1A => plainIf x (f % 2 ^ 10) (.sle (f20 f) (f15 f) (f10 f))
  | 0x1B => plainIf x (f % 2 ^ 10) (.slen (f20 f) (f15 f) (f10 f))
  | 0x1C => plainIf x (f % 2 ^ 15) (.clz (f20 f) (f15 f))
  | 0x1D => plainIf x (f % 2 ^ 15) (.ctz (f20 f) (f15 f))
  | 0x1E => plainIf x (f % 2 ^ 15) (.popc (f20 f) (f15 f))
  | 0x1F => plainIf x (f % 2 ^ 15) (.brev (f20 f) (f15 f))
  | 0x20 => some (.addi x (f20 f) (f15 f) (BitVec.ofNat 15 f))
  | 0x21 => some (.andi x (f20 f) (f15 f) (BitVec.ofNat 15 f))
  | 0x22 => some (.ori x (f20 f) (f15 f) (BitVec.ofNat 15 f))
  | 0x23 => some (.xori x (f20 f) (f15 f) (BitVec.ofNat 15 f))
  | 0x24 => plainIf x 0 (.shli (f20 f) (f15 f) (BitVec.ofNat 15 f))
  | 0x25 => plainIf x 0 (.shri (f20 f) (f15 f) (BitVec.ofNat 15 f))
  | 0x26 => plainIf x 0 (.sari (f20 f) (f15 f) (BitVec.ofNat 15 f))
  | 0x27 => some (.slti x (f20 f) (f15 f) (BitVec.ofNat 15 f))
  | 0x28 => if bitsOf f 15 5 = 0 then some (.li x (f20 f) (BitVec.ofNat 15 f)) else none
  | 0x29 => some (.lih x (f20 f) (f15 f) (BitVec.ofNat 15 f))
  | 0x2A => plainIf x (f % 2 ^ 3) (.bfx (f20 f) (f15 f) (BitVec.ofNat 6 (f / 2 ^ 9)) (BitVec.ofNat 6 (f / 2 ^ 3)))
  | 0x2B => plainIf x (f % 2 ^ 3) (.bfxn (f20 f) (f15 f) (BitVec.ofNat 6 (f / 2 ^ 9)) (BitVec.ofNat 6 (f / 2 ^ 3)))
  | 0x2C => plainIf x (f % 2 ^ 3) (.bfi (f20 f) (f15 f) (BitVec.ofNat 6 (f / 2 ^ 9)) (BitVec.ofNat 6 (f / 2 ^ 3)))
  | 0x2D => plainIf x (f % 2 ^ 3 + bitsOf f 9 6) (.sext (f20 f) (f15 f) (BitVec.ofNat 6 (f / 2 ^ 3)))
  | 0x2E => plainIf x (f % 2 ^ 3 + bitsOf f 9 6) (.zext (f20 f) (f15 f) (BitVec.ofNat 6 (f / 2 ^ 3)))
  | 0x2F => plainIf x (f % 2 ^ 5) (.sel (f20 f) (f15 f) (f10 f) (f5 f))
  | 0x30 => plainIf x (f % 2 ^ 16) (.mova (f20 f) (w16 f))
  | 0x31 => if bitsOf f 13 3 = 0 then some (.wset x (f20 f) (w16 f) (BitVec.ofNat 13 f)) else none
  | 0x32 => if bitsOf f 13 3 = 0 then some (.wstep x (f20 f) (w16 f) (BitVec.ofNat 13 f)) else none
  | 0x33 => some (.wstride x (f20 f) (w16 f) (BitVec.ofNat 3 (f / 2 ^ 13)) (BitVec.ofNat 13 f))
  | 0x34 => if x = none ∧ f % 2 ^ 14 = 0 then (SysReg.ofCode (bitsOf f 14 6)).map (.sysrd (f20 f)) else none
  | 0x35 => if x = none ∧ f % 2 ^ 14 = 0 then (SysReg.ofCode (bitsOf f 14 6)).map (.syswr (f20 f)) else none
  | _ => none

/-- The C slot (R55, R62). -/
def decodeC (op f : Nat) (x : Ext) : Option Instr :=
  match op with
  | 0x00 => plainIf x f .cnop
  | 0x01 => some (.beq x (f20 f) (f15 f) (BitVec.ofNat 15 f))
  | 0x02 => some (.bne x (f20 f) (f15 f) (BitVec.ofNat 15 f))
  | 0x03 => some (.blt x (f20 f) (f15 f) (BitVec.ofNat 15 f))
  | 0x04 => some (.bge x (f20 f) (f15 f) (BitVec.ofNat 15 f))
  | 0x05 => some (.bltn x (f20 f) (f15 f) (BitVec.ofNat 15 f))
  | 0x06 => some (.bgen x (f20 f) (f15 f) (BitVec.ofNat 15 f))
  | 0x07 => if bitsOf f 15 10 = 0 then some (.jmp x (BitVec.ofNat 15 f)) else none
  | 0x08 => plainIf x (f % 2 ^ 20) (.jmpg (f20 f))
  | 0x09 => some (.loop x (BitVec.ofNat 3 (f / 2 ^ 22)) (BitVec.ofNat 8 (f / 2 ^ 14)) (bitsOf f 13 1 == 1) (BitVec.ofNat 13 f))
  | 0x0A => plainIf x (f % 2 ^ 22) (.loopbrk (BitVec.ofNat 3 (f / 2 ^ 22)))
  | 0x0B => plainIf x (f % 2 ^ 9) (.wait (BitVec.ofNat 4 (f / 2 ^ 21)) (BitVec.ofNat 4 (f / 2 ^ 17)) (BitVec.ofNat 4 (f / 2 ^ 13)) (BitVec.ofNat 4 (f / 2 ^ 9)))
  | 0x0C => plainIf x f .yield
  | 0x0D => plainIf x f .exit
  | 0x0E => plainIf x (bitsOf f 20 5 + f % 2 ^ 5) (.gjoin (f15 f) (BitVec.ofNat 10 (f / 2 ^ 5)))
  | 0x0F => plainIf x (bitsOf f 20 5 + f % 2 ^ 5) (.gleave (f15 f) (BitVec.ofNat 10 (f / 2 ^ 5)))
  | 0x10 => plainIf x (bitsOf f 20 5 + f % 2 ^ 5) (.gbar (f15 f) (BitVec.ofNat 10 (f / 2 ^ 5)))
  | 0x11 => plainIf x (f % 2 ^ 5) (.gcnt (f20 f) (f15 f) (BitVec.ofNat 10 (f / 2 ^ 5)))
  | 0x12 => some (.pref x (f20 f) (BitVec.ofNat 20 f))
  | 0x13 => plainIf x (bitsOf f 16 9) (.trap (BitVec.ofNat 16 f))
  | 0x14 => plainIf x f .tret
  | 0x15 => plainIf x (bitsOf f 4 21) (.ordset (BitVec.ofNat 4 f))
  | _ => none

/-- The L slot (R56, R63). -/
def decodeL (op f : Nat) (x : Ext) : Option Instr :=
  match op with
  | 0x00 => plainIf x f .lnop
  | 0x01 => (Sz.ofCode (bitsOf f 12 3)).map fun sz => .ld x (f20 f) (f15 f) sz (BitVec.ofNat 12 f)
  | 0x02 => (Sz.ofCode (bitsOf f 12 3)).map fun sz => .st x (f20 f) (f15 f) sz (BitVec.ofNat 12 f)
  | 0x03 => some (.vld x (f20 f) (f15 f) (BitVec.ofNat 3 (f / 2 ^ 12)) (BitVec.ofNat 12 f))
  | 0x04 => some (.vst x (f20 f) (f15 f) (BitVec.ofNat 3 (f / 2 ^ 12)) (BitVec.ofNat 12 f))
  | 0x05 => plainIf x (f % 2 ^ 12) (.vlds (f20 f) (w16 f) (bitsOf f 15 1 == 1) (BitVec.ofNat 3 (f / 2 ^ 12)))
  | 0x06 => plainIf x (f % 2 ^ 12) (.vsts (f20 f) (w16 f) (bitsOf f 15 1 == 1) (BitVec.ofNat 3 (f / 2 ^ 12)))
  | 0x07 => if x = none ∧ f % 2 ^ 12 = 0 then (Sz.ofCode (bitsOf f 12 3)).map (.spld (f20 f) (w16 f) (bitsOf f 15 1 == 1)) else none
  | 0x08 => if x = none ∧ f % 2 ^ 12 = 0 then (Sz.ofCode (bitsOf f 12 3)).map (.spst (f20 f) (w16 f) (bitsOf f 15 1 == 1)) else none
  | 0x09 => (Sz.ofCode (bitsOf f 12 3)).bind fun sz => (Scope.ofCode (bitsOf f 10 2)).map fun sc => .lda x (f20 f) (f15 f) sz sc (BitVec.ofNat 10 f)
  | 0x0A => (Sz.ofCode (bitsOf f 12 3)).bind fun sz => (Scope.ofCode (bitsOf f 10 2)).map fun sc => .stl x (f20 f) (f15 f) sz sc (BitVec.ofNat 10 f)
  | 0x0B => if x = none ∧ f % 2 ^ 2 = 0 then
      (Aop.ofCode (bitsOf f 6 4)).bind fun o => (Scope.ofCode (bitsOf f 3 2)).map fun sc =>
        .amo (f20 f) (f15 f) (f10 f) o (bitsOf f 5 1 == 1) sc (bitsOf f 2 1 == 1)
    else none
  | 0x0C => if x = none ∧ f % 2 = 0 then
      (Scope.ofCode (bitsOf f 2 2)).map fun sc => .cas (f20 f) (f15 f) (f10 f) (f5 f) (bitsOf f 4 1 == 1) sc (bitsOf f 1 1 == 1)
    else none
  | 0x0D => plainIf x (bitsOf f 20 5 + f % 2 ^ 10) (.amow (f15 f) (f10 f))
  | 0x0E => plainIf x (bitsOf f 20 5 + f % 2 ^ 10) (.wopen (f15 f) (f10 f))
  | 0x0F => plainIf x (bitsOf f 20 5 + f % 2 ^ 15) (.wclose (f15 f))
  | 0x10 => if x = none ∧ f % 2 ^ 21 = 0 then
      (Scope.ofCode (bitsOf f 23 2)).bind fun sc => (FenceKind.ofCode (bitsOf f 21 2)).map fun k => .fence sc k
    else none
  | 0x11 => plainIf x f .drain
  | 0x12 => if x = none ∧ f % 2 ^ 8 = 0 then (Scope.ofCode (bitsOf f 8 2)).map (.waitm (f20 f) (f15 f) (f10 f)) else none
  | 0x13 => if bitsOf f 20 5 = 0 ∧ bitsOf f 13 2 = 0 then some (.prefd x (f15 f) (bitsOf f 12 1 == 1) (BitVec.ofNat 12 f)) else none
  | 0x14 => plainIf x (bitsOf f 20 5 + f % 2 ^ 10) (.expose (f15 f) (f10 f))
  | 0x15 => plainIf x (bitsOf f 20 5 + f % 2 ^ 10) (.fix (f15 f) (f10 f))
  | 0x16 => plainIf x (f % 2 ^ 10) (.ldrec (f20 f) (f15 f) (f10 f))
  | 0x17 => if bitsOf f 12 3 = 0 then some (.clean x (f20 f) (f15 f) (BitVec.ofNat 12 f)) else none
  | _ => none

/-- Element type, mode and predicate fields of format V3 and VG (R57). -/
def v3T (f : Nat) (k : Ty → Option Instr) : Option Instr := (Ty.ofCode (bitsOf f 6 4)).bind k
def v3M (f : Nat) (k : RMode → Instr) : Option Instr := (RMode.ofCode (bitsOf f 3 3)).map k
def v3P (f : Nat) : PR := BitVec.ofNat 3 f

/-- An instruction whose MODE field is unused (R52, R109). -/
def noMode (f : Nat) (i : Instr) : Option Instr := if bitsOf f 3 3 = 0 then some i else none

/-- The V-slot operations that may carry an extension word (R57, R60, R64), that word already read. -/
def decodeVx (op f : Nat) (x : Option VExt) : Option Instr :=
  match op with
  | 0x01 => v3T f fun t => v3M f fun m => .vadd x (f20 f) (f15 f) (f10 f) t m (v3P f)
  | 0x02 => v3T f fun t => v3M f fun m => .vsub x (f20 f) (f15 f) (f10 f) t m (v3P f)
  | 0x03 => v3T f fun t => v3M f fun m => .vmul x (f20 f) (f15 f) (f10 f) t m (v3P f)
  | 0x04 => v3T f fun t => v3M f fun m => .vfma x (f20 f) (f15 f) (f10 f) t m (v3P f)
  | 0x05 => v3T f fun t => noMode f (.vmin x (f20 f) (f15 f) (f10 f) t (v3P f))
  | 0x06 => v3T f fun t => noMode f (.vmax x (f20 f) (f15 f) (f10 f) t (v3P f))
  | 0x07 => if bitsOf f 10 5 = 0 then v3T f fun t => noMode f (.vabs x (f20 f) (f15 f) t (v3P f)) else none
  | 0x08 => if bitsOf f 10 5 = 0 then v3T f fun t => noMode f (.vneg x (f20 f) (f15 f) t (v3P f)) else none
  | 0x09 => v3T f fun t => noMode f (.vadds x (f20 f) (f15 f) (f10 f) t (v3P f))
  | 0x0A => v3T f fun t => noMode f (.vsubs x (f20 f) (f15 f) (f10 f) t (v3P f))
  | 0x0B => v3T f fun t => noMode f (.vand x (f20 f) (f15 f) (f10 f) t (v3P f))
  | 0x0C => v3T f fun t => noMode f (.vor x (f20 f) (f15 f) (f10 f) t (v3P f))
  | 0x0D => v3T f fun t => noMode f (.vxor x (f20 f) (f15 f) (f10 f) t (v3P f))
  | 0x0E => v3T f fun t => noMode f (.vshl x (f20 f) (f15 f) (f10 f) t (v3P f))
  | 0x0F => v3T f fun t => noMode f (.vshr x (f20 f) (f15 f) (f10 f) t (v3P f))
  | 0x10 => v3T f fun t => noMode f (.vsar x (f20 f) (f15 f) (f10 f) t (v3P f))
  | 0x11 => v3T f fun t => noMode f (.vclamp x (f20 f) (f15 f) (f10 f) t (v3P f))
  | 0x12 => v3T f fun t => v3M f fun m => .vdiv x (f20 f) (f15 f) (f10 f) t m (v3P f)
  | 0x13 => if bitsOf f 10 5 = 0 then v3T f fun t => v3M f fun m => .vsqrt x (f20 f) (f15 f) t m (v3P f) else none
  | 0x14 => if bitsOf f 10 5 = 0 then v3T f fun t => v3M f fun m => .vrcp x (f20 f) (f15 f) t m (v3P f) else none
  | 0x15 => if bitsOf f 10 5 = 0 then v3T f fun t => v3M f fun m => .vrsq x (f20 f) (f15 f) t m (v3P f) else none
  | 0x16 => if bitsOf f 10 5 = 0 then v3T f fun t => v3M f fun m => .vexp x (f20 f) (f15 f) t m (v3P f) else none
  | 0x17 => if bitsOf f 10 5 = 0 then v3T f fun t => v3M f fun m => .vexp2 x (f20 f) (f15 f) t m (v3P f) else none
  | 0x18 => if bitsOf f 10 5 = 0 then v3T f fun t => v3M f fun m => .vlog2 x (f20 f) (f15 f) t m (v3P f) else none
  | 0x19 => if bitsOf f 10 5 = 0 then v3T f fun t => v3M f fun m => .vtanh x (f20 f) (f15 f) t m (v3P f) else none
  | 0x1A => if bitsOf f 10 5 = 0 then v3T f fun t => v3M f fun m => .vrint x (f20 f) (f15 f) t m (v3P f) else none
  | 0x1C => v3T f fun t => noMode f (.vsel x (f20 f) (f15 f) (f10 f) t (v3P f))
  | 0x21 => v3T f fun t => noMode f (.vgath x (f20 f) (f15 f) (f10 f) t (v3P f))
  | 0x22 => v3T f fun t => noMode f (.vscat x (f20 f) (f15 f) (f10 f) t (v3P f))
  | 0x23 => v3T f fun t => noMode f (.vperm x (f20 f) (f15 f) (f10 f) t (v3P f))
  | 0x24 => v3T f fun t => noMode f (.vzip x (f20 f) (f15 f) (f10 f) t (v3P f))
  | 0x25 => v3T f fun t => noMode f (.vunzip x (f20 f) (f15 f) (f10 f) t (v3P f))
  | 0x2D => if bitsOf f 10 5 = 0 then v3T f fun t => noMode f (.vmov x (f20 f) (f15 f) t (v3P f)) else none
  | 0x1B => if f % 2 ^ 2 = 0 then
      (Ty.ofCode (bitsOf f 8 4)).bind fun t => (Cnd.ofCode (bitsOf f 5 3)).map fun c =>
        .vcmp x (BitVec.ofNat 3 (f / 2 ^ 22)) (BitVec.ofNat 5 (f / 2 ^ 17)) (BitVec.ofNat 5 (f / 2 ^ 12)) t c (BitVec.ofNat 3 (f / 2 ^ 2))
    else none
  | 0x1D => if f % 2 ^ 2 = 0 then
      (Fmt.ofCode (bitsOf f 10 5)).bind fun nf => v3T f fun t => v3M f fun m => .vcvt x (f20 f) (f15 f) nf t m (bitsOf f 2 1 == 1)
    else none
  | 0x1E => (RedOp.ofCode (bitsOf f 10 5)).bind fun o => v3T f fun t => v3M f fun m => .vred x (f20 f) (f15 f) o t m (v3P f)
  | 0x1F => (RedOp.ofCode (bitsOf f 10 5)).bind fun o => v3T f fun t => v3M f fun m => .vscan x (f20 f) (f15 f) o t m (v3P f)
  | 0x20 => if bitsOf f 10 5 = 0 then v3T f fun t => noMode f (.vpart x (f20 f) (f15 f) t (v3P f)) else none
  | 0x26 => if bitsOf f 15 5 = 0 then v3T f fun t => noMode f (.vbcast x (f20 f) (f10 f) t (v3P f)) else none
  | 0x27 => if f % 2 ^ 3 = 0 then v3T f fun t => noMode f (.vext x (f20 f) (f15 f) (f10 f) t) else none
  | 0x28 => if f % 2 ^ 3 = 0 then v3T f fun t => noMode f (.vins x (f20 f) (f15 f) (f10 f) t) else none
  | 0x29 => if bitsOf f 15 5 = 0 then v3T f fun t => noMode f (.viota x (f20 f) (f10 f) t (v3P f)) else none
  | 0x2A => if bitsOf f 10 10 = 0 then v3T f fun t => noMode f (.vrand x (f20 f) t (v3P f)) else none
  | _ => none

/-- The V slot (R57, R64). -/
def decodeV (op f : Nat) (x : Ext) : Option Instr :=
  match op with
  | 0x00 => plainIf x f .vnop
  | 0x2B => plainIf x (f % 2 ^ 12) (.plog (BitVec.ofNat 3 (f / 2 ^ 22)) (BitVec.ofNat 3 (f / 2 ^ 19)) (BitVec.ofNat 3 (f / 2 ^ 16)) (BitVec.ofNat 4 (f / 2 ^ 12)))
  | 0x2C => plainIf x (bitsOf f 22 3 + bitsOf f 12 4 + f % 2 ^ 7) (.pcnt (BitVec.ofNat 3 (f / 2 ^ 19)) (BitVec.ofNat 3 (f / 2 ^ 16)) (BitVec.ofNat 5 (f / 2 ^ 7)))
  | _ => (vext? x).bind (decodeVx op f)

/-- The accumulator-row walker of a beat and its mark (R58). -/
def mAA (f : Nat) : AR := BitVec.ofNat 4 (f / 2 ^ 21)
def mAM (f : Nat) : Bool := bitsOf f 20 1 == 1

/-- The beat of an M word, its shadow field already read (R58, R65). The shadow operations of an MNOP beat are rows of their own. -/
def decodeBeat (op f : Nat) (h : Option Shadow) : Option Instr :=
  match op with
  | 0x00 => if bitsOf f 8 17 = 0 then
      match h with
      | none => some .mnop
      | some ⟨.mlds, w, k⟩ => some (.mlds w k)
      | some ⟨.mldst, w, k⟩ => some (.mldst w k)
      | some ⟨.mldss, w, k⟩ => some (.mldss w k)
    else none
  | 0x01 => if bitsOf f 8 6 = 0 then some (.mpush (mAA f) (mAM f) (w16 f) (bitsOf f 15 1 == 1) (bitsOf f 14 1 == 1) h) else none
  | 0x02 => if bitsOf f 8 6 = 0 then some (.mpushz (mAA f) (mAM f) (w16 f) (bitsOf f 15 1 == 1) (bitsOf f 14 1 == 1) h) else none
  | 0x03 => if bitsOf f 8 7 = 0 then some (.mdrain (mAA f) (mAM f) (f15 f) h) else none
  | 0x04 => if bitsOf f 8 7 = 0 then some (.mdrainz (mAA f) (mAM f) (f15 f) h) else none
  | 0x05 => if bitsOf f 8 7 = 0 then some (.mdrains (mAA f) (mAM f) (w16 f) (bitsOf f 15 1 == 1) h) else none
  | 0x06 => if bitsOf f 8 7 = 0 then some (.mdrainw (mAA f) (mAM f) (f15 f) h) else none
  | 0x07 => if bitsOf f 8 12 = 0 then some (.mzero (mAA f) (mAM f) h) else none
  | 0x08 => if bitsOf f 8 17 = 0 ∧ h = none then some .mswap else none
  | 0x09 => if bitsOf f 8 13 = 0 then
      match bitsOf f 21 4 with
      | 0 => some (.mmodeWrap h)
      | 1 => some (.mmodeSat h)
      | 2 => some (.mmodeClrovf h)
      | _ => none
    else none
  | 0x0A => if bitsOf f 8 12 = 0 then some (.mstsave (f20 f) h) else none
  | 0x0B => if bitsOf f 8 12 = 0 then some (.mstload (f20 f) h) else none
  | _ => none

/-- The M slot (R58, R65, R141); E is reserved. -/
def decodeM (op f : Nat) (x : Ext) : Option Instr :=
  if x = none then (Shadow.ofBits (f % 2 ^ 8)).bind (decodeBeat op f) else none

/-- AW, SM and VAR[2] of an XE word. -/
def xSide (f : Nat) : Option CopySide := CopySide.ofBits (bitsOf f 8 4) (bitsOf f 7 1) (bitsOf f 2 1)
/-- XS of an XE word. -/
def xXS (f : Nat) : XR := BitVec.ofNat 3 (f / 2 ^ 12)

/-- The copy commands (R265), whose VAR codes choose the form. -/
def decodeXE (op f : Nat) : Option Instr :=
  match op, bitsOf f 0 2 with
  | 0x01, 0 => (xSide f).bind fun s => (CmdOrder.ofBits f).map (.cpLd (f20 f) (f15 f) (xXS f) s)
  | 0x01, 1 => (xSide f).bind fun s => (CmdOrder.ofBits f).map (.cpSt (f20 f) (f15 f) (xXS f) s)
  | 0x01, 2 => if bitsOf f 20 5 = 0 then (xSide f).bind fun s => (CmdOrder.ofBits f).map (.cpMv (f15 f) (xXS f) s) else none
  | 0x02, 0 => if bitsOf f 2 1 = 1 ∧ bitsOf f 7 1 = 0 then (CmdOrder.ofBits f).map (.cpm (f20 f) (f15 f) (xXS f) (BitVec.ofNat 4 (f / 2 ^ 8))) else none
  | 0x03, 0 => (xSide f).bind fun s => (CmdOrder.ofBits f).map (.cpg (f20 f) (f15 f) (xXS f) s)
  | 0x04, 1 => (xSide f).bind fun s => (CmdOrder.ofBits f).map (.cps (f20 f) (f15 f) (xXS f) s)
  | 0x05, 1 => if bitsOf f 15 5 = 0 then (xSide f).bind fun s => (CmdOrder.ofBits f).map (.cpw (f20 f) (xXS f) s) else none
  | 0x06, 0 => if bitsOf f 20 5 = 0 then (xSide f).bind fun s => (CmdOrder.ofBits f).map (.cpfScratch (f15 f) (xXS f) s) else none
  | 0x06, 1 => if bitsOf f 2 1 = 0 ∧ bitsOf f 7 5 = 0 then (CmdOrder.ofBits f).map (.cpfGlobal (f20 f) (f15 f) (xXS f)) else none
  | _, _ => none

/-- XS and SP of an XR word. -/
def rXS (f : Nat) : BitVec 3 := BitVec.ofNat 3 (f / 2 ^ 7)
def rQ (f : Nat) : BitVec 3 := BitVec.ofNat 3 (f / 2 ^ 4)
def rSP (f : Nat) : BitVec 4 := BitVec.ofNat 4 f

/-- The X slot (R59, R66, R275); only SPDEF takes an extension word. -/
def decodeX (op f : Nat) (x : Ext) : Option Instr :=
  match op, x with
  | 0x08, some e =>
    if bitsOf f 4 16 = 0 ∧ e.toNat < 2 ^ 10 then some (.spdef (f20 f) (rSP f) (BitVec.ofNat 8 e.toNat) (BitVec.ofNat 2 (e.toNat / 2 ^ 8))) else none
  | 0x00, none => if f = 0 then some .xnop else none
  | 0x07, none => if bitsOf f 10 5 = 0 ∧ bitsOf f 1 6 = 0 then some (.xshape (f20 f) (f15 f) (rXS f) (bitsOf f 0 1 == 1)) else none
  | 0x09, none =>
    if bitsOf f 11 14 = 0 ∧ bitsOf f 7 3 = 0 then
      (if bitsOf f 10 1 = 0 then some (.sbind (rQ f) (rSP f)) else if bitsOf f 0 4 = 0 then some (.sbindNone (rQ f)) else none)
    else none
  | 0x0A, none =>
    if bitsOf f 8 12 = 0 ∧ bitsOf f 4 3 = 0 then
      (if bitsOf f 7 1 = 0 then some (.spadvP (f20 f) (rSP f)) else some (.spadvC (f20 f) (rSP f)))
    else none
  | 0x0B, none => if f % 2 ^ 15 = 0 then some (.xfmt (f20 f) (f15 f)) else none
  | 0x0C, none => if bitsOf f 7 13 = 0 ∧ bitsOf f 0 4 = 0 then some (.qpost (f20 f) (rQ f)) else none
  | 0x0D, none => if bitsOf f 7 8 = 0 ∧ bitsOf f 0 4 = 0 then some (.qtake (f20 f) (f15 f) (rQ f)) else none
  | 0x0E, none => if f % 2 ^ 20 = 0 then some (.launch (f20 f)) else none
  | 0x0F, none => if f % 2 ^ 20 = 0 then some (.xcoll (f20 f)) else none
  | 0x10, none => if f % 2 ^ 20 = 0 then some (.xshuf (f20 f)) else none
  | 0x11, none => if bitsOf f 10 10 = 0 ∧ bitsOf f 4 3 = 0 then some (.xstat (f20 f) (rXS f) (rSP f)) else none
  | 0x12, none =>
    if bitsOf f 8 7 = 0 ∧ f % 2 ^ 7 = 0 then
      (if bitsOf f 7 1 = 0 then some (.rngsetAdd (f20 f) (f15 f)) else some (.rngsetSub (f20 f) (f15 f)))
    else none
  | _, none => decodeXE op f
  | _, some _ => none

/-- A slot word by its slot, its opcode in [31:26] and its E bit in [25] (R51), before the codes it reserves are looked at. -/
def decodeRaw (sl : Slot) (op f : Nat) (x : Ext) : Option Instr :=
  match sl with
  | .s => decodeS op f x
  | .c => decodeC op f x
  | .l => decodeL op f x
  | .v => decodeV op f x
  | .m => decodeM op f x
  | .x => decodeX op f x

/-- The legal operation that a slot word with its extension word names; none is a reserved encoding (R75). -/
def decodeSlot (sl : Slot) (w : W32) (x : Ext) : Option Instr :=
  if (bitsOf w.toNat 25 1 == 1) = x.isSome then
    match decodeRaw sl (bitsOf w.toNat 26 6) (w.toNat % 2 ^ 25) x with
    | some i => if i.wf then some i else none
    | none => none
  else none

/-! ### The encoder -/

/-- Slot of an encoded operation (R61 to R66); none for an event. -/
def Instr.slot : Instr → Option Slot
  | .snop .. | .add .. | .sub .. | .mul .. | .mulh .. | .mulhn ..
  | .div .. | .divn .. | .rem .. | .remn .. | .and .. | .or ..
  | .xor .. | .andn .. | .shl .. | .shr .. | .sar .. | .rol ..
  | .min .. | .max .. | .minn .. | .maxn .. | .seq .. | .sne ..
  | .slt .. | .sltn .. | .sle .. | .slen .. | .clz .. | .ctz ..
  | .popc .. | .brev .. | .addi .. | .andi .. | .ori .. | .xori ..
  | .shli .. | .shri .. | .sari .. | .slti .. | .li .. | .lih ..
  | .bfx .. | .bfxn .. | .bfi .. | .sext .. | .zext .. | .sel ..
  | .mova .. | .wset .. | .wstep .. | .wstride .. | .sysrd .. | .syswr ..
    => some .s
  | .cnop .. | .beq .. | .bne .. | .blt .. | .bge .. | .bltn ..
  | .bgen .. | .jmp .. | .jmpg .. | .loop .. | .loopbrk .. | .wait ..
  | .yield .. | .exit .. | .gjoin .. | .gleave .. | .gbar .. | .gcnt ..
  | .pref .. | .trap .. | .tret .. | .ordset ..
    => some .c
  | .lnop .. | .ld .. | .st .. | .vld .. | .vst .. | .vlds ..
  | .vsts .. | .spld .. | .spst .. | .lda .. | .stl .. | .amo ..
  | .cas .. | .amow .. | .wopen .. | .wclose .. | .fence .. | .drain ..
  | .waitm .. | .prefd .. | .expose .. | .fix .. | .ldrec .. | .clean ..
    => some .l
  | .vnop .. | .vadd .. | .vsub .. | .vmul .. | .vfma .. | .vmin ..
  | .vmax .. | .vabs .. | .vneg .. | .vadds .. | .vsubs .. | .vand ..
  | .vor .. | .vxor .. | .vshl .. | .vshr .. | .vsar .. | .vclamp ..
  | .vdiv .. | .vsqrt .. | .vrcp .. | .vrsq .. | .vexp .. | .vexp2 ..
  | .vlog2 .. | .vtanh .. | .vrint .. | .vcmp .. | .vsel .. | .vcvt ..
  | .vred .. | .vscan .. | .vpart .. | .vgath .. | .vscat .. | .vperm ..
  | .vzip .. | .vunzip .. | .vbcast .. | .vext .. | .vins .. | .viota ..
  | .vrand .. | .plog .. | .pcnt .. | .vmov ..
    => some .v
  | .mnop .. | .mpush .. | .mpushz .. | .mdrain .. | .mdrainz .. | .mdrains ..
  | .mdrainw .. | .mzero .. | .mswap .. | .mmodeWrap .. | .mmodeSat .. | .mmodeClrovf ..
  | .mstsave .. | .mstload .. | .mlds .. | .mldst .. | .mldss ..
    => some .m
  | .xnop .. | .cpLd .. | .cpSt .. | .cpMv .. | .cpm .. | .cpg ..
  | .cps .. | .cpw .. | .cpfScratch .. | .cpfGlobal .. | .xshape .. | .spdef ..
  | .sbind .. | .sbindNone .. | .spadvP .. | .spadvC .. | .xfmt .. | .qpost ..
  | .qtake .. | .launch .. | .xcoll .. | .xshuf .. | .xstat .. | .rngsetAdd ..
  | .rngsetSub ..
    => some .x
  | .fixedLatencyLanding .. | .beatLanding .. | .loadRetire .. | .accessPerform .. | .walkComplete .. | .windowAdd ..
  | .windowCloseWrite .. | .boundaryFailureTrap .. | .asyncTrap .. | .preempt .. | .restoration .. | .budgetExceeded ..
  | .cutOverrun .. | .matrixSwitch .. | .copyCommandStart .. | .spoolElementFire .. | .copyCommandRetire .. | .commandFailure ..
  | .latentCellRead .. | .evaluatorStart .. | .barrierComplete .. | .queueTermination .. | .launchPlacement .. | .parkedLaunchDrain ..
  | .childQueueStart .. | .launchComplete .. | .cmdLaunch .. | .cmdLaunchIndirect .. | .waitev .. | .waitevSatisfied ..
  | .signal .. | .cmdLoop .. | .cmdIf .. | .cmdCopy .. | .tlbinv .. | .holdpoint ..
  | .tierMove .. | .makeResident .. | .deschedule .. | .consistentCut .. | .cutAbandon .. | .quantumExpiry ..
  | .budgetWindowEnd .. | .lastCollection .. | .queueVacancy .. | .lastCollectionOverrun .. | .restore .. | .restoreReplay ..
  | .vfReset .. | .vfEnable .. | .migration .. | .rankCreate .. | .rankForget .. | .clpart ..
  | .packetRoute .. | .linkFailure .. | .slotRequest .. | .slotLeaseExpiry .. | .collectivePacket .. | .collectiveRetire ..
  | .collTimeout .. | .holdNotice .. | .resumeNotice .. | .shufflePacket .. | .pairingTimeout .. | .overprintDecode ..
  | .reissuePlain .. | .shuffleAbort .. | .shuffleTimeout .. | .shuffleRetire .. | .spill .. | .retry ..
  | .retryResend .. | .seal .. | .sealreq .. | .sealcons .. | .jcons .. | .attreq ..
  | .interruptRecord .. | .mbox .. | .hvmbox .. | .doorbell .. | .qctlRestart .. | .qctlRestartAfter ..
  | .qctlDiscard .. | .fractResume .. | .fractEnd .. | .queueEnable .. | .queueDisable .. | .cap ..
  | .registerWrite .. | .hostWindowRead .. | .hostWindowWrite .. | .thermalLimit .. | .thermalShutdown .. | .powerOn ..
  | .deviceReset .. | .bundleIssue .. | .jhlRetrain .. | .routingTableWrite .. | .dlqcons .. | .temperatureLimitCleared ..
    => none

/-- Packed fields of the formats (R53 to R59). -/
def p20 (d : BitVec 5) : Nat := d.toNat * 2 ^ 20
def p15 (d : BitVec 5) : Nat := d.toNat * 2 ^ 15
def p10 (d : BitVec 5) : Nat := d.toNat * 2 ^ 10
def pV3 (d a b : BitVec 5) (t : Ty) (m : RMode) (p : PR) : Nat :=
  p20 d + p15 a + p10 b + t.code * 2 ^ 6 + m.code * 2 ^ 3 + p.toNat
def pMA (a : AR) (am : Bool) : Nat := a.toNat * 2 ^ 21 + am.toNat * 2 ^ 20
def pXE (a b : GR) (x : XR) (s : CopySide) (o : CmdOrder) (var : Nat) : Nat :=
  p20 a + p15 b + x.toNat * 2 ^ 12 + s.bits + o.bits + var

/-- Opcode, extension word and bits [24:0] of an operation (R53 to R66); none for an event. -/
def Instr.fields : Instr → Option (Nat × Ext × Nat)
  | .snop => some (0x00, none, 0)
  | .add d a b => some (0x01, none, p20 d + p15 a + p10 b)
  | .sub d a b => some (0x02, none, p20 d + p15 a + p10 b)
  | .mul d a b => some (0x03, none, p20 d + p15 a + p10 b)
  | .mulh d a b => some (0x04, none, p20 d + p15 a + p10 b)
  | .mulhn d a b => some (0x05, none, p20 d + p15 a + p10 b)
  | .div d a b => some (0x06, none, p20 d + p15 a + p10 b)
  | .divn d a b => some (0x07, none, p20 d + p15 a + p10 b)
  | .rem d a b => some (0x08, none, p20 d + p15 a + p10 b)
  | .remn d a b => some (0x09, none, p20 d + p15 a + p10 b)
  | .and d a b => some (0x0A, none, p20 d + p15 a + p10 b)
  | .or d a b => some (0x0B, none, p20 d + p15 a + p10 b)
  | .xor d a b => some (0x0C, none, p20 d + p15 a + p10 b)
  | .andn d a b => some (0x0D, none, p20 d + p15 a + p10 b)
  | .shl d a b => some (0x0E, none, p20 d + p15 a + p10 b)
  | .shr d a b => some (0x0F, none, p20 d + p15 a + p10 b)
  | .sar d a b => some (0x10, none, p20 d + p15 a + p10 b)
  | .rol d a b => some (0x11, none, p20 d + p15 a + p10 b)
  | .min d a b => some (0x12, none, p20 d + p15 a + p10 b)
  | .max d a b => some (0x13, none, p20 d + p15 a + p10 b)
  | .minn d a b => some (0x14, none, p20 d + p15 a + p10 b)
  | .maxn d a b => some (0x15, none, p20 d + p15 a + p10 b)
  | .seq d a b => some (0x16, none, p20 d + p15 a + p10 b)
  | .sne d a b => some (0x17, none, p20 d + p15 a + p10 b)
  | .slt d a b => some (0x18, none, p20 d + p15 a + p10 b)
  | .sltn d a b => some (0x19, none, p20 d + p15 a + p10 b)
  | .sle d a b => some (0x1A, none, p20 d + p15 a + p10 b)
  | .slen d a b => some (0x1B, none, p20 d + p15 a + p10 b)
  | .clz d a => some (0x1C, none, p20 d + p15 a)
  | .ctz d a => some (0x1D, none, p20 d + p15 a)
  | .popc d a => some (0x1E, none, p20 d + p15 a)
  | .brev d a => some (0x1F, none, p20 d + p15 a)
  | .addi x d a i => some (0x20, x, p20 d + p15 a + i.toNat)
  | .andi x d a i => some (0x21, x, p20 d + p15 a + i.toNat)
  | .ori x d a i => some (0x22, x, p20 d + p15 a + i.toNat)
  | .xori x d a i => some (0x23, x, p20 d + p15 a + i.toNat)
  | .shli d a i => some (0x24, none, p20 d + p15 a + i.toNat)
  | .shri d a i => some (0x25, none, p20 d + p15 a + i.toNat)
  | .sari d a i => some (0x26, none, p20 d + p15 a + i.toNat)
  | .slti x d a i => some (0x27, x, p20 d + p15 a + i.toNat)
  | .li x d i => some (0x28, x, p20 d + i.toNat)
  | .lih x d a i => some (0x29, x, p20 d + p15 a + i.toNat)
  | .bfx d a pos wid => some (0x2A, none, p20 d + p15 a + pos.toNat * 2 ^ 9 + wid.toNat * 2 ^ 3)
  | .bfxn d a pos wid => some (0x2B, none, p20 d + p15 a + pos.toNat * 2 ^ 9 + wid.toNat * 2 ^ 3)
  | .bfi d a pos wid => some (0x2C, none, p20 d + p15 a + pos.toNat * 2 ^ 9 + wid.toNat * 2 ^ 3)
  | .sext d a wid => some (0x2D, none, p20 d + p15 a + wid.toNat * 2 ^ 3)
  | .zext d a wid => some (0x2E, none, p20 d + p15 a + wid.toNat * 2 ^ 3)
  | .sel d a b c => some (0x2F, none, p20 d + p15 a + p10 b + c.toNat * 2 ^ 5)
  | .mova g w => some (0x30, none, p20 g + w.toNat * 2 ^ 16)
  | .wset x g w i => some (0x31, x, p20 g + w.toNat * 2 ^ 16 + i.toNat)
  | .wstep x g w i => some (0x32, x, p20 g + w.toNat * 2 ^ 16 + i.toNat)
  | .wstride x g w l i => some (0x33, x, p20 g + w.toNat * 2 ^ 16 + l.toNat * 2 ^ 13 + i.toNat)
  | .sysrd g s => some (0x34, none, p20 g + s.code * 2 ^ 14)
  | .syswr g s => some (0x35, none, p20 g + s.code * 2 ^ 14)
  | .cnop => some (0x00, none, 0)
  | .beq x a b o => some (0x01, x, p20 a + p15 b + o.toNat)
  | .bne x a b o => some (0x02, x, p20 a + p15 b + o.toNat)
  | .blt x a b o => some (0x03, x, p20 a + p15 b + o.toNat)
  | .bge x a b o => some (0x04, x, p20 a + p15 b + o.toNat)
  | .bltn x a b o => some (0x05, x, p20 a + p15 b + o.toNat)
  | .bgen x a b o => some (0x06, x, p20 a + p15 b + o.toNat)
  | .jmp x o => some (0x07, x, o.toNat)
  | .jmpg a => some (0x08, none, p20 a)
  | .loop x l n r c => some (0x09, x, l.toNat * 2 ^ 22 + n.toNat * 2 ^ 14 + r.toNat * 2 ^ 13 + c.toNat)
  | .loopbrk l => some (0x0A, none, l.toNat * 2 ^ 22)
  | .wait wl ws wc wt => some (0x0B, none, wl.toNat * 2 ^ 21 + ws.toNat * 2 ^ 17 + wc.toNat * 2 ^ 13 + wt.toNat * 2 ^ 9)
  | .yield => some (0x0C, none, 0)
  | .exit => some (0x0D, none, 0)
  | .gjoin a g => some (0x0E, none, p15 a + g.toNat * 2 ^ 5)
  | .gleave a g => some (0x0F, none, p15 a + g.toNat * 2 ^ 5)
  | .gbar a g => some (0x10, none, p15 a + g.toNat * 2 ^ 5)
  | .gcnt d a g => some (0x11, none, p20 d + p15 a + g.toNat * 2 ^ 5)
  | .pref x a o => some (0x12, x, p20 a + o.toNat)
  | .trap c => some (0x13, none, c.toNat)
  | .tret => some (0x14, none, 0)
  | .ordset o => some (0x15, none, o.toNat)
  | .lnop => some (0x00, none, 0)
  | .ld x g a sz o => some (0x01, x, p20 g + p15 a + sz.code * 2 ^ 12 + o.toNat)
  | .st x g a sz o => some (0x02, x, p20 g + p15 a + sz.code * 2 ^ 12 + o.toNat)
  | .vld x v a p o => some (0x03, x, p20 v + p15 a + p.toNat * 2 ^ 12 + o.toNat)
  | .vst x v a p o => some (0x04, x, p20 v + p15 a + p.toNat * 2 ^ 12 + o.toNat)
  | .vlds v w m p => some (0x05, none, p20 v + w.toNat * 2 ^ 16 + m.toNat * 2 ^ 15 + p.toNat * 2 ^ 12)
  | .vsts v w m p => some (0x06, none, p20 v + w.toNat * 2 ^ 16 + m.toNat * 2 ^ 15 + p.toNat * 2 ^ 12)
  | .spld g w m sz => some (0x07, none, p20 g + w.toNat * 2 ^ 16 + m.toNat * 2 ^ 15 + sz.code * 2 ^ 12)
  | .spst g w m sz => some (0x08, none, p20 g + w.toNat * 2 ^ 16 + m.toNat * 2 ^ 15 + sz.code * 2 ^ 12)
  | .lda x g a sz sc o => some (0x09, x, p20 g + p15 a + sz.code * 2 ^ 12 + sc.code * 2 ^ 10 + o.toNat)
  | .stl x g a sz sc o => some (0x0A, x, p20 g + p15 a + sz.code * 2 ^ 12 + sc.code * 2 ^ 10 + o.toNat)
  | .amo g a b op sc scope wide => some (0x0B, none, p20 g + p15 a + p10 b + op.code * 2 ^ 6 + sc.toNat * 2 ^ 5 + scope.code * 2 ^ 3 + wide.toNat * 2 ^ 2)
  | .cas g a b c sc scope wide => some (0x0C, none, p20 g + p15 a + p10 b + c.toNat * 2 ^ 5 + sc.toNat * 2 ^ 4 + scope.code * 2 ^ 2 + wide.toNat * 2)
  | .amow a b => some (0x0D, none, p15 a + p10 b)
  | .wopen a b => some (0x0E, none, p15 a + p10 b)
  | .wclose a => some (0x0F, none, p15 a)
  | .fence sc k => some (0x10, none, sc.code * 2 ^ 23 + k.code * 2 ^ 21)
  | .drain => some (0x11, none, 0)
  | .waitm g a b sc => some (0x12, none, p20 g + p15 a + p10 b + sc.code * 2 ^ 8)
  | .prefd x a l2 o => some (0x13, x, p15 a + l2.toNat * 2 ^ 12 + o.toNat)
  | .expose a b => some (0x14, none, p15 a + p10 b)
  | .fix a b => some (0x15, none, p15 a + p10 b)
  | .ldrec g a b => some (0x16, none, p20 g + p15 a + p10 b)
  | .clean x n a o => some (0x17, x, p20 n + p15 a + o.toNat)
  | .vnop => some (0x00, none, 0)
  | .vadd x d a b t m p => some (0x01, x.map fun e => BitVec.ofNat 32 e.toWord, pV3 d a b t m p)
  | .vsub x d a b t m p => some (0x02, x.map fun e => BitVec.ofNat 32 e.toWord, pV3 d a b t m p)
  | .vmul x d a b t m p => some (0x03, x.map fun e => BitVec.ofNat 32 e.toWord, pV3 d a b t m p)
  | .vfma x d a b t m p => some (0x04, x.map fun e => BitVec.ofNat 32 e.toWord, pV3 d a b t m p)
  | .vmin x d a b t p => some (0x05, x.map fun e => BitVec.ofNat 32 e.toWord, pV3 d a b t .rne p)
  | .vmax x d a b t p => some (0x06, x.map fun e => BitVec.ofNat 32 e.toWord, pV3 d a b t .rne p)
  | .vabs x d a t p => some (0x07, x.map fun e => BitVec.ofNat 32 e.toWord, pV3 d a 0 t .rne p)
  | .vneg x d a t p => some (0x08, x.map fun e => BitVec.ofNat 32 e.toWord, pV3 d a 0 t .rne p)
  | .vadds x d a b t p => some (0x09, x.map fun e => BitVec.ofNat 32 e.toWord, pV3 d a b t .rne p)
  | .vsubs x d a b t p => some (0x0A, x.map fun e => BitVec.ofNat 32 e.toWord, pV3 d a b t .rne p)
  | .vand x d a b t p => some (0x0B, x.map fun e => BitVec.ofNat 32 e.toWord, pV3 d a b t .rne p)
  | .vor x d a b t p => some (0x0C, x.map fun e => BitVec.ofNat 32 e.toWord, pV3 d a b t .rne p)
  | .vxor x d a b t p => some (0x0D, x.map fun e => BitVec.ofNat 32 e.toWord, pV3 d a b t .rne p)
  | .vshl x d a b t p => some (0x0E, x.map fun e => BitVec.ofNat 32 e.toWord, pV3 d a b t .rne p)
  | .vshr x d a b t p => some (0x0F, x.map fun e => BitVec.ofNat 32 e.toWord, pV3 d a b t .rne p)
  | .vsar x d a b t p => some (0x10, x.map fun e => BitVec.ofNat 32 e.toWord, pV3 d a b t .rne p)
  | .vclamp x d a b t p => some (0x11, x.map fun e => BitVec.ofNat 32 e.toWord, pV3 d a b t .rne p)
  | .vdiv x d a b t m p => some (0x12, x.map fun e => BitVec.ofNat 32 e.toWord, pV3 d a b t m p)
  | .vsqrt x d a t m p => some (0x13, x.map fun e => BitVec.ofNat 32 e.toWord, pV3 d a 0 t m p)
  | .vrcp x d a t m p => some (0x14, x.map fun e => BitVec.ofNat 32 e.toWord, pV3 d a 0 t m p)
  | .vrsq x d a t m p => some (0x15, x.map fun e => BitVec.ofNat 32 e.toWord, pV3 d a 0 t m p)
  | .vexp x d a t m p => some (0x16, x.map fun e => BitVec.ofNat 32 e.toWord, pV3 d a 0 t m p)
  | .vexp2 x d a t m p => some (0x17, x.map fun e => BitVec.ofNat 32 e.toWord, pV3 d a 0 t m p)
  | .vlog2 x d a t m p => some (0x18, x.map fun e => BitVec.ofNat 32 e.toWord, pV3 d a 0 t m p)
  | .vtanh x d a t m p => some (0x19, x.map fun e => BitVec.ofNat 32 e.toWord, pV3 d a 0 t m p)
  | .vrint x d a t m p => some (0x1A, x.map fun e => BitVec.ofNat 32 e.toWord, pV3 d a 0 t m p)
  | .vsel x d a b t p => some (0x1C, x.map fun e => BitVec.ofNat 32 e.toWord, pV3 d a b t .rne p)
  | .vgath x d a b t p => some (0x21, x.map fun e => BitVec.ofNat 32 e.toWord, pV3 d a b t .rne p)
  | .vscat x d a b t p => some (0x22, x.map fun e => BitVec.ofNat 32 e.toWord, pV3 d a b t .rne p)
  | .vperm x d a b t p => some (0x23, x.map fun e => BitVec.ofNat 32 e.toWord, pV3 d a b t .rne p)
  | .vzip x d a b t p => some (0x24, x.map fun e => BitVec.ofNat 32 e.toWord, pV3 d a b t .rne p)
  | .vunzip x d a b t p => some (0x25, x.map fun e => BitVec.ofNat 32 e.toWord, pV3 d a b t .rne p)
  | .vmov x d a t p => some (0x2D, x.map fun e => BitVec.ofNat 32 e.toWord, pV3 d a 0 t .rne p)
  | .vcmp x pd a b t c p => some (0x1B, x.map fun e => BitVec.ofNat 32 e.toWord, pd.toNat * 2 ^ 22 + a.toNat * 2 ^ 17 + b.toNat * 2 ^ 12 + t.code * 2 ^ 8 + c.code * 2 ^ 5 + p.toNat * 2 ^ 2)
  | .vcvt x d a nf t m r => some (0x1D, x.map fun e => BitVec.ofNat 32 e.toWord, p20 d + p15 a + nf.code * 2 ^ 10 + t.code * 2 ^ 6 + m.code * 2 ^ 3 + r.toNat * 2 ^ 2)
  | .vred x d a op t m p => some (0x1E, x.map fun e => BitVec.ofNat 32 e.toWord, p20 d + p15 a + op.code * 2 ^ 10 + t.code * 2 ^ 6 + m.code * 2 ^ 3 + p.toNat)
  | .vscan x d a op t m p => some (0x1F, x.map fun e => BitVec.ofNat 32 e.toWord, p20 d + p15 a + op.code * 2 ^ 10 + t.code * 2 ^ 6 + m.code * 2 ^ 3 + p.toNat)
  | .vpart x d g t p => some (0x20, x.map fun e => BitVec.ofNat 32 e.toWord, pV3 d g 0 t .rne p)
  | .vbcast x d g t p => some (0x26, x.map fun e => BitVec.ofNat 32 e.toWord, pV3 d 0 g t .rne p)
  | .vext x d a g t => some (0x27, x.map fun e => BitVec.ofNat 32 e.toWord, pV3 d a g t .rne 0)
  | .vins x d a g t => some (0x28, x.map fun e => BitVec.ofNat 32 e.toWord, pV3 d a g t .rne 0)
  | .viota x d g t p => some (0x29, x.map fun e => BitVec.ofNat 32 e.toWord, pV3 d 0 g t .rne p)
  | .vrand x d t p => some (0x2A, x.map fun e => BitVec.ofNat 32 e.toWord, pV3 d 0 0 t .rne p)
  | .plog d a b lop => some (0x2B, none, d.toNat * 2 ^ 22 + a.toNat * 2 ^ 19 + b.toNat * 2 ^ 16 + lop.toNat * 2 ^ 12)
  | .pcnt a b g => some (0x2C, none, a.toNat * 2 ^ 19 + b.toNat * 2 ^ 16 + g.toNat * 2 ^ 7)
  | .mnop => some (0x00, none, 0)
  | .mpush a am s sm qs h => some (0x01, none, pMA a am + s.toNat * 2 ^ 16 + sm.toNat * 2 ^ 15 + qs.toNat * 2 ^ 14 + Shadow.bits h)
  | .mpushz a am s sm qs h => some (0x02, none, pMA a am + s.toNat * 2 ^ 16 + sm.toNat * 2 ^ 15 + qs.toNat * 2 ^ 14 + Shadow.bits h)
  | .mdrain a am d h => some (0x03, none, pMA a am + p15 d + Shadow.bits h)
  | .mdrainz a am d h => some (0x04, none, pMA a am + p15 d + Shadow.bits h)
  | .mdrains a am s sm h => some (0x05, none, pMA a am + s.toNat * 2 ^ 16 + sm.toNat * 2 ^ 15 + Shadow.bits h)
  | .mdrainw a am g h => some (0x06, none, pMA a am + p15 g + Shadow.bits h)
  | .mzero a am h => some (0x07, none, pMA a am + Shadow.bits h)
  | .mswap => some (0x08, none, 0)
  | .mmodeWrap h => some (0x09, none, Shadow.bits h)
  | .mmodeSat h => some (0x09, none, 2 ^ 21 + Shadow.bits h)
  | .mmodeClrovf h => some (0x09, none, 2 * 2 ^ 21 + Shadow.bits h)
  | .mstsave a h => some (0x0A, none, p20 a + Shadow.bits h)
  | .mstload a h => some (0x0B, none, p20 a + Shadow.bits h)
  | .mlds w k => some (0x00, none, Shadow.bits (some ⟨.mlds, w, k⟩))
  | .mldst w k => some (0x00, none, Shadow.bits (some ⟨.mldst, w, k⟩))
  | .mldss w k => some (0x00, none, Shadow.bits (some ⟨.mldss, w, k⟩))
  | .xnop => some (0x00, none, 0)
  | .cpLd a b x s o => some (0x01, none, pXE a b x s o 0)
  | .cpSt a b x s o => some (0x01, none, pXE a b x s o 1)
  | .cpg a b x s o => some (0x03, none, pXE a b x s o 0)
  | .cps a b x s o => some (0x04, none, pXE a b x s o 1)
  | .cpMv b x s o => some (0x01, none, pXE 0 b x s o 2)
  | .cpm a b x n o => some (0x02, none, pXE a b x (.spool n) o 0)
  | .cpw a x s o => some (0x05, none, pXE a 0 x s o 1)
  | .cpfScratch b x s o => some (0x06, none, pXE 0 b x s o 0)
  | .cpfGlobal a b x o => some (0x06, none, pXE a b x (.walker 0 false) o 1)
  | .xshape a b x h => some (0x07, none, p20 a + p15 b + x.toNat * 2 ^ 7 + h.toNat)
  | .spdef a n size elem => some (0x08, some (BitVec.ofNat 32 (size.toNat + elem.toNat * 2 ^ 8)), p20 a + n.toNat)
  | .sbind q n => some (0x09, none, q.toNat * 2 ^ 4 + n.toNat)
  | .sbindNone q => some (0x09, none, 2 ^ 10 + q.toNat * 2 ^ 4)
  | .spadvP a n => some (0x0A, none, p20 a + n.toNat)
  | .spadvC a n => some (0x0A, none, p20 a + 2 ^ 7 + n.toNat)
  | .xfmt a b => some (0x0B, none, p20 a + p15 b)
  | .qpost a k => some (0x0C, none, p20 a + k.toNat * 2 ^ 4)
  | .qtake a d k => some (0x0D, none, p20 a + p15 d + k.toNat * 2 ^ 4)
  | .launch a => some (0x0E, none, p20 a)
  | .xcoll a => some (0x0F, none, p20 a)
  | .xshuf a => some (0x10, none, p20 a)
  | .xstat d what n => some (0x11, none, p20 d + what.toNat * 2 ^ 7 + n.toNat)
  | .rngsetAdd a b => some (0x12, none, p20 a + p15 b)
  | .rngsetSub a b => some (0x12, none, p20 a + p15 b + 2 ^ 7)
  | .fixedLatencyLanding .. | .beatLanding .. | .loadRetire .. | .accessPerform .. | .walkComplete .. | .windowAdd ..
  | .windowCloseWrite .. | .boundaryFailureTrap .. | .asyncTrap .. | .preempt .. | .restoration .. | .budgetExceeded ..
  | .cutOverrun .. | .matrixSwitch .. | .copyCommandStart .. | .spoolElementFire .. | .copyCommandRetire .. | .commandFailure ..
  | .latentCellRead .. | .evaluatorStart .. | .barrierComplete .. | .queueTermination .. | .launchPlacement .. | .parkedLaunchDrain ..
  | .childQueueStart .. | .launchComplete .. | .cmdLaunch .. | .cmdLaunchIndirect .. | .waitev .. | .waitevSatisfied ..
  | .signal .. | .cmdLoop .. | .cmdIf .. | .cmdCopy .. | .tlbinv .. | .holdpoint ..
  | .tierMove .. | .makeResident .. | .deschedule .. | .consistentCut .. | .cutAbandon .. | .quantumExpiry ..
  | .budgetWindowEnd .. | .lastCollection .. | .queueVacancy .. | .lastCollectionOverrun .. | .restore .. | .restoreReplay ..
  | .vfReset .. | .vfEnable .. | .migration .. | .rankCreate .. | .rankForget .. | .clpart ..
  | .packetRoute .. | .linkFailure .. | .slotRequest .. | .slotLeaseExpiry .. | .collectivePacket .. | .collectiveRetire ..
  | .collTimeout .. | .holdNotice .. | .resumeNotice .. | .shufflePacket .. | .pairingTimeout .. | .overprintDecode ..
  | .reissuePlain .. | .shuffleAbort .. | .shuffleTimeout .. | .shuffleRetire .. | .spill .. | .retry ..
  | .retryResend .. | .seal .. | .sealreq .. | .sealcons .. | .jcons .. | .attreq ..
  | .interruptRecord .. | .mbox .. | .hvmbox .. | .doorbell .. | .qctlRestart .. | .qctlRestartAfter ..
  | .qctlDiscard .. | .fractResume .. | .fractEnd .. | .queueEnable .. | .queueDisable .. | .cap ..
  | .registerWrite .. | .hostWindowRead .. | .hostWindowWrite .. | .thermalLimit .. | .thermalShutdown .. | .powerOn ..
  | .deviceReset .. | .bundleIssue .. | .jhlRetrain .. | .routingTableWrite .. | .dlqcons .. | .temperatureLimitCleared ..
    => none

/-- The slot word of an operation: opcode, E bit, fields (R51). -/
def packWord (op : Nat) (x : Ext) (f : Nat) : W32 := BitVec.ofNat 32 (op * 2 ^ 26 + x.isSome.toNat * 2 ^ 25 + f)

/-- The slot word and extension word of an operation; an event has none. -/
def Instr.encodeSlot (i : Instr) : Option (W32 × Ext) := i.fields.map fun (op, x, f) => (packWord op x f, x)

/-- The words of an operation as they stand in a bundle (R50). -/
def encode (i : Instr) : List W32 :=
  match i.encodeSlot with
  | some (w, some e) => [w, e]
  | some (w, none) => [w]
  | none => []

/-! ### Bundles -/

/-- The header word (R49): present mask, repeat count, loop filter and its level, quiet bit, cut label. -/
structure Header where
  pm : Nat
  rpt : Nat
  lf : Nat
  ll : Nat
  quiet : Bool
  cut : Nat
  deriving DecidableEq, Repr

def decodeHeader (w : W32) : Header :=
  let n := w.toNat
  ⟨bitsOf n 25 7, bitsOf n 18 7, bitsOf n 16 2, bitsOf n 13 3, bitsOf n 12 1 == 1, bitsOf n 0 12⟩

/-- The reserved header encodings of R75. -/
def Header.ok (h : Header) : Bool :=
  h.lf != 3 && (h.lf == 0 || decide (h.ll < 6)) && (h.lf != 0 || h.ll == 0) && (h.quiet || h.cut == 0)

/-- The slots in slot order with their index (0 = S0 to 6 = C) and their kind; slot j is present when bit 6 - j of PM is set (R49, R50). -/
def slotOrder : List (Nat × Slot) := [(0, .s), (1, .s), (2, .l), (3, .v), (4, .m), (5, .x), (6, .c)]

def Header.present (h : Header) (j : Nat) : Bool := bitsOf h.pm (6 - j) 1 == 1

/-- A slot of a fetched bundle: its index and what its word decodes to, none a reserved encoding. -/
structure SlotWord where
  slot : Nat
  op : Option Instr
  deriving DecidableEq, Repr

/-- A fetched bundle: header, present slots, length in bytes (R50). -/
structure Bundle where
  hdr : Header
  words : List SlotWord
  len : Nat
  deriving DecidableEq, Repr

/-- Reads the present slot words in slot order; `next n` is the n-th word after the header, none where it cannot be fetched. Answers none when a word is missing. -/
def decodeSlots (h : Header) (next : Nat → Option W32) : List (Nat × Slot) → Nat → Option (List SlotWord × Nat)
  | [], n => some ([], n)
  | (j, sl) :: rest, n =>
    if h.present j then
      match next n with
      | none => none
      | some w =>
        if bitsOf w.toNat 25 1 = 1 then
          match next (n + 1) with
          | none => none
          | some e => (decodeSlots h next rest (n + 2)).map fun (l, m) => (⟨j, decodeSlot sl w (some e)⟩ :: l, m)
        else (decodeSlots h next rest (n + 1)).map fun (l, m) => (⟨j, decodeSlot sl w none⟩ :: l, m)
    else decodeSlots h next rest n

/-- The bundle whose header is word 0 of `next` and whose further words follow it. -/
def decodeBundle (next : Nat → Option W32) : Option Bundle :=
  match next 0 with
  | none => none
  | some hw =>
    let h := decodeHeader hw
    (decodeSlots h next slotOrder 1).map fun (l, n) => ⟨h, l, 4 * n⟩

/-- A slot word alone names no slot, and the slots share their opcodes (R61 to R66): a word that stands by itself is read in the first slot of slot order in which it is a legal operation. With its E bit set the extension word is the word of zeros that follows. -/
def decodeAlone (w : W32) : Option (Nat × Instr) :=
  let x : Ext := if bitsOf w.toNat 25 1 = 1 then some 0 else none
  slotOrder.findSome? fun (j, sl) => (decodeSlot sl w x).map fun i => (j, i)

/-- The instruction that the decoder reads from a row's bits (R51, one 32-bit word). -/
def decodeTableWord (nbits w : Nat) : Option Instr :=
  if nbits ≤ 32 then (decodeAlone (BitVec.ofNat 32 w)).map (·.2) else none

end Sys2Proof
end

