-- ==== Sys2Proof/Config.lean ====
section
/-! DEFINITION. Config.lean: what an implementation or a fleet fixes and the manual does not, and the free values: constants without a body, so that no proof can use a value of one. A free value takes the counter `State.free` as its first argument. -/

namespace Sys2Proof.Config

/-- Lanes of a register awaiting a load that already show the new value, by lane (R23). -/
opaque raceLanes : Nat → Nat → VReg
/-- Whether a load or an engine read is served by a line of L1 that may be stale (R186, R207). -/
opaque servedFromL1 : Nat → Bool
/-- Whether a line read at its home slice is then held in L1 (R186). -/
opaque fillsL1 : Nat → Bool
/-- Which entry a full table of translations gives up (R196). -/
opaque victim : Nat → Nat
/-- A byte that the manual leaves undefined: a cell that is FAULTED (R246), the target of an aborted collective (R352, R353) or of a failed shuffle (R368, R370). -/
opaque anyByte : Nat → Nat → Byte
/-- A yes-or-no choice that the manual leaves to the implementation, such as which of two pages is evicted. -/
opaque anyBool : Nat → Bool
/-- A choice among several by number. -/
opaque anyNat : Nat → Nat
/-- The HBM controller of a line, by physical line number (R323). -/
opaque hbmController : Nat → Nat
/-- Where the S-mode firmware's handlers stand (R290). -/
opaque firmwareEntry : W64
/-- The number of this device in its fabric (R337). -/
opaque ownDevice : Nat
/-- Generated keys, nonces and shared secrets (R325, R376, R381). -/
opaque freshKey : Nat → Nat
/-- Byte i of the signature that one of the device's keys makes over a message (R401, R403). -/
opaque signatureByte : Nat → List Byte → Nat → Byte
/-- Byte i of what the device was made with, by number: firmware digests, public keys, the certificate of the journal key (R403, R404). -/
opaque deviceByte : Nat → Nat → Byte
/-- Hub cycles since the hub's clock started (R399). -/
opaque timeStamp : Nat → W64

end Sys2Proof.Config
end

