-- ==== Sys2Proof/Machine/Hash.lean ====
section
/-! DEFINITION. Machine/Hash.lean: sign and zero extension, the random generator of R46, SHAKE256 (R47, R169, R346) and CRC-32C (R396). -/

namespace Sys2Proof.Machine

/-! ### Extensions (R6) and immediates (R60) -/

/-- SEXT(x, n) of R6: bits [n-1:0] of x as two's complement, in 64 bits. -/
def sext64 (n : Nat) (x : Nat) : W64 := (BitVec.ofNat n x).signExtend 64

/-- ZEXT(x, n) of R6. -/
def zext64 (n : Nat) (x : Nat) : W64 := BitVec.ofNat 64 (x % 2 ^ n)

/-- The operand of an immediate field of w bits with or without an extension word (R60). -/
def immediate (w : Nat) (ext : Ext) (field : Nat) : W64 :=
  match ext with
  | none => sext64 w field
  | some x => sext64 (w + 32) (x.toNat * 2 ^ w + field)

/-! ### Philox-4x32-10 (R46) -/

def m32 : Nat := 2 ^ 32

structure PhiloxSt where
  c0 : Nat
  c1 : Nat
  c2 : Nat
  c3 : Nat
  k0 : Nat
  k1 : Nat

def philoxRound (s : PhiloxSt) : PhiloxSt :=
  let a := 0xD2511F53 * s.c0
  let b := 0xCD9E8D57 * s.c2
  { c0 := (b / m32) ^^^ s.c1 ^^^ s.k0, c1 := b % m32, c2 := (a / m32) ^^^ s.c3 ^^^ s.k1, c3 := a % m32,
    k0 := (s.k0 + 0x9E3779B9) % m32, k1 := (s.k1 + 0xBB67AE85) % m32 }

def philoxRounds : Nat → PhiloxSt → PhiloxSt
  | 0, s => s
  | n + 1, s => philoxRounds n (philoxRound s)

/-- The block of a key and a counter: its four words, word 0 first. -/
def philox (key : W64) (ctr : BitVec 128) : List Nat :=
  let n := ctr.toNat
  let r := philoxRounds 10 ⟨n % m32, n / m32 % m32, n / 2 ^ 64 % m32, n / 2 ^ 96, key.toNat % m32, key.toNat / m32⟩
  [r.c0, r.c1, r.c2, r.c3]

/-- The first n words of the blocks from a counter on (R44). -/
def philoxWords (key : W64) (ctr : BitVec 128) (n : Nat) : List Nat :=
  ((List.range ((n + 3) / 4)).flatMap fun i => philox key (ctr + BitVec.ofNat 128 i)).take n

/-! ### SHAKE256 (FIPS 202) -/

def rol64 (x : W64) (n : Nat) : W64 := x.rotateLeft n

/-- Rotation offsets of rho, lane x + 5 y. -/
def keccakRho : List Nat :=
  [0, 1, 62, 28, 27, 36, 44, 6, 55, 20, 3, 10, 43, 25, 39, 41, 45, 15, 21, 8, 18, 2, 61, 56, 14]

/-- Round constants of iota. -/
def keccakRC : List W64 :=
  [0x0000000000000001, 0x0000000000008082, 0x800000000000808A, 0x8000000080008000,
   0x000000000000808B, 0x0000000080000001, 0x8000000080008081, 0x8000000000008009,
   0x000000000000008A, 0x0000000000000088, 0x0000000080008009, 0x000000008000000A] ++
  [0x000000008000808B, 0x800000000000008B, 0x8000000000008089, 0x8000000000008003,
   0x8000000000008002, 0x8000000000000080, 0x000000000000800A, 0x800000008000000A,
   0x8000000080008081, 0x8000000000008080, 0x0000000080000001, 0x8000000080008008]

/-- One round on 25 lanes, lane x + 5 y at that index. -/
def keccakRound (a : List W64) (rc : W64) : List W64 :=
  let at' (l : List W64) (x y : Nat) : W64 := l.getD (x % 5 + 5 * (y % 5)) 0
  let c := (List.range 5).map fun x => at' a x 0 ^^^ at' a x 1 ^^^ at' a x 2 ^^^ at' a x 3 ^^^ at' a x 4
  let d := (List.range 5).map fun x => c.getD ((x + 4) % 5) 0 ^^^ rol64 (c.getD ((x + 1) % 5) 0) 1
  let t := (List.range 25).map fun i => rol64 (a.getD i 0 ^^^ d.getD (i % 5) 0) (keccakRho.getD i 0)
  -- pi: lane (x, y) of the result is lane ((x + 3 y) mod 5, x) of t
  let b := (List.range 25).map fun i => at' t (i % 5 + 3 * (i / 5)) (i % 5)
  let r := (List.range 25).map fun i => at' b (i % 5) (i / 5) ^^^ (~~~ at' b (i % 5 + 1) (i / 5) &&& at' b (i % 5 + 2) (i / 5))
  r.set 0 (r.getD 0 0 ^^^ rc)

def keccakF (a : List W64) : List W64 := keccakRC.foldl keccakRound a

/-- Eight bytes, lowest first, as a word. -/
def leNat : List Byte → Nat
  | [] => 0
  | b :: l => b.toNat + 256 * leNat l

def leBytes : Nat → Nat → List Byte
  | 0, _ => []
  | n + 1, v => BitVec.ofNat 8 v :: leBytes n (v / 256)

/-- XORs one block of 136 bytes into the state and permutes. -/
def absorb (a : List W64) (block : List Byte) : List W64 :=
  keccakF ((List.range 25).map fun i =>
    a.getD i 0 ^^^ (if i < 17 then BitVec.ofNat 64 (leNat ((block.drop (8 * i)).take 8)) else 0))

def absorbBlocks : Nat → List W64 → List Byte → List W64
  | 0, a, _ => a
  | n + 1, a, msg => absorbBlocks n (absorb a (msg.take 136)) (msg.drop 136)

def squeeze : Nat → List W64 → List Byte
  | 0, _ => []
  | n + 1, a => (a.take 17).flatMap (fun w => leBytes 8 w.toNat) ++ squeeze n (keccakF a)

/-- SHAKE256 of a message: the first n bytes of its output. -/
def shake256 (msg : List Byte) (n : Nat) : List Byte :=
  let k := msg.length / 136 + 1
  let padLen := 136 * k - msg.length
  let pad : List Byte := if padLen = 1 then [0x9F] else 0x1F :: List.replicate (padLen - 2) 0 ++ [0x80]
  let a := absorbBlocks k (List.replicate 25 0) (msg ++ pad)
  (squeeze (n / 136 + 1) a).take n

/-- The rank key of a job seed and a rank identifier (R47). -/
def rankKey (seed : W64) (vk : Nat) : W64 :=
  BitVec.ofNat 64 (leNat (shake256 (leBytes 8 seed.toNat ++ leBytes 2 vk) 8))

/-! ### CRC-32C (R396) -/

def crcBits : Nat → Nat → Nat
  | 0, c => c
  | n + 1, c => crcBits n (if c % 2 = 1 then (c / 2) ^^^ 0x82F63B78 else c / 2)

def crcBytes : List Byte → Nat → Nat
  | [], c => c
  | b :: l, c => crcBytes l (crcBits 8 (c ^^^ b.toNat))

/-- CRC-32C: reflected polynomial 0x82F63B78, initial value and final XOR all ones. -/
def crc32c (l : List Byte) : Nat := crcBytes l 0xFFFFFFFF ^^^ 0xFFFFFFFF

end Sys2Proof.Machine
end

