-- ==== Sys2Proof/Machine/Formats.lean ====
section
/-! DEFINITION. Machine/Formats.lean: element formats, exact values and the conversion of an exact value into a format (R26 to R45). -/

namespace Sys2Proof.Machine

/-! ### Flags (R14, R43) -/

/-- Flags an operation raises, as bits [4:0] of sys.flags. -/
abbrev FlagSet := BitVec 5
def fNV : FlagSet := 1
def fDZ : FlagSet := 2
def fOF : FlagSet := 4
def fUF : FlagSet := 8
def fNX : FlagSet := 16

/-! ### Exact values -/

/-- An exact value. `fin s m e sticky` is (-1)^s times m * 2^e, or with `sticky` a value strictly between m * 2^e and (m + 1) * 2^e in magnitude. -/
inductive XVal where
  | nan
  | inf (s : Bool)
  | fin (s : Bool) (m : Nat) (e : Int) (sticky : Bool)
  deriving DecidableEq, Repr

def XVal.zero (s : Bool) : XVal := .fin s 0 0 false

/-- The exact value of an integer. -/
def XVal.ofInt (n : Int) : XVal := .fin (decide (n < 0)) n.natAbs 0 false

/-- The exact integer n times 2^e; zero is +0. -/
def XVal.ofScaled (n e : Int) : XVal := .fin (decide (n < 0)) n.natAbs e false

def XVal.neg : XVal → XVal
  | .nan => .nan
  | .inf s => .inf (!s)
  | .fin s m e k => .fin (!s) m e k

def XVal.isZero : XVal → Bool
  | .fin _ 0 _ _ => true
  | _ => false

/-- m * 2^e as an integer count of 2^base units, for base not above e. -/
def shiftTo (m : Nat) (e base : Int) : Nat := m * 2 ^ (e - base).toNat

def signedOf (s : Bool) (n : Nat) : Int := if s then -(n : Int) else n

/-- Exact sum (R45, R111): an exact zero of operands of unlike sign is -0 under RDN and +0 otherwise. -/
def XVal.add (mode : RMode) : XVal → XVal → XVal × FlagSet
  | .nan, _ => (.nan, 0)
  | _, .nan => (.nan, 0)
  | .inf s, .inf t => if s = t then (.inf s, 0) else (.nan, fNV)
  | .inf s, .fin .. => (.inf s, 0)
  | .fin .., .inf t => (.inf t, 0)
  | .fin s m e _, .fin t n f _ =>
    let b := if e ≤ f then e else f
    let r := signedOf s (shiftTo m e b) + signedOf t (shiftTo n f b)
    if r = 0 then (if s = t then (.zero s, 0) else (.zero (mode == .rdn), 0))
    else (.ofScaled r b, 0)

/-- Exact product; 0 times an infinity is invalid (R30). -/
def XVal.mul : XVal → XVal → XVal × FlagSet
  | .nan, _ => (.nan, 0)
  | _, .nan => (.nan, 0)
  | .inf s, .inf t => (.inf (s != t), 0)
  | .inf s, .fin t n _ _ => if n = 0 then (.nan, fNV) else (.inf (s != t), 0)
  | .fin s m _ _, .inf t => if m = 0 then (.nan, fNV) else (.inf (s != t), 0)
  | .fin s m e _, .fin t n f _ => (.fin (s != t) (m * n) (e + f) false, 0)

/-- Exact a * b + c: the product's NV stands whatever c holds (R111). -/
def XVal.fma (mode : RMode) (a b c : XVal) : XVal × FlagSet :=
  let (p, f) := a.mul b
  let (r, g) := XVal.add mode p c
  (r, f ||| g)

/-- Order of two values: none when either is NaN; zeros of either sign are equal. -/
def XVal.cmp : XVal → XVal → Option Ordering
  | .nan, _ => none
  | _, .nan => none
  | .inf s, .inf t => some (if s = t then .eq else if s then .lt else .gt)
  | .inf s, .fin .. => some (if s then .lt else .gt)
  | .fin .., .inf t => some (if t then .gt else .lt)
  | .fin s m e _, .fin t n f _ =>
    let b := if e ≤ f then e else f
    some (compare (signedOf s (shiftTo m e b)) (signedOf t (shiftTo n f b)))

/-! ### Formats (R26 to R34) -/

/-- Special values of a floating-point format (R28, R31): infinities and NaNs, one NaN fraction under the top exponent, or neither. -/
inductive Specials where
  | ieee | e4m3 | none
  deriving DecidableEq, Repr

/-- A floating-point format: exponent bits, fraction bits, bias (R29). -/
structure FloatFmt where
  eb : Nat
  mb : Nat
  bias : Nat
  sp : Specials
  deriving DecidableEq, Repr

/-- How the bits of an element read. -/
inductive Elem where
  | float (f : FloatFmt)
  | int (signed : Bool) (w : Nat)
  deriving DecidableEq, Repr

def F32 : FloatFmt := ⟨8, 23, 127, .ieee⟩
def F16 : FloatFmt := ⟨5, 10, 15, .ieee⟩
def BF16 : FloatFmt := ⟨8, 7, 127, .ieee⟩
def E5M2 : FloatFmt := ⟨5, 2, 15, .ieee⟩
def E4M3 : FloatFmt := ⟨4, 3, 7, .e4m3⟩
def E3M2 : FloatFmt := ⟨3, 2, 3, .none⟩
def E2M3 : FloatFmt := ⟨2, 3, 1, .none⟩
def E2M1 : FloatFmt := ⟨2, 1, 1, .none⟩


end Sys2Proof.Machine

namespace Sys2Proof
open Machine

/-- Element of a V-slot type (R27). -/
def Ty.elem : Ty → Elem
  | .i8 => .int true 8
  | .i16 => .int true 16
  | .i32 => .int true 32
  | .n8 => .int false 8
  | .n16 => .int false 16
  | .n32 => .int false 32
  | .f16 => .float F16
  | .bf16 => .float BF16
  | .f32 => .float F32

/-- Lane width in bits (R27). -/
def Ty.bits (t : Ty) : Nat := 8 * t.width

/-- Element of a format; the elements of a block-scaled or asymmetric format without its scale. RAW has none. -/
def Fmt.elem : Fmt → Option Elem
  | .raw => none
  | .f32 => some (.float F32)
  | .f16 => some (.float F16)
  | .bf16 => some (.float BF16)
  | .e5m2 => some (.float E5M2)
  | .e4m3 => some (.float E4M3)
  | .e3m2 => some (.float E3M2)
  | .e2m3 => some (.float E2M3)
  | .e2m1 => some (.float E2M1)
  | .int16 => some (.int true 16)
  | .int8 => some (.int true 8)
  | .uint8 => some (.int false 8)
  | .int4 => some (.int true 4)
  | .uint4 => some (.int false 4)
  | .int2 => some (.int true 2)
  | .b32e4m3 | .b128e4m3 => some (.float E4M3)
  | .b32e2m1 | .b128e2m1 => some (.float E2M1)
  | .aq8 => some (.int false 8)
  | .aq4 => some (.int false 4)

end Sys2Proof

namespace Sys2Proof.Machine

def Elem.width : Elem → Nat
  | .float f => 1 + f.eb + f.mb
  | .int _ w => w

def FloatFmt.signBit (f : FloatFmt) (s : Bool) : Nat := s.toNat * 2 ^ (f.eb + f.mb)

/-- Encoding of the largest finite magnitude (R28, R31). -/
def FloatFmt.maxEnc (f : FloatFmt) : Nat :=
  match f.sp with
  | .ieee => (2 ^ f.eb - 1) * 2 ^ f.mb - 1
  | .e4m3 => 2 ^ (f.eb + f.mb) - 2
  | .none => 2 ^ (f.eb + f.mb) - 1

/-- The canonical NaN (R28, R31). -/
def FloatFmt.nanEnc (f : FloatFmt) : Option Nat :=
  match f.sp with
  | .ieee => some ((2 ^ f.eb - 1) * 2 ^ f.mb + 2 ^ (f.mb - 1))
  | .e4m3 => some (2 ^ (f.eb + f.mb) - 1)
  | .none => none

/-- The infinity of a sign, or the largest finite value where the format has none. -/
def FloatFmt.infEnc (f : FloatFmt) (s : Bool) : Option Nat :=
  match f.sp with
  | .ieee => some (f.signBit s + (2 ^ f.eb - 1) * 2 ^ f.mb)
  | _ => none

/-- Value of an encoding (R28, R29, R31); bits above the element are ignored (R40). -/
def FloatFmt.decode (f : FloatFmt) (bits : Nat) : XVal :=
  let s := bits / 2 ^ (f.eb + f.mb) % 2 == 1
  let e := bits / 2 ^ f.mb % 2 ^ f.eb
  let m := bits % 2 ^ f.mb
  let top := 2 ^ f.eb - 1
  if f.sp = .ieee ∧ e = top then (if m = 0 then .inf s else .nan)
  else if f.sp = .e4m3 ∧ e = top ∧ m = 2 ^ f.mb - 1 then .nan
  else if e = 0 then .fin s m (1 - f.bias - f.mb) false
  else .fin s (2 ^ f.mb + m) ((e : Int) - f.bias - f.mb) false

/-- Value of an element's bits. -/
def Elem.decode : Elem → Nat → XVal
  | .float f, b => f.decode b
  | .int true w, b => .ofInt (BitVec.ofNat w b).toInt
  | .int false w, b => .ofInt (b % 2 ^ w)

/-! ### Conversion (R37, R41, R43, R44) -/

/-- The magnitude m * 2^e (with its sticky part) as a count of 2^q units rounded by the mode, and whether that is inexact. For SR the word `w` decides (R44). -/
def roundMag (mode : RMode) (s : Bool) (w : Nat) (m : Nat) (e : Int) (sticky : Bool) (q : Int) : Nat × Bool :=
  if q ≤ e then
    let n := shiftTo m e q
    (n, sticky)
  else
    let d := 2 ^ (q - e).toNat
    let n := m / d
    let r := m % d
    if r = 0 ∧ !sticky then (n, false)
    else
      let up : Bool := match mode with
        | .rtz => false
        | .rup => !s
        | .rdn => s
        | .rne => decide (2 * r > d) || (2 * r == d && (sticky || n % 2 == 1))
        | .sr =>
          let t := (if s then d - r else r) * 2 ^ 32 / d
          (decide (w < t)) != s
      (if up then n + 1 else n, true)

/-- A magnitude beyond the largest finite value (R37). -/
def FloatFmt.overflow (f : FloatFmt) (mode : RMode) (s : Bool) : Nat :=
  let toInf := match mode with
    | .rne | .sr => true
    | .rtz => false
    | .rup => !s
    | .rdn => s
  match f.infEnc s with
  | some i => if toInf then i else f.signBit s + f.maxEnc
  | none => f.signBit s + f.maxEnc

/-- CONVERT of a finite source into a float format. OF follows R37 and R43: where rounding towards zero brings a magnitude back to the largest finite value (470 into E4M3 under RTZ), NX is raised alone, against the sentence of the worked example behind R42 (DEDUCED, log 65). -/
def FloatFmt.round (f : FloatFmt) (mode : RMode) (w : Nat) (s : Bool) (m : Nat) (e : Int) (sticky : Bool) : Nat × FlagSet :=
  if m = 0 ∧ !sticky then (f.signBit s, 0)
  else
    let lg : Int := (Nat.log2 m : Int) + e
    let emin : Int := 1 - f.bias
    let qmin : Int := emin - f.mb
    let q := if lg - f.mb ≤ qmin then qmin else lg - f.mb
    let (n, inexact) := roundMag mode s w m e sticky q
    let enc := if n = 0 then 0 else ((q - qmin).toNat) * 2 ^ f.mb + n
    let tiny :=
      if lg < emin then
        let full := (roundMag mode s w m e sticky (lg - f.mb)).1
        !(lg == emin - 1 && full == 2 ^ (f.mb + 1))
      else false
    if enc > f.maxEnc then (f.overflow mode s, fOF ||| fNX)
    else (f.signBit s + enc, (if inexact then fNX else 0) ||| (if inexact && tiny then fUF else 0))

/-- The range of an integer format (R32). -/
def intRange (signed : Bool) (w : Nat) : Int × Int :=
  if signed then (-(2 ^ (w - 1)), 2 ^ (w - 1) - 1) else (0, 2 ^ w - 1)

/-- CONVERT of R37: bits of the result, and the flags raised. -/
def convert (el : Elem) (mode : RMode) (w : Nat) : XVal → Nat × FlagSet
  | .nan =>
    match el with
    | .float f => match f.nanEnc with
      | some n => (n, 0)
      | none => (0, fNV)
    | .int .. => (0, fNV)
  | .inf s =>
    match el with
    | .float f => match f.infEnc s with
      | some n => (n, 0)
      | none => (f.signBit s + f.maxEnc, fOF ||| fNX)
    | .int sg n =>
      let (lo, hi) := intRange sg n
      ((BitVec.ofInt n (if s then lo else hi)).toNat, fNV ||| fNX)
  | .fin s m e k =>
    match el with
    | .float f => f.round mode w s m e k
    | .int sg n =>
      let (lo, hi) := intRange sg n
      let (r, inexact) := roundMag mode s w m e k 0
      let v := signedOf s r
      if v < lo then ((BitVec.ofInt n lo).toNat, fNV ||| fNX)
      else if v > hi then ((BitVec.ofInt n hi).toNat, fNV ||| fNX)
      else ((BitVec.ofInt n v).toNat, if inexact then fNX else 0)

/-- The canonical NaN of a float element, or 0 where it has none. -/
def Elem.nan : Elem → Nat
  | .float f => f.nanEnc.getD 0
  | .int .. => 0

/-! ### Lanes and packing (R40) -/

/-- Element i of width w of a register or row. -/
def laneN (w : Nat) (r : Nat) (i : Nat) : Nat := r / 2 ^ (w * i) % 2 ^ w

/-- A register from its elements, element 0 lowest. -/
def packLanes (w : Nat) : List Nat → Nat
  | [] => 0
  | x :: l => x % 2 ^ w + 2 ^ w * packLanes w l

/-- The n elements of width w of a row. -/
def lanesOf (w n : Nat) (r : Nat) : List Nat := (List.range n).map (laneN w r)

/-! ### Scales (R33, R34, R36, R38) -/

/-- Value times an E8M0 scale (R33, R34). -/
def scaled (scale : Nat) : XVal → XVal
  | .nan => .nan
  | .inf s => if scale = 0xFF then .nan else .inf s
  | .fin s m e k => if scale = 0xFF then .nan else .fin s m (e + scale - 127) k

/-- Value of an asymmetric code: scale times (q - z), formed exactly (R38); a zero takes the sign of the scale (DESIGN CHOICE, log 68). -/
def asymmetric (scale : Nat) (q z : Nat) : XVal :=
  (XVal.mul (F16.decode scale) (.ofInt ((q : Int) - z))).1

/-- floor(log2 |x|) of a finite non-zero value. -/
def XVal.log2? : XVal → Option Int
  | .fin _ m e _ => if m = 0 then none else some ((Nat.log2 m : Int) + e)
  | _ => none

def XVal.isFinite : XVal → Bool
  | .fin .. => true
  | _ => false

/-- Divides by 2^e exactly. -/
def XVal.scaleDown (e : Int) : XVal → XVal
  | .fin s m f k => .fin s m (f - e) k
  | v => v

/-- Greatest floor(log2 |x|) of a block, none when all are zero. -/
def blockLog : List XVal → Option Int
  | [] => none
  | x :: l =>
    match x.log2?, blockLog l with
    | none, r => r
    | some a, none => some a
    | some a, some b => some (if a ≤ b then b else a)

/-- A block of a block-scaled destination (R36): its scale byte, its element encodings and the flags. Each value comes with its random word. -/
def convertBlock (f : FloatFmt) (mode : RMode) (l : List (XVal × Nat)) : Nat × List Nat × FlagSet :=
  let emax : Int := if f.mb = 3 then 8 else 2
  if l.any (fun x => !x.1.isFinite) then (0xFF, l.map (fun _ => 0), fNV)
  else
    let (scale, e) := match blockLog (l.map (·.1)) with
      | none => (0x7F, (0 : Int))
      | some a =>
        let e0 := a - emax
        let e1 := if e0 < -127 then -127 else if e0 > 127 then 127 else e0
        ((e1 + 127).toNat, e1)
    let r := l.map fun x => convert (.float f) mode x.2 (x.1.scaleDown e)
    (scale, r.map (·.1), r.foldl (fun a x => a ||| x.2) 0)

end Sys2Proof.Machine
end

