-- ==== Sys2Proof/Machine/State.lean ====
section
/-! DEFINITION. Machine/State.lean: everything the manual gives the machine, as plain data, and the state after reset (R407). -/

namespace Sys2Proof.Machine

/-- A table by number, keys rising. -/
abbrev Tab (α : Type) := List (Nat × α)

/-- Bytes by address in canonical form: keys strictly rising, no byte 0 listed; an unlisted byte reads 0 (DESIGN CHOICE, log 2; a window's bytes are zero by R24). -/
abbrev Memory := List Host.Cell

/-- Trap causes (R289), in code order from 0x01. -/
inductive Cause where
  | illegalBundle | privilege | translation | permission | misaligned | streamFaulted | matrixSwitch | formatMismatch
  | windowFull | selfDependence | developDepth | latentFaulted | cutOverrun | cutViolation | budgetExceeded | quota
  | integrity | async | collNonfinite | collAborted | decodeFallbackFailed | software | preempt
  deriving DecidableEq, Repr

/-- A walker: value, issue step, strides of levels 0 to 5 (R10). -/
structure Walker where
  value : W32
  step : W32
  strides : Vector W32 6
  deriving DecidableEq, Repr

/-- A spool: first row, rows, rows of an element, pointers, and the pointer value and command of a fault mark (R273, R274). -/
structure Spool where
  base : Nat
  size : Nat
  elem : Nat
  p : Nat
  c : Nat
  mark : Option (Nat × Nat)
  deriving DecidableEq, Repr

/-- An active loop level (R70, R71): its body's first byte, its last bundle's address, the byte after the body, iterations left with the present one, whether the present one is the first. -/
structure LoopLevel where
  first : Nat
  last : Nat
  after : Nat
  left : Nat
  isFirst : Bool
  deriving DecidableEq, Repr

/-- A LOOP that has acted and whose body begins after the last repeat (R69, R96): level, count, the level's body, and its bundles by address, to be held in the loop buffer. -/
structure Arming where
  lvl : Nat
  count : Nat
  body : LoopLevel
  words : Tab (List W32)
  /-- The bundle at which the body's loading goes on, and how many bundles it has still to take; none once the body is whole. -/
  rest : Option (Nat × Nat)
  deriving DecidableEq, Repr

/-- A register of any file, a quarter of a vector register or of a window row whose envelope fails and cannot be corrected (R305, R396). -/
inductive Spoilt where
  | g (r : Nat)
  | a (r : Nat)
  | p (r : Nat)
  | x (r : Nat)
  | q (r : Nat)
  | v (r quarter : Nat)
  | row (r quarter : Nat)
  deriving DecidableEq, Repr

/-- The sticky operations (R67). -/
structure Sticky where
  l : Option Instr
  v : Option Instr
  m : Option Instr
  x : Option Instr
  deriving DecidableEq, Repr

/-- The exact column sums of a beat, column 0 first (R129). -/
inductive BeatSums where
  | float (s : List XVal)
  | int (s : List Int)
  deriving DecidableEq, Repr

/-- What a fixed-latency result does when it lands (R18, R294). -/
inductive Eff where
  | g (d : GR) (x : W64)
  | v (d : VR) (mask data : VReg)
  | p (d : PR) (x : PReg)
  | x (d : XR) (upper : Bool) (val : BitVec 128)
  | walkSet (w : AR) (x : W32)
  | walkAdd (w : AR) (x : W32)
  | walkStep (w : AR) (x : W32)
  | walkStride (w : AR) (lvl : Nat) (x : W32)
  | sys (r : SysReg) (x : W64)
  | mownerWrite (x : W64) (hw : Nat)
  | rngctr (x : BitVec 128)
  | flags (f : FlagSet)
  | cutcount
  | cflagsClear
  | window (cells : List (Nat × Byte))
  | emulsion (bank : Nat) (x : W32)
  | spoolDef (n : Nat) (sp : Spool)
  | spoolP (n a : Nat)
  | spoolC (n a : Nat)
  | bind (q : QR) (n : Option SpR)
  | beat (row : Nat) (z : Bool) (s : BeatSums) (sat : Bool)
  | accZero (row : Nat)
  | drainZero (row : Nat)
  | planeCol (plane : Bool) (cols : List (Nat × VReg × VReg))
  | scaleCol (plane : Bool) (col : Nat) (x : ScaleCol)
  | swap
  | sat (b : Bool)
  | clrOvf
  deriving DecidableEq, Repr

/-- A result in flight: the step at which it lands, and its effect; a list of them is in issue order. -/
structure Landing where
  due : Nat
  eff : Eff
  deriving DecidableEq, Repr

/-- What a slot of the held bundle has asked for and awaits (R152): it is asked once while the bundle is held. -/
inductive Held where
  /-- A GBAR has arrived at the barrier of a phase of group g, the next one for a joiner (R158); the barrier has completed. -/
  | barrier (g phase : Nat)
  | released
  /-- A WAITM with the value it waits for, and its watch once it has arrived at the home slice of its word (R233). -/
  | waitm (b : W64) (watch : Option Nat)
  /-- A WOPEN that is clearing its window (R230). -/
  | opening
  /-- A read made for the bundle: the access that makes it. -/
  | read (acc : Nat)
  /-- A QTAKE on queue k (R163, R164): it waits; it is answered with the sentinel. -/
  | taker (k : Nat)
  | sentinel
  /-- A LAUNCH whose record was accepted before its context was evicted (R308). -/
  | accepted
  deriving DecidableEq, Repr

/-- What a trap sets aside (R290, R291, R295): sticky operations, loop sequencer, results in flight with the step count they are timed by, what the held bundle has asked for, the strides of a step whose passing over has stopped, and, for an S entry from the U handler, the trap registers. -/
structure SaveSet where
  sticky : Sticky
  loops : List (Nat × LoopLevel)
  loopbuf : Tab (List W32)
  inflight : List Landing
  step : Nat
  arming : Option Arming
  held : Tab Held
  strides : Option (List (List W32))
  trapRegs : Option (W64 × W64 × W64)
  deriving DecidableEq, Repr

/-- A failure report or dead letter record (R299); `cmd` is the stopped command. -/
structure Report where
  cause : Nat
  kind : Nat
  opc : Nat
  ctxid : Nat
  faddr : Nat
  epc : Nat
  detail : Nat
  seq : Nat
  code : Nat
  action : Nat
  cmd : Option Nat
  deriving DecidableEq, Repr

/-- A cause that waits for the context's next boundary (R297): its address and, for a collective or a shuffle, the OPC and EPC that a dead letter record of it carries (R303). Cause ASYNC stands for the reports together (R298). -/
structure Failure where
  cause : Cause
  addr : Nat
  opc : Nat
  epc : Nat
  deriving DecidableEq, Repr

/-- What the firmware has still to do for a context in S mode (R289). -/
inductive FwTask where
  /-- Terminate the context (R303); `detail` is the record's DETAIL. -/
  | terminate (detail : Nat)
  /-- Post a fault record, then wait for the host's answer (R289). -/
  | faultRecord
  | awaitHost (seq : Nat) (answer : Option Bool)
  /-- Service ASYNC reports (R301): each with the SEQ of the fault record posted for it and the host's answer, true for RESUME. -/
  | async (reports : List (Report × Option Nat × Option Bool)) (posted : Bool)
  /-- Hold until the producing command is resumed or cancelled (R302). -/
  | stream (owner spool mark : Nat)
  | matrixSwitch
  | preempt
  /-- Nothing left but TRET. -/
  | ret
  deriving DecidableEq, Repr

/-- The kernel header a context runs (R169): the header's and the code's virtual addresses, code size, entry, handler, quiet sites, budget, cut bound, banks, deepest loop level, maximum children, develop policy, the header's context count, FUSED. -/
structure Kernel where
  header : Nat
  code : Nat
  size : Nat
  entry : Nat
  handler : Nat
  qsites : Nat
  budget : Nat
  cutbound : Nat
  banks : Nat
  depth : Nat
  maxchild : Nat
  develop : Nat
  nctx : Nat
  fused : Bool
  deriving DecidableEq, Repr

/-- An evaluator's cell and chain (R247), by physical address of the cells, and its virtual address. -/
structure EvalInfo where
  cell : Nat
  va : Nat
  chain : List Nat
  deriving DecidableEq, Repr

/-- What a context is: free, running, evicted with its state kept in its image (R308), or ended with operations still outstanding (R25). -/
inductive Phase where
  | vacant | live | evicted | ended
  deriving DecidableEq, Repr

/-- Pending control of the issue now made, set by the C slot (R69, R93, R99, R103, R104). -/
inductive Xfer where
  | to (addr : Nat)
  | brk (lvl : Nat)
  | exit
  | tret
  /-- A TRAP: every slot has committed and the trap is taken. -/
  | trap
  deriving DecidableEq, Repr

/-- The model's own record of the issue being made: the slot now acting (R293), whether a slot has trapped, the control transfer. -/
structure Issue where
  slot : Nat
  trapped : Bool
  xfer : Option Xfer
  /-- Results in flight, and the next identity, before its first slot. -/
  base : Nat
  first : Nat
  /-- The issue is a quiet one, which sys.cutcount counts once it completes (R74, R319). -/
  quiet : Bool
  /-- The cell that a FIX of the issue has fixed (R208). -/
  fixed : Option Nat
  deriving DecidableEq, Repr

/-- A counter of R21 as the operations it counts, in issue order, each with whether it has retired. Its value is the length. -/
abbrev Counter := List (Nat × Bool)

structure Ctx where
  phase : Phase
  rank : Nat
  /-- The launch it belongs to; none for an evaluator. -/
  launch : Option Nat
  place : Option (Nat × Nat)
  kernel : Kernel
  g : Vector W64 32
  a : Vector Walker 16
  v : Vector VReg 32
  p : Vector PReg 8
  q : Vector (Option SpR) 8
  x : Vector XReg 8
  pc : Nat
  step : Nat
  /-- Issues of the held bundle made so far, and the first slot of the next (R104, R296). -/
  rpos : Nat
  sres : Nat
  status : W64
  faddr : W64
  epc : W64
  flags : W64
  ord : W64
  ctxid : W64
  nctx : W64
  cutcount : W64
  msave : W64
  rngkey : W64
  rngctr : BitVec 128
  inflight : List Landing
  sticky : Sticky
  loops : List (Nat × LoopLevel)
  loopbuf : Tab (List W32)
  arming : Option Arming
  /-- The strides that walkers held at the step of the last issue, by walker and level, while bundles behind it are still to be passed over (R72, R90). -/
  strides : Option (List (List W32))
  ld : Counter
  st : Counter
  cp : Counter
  tl : Counter
  window : Memory
  emulsion : Vector W32 32
  spools : Tab Spool
  cflags : FlagSet
  /-- U-mode issues made (R289), issues since the last quiet one (R318), whether the last issue was quiet (R319) and its site. -/
  issues : Nat
  sinceQuiet : Nat
  quiet : Option Nat
  saveU : Option SaveSet
  saveS : Option SaveSet
  failures : List Failure
  reports : List Report
  /-- Reports for which the context has no place yet (R298): they carry no SEQ. -/
  waiting : List Report
  held : Tab Held
  yielded : List Nat
  eval : Option EvalInfo
  preempt : Bool
  fw : Option FwTask
  /-- A TRET has just restored results that land on the matrix state (R316). -/
  mwait : Bool
  /-- The physical plane that was active when the context last gave up the matrix state: its pending plane writes are numbered by it (R140, R316). -/
  mact : Bool
  /-- What reads as INTEGRITY (R305), and what the next read corrects (R398). -/
  bad : List Spoilt
  corr : List Spoilt
  deriving DecidableEq, Repr

/-- Matrix state of a core (R126, R127); `act` says which of the two physical planes is active. -/
structure Matrix where
  acc : Vector AccRow 128
  planes : Vector (Vector VReg 128) 2
  scales : Vector (Vector ScaleCol 128) 2
  act : Bool
  /-- Format records of the physical planes: OPEN, GRP, FMT. -/
  recs : Vector (Bool × BitVec 2 × BitVec 5) 2
  lcur : BitVec 7
  scur : BitVec 7
  ovf : Bool
  sat : Bool
  deriving DecidableEq, Repr

/-- A cached translation (R196): rank, first virtual page byte, its size, the physical page and the leaf's bits [7:0] as read. -/
structure TlbEntry where
  rank : Nat
  va : Nat
  size : Nat
  pa : Nat
  bits : Nat
  /-- Physical address of the leaf entry. -/
  entry : Nat
  deriving DecidableEq, Repr

structure Core where
  mat : Matrix
  /-- sys.mowner: owner (0xFFFF none), its hardware context, dirty (R312). -/
  mowner : BitVec 16
  mhwc : BitVec 2
  mdirty : Bool
  /-- L1 data lines by physical line number (R186); instruction lines by rank and virtual line (R188). -/
  l1 : Tab (List Byte)
  icache : Tab (List Byte)
  /-- The virtual function that allocated an L1 line (R325). -/
  l1vf : Tab Nat
  /-- Lines of either cache whose envelope fails: true where ECC corrects them (R396, R398). -/
  badL1 : Tab Bool
  badIns : Tab Bool
  tlb : List TlbEntry
  /-- Hardware context that was last primary (R153). -/
  last : Nat
  /-- The planes or the accumulator fail their envelope check (R305). -/
  badMat : Bool
  deriving DecidableEq, Repr

/-- Counter classes (R21). -/
inductive Cls where
  | none | ld | st | cp | tl
  deriving DecidableEq, Repr

/-- Where a value read goes. -/
inductive Dst where
  | none
  | g (d : GR) (sz : Sz)
  | v (d : VR) (mask : PReg)
  /-- The matrix state; the step of its MSTLOAD (R143). -/
  | image (step : Nat)
  deriving DecidableEq, Repr

/-- Progress of one part of an access. -/
inductive PartSt where
  | waiting
  /-- Sent to another device under a tag; the reply answers it (R216, R337). -/
  | sent (tag : Nat)
  /-- Parked at a DEVELOPING cell (R243). -/
  | parked (cell : Nat)
  | done
  | failed (cause : Cause) (addr : Nat)
  deriving DecidableEq, Repr

/-- The part of an access that lies in one line (R206): bytes enabled, and the bytes to write or the bytes read. -/
structure Part where
  va : Nat
  pa : Nat
  /-- In a latent-capable page (R192). -/
  lc : Bool
  en : List Bool
  data : List Byte
  st : PartSt
  deriving DecidableEq, Repr

inductive AccKind where
  | load (dst : Dst)
  | store
  | amo (op : Aop) (wide : Bool) (b : W64) (d : GR)
  | cas (wide : Bool) (b c : W64) (d : GR)
  /-- Adds into exact windows (R200); `int` for INT32 values. -/
  | winAdd (int : Bool)
  | fence (k : FenceKind)
  /-- EXPOSE: part 0 reads the record, part 1 writes the cell (R240). -/
  | expose
  | wclose (base count : Nat)
  | post (k : Nat)
  /-- XFMT and other operations that only wait for what stands before them. -/
  | marker
  /-- XCOLL and XSHUF: the writes of their target; and the reads of their source. -/
  | coll
  | source
  deriving DecidableEq, Repr

/-- An outstanding operation of a context: identity, issuer, place of issue, kind, order (R209, R210) and parts. -/
structure Acc where
  id : Nat
  ctx : Nat
  rank : Nat
  core : Nat
  slot : Nat
  opc : Nat
  epc : Nat
  kind : AccKind
  cls : Cls
  acq : Option Scope
  rel : Bool
  parts : List Part
  /-- A part was answered by a FIX (R213). -/
  woken : Bool
  /-- First identity of the issue that made it; bytes that writes of that issue have changed before it has read them, as they were; a cell that the issue has fixed (R208). -/
  first : Nat
  keep : List (Nat × Byte)
  shut : Option Nat
  deriving DecidableEq, Repr

/-- A side of a copy (R260). -/
inductive Side where
  | global (base : Nat)
  | spad (addr : Nat)
  | spool (n : Nat)
  | pattern (x : W64)
  /-- A spool of every target context (R267). -/
  | targets (n : Nat) (base mask : Nat)
  deriving DecidableEq, Repr

/-- A request sent to another device and not confirmed (R216, R382): the access and its part, or the copy command, it belongs to, and the port it left by. -/
structure RemoteReq where
  owner : Nat
  part : Nat
  forCmd : Bool
  pkt : Packet
  port : Option Nat
  /-- For an add to an event word (R167): the rank whose dead letter queue takes the record of its failure, and the record. -/
  dead : Option (Nat × Report)
  deriving DecidableEq, Repr

/-- A piece of a global destination, in one line, that elements on their way are still to be written to: its address, the first element it holds, counted over all runs, whether it holds scales, which bits of each byte it sets, and the bytes (R206, R273). -/
structure OutPiece where
  va : Nat
  elem : Nat
  scale : Bool
  mask : List Byte
  data : List Byte
  deriving DecidableEq, Repr

/-- An access of a command processor to another device's memory (R185, R216): whose it is, by virtual function × 16 + queue, its piece, whether it writes, the tag of its request, and the bytes and cause code of the reply. -/
structure FarAcc where
  owner : Nat
  va : Nat
  len : Nat
  write : Bool
  tag : Nat
  ans : Option (List Byte × Nat)
  deriving DecidableEq, Repr

/-- A WAITM at the home slice of its word (R233): whose it is, the word's address, the value waited for, and the word that a test has found to satisfy it. -/
structure Watch where
  id : Nat
  ctx : Nat
  pa : Nat
  bound : W64
  got : Option W64
  deriving DecidableEq, Repr

/-- A copy command as accepted (R256, R265), and how far it has come. -/
structure Cmd where
  id : Nat
  ctx : Nat
  rank : Nat
  core : Nat
  opc : Nat
  epc : Nat
  shape : XReg
  src : Side
  dst : Side
  /-- Scale array (R262). -/
  scaleBase : Nat
  /-- Index list of CPG and CPS (R268), which side it places, and the indices read so far. -/
  index : Option (Nat × Bool)
  indices : List Nat
  /-- Adds into an exact window (R269). -/
  adds : Bool
  emulsion : Vector W32 32
  order : CmdOrder
  /-- First Philox counter reserved (R261). -/
  ctr : BitVec 128
  key : W64
  started : Bool
  /-- The acquire of its ACQ has still to perform (R215). -/
  acq : Bool
  /-- Next run, and the element of that run that is next to be put on its way. -/
  run : Nat
  elem : Nat
  flags : FlagSet
  /-- Stopped at element `elem` of run `run` with a cause and an address, whether a change of the mapping could cure it, and whether it has been reported (R273, R301). -/
  stopped : Option (Cause × Nat × Bool)
  reported : Bool
  /-- Window bytes, and bytes of global memory, that writes of its own issue have changed before it has read them, as they were, a cell that its issue has fixed (R208), and the first identity of that issue. -/
  keep : List (Nat × Byte)
  keepG : List (Nat × Byte)
  shut : Option Nat
  first : Nat
  /-- Bytes read of the index list and for the present run, by virtual address, and reads that failed: where, why, the address to report, and whether a change of the mapping could cure it. -/
  fetched : List (Nat × Byte)
  refused : List (Nat × Cause × Nat × Bool)
  /-- Reads of the command parked at cells: the cell, the virtual address read and how many bytes (R243). -/
  parked : List (Nat × Nat × Nat)
  /-- Pieces on their way to global memory and not yet written (R206, R273). -/
  out : List OutPiece
  cls : Cls
  deriving DecidableEq, Repr

/-- An exact accumulator (R200). -/
structure WinElem where
  sum : BitVec 302
  cnt : Nat
  pinf : Bool
  ninf : Bool
  nan : Bool
  ovf : Bool
  deriving DecidableEq, Repr

/-- An exact window of a rank (R202); elements not listed hold no add. -/
structure Win where
  rank : Nat
  base : Nat
  count : Nat
  closing : Bool
  /-- The context and the first identity of the issue that opened it (R208). -/
  opener : Nat × Nat
  /-- Elements whose accumulators have been cleared by the WOPEN (R230); elements whose closing write has been made. -/
  cleared : Nat
  written : Nat
  /-- Where its pages lay when it was opened: virtual address, physical address, bytes. -/
  pages : List (Nat × Nat × Nat)
  elems : Tab WinElem
  deriving DecidableEq, Repr

inductive Tag where
  | value | latent | developing | faulted
  deriving DecidableEq, Repr

/-- A cell that is not in VALUE (R237 to R243), by physical address divided by 64: its rank and virtual address, its evaluator once placed, and what waits for it: accesses' parts, first reader first, and commands. -/
structure Cell where
  tag : Tag
  rank : Nat
  va : Nat
  eval : Option Nat
  placed : Bool
  readers : List Nat
  cmds : List Nat
  /-- The first reader's context, core and chain. -/
  first : Nat × Nat × List Nat
  /-- Reader suspended for development in place, and the hardware context it has vacated for the evaluator (R241). -/
  inPlace : Option Nat
  vacated : Option (Nat × Nat)
  /-- The content of a cell of a page that came compressed, under a decompression record of the firmware (R377). -/
  packed : Option (List Byte)
  deriving DecidableEq, Repr

/-- A group record (R156, R158): number of the phase, members of the phase, joiners of the next one, required set and arrivals of a pending barrier, arrivals at the next phase's barrier. -/
structure Group where
  rank : Nat
  num : Nat
  phase : Nat
  members : List Nat
  next : List Nat
  required : Option (List Nat)
  arrived : List Nat
  nextArrived : List Nat
  deriving DecidableEq, Repr

/-- A continuation queue of a rank (R160, R164). -/
structure Queue where
  recs : List (List Byte)
  takers : List Nat
  terminated : Bool
  /-- The context whose take of the head is on its way to another device's memory (R163). -/
  taking : Option Nat
  deriving DecidableEq, Repr

/-! ### Launches and command queues (09) -/

/-- Where a launch comes from (R165, R176, R409). -/
inductive LaunchSrc where
  | queue (vf q : Nat)
  /-- A child launch: the issuing context, the launch it belongs to, and the report of a refusal but for the status. -/
  | child (ctx : Nat) (parent : Option Nat) (rep : Report)
  deriving DecidableEq, Repr

/-- A launch record accepted and not yet placed (R166, R176). `nctx` 0 means the header's; `nptr` is the address of the word that holds an indirect count, read when the launch starts. -/
structure LaunchRec where
  id : Nat
  rank : Nat
  vf : Nat
  src : LaunchSrc
  code : Nat
  args : W64
  event : Nat
  status : Nat
  nctx : Nat
  nptr : Option Nat
  base : Nat
  deriving DecidableEq, Repr

/-- A launch placed and not complete (R167): contexts still running, the reservation it holds and how much of it is parked (R166), fused (R180). -/
structure Launch where
  id : Nat
  rank : Nat
  vf : Nat
  src : LaunchSrc
  header : Nat
  base : Nat
  event : Nat
  ctxs : List Nat
  maxchild : Nat
  parked : Nat
  fused : Bool
  deriving DecidableEq, Repr

/-- A body of a LOOP or an IF being run (R176, R177): first index, length, runs left with the present one. -/
structure QLoop where
  isLoop : Bool
  start : Nat
  len : Nat
  left : Nat
  deriving DecidableEq, Repr

/-- What the head of a command queue is doing (R177). -/
inductive QHead where
  | idle
  /-- A LAUNCH that waits for placement. -/
  | launch (r : LaunchRec)
  | waitev (addr : Nat) (value : W64) (cmp : Nat)
  /-- A COPY: what is left of it. -/
  | copy (src dst left : Nat)
  /-- A SIGNAL to a word of another device's memory: the tag of its request, the word, IRQ. -/
  | adding (tag addr : Nat) (irq : Bool)
  deriving DecidableEq, Repr

/-- A command queue (R175, R391, R395): QSTAT state, QRING, QCFG, indices as the doorbell and the processor count them, nesting, head, last HOLDPOINT, the die that serves it (R178). -/
structure CmdQueue where
  state : Nat
  ring : W64
  cfg : W64
  prod : Nat
  cons : Nat
  loops : List QLoop
  head : QHead
  holdpoint : Option Nat
  die : Nat
  /-- Launches of the queue not complete. -/
  running : List Nat
  deriving DecidableEq, Repr

/-- The control block of a virtual function (R322), its key (R325), its register page (R391), its mailbox (R380), and what the hub keeps for it. -/
structure VF where
  part : Nat
  enable : Bool
  gen : Nat
  waymask : Nat
  quant : Nat
  cutmax : Nat
  budgetmax : Nat
  holdbase : Nat
  holdbw : Nat
  cpbytes : Nat
  flits : Nat
  beats : Nat
  wallocs : Nat
  holdsz : Nat
  /-- Eight memory windows: VBASE, SIZE, VK, flags (R322, R390). -/
  wins : List (Nat × Nat × Nat × Nat)
  key : Option Nat
  queues : Tab CmdQueue
  childq : List LaunchRec
  /-- The die that serves the child queue (R409). -/
  childDie : Nat
  /-- Use of each budgeted unit in its present window (R323). -/
  used : Tab Nat
  frseq : Nat
  mbox : W64
  mwait : List (List Byte)
  mseq : Nat
  /-- Offset from HOLDBASE of the last hold segment and of the byte after it. -/
  lastSeg : Option Nat
  nextSeg : Nat
  /-- Starts nothing since a Last Collection (R327); held by one until a restoration or a reset (R329). -/
  halted : Bool
  holding : Bool
  deriving DecidableEq, Repr

/-! ### Virtual ranks (22) -/

/-- An entry of a contact sheet (R362), with the physical pieces of the block it covers, address and length, that are guarded (R363); `gen` 0 is unusable. -/
structure SheetEntry where
  shid : Nat
  blk : Nat
  addr : Nat
  gen : Nat
  pieces : List (Nat × Nat)
  deriving DecidableEq, Repr

/-- A known rank (R372, R373): the fields of its record, then what else belongs to it. STATE is as the record codes it. -/
structure RankRec where
  vk : Nat
  vf : Nat
  /-- The job it belongs to: the number of the virtual function it was created for, which it keeps when it migrates (log 35). -/
  job : Nat
  nvk : Nat
  seed : W64
  root : Nat
  wallow : Nat
  state : Nat
  dlq : Nat
  dlqprod : Nat
  dlqcons : Nat
  dlqovf : Nat
  qarea : Nat
  park : Nat
  plist : Nat
  spill : Nat
  spillsz : Nat
  parkn : Nat
  save : Nat
  commt : Nat
  /-- The next report's SEQ (R299). -/
  seq : Nat
  /-- The job has been marked failed (R304). -/
  failed : Bool
  queues : Tab Queue
  parked : List LaunchRec
  /-- Entries of the parking area reserved by launches in force (R166). -/
  reserved : Nat
  /-- Number of XCOLLs issued on each communicator (R346). -/
  collNum : Tab Nat
  shufGen : Nat
  /-- Number of XSHUFs issued with each SHID. -/
  shufNum : Tab Nat
  sheet : List SheetEntry
  /-- Packets written to the spill area, oldest first (R360, R379). -/
  spilled : List PktBody
  /-- Starts of new launches are stopped (R377). -/
  stopped : Bool
  deriving DecidableEq, Repr

/-- A cut being formed (R319): its rank, why it was asked for (a migration order and the STATE to go back to, a hold, the hypervisor), the cut count once formed. -/
inductive CutWhy where
  | migration (order was : Nat)
  | hold (vf : Nat)
  | hypervisor
  deriving DecidableEq, Repr

structure Cut where
  rank : Nat
  why : CutWhy
  target : Option Nat
  deriving DecidableEq, Repr

/-- A queue of a target of a Last Collection (R327, R328): outcome 1 deliver, 2 hold, 3 return; ended by the reset at D − M; report entry written. -/
structure CollEntry where
  vf : Nat
  q : Nat
  outcome : Nat
  overrun : Bool
  written : Bool
  deriving DecidableEq, Repr

/-- A Last Collection in force (R326 to R328): descriptor, deadline, report array, targets, their queues. -/
structure Collection where
  addr : Nat
  deadline : Nat
  report : Nat
  targets : List Nat
  entries : List CollEntry
  deriving DecidableEq, Repr

/-- A page of a rank block (R329): virtual address, cells that are not VALUE by number in the page, bytes, and its blocks of 64 bytes, by number in the page, whose envelope fails beyond correction (R396). -/
structure HeldPage where
  va : Nat
  tags : Tab Cell
  bytes : List Byte
  lost : List Nat
  deriving DecidableEq, Repr

/-- A contribution that arrives (R345): the position's order, the bytes of its source shard, and its pieces by offset. -/
structure Contribution where
  job : Nat
  comm : Nat
  k : Nat
  pos : Nat
  order : List Byte
  total : Nat
  pieces : Tab (List Byte)
  deriving DecidableEq, Repr

/-- What a rank block of a hold segment carries (R329), and the stream of a migration, with the state of its endpoint and the rank's interrupt records not yet written (R373, R377, R381). -/
structure RankBlock where
  rank : Nat
  record : RankRec
  groups : List Group
  wins : List Win
  ctxs : Tab Ctx
  withdrawn : List Acc
  launches : List Launch
  pages : List HeldPage
  mail : List (List Byte)
  contribs : List Contribution
  aborts : List (Nat × Nat × Nat × Bool)
  holds : List (Nat × Nat × Nat)
  deriving DecidableEq, Repr

/-- The bytes in which a migration engine sends a rank, and what those of another device's engine bring: their layout is the firmware's (log 75). -/
opaque rankBytes : RankBlock → List Byte
opaque arrivingRank : List Byte → Option RankBlock

/-- A hold segment (R329) by its physical address, with what its queue records and rank blocks carry; its layout in memory is the firmware's. -/
structure Segment where
  addr : Nat
  vf : Nat
  gen : Nat
  len : Nat
  queues : Tab CmdQueue
  blocks : List RankBlock
  deriving DecidableEq, Repr

/-! ### Fabric, collectives, shuffles (20, 21) -/

/-- How an XCOLL is to end (R346, R352, R353): still open; its target being written; halted, by this member or another; aborted; aborted before anything was written, since the members' orders differ. -/
inductive CollEnd where
  | open
  | writing
  | halt (culprit : Bool)
  | abort
  | mismatch
  deriving DecidableEq, Repr

/-- An XCOLL accepted and not retired (R343): the access that writes its target, which counts on TL, and the one that reads its source; the collective it belongs to (job, communicator, number), the address and bytes of its order, members and position, whether it has begun to read and has sent its contribution, positions whose HOLD stops its timer. -/
structure Coll where
  id : Nat
  rd : Nat
  rank : Nat
  ctx : Nat
  job : Nat
  comm : Nat
  k : Nat
  addr : Nat
  order : List Byte
  members : List Nat
  pos : Nat
  begun : Bool
  sent : Bool
  held : List Nat
  /-- Pieces sent to other devices and not accepted there: device and offset (R343). -/
  unacked : List (Nat × Nat)
  outcome : CollEnd
  deriving DecidableEq, Repr

/-- A read by another device that waits at cells being developed (R408): the bytes it has, by offset, its lowest failure so far, the cells still to answer. -/
structure WaitingRead where
  dev : Nat
  tag : Nat
  pa : Nat
  en : List Bool
  got : List (Nat × Byte)
  fail : Option (Nat × Nat)
  cells : List Nat
  deriving DecidableEq, Repr

/-- A request packet without a reply of its own that waits for its confirmation, and the port it left by (R382). -/
structure Unconfirmed where
  port : Nat
  pkt : Packet
  deriving DecidableEq, Repr

/-- A leased reduction slot (R350, R351). -/
structure RedSlot where
  slot : Nat
  coll : Nat
  node : Nat
  /-- What its node's children have brought so far, as the contributions of the positions beneath it. -/
  partials : List Contribution
  deriving DecidableEq, Repr

/-- A send entry of a plan (R358) and whether its block is acknowledged. -/
structure SendEntry where
  blk : Nat
  dest : Nat
  src : Nat
  holders : List Nat
  acked : Bool
  deriving DecidableEq, Repr

/-- How the block of a receive entry came: not yet, plain, decoded, or not at all because its fallback failed (R368). -/
inductive Came where
  | no | plain | decoded | failed
  deriving DecidableEq, Repr

/-- A receive entry, its place among the parts of the writes, how its block came, and whether its target is written. -/
structure RecvEntry where
  blk : Nat
  sender : Nat
  tgt : Nat
  first : Nat
  count : Nat
  came : Came
  written : Bool
  deriving DecidableEq, Repr

/-- An XSHUF accepted and not retired (R355 to R370): the access that writes its targets, which counts on TL, and the one that reads its entries and blocks; its plan header; how far its endpoint is: reading the entries, reading the blocks, all sent; the FALLBACK count, positions whose HOLD stops its timer. -/
structure Shuf where
  acc : Nat
  rd : Nat
  rank : Nat
  ctx : Nat
  job : Nat
  comm : Nat
  shid : Nat
  /-- Which of its rank's XSHUFs with that SHID it is. -/
  num : Nat
  blen : Nat
  gen : Nat
  members : List Nat
  pos : Nat
  addr : Nat
  header : List Byte
  stage : Nat
  sends : List SendEntry
  recvs : List RecvEntry
  fallback : Nat
  held : List Nat
  /-- Aborted; for the member that found the cause, the cause and its address (R370). -/
  abort : Option (Option (Cause × Nat))
  deriving DecidableEq, Repr

/-- An overprint in the decode buffer of a port group, for the receiver of its first packet or of its second (R366). -/
structure Decoding where
  group : Nat
  second : Bool
  op : Overprint
  /-- Bytes of the held block that the endpoint has read. -/
  read : List Byte
  deriving DecidableEq, Repr

/-! ### The hub (24) -/

/-- The registers of the hypervisor's space that belong to no virtual function (R393), and what stands behind them. -/
structure Hub where
  devstat : Nat
  clpart : W64
  collstat : Nat
  hvmbox : W64
  hvwait : List (List Byte)
  hvseq : Nat
  reststat : Nat
  rkaddr : W64
  rkstat : Nat
  /-- A command written to RKCMD that the hub has still to carry out (R394). -/
  rkcmd : Option W64
  jprod : Nat
  jcons : Nat
  jovf : Nat
  /-- Corrections lost since the last marker (R400). -/
  jlost : Nat
  /-- Entries of the journal, oldest of the last 8,192 first (R399). -/
  journal : List (List Byte)
  /-- The last entry that the pending request of SEALREQ is to cover (R401). -/
  sealreq : Option Nat
  sealbase : W64
  sealn : W64
  sealprod : Nat
  sealcons : Nat
  /-- LAST of the seals not yet written, of which the last may wait for room (R401, R402). -/
  sealwait : List Nat
  attbase : W64
  attreq : Bool
  attnonce : Vector W64 4
  cap : W64
  boot : Nat
  /-- The start entry of this boot waits for room in the journal (R399). -/
  startdue : Bool
  /-- Clocks lowered (R405), device stopped by heat (R405). -/
  lowered : Bool
  shutdown : Bool
  deriving DecidableEq, Repr

/-- The whole machine. -/
structure State where
  /-- The model's own: counter of free values (log 1), what happens next, the context an operation acts for, the issue being made, the next identity. -/
  free : Nat
  agenda : List Instr
  cur : Nat
  issue : Issue
  nextId : Nat
  ctxs : Tab Ctx
  cores : Tab Core
  /-- Second-level TLB of each die (R196). -/
  tlb2 : Tab (List TlbEntry)
  mem : Memory
  cells : Tab Cell
  /-- Blocks of 64 bytes whose check fails: true where ECC corrects it (R398). -/
  bad : Tab Bool
  /-- Links whose next transfer fails its check and is sent again: KIND, UNIT and lane of the journal entry (R398, R399). -/
  flips : List (Nat × Nat × Nat)
  accs : List Acc
  /-- Loads withdrawn at an eviction and made again at the restoration (R308). -/
  withdrawn : List Acc
  watches : List Watch
  cmds : List Cmd
  wins : List Win
  groups : List Group
  ranks : Tab RankRec
  vfs : Tab VF
  launches : List Launch
  /-- Pages of this device that a virtual function has written, as leaves named them: physical address, bytes, virtual function. What they hold is under its key (R325). -/
  owned : List (Nat × Nat × Nat)
  /-- Verified headers of each die, by rank and address with the bytes of header and code, latest launched first (R174). -/
  verified : Tab (List (Nat × Nat × Nat))
  /-- Fused clusters and the rank they are fused for (R180). -/
  fused : Tab Nat
  /-- The virtual function running in each partition (R324). -/
  running : Tab Nat
  cuts : List Cut
  collections : List Collection
  segments : List Segment
  /-- The command processors' last served queue by die and priority (R178), as VF × 16 + queue, 8 for a child queue. -/
  served : Tab Nat
  /-- Partitions whose time slice has ended (R324), with the virtual function that comes next. -/
  switching : Tab Nat
  colls : List Coll
  contribs : List Contribution
  /-- Collectives that have aborted, by job, communicator and number, and whether for differing orders: a member that has not issued its XCOLL takes the abort when it does (R346, R353). -/
  collAborts : List (Nat × Nat × Nat × Bool)
  /-- HOLD notices in force, by job, communicator and position (R353). -/
  holds : List (Nat × Nat × Nat)
  redslots : List RedSlot
  /-- Rotation of each routing entry over its ports (R340), and of the slots' allocation port over the 128 (R350), with the requests before it. -/
  rotors : Tab Nat
  slotPtr : Nat
  slotReqs : List (Nat × Nat × Nat)
  routes : Tab (List Nat)
  failedPorts : List Nat
  shufs : List Shuf
  pairing : List ShufPkt
  decoding : List Decoding
  retries : List PktBody
  /-- Packets and messages on their way to endpoints of this device. -/
  inbox : List PktBody
  /-- Packets that leave, by port and class, oldest first (R338): each class has its own buffer at every port. -/
  outbox : Tab (List Packet)
  unconfirmed : List Unconfirmed
  /-- Reads by other devices that wait at cells (R408). -/
  remoteReads : List WaitingRead
  /-- Requests to other devices without a reply, by tag. -/
  remote : Tab RemoteReq
  /-- What the command processors have asked of other devices. -/
  far : List FarAcc
  /-- The sorting office's map of ranks that live on other devices (R377), by job and VK. -/
  located : Tab Nat
  /-- Ranks that have moved away from here, in the same numbers: their old endpoint forwards what still comes (R377, R379). -/
  moved : List Nat
  /-- Packets of migrations to this device that have not all come (R338, R377). -/
  arriving : List PktBody
  /-- Completions of host accesses, and interrupt messages sent (R390, R392), latest first. -/
  hostReplies : List (Option (List Byte))
  messages : List (Nat × Nat)
  hub : Hub
  deriving DecidableEq, Repr

/-! ### The values at reset and launch -/

def Walker.zero : Walker := ⟨0, 0, Vector.replicate 6 0⟩

def Sticky.none : Sticky := ⟨.none, .none, .none, .none⟩

def Kernel.none : Kernel := ⟨0, 0, 0, 0, 0, 0, 0, 0, 0, 0, 0, 0, 0, false⟩

/-- A context record in the state of R24 and R12, not yet placed. -/
def Ctx.vacant : Ctx where
  phase := .vacant
  rank := 0
  launch := none
  place := none
  kernel := Kernel.none
  g := Vector.replicate 32 0
  a := Vector.replicate 16 Walker.zero
  v := Vector.replicate 32 0
  p := Vector.replicate 8 0
  q := Vector.replicate 8 none
  x := Vector.replicate 8 0
  pc := 0
  step := 0
  rpos := 0
  sres := 0
  status := 0
  faddr := 0
  epc := 0
  flags := 0
  ord := 1
  ctxid := 0
  nctx := 0
  cutcount := 0
  msave := 0
  rngkey := 0
  rngctr := 0
  inflight := []
  sticky := Sticky.none
  loops := []
  loopbuf := []
  arming := none
  strides := none
  ld := []
  st := []
  cp := []
  tl := []
  window := []
  emulsion := Vector.replicate 32 0
  spools := []
  cflags := 0
  issues := 0
  sinceQuiet := 0
  quiet := none
  saveU := none
  saveS := none
  failures := []
  reports := []
  waiting := []
  held := []
  yielded := []
  eval := none
  preempt := false
  fw := none
  mwait := false
  mact := false
  bad := []
  corr := []

/-- Matrix state all zero (R11, R126, R127). -/
def Matrix.zero : Matrix where
  acc := Vector.replicate 128 0
  planes := Vector.replicate 2 (Vector.replicate 128 0)
  scales := Vector.replicate 2 (Vector.replicate 128 0)
  act := false
  recs := Vector.replicate 2 (false, 0, 0)
  lcur := 0
  scur := 0
  ovf := false
  sat := false

def Core.reset : Core where
  mat := Matrix.zero
  mowner := 0xFFFF
  mhwc := 0
  mdirty := false
  l1 := []
  icache := []
  l1vf := []
  badL1 := []
  badIns := []
  tlb := []
  last := 3
  badMat := false

def WinElem.zero : WinElem := ⟨0, 0, false, false, false, false⟩

/-- A command queue not set up (R391: QSTAT 4). -/
def CmdQueue.reset : CmdQueue := ⟨4, 0, 0, 0, 0, [], .idle, none, 0, []⟩

/-- A virtual function at reset (R322, R391). Its child queue has no die before it is enabled, which is when one is assigned (R409, log 70); until then the number 0 stands here. -/
def VF.reset : VF where
  part := 0
  enable := false
  gen := 0
  waymask := 0xFFFF
  quant := 0
  cutmax := 0xFFFFFFFF
  budgetmax := 0xFFFFFFFFFFFFFFFF
  holdbase := 0
  holdbw := 0
  cpbytes := 0
  flits := 0
  beats := 0
  wallocs := 0
  holdsz := 0
  wins := List.replicate 8 (0, 0, 0, 0)
  key := none
  queues := []
  childq := []
  childDie := 0
  used := []
  frseq := 0
  mbox := 0
  mwait := []
  mseq := 0
  lastSeg := none
  nextSeg := 0
  halted := false
  holding := false

/-- The hub at reset (R407: state 1; CLPART 0 by R321; registers without a stated reset value 0, log 3). -/
def Hub.reset : Hub where
  devstat := 1
  clpart := 0
  collstat := 0
  hvmbox := 0
  hvwait := []
  hvseq := 0
  reststat := 0
  rkaddr := 0
  rkstat := 0
  rkcmd := none
  jprod := 0
  jcons := 0
  jovf := 0
  jlost := 0
  journal := []
  sealreq := none
  sealbase := 0
  sealn := 0
  sealprod := 0
  sealcons := 0
  sealwait := []
  attbase := 0
  attreq := false
  attnonce := Vector.replicate 4 0
  cap := 0
  boot := 0
  startdue := false
  lowered := false
  shutdown := false

/-- The machine right after reset (R407): start state 1, no rank, no key, no context, nothing in memory. -/
def State.reset : State where
  free := 0
  agenda := []
  cur := 0
  issue := ⟨0, false, none, 0, 0, false, none⟩
  nextId := 1
  ctxs := []
  cores := []
  tlb2 := []
  mem := []
  cells := []
  bad := []
  flips := []
  accs := []
  withdrawn := []
  watches := []
  cmds := []
  wins := []
  groups := []
  ranks := []
  vfs := []
  launches := []
  owned := []
  verified := []
  fused := []
  running := []
  cuts := []
  collections := []
  segments := []
  served := []
  switching := []
  colls := []
  contribs := []
  collAborts := []
  holds := []
  redslots := []
  rotors := []
  slotPtr := 0
  slotReqs := []
  routes := []
  failedPorts := []
  shufs := []
  pairing := []
  decoding := []
  retries := []
  inbox := []
  outbox := []
  unconfirmed := []
  remoteReads := []
  remote := []
  far := []
  located := []
  moved := []
  arriving := []
  hostReplies := []
  messages := []
  hub := Hub.reset

/-- Why the machine stops. -/
inductive Fault where
  /-- Raised by every step after a thermal shutdown (R405: the device stops, and work in flight is lost) but a device reset (R407). Safe: no further behaviour is claimed. -/
  | deviceStopped
  deriving DecidableEq, Repr

/-- What the model gives no meaning. -/
inductive Refusal where
  /-- An instruction without a meaning in this model. Safe: no behaviour is claimed. -/
  | notModelled (mnemonic : String)
  deriving DecidableEq, Repr

end Sys2Proof.Machine
end

