-- ==== Sys2Proof/Machine/Ops.lean ====
section
/-! DEFINITION. Machine/Ops.lean: the named operations over the state: tables, memory, registers, results in flight and their landing (R18), taking an exception (R290, R291) and returning from one (R295). -/

namespace Sys2Proof.Machine

/-- What a meaning answers. -/
abbrev Out := Host.Outcome State Fault Refusal

/-! ### Tables -/

def tabGet {α : Type} (t : Tab α) (k : Nat) : Option α :=
  match t with
  | [] => none
  | (j, x) :: l => if j = k then some x else tabGet l k

def tabGetD {α : Type} (t : Tab α) (k : Nat) (d : α) : α := (tabGet t k).getD d

/-- Sets the entry of a key, keeping keys in rising order. -/
def tabSet {α : Type} (t : Tab α) (k : Nat) (x : α) : Tab α :=
  match t with
  | [] => [(k, x)]
  | (j, y) :: l => if k < j then (k, x) :: (j, y) :: l else if k = j then (k, x) :: l else (j, y) :: tabSet l k x

def tabDel {α : Type} (t : Tab α) (k : Nat) : Tab α := t.filter fun e => e.1 != k

def tabModify {α : Type} (t : Tab α) (k : Nat) (f : α → α) : Tab α :=
  match tabGet t k with
  | some x => tabSet t k (f x)
  | none => t

/-! ### Memory: canonical lists of bytes (log 2) -/

/-- What an unlisted address reads as (DESIGN CHOICE, log 2). -/
def Memory.dflt : Byte := 0

/-- The byte at an address. -/
def Memory.get : Memory → Nat → Byte
  | [], _ => Memory.dflt
  | (a, b) :: l, k => if a = k then b else Memory.get l k

/-- Writes one byte; the canonical form is kept. -/
def Memory.set : Memory → Nat → Byte → Memory
  | [], k, x => if x = Memory.dflt then [] else [(k, x)]
  | (a, b) :: l, k, x =>
    if k < a then (if x = Memory.dflt then (a, b) :: l else (k, x) :: (a, b) :: l)
    else if k = a then (if x = Memory.dflt then l else (k, x) :: l)
    else (a, b) :: Memory.set l k x

/-- The canonical form: addresses strictly rising, no byte listed that an unlisted address would read as. -/
def Memory.wf : Memory → Bool
  | [] => true
  | (_, b) :: [] => b != Memory.dflt
  | (a, b) :: (c, d) :: l => b != Memory.dflt && decide (a < c) && Memory.wf ((c, d) :: l)

/-- n bytes from an address. -/
def Memory.read (m : Memory) (a n : Nat) : List Byte := (List.range n).map fun i => m.get (a + i)

def Memory.write (m : Memory) (a : Nat) : List Byte → Memory
  | [] => m
  | b :: l => Memory.write (m.set a b) (a + 1) l

/-- Writes the bytes of a list of addresses and values. -/
def Memory.writeCells (m : Memory) : List (Nat × Byte) → Memory
  | [] => m
  | (a, b) :: l => Memory.writeCells (m.set a b) l

/-- A little-endian value of n bytes (R4). -/
def Memory.readLE (m : Memory) (a n : Nat) : Nat := leNat (m.read a n)

/-! ### Contexts and cores -/

/-- A core's contexts are keyed by a number of their own; the record of a key that names none is vacant. -/
def State.ctx (s : State) (k : Nat) : Ctx := tabGetD s.ctxs k Ctx.vacant
def State.setCtx (s : State) (k : Nat) (c : Ctx) : State := { s with ctxs := tabSet s.ctxs k c }
/-- The context the present operation acts for. -/
def State.cx (s : State) : Ctx := s.ctx s.cur
def State.setCx (s : State) (c : Ctx) : State := s.setCtx s.cur c
def State.modCx (s : State) (f : Ctx → Ctx) : State := s.setCx (f s.cx)
def State.modCtx (s : State) (k : Nat) (f : Ctx → Ctx) : State := s.setCtx k (f (s.ctx k))

def State.core (s : State) (n : Nat) : Core := tabGetD s.cores n Core.reset
def State.setCore (s : State) (n : Nat) (c : Core) : State := { s with cores := tabSet s.cores n c }
def State.modCore (s : State) (n : Nat) (f : Core → Core) : State := s.setCore n (f (s.core n))

/-- Core of a placed context. -/
def Ctx.coreNum (c : Ctx) : Nat := (c.place.getD (0, 0)).1
def Ctx.hw (c : Ctx) : Nat := (c.place.getD (0, 0)).2

/-- A rank not known (R372): every field zero. -/
def RankRec.blank : RankRec where
  vk := 0
  vf := 0
  job := 0
  nvk := 0
  seed := 0
  root := 0
  wallow := 0
  state := 0
  dlq := 0
  dlqprod := 0
  dlqcons := 0
  dlqovf := 0
  qarea := 0
  park := 0
  plist := 0
  spill := 0
  spillsz := 0
  parkn := 0
  save := 0
  commt := 0
  seq := 0
  failed := false
  queues := []
  parked := []
  reserved := 0
  collNum := []
  shufGen := 0
  shufNum := []
  sheet := []
  spilled := []
  stopped := false

/-- The record of a rank of this device. -/
def State.rankOf (s : State) (r : Nat) : RankRec := tabGetD s.ranks r RankRec.blank
def State.modRank (s : State) (r : Nat) (f : RankRec → RankRec) : State := { s with ranks := tabModify s.ranks r f }

/-- The context that occupies a hardware context of a core: one that has ended leaves it once nothing of it uses its window (R25). -/
def State.ctxAt (s : State) (core hw : Nat) : Option Nat := (s.ctxs.find? fun e => e.2.place == some (core, hw)).map (·.1)

def rankKeyOf (vf vk : Nat) : Nat := vf * 65536 + vk

/-- The rank of a job that lives here under an identifier. -/
def State.jobRank? (s : State) (job vk : Nat) : Option Nat := (s.ranks.find? fun r => r.2.job == job && r.2.vk == vk).map (·.1)

/-- The job of a context. -/
def State.jobOf (s : State) (k : Nat) : Nat := (s.rankOf (s.ctx k).rank).job

/-- Bits [lo + len - 1 : lo] of a word replaced by v. -/
def putBits (x : W64) (lo len v : Nat) : W64 :=
  let m : W64 := BitVec.ofNat 64 ((2 ^ len - 1) * 2 ^ lo)
  (x &&& ~~~m) ||| (BitVec.ofNat 64 (v * 2 ^ lo) &&& m)

/-! ### Fields of sys.status (R13) -/

def Ctx.mode (c : Ctx) : Bool := c.status.getLsbD 0
def Ctx.uh (c : Ctx) : Bool := c.status.getLsbD 1
def Ctx.sresField (c : Ctx) : Nat := bitsOf c.status.toNat 4 3
def Ctx.rposField (c : Ctx) : Nat := bitsOf c.status.toNat 8 7
def Ctx.causeField (c : Ctx) : Nat := bitsOf c.status.toNat 16 8

def statusMode (x : W64) (b : Bool) : W64 := putBits x 0 1 b.toNat
def statusUH (x : W64) (b : Bool) : W64 := putBits x 1 1 b.toNat
/-- SMASK, CAUSE, RPOS and SRES together. -/
def statusTrap (x : W64) (smask cause rpos sres : Nat) : W64 :=
  putBits (putBits (putBits (putBits x 24 8 smask) 16 8 cause) 8 7 rpos) 4 3 sres

def Cause.code : Cause → Nat
  | .illegalBundle => 0x01 | .privilege => 0x02 | .translation => 0x03 | .permission => 0x04
  | .misaligned => 0x05 | .streamFaulted => 0x06 | .matrixSwitch => 0x07 | .formatMismatch => 0x08
  | .windowFull => 0x09 | .selfDependence => 0x0A | .developDepth => 0x0B | .latentFaulted => 0x0C
  | .cutOverrun => 0x0D | .cutViolation => 0x0E | .budgetExceeded => 0x0F | .quota => 0x10
  | .integrity => 0x11 | .async => 0x12 | .collNonfinite => 0x13 | .collAborted => 0x14
  | .decodeFallbackFailed => 0x15 | .software => 0x16 | .preempt => 0x17

/-- The causes marked U in R289. -/
def Cause.isU : Cause → Bool
  | .selfDependence | .developDepth | .latentFaulted | .collNonfinite | .collAborted | .software => true
  | _ => false

/-! ### Registers -/

/-- g0 reads as zero (R10). -/
def Ctx.rg (c : Ctx) (r : GR) : W64 := if r = 0 then 0 else c.g[r.toNat]'r.isLt
/-- A write to g0 is discarded (R10). -/
def Ctx.wg (c : Ctx) (r : GR) (x : W64) : Ctx := if r = 0 then c else { c with g := c.g.set r.toNat x r.isLt }
/-- p0 reads as all ones (R10). -/
def Ctx.rp (c : Ctx) (r : PR) : PReg := if r = 0 then BitVec.allOnes 256 else c.p[r.toNat]'r.isLt
def Ctx.wp (c : Ctx) (r : PR) (x : PReg) : Ctx := if r = 0 then c else { c with p := c.p.set r.toNat x r.isLt }
def Ctx.rv (c : Ctx) (r : VR) : VReg := c.v[r.toNat]'r.isLt
def Ctx.wv (c : Ctx) (r : VR) (x : VReg) : Ctx := { c with v := c.v.set r.toNat x r.isLt }
def Ctx.ra (c : Ctx) (w : AR) : Walker := c.a[w.toNat]'w.isLt
def Ctx.wa (c : Ctx) (w : AR) (x : Walker) : Ctx := { c with a := c.a.set w.toNat x w.isLt }
def Ctx.rx (c : Ctx) (r : XR) : XReg := c.x[r.toNat]'r.isLt
def Ctx.wx (c : Ctx) (r : XR) (x : XReg) : Ctx := { c with x := c.x.set r.toNat x r.isLt }
def Ctx.rq (c : Ctx) (r : QR) : Option SpR := c.q[r.toNat]'r.isLt

/-- A predicate's bits spread over the bits of their byte lanes. -/
def spreadBytes (p : PReg) : VReg :=
  BitVec.ofNat 2048 (packLanes 8 ((List.range 256).map fun j => if p.getLsbD j then 255 else 0))

/-- Bytes of the parts of an access, those of a line after those of the line before. -/
def Acc.bytes (a : Acc) : List Byte := a.parts.flatMap (·.data)

/-- The address of the first byte that a part touches. -/
def Part.firstVa (p : Part) : Nat := p.va + p.en.findIdx id

def Part.isDone (p : Part) : Bool := p.st == .done

/-- Every part has performed. -/
def Acc.performed (a : Acc) : Bool := a.parts.all Part.isDone

/-- A loaded value as SZ extends it (R56). -/
def szExtend (sz : Sz) (x : Nat) : W64 :=
  match sz with
  | .i8 => sext64 8 x
  | .i16 => sext64 16 x
  | .i32 => sext64 32 x
  | .n8 => zext64 8 x
  | .n16 => zext64 16 x
  | .n32 => zext64 32 x
  | .b64 => zext64 64 x

/-- The g register that an outstanding access will write, with the value it brings once performed (R222, R226, R227). -/
def Acc.gDst (a : Acc) : Option (GR × W64) :=
  match a.kind with
  | .load (.g d sz) => some (d, szExtend sz (leNat a.bytes))
  | .amo _ wide _ d => some (d, zext64 (if wide then 64 else 32) (leNat a.bytes))
  | .cas wide _ _ d => some (d, zext64 (if wide then 64 else 32) (leNat a.bytes))
  | _ => none

/-- The address of byte 0 of a VLD: its first part holds the first byte that its predicate enables (R223). -/
def Acc.vBase (a : Acc) (mask : PReg) : Nat :=
  (a.parts.head?.map Part.firstVa).getD 0 - ((List.range 256).find? fun j => mask.getLsbD j).getD 0

/-- A value of a VLD's bytes by their places, from its parts (R223). -/
def Acc.vGather (a : Acc) (base : Nat) (f : Part → List Byte) : VReg :=
  a.parts.foldl (fun x p => x ||| BitVec.ofNat 2048 (leNat (f p) * 2 ^ (8 * (p.va - base)))) 0

/-- The v register that an outstanding access will write, its mask and data (R223). -/
def Acc.vDst (a : Acc) : Option (VR × VReg × VReg) :=
  match a.kind with
  | .load (.v d mask) => some (d, spreadBytes mask, a.vGather (a.vBase mask) (·.data))
  | _ => none

/-- The bits of a VLD's destination whose bytes have not performed (R206). -/
def Acc.vMissing (a : Acc) : VReg :=
  match a.kind with
  | .load (.v _ mask) =>
    spreadBytes mask &&& a.vGather (a.vBase mask) fun p => p.en.map fun e => if e && !p.isDone then 0xFF else 0
  | _ => 0

/-- Old and new bits mixed. -/
def mixBits {n : Nat} (m old new : BitVec n) : BitVec n := (old &&& ~~~m) ||| (new &&& m)

/-- A g register as a slot reads it: while a load of it has performed and not retired, its old or its new value (R23; Config.raceLanes, log 1). -/
def State.rg (s : State) (r : GR) : W64 :=
  match s.accs.find? fun a => a.ctx == s.cur && a.performed && (a.gDst.map (·.1)) == some r with
  | none => s.cx.rg r
  | some a =>
    match a.gDst with
    | some (_, x) => if r ≠ 0 ∧ (Config.raceLanes s.free (64 * s.issue.slot + r.toNat)).getLsbD 0 then x else s.cx.rg r
    | none => s.cx.rg r

/-- All the bits of each lane of w bits that a choice picks among those with no bit in `miss`. -/
def wholeLanes (w : Nat) (pick miss : VReg) : VReg :=
  BitVec.ofNat 2048 (packLanes w ((List.range (2048 / w)).map fun i =>
    if pick.getLsbD i && laneN w miss.toNat i == 0 then 2 ^ w - 1 else 0))

/-- A v register as a slot that takes lanes of w bits reads it: while a load of it is outstanding, each lane whose bytes have performed holds its old or its new value (R23). -/
def State.rv (s : State) (r : VR) (w : Nat) : VReg :=
  match s.accs.find? fun a => a.ctx == s.cur && (a.vDst.map (·.1)) == some r with
  | none => s.cx.rv r
  | some a =>
    match a.vDst with
    | some (_, m, x) => mixBits (m &&& wholeLanes w (Config.raceLanes s.free (64 * s.issue.slot + 32 + r.toNat)) a.vMissing) (s.cx.rv r) x
    | none => s.cx.rv r

/-! ### Results in flight (R18) -/

/-- A fixed-latency result of the present issue, due `lat` steps later. -/
def State.emit (s : State) (lat : Nat) (e : Eff) : State :=
  s.modCx fun c => { c with inflight := c.inflight ++ [⟨c.step + lat, e⟩] }

def State.emitAll (s : State) (lat : Nat) : List Eff → State
  | [] => s
  | e :: l => (s.emit lat e).emitAll lat l

/-- The active and the shadow plane's physical index (R140). -/
def Matrix.activeIx (m : Matrix) : Fin 2 := if m.act then 1 else 0
def Matrix.shadowIx (m : Matrix) : Fin 2 := if m.act then 0 else 1

def planeIx (b : Bool) : Fin 2 := if b then 1 else 0

/-- Column n of an accumulator row. -/
def accCol (r : AccRow) (n : Nat) : Nat := laneN 32 r.toNat n

/-- Adds a float sum to an accumulator element, rounding once (R129): the exact value S, then F32(ACC) + S, rounded. -/
def beatFloat (z : Bool) (old : Nat) (x : XVal) : Nat :=
  if z then (convert (.float F32) .rne 0 x).1
  else (convert (.float F32) .rne 0 (XVal.add .rne (F32.decode old) x).1).1

/-- Adds an integer sum to an accumulator element: the new bits, and whether it overflowed (R129). -/
def beatInt (z sat : Bool) (old : Nat) (x : Int) : Nat × Bool :=
  let t : Int := if z then 0 else (BitVec.ofNat 32 old).toInt
  let y := t + x
  let ovf := decide (y < -2147483648) || decide (y > 2147483647)
  let r := if sat then (if y < -2147483648 then -2147483648 else if y > 2147483647 then 2147483647 else y) else y
  ((BitVec.ofInt 32 r).toNat, ovf)

/-- A beat landing in its row (R129, R131). -/
def Matrix.landBeat (m : Matrix) (row : Nat) (z : Bool) (sums : BeatSums) (sat : Bool) : Matrix :=
  let i : Fin 128 := ⟨row % 128, Nat.mod_lt _ (by decide)⟩
  let old := m.acc[i].toNat
  match sums with
  | .float l =>
    let cols := l.zipIdx.map fun (x, n) => beatFloat z (laneN 32 old n) x
    { m with acc := m.acc.set i (BitVec.ofNat 4096 (packLanes 32 cols)) }
  | .int l =>
    let r := l.zipIdx.map fun (x, n) => beatInt z sat (laneN 32 old n) x
    { m with acc := m.acc.set i (BitVec.ofNat 4096 (packLanes 32 (r.map (·.1)))), ovf := m.ovf || r.any (·.2) }

def Matrix.zeroRow (m : Matrix) (row : Nat) : Matrix :=
  { m with acc := m.acc.set (row % 128) 0 (Nat.mod_lt _ (by decide)) }

/-- Byte 63 of a scale column is never scale data (R126, R127); the control fields have their own homes in the model. -/
def scaleMask : ScaleCol := BitVec.ofNat 512 (2 ^ 504 - 1)

def Matrix.setCols (m : Matrix) (p : Fin 2) : List (Nat × VReg × VReg) → Matrix
  | [] => m
  | (n, mask, data) :: l =>
    let i : Fin 128 := ⟨n % 128, Nat.mod_lt _ (by decide)⟩
    ({ m with planes := m.planes.set p (m.planes[p].set i (mixBits mask m.planes[p][i] data)) }).setCols p l

def Matrix.setScale (m : Matrix) (p : Fin 2) (n : Nat) (x : ScaleCol) : Matrix :=
  { m with scales := m.scales.set p (m.scales[p].set (n % 128) (x &&& scaleMask) (Nat.mod_lt _ (by decide))) }

/-- MSWAP's effect (R140). -/
def Matrix.swapped (m : Matrix) : Matrix :=
  let r := m.recs[m.activeIx]
  { m with act := !m.act, lcur := 0, scur := 0, recs := m.recs.set m.activeIx (false, r.2) }

/-- The matrix state's change by an effect that lands on it. -/
def Matrix.apply (m : Matrix) : Eff → Matrix
  | .beat row z sums sat => m.landBeat row z sums sat
  | .accZero row => m.zeroRow row
  | .drainZero row => m.zeroRow row
  | .planeCol p cols => m.setCols (planeIx p) cols
  | .scaleCol p n x => m.setScale (planeIx p) n x
  | .swap => m.swapped
  | .sat b => { m with sat := b }
  | .clrOvf => { m with ovf := false }
  | _ => m

/-- Effects that land on the matrix state of the core (R316). -/
def Eff.onMatrix : Eff → Bool
  | .beat .. | .accZero .. | .drainZero .. | .planeCol .. | .scaleCol .. | .swap | .sat .. | .clrOvf => true
  | _ => false

/-- Effects that land before the others of their step: the zero of an MDRAINZ (R135), a clear of OVF (R138), the write of sys.flags (R92). -/
def Eff.first : Eff → Bool
  | .drainZero .. | .clrOvf => true
  | .sys .flags _ => true
  | _ => false

/-- Writes of a system register by SYSWR: the bits R91 gives; reserved bits stay zero. -/
def Ctx.writeSys (c : Ctx) (r : SysReg) (x : W64) : Ctx :=
  match r with
  | .status =>
    let n := x.toNat
    let st := statusTrap (statusUH c.status (n.testBit 1)) (bitsOf n 24 8) (bitsOf n 16 8) (bitsOf n 8 7) (bitsOf n 4 3)
    { c with status := st }
  | .cause => { c with status := putBits c.status 16 8 (x.toNat % 256) }
  | .faddr => { c with faddr := x }
  | .epc => { c with epc := x }
  | .flags => { c with flags := x &&& 0x1F }
  | .ord => { c with ord := x }
  | .msave => { c with msave := x }
  | .rngctrLo => { c with rngctr := (c.rngctr &&& (BitVec.allOnes 128 <<< 64)) ||| x.setWidth 128 }
  | .rngctrHi => { c with rngctr := (c.rngctr &&& (BitVec.allOnes 64).setWidth 128) ||| (x.setWidth 128 <<< 64) }
  | _ => c

/-- The context's change by an effect that lands on it. -/
def Ctx.apply (c : Ctx) : Eff → Ctx
  | .g d x => c.wg d x
  | .v d mask data => c.wv d (mixBits mask (c.rv d) data)
  | .p d x => c.wp d x
  | .x d upper val =>
    let old := c.rx d
    let m : XReg := if upper then BitVec.allOnes 256 <<< 128 else (BitVec.allOnes 128).setWidth 256
    c.wx d (mixBits m old (if upper then val.setWidth 256 <<< 128 else val.setWidth 256))
  | .walkSet w x => c.wa w { c.ra w with value := x }
  | .walkAdd w x => c.wa w { c.ra w with value := (c.ra w).value + x }
  | .walkStep w x => c.wa w { c.ra w with step := x }
  | .walkStride w l x => c.wa w { c.ra w with strides := (c.ra w).strides.setIfInBounds l x }
  | .sys r x => c.writeSys r x
  | .rngctr x => { c with rngctr := x }
  | .flags f => { c with flags := c.flags ||| f.setWidth 64 }
  | .cutcount => { c with cutcount := c.cutcount + 1 }
  | .cflagsClear => { c with cflags := 0 }
  | .window cells => { c with window := c.window.writeCells cells }
  | .emulsion b x => { c with emulsion := c.emulsion.setIfInBounds b x }
  | .spoolDef n sp => { c with spools := tabSet c.spools n sp }
  | .spoolP n a => { c with spools := tabModify c.spools n fun sp => { sp with p := (sp.p + a) % 2 ^ 32 } }
  | .spoolC n a => { c with spools := tabModify c.spools n fun sp => { sp with c := (sp.c + a) % 2 ^ 32 } }
  | .bind q n =>
    let cleared := match n with
      | some sp => c.q.map fun b => if b = some sp then none else b
      | none => c.q
    { c with q := cleared.set q.toNat n q.isLt }
  | _ => c

/-- Whether a landing writes the whole of a block, which makes it sound (R398). -/
def Eff.covers (e : Eff) (u : Spoilt) : Bool :=
  match e, u with
  | .g d _, .g r => d.toNat == r
  | .p d _, .p r => d.toNat == r
  | .walkSet w _, .a r => w.toNat == r
  | .bind b _, .q r => b.toNat == r
  | .v d mask _, .v r q => d.toNat == r && (mask.toNat / 2 ^ (512 * q) % 2 ^ 512 == 2 ^ 512 - 1)
  | .window cells, .row r q => (List.range 64).all fun i => cells.any fun c => c.1 == 256 * r + 64 * q + i
  | _, _ => false

def Ctx.heal (c : Ctx) (e : Eff) : Ctx := { c with bad := c.bad.filter fun u => !e.covers u, corr := c.corr.filter fun u => !e.covers u }

/-- One effect lands (R18, R43, R90, R131). -/
def State.applyEff (s : State) (e : Eff) : State :=
  if e.onMatrix then s.modCore s.cx.coreNum fun k => { k with mat := k.mat.apply e, mdirty := true }
  else match e with
    | .mownerWrite x hw =>
      s.modCore s.cx.coreNum fun k => { k with mowner := x.setWidth 16, mhwc := BitVec.ofNat 2 hw, mdirty := false }
    | e => s.setCx ((s.cx.apply e).heal e)

def State.applyEffs (s : State) : List Eff → State
  | [] => s
  | e :: l => (s.applyEff e).applyEffs l

/-- Whether the present context owns the matrix state (R11, R313). -/
def State.ownsMatrix (s : State) : Bool :=
  let k := s.core s.cx.coreNum
  k.mowner != 0xFFFF && k.mhwc.toNat == s.cx.hw

/-- A result that lands on the matrix state waits until its context owns it (R316). -/
def State.mayLand (s : State) (e : Eff) : Bool := !e.onMatrix || s.ownsMatrix

/-- Every result due by the context's step lands, in issue order behind those that come first (R18, R92, R135, R138). -/
def State.landDue (s : State) : State :=
  let c := s.cx
  let due (l : Landing) : Bool := decide (l.due ≤ c.step) && s.mayLand l.eff
  let now := (c.inflight.filter due).map (·.eff)
  let s := s.setCx { c with inflight := c.inflight.filter fun l => !due l }
  s.applyEffs (now.filter Eff.first ++ now.filter fun e => !e.first)

/-- Lands everything in flight in the order of due steps (R295): the steps up to the last due one pass. -/
def State.landAll : Nat → State → State
  | 0, s => s
  | n + 1, s => if s.cx.inflight.isEmpty then s else State.landAll n ((s.modCx fun c => { c with step := c.step + 1 }).landDue)

/-! ### Taking an exception (R290, R291) -/

def Ctx.saveSet (c : Ctx) (trapRegs : Option (W64 × W64 × W64)) : SaveSet :=
  ⟨c.sticky, c.loops, c.loopbuf, c.inflight, c.step, c.arming, c.held, c.strides, trapRegs⟩

/-- What a trap sets aside is no longer in effect; the handler's own step count starts (R290, R295). -/
def Ctx.cleared (c : Ctx) : Ctx :=
  { c with sticky := Sticky.none, loops := [], loopbuf := [], inflight := [], arming := none, strides := none, held := [], step := 0, rpos := 0, sres := 0 }

/-- The trap registers as the trap records them (R290, R293). -/
def Ctx.record (c : Ctx) (cause : Cause) (addr : W64) (smask rpos sres : Nat) : Ctx :=
  { c with status := statusTrap c.status smask cause.code rpos sres, faddr := addr, epc := BitVec.ofNat 64 c.pc }

/-- Enters the U-mode handler, saving into the U set. -/
def Ctx.enterU (c0 c : Ctx) : Ctx :=
  { c.cleared with saveU := some (c0.saveSet none), status := statusUH c.status true, pc := c.kernel.code + c.kernel.handler }

/-- Enters the S-mode firmware handler with its task, saving into the S set; from the U handler it saves the trap registers too (R291). -/
def Ctx.enterS (c0 c : Ctx) (task : FwTask) : Ctx :=
  { c.cleared with
    saveS := some (c0.saveSet (if c0.uh then some (c0.status, c0.faddr, c0.epc) else none))
    status := statusMode c.status true, pc := Config.firmwareEntry.toNat, fw := some task }

/-- A trap entry of a context (R290, R291). In S mode the cause is recorded and the context is to be terminated; a U cause goes to the kernel's handler when it has one and is not in it. -/
def Ctx.trapped (c : Ctx) (cause : Cause) (addr : W64) (smask rpos sres : Nat) (task : FwTask) : Ctx :=
  let r := c.record cause addr smask rpos sres
  let detail := match task with | .terminate d => d | _ => 0
  if c.mode then { r with fw := some (.terminate detail) }
  else if cause.isU ∧ c.uh then c.enterS r (.terminate detail)
  else if cause.isU ∧ c.kernel.handler ≠ 0 then c.enterU r
  else c.enterS r task

/-- The trap entry of the present context; `smask`, RPOS and SRES as R77 and R293 give them for the place the trap is taken at. -/
def State.takeTrap (s : State) (cause : Cause) (addr : W64) (smask rpos sres : Nat) (task : FwTask) : State :=
  let s := s.setCx (s.cx.trapped cause addr smask rpos sres task)
  { s with issue := { s.issue with trapped := true } }

/-- A trap at a boundary or at an issue that commits nothing keeps the resumption point of the issue about to be made (R292, R293). -/
def State.boundaryTrap (s : State) (cause : Cause) (addr : W64) (task : FwTask) : State :=
  s.takeTrap cause addr 0 s.cx.rpos s.cx.sres task

/-- A trap at the slot now acting (R293). -/
def State.slotTrap (s : State) (cause : Cause) (addr : W64) (task : FwTask) : State :=
  s.takeTrap cause addr 0 s.cx.rpos s.issue.slot task

/-- A slot fault whose firmware action is to terminate the context. -/
def State.slotFault (s : State) (cause : Cause) (addr : W64) : State := s.slotTrap cause addr (.terminate 0)

/-! ### Returning from one (R104, R295) -/

/-- Restores what a save set holds. -/
def Ctx.restored (c : Ctx) (v : SaveSet) : Ctx :=
  { c with sticky := v.sticky, loops := v.loops, loopbuf := v.loopbuf, inflight := v.inflight, step := v.step, arming := v.arming, held := v.held, strides := v.strides }

/-- TRET once the handler's own results have landed: the save set of its level comes back, and the held bundle at sys.epc is resumed at RPOS and SRES. -/
def Ctx.tretFrom (c : Ctx) : Ctx :=
  let resumed (c : Ctx) : Ctx := { c with pc := c.epc.toNat, rpos := c.rposField, sres := c.sresField }
  if c.mode then
    match c.saveS with
    | none => { resumed c with status := statusMode c.status false, fw := none }
    | some v =>
      let d := (resumed c).restored v
      let d := match v.trapRegs with
        | some (st, fa, ep) => { d with status := statusUH st (c.status.getLsbD 1), faddr := fa, epc := ep }
        | none => d
      { d with saveS := none, status := statusMode d.status false, fw := none }
  else
    match c.saveU with
    | none => { resumed c with status := statusUH c.status false }
    | some v => { (resumed c).restored v with saveU := none, status := statusUH c.status false }

/-- The return from a handler (R295): its results in flight land in the order of their steps, those onto a matrix state it does not own staying pending, then its level's state is restored; what is due at its step then lands before its issue (R316). -/
def State.doTret (s : State) : State :=
  let s := State.landAll 64 s
  let left := s.cx.inflight
  let s := s.modCx fun c => Ctx.tretFrom { c with inflight := [] }
  let s := s.modCx fun c => { c with inflight := left.map (fun l => { l with due := c.step }) ++ c.inflight }
  (s.modCx fun c => { c with mwait := c.inflight.any fun l => l.eff.onMatrix }).landDue

/-! ### Counters (R21) -/

def Ctx.counter (c : Ctx) : Cls → Counter
  | .none => []
  | .ld => c.ld
  | .st => c.st
  | .cp => c.cp
  | .tl => c.tl

def Ctx.setCounter (c : Ctx) (k : Cls) (v : Counter) : Ctx :=
  match k with
  | .none => c
  | .ld => { c with ld := v }
  | .st => { c with st := v }
  | .cp => { c with cp := v }
  | .tl => { c with tl := v }

/-- An operation of a class issues. -/
def Ctx.countUp (c : Ctx) (k : Cls) (id : Nat) : Ctx := c.setCounter k (c.counter k ++ [(id, false)])

/-- An operation has retired; retirement is counted in issue order (R21). -/
def Ctx.countDown (c : Ctx) (k : Cls) (id : Nat) : Ctx :=
  c.setCounter k (((c.counter k).map fun e => if e.1 = id then (id, true) else e).dropWhile (·.2))

/-- A fresh identity. -/
def State.takeId (s : State) : Nat × State := (s.nextId, { s with nextId := s.nextId + 1 })

/-- A fresh number for the free values (log 1). -/
def State.draw (s : State) : Nat × State := (s.free, { s with free := s.free + 1 })

end Sys2Proof.Machine
end

