-- ==== Sys2Proof/Machine/Flags.lean ====
section
/-! DEFINITION. Machine/Flags.lean: flags raised by operations and when they reach sys.flags (R14, R43, R92). -/

namespace Sys2Proof.Machine

/-- The flags of an operation reach sys.flags at the step its result lands (R43); none raised, nothing lands. -/
def State.emitFlags (s : State) (lat : Nat) (f : FlagSet) : State := if f = 0 then s else s.emit lat (.flags f)

/-- Flags of several lanes together. -/
def orFlags (l : List FlagSet) : FlagSet := l.foldl (· ||| ·) 0

end Sys2Proof.Machine
end

