-- ==== Sys2Proof/Machine/Operands.lean ====
section
/-! DEFINITION. Machine/Operands.lean: operand forms (R15, R18, R60, R68, R79, R218), stream operands (R20, R108, R277), and what each operation counts against the limits of R76 and the counters of R21. -/

namespace Sys2Proof.Machine

/-! ### Addresses -/

/-- A of R218: the value of GA plus the offset, modulo 2^64; `w` is the width of OFF. -/
def State.address (s : State) (a : GR) (w : Nat) (x : Ext) (off : Nat) : W64 := s.rg a + immediate w x off

/-- A walker's value at issue (R68). -/
def State.walker (s : State) (w : AR) : W32 := (s.cx.ra w).value

/-- A step mark: the value becomes value + issue step at the next step (R68). -/
def State.mark (s : State) (w : AR) (m : Bool) : State :=
  if m then s.emit 1 (.walkAdd w (s.cx.ra w).step) else s

/-- Rows of the window (R15). -/
def Ctx.rows (c : Ctx) : Nat := 256 * c.kernel.banks

/-- The row that a walker names, when it lies in the window (R15). -/
def State.row? (s : State) (w : AR) : Option Nat :=
  let r := (s.walker w).toNat / 256
  if r < s.cx.rows then some r else none

/-- The 256 bytes of a window row. -/
def Ctx.readRow (c : Ctx) (r : Nat) : VReg := BitVec.ofNat 2048 (c.window.readLE (256 * r) 256)

/-- Bytes of a row written under a byte mask, as cells of the window. -/
def rowCells (r : Nat) (mask : PReg) (data : VReg) : List (Nat × Byte) :=
  ((List.range 256).filter fun j => mask.getLsbD j).map fun j => (256 * r + j, BitVec.ofNat 8 (data.toNat / 2 ^ (8 * j)))

/-- A list of bytes as cells from an address on. -/
def cellsAt (a : Nat) (l : List Byte) : List (Nat × Byte) := l.zipIdx.map fun (b, i) => (a + i, b)

/-! ### Emulsion registers (R16) -/

def emFmt (x : W32) : Fmt := (Fmt.ofCode (bitsOf x.toNat 0 5)).getD .raw
def emGrp (x : W32) : Nat := bitsOf x.toNat 5 2
def emSide (x : W32) : Nat := bitsOf x.toNat 8 8

/-- A value an emulsion register takes (R16). -/
def emOk (x : W32) : Bool :=
  match Fmt.ofCode (bitsOf x.toNat 0 5) with
  | none => false
  | some f => !(f.isAq && emGrp x == 3) && bitsOf x.toNat 7 1 == 0 && bitsOf x.toNat 16 16 == 0

/-- Emulsion register of the bank that holds a row. -/
def Ctx.emOfRow (c : Ctx) (r : Nat) : W32 := c.emulsion.toList.getD (r / 256) 0

/-- A data row of a block-scaled bank lies below row 240 of its bank (R35). -/
def dataRowOk (f : Fmt) (r : Nat) : Bool := !f.isBlock || decide (r % 256 < 240)

/-- The 16-byte scale slot of a data row (R35), as a number. -/
def Ctx.scaleSlot (c : Ctx) (r : Nat) : Nat := c.window.readLE (65536 * (r / 256) + 61440 + 16 * (r % 256)) 16

/-! ### Stream registers (R20, R276, R277) -/

/-- The spool a stream register is bound to, when it is defined. -/
def Ctx.spoolOf (c : Ctx) (q : QR) : Option (Nat × Spool) :=
  match c.rq q with
  | none => none
  | some n => (tabGet c.spools n.toNat).map fun sp => (n.toNat, sp)

/-- Rows that have arrived (R274). -/
def Spool.held (sp : Spool) : Nat := (sp.p + 2 ^ 32 - sp.c) % 2 ^ 32
/-- Rows of room (R277). -/
def Spool.room (sp : Spool) : Nat := sp.size - sp.held
/-- The window row of a pointer value. -/
def Spool.rowAt (sp : Spool) (p : Nat) : Nat := sp.base + p % sp.size

/-- Whether a pointer value lies in the element that carries the fault mark (R273). -/
def Spool.marked (sp : Spool) (p : Nat) : Bool :=
  match sp.mark with
  | some (m, _) => decide ((p + 2 ^ 32 - m) % 2 ^ 32 < sp.elem)
  | none => false

/-- A block-scaled spool lies in data rows only (R263). -/
def Ctx.spoolRowsOk (c : Ctx) (sp : Spool) : Bool :=
  !(emFmt (c.emOfRow sp.base)).isBlock || decide (sp.base % 256 + sp.size ≤ 240)

/-- The fault of a stream read, if it faults: an unbound or undefined register (R108, R276), the faulted element of a spool (R273, R302), a block-scaled spool outside the data rows (R263). -/
def State.streamFault? (s : State) (q : QR) : Option State :=
  match s.cx.spoolOf q with
  | none => some (s.slotFault .streamFaulted 0)
  | some (n, sp) =>
    if !s.cx.spoolRowsOk sp then some (s.slotFault .formatMismatch 0)
    else if sp.held = 0 ∧ sp.marked sp.c then
      some (s.slotTrap .streamFaulted (BitVec.ofNat 64 (256 * sp.rowAt ((sp.mark.map (·.1)).getD 0))) (.stream s.cur n sp.c))
    else none

/-- Whether the next element has not arrived, so that the bundle does not issue (R20). -/
def Ctx.streamEmpty (c : Ctx) (q : QR) : Bool :=
  match c.spoolOf q with
  | none => false
  | some (_, sp) => sp.held == 0 && !sp.marked sp.c && c.spoolRowsOk sp

/-- The window row a stream read takes. -/
def Ctx.streamRow (c : Ctx) (q : QR) : Nat :=
  match c.spoolOf q with
  | none => 0
  | some (_, sp) => sp.rowAt sp.c

/-- C advances at the read's issue, which frees the row (R277). -/
def State.streamTake (s : State) (q : QR) : State :=
  match s.cx.spoolOf q with
  | none => s
  | some (n, sp) => s.modCx fun c => { c with spools := tabSet c.spools n { sp with c := (sp.c + 1) % 2 ^ 32 } }

def vextQA (x : Option VExt) : Bool := (x.map (·.qa)).getD false
def vextQB (x : Option VExt) : Bool := (x.map (·.qb)).getD false

/-- Stream registers that the VA and VB positions name. -/
def vecStreams (x : Option VExt) (a b : VR) : List QR :=
  (if vextQA x then [a.setWidth 3] else []) ++ (if vextQB x then [b.setWidth 3] else [])

/-- A vector source operand of lanes of w bits: a v register (R23), or the row at the head of a stream (R108). -/
def State.vsrc (s : State) (stream : Bool) (r : VR) (w : Nat) : VReg :=
  if stream then s.cx.readRow (s.cx.streamRow (r.setWidth 3)) else s.rv r w

/-- The first fault among the stream operands. -/
def State.streamsFault? (s : State) (l : List QR) : Option State := l.findSome? s.streamFault?

def State.streamsTake (s : State) : List QR → State
  | [] => s
  | q :: l => (s.streamTake q).streamsTake l

/-- A slot operation with stream operands: their faults first, nothing where an element has not arrived (the bundle is held before it issues, R20), else the operation, which consumes an element of each. -/
def State.withStreams (s : State) (l : List QR) (k : State → State) : State :=
  match s.streamsFault? l with
  | some t => t
  | none => if l.any s.cx.streamEmpty then s else (k s).streamsTake l

/-! ### Counters (R21, R221, R256, R132) -/

/-- The counter an operation counts on. -/
def classOf : Instr → Cls
  | .ld .. | .vld .. | .lda .. | .mstload .. => .ld
  | .st .. | .vst .. | .stl .. | .amow .. | .expose .. | .qpost .. | .mstsave .. => .st
  | .amo d .. => if d = 0 then .st else .ld
  | .cas d .. => if d = 0 then .st else .ld
  | .wclose .. | .mdrainw .. | .cpw .. | .xcoll .. | .xshuf .. => .tl
  | .cpLd .. | .cpSt .. | .cpMv .. | .cpm .. | .cpg .. | .cps .. | .cpfScratch .. | .cpfGlobal .. | .xfmt .. => .cp
  | _ => .none

/-! ### The limits of R76 -/

/-- Write targets that are not g, v or p registers. -/
inductive Target where
  | x (r : XR)
  | sys (r : SysReg)
  | wval (w : AR)
  | wstep (w : AR)
  | wstride (w : AR) (l : Nat)
  | bind (q : QR)
  deriving DecidableEq, Repr

/-- What one operation counts: g registers read and written, v registers read (their number and, for the interlocks, which) and written, p registers written, rows read and written, stream registers read, other writes. -/
structure Uses where
  g : List GR := []
  gd : List GR := []
  v : Nat := 0
  vs : List VR := []
  vd : List VR := []
  pd : List PR := []
  rowReads : Nat := 0
  rowWrites : Nat := 0
  q : List QR := []
  other : List Target := []
  deriving DecidableEq, Repr

def markOf (w : AR) (m : Bool) : List Target := if m then [.wval w] else []
def shadowReads : Option Shadow → Nat
  | none => 0
  | some _ => 1
def shadowMark : Option Shadow → List Target
  | none => []
  | some h => markOf h.w h.mark
def sideMark : CopySide → List Target
  | .walker w m => markOf w m
  | .spool _ => []

/-- Vector sources: those in the VA position (true) and the VB position. -/
def vecUses (x : Option VExt) (l : List (Bool × VR)) : Uses :=
  let st (e : Bool × VR) : Bool := if e.1 then vextQA x else vextQB x
  let regs := (l.filter fun e => !st e).map (·.2)
  { v := regs.length, vs := regs, q := (l.filter st).map fun e => e.2.setWidth 3 }

def Uses.withV (u : Uses) (d : List VR) : Uses := { u with vd := d }
/-- VD read at issue and written (R109). -/
def Uses.withDest (u : Uses) (d : VR) : Uses := { u with v := u.v + 1, vs := d :: u.vs, vd := [d] }

/-- Rows an MDRAINS writes: two into a RAW or F32 bank (R136). A destination outside the window has no format; the row writes it counts (R76) are those of RAW (DESIGN CHOICE, log 83). -/
def drainRows (c : Ctx) (w : AR) : Nat :=
  match emFmt (c.emOfRow ((c.ra w).value.toNat / 256)) with
  | .raw | .f32 => 2
  | _ => 1

/-- What an operation counts in the table of R76. -/
def usesOf (c : Ctx) : Instr → Uses
  | .add d a b => { g := [a, b], gd := [d] }
  | .sub d a b => { g := [a, b], gd := [d] }
  | .mul d a b => { g := [a, b], gd := [d] }
  | .mulh d a b => { g := [a, b], gd := [d] }
  | .mulhn d a b => { g := [a, b], gd := [d] }
  | .div d a b => { g := [a, b], gd := [d] }
  | .divn d a b => { g := [a, b], gd := [d] }
  | .rem d a b => { g := [a, b], gd := [d] }
  | .remn d a b => { g := [a, b], gd := [d] }
  | .and d a b => { g := [a, b], gd := [d] }
  | .or d a b => { g := [a, b], gd := [d] }
  | .xor d a b => { g := [a, b], gd := [d] }
  | .andn d a b => { g := [a, b], gd := [d] }
  | .shl d a b => { g := [a, b], gd := [d] }
  | .shr d a b => { g := [a, b], gd := [d] }
  | .sar d a b => { g := [a, b], gd := [d] }
  | .rol d a b => { g := [a, b], gd := [d] }
  | .min d a b => { g := [a, b], gd := [d] }
  | .max d a b => { g := [a, b], gd := [d] }
  | .minn d a b => { g := [a, b], gd := [d] }
  | .maxn d a b => { g := [a, b], gd := [d] }
  | .seq d a b => { g := [a, b], gd := [d] }
  | .sne d a b => { g := [a, b], gd := [d] }
  | .slt d a b => { g := [a, b], gd := [d] }
  | .sltn d a b => { g := [a, b], gd := [d] }
  | .sle d a b => { g := [a, b], gd := [d] }
  | .slen d a b => { g := [a, b], gd := [d] }
  | .clz d a => { g := [a], gd := [d] }
  | .ctz d a => { g := [a], gd := [d] }
  | .popc d a => { g := [a], gd := [d] }
  | .brev d a => { g := [a], gd := [d] }
  | .addi _ d a _ => { g := [a], gd := [d] }
  | .andi _ d a _ => { g := [a], gd := [d] }
  | .ori _ d a _ => { g := [a], gd := [d] }
  | .xori _ d a _ => { g := [a], gd := [d] }
  | .slti _ d a _ => { g := [a], gd := [d] }
  | .lih _ d a _ => { g := [a], gd := [d] }
  | .shli d a _ => { g := [a], gd := [d] }
  | .shri d a _ => { g := [a], gd := [d] }
  | .sari d a _ => { g := [a], gd := [d] }
  | .li _ d _ => { gd := [d] }
  | .bfx d a _ _ => { g := [a], gd := [d] }
  | .bfxn d a _ _ => { g := [a], gd := [d] }
  | .bfi d a _ _ => { g := [a, d], gd := [d] }
  | .sext d a _ => { g := [a], gd := [d] }
  | .zext d a _ => { g := [a], gd := [d] }
  | .sel d a b c => { g := [a, b, c], gd := [d] }
  | .mova d _ => { gd := [d] }
  | .wset _ g w _ => { g := [g], other := [.wval w] }
  | .wstep _ g w _ => { g := [g], other := [.wstep w] }
  | .wstride _ g w l _ => { g := [g], other := [.wstride w l.toNat] }
  | .sysrd d _ => { gd := [d] }
  | .syswr g r => { g := [g], other := [.sys (if r = .cause then .status else r)] }
  | .beq _ a b _ => { g := [a, b] }
  | .bne _ a b _ => { g := [a, b] }
  | .blt _ a b _ => { g := [a, b] }
  | .bge _ a b _ => { g := [a, b] }
  | .bltn _ a b _ => { g := [a, b] }
  | .bgen _ a b _ => { g := [a, b] }
  | .jmpg a => { g := [a] }
  | .loop _ _ _ r n => { g := if r then [n.setWidth 5] else [] }
  | .gjoin a _ => { g := [a] }
  | .gleave a _ => { g := [a] }
  | .gbar a _ => { g := [a] }
  | .gcnt d a _ => { g := [a], gd := [d] }
  | .pref _ a _ => { g := [a] }
  | .ordset _ => { other := [.sys .ord] }
  | .ld _ d a _ _ => { g := [a], gd := [d] }
  | .st _ g a _ _ => { g := [g, a] }
  | .vld _ v a _ _ => { g := [a], vd := [v] }
  | .vst _ v a _ _ => { g := [a], v := 1, vs := [v] }
  | .vlds v w m _ => { rowReads := 1, vd := [v], other := markOf w m }
  | .vsts v w m _ => { rowWrites := 1, v := 1, vs := [v], other := markOf w m }
  | .spld d w m _ => { rowReads := 1, gd := [d], other := markOf w m }
  | .spst g w m _ => { rowWrites := 1, g := [g], other := markOf w m }
  | .lda _ d a _ _ _ => { g := [a], gd := [d] }
  | .stl _ g a _ _ _ => { g := [g, a] }
  | .amo d a b _ _ _ _ => { g := [a, b], gd := [d] }
  | .cas d a b c _ _ _ => { g := [a, b, c], gd := [d] }
  | .amow a b => { g := [a, b] }
  | .wopen a b => { g := [a, b] }
  | .wclose a => { g := [a] }
  | .waitm d a b _ => { g := [a, b], gd := [d] }
  | .prefd _ a _ _ => { g := [a] }
  | .expose a b => { g := [a, b] }
  | .fix a b => { g := [a, b] }
  | .ldrec d a b => { g := [a, b], gd := [d] }
  | .clean _ n a _ => { g := [n, a] }
  | .vadd x d a b _ _ _ => (vecUses x [(true, a), (false, b)]).withV [d]
  | .vsub x d a b _ _ _ => (vecUses x [(true, a), (false, b)]).withV [d]
  | .vmul x d a b _ _ _ => (vecUses x [(true, a), (false, b)]).withV [d]
  | .vmin x d a b _ _ => (vecUses x [(true, a), (false, b)]).withV [d]
  | .vmax x d a b _ _ => (vecUses x [(true, a), (false, b)]).withV [d]
  | .vadds x d a b _ _ => (vecUses x [(true, a), (false, b)]).withV [d]
  | .vsubs x d a b _ _ => (vecUses x [(true, a), (false, b)]).withV [d]
  | .vand x d a b _ _ => (vecUses x [(true, a), (false, b)]).withV [d]
  | .vor x d a b _ _ => (vecUses x [(true, a), (false, b)]).withV [d]
  | .vxor x d a b _ _ => (vecUses x [(true, a), (false, b)]).withV [d]
  | .vshl x d a b _ _ => (vecUses x [(true, a), (false, b)]).withV [d]
  | .vshr x d a b _ _ => (vecUses x [(true, a), (false, b)]).withV [d]
  | .vsar x d a b _ _ => (vecUses x [(true, a), (false, b)]).withV [d]
  | .vdiv x d a b _ _ _ => (vecUses x [(true, a), (false, b)]).withV [d]
  | .vsel x d a b _ _ => (vecUses x [(true, a), (false, b)]).withV [d]
  | .vgath x d a b _ _ => (vecUses x [(true, a), (false, b)]).withV [d]
  | .vscat x d a b _ _ => (vecUses x [(true, a), (false, b)]).withV [d]
  | .vperm x d a b _ _ => (vecUses x [(true, a), (false, b)]).withV [d]
  | .vzip x d a b _ _ => (vecUses x [(true, a), (false, b)]).withV [d]
  | .vunzip x d a b _ _ => (vecUses x [(true, a), (false, b)]).withV [d]
  | .vfma x d a b _ _ _ => (vecUses x [(true, a), (false, b)]).withDest d
  | .vclamp x d a b _ _ => (vecUses x [(true, a), (false, b)]).withDest d
  | .vabs x d a _ _ => (vecUses x [(true, a)]).withV [d]
  | .vneg x d a _ _ => (vecUses x [(true, a)]).withV [d]
  | .vsqrt x d a _ _ _ => (vecUses x [(true, a)]).withV [d]
  | .vrcp x d a _ _ _ => (vecUses x [(true, a)]).withV [d]
  | .vrsq x d a _ _ _ => (vecUses x [(true, a)]).withV [d]
  | .vexp x d a _ _ _ => (vecUses x [(true, a)]).withV [d]
  | .vexp2 x d a _ _ _ => (vecUses x [(true, a)]).withV [d]
  | .vlog2 x d a _ _ _ => (vecUses x [(true, a)]).withV [d]
  | .vtanh x d a _ _ _ => (vecUses x [(true, a)]).withV [d]
  | .vrint x d a _ _ _ => (vecUses x [(true, a)]).withV [d]
  | .vmov x d a _ _ => (vecUses x [(true, a)]).withV [d]
  | .vcmp x pd a b _ _ _ => { vecUses x [(true, a), (false, b)] with pd := [pd] }
  | .vcvt x d a f t _ toTy =>
    let k := cvtRegs f t toTy
    let regs := (List.range k).map fun i => a + BitVec.ofNat 5 i
    let scale := if f.isBlock && toTy then [a + BitVec.ofNat 5 k] else []
    let u := if vextQA x then { vecUses x [(true, a)] with vs := scale } else { v := k, vs := regs ++ scale }
    u.withV (if f.isBlock && !toTy then [d, d + 1] else [d])
  | .vred x d a _ _ _ _ => (vecUses x [(true, a)]).withV [d]
  | .vscan x d a _ _ _ _ => (vecUses x [(true, a)]).withV [d]
  | .vpart _ d g _ _ => { vd := [d, d + 1], gd := [g, g + 1] }
  | .vbcast _ d g _ _ => { g := [g], vd := [d] }
  | .vext x d a g _ => { vecUses x [(true, a)] with g := [g], gd := [d] }
  | .vins _ d a g _ => { g := [a, g], vd := [d] }
  | .viota _ d g _ _ => { g := [g], vd := [d] }
  | .vrand _ d _ _ => { vd := [d] }
  | .plog d _ _ _ => { pd := [d] }
  | .pcnt _ _ g => { gd := [g] }
  | .mpush a am w sm qs h =>
    { rowReads := (if qs then 0 else 1) + shadowReads h, q := if qs then [w.setWidth 3] else [], other := markOf a am ++ markOf w (sm && !qs) ++ shadowMark h }
  | .mpushz a am w sm qs h =>
    { rowReads := (if qs then 0 else 1) + shadowReads h, q := if qs then [w.setWidth 3] else [], other := markOf a am ++ markOf w (sm && !qs) ++ shadowMark h }
  | .mdrain a am d h => { vd := [d, d + 1], rowReads := shadowReads h, other := markOf a am ++ shadowMark h }
  | .mdrainz a am d h => { vd := [d, d + 1], rowReads := shadowReads h, other := markOf a am ++ shadowMark h }
  | .mdrains a am w sm h =>
    { rowWrites := drainRows c w, rowReads := shadowReads h, other := markOf a am ++ markOf w sm ++ shadowMark h }
  | .mdrainw a am g h => { g := [g], rowReads := shadowReads h, other := markOf a am ++ shadowMark h }
  | .mzero a am h => { rowReads := shadowReads h, other := markOf a am ++ shadowMark h }
  | .mmodeWrap h => { rowReads := shadowReads h, other := shadowMark h }
  | .mmodeSat h => { rowReads := shadowReads h, other := shadowMark h }
  | .mmodeClrovf h => { rowReads := shadowReads h, other := shadowMark h }
  | .mstsave a h => { g := [a], rowReads := shadowReads h, other := shadowMark h }
  | .mstload a h => { g := [a], rowReads := shadowReads h, other := shadowMark h }
  | .mlds w m => { rowReads := 1, other := markOf w m }
  | .mldst w m => { rowReads := 1, other := markOf w m }
  | .mldss w m => { rowReads := 1, other := markOf w m }
  | .cpLd a b _ w _ => { g := [a, b], other := sideMark w }
  | .cpSt a b _ w _ => { g := [a, b], other := sideMark w }
  | .cpMv b _ w _ => { g := [b], other := sideMark w }
  | .cpm a b _ _ _ => { g := [a, b] }
  | .cpg a b _ w _ => { g := [a, b], other := sideMark w }
  | .cps a b _ w _ => { g := [a, b], other := sideMark w }
  | .cpw a _ w _ => { g := [a], other := sideMark w }
  | .cpfScratch b _ w _ => { g := [b], other := sideMark w }
  | .cpfGlobal a b _ _ => { g := [a, b] }
  | .xshape a b x _ => { g := [a, b], other := [.x x] }
  | .spdef a _ _ _ => { g := [a] }
  | .sbind q _ => { other := [.bind q] }
  | .sbindNone q => { other := [.bind q] }
  | .spadvP a _ => { g := [a] }
  | .spadvC a _ => { g := [a] }
  | .xfmt a b => { g := [a, b] }
  | .qpost a _ => { g := [a] }
  | .qtake a d _ => { g := [a], gd := [d] }
  | .launch a => { g := [a] }
  | .xcoll a => { g := [a] }
  | .xshuf a => { g := [a] }
  | .xstat d _ _ => { gd := [d] }
  | .rngsetAdd a b => { g := [a, b], other := [.sys .rngctrLo, .sys .rngctrHi] }
  | .rngsetSub a b => { g := [a, b], other := [.sys .rngctrLo, .sys .rngctrHi] }
  | _ => {}

end Sys2Proof.Machine
end

