-- ==== Sys2Proof/Machine/Journal.lean ====
section
/-! DEFINITION. Machine/Journal.lean: the Corrected Error Journal (R399 to R401), what a check of a memory block's envelope comes to (R396 to R398), and the links that send again (R398). -/

namespace Sys2Proof.Machine

/-! ### Lists of numbers with small fields -/

/-- Fields of a little-endian structure: offset and bytes. -/
def fieldLE (l : List Byte) (off n : Nat) : Nat := leNat ((l.drop off).take n)

/-- The little-endian bytes of a list of fields, each a value and a width, placed one after the other. -/
def layout (fields : List (Nat × Nat)) : List Byte := fields.flatMap fun (x, n) => leBytes n x

def State.modHub (s : State) (f : Hub → Hub) : State := { s with hub := f s.hub }

/-! ### The journal (R399, R400) -/

/-- The first 32 bytes of SHAKE256 of a block. -/
def digest32 (l : List Byte) : List Byte := shake256 l 32

/-- The bytes of an entry. -/
def journalBytes (seq kind bits unit loc hcyc : Nat) (prev : List Byte) : List Byte :=
  layout [(seq, 8), (kind, 1), (bits, 1), (unit, 2), (0, 4), (loc, 8), (hcyc, 8)] ++ prev

/-- PREV of the next entry: the digest of the entry before it. -/
def Hub.prevDigest (h : Hub) : List Byte :=
  match h.journal.getLast? with
  | some e => digest32 e
  | none => List.replicate 32 0

/-- A trigger of a seal: it takes the place of one that waits for room in the ring, and of no other (R401, R402). -/
def Hub.trigger (h : Hub) (last : Nat) : Hub :=
  let free := h.sealn.toNat - (h.sealprod - h.sealcons)
  { h with sealwait := (if h.sealwait.length ≤ free then h.sealwait else h.sealwait.dropLast) ++ [last] }

/-- Appends an entry whose PREV is given; after every 256 entries a seal is due (R401). -/
def Hub.append (h : Hub) (kind bits unit loc hcyc : Nat) (prev : List Byte) : Hub :=
  let h1 := { h with
    journal := (h.journal ++ [journalBytes h.jprod kind bits unit loc hcyc prev]).drop (h.journal.length + 1 - 8192), jprod := h.jprod + 1 }
  if h1.jprod % 256 = 0 then h1.trigger (h1.jprod - 1) else h1

/-- Room for an entry. -/
def Hub.room (h : Hub) : Bool := decide (h.jprod - h.jcons < 8192)

/-- The start entry of a boot, the first that it appends (R399). -/
def Hub.startNow (h : Hub) (hcyc : Nat) (prev : List Byte) : Hub := { h.append 0 0 0 h.boot hcyc prev with startdue := false }

/-- PREV of a start entry: SHAKE256 over the identity public key followed by the boot count. -/
def Hub.startPrev (h : Hub) : List Byte := digest32 ((List.range 64).map (fun i => Config.deviceByte 2 i) ++ leBytes 8 h.boot)

/-- Enters a correction, behind the start entry of its boot where that has waited for room and behind an overflow marker when some were lost, or counts it (R399, R400). -/
def Hub.correct (h : Hub) (kind bits unit loc hcyc : Nat) : Hub :=
  let h := if h.startdue ∧ h.room then h.startNow hcyc h.startPrev else h
  if !h.room then { h with jovf := h.jovf + 1, jlost := h.jlost + 1 }
  else
    let h1 := if h.jlost = 0 then h else { h.append 0xFF 0 0 h.jlost hcyc h.prevDigest with jlost := 0 }
    if h1.room then h1.append kind bits unit loc hcyc h1.prevDigest
    else { h1 with jovf := h1.jovf + 1, jlost := h1.jlost + 1 }

/-- A correction found by an instance of a kind of unit (R398): BITS and HCYC as the device finds them (log 1). -/
def State.journal (s : State) (kind unit loc : Nat) : State :=
  let (n, s) := s.draw
  s.modHub fun h => h.correct kind (Config.anyNat n % 256) (unit % 65536) loc (Config.timeStamp n).toNat

/-! ### Blocks of memory (R397, R398) -/

/-- Whether an address lies in HBM (R185). -/
def paHbm (pa : Nat) : Bool := decide (pa < 0x8000000000)

/-- Where a block of 64 bytes lies, as KIND and UNIT of the journal name it: the stack of HBM4E; the LPDDR-6 tier is one (DESIGN CHOICE, log 79). -/
def blockKind (b : Nat) : Nat := if paHbm (64 * b) then 3 else 4
def blockUnit (b : Nat) : Nat := if paHbm (64 * b) then Config.hbmController (b / 2) % 8 else 0

/-- A correctable block is written back sound and journalled. -/
def State.correctBlock (s : State) (b : Nat) : State :=
  if tabGet s.bad b = some true then State.journal { s with bad := tabDel s.bad b } (blockKind b) (blockUnit b) (64 * b) else s

/-- Corrects what can be corrected of some blocks; what one instant finds is entered in the order of KIND and UNIT (R399). -/
def State.correctBlocks (s : State) (l : List Nat) : State :=
  if s.bad.isEmpty then s
  else ((List.range 16).flatMap fun u => l.filter fun b => 8 * (blockKind b - 3) + blockUnit b == u).foldl State.correctBlock s

/-- Whether a block fails its check and cannot be corrected. -/
def State.blockLost (s : State) (b : Nat) : Bool := tabGet s.bad b == some false

/-- A read of blocks: the correctable ones are corrected; an uncorrectable one fails it. -/
def State.checkBlocks (s : State) (l : List Nat) : Option State := if l.any s.blockLost then none else some (s.correctBlocks l)

/-- A context's registers or window rows whose envelope fails and is corrected at their next read: written back sound, and entered for their core (R398). What LOC names for them is not stated: a free value (log 79). -/
def State.correctUnits (s : State) (k : Nat) (hit : Spoilt → Bool) : State :=
  if (s.ctx k).corr.any hit then
    (((s.ctx k).corr.filter hit).foldl (fun t _ => let (n, u) := State.draw t; u.journal 1 (s.ctx k).coreNum (Config.anyNat n)) s).modCtx k
      fun c => { c with corr := c.corr.filter fun u => !hit u }
  else s

/-! ### Links (R398) -/

/-- A transfer over a link whose check fails is sent again, and a correction is entered: KIND, UNIT and lane (R398, R399). -/
def State.useLink (s : State) (kind unit : Nat) : State :=
  match s.flips.find? fun f => f.1 == kind && f.2.1 == unit with
  | none => s
  | some f => State.journal { s with flips := s.flips.filter (· != f) } kind unit f.2.2

end Sys2Proof.Machine
end

