-- ==== Sys2Proof/Machine/Translate.lean ====
section
/-! DEFINITION. Machine/Translate.lean: physical addresses (R185, R337), the four-level walk (R191 to R193), the accessed and dirty bits (R194), the caches of translations (R196 to R199). -/

namespace Sys2Proof.Machine

/-! ### Physical addresses (R185, R337) -/

def paLocal (pa : Nat) : Bool := decide (pa < 0x8000000000) || (decide (0x10000000000 ≤ pa) && decide (pa < 0x30000000000))
def paRemote (pa : Nat) : Bool := pa.testBit 55
/-- A page address that names memory (R185). -/
def paExists (pa : Nat) : Bool := decide (pa < 2 ^ 56) && (paRemote pa || paLocal pa)
/-- Target device and local address of a remote physical address (R337). -/
def paDevice (pa : Nat) : Nat := bitsOf pa 42 13
def paOnDevice (pa : Nat) : Nat := pa % 2 ^ 42

/-- Home slice of a line (R189). -/
def homeSlice (pa : Nat) : Nat := (bitsOf pa 7 7 ^^^ bitsOf pa 14 7) ^^^ ((bitsOf pa 21 1) * 0x40)

/-- Die and cluster of a core (R334). -/
def dieOf (core : Nat) : Nat := core / 64
def clusterOf (core : Nat) : Nat := core / 8

/-! ### The walk (R191 to R193) -/

def pteV (e : Nat) : Bool := e.testBit 0
def pteL (e : Nat) : Bool := e.testBit 1
/-- Bits of a leaf or of its cached copy. -/
def bitRD : Nat := 2
def bitW : Nat := 3
def bitC : Nat := 4
def bitLC : Nat := 5
def bitD : Nat := 6
def bitA : Nat := 7

/-- A valid table entry: reserved and leaf fields zero, NODE in memory of this device. -/
def tableOk (e : Nat) : Bool :=
  pteV e && !pteL e && bitsOf e 2 10 == 0 && bitsOf e 56 8 == 0 && paLocal (bitsOf e 12 44 * 4096)

/-- A valid leaf that maps 2^shift bytes. -/
def leafOk (e shift : Nat) : Bool :=
  pteV e && pteL e && bitsOf e 10 6 == 0 && bitsOf e 56 8 == 0 && bitsOf e 8 2 != 3
    && bitsOf e 16 40 * 65536 % 2 ^ shift == 0 && paExists (bitsOf e 16 40 * 65536)

/-- The levels below a node: index position, index width, whether a leaf is allowed, whether a table entry is. -/
def walkLevelsBelow : List (Nat × Nat × Bool × Bool) :=
  [(43, 5, false, true), (34, 9, true, true), (25, 9, true, true), (16, 9, true, false)]

/-- The walk from a node: the leaf it ends at, or none (R193). -/
def walkFrom (m : Memory) (rank va : Nat) : List (Nat × Nat × Bool × Bool) → Nat → Option TlbEntry
  | [], _ => none
  | (shift, width, leafAllowed, tableAllowed) :: below, node =>
    let at' := node + 8 * bitsOf va shift width
    let e := m.readLE at' 8
    if pteL e then
      if leafAllowed && leafOk e shift then
        some ⟨rank, va / 2 ^ shift * 2 ^ shift, 2 ^ shift, bitsOf e 16 40 * 65536, e % 256, at'⟩
      else none
    else if tableAllowed && tableOk e then walkFrom m rank va below (bitsOf e 12 44 * 4096)
    else none

/-- The physical addresses of the entries that a walk reads. -/
def walkEntries (m : Memory) (va : Nat) : List (Nat × Nat × Bool × Bool) → Nat → List Nat
  | [], _ => []
  | (shift, width, _, tableAllowed) :: below, node =>
    let at' := node + 8 * bitsOf va shift width
    let e := m.readLE at' 8
    at' :: (if !pteL e && tableAllowed && tableOk e then walkEntries m va below (bitsOf e 12 44 * 4096) else [])

/-- The walk of a rank's tables for an address. -/
def State.walk (s : State) (rank va : Nat) : Option TlbEntry :=
  if va < 2 ^ 48 then walkFrom s.mem rank va walkLevelsBelow (s.rankOf rank).root else none

/-- The blocks of memory that a walk reads. -/
def State.walkBlocks (s : State) (rank va : Nat) : List Nat :=
  if va < 2 ^ 48 then (walkEntries s.mem va walkLevelsBelow (s.rankOf rank).root).map (· / 64) else []

/-- Whether a walk meets no entry whose block fails its check beyond correction (R305, R397). -/
def State.walkSound (s : State) (rank va : Nat) : Bool := s.bad.isEmpty || !(s.walkBlocks rank va).any s.blockLost

/-! ### Cached translations (R196, R198) -/

def TlbEntry.covers (e : TlbEntry) (rank va : Nat) : Bool := e.rank == rank && decide (e.va ≤ va) && decide (va < e.va + e.size)
def TlbEntry.paOf (e : TlbEntry) (va : Nat) : Nat := e.pa + (va - e.va)
def TlbEntry.bit (e : TlbEntry) (b : Nat) : Bool := e.bits.testBit b

/-- Puts an entry into a table of a given capacity, giving up any entry when it is full (R196). -/
def tlbPut (l : List TlbEntry) (cap v : Nat) (e : TlbEntry) : List TlbEntry :=
  let l := l.filter fun x => !x.covers e.rank e.va
  e :: (if l.length < cap then l else l.eraseIdx (v % l.length))

def State.tlbInstall (s : State) (core : Nat) (e : TlbEntry) : State :=
  let (n, s) := s.draw
  let (m, s) := s.draw
  let s := s.modCore core fun k => { k with tlb := tlbPut k.tlb 512 (Config.victim n) e }
  { s with tlb2 := tabSet s.tlb2 (dieOf core) (tlbPut (tabGetD s.tlb2 (dieOf core) []) 16384 (Config.victim m) e) }

/-- The translation an access of a core uses: an installed one, else the walk's, which is then installed (R196, R198); none where the walk finds none or reads what fails its check. -/
def State.lookup (s : State) (core rank va : Nat) : Option (TlbEntry × State) :=
  match (s.core core).tlb.find? (fun e => e.covers rank va) with
  | some e => some (e, s)
  | none =>
    match (tabGetD s.tlb2 (dieOf core) []).find? (fun e => e.covers rank va) with
    | some e => some (e, s.tlbInstall core e)
    | none => if s.walkSound rank va then (s.walk rank va).map fun e => (e, (s.correctBlocks (s.walkBlocks rank va)).tlbInstall core e) else none

/-- Whether an access by a cached leaf has to set A, or D, in the entry. -/
def TlbEntry.unmarked (e : TlbEntry) (write : Bool) : Bool := e.bits ||| 2 ^ bitA ||| (if write then 2 ^ bitD else 0) != e.bits

/-- Sets A, and D for a write, in the leaf when the cached copy does not show them set; the leaf's other bits stay as software has left them (R194). -/
def State.markLeaf (s : State) (core : Nat) (e : TlbEntry) (write : Bool) : State :=
  let marks := 2 ^ bitA ||| (if write then 2 ^ bitD else 0)
  let want := e.bits ||| marks
  if want = e.bits then s
  else
    let s := s.correctBlocks [e.entry / 64]
    let upd (l : List TlbEntry) : List TlbEntry := l.map fun x => if x.entry = e.entry ∧ x.rank = e.rank then { x with bits := want } else x
    let s := { s with mem := s.mem.set e.entry (s.mem.get e.entry ||| BitVec.ofNat 8 marks) }
    let s := s.modCore core fun k => { k with tlb := upd k.tlb }
    { s with tlb2 := tabModify s.tlb2 (dieOf core) upd }

/-- What an access needs of a leaf (R193). -/
inductive Need where
  | read | write | fetch
  deriving DecidableEq, Repr

def Need.bit : Need → Nat
  | .read => bitRD
  | .write => bitW
  | .fetch => bitC

def Need.isWrite : Need → Bool
  | .write => true
  | .read | .fetch => false

/-- A failed translation: its cause, and whether a change of the rank's mapping could cure it (R289). -/
structure XFail where
  cause : Cause
  curable : Bool
  deriving DecidableEq, Repr

/-- The answer to a translation: the leaf and the state with its effects, or the failure. -/
inductive XRes where
  | ok (pa : Nat) (leaf : TlbEntry) (s : State)
  | fail (f : XFail)

/-- A page that a rank's leaf names is written: from then on it lies under the key of the rank's virtual function (R325). -/
def State.noteOwner (s : State) (rank : Nat) (e : TlbEntry) : State :=
  let v := (s.rankOf rank).vf
  if paRemote e.pa ∨ s.owned.contains (e.pa, e.size, v) then s
  else { s with owned := (e.pa, e.size, v) :: s.owned.filter fun x => !(x.2.2 != v && decide (x.1 < e.pa + e.size) && decide (e.pa < x.1 + x.2.1)) }

/-- The same for an access that writes, and nothing for another. -/
def State.noteWrite (s : State) (rank : Nat) (e : TlbEntry) (need : Need) : State := if need.isWrite then s.noteOwner rank e else s

/-- An access's translation by the caches of a core (R193, R194, R218): range, walk, permission, A and D. A walk that reads an uncorrectable block, or a mark that would be written into one, fails it with INTEGRITY (R305, R397; DEDUCED, log 80). -/
def State.translate (s : State) (core rank va : Nat) (need : Need) : XRes :=
  if 2 ^ 48 ≤ va then .fail ⟨.translation, false⟩
  else
    match s.lookup core rank va with
    | none => .fail (if s.walkSound rank va then ⟨.translation, true⟩ else ⟨.integrity, false⟩)
    | some (e, s) =>
      if ¬ e.bit need.bit then .fail ⟨.permission, true⟩
      else if e.unmarked need.isWrite && s.blockLost (e.entry / 64) then .fail ⟨.integrity, false⟩
      else .ok (e.paOf va) e ((s.markLeaf core e need.isWrite).noteWrite rank e need)

/-- The translation of an access by the hub, the command processor or the firmware: by the walk itself (DEDUCED, log 7). -/
def State.hubTranslate (s : State) (rank va : Nat) (need : Need) : Option (Nat × State) :=
  match s.walk rank va with
  | none => none
  | some e =>
    if e.bit need.bit && s.walkSound rank va then
      let s := s.correctBlocks (s.walkBlocks rank va)
      some (e.paOf va, State.noteWrite { s with mem := s.mem.set e.entry (s.mem.get e.entry ||| BitVec.ofNat 8 (2 ^ bitA ||| (if need.isWrite then 2 ^ bitD else 0))) } rank e need)
    else none

/-- Why such a translation fails (R193, R305). -/
def State.hubCause (s : State) (rank va : Nat) : Cause :=
  if !s.walkSound rank va then .integrity else if (s.walk rank va).isNone then .translation else .permission

/-- Invalidates a rank's translations of a range in every cache (R198); a page covered in part goes whole. -/
def State.tlbDrop (s : State) (rank va len : Nat) : State :=
  let keep (e : TlbEntry) : Bool := !(e.rank == rank && decide (e.va < va + len) && decide (va < e.va + e.size))
  { s with
    cores := s.cores.map fun e => (e.1, { e.2 with tlb := e.2.tlb.filter keep })
    tlb2 := s.tlb2.map fun e => (e.1, e.2.filter keep) }

/-! ### Ranges of virtual addresses -/

/-- The pieces of a range of bytes that lie in one line each: address and length (R206). -/
def linePieces : Nat → Nat → Nat → List (Nat × Nat)
  | 0, _, _ => []
  | fuel + 1, va, len =>
    if len = 0 then []
    else
      let n := min len (128 - va % 128)
      (va, n) :: linePieces fuel (va + n) (len - n)

/-- A write to guarded bytes ends the guard of every sheet entry that covers one of them (R363). -/
def State.unguard (s : State) (pa n : Nat) : State :=
  let hit (e : SheetEntry) : Bool := e.gen != 0 && e.pieces.any fun q => decide (q.1 < pa + n) && decide (pa < q.1 + q.2)
  if s.ranks.any fun r => r.2.sheet.any hit then
    { s with ranks := s.ranks.map fun r => (r.1, { r.2 with sheet := r.2.sheet.map fun e => if hit e then { e with gen := 0 } else e }) }
  else s

/-- Writes bytes at addresses of memory, one after another. -/
def State.writeBytes (s : State) : List (Nat × Byte) → State
  | [] => s
  | (a, b) :: l => State.writeBytes ({ s with mem := s.mem.set a b }.unguard a 1) l

/-- Whether the word of a watch satisfies it: a cell that is not VALUE does not (R233; DEDUCED, log 9). -/
def State.satisfies (s : State) (w : Watch) : Bool :=
  !((tabGet s.cells (w.pa / 64)).any fun c => c.tag != .value) && decide (w.bound.toNat ≤ s.mem.readLE w.pa 8)

/-- After a write the slice tests the words that it has changed for the WAITMs that wait at it (R233). -/
def State.testWatches (s : State) (l : List (Nat × Byte)) : State :=
  if s.watches.isEmpty then s
  else
    { s with watches := s.watches.map fun w =>
        if w.got.isNone && l.any (fun e => decide (w.pa ≤ e.1) && decide (e.1 < w.pa + 8)) && s.satisfies w then
          { w with got := some (BitVec.ofNat 64 (s.mem.readLE w.pa 8)) }
        else w }

/-- Writes bytes of memory in one instant. -/
def State.writeMem (s : State) (l : List (Nat × Byte)) : State := (s.writeBytes l).testWatches l

/-- Whether some cells of memory cover the whole of a block. -/
def coversWhole (l : List (Nat × Byte)) (b : Nat) : Bool := (List.range 64).all fun i => l.any fun e => e.1 == 64 * b + i

/-- Writes cells of memory as their home slices do (R397, R398): none where a block covered in part cannot be corrected; one that is covered whole becomes sound. -/
def State.putMem (s : State) (l : List (Nat × Byte)) : Option State :=
  let blocks := (l.map fun e => e.1 / 64).eraseDups
  (s.checkBlocks (blocks.filter fun b => !coversWhole l b)).map fun t =>
    State.writeMem { t with bad := t.bad.filter fun e => !(blocks.contains e.1 && coversWhole l e.1) } l

/-- The physical addresses of n bytes of a rank's memory as the hub writes them: none where one does not translate or lacks W. -/
def State.hubPlaces (s : State) (rank va : Nat) : Nat → Option (List Nat × State)
  | 0 => some ([], s)
  | n + 1 => (s.hubTranslate rank va .write).bind fun (pa, t) => (t.hubPlaces rank (va + 1) n).map fun (l, u) => (pa :: l, u)

/-- Writes bytes of a rank's memory by the hub, all of them or none (R397). -/
def State.hubWrite (s : State) (rank va : Nat) (l : List Byte) : Option State :=
  (s.hubPlaces rank va l.length).bind fun (pas, t) => t.putMem (pas.zip l)

end Sys2Proof.Machine
end

