-- ==== Sys2Proof/Machine/Services.lean ====
section
/-! DEFINITION. Machine/Services.lean: what the hub and the command processors do for the rest of the device: interrupt records and mailboxes (R380, R381, R392), the journal (R399, R400), reports and the dead letter queue (R298 to R304). -/

namespace Sys2Proof.Machine

/-! ### Virtual functions -/

def State.vf (s : State) (v : Nat) : VF := tabGetD s.vfs v VF.reset
def State.setVf (s : State) (v : Nat) (x : VF) : State := { s with vfs := tabSet s.vfs v x }
def State.modVf (s : State) (v : Nat) (f : VF → VF) : State := s.setVf v (f (s.vf v))

def CmdQueue.slots (q : CmdQueue) : Nat := q.cfg.toNat % 2 ^ 20

/-- Whether the slot at a queue's head has been posted: a body passed over may reach beyond the producer index (R176, R395). -/
def CmdQueue.posted (q : CmdQueue) : Bool :=
  let n := (q.prod + 2 ^ 32 - q.cons) % 2 ^ 32
  decide (1 ≤ n) && decide (n ≤ q.slots)

/-- The state field of QSTAT of an enabled queue that is not stopped: 1 while a command is left or runs, else 0 (R391). -/
def CmdQueue.settled (q : CmdQueue) : CmdQueue :=
  if q.state ≤ 1 then { q with state := if q.posted = false ∧ q.head = .idle ∧ q.running = [] then 0 else 1 } else q

/-! ### Activity budgets (R323) -/

/-- The number of a unit of a kind: a core's copy engine, a port, an HBM controller, an L2 slice. -/
def unitKey (u : BudgetUnit) (i : Nat) : Nat :=
  (match u with | .copyEngine => 0 | .fabric => 1 | .hbm => 2 | .slice => 3) * 65536 + i

def VF.budget (v : VF) (u : BudgetUnit) : Nat :=
  match u with
  | .copyEngine => v.cpbytes
  | .fabric => v.flits
  | .hbm => v.beats
  | .slice => v.wallocs

/-- Whether a virtual function's use of a unit has reached its budget; a budget of 0 is unlimited. -/
def VF.spent (v : VF) (u : BudgetUnit) (i : Nat) : Bool := v.budget u != 0 && decide (v.budget u ≤ tabGetD v.used (unitKey u i) 0)

/-- A unit counts activity of a virtual function that has a budget for it. -/
def State.spend (s : State) (v : Nat) (u : BudgetUnit) (i n : Nat) : State :=
  if (s.vf v).budget u = 0 then s
  else s.modVf v fun f => { f with used := tabSet f.used (unitKey u i) (tabGetD f.used (unitKey u i) 0 + n) }

/-- Whether the controller of an HBM address holds the requests of a virtual function. -/
def State.hbmHeld (s : State) (v pa : Nat) : Bool := paHbm pa && (s.vf v).spent .hbm (Config.hbmController (pa / 128) % 8)

/-- The beats an access to HBM moves at its controller, none where L2 serves it (log 63). -/
def State.spendHbm (s : State) (v pa : Nat) : State :=
  if paHbm pa ∧ (s.vf v).budget .hbm ≠ 0 then
    let (n, s) := s.draw
    s.spend v .hbm (Config.hbmController (pa / 128) % 8) (Config.anyNat n)
  else s

/-- BUDGET_WINDOW_END: the window of a kind of unit ends, and what it holds goes on. -/
def execBudgetWindowEnd (v : Nat) (u : BudgetUnit) (s : State) : Out :=
  .next (if v < 192 then s.modVf v fun f => { f with used := f.used.filter fun e => e.1 / 65536 != unitKey u 0 / 65536 } else s)

/-! ### Interrupt records (R380) -/

/-- The bytes of an interrupt record. -/
def interruptBytes (kind gen vf vk : Nat) (data : Nat) (queue seq : Nat) : List Byte :=
  layout [(kind, 2), (gen, 2), (vf, 2), (vk, 2), (data, 8), (queue, 1), (0, 7), (seq, 8)]

/-- Makes an interrupt record of a virtual function; it waits at the hub until INTERRUPT_RECORD writes it. -/
def State.interrupt (s : State) (v kind vk data queue : Nat) : State :=
  s.modVf v fun f =>
    { f with mwait := f.mwait ++ [interruptBytes kind f.gen v vk (data % 2 ^ 64) queue f.mseq], mseq := f.mseq + 1 }

/-- Makes an interrupt record of kinds 6 to 8, for the hypervisor's mailbox, with GEN 0. -/
def State.hvInterrupt (s : State) (kind vf vk data : Nat) : State :=
  s.modHub fun h =>
    { h with hvwait := h.hvwait ++ [interruptBytes kind 0 vf vk (data % 2 ^ 64) 0xFF h.hvseq], hvseq := h.hvseq + 1 }

/-! ### Reports and the dead letter queue (R299, R303, R304) -/

/-- The bytes of a report or dead letter record. -/
def Report.bytes (r : Report) : List Byte :=
  layout [(r.cause, 1), (r.kind, 1), (r.opc, 2), (r.ctxid, 4), (r.faddr, 8), (r.epc, 8), (r.detail, 8), (r.seq, 8), (r.code, 8), (r.action, 1), (0, 15)]

/-- OPC of a slot operation (R299). -/
def opcOf (slot op : Nat) : Nat := slot * 256 + op % 64

/-- Takes the next SEQ of a rank. -/
def State.numbered (s : State) (rank : Nat) (r : Report) : Report × State :=
  ({ r with seq := (s.rankOf rank).seq }, s.modRank rank fun k => { k with seq := k.seq + 1 })

/-- A record enters the dead letter queue of its rank, or is counted (R304). The DATA of the interrupt record of the first one is 0 (DESIGN CHOICE, log 81). -/
def State.deadLetter (s : State) (rank : Nat) (r : Report) : State :=
  let k := s.rankOf rank
  let used := (k.dlqprod + 2 ^ 32 - k.dlqcons) % 2 ^ 32
  if 256 ≤ used then s.modRank rank fun k => { k with dlqovf := k.dlqovf + 1 }
  else
    let s := (s.hubWrite rank (k.dlq + 64 * (k.dlqprod % 256)) r.bytes).getD s
    let s := s.modRank rank fun k => { k with dlqprod := (k.dlqprod + 1) % 2 ^ 32, failed := true }
    if used = 0 then s.interrupt k.vf 5 k.vk 0 0xFF else s

/-- An unnumbered record goes to the queue. -/
def State.deadLetterNew (s : State) (rank : Nat) (r : Report) : State :=
  let (r, s) := s.numbered rank r
  s.deadLetter rank r

/-- Whether a command reads or writes a context's window (R25). -/
def Cmd.usesWindow (c : Cmd) (k : Nat) : Bool :=
  c.ctx == k && (match c.src, c.dst with
    | .spad _, _ | .spool _, _ | _, .spad _ | _, .spool _ => true
    | _, _ => false)

def State.usesWindow (s : State) (k : Nat) : Bool := s.cmds.any fun c => c.usesWindow k

/-- An owner that ends gives up the matrix state (R25, R313). -/
def State.disown (s : State) (k : Nat) : State :=
  let c := s.ctx k
  match c.place with
  | none => s
  | some (n, hw) =>
    let x := s.core n
    if x.mowner ≠ 0xFFFF ∧ x.mhwc.toNat = hw then s.setCore n { x with mowner := 0xFFFF } else s

/-- A context that has ended frees its matrix state, its hardware context and its banks once no operation of it uses its window (R25). -/
def State.releaseEnded (s : State) (k : Nat) : State :=
  if (s.ctx k).phase = .ended ∧ (s.ctx k).place.isSome ∧ ¬ s.usesWindow k then (s.disown k).modCtx k fun c => { c with place := none } else s

/-- A command retires (R256): its flags reach CFLAGS (R264) and its counter falls. -/
def State.retireCmd (s : State) (id : Nat) : State :=
  match s.cmds.find? (fun c => c.id == id) with
  | none => s
  | some c =>
    let s := { s with cmds := s.cmds.filter fun x => x.id != id }
    (s.modCtx c.ctx fun x => { x.countDown c.cls id with cflags := x.cflags ||| c.flags }).releaseEnded c.ctx

/-- Whether a context can still take a report or a cause: it has not ended. -/
def Ctx.alive (c : Ctx) : Bool := c.phase == .live || c.phase == .evicted

/-- Reports that waited for a place take it, in order (R298); the first makes an ASYNC due. -/
def State.fillReports (s : State) (k : Nat) : Nat → State
  | 0 => s
  | n + 1 =>
    let c := s.ctx k
    match c.waiting with
    | [] => s
    | r :: l =>
      if c.reports.length < 8 then
        let (r, s) := s.numbered c.rank r
        (s.modCtx k fun c => { c with
          reports := c.reports ++ [r], waiting := l
          failures := if c.failures.any (fun f => f.cause == .async) then c.failures else c.failures ++ [⟨.async, 0, 0, 0⟩] }).fillReports k n
      else s

/-- A unit that finds a failure reports it to the issuing context; when that has ended the record goes to the dead letter queue and a command it describes is cancelled (R298, R303). -/
def State.report (s : State) (k rank : Nat) (r : Report) : State :=
  if (s.ctx k).alive then (s.modCtx k fun c => { c with waiting := c.waiting ++ [r] }).fillReports k 1
  else
    let s := s.deadLetterNew rank r
    match r.cmd with
    | some id => s.retireCmd id
    | none => s

/-- The report of a failed operation (KIND 1). -/
def failedOp (cause : Cause) (opc : Nat) (c : Ctx) (faddr epc detail : Nat) (cmd : Option Nat) : Report :=
  { cause := cause.code, kind := 1, opc := opc, ctxid := c.ctxid.toNat % 2 ^ 32, faddr := faddr, epc := epc, detail := detail, seq := 0,
    code := c.kernel.header, action := 0, cmd := cmd }

/-- A cause raised at a boundary by a failure found after issue (R297). A load's is lost with its context (R25). -/
def State.boundaryFailure (s : State) (k : Nat) (cause : Cause) (addr : Nat) : State :=
  if (s.ctx k).alive then s.modCtx k fun c => { c with failures := c.failures ++ [⟨cause, addr, 0, 0⟩] } else s

/-- A cause of a collective or a shuffle: for a context that has ended it goes to the dead letter queue (R303). -/
def State.collFailure (s : State) (k rank : Nat) (cause : Cause) (addr opc epc : Nat) : State :=
  if (s.ctx k).alive then s.modCtx k fun c => { c with failures := c.failures ++ [⟨cause, addr, opc, epc⟩] }
  else s.deadLetterNew rank (failedOp cause opc (s.ctx k) addr epc 0 none)

end Sys2Proof.Machine
end

