-- ==== Sys2Proof/Machine/Shape.lean ====
section
/-! DEFINITION. Machine/Shape.lean: copy shapes and where the runs of a command lie (R259, R260, R262, R268, R277). -/

namespace Sys2Proof.Machine

/-! ### Fields of a copy-shape register (R259) -/

def shN0 (x : XReg) : Nat := bitsOf x.toNat 0 20
def shN1 (x : XReg) : Nat := bitsOf x.toNat 20 12
def shN2 (x : XReg) : Nat := bitsOf x.toNat 32 12
def shN3 (x : XReg) : Nat := bitsOf x.toNat 44 12
def shFmt (x : XReg) : Option Fmt := Fmt.ofCode (bitsOf x.toNat 56 5)
def shMode (x : XReg) : Nat := bitsOf x.toNat 61 3
/-- Stride of dimension 1 to 3 on the source or the destination side. -/
def shStride (x : XReg) (dst : Bool) (d : Nat) : Int :=
  (BitVec.ofNat 32 (bitsOf x.toNat ((if dst then 160 else 64) + 32 * (d - 1)) 32)).toInt

/-- Runs of a shape; none when it is empty. -/
def shRuns (x : XReg) : Nat := if shN0 x = 0 then 0 else shN1 x * shN2 x * shN3 x

/-- i1 × STR1 + i2 × STR2 + i3 × STR3 of run r (R260). -/
def shOffset (x : XReg) (dst : Bool) (r : Nat) : Int :=
  let i1 := r % shN1 x
  let i2 := r / shN1 x % shN2 x
  let i3 := r / shN1 x / shN2 x
  i1 * shStride x dst 1 + i2 * shStride x dst 2 + i3 * shStride x dst 3

/-- A sum modulo 2^n. -/
def wrapAdd (n base : Nat) (off : Int) : Nat := ((base + off) % (2 ^ n : Int)).toNat

/-! ### Where a command's runs lie -/

def Cmd.gfmt (c : Cmd) : Fmt := (shFmt c.shape).getD .raw

/-- Global address of run r on the side that `dst` says, `base` its base; an indexed side takes its index, once read (R268). -/
def Cmd.globalAt (c : Cmd) (dst : Bool) (base r : Nat) : Nat :=
  match c.index with
  | some (_, side) =>
    if side == dst then wrapAdd 64 base (c.indices.getD r 0 * shStride c.shape dst 1) else wrapAdd 64 base (shOffset c.shape dst r)
  | none => wrapAdd 64 base (shOffset c.shape dst r)

/-- Whether the place of run r on a side awaits its index (R268). -/
def Cmd.unplaced (c : Cmd) (dst : Bool) (r : Nat) : Bool :=
  match c.index with
  | some (_, side) => side == dst && decide (c.indices.length ≤ r)
  | none => false

/-- Window byte address of run r. -/
def Cmd.spadAt (c : Cmd) (dst : Bool) (addr r : Nat) : Nat := wrapAdd 32 addr (shOffset c.shape dst r)

/-- Whole bytes of a run of elements of w bits. -/
def runBytes (n0 w : Nat) : Nat := (n0 * w + 7) / 8

/-- Format of the bank that holds a window byte, as the command read it at issue (R261). -/
def Cmd.bankFmt (c : Cmd) (addr : Nat) : Fmt := emFmt (c.emulsion.toList.getD (addr / 65536) 0)

/-- Bytes of a run that elements lo to hi - 1 touch: first and past the last. -/
def byteSpan (w lo hi : Nat) : Nat × Nat := (w * lo / 8, (w * hi + 7) / 8)

/-- The run and the element before which everything has been written. -/
def Cmd.back (c : Cmd) : Nat × Nat :=
  match (c.out.map (·.elem)).min? with
  | some e => (e / shN0 c.shape, e % shN0 c.shape)
  | none => (c.run, c.elem)

/-- Where a side begins that a command has still to write, or to read: what it has read and not yet written it may have to read again (R273). -/
def Cmd.begin (c : Cmd) (write : Bool) : Nat × Nat := if write then (c.run, c.elem) else c.back

/-- The first element of run r that a command has still to write, or to read. -/
def Cmd.fromElem (c : Cmd) (write : Bool) (r : Nat) : Nat := if r = (c.begin write).1 then (c.begin write).2 else 0

/-- Pieces of a range that lie in one 64-byte cell each: address and length. -/
def cellPieces : Nat → Nat → Nat → List (Nat × Nat)
  | 0, _, _ => []
  | fuel + 1, va, len =>
    if len = 0 then []
    else
      let n := min len (64 - va % 64)
      (va, n) :: cellPieces fuel (va + n) (len - n)

def piecesOf (va len : Nat) : List (Nat × Nat) := cellPieces (len / 64 + 2) va len

/-- Global bytes of elements lo to hi - 1 of run r on a side: element bytes, then the scale bytes of a block-scaled format (R262). -/
def Cmd.globalSpans (c : Cmd) (dst : Bool) (base r lo hi : Nat) : List (Nat × Nat) :=
  let n0 := shN0 c.shape
  let (b0, b1) := byteSpan (if c.adds && dst then 32 else c.gfmt.memBits) lo hi
  (c.globalAt dst base r + b0, b1 - b0) ::
    (if c.gfmt.isBlock then
      [(wrapAdd 64 c.scaleBase (r * (n0 / c.gfmt.block) + lo / c.gfmt.block : Nat), (hi + c.gfmt.block - 1) / c.gfmt.block - lo / c.gfmt.block)]
    else [])

/-- Window address of the scale slot of the row that holds a byte (R35). -/
def slotOfRow (a : Nat) : Nat := a / 65536 * 65536 + 61440 + 16 * (a / 256 % 256)

/-- Blocks of a whole row, whose scales are the bytes of its slot that carry any (R35). -/
def rowBlocks (f : Fmt) : Nat := 2048 / (f.bits * f.block)

/-- Bytes of one context's window, or of one of its spools, that a command touches: the context, the spool, first byte and length. -/
structure SpadSpan where
  ctx : Nat
  spool : Option Nat
  addr : Nat
  len : Nat
  deriving DecidableEq, Repr

/-- Window bytes of run r on a walker or address side from element lo on, with its scale bytes: a write fills those beyond the row's last block too (R35). -/
def Cmd.spadSpans (c : Cmd) (dst : Bool) (addr r lo : Nat) : List (Nat × Nat) :=
  let a := c.spadAt dst addr r
  let f := c.bankFmt a
  let (b0, b1) := byteSpan f.bits lo (shN0 c.shape)
  (a + b0, b1 - b0) ::
    (if f.isBlock then
      (slotOfRow a + lo / f.block, shN0 c.shape / f.block - lo / f.block) :: (if dst then [(slotOfRow a + rowBlocks f, 16 - rowBlocks f)] else [])
    else [])

/-- The context of a rank with a logical index. -/
def State.byIndex (s : State) (rank i : Nat) : Option Nat :=
  (s.ctxs.find? fun e => e.2.rank == rank && (e.2.phase == .live || e.2.phase == .evicted) && e.2.ctxid.toNat == i).map (·.1)

/-- The target contexts of a CPM (R267). -/
def State.targetsOf (s : State) (rank base mask : Nat) : List (Option Nat) :=
  ((List.range 8).filter fun i => mask.testBit i).map fun i => s.byIndex rank (base + i)

/-- Window bytes of the next elements of a spool, from its pointer on: their rows, and in a block-scaled bank, by the format that `fmt` gives for a window byte, their scale slots, of a consumer the first row's alone (R263, R277). -/
def State.spoolSpans (s : State) (fmt : Nat → Fmt) (k n : Nat) (producer : Bool) (runs : Nat) : List SpadSpan :=
  match tabGet (s.ctx k).spools n with
  | none => []
  | some sp =>
    let from' := if producer then sp.p else sp.c
    let block := (fmt (256 * sp.base)).isBlock
    (List.range (min runs (sp.size / max 1 sp.elem))).flatMap fun j => (List.range sp.elem).flatMap fun i =>
      let a := 256 * sp.rowAt (from' + j * sp.elem + i)
      ⟨k, some n, a, 256⟩ :: (if block && (producer || i == 0) then [⟨k, some n, slotOfRow a, 16⟩] else [])

/-- Window bytes that some of a command's runs read or write, `runs` of them from the first not done on: in its own window by the formats it read at issue (R261). -/
def State.spadSpansOf (s : State) (c : Cmd) (write : Bool) (runs : Nat) : List SpadSpan :=
  match (if write then c.dst else c.src) with
  | .spad addr =>
    (List.range runs).flatMap fun j =>
      let r := (c.begin write).1 + j
      (c.spadSpans write addr r (c.fromElem write r)).map fun a => ⟨c.ctx, none, a.1, a.2⟩
  | .spool n => s.spoolSpans c.bankFmt c.ctx n write runs
  | .targets n base mask =>
    (s.targetsOf c.rank base mask).flatMap fun t =>
      match t with
      | some k => s.spoolSpans (fun a => emFmt ((s.ctx k).emOfRow (a / 256))) k n true runs
      | none => []
  | .global _ | .pattern _ => []

/-- Global bytes that elements lo to hi - 1 of a run read or write; anywhere, where its index is not yet read: R209 holds whatever the index will be. -/
def Cmd.globalRange (c : Cmd) (write : Bool) (r lo hi : Nat) : List (Nat × Nat) :=
  match (if write then c.dst else c.src) with
  | .global base => if c.unplaced write r then [(0, 2 ^ 64)] else c.globalSpans write base r lo hi
  | _ => []

/-- What a run has still to read or to write of them. -/
def Cmd.globalFoot (c : Cmd) (write : Bool) (r : Nat) : List (Nat × Nat) := c.globalRange write r (c.fromElem write r) (shN0 c.shape)

/-- Runs still to be written, or to be read. -/
def Cmd.runsLeft (c : Cmd) (write : Bool) : List Nat := (List.range (shRuns c.shape - (c.begin write).1)).map (· + (c.begin write).1)

/-- An address in each page of 64 KiB that a range of bytes touches. -/
def pageStarts (va len : Nat) : List Nat :=
  if len = 0 then [] else (List.range ((va + len - 1) / 65536 - va / 65536 + 1)).map fun i => max va ((va / 65536 + i) * 65536)

/-- Whether two spans of bytes meet. -/
def spansMeet (a b : Nat × Nat) : Bool := decide (a.1 < b.1 + b.2) && decide (b.1 < a.1 + a.2)

/-- Whether a span of the window meets a quarter of a row. -/
def Spoilt.inRow (x : Spoilt) (a : Nat × Nat) : Bool :=
  match x with
  | .row r n => spansMeet a (256 * r + 64 * n, 64)
  | .g _ | .a _ | .p _ | .x _ | .q _ | .v .. => false

/-- Whether a byte lies in a span. -/
def inSpan (x : Nat) (a : Nat × Nat) : Bool := decide (a.1 ≤ x) && decide (x < a.1 + a.2)

/-- The part of its index list that a command has still to read. -/
def Cmd.indexFoot (c : Cmd) : List (Nat × Nat) :=
  match c.index with
  | some (base, _) => if c.indices.length < shN1 c.shape then [(base + 4 * c.indices.length, 4 * (shN1 c.shape - c.indices.length))] else []
  | none => []

/-- Global spans that a command has still to read, or to write. -/
def Cmd.globalLeft (c : Cmd) (write : Bool) : List (Nat × Nat) :=
  (if write then c.out.map fun p => (p.va, p.data.length) else c.indexFoot) ++ (c.runsLeft write).flatMap (c.globalFoot write)

/-- Whether a command has an access of its own to memory of this device still to perform; one whose indices are not read may have any (R268). -/
def State.cmdLocalLeft (s : State) (c : Cmd) : Bool :=
  (c.globalLeft false ++ c.globalLeft true).any fun a =>
    decide (2 ^ 48 ≤ a.2) || (pageStarts a.1 a.2).any fun e => match s.walk c.rank e with | some t => !paRemote (t.paOf e) | none => true

/-- The same for memory of another device (R216). -/
def State.cmdRemoteLeft (s : State) (c : Cmd) : Bool :=
  (c.globalLeft false ++ c.globalLeft true).any fun a =>
    decide (2 ^ 48 ≤ a.2) || (pageStarts a.1 a.2).any fun e => match s.walk c.rank e with | some t => paRemote (t.paOf e) | none => false

/-- Whether two commands meet at a window byte; the two sides of one spool are ordered by its pointers (R258, R277). -/
def SpadSpan.meets (a b : SpadSpan) : Bool :=
  a.ctx == b.ctx && spansMeet (a.addr, a.len) (b.addr, b.len) && !(a.spool.isSome && a.spool == b.spool)

/-- Window spans that the runs of a command read or write, up to the present one. -/
def State.spadFoot (s : State) (c : Cmd) (write : Bool) : List SpadSpan := s.spadSpansOf c write (c.run + 1 - (c.begin write).1)

/-- Window spans that a command has still to read, or to write. -/
def State.spadLeft (s : State) (c : Cmd) (write : Bool) : List SpadSpan := s.spadSpansOf c write (shRuns c.shape - (c.begin write).1)

/-- Spools that a command names (R256, R276). -/
def Cmd.spools (c : Cmd) : List Nat :=
  (match c.src with | .spool n => [n] | _ => []) ++ (match c.dst with | .spool n | .targets n _ _ => [n] | _ => [])

end Sys2Proof.Machine
end

