-- ==== Sys2Proof/Machine/Access.lean ====
section
/-! DEFINITION. Machine/Access.lean: global accesses: how they are made (R193, R218, R220), when they may perform (R206, R209, R210, R213), what performing does at the home slice, in L1 (R186, R207, R211), in exact windows (R200 to R204) and at latent cells (R238, R241, R243, R247 to R250), and how they retire (R21, R297, R298). -/

namespace Sys2Proof.Machine

/-! ### Parts -/

def Part.answered (p : Part) : Bool :=
  match p.st with
  | .done | .failed .. => true
  | .waiting | .parked _ | .sent _ => false

def Part.remote (p : Part) : Bool := paRemote p.pa

/-- Whether a part touches an address, its bytes counted from `base`. -/
def Part.has (p : Part) (base x : Nat) : Bool := decide (base ≤ x) && p.en.getD (x - base) false

/-- Whether two parts of one rank have a byte in common. -/
def Part.meets (p q : Part) : Bool :=
  (List.range p.en.length).any fun i =>
    p.en.getD i false && (q.has q.va (p.va + i) || (p.pa != 0 && q.pa != 0 && q.has q.pa (p.pa + i)))

/-- Whether a part touches a byte of a span of virtual addresses. -/
def Part.meetsSpan (p : Part) (a : Nat × Nat) : Bool :=
  (List.range p.en.length).any fun i => p.en.getD i false && inSpan (p.va + i) a

/-- Whether a part touches a byte of a span of a rank's virtual addresses, under that address or under another that maps the same byte (R209). -/
def State.meetsSpan (s : State) (rank : Nat) (p : Part) (a : Nat × Nat) : Bool :=
  p.meetsSpan a || (p.pa != 0 && decide (a.2 < 2 ^ 48) && (pageStarts a.1 a.2).any fun v =>
    match s.walk rank v with
    | some t => { p with va := p.pa }.meetsSpan (t.paOf v, min (a.1 + a.2 - v) (65536 - v % 65536))
    | none => false)

/-- Cells, by physical address divided by 64, that a part touches. -/
def Part.cellKeys (p : Part) : List Nat :=
  (((List.range p.en.length).filter fun i => p.en.getD i false).map fun i => (p.pa + i) / 64).eraseDups

/-! ### What an access is -/

def Acc.reads (a : Acc) : Bool :=
  match a.kind with
  | .load _ | .amo .. | .cas .. | .expose | .post _ | .source => true
  | .store | .winAdd _ | .fence _ | .wclose .. | .marker | .coll => false

def Acc.writes (a : Acc) : Bool :=
  match a.kind with
  | .store | .amo .. | .cas .. | .winAdd _ | .expose | .wclose .. | .post _ | .coll => true
  | .load _ | .fence _ | .marker | .source => false

/-- A load, or an atomic that returns a value (R210). -/
def Acc.returnsValue (a : Acc) : Bool := a.reads && a.cls == .ld || (match a.kind with | .load _ => true | _ => false)

/-- A read that a FIX can answer (R238, R245): an atomic never waits at a cell. -/
def Acc.parks (a : Acc) : Bool :=
  match a.kind with
  | .load _ | .expose | .post _ | .source => true
  | .store | .amo .. | .cas .. | .winAdd _ | .fence _ | .wclose .. | .marker | .coll => false

/-- Whether a part reads a cell that is not VALUE. -/
def State.meetsCell (s : State) (p : Part) : Bool :=
  p.lc && p.cellKeys.any fun c => match tabGet s.cells c with | some x => x.tag != .value | none => false

/-- Whether a part waits at a cell. -/
def Part.isParked (p : Part) : Bool :=
  match p.st with
  | .parked _ => true
  | _ => false

/-- Whether part i of an access is a read: of an EXPOSE its record alone, of a QPOST all but the append. -/
def Acc.readsAt (a : Acc) (i : Nat) : Bool :=
  match a.kind with
  | .load _ | .source => true
  | .expose => i == 0
  | .post _ => decide (i + 1 < a.parts.length)
  | .store | .amo .. | .cas .. | .winAdd _ | .fence _ | .wclose .. | .marker | .coll => false

/-- A tag at which a read waits for a FIX (R238). -/
def Tag.awaitsFix : Tag → Bool
  | .latent | .developing => true
  | .value | .faulted => false

/-- Whether a read of a part would wait for a FIX. -/
def State.meetsPending (s : State) (p : Part) : Bool :=
  p.lc && p.cellKeys.any fun c => match tabGet s.cells c with | some x => x.tag.awaitsFix | none => false

/-- A read that a FIX has begun to answer, or that waits at a cell or has still to read one that awaits a FIX: it may prove to be an acquire (R213; DEDUCED, log 8). -/
def State.mayWake (s : State) (a : Acc) : Bool :=
  a.parts.zipIdx.any fun (p, i) => a.readsAt i && !p.answered && (a.woken || p.isParked || s.meetsPending p)

/-- The same of a copy command (R213, R243, R245). -/
def State.cmdMayWake (s : State) (c : Cmd) : Bool :=
  !c.parked.isEmpty || (!s.cells.isEmpty && (c.globalLeft false).any fun a => decide (2 ^ 48 ≤ a.2) || s.cells.any fun e => e.2.tag.awaitsFix &&
    (pageStarts a.1 a.2).any fun v => match s.walk c.rank v with
      | some t => t.bit bitLC && spansMeet (t.paOf v, min (a.1 + a.2 - v) (65536 - v % 65536)) (64 * e.1, 64)
      | none => false)

/-- A compare-and-swap that would fail writes nothing and counts as a write for no rule (R227). -/
def State.wouldWrite (s : State) (a : Acc) (p : Part) : Bool :=
  match a.kind with
  | .cas wide b _ _ => s.mem.readLE p.pa p.en.length == b.toNat % 2 ^ (if wide then 64 else 32)
  | _ => true

/-- Whether every part in this device has been answered. -/
def Acc.localDone (a : Acc) : Bool := a.parts.all fun p => p.answered || p.remote

/-- A fence of a kind (R232), and a full fence. -/
def Acc.fenceRelease (a : Acc) : Bool :=
  match a.kind with
  | .fence .release | .fence .full => true
  | _ => false
def Acc.fenceAcquire (a : Acc) : Bool :=
  match a.kind with
  | .fence .acquire | .fence .full => true
  | _ => false

/-- Whether a part is the release of its access: of a QPOST it is the append alone (R162), of a collective its last write, of a shuffle the last to perform (R215, R344, R356). -/
def Acc.relAt (a : Acc) (p : Part) : Bool :=
  a.rel && (match a.kind with | .post _ => p.en.isEmpty | .coll => if a.opc = 0x10 then a.parts.all fun q => q.va == p.va || q.answered else (a.parts.getLast?.map (·.va)) == some p.va | _ => true)

/-- Whether the write of x is one that part p of y, a read of its own issue, must not return (R208): it need not wait for it, since what x writes leaves it the bytes as they were. A compare-and-swap that fails is no such write (R227). -/
def State.readsPast (s : State) (x y : Acc) (p : Part) : Bool :=
  x.first == y.first && x.writes
    && (match y.kind with | .load _ | .source => true | .post _ => !p.en.isEmpty | _ => false) && x.parts.all fun q => s.wouldWrite x q

/-- Whether x and part p of y have a byte in common that x has still to access; a WCLOSE writes the whole of its window. -/
def State.sharesByte (s : State) (x y : Acc) (p : Part) : Bool :=
  (match x.kind with | .wclose b n => s.meetsSpan x.rank p (b, 4 * n) | _ => false)
    || (match y.kind with | .wclose b n => x.parts.any (fun q => !q.answered && s.meetsSpan y.rank q (b, 4 * n)) | _ => false)
    || x.parts.any fun q => !q.answered && q.meets p

/-- Whether the acquire of an access has still to perform: the one of a collective's source goes before its first read alone (R215, R344). -/
def Acc.acqDue (a : Acc) : Bool := a.acq.isSome && (a.kind != .source || a.parts.all fun p => p.st == .waiting)

/-- Whether x, issued earlier by the same context and not yet performed, performs before part p of y (R208 to R210). -/
def State.orders (s : State) (x y : Acc) (p : Part) : Bool :=
  !x.localDone &&
    (x.acqDue || y.relAt p || (y.kind == .source && y.acqDue) || s.mayWake x || (x.fenceRelease && y.writes && s.wouldWrite y p)
      || (y.fenceAcquire && x.returnsValue) || (!s.readsPast x y p && s.sharesByte x y p))

/-- The same for a copy command x (R215, R257). -/
def State.cmdOrders (s : State) (x : Cmd) (y : Acc) (p : Part) : Bool :=
  x.acq || s.cmdMayWake x || ((y.relAt p || (y.kind == .source && y.acqDue)) && s.cmdLocalLeft x)
    || (match y.kind with | .wclose b n => (x.globalLeft false ++ x.globalLeft true).any (spansMeet (b, 4 * n)) | _ => false)
    || (x.globalLeft false ++ x.globalLeft true).any (s.meetsSpan x.rank p)

/-- A part in another device's memory is ordered by DRAIN alone (R216). -/
def State.blocked (s : State) (a : Acc) (p : Part) : Bool :=
  !p.remote
    && (s.accs.any (fun x => x.ctx == a.ctx && decide (x.id < a.id) && s.orders x a p)
        || s.cmds.any (fun x => x.ctx == a.ctx && decide (x.id < a.id) && s.cmdOrders x a p))

/-! ### Making an access -/

def State.setAcc (s : State) (a : Acc) : State := { s with accs := s.accs.map fun x => if x.id = a.id then a else x }
def State.acc? (s : State) (id : Nat) : Option Acc := s.accs.find? fun a => a.id == id
def State.dropAcc (s : State) (id : Nat) : State := { s with accs := s.accs.filter fun a => a.id != id }

def Acc.setPart (a : Acc) (i : Nat) (p : Part) : Acc := { a with parts := a.parts.set i p }

/-- A translation failure at an address. -/
structure AccFail where
  cause : Cause
  addr : Nat
  curable : Bool
  deriving DecidableEq, Repr

/-- The firmware's service of a slot's TRANSLATION or PERMISSION (R289). -/
def AccFail.task (f : AccFail) : FwTask := if f.curable then .faultRecord else .terminate 0

inductive PartsRes where
  | ok (l : List Part) (s : State)
  | fail (f : AccFail)

/-- The parts of a range of bytes, one per line with an enabled byte, all translated before any is accessed (R220, R223). -/
def State.partsOf (s : State) (core rank : Nat) (need : Need) (en : Nat → Bool) (data : Nat → Byte) (va0 : Nat) : List (Nat × Nat) → PartsRes
  | [] => .ok [] s
  | (va, n) :: l =>
    let bits := (List.range n).map fun i => en (va - va0 + i)
    if bits.any id then
      match s.translate core rank (va + bits.findIdx id) need with
      | .fail f => .fail ⟨f.cause, va + bits.findIdx id, f.curable⟩
      | .ok pa leaf s1 =>
        match State.partsOf s1 core rank need en data va0 l with
        | .fail f => .fail f
        | .ok ps s2 =>
          .ok (⟨va, pa - bits.findIdx id, leaf.bit bitLC, bits, (List.range n).map fun i => data (va - va0 + i), .waiting⟩ :: ps) s2
    else State.partsOf s core rank need en data va0 l

/-- The parts of n bytes at an address. -/
def State.rangeParts (s : State) (need : Need) (va n : Nat) (en : Nat → Bool) (data : Nat → Byte) : PartsRes :=
  s.partsOf s.cx.coreNum s.cx.rank need en data va (linePieces (n / 128 + 2) va n)

/-- An operation of the present context becomes outstanding; its counter rises (R21). -/
def State.addAcc (s : State) (op : Nat) (kind : AccKind) (cls : Cls) (acq : Option Scope) (rel : Bool) (parts : List Part) : State :=
  let (id, s) := s.takeId
  let c := s.cx
  let a : Acc :=
    { id := id, ctx := s.cur, rank := c.rank, core := c.coreNum, slot := s.issue.slot, opc := op, epc := c.pc, kind := kind, cls := cls,
      acq := acq, rel := rel, parts := parts, woken := false, first := s.issue.first, keep := [], shut := s.issue.fixed }
  { s with accs := s.accs ++ [a] }.modCx fun c => c.countUp cls id

/-- A pseudo access of the present context, issued with the present bundle, by which a held operation asks what it must wait for: what earlier bundles issued. -/
def State.probe (s : State) (kind : AccKind) (acq : Option Scope) (rel : Bool) (parts : List Part) : Acc :=
  { id := s.issue.first, ctx := s.cur, rank := s.cx.rank, core := s.cx.coreNum, slot := s.issue.slot, opc := 0, epc := 0, kind := kind, cls := .none,
    acq := acq, rel := rel, parts := parts, woken := false, first := s.issue.first, keep := [], shut := none }

/-- Whether an operation that performs at its issue must still wait for an earlier one (R209, R210). -/
def State.mustWait (s : State) (kind : AccKind) (acq : Option Scope) (rel : Bool) (parts : List Part) : Bool :=
  let a := s.probe kind acq rel parts
  if parts.isEmpty then s.blocked a ⟨0, 0, false, [], [], .waiting⟩ else parts.any fun p => s.blocked a p

/-- The one part of an operation that has no bytes of its own. -/
def Part.none : Part := ⟨0, 0, false, [], [], .waiting⟩

/-! ### L1 (R186, R187, R211) -/

def State.isFused (s : State) (cl : Nat) : Bool := (tabGet s.fused cl).isSome
/-- The core whose L1 holds a line for a core. -/
def State.l1Core (s : State) (core pa : Nat) : Nat := if s.isFused (clusterOf core) then clusterOf core * 8 + bitsOf pa 7 3 else core
def State.l1Line (s : State) (core pa : Nat) : Option (List Byte) := tabGet (s.core (s.l1Core core pa)).l1 (pa / 128)
def State.l1Drop (s : State) (core pa : Nat) : State := s.modCore (s.l1Core core pa) fun k => { k with l1 := tabDel k.l1 (pa / 128) }
/-- Lines of a cache of some capacity, giving up any line when it is full (R184). -/
def linePut (t : Tab (List Byte)) (cap v k : Nat) (x : List Byte) : Tab (List Byte) :=
  let t := tabDel t k
  tabSet (if t.length < cap then t else t.eraseIdx (v % t.length)) k x
/-- L1 data takes a line for a virtual function: 1,024 lines in each core (R184). -/
def State.l1Fill (s : State) (core vf pa v : Nat) (line : List Byte) : State :=
  s.modCore (s.l1Core core pa) fun k =>
    { k with l1 := linePut k.l1 1024 v (pa / 128) line, l1vf := tabSet k.l1vf (pa / 128) vf, badL1 := tabDel k.badL1 (pa / 128) }

/-- A read served by a line of L1: the line where its envelope holds or can be corrected, which is journalled; none where it cannot (R305, R397, R398). -/
def State.l1Check (s : State) (core pa : Nat) : Option State :=
  let n := s.l1Core core pa
  match tabGet (s.core n).badL1 (pa / 128) with
  | none => some s
  | some true => some ((s.modCore n fun k => { k with badL1 := tabDel k.badL1 (pa / 128) }).journal 2 n pa)
  | some false => none
def State.l1DropAll (s : State) (core : Nat) : State :=
  let cl := clusterOf core
  if s.isFused cl then { s with cores := s.cores.map fun e => if clusterOf e.1 = cl then (e.1, { e.2 with l1 := [] }) else e }
  else s.modCore core fun k => { k with l1 := [] }

/-- What an acquire of a scope discards (R211). -/
def State.acquireAt (s : State) (core : Nat) (scope : Scope) : State :=
  match scope with
  | .core => s
  | .cluster => if s.isFused (clusterOf core) then s else s.l1DropAll core
  | .device | .system => s.l1DropAll core

/-- A store of the issuing core updates the line its L1 holds (R186); one whose envelope fails is given up. -/
def State.l1Update (s : State) (core pa : Nat) (en : List Bool) (data : List Byte) : State :=
  match s.l1Line core pa with
  | none => s
  | some line =>
    let new := line.zipIdx.map fun (b, j) =>
      if pa % 128 ≤ j ∧ en.getD (j - pa % 128) false then data.getD (j - pa % 128) 0 else b
    if (tabGet (s.core (s.l1Core core pa)).badL1 (pa / 128)).isSome then s.l1Drop core pa
    else s.modCore (s.l1Core core pa) fun k => { k with l1 := tabSet k.l1 (pa / 128) new }

/-! ### Exact windows (R200 to R202) -/

/-- The open window that holds an address of a rank, by position in the list: in what its WOPEN has cleared and its WCLOSE has not written. -/
def State.winIx? (s : State) (rank va : Nat) : Option Nat :=
  s.wins.findIdx? fun w => w.rank == rank && decide (w.base + 4 * w.written ≤ va) && decide (va < w.base + 4 * w.cleared)

/-- Where a byte of a window lies, as its pages lay when it was opened. -/
def Win.placeOf (w : Win) (va : Nat) : Nat :=
  match w.pages.find? fun p => inSpan va (p.1, p.2.2) with
  | some p => p.2.1 + (va - p.1)
  | none => 0

def Win.elemAt (w : Win) (va : Nat) : WinElem := tabGetD w.elems ((va - w.base) / 4) WinElem.zero

/-- RESULT (R201), as F32 bits. -/
def WinElem.result (e : WinElem) : Nat :=
  if e.nan ∨ (e.pinf ∧ e.ninf) then 0x7FC00000
  else if e.pinf then 0x7F800000
  else if e.ninf then 0xFF800000
  else if e.ovf then (if 0 ≤ e.sum.toInt then 0x7F800000 else 0xFF800000)
  else (convert (.float F32) .rne 0 (XVal.ofScaled e.sum.toInt (-149))).1

/-- An add to an element (R200). -/
def WinElem.add (e : WinElem) (x : XVal) : WinElem :=
  let e1 := match x with
    | .nan => { e with nan := true }
    | .inf s => if s then { e with ninf := true } else { e with pinf := true }
    | .fin s m k _ => { e with sum := e.sum + BitVec.ofInt 302 (signedOf s (m * 2 ^ (k + 149).toNat)) }
  if e1.cnt = 2 ^ 24 then { e1 with ovf := true } else { e1 with cnt := e1.cnt + 1 }

/-- A byte of RESULT. -/
def resultByte (e : WinElem) (va : Nat) : Byte := BitVec.ofNat 8 (e.result / 2 ^ (8 * (va % 4)))

/-- Adds to the element at an address of a rank, a write that ends a guard (R206, R363): none where no window is open there (R204). -/
def State.windowAddAt (s : State) (rank va : Nat) (x : XVal) : Option State :=
  match s.winIx? rank va with
  | none => none
  | some i =>
    let t := match s.wins[i]? with
      | some w => s.unguard (w.placeOf va) 4
      | none => s
    some { t with wins := s.wins.modify i fun w => { w with elems := tabSet w.elems ((va - w.base) / 4) ((w.elemAt va).add x) } }

/-- A byte at the home slice as a load of a rank reads it: RESULT in an open window, else memory (R202, R207). -/
def State.homeByte (s : State) (rank va pa : Nat) : Byte :=
  match s.winIx? rank va with
  | some i =>
    match s.wins[i]? with
    | some w => resultByte (w.elemAt va) va
    | none => s.mem.get pa
  | none => s.mem.get pa

/-- The bytes of a part, by virtual address, as they stand before it is written: of a cell that is not VALUE none. -/
def State.oldBytes (s : State) (rank : Nat) (p : Part) : List (Nat × Byte) :=
  ((List.range p.en.length).filter fun i =>
      p.en.getD i false && (p.pa != 0 || (s.winIx? rank (p.va + i)).isSome)
        && !(p.lc && (tabGet s.cells ((p.pa + i) / 64)).any fun x => x.tag != .value)).map
    fun i => (p.va + i, s.homeByte rank (p.va + i) (p.pa + i))

/-- Bytes that a list does not yet give. -/
def newBytes (have' old : List (Nat × Byte)) : List (Nat × Byte) := old.filter fun e => !have'.any fun x => x.1 == e.1

/-- Before a write of an issue performs, the reads that the issue makes in later slots keep the bytes that they have still to read, so that they do not return it (R208). -/
def State.keepBytes (s : State) (k first id : Nat) (p : Part) : State :=
  let cmd (c : Cmd) : Bool := c.ctx == k && c.first == first && decide (id ≤ c.id)
  let acc (a : Acc) : Bool := a.ctx == k && a.first == first && decide (id < a.id) && a.reads
  if s.cmds.any cmd || s.accs.any acc then
    { s with
      cmds := s.cmds.map fun c =>
        if cmd c then { c with keepG := c.keepG ++ newBytes c.keepG ((s.oldBytes c.rank p).filter fun e => (c.globalLeft false).any (inSpan e.1)) } else c
      accs := s.accs.map fun a =>
        if acc a then { a with keep := a.keep ++ newBytes a.keep ((s.oldBytes a.rank p).filter fun e => a.parts.any fun q => !q.answered && q.has q.va e.1) } else a }
  else s

/-- What a read of an issue returns of the bytes at its home slice: those that it keeps, and in a window that its own issue has opened those of memory (R208). -/
def State.ownView (s : State) (own : Nat × Nat) (rank : Nat) (keep : List (Nat × Byte)) (p : Part) (l : List Byte) : List Byte :=
  l.zipIdx.map fun (b, i) =>
    match keep.find? fun e => e.1 == p.va + i with
    | some e => e.2
    | none =>
      match (s.winIx? rank (p.va + i)).bind (s.wins[·]?) with
      | some w => if w.opener = own then s.mem.get (p.pa + i) else b
      | none => b

/-! ### The envelope of memory blocks (R397, R398) -/

/-- Blocks of 64 bytes that a part touches. -/
def Part.blocks (p : Part) : List Nat := p.cellKeys

/-- The two blocks of a line. -/
def lineBlocks (pa : Nat) : List Nat := [pa / 128 * 2, pa / 128 * 2 + 1]

/-- Whether a part covers the whole of a block. -/
def Part.coversBlock (p : Part) (b : Nat) : Bool := (List.range 64).all fun i => p.has p.pa (64 * b + i)

/-- Blocks that a write checks: those it covers in part (R397). -/
def Part.partialBlocks (p : Part) : List Nat := p.blocks.filter fun b => !p.coversBlock b

/-- A full overwrite makes a block sound. -/
def State.soundBlocks (s : State) (p : Part) : State := { s with bad := s.bad.filter fun e => !p.coversBlock e.1 }

/-! ### Latent cells as accesses meet them (R238, R241, R243, R247, R248) -/

/-- Cells on which a context waits (R248). -/
def State.waitsOf (s : State) (k : Nat) : List Nat :=
  (s.accs.filter fun a => a.ctx == k).flatMap (fun a => a.parts.filterMap fun p => match p.st with | .parked c => some c | _ => none)
    ++ (s.cmds.filter fun c => c.ctx == k).flatMap (fun c => c.parked.map (·.1))
    ++ (s.cells.filter fun e => e.2.inPlace == some k).map (·.1)

/-- The walk of R248 from pending cells: whether it meets a cell whose evaluator is `e`. -/
def State.reaches (s : State) (e : Nat) : Nat → List Nat → List Nat → Bool
  | 0, _, _ => false
  | _ + 1, [], _ => false
  | n + 1, c :: pending, seen =>
    if seen.contains c then s.reaches e n pending seen
    else
      match tabGet s.cells c with
      | some cell =>
        match cell.tag, cell.eval with
        | .developing, some f =>
          if f = e then true else s.reaches e n (pending ++ s.waitsOf f) (c :: seen)
        | _, _ => s.reaches e n pending (c :: seen)
      | none => s.reaches e n pending (c :: seen)

/-- Steps that bound the walk. -/
def State.walkBound (s : State) : Nat :=
  (s.cells.length + 1) * (s.cells.length + (s.accs.map fun a => a.parts.length).sum + s.cmds.length + 1)

/-- How a cell answers a read. -/
inductive CellAns where
  | value
  | parked
  | fail (cause : Cause)
  deriving DecidableEq, Repr

/-- The DEPTH of a cell's record as a limit (R239). -/
def State.cellDepth (s : State) (c : Nat) : Nat :=
  let d := (s.mem.get (64 * c + 0x15)).toNat
  if d = 0 ∨ 8 < d then 8 else d

/-- A read by a context, or by its core's engine, of a cell (R238); in a page with LC clear every cell is VALUE (R237). -/
def State.cellRead (s : State) (k core c : Nat) (lc : Bool) : CellAns × State :=
  match (if lc then tabGet s.cells c else none) with
  | none => (.value, s)
  | some cell =>
    let chain := ((s.ctx k).eval.map (·.chain)).getD []
    match cell.tag with
    | .value => (.value, s)
    | .faulted => (.fail .latentFaulted, s)
    | .latent =>
      if (s.ctx k).eval.isSome ∧ (8 < chain.length + 1 ∨ s.cellDepth c < chain.length + 1) then (.fail .developDepth, s)
      else (.parked, { s with cells := tabSet s.cells c { cell with tag := .developing, eval := none, placed := false, first := (k, core, chain) } })
    | .developing =>
      if (s.ctx k).eval.isSome ∧ (cell.eval = some k ∨ s.reaches k s.walkBound [c] []) then (.fail .selfDependence, s) else (.parked, s)

/-- A read is noted at the cell it waits for. -/
def State.parkAcc (s : State) (c id : Nat) : State :=
  { s with cells := tabModify s.cells c fun x => { x with readers := if x.readers.contains id then x.readers else x.readers ++ [id] } }
def State.parkCmd (s : State) (c id : Nat) : State :=
  { s with cells := tabModify s.cells c fun x => { x with cmds := if x.cmds.contains id then x.cmds else x.cmds ++ [id] } }
def State.parkAt (s : State) (c id : Nat) : State := if s.cmds.any fun x => x.id == id then s.parkCmd c id else s.parkAcc c id

/-- Whether a physical line holds a cell that is not VALUE (R250). -/
def State.lineLatent (s : State) (pa : Nat) : Bool := s.cells.any fun e => e.1 / 2 == pa / 128 && e.2.tag != .value

/-- Whether a virtual line of a rank lies in an open window (R202). -/
def State.lineInWindow (s : State) (rank va : Nat) : Bool := (s.winIx? rank (va / 128 * 128)).isSome || (s.winIx? rank (va / 128 * 128 + 124)).isSome

/-! ### Retirement (R21, R297, R298) -/

/-- The failure of an access: that of its lowest failing address (R238). -/
def Acc.failure? (a : Acc) : Option (Cause × Nat) :=
  (a.parts.filterMap fun p => match p.st with | .failed c x => some (c, x) | _ => none).foldl
    (fun r x => match r with
      | none => some x
      | some y => if x.2 < y.2 then some x else some y) none

/-- Causes that a failed read raises at a boundary of its own (R297). -/
def Cause.ofRead : Cause → Bool
  | .latentFaulted | .developDepth | .selfDependence | .integrity => true
  | _ => false

/-- A failure of an operation found after issue reaches its context: at a boundary for a read, else as a report (R297, R298). Once the context has ended a load's is lost, and any other is a report (R25). -/
def State.accFailed (s : State) (a : Acc) (cause : Cause) (addr : Nat) : State :=
  let asRead := match a.kind with
    | .load _ => cause.ofRead
    | .expose => cause.ofRead && (s.ctx a.ctx).alive
    | _ => false
  if asRead then s.boundaryFailure a.ctx cause addr
  else s.report a.ctx a.rank (failedOp cause (opcOf a.slot a.opc) (s.ctx a.ctx) addr a.epc 0 none)

/-- The failures to report: of window adds each one (R137, R204), else the lowest (R238). -/
def Acc.failures (a : Acc) : List (Cause × Nat) :=
  match a.kind with
  | .winAdd _ => a.parts.filterMap fun p => match p.st with | .failed c x => some (c, x) | _ => none
  | _ => a.failure?.toList

def State.accFailures (s : State) (a : Acc) : List (Cause × Nat) → State
  | [] => s
  | (cause, addr) :: l => (s.accFailed a cause addr).accFailures a l

/-- Whether an earlier read of the same context waits at a cell, so that it may hold an access back (R213). -/
def State.behindParked (s : State) (a : Acc) : Bool :=
  s.accs.any fun x => x.ctx == a.ctx && decide (x.id < a.id) && x.parts.any Part.isParked

/-- Whether an operation's failure waits for an earlier operation of its context at the same home slice, so that one unit reports two failures in the order of their issue (R300): for one that has failed, and for one that has still to perform, but that a read at a cell may hold back for as long as the cell stands (log 82). -/
def State.reportWaits (s : State) (a : Acc) : Bool :=
  a.failure?.isSome && s.accs.any fun x =>
    x.ctx == a.ctx && decide (x.id < a.id)
      && (x.failure?.isSome || (x.parts.any (fun p => !p.answered && !p.isParked) && (a.writes && x.writes || !s.behindParked x)))
      && x.parts.any fun p => !p.remote && a.parts.any fun q => !q.remote && homeSlice p.pa == homeSlice q.pa

/-- An operation that brings no value back retires once every part is answered. -/
def State.settleOne (s : State) (id : Nat) : State :=
  match s.acc? id with
  | none => s
  | some a =>
    if a.parts.all Part.answered && !s.reportWaits a then
      match a.kind, a.cls with
      | .load (.g ..), _ | .load (.v ..), _ | .load (.image _), _ | .load .none, .ld | .amo .., .ld | .cas .., .ld => s
      | .load .none, .none | .store, .none | .marker, _ | .coll, _ | .source, _ => s
      | _, _ =>
        let s := (s.dropAcc id).modCtx a.ctx fun c => c.countDown a.cls id
        s.accFailures a a.failures
    else s

/-- An operation retires, and behind it those whose failures waited for it (R300). -/
def State.settle (s : State) (id : Nat) : State :=
  let ctx := (s.acc? id).map (·.ctx)
  let s := s.settleOne id
  ((s.accs.filter fun a => some a.ctx == ctx && a.failure?.isSome && a.parts.all Part.answered).map (·.id)).foldl State.settleOne s

/-- Landings of a register that a load has overwritten are discarded (R23). -/
def dropG (d : GR) (l : List Landing) : List Landing := l.filter fun x => match x.eff with | .g e _ => e != d | _ => true
def dropV (d : VR) (mask : VReg) (l : List Landing) : List Landing :=
  l.map fun x => match x.eff with | .v e m y => if e = d then { x with eff := .v e (m &&& ~~~mask) y } else x | _ => x

def Ctx.mapInflight (c : Ctx) (f : List Landing → List Landing) : Ctx :=
  { c with
    inflight := f c.inflight
    saveU := c.saveU.map fun v => { v with inflight := f v.inflight }
    saveS := c.saveS.map fun v => { v with inflight := f v.inflight } }

/-- A load's value lands at its retirement, over the landings of earlier writers (R23, R222, R223). -/
def Ctx.landLoad (c : Ctx) (a : Acc) : Ctx :=
  match a.gDst, a.vDst with
  | some (d, x), _ => ((c.mapInflight (dropG d)).wg d x).heal (.g d x)
  | none, some (d, m, x) => ((c.mapInflight (dropV d m)).wv d (mixBits m (c.rv d) x)).heal (.v d m x)
  | none, none => c

/-- Whether an atomic refused in an open window or at a cell still delivers, as 0 (R228). -/
def Acc.refusedAtomic (a : Acc) : Bool :=
  match a.kind with
  | .amo .. | .cas .. => a.failure?.isSome
  | _ => false

/-- LOAD_RETIRE: an access that returns a value retires (R21, R23, R25, R297). -/
def State.retireLoad (s : State) (id : Nat) : State :=
  match s.acc? id with
  | none => s
  | some a =>
    let retires := match a.kind with
      | .load _ => a.cls == .ld
      | .amo .. | .cas .. => a.cls == .ld
      | _ => false
    if retires && a.parts.all Part.answered && !s.reportWaits a then
      let s1 := (s.dropAcc id).modCtx a.ctx fun c => c.countDown a.cls id
      if (s.ctx a.ctx).alive then
        match a.failure? with
        | none => s1.modCtx a.ctx fun c => c.landLoad a
        | some (cause, addr) =>
          let s2 := if a.refusedAtomic then
              s1.modCtx a.ctx fun c => c.landLoad { a with parts := a.parts.map fun p => { p with data := p.data.map fun _ => 0 } }
            else s1
          s2.accFailed a cause addr
      else s1.accFailures a a.failures
    else s

/-! ### Another device's memory (R216, R337, R340) -/

/-- The next port towards a device: the ports of its routing entry in rotation, failed ones passed over (R340, R382). -/
def State.portTo (s : State) (dev : Nat) : Option (Nat × State) :=
  let ports := (tabGetD s.routes dev []).filter fun p => !s.failedPorts.contains p
  let n := tabGetD s.rotors dev 0
  match ports with
  | [] => none
  | _ => (ports[n % ports.length]?).map fun p => (p, { s with rotors := tabSet s.rotors dev (n + 1) })

/-- The class of a packet (R283, R338). -/
def pktClass : PktBody → PktClass
  | .read .. | .write .. | .amo .. | .cas .. | .contribution .. | .shuffle _ | .overprint _ | .migrant .. => .request
  | .reply .. | .contribAck .. | .shufAck .. => .reply
  | .collAbort .. | .hold .. | .resume .. | .reissue .. | .shufAbort .. | .retry _ | .rankAt .. => .control

def classCode : PktClass → Nat
  | .request => 0 | .reply => 1 | .control => 2

/-- Flits of a packet: a header and its payload, at most 63 flits of 32 bytes (R338). -/
def pktFlits : PktBody → Nat
  | .write _ _ _ _ _ l | .reply _ l _ _ | .migrant _ _ _ _ _ _ l => 1 + (l.length + 31) / 32
  | .contribution _ _ _ _ _ order _ _ l => 1 + (order.length + l.length + 31) / 32
  | .shuffle p => 1 + (p.payload.length + 31) / 32
  | .overprint o => 1 + (o.payload.length + 31) / 32
  | .amo .. | .cas .. => 2
  | _ => 1

/-- A packet enters the buffer of its class at a port (R338); a link whose transfer fails its check sends it again (R398). -/
def State.enqueue (s : State) (port : Nat) (p : Packet) : State :=
  let s := s.useLink 6 port
  let key := 4 * port + classCode (pktClass p.body)
  { s with outbox := tabSet s.outbox key (tabGetD s.outbox key [] ++ [p]) }

/-- Sends a packet; none where its device has no route. -/
def State.send (s : State) (p : Packet) : Option State :=
  if p.dev = Config.ownDevice then none
  else (s.portTo p.dev).map fun (port, s) => s.enqueue port p

/-- Whether the port that a virtual function's next packet towards a device would take holds it for its budget (R323). -/
def State.portHeld (s : State) (vf dev : Nat) : Bool :=
  match s.portTo dev with
  | some (port, _) => (s.vf vf).spent .fabric port
  | none => false

/-- Sends a request-class packet that a confirmation answers, for a virtual function: its flits count, and it is kept until it is confirmed (R323, R382). -/
def State.sendRequest (s : State) (vf : Nat) (p : Packet) : Option State :=
  if p.dev = Config.ownDevice then none
  else (s.portTo p.dev).map fun (port, s) =>
    let s := (s.enqueue port p).spend vf .fabric port (pktFlits p.body)
    { s with unconfirmed := (s.unconfirmed.filter fun u => u.pkt != p) ++ [⟨port, p⟩] }

/-- Sends several such packets; none where one has no route. -/
def State.sendRequests (s : State) (vf : Nat) : List Packet → Option State
  | [] => some s
  | p :: l => (s.sendRequest vf p).bind fun t => t.sendRequests vf l

/-- A confirmation has come. -/
def State.confirm (s : State) (dev : Nat) (is : PktBody → Bool) : State :=
  { s with unconfirmed := s.unconfirmed.filter fun u => !(u.pkt.dev == dev && is u.pkt.body) }

/-- Why a request to another device fails at the sorting office (R337, R340). -/
def State.unroutable (s : State) (pa : Nat) : Bool :=
  paDevice pa == Config.ownDevice || !paLocal (paOnDevice pa) || (s.portTo (paDevice pa)).isNone

/-- Sends a request that waits for a reply under a fresh tag; none where the address fails at the sorting office (R337). Its entry in `remote` is the reply space reserved before it is sent (R338). -/
def State.request (s : State) (vf pa owner part : Nat) (forCmd : Bool) (dead : Option (Nat × Report)) (body : Nat → PktBody) : Option (Nat × State) :=
  let dev := paDevice pa
  if dev = Config.ownDevice ∨ ¬ paLocal (paOnDevice pa) then none
  else
    (s.portTo dev).map fun (port, s) =>
      let (tag, s) := s.takeId
      let pkt : Packet := ⟨dev, body tag⟩
      let s : State := { s with remote := tabSet s.remote tag ⟨owner, part, forCmd, pkt, some port, dead⟩ }
      (tag, (s.enqueue port pkt).spend vf .fabric port (pktFlits pkt.body))

def Cause.ofCode (n : Nat) : Cause :=
  match n with
  | 0x03 => .translation | 0x04 => .permission | 0x0C => .latentFaulted | 0x0A => .selfDependence | 0x0B => .developDepth
  | 0x05 => .misaligned | _ => .integrity

/-! ### Performing -/

/-- op(old, b) of an atomic on words of w bits (R226). -/
def amoNew (op : Aop) (w : Nat) (old b : Nat) : Nat :=
  let b := b % 2 ^ w
  let so := (BitVec.ofNat w old).toInt
  let sb := (BitVec.ofNat w b).toInt
  match op with
  | .swap => b
  | .add => (old + b) % 2 ^ w
  | .and => old &&& b
  | .or => old ||| b
  | .xor => old ^^^ b
  | .min => if so ≤ sb then old else b
  | .max => if so ≤ sb then b else old
  | .minn => min old b
  | .maxn => max old b

/-- Writes the enabled bytes of a part. -/
def State.storeBytes (s : State) (p : Part) : State :=
  s.writeMem (((List.range p.en.length).filter fun i => p.en.getD i false).map fun i => (p.pa + i, p.data.getD i 0))

/-- The part of a part that lies in one cell. -/
def Part.inCell (p : Part) (c : Nat) : Part :=
  let lo := 64 * c - p.pa
  let n := min p.en.length (64 * c + 64 - p.pa) - lo
  { p with va := p.va + lo, pa := p.pa + lo, en := (p.en.drop lo).take n, data := (p.data.drop lo).take n }

/-- Why a write is refused at its home slice, and where: an open window (R204), a cell that is not VALUE (R238), an uncorrectable block it covers in part (R398). `many` says that the access touches several cells. -/
def State.writeRefusal (s : State) (rank : Nat) (many : Bool) (p : Part) : Option (Cause × Nat) :=
  let touched := (List.range p.en.length).filter fun i => p.en.getD i false
  match touched.find? (fun i => (s.winIx? rank (p.va + i)).isSome) with
  | some i => some (.permission, p.va + i)
  | none =>
    match touched.find? (fun i => p.lc && (match tabGet s.cells ((p.pa + i) / 64) with | some c => c.tag != .value | none => false)) with
    | some i => some (.permission, if many then (p.va + i) / 64 * 64 else p.va + i)
    | none =>
      if (p.partialBlocks.any fun b => tabGet s.bad b == some false) then some (.integrity, p.firstVa) else none

/-- Writes the enabled bytes of a part at their home slice (R397). -/
def State.putBytes (s : State) (p : Part) : State := (((s.checkBlocks p.partialBlocks).getD s).soundBlocks p).storeBytes p

/-- A write at its home slice, cell by cell: the first refusal, and the cells that take it written (R238). -/
def State.putCells (s : State) (rank : Nat) (many : Bool) : List Part → Option (Cause × Nat) × State
  | [] => (none, s)
  | p :: l =>
    match s.writeRefusal rank many p with
    | some f => (some f, (s.putCells rank many l).2)
    | none => (s.putBytes p).putCells rank many l

/-- A write of the enabled bytes of a part at its home slice, by a core (R186, R238, R397); the refusal when there is one. A failing cell leaves the others to be written. -/
def State.homeWrite (s : State) (core rank : Nat) (many : Bool) (p : Part) : Option (Cause × Nat) × State :=
  match s.writeRefusal rank many p with
  | some f => if p.cellKeys.length ≤ 1 then (some f, s) else
    let pieces := p.cellKeys.map p.inCell
    let (g, t) := s.putCells rank many pieces
    (g, pieces.foldl (fun u q => if (s.writeRefusal rank many q).isNone then u.l1Update core q.pa q.en q.data else u) t)
  | none => (none, (s.putBytes p).l1Update core p.pa p.en p.data)

/-- Whether an access touches more than one cell. -/
def Acc.manyCells (a : Acc) : Bool := decide (1 < (a.parts.map fun p => p.cellKeys.length).sum)

def failPart (p : Part) (f : Option (Cause × Nat)) : Part :=
  match f with
  | none => { p with st := .done }
  | some (c, x) => { p with st := .failed c x }

/-- The bytes of a part at the home slice. -/
def State.homeBytes (s : State) (rank : Nat) (p : Part) : List Byte :=
  (List.range p.en.length).map fun i => if p.en.getD i false then s.homeByte rank (p.va + i) (p.pa + i) else 0

/-- L1 takes a line from memory, unless an open window, a cell that is not VALUE, or a block that cannot be corrected lies in it (R202, R250, R397). -/
def State.l1Take (s : State) (core rank va pa v : Nat) : State :=
  if s.lineInWindow rank va || s.lineLatent pa then s.l1Drop core pa
  else
    match s.checkBlocks (lineBlocks pa) with
    | some t => t.l1Fill core (s.rankOf rank).vf pa v (t.mem.read (pa / 128 * 128) 128)
    | none => s.l1Drop core pa

/-- A read of a part all of whose cells are VALUE: its envelope check, its bytes, and what L1 then holds of the line (R186, R202, R207, R250). -/
def State.plainRead (s : State) (core rank : Nat) (intoL1 : Bool) (p : Part) : Part × State :=
  match s.checkBlocks p.blocks with
  | none => ({ p with st := .failed .integrity p.firstVa }, s.correctBlocks p.blocks)
  | some s =>
    let q := { p with st := .done, data := s.homeBytes rank p }
    let (n, s) := s.draw
    if intoL1 && Config.fillsL1 n then (q, s.l1Take core rank p.va p.pa (Config.victim n))
    else (q, s.l1Drop core p.pa)

/-- The bytes of a part that a read at its home slice has brought, as its own issue lets the access see them (R208). -/
def State.seenBy (s : State) (a : Acc) (p : Part) : Part :=
  if p.st = .done then { p with data := s.ownView (a.ctx, a.first) a.rank a.keep p p.data } else p

/-- A read of a part that lies in one cell (R238); the access waits there when it parks. One whose bytes the access keeps is answered with them, and a cell that its own issue has fixed is still one that its context develops (R208, R248). -/
def State.readCell (s : State) (a : Acc) (p : Part) (c : Nat) : Part × State :=
  let kept (i : Nat) : Option Byte := (a.keep.find? fun e => e.1 == p.va + i).map (·.2)
  if (List.range p.en.length).all fun i => !p.en.getD i false || (kept i).isSome then
    ({ p with st := .done, data := (List.range p.en.length).map fun i => (kept i).getD 0 }, s)
  else if a.shut = some c then ({ p with st := .failed .selfDependence (p.va + 64 * c - p.pa) }, s)
  else
    match s.cellRead a.ctx a.core c p.lc with
    | (.value, s) => let (q, t) := s.plainRead a.core a.rank false p; (t.seenBy a q, t)
    | (.fail cause, s) => ({ p with st := .failed cause (p.va + 64 * c - p.pa) }, s)
    | (.parked, s) => ({ p with st := .parked c }, s.parkAt c a.id)

def State.readCells (s : State) (a : Acc) (p : Part) : List Nat → List Part × State
  | [] => ([], s)
  | c :: l =>
    let (q, s) := s.readCell a (p.inCell c) c
    let (qs, s) := s.readCells a p l
    (q :: qs, s)

/-- A read at the home slice by an access's part: whole when every cell is VALUE, else cell by cell (R238). -/
def State.homeRead (s : State) (a : Acc) (p : Part) (intoL1 : Bool) : List Part × State :=
  if s.meetsCell p || (match a.shut with | some c => p.cellKeys.contains c | none => false) then
    s.readCells a p p.cellKeys
  else
    let (q, t) := s.plainRead a.core a.rank intoL1 p
    ([t.seenBy a q], t)

/-- A core's read of a part: served by the line its L1 holds, or at the home slice (R186, R207, R250, R397). -/
def State.coreRead (s : State) (a : Acc) (p : Part) : List Part × State :=
  let (n, s) := s.draw
  match s.l1Line a.core p.pa with
  | some line =>
    if a.acq.isNone && Config.servedFromL1 n && !s.lineInWindow a.rank p.va then
      match s.l1Check a.core p.pa with
      | none => ([{ p with st := .failed .integrity p.firstVa }], s)
      | some s =>
        ([s.seenBy a { p with st := .done, data := (List.range p.en.length).map fun j => if p.en.getD j false then line.getD (p.pa % 128 + j) 0 else 0 }], s)
    else s.homeRead a p true
  | none => s.homeRead a p true

/-- Replaces part i of an access by the parts it has become. -/
def State.replacePart (s : State) (id i : Nat) (l : List Part) : State :=
  match s.acc? id with
  | none => s
  | some a => s.setAcc { a with parts := a.parts.take i ++ l ++ a.parts.drop (i + 1) }

/-- An atomic at its home slice (R214, R226 to R228): it discards its line from L1. -/
def State.performAtomic (s : State) (a : Acc) (p : Part) (new : Nat → Option Nat) : Part × State :=
  let s := s.l1Drop a.core p.pa
  match s.writeRefusal a.rank a.manyCells p with
  | some (c, x) => ({ p with st := .failed c x }, s)
  | none =>
    let s := (s.checkBlocks p.blocks).getD s
    let old := s.mem.readLE p.pa p.en.length
    let s := match new old with
      | some v => s.storeBytes { p with data := leBytes p.en.length v }
      | none => s
    ({ p with st := .done, data := leBytes p.en.length old }, s)

/-- Sends a remote part's request. -/
def State.performRemote (s : State) (a : Acc) (i : Nat) (p : Part) : Part × State :=
  let pa := paOnDevice p.pa
  let own := Config.ownDevice
  let body (tag : Nat) : PktBody := match a.kind with
    | .store => .write own tag a.manyCells pa p.en p.data
    | .amo op wide b _ => .amo own tag op wide pa b
    | .cas wide b c _ => .cas own tag wide pa b c
    | _ => .read own tag pa p.en
  match s.request (s.rankOf a.rank).vf p.pa a.id i false none body with
  | none => ({ p with st := .failed .translation p.firstVa }, s)
  | some (tag, s) => ({ p with st := .sent tag }, s)

/-- The F32 value, or the INT32 value, of an add of four bytes. -/
def addValue (int : Bool) (l : List Byte) : XVal :=
  if int then XVal.ofInt (BitVec.ofNat 32 (leNat l)).toInt else F32.decode (leNat l)

/-- Window adds of a part: each at its element, those outside every window, or at a cell that is not VALUE, refused (R204, R238). -/
def State.addElems (s : State) (rank : Nat) (int : Bool) (p : Part) : Nat → Option Nat × State
  | 0 => (none, s)
  | n + 1 =>
    let (f, s) := s.addElems rank int p n
    if p.en.getD (4 * n) false then
      let latent := p.lc && (match tabGet s.cells ((p.pa + 4 * n) / 64) with | some c => c.tag != .value | none => false)
      match if latent then none else s.windowAddAt rank (p.va + 4 * n) (addValue int ((p.data.drop (4 * n)).take 4)) with
      | some t => (f, t)
      | none => (if f.isSome then f else some (p.va + 4 * n), s)
    else (f, s)

/-- A part of window adds performs (R200, R204, R137). An add whose address was not translated at issue translates now. -/
def State.performAdds (s : State) (a : Acc) (int : Bool) (p : Part) : Part × State :=
  let go (p : Part) (s : State) : Part × State :=
    match s.addElems a.rank int p (p.en.length / 4) with
    | (none, s) => ({ p with st := .done }, s)
    | (some x, s) => ({ p with st := .failed .permission x }, s)
  if p.pa != 0 then go p s
  else
    match s.translate a.core a.rank p.firstVa .write with
    | .fail f => ({ p with st := .failed f.cause p.firstVa }, s)
    | .ok pa leaf s => if paRemote pa then ({ p with st := .failed .permission p.firstVa }, s) else go { p with pa := pa - p.en.findIdx id, lc := leaf.bit bitLC } s

/-- The write of an EXPOSE (R240, R238): the record that its read has brought and the tag, in one instant; nothing when the read failed. -/
def State.performExpose (s : State) (a : Acc) (p : Part) : Part × State :=
  match a.parts.head? with
  | none => (p, s)
  | some r =>
    match r.st with
    | .failed .. => ({ p with st := .done }, s)
    | .done =>
      let c := p.pa / 64
      if (s.winIx? a.rank p.va).isSome ∨ (tabGet s.cells c).map (·.tag) = some .developing then
        ({ p with st := .failed .permission p.va }, s)
      else
        let s : State := { s with cells := tabSet s.cells c ⟨.latent, a.rank, p.va, none, false, [], [], (0, 0, []), none, none, none⟩ }
        ({ p with st := .done }, ((s.soundBlocks p).storeBytes { p with data := r.data }).l1Drop a.core p.pa)
    | _ => (p, s)

/-- The append of a QPOST once its record has been read (R162): it waits while the queue is full; nothing is appended when the read failed. The first record after termination ends the terminated state (R164). -/
def State.performPost (s : State) (a : Acc) (k : Nat) (p : Part) : Part × State :=
  let reads := a.parts.dropLast
  if a.failure?.isSome then ({ p with st := .done }, s)
  else if reads.all Part.answered then
    let q := tabGetD (s.rankOf a.rank).queues k ⟨[], [], false, none⟩
    if q.recs.length < 4096 then
      ({ p with st := .done }, s.modRank a.rank fun r =>
        { r with queues := tabSet r.queues k { q with recs := q.recs ++ [reads.flatMap (·.data)], terminated := false } })
    else (p, s)
  else (p, s)

/-- What part i of an access does when it performs (R206). -/
def State.performPart (s : State) (a : Acc) (i : Nat) (p : Part) : State :=
  let s := match a.acq with
    | some scope => if p.remote || !a.acqDue then s else s.acquireAt a.core scope
    | none => s
  let one (r : Part × State) : State := (r.2.replacePart a.id i [r.1]).settle a.id
  match a.kind with
  | .fence _ => one ({ p with st := .done }, s)
  | .winAdd int => one (s.performAdds a int p)
  | .load _ =>
    if p.remote then one (s.performRemote a i p)
    else
      let (l, s) := s.coreRead a p
      (s.replacePart a.id i l).settle a.id
  | .store =>
    if p.remote then one (s.performRemote a i p)
    else
      let (f, s) := s.homeWrite a.core a.rank a.manyCells p
      one (failPart p f, s)
  | .amo op wide b _ =>
    if p.remote then one (s.performRemote a i p)
    else
      let w := if wide then 64 else 32
      one (s.performAtomic a p fun old => some (amoNew op w old b.toNat))
  | .cas wide b c _ =>
    if p.remote then one (s.performRemote a i p)
    else
      let w := if wide then 64 else 32
      one (s.performAtomic a p fun old => if old = b.toNat % 2 ^ w then some (c.toNat % 2 ^ w) else none)
  | .expose =>
    if i = 0 then
      if p.remote then one (s.performRemote a i p)
      else
      let (l, s) := s.homeRead a p true
      (s.replacePart a.id i l).settle a.id
    else one (s.performExpose a p)
  | .post k =>
    if i + 1 < a.parts.length then
      if p.remote then one (s.performRemote a i p)
      else
      let (l, s) := s.homeRead a p true
      (s.replacePart a.id i l).settle a.id
    else one (s.performPost a k p)
  | .source =>
    let (l, s) := s.homeRead a p false
    s.replacePart a.id i l
  | .coll =>
    if a.relAt p && !(a.parts.all fun q => q.va == p.va || q.answered) then s
    else
      let (f, t) := s.homeWrite a.core a.rank a.manyCells p
      (t.l1Drop a.core p.pa).replacePart a.id i [failPart p f]
  | .wclose .. | .marker => s

/-- Where an access's part lies; an add whose address was not translated at issue, where its address leads now. -/
def State.placeOf (s : State) (a : Acc) (p : Part) : Nat :=
  if p.pa = 0 then ((s.walk a.rank p.firstVa).map (·.paOf p.firstVa)).getD 0 else p.pa

/-- An access that goes to a stack of the other die crosses the die link (R335, R398). -/
def State.crossDie (s : State) (core pa : Nat) : State :=
  if s.flips.isEmpty then s else if paHbm pa ∧ blockUnit (pa / 64) / 4 ≠ dieOf core then s.useLink 5 0 else s

/-- ACCESS_PERFORM: a part of an access performs, when nothing orders it behind an earlier operation of its context (R206, R210). -/
def State.accessPerform (s : State) (id i : Nat) : State :=
  match s.acc? id with
  | none => s
  | some a =>
    match a.parts[i]? with
    | none => s
    | some p =>
      let vf := (s.rankOf a.rank).vf
      let pa := s.placeOf a p
      if p.st = .waiting ∧ ¬ s.blocked a p ∧ ¬ (p.remote && s.portHeld vf (paDevice p.pa)) ∧ ¬ (p.en.any id && s.hbmHeld vf pa) then
        let s := s.crossDie a.core pa
        let t := (if a.writes && !a.readsAt i && !p.remote then s.keepBytes a.ctx a.first a.id p else s).performPart a i p
        if p.en.any id then t.spendHbm vf pa else t
      else s

end Sys2Proof.Machine
end

