-- ==== Sys2Proof/Machine/Latent.lean ====
section
/-! DEFINITION. Machine/Latent.lean: how a development ends (R238, R245, R246) and what its waiting reads receive (R243, R249). -/

namespace Sys2Proof.Machine

def State.cell? (s : State) (c : Nat) : Option Cell := tabGet s.cells c

/-- Answers the parts of an access that are parked at a cell: with the bytes the cell now holds, or with a failure at the cell's address as the access names it. -/
def State.answerParts (s : State) (rank c : Nat) (fail : Option Cause) (l : List Part) : List Part :=
  l.map fun p =>
    if p.st = .parked c then
      match fail with
      | some cause => { p with st := .failed cause (p.va + 64 * c - p.pa) }
      | none => { p with st := .done, data := s.homeBytes rank p }
    else p

/-- Answers every waiting read of a cell. A read that a FIX answers is an acquire at DEVICE scope (R213, R245). -/
def State.answerReaders (s : State) (c : Nat) (fail : Option Cause) : List Nat → State
  | [] => s
  | id :: l =>
    match s.acc? id with
    | none => s.answerReaders c fail l
    | some a =>
      let s1 := s.setAcc { a with parts := s.answerParts a.rank c fail a.parts, woken := fail.isNone || a.woken }
      let s1 := if fail.isNone then s1.acquireAt a.core .device else s1
      (s1.settle id).answerReaders c fail l

/-- What a command's read that waited at a cell is answered with: the bytes the cell now holds, or its failure (R243, R245, R249). -/
def State.answered (s : State) (c : Nat) (fail : Option Cause) (x : Cmd) : Cmd :=
  let here := x.parked.filter fun e => e.1 == c
  let x := { x with parked := x.parked.filter fun e => e.1 != c }
  match fail with
  | some cause => { x with refused := x.refused ++ here.map fun (_, va, _) => (va, cause, va / 64 * 64, false) }
  | none =>
    { x with fetched := x.fetched ++ here.flatMap fun (_, va, n) => (List.range n).map fun i => (va + i, s.homeByte x.rank (va + i) (64 * c + (va + i) % 64)) }

/-- Answers the commands whose read waited at a cell. One that a FIX answers is an acquire at DEVICE scope (R213, R245). -/
def State.answerCmds (s : State) (c : Nat) (fail : Option Cause) : List Nat → State
  | [] => s
  | id :: l =>
    let s1 := { s with cmds := s.cmds.map fun (x : Cmd) => if x.id = id then s.answered c fail x else x }
    let s2 := match s.cmds.find? fun (x : Cmd) => x.id == id with
      | some x => if fail.isNone then s1.acquireAt x.core .device else s1
      | none => s1
    s2.answerCmds c fail l

/-- The reply to a read by another device once every cell has answered: the bytes, or the failure of its lowest failing cell (R238, R408). -/
def WaitingRead.reply (w : WaitingRead) : PktBody :=
  match w.fail with
  | some (pa, cause) => .reply w.tag [] cause pa
  | none => .reply w.tag ((List.range w.en.length).map fun i => ((w.got.find? fun e => e.1 == w.pa + i).map (·.2)).getD 0) 0 0

/-- The enabled bytes of such a read that lie in a cell. -/
def WaitingRead.bytesIn (w : WaitingRead) (c : Nat) : List Nat :=
  ((List.range w.en.length).filter fun i => w.en.getD i false && (w.pa + i) / 64 == c).map (w.pa + ·)

def WaitingRead.failAt (w : WaitingRead) (pa cause : Nat) : WaitingRead :=
  { w with fail := match w.fail with | some e => if pa < e.1 then some (pa, cause) else some e | none => some (pa, cause) }

/-- A cell answers the reads by other devices that wait at it (R408); those that wait for no other cell get their reply. -/
def State.answerRemote (s : State) (c : Nat) (fail : Option Cause) : State :=
  let hit (w : WaitingRead) : WaitingRead :=
    if w.cells.contains c then
      let w := match fail with
        | some cause => w.failAt (64 * c) cause.code
        | none => { w with got := w.got ++ (w.bytesIn c).map fun a => (a, s.mem.get a) }
      { w with cells := w.cells.filter (· != c) }
    else w
  let l := s.remoteReads.map hit
  let t : State := { s with remoteReads := l.filter fun w => !w.cells.isEmpty }
  (l.filter fun w => w.cells.isEmpty).foldl (fun t w => (t.send ⟨w.dev, w.reply⟩).getD t) t

/-- A cell becomes VALUE with the bytes given, and its waiting reads are answered, in one instant (R245). -/
def State.cellFixed (s : State) (core pa : Nat) (data : List Byte) : State :=
  let c := pa / 64
  match s.cell? c with
  | none => s
  | some x =>
    let part : Part := ⟨x.va, pa, true, List.replicate 64 true, data, .waiting⟩
    let s : State := { s with cells := tabDel s.cells c }
    let s := ((s.soundBlocks part).storeBytes part).l1Update core pa part.en part.data
    ((s.answerReaders c none x.readers).answerCmds c none x.cmds).answerRemote c none

/-- Cells of compressed pages that a write touches: it develops them first and then performs (R377; in one instant, log 75). -/
def State.develop (s : State) (core : Nat) (p : Part) : State :=
  if p.lc then
    p.cellKeys.foldl (fun t c =>
      match (t.cell? c).bind (·.packed) with
      | some b => t.cellFixed core (64 * c) b
      | none => t) s
  else s

/-- The bytes of a FAULTED cell are undefined (R246; log 1). -/
def State.scrambleCell (s : State) (pa : Nat) : State :=
  let (n, s) := s.draw
  s.writeMem ((List.range 64).map fun i => (pa + i, Config.anyByte n i))

/-- A development fails: the cell becomes FAULTED, its waiting reads fail, a reader suspended for it resumes (R238, R241, R246). -/
def State.cellFailed (s : State) (c : Nat) : State :=
  match s.cell? c with
  | none => s
  | some x =>
    if x.tag = .developing then
      let s := s.scrambleCell (64 * c)
      let s := { s with cells := tabSet s.cells c { x with tag := .faulted, eval := none, placed := false, readers := [], cmds := [], inPlace := none, vacated := none } }
      ((s.answerReaders c (some .latentFaulted) x.readers).answerCmds c (some .latentFaulted) x.cmds).answerRemote c (some .latentFaulted)
    else s

/-- The cells a context develops fail when it ends without a FIX (R246). -/
def State.evalEnded (s : State) (k : Nat) : State :=
  match (s.ctx k).eval with
  | none => s
  | some e => if (s.cell? e.cell).bind (·.eval) = some k then s.cellFailed e.cell else s

end Sys2Proof.Machine
end

