-- ==== Sys2Proof/Machine/Memory.lean ====
section
/-! DEFINITION. Machine/Memory.lean: the L slot (R218 to R236, R240, R244, R245). A `hold` function says whether its operation holds the bundle, and gives the state in which it then waits (R152, R221). -/

namespace Sys2Proof.Machine

/-! ### Shared operations -/

/-- Bytes that SZ accesses (R56). -/
def szBytes (sz : Sz) : Nat :=
  match sz with
  | .i8 | .n8 => 1
  | .i16 | .n16 => 2
  | .i32 | .n32 => 4
  | .b64 => 8

/-- The checks on an address: its range, then its alignment (R218). -/
def State.checkAddr (s : State) (a : W64) (align : Nat) : Option State :=
  if 2 ^ 48 ≤ a.toNat then some (s.slotFault .translation a)
  else if a.toNat % align ≠ 0 then some (s.slotFault .misaligned a)
  else none

/-- A fault found while an access is translated. -/
def State.accTrap (s : State) (f : AccFail) : State := s.slotTrap f.cause (BitVec.ofNat 64 f.addr) f.task

/-- An access of n bytes at an address, made once its checks are met: it becomes outstanding (R220, R221). -/
def State.access (s : State) (op : Nat) (need : Need) (a : W64) (n align : Nat) (en : Nat → Bool) (data : Nat → Byte)
    (kind : AccKind) (cls : Cls) (acq : Option Scope) (rel : Bool) : Out :=
  match s.checkAddr a align with
  | some t => .next t
  | none =>
    match s.rangeParts need a.toNat n en data with
    | .fail f => .next (s.accTrap f)
    | .ok parts s => .next ((s.addAcc op kind cls acq rel parts).settle s.nextId)

/-- Byte i of a value. -/
def byteOf (x : Nat) (i : Nat) : Byte := BitVec.ofNat 8 (x / 2 ^ (8 * i))

/-- Every byte enabled. -/
def allBytes (_ : Nat) : Bool := true
def noData (_ : Nat) : Byte := 0

/-- A window byte of the context that lies in one of its spools (R258). -/
def Ctx.inSpool (c : Ctx) (x : Nat) : Bool := c.spools.any fun e => inSpan x (256 * e.2.base, 256 * e.2.size)

/-- Whether a slot's write of window bytes waits for a command of its context (R258). -/
def State.engineHolds (s : State) (bytes : List Nat) : Bool :=
  s.cmds.any fun c => c.ctx == s.cur &&
    bytes.any fun x => !s.cx.inSpool x && (s.spadLeft c false ++ s.spadLeft c true).any fun a => a.ctx == s.cur && inSpan x (a.addr, a.len)

/-- Bytes of a row under a mask. -/
def rowBytes (r : Nat) (mask : PReg) : List Nat := ((List.range 256).filter fun j => mask.getLsbD j).map (256 * r + ·)

/-! ### Loads and stores (R222, R223) -/

def execLnop (s : State) : Out := .next s

def execLd (x : Ext) (g a : GR) (sz : Sz) (o : BitVec 12) (s : State) : Out :=
  s.access 0x01 .read (s.address a 12 x o.toNat) (szBytes sz) (szBytes sz) allBytes noData (.load (.g g sz)) .ld none false

def execSt (x : Ext) (g a : GR) (sz : Sz) (o : BitVec 12) (s : State) : Out :=
  s.access 0x02 .write (s.address a 12 x o.toNat) (szBytes sz) (szBytes sz) allBytes (byteOf (s.rg g).toNat) .store .st none false

def execVld (x : Ext) (v : VR) (a : GR) (p : PR) (o : BitVec 12) (s : State) : Out :=
  s.access 0x03 .read (s.address a 12 x o.toNat) 256 1 (fun i => (s.cx.rp p).getLsbD i) noData (.load (.v v (s.cx.rp p))) .ld none false

def execVst (x : Ext) (v : VR) (a : GR) (p : PR) (o : BitVec 12) (s : State) : Out :=
  s.access 0x04 .write (s.address a 12 x o.toNat) 256 1 (fun i => (s.cx.rp p).getLsbD i) (byteOf (s.rv v 8).toNat) .store .st none false

def execLda (x : Ext) (g a : GR) (sz : Sz) (scope : Scope) (o : BitVec 10) (s : State) : Out :=
  s.access 0x09 .read (s.address a 10 x o.toNat) (szBytes sz) (szBytes sz) allBytes noData (.load (.g g sz)) .ld (some scope) false

def execStl (x : Ext) (g a : GR) (sz : Sz) (_scope : Scope) (o : BitVec 10) (s : State) : Out :=
  s.access 0x0A .write (s.address a 10 x o.toNat) (szBytes sz) (szBytes sz) allBytes (byteOf (s.rg g).toNat) .store .st none true

/-! ### Moves between registers and the window (R224, R225) -/

def execVlds (v : VR) (w : AR) (m : Bool) (p : PR) (s : State) : Out :=
  match s.row? w with
  | none => .next (s.slotFault .permission ((s.walker w).setWidth 64))
  | some r => .next ((s.emit 3 (.v v (spreadBytes (s.cx.rp p)) (s.cx.readRow r))).mark w m)

def holdVsts (w : AR) (p : PR) (s : State) : Option State :=
  match s.row? w with
  | none => none
  | some r => if s.engineHolds (rowBytes r (s.cx.rp p)) then some s else none

def execVsts (v : VR) (w : AR) (m : Bool) (p : PR) (s : State) : Out :=
  match holdVsts w p s with
  | some t => .next t
  | none =>
    match s.row? w with
    | none => .next (s.slotFault .permission ((s.walker w).setWidth 64))
    | some r => .next ((s.emit 1 (.window (rowCells r (s.cx.rp p) (s.rv v 8)))).mark w m)

/-- The faults of SPLD and SPST: range, then alignment (R225). -/
def State.spadFault (s : State) (w : AR) (sz : Sz) : Option State :=
  let a := (s.walker w).toNat
  if 256 * s.cx.rows ≤ a then some (s.slotFault .permission (BitVec.ofNat 64 a))
  else if a % (szBytes sz) ≠ 0 then some (s.slotFault .misaligned (BitVec.ofNat 64 a))
  else none

def execSpld (g : GR) (w : AR) (m : Bool) (sz : Sz) (s : State) : Out :=
  match s.spadFault w sz with
  | some t => .next t
  | none => .next ((s.emit 3 (.g g (szExtend sz (s.cx.window.readLE (s.walker w).toNat (szBytes sz))))).mark w m)

def holdSpst (w : AR) (sz : Sz) (s : State) : Option State :=
  match s.spadFault w sz with
  | some _ => none
  | none => if s.engineHolds ((List.range (szBytes sz)).map ((s.walker w).toNat + ·)) then some s else none

def execSpst (g : GR) (w : AR) (m : Bool) (sz : Sz) (s : State) : Out :=
  match holdSpst w sz s with
  | some t => .next t
  | none =>
    match s.spadFault w sz with
    | some t => .next t
    | none => .next ((s.emit 1 (.window (cellsAt (s.walker w).toNat (leBytes (szBytes sz) (s.rg g).toNat)))).mark w m)

/-! ### Atomics (R226 to R228) -/

def wideBytes (wide : Bool) : Nat := if wide then 8 else 4

def execAmo (g a b : GR) (op : Aop) (sc : Bool) (scope : Scope) (wide : Bool) (s : State) : Out :=
  s.access 0x0B .write (s.rg a) (wideBytes wide) (wideBytes wide) allBytes noData (.amo op wide (s.rg b) g)
    (if g = 0 then .st else .ld) (if sc then some scope else none) sc

def execCas (g a b c : GR) (sc : Bool) (scope : Scope) (wide : Bool) (s : State) : Out :=
  s.access 0x0C .write (s.rg a) (wideBytes wide) (wideBytes wide) allBytes noData (.cas wide (s.rg b) (s.rg c) g)
    (if g = 0 then .st else .ld) (if sc then some scope else none) sc

/-! ### Exact windows (R229 to R231, R202, R203) -/

def execAmow (a b : GR) (s : State) : Out :=
  s.access 0x0D .write (s.rg a) 4 4 allBytes (byteOf (s.rg b).toNat) (.winAdd false) .st none false

/-- B(w): 16 KiB blocks of virtual addresses that a window touches (R203). -/
def winBlocks (base count : Nat) : Nat := (base + 4 * count - 1) / 16384 - base / 16384 + 1

/-- Whether the WOPEN of a window is still clearing it (R230). -/
def Win.opening (w : Win) : Bool := decide (w.cleared < w.count)

/-- The conditions of R203 for a new window of a rank; one that its own WOPEN is clearing does not count against it. -/
def State.windowFits (s : State) (rank base count : Nat) : Bool :=
  let mine := s.wins.filter fun w => w.rank == rank && !(w.opener.1 == s.cur && w.opening)
  decide ((mine.map fun w => winBlocks w.base w.count).sum + winBlocks base count ≤ (s.rankOf rank).wallow)
    && decide (mine.length < 64)
    && !(mine.any fun w => spansMeet (w.base, 4 * w.count) (base, 4 * count))

/-- The 64 KiB pieces of a range: address and length. -/
def pagePieces : Nat → Nat → Nat → List (Nat × Nat)
  | 0, _, _ => []
  | fuel + 1, va, len =>
    if len = 0 then []
    else
      let n := min len (65536 - va % 65536)
      (va, n) :: pagePieces fuel (va + n) (len - n)

inductive PagesRes where
  | ok (l : List (Nat × Nat × Nat)) (s : State)
  | fail (f : AccFail)

/-- Translates every page of a range for writing; a page of another device is refused (R230). -/
def State.windowPages (s : State) : List (Nat × Nat) → PagesRes
  | [] => .ok [] s
  | (va, n) :: l =>
    match s.translate s.cx.coreNum s.cx.rank va .write with
    | .fail f => .fail ⟨f.cause, va, f.curable⟩
    | .ok pa _ s1 =>
      if paRemote pa then .fail ⟨.permission, va, false⟩
      else
        match State.windowPages s1 l with
        | .fail f => .fail f
        | .ok ps s2 => .ok ((va, pa, n) :: ps) s2

/-- Whether the clearing of a line must wait for an earlier access of the present context. -/
def State.lineWaits (s : State) (va : Nat) : Bool :=
  s.mustWait .store none false [⟨va, ((s.walk s.cx.rank va).map (·.paOf va)).getD 0, false, List.replicate 128 true, [], .waiting⟩]

/-- What a WOPEN meets: a fault, or the pages of its range. -/
inductive WopenRes where
  | fault (t : State)
  | pages (l : List (Nat × Nat × Nat)) (t : State)

def State.wopenCheck (s : State) (a b : GR) : WopenRes :=
  match s.checkAddr (s.rg a) 128 with
  | some t => .fault t
  | none =>
    let c := (s.rg b).toNat
    if c % 32 ≠ 0 ∨ c < 32 ∨ 524288 < c then .fault (s.slotFault .windowFull (s.rg a))
    else
      match s.windowPages (pagePieces (c / 16384 + 3) (s.rg a).toNat (4 * c)) with
      | .fail f => .fault (s.accTrap f)
      | .ok l t =>
        if s.windowFits s.cx.rank (s.rg a).toNat c then .pages l t else .fault (s.slotFault .windowFull (s.rg a))

/-- The virtual function of a context's rank. -/
def State.vfOf (s : State) (k : Nat) : Nat := (s.rankOf (s.ctx k).rank).vf

/-- Home slices of the lines of some pages (R189). -/
def slicesOf (l : List (Nat × Nat × Nat)) : List Nat :=
  (l.flatMap fun p => (List.range (min 256 ((p.2.2 + 127) / 128))).map fun i => homeSlice (p.2.1 + 128 * i)).eraseDups

/-- A slice's budget holds the clearing of a WOPEN (R323, log 63). -/
def State.slicesHeld (s : State) (v : Nat) (l : List (Nat × Nat × Nat)) : Bool :=
  (s.vf v).budget .slice != 0 && (slicesOf l).any fun i => (s.vf v).spent .slice i

/-- Each slice counts one clearing of a WOPEN. -/
def State.spendSlices (s : State) (v : Nat) (l : List (Nat × Nat × Nat)) : State :=
  if (s.vf v).budget .slice = 0 then s else (slicesOf l).foldl (fun s i => s.spend v .slice i 1) s

def Ctx.heldAt (c : Ctx) (slot : Nat) : Option Held := tabGet c.held slot
def State.setHeld (s : State) (h : Held) : State := s.modCx fun c => { c with held := tabSet c.held s.issue.slot h }
def State.clearHeld (s : State) : State := s.modCx fun c => { c with held := tabDel c.held s.issue.slot }

/-- The window that the present context's held WOPEN is clearing, by position in the list. -/
def State.openingIx? (s : State) : Option Nat := s.wins.findIdx? fun w => w.opener.1 == s.cur && w.opening

/-- The window that a WOPEN of some pages opens, with nothing cleared yet. -/
def State.newWin (s : State) (a b : GR) (l : List (Nat × Nat × Nat)) : Win :=
  ⟨s.cx.rank, (s.rg a).toNat, (s.rg b).toNat, false, (s.cur, s.issue.first), 0, 0, l, []⟩

/-- A WOPEN clears the next line of its window: a write at the line's home slice (R202, R206, R230), behind which its core's L1 does not hold the line and a guard ends (R363). -/
def State.clearLine (s : State) (i : Nat) : State :=
  match s.wins[i]? with
  | none => s
  | some w =>
    let pa := w.placeOf (w.base + 4 * w.cleared)
    { (s.l1Drop s.cx.coreNum pa).unguard pa 128 with wins := s.wins.modify i fun w => { w with cleared := w.cleared + 32, opener := (s.cur, s.issue.first) } }

/-- A WOPEN that holds its bundle: it waits for its virtual function's slice budget (R323), and line by line for the accesses it follows (R209, R210); each line is cleared at an instant of its own, the last one at the issue (R206, R230). -/
def holdWopen (a b : GR) (s : State) : Option State :=
  match s.wopenCheck a b with
  | .fault _ => none
  | .pages l t =>
    match s.openingIx? with
    | none =>
      if s.slicesHeld (s.vfOf s.cur) l || s.lineWaits (s.rg a).toNat then some s
      else if (s.rg b).toNat ≤ 32 then none
      else
        let u : State := { t.spendSlices (t.vfOf t.cur) l with wins := s.wins ++ [s.newWin a b l] }
        some ((u.clearLine s.wins.length).setHeld .opening)
    | some i =>
      let n := ((s.wins[i]?).map (·.cleared)).getD 0
      if s.lineWaits ((s.rg a).toNat + 4 * n) then some s
      else if (s.rg b).toNat ≤ n + 32 then none
      else some (s.clearLine i)

def execWopen (a b : GR) (s : State) : Out :=
  match holdWopen a b s with
  | some t => .next t
  | none =>
    match s.wopenCheck a b with
    | .fault t => .next t
    | .pages l t =>
      match s.openingIx? with
      | none => .next (State.clearLine { t.spendSlices (t.vfOf t.cur) l with wins := s.wins ++ [s.newWin a b l] } s.wins.length)
      | some i => .next (t.clearLine i).clearHeld

def execWclose (a : GR) (s : State) : Out :=
  match s.wins.findIdx? fun w => w.rank == s.cx.rank && w.base == (s.rg a).toNat && !w.closing && !w.opening with
  | none => .next (s.slotFault .permission (s.rg a))
  | some i =>
    let n := ((s.wins[i]?).map (·.count)).getD 0
    .next (({ s with wins := s.wins.modify i fun w => { w with closing := true } }).addAcc 0x0F (.wclose (s.rg a).toNat n) .tl none false [Part.none])

/-! ### Ordering and waiting (R232, R216, R233) -/

def execFence (scope : Scope) (kind : FenceKind) (s : State) : Out :=
  .next (s.addAcc 0x10 (.fence kind) .none (match kind with | .release => none | _ => some scope)
    (match kind with | .acquire => false | _ => true) [Part.none])

/-- An access to another device's memory that is outstanding, loads until their value is written (R216). -/
def State.remoteOpen (s : State) (k : Nat) : Bool :=
  (s.accs.any fun a => a.ctx == k && a.parts.any fun p => p.remote && (!p.answered || a.returnsValue))
    || (s.remote.any fun e => e.2.forCmd && s.cmds.any fun c => c.id == e.2.owner && c.ctx == k)
    || (s.cmds.any fun c => c.ctx == k && s.cmdRemoteLeft c)

def holdDrain (s : State) : Option State := if s.remoteOpen s.cur then some s else none

def execDrain (s : State) : Out := .next ((holdDrain s).getD s)

/-- The word of a WAITM, or its fault. -/
inductive WordRes where
  | fault (t : State)
  | word (p : Part) (t : State)

def State.waitmWord (s : State) (a : GR) : WordRes :=
  match s.checkAddr (s.rg a) 8 with
  | some t => .fault t
  | none =>
    match s.rangeParts .read (s.rg a).toNat 8 allBytes noData with
    | .fail f => .fault (s.accTrap f)
    | .ok parts t =>
      match parts with
      | p :: _ => if p.remote ∨ (s.winIx? s.cx.rank p.va).isSome then .fault (s.slotFault .permission (s.rg a)) else .word p t
      | [] => .fault s

/-- The value a WAITM waits for: B at the bundle's first attempt (R233). -/
def State.waitmBound (s : State) (b : GR) : W64 :=
  match s.cx.heldAt s.issue.slot with
  | some (.waitm x _) => x
  | _ => s.rg b

/-- The watch that a held WAITM keeps at its word. -/
def State.watch? (s : State) : Option Watch :=
  match s.cx.heldAt s.issue.slot with
  | some (.waitm _ (some id)) => s.watches.find? fun w => w.id == id
  | _ => none

/-- A WAITM arrives at the home slice of its word, which does not satisfy it, and is tested again after each write to it (R233). -/
def State.arrive (s : State) (pa : Nat) (b : W64) : State :=
  let (id, s) := s.takeId
  State.setHeld { s with watches := s.watches ++ [⟨id, s.cur, pa, b, none⟩] } (.waitm b (some id))

/-- The word that satisfies a WAITM: the one that a test has found, or the present one when it arrives. -/
def State.waitmWordNow (s : State) (p : Part) : W64 := (s.watch?.bind (·.got)).getD (BitVec.ofNat 64 (s.mem.readLE p.pa 8))

def holdWaitm (a b : GR) (s : State) : Option State :=
  match s.waitmWord a with
  | .fault _ => none
  | .word p _ =>
    match s.watch? with
    | some w => if w.got.isSome then none else some s
    | none =>
      let x := s.waitmBound b
      let t := s.setHeld (.waitm x none)
      if s.mustWait (.load .none) none false [p] then some t
      else if (s.checkBlocks p.blocks).isNone then some (t.boundaryFailure s.cur .integrity (s.rg a).toNat)
      else if s.satisfies ⟨0, s.cur, p.pa, x, none⟩ then none
      else some (t.arrive p.pa x)

def execWaitm (g a b : GR) (scope : Scope) (s : State) : Out :=
  match holdWaitm a b s with
  | some t => .next t
  | none =>
    match s.waitmWord a with
    | .fault t => .next t
    | .word p t =>
      let t := ((t.checkBlocks p.blocks).getD t).l1Drop s.cx.coreNum p.pa
      let t : State := { t with watches := t.watches.filter fun w => w.ctx != s.cur }
      .next (((t.emit 1 (.g g (s.waitmWordNow p))).acquireAt s.cx.coreNum scope).clearHeld)

/-! ### Cache hints (R234, R235) -/

/-- A prefetch: the line of an address, when its page is mapped readable, may enter L1, as a read of it could fill it (R250, R397); nothing else changes (R199). It walks and installs whenever the TLB misses, where the spec lets it (DESIGN CHOICE, log 74). -/
def execPrefd (x : Ext) (a : GR) (l2 : Bool) (o : BitVec 12) (s : State) : Out :=
  let va := (s.address a 12 x o.toNat).toNat
  match s.lookup s.cx.coreNum s.cx.rank va with
  | none => .next s
  | some (e, t) =>
    if va < 2 ^ 48 ∧ e.bit bitRD ∧ l2 = false ∧ ¬ paRemote (e.paOf va) then
      let pa := e.paOf va
      let (n, t) := t.draw
      .next (if Config.fillsL1 n && (t.l1Line s.cx.coreNum pa).isNone then t.l1Take s.cx.coreNum s.cx.rank va pa (Config.victim n) else t)
    else .next (if va < 2 ^ 48 then t else s)

/-- Drops the lines of an address range from L1 by the translations that the core uses (R198, R221, R235); an address without one is passed over. -/
def State.dropLines (s : State) (core rank : Nat) : List (Nat × Nat) → State
  | [] => s
  | (va, _) :: l =>
    match s.lookup core rank va with
    | some (e, t) => (t.l1Drop core (e.paOf va)).dropLines core rank l
    | none => s.dropLines core rank l

def execClean (x : Ext) (n a : GR) (o : BitVec 12) (s : State) : Out :=
  let len := (s.rg n).toNat
  let va := (s.address a 12 x o.toNat).toNat
  if 1048576 < len then .next (s.l1DropAll s.cx.coreNum)
  else .next (s.dropLines s.cx.coreNum s.cx.rank (linePieces (len / 128 + 3) va (max len 1)))

/-! ### Latent cells (R240, R244, R245) -/

/-- The checks of EXPOSE and FIX on A and B in order (R240): `lc` adds those that EXPOSE alone makes. -/
inductive CellRes where
  | fault (t : State)
  | ok (cell record : Part) (t : State)

def State.cellCheck (s : State) (a b : W64) (lc : Bool) : CellRes :=
  if a.toNat % 64 ≠ 0 then .fault (s.slotFault .misaligned a)
  else if b.toNat % 64 ≠ 0 then .fault (s.slotFault .misaligned b)
  else
    match s.rangeParts .write a.toNat 64 allBytes noData with
    | .fail f => .fault (s.accTrap { f with addr := a.toNat })
    | .ok l s1 =>
      match l with
      | [] => .fault s
      | p :: _ =>
        if lc && !p.remote && !p.lc then .fault (s.slotTrap .permission a .faultRecord)
        else if p.remote then .fault (s.slotFault .permission a)
        else
          match s1.rangeParts .read b.toNat 64 allBytes noData with
          | .fail f => .fault (s.accTrap { f with addr := b.toNat })
          | .ok m s2 =>
            match m with
            | [] => .fault s
            | q :: _ => .ok p q s2

def execExpose (a b : GR) (s : State) : Out :=
  match s.cellCheck (s.rg a) (s.rg b) true with
  | .fault t => .next t
  | .ok p q t => .next (t.addAcc 0x14 .expose .st none false [q, p])

/-- Whether the present context is the evaluator of the cell at a physical address; in a page with LC clear every cell is VALUE (R237). -/
def State.ownsCell (s : State) (p : Part) : Bool :=
  p.lc && match s.cell? (p.pa / 64) with
  | some x => x.tag == .developing && x.eval == some s.cur
  | none => false

/-- The read that a held bundle makes once (R152): made at the first attempt, then awaited. It gives the bytes, or says that the bundle goes on being held; a read that fails raises its cause at the boundary (R297). -/
inductive HeldRead where
  | wait (t : State)
  | bytes (l : List Byte) (t : State)

def State.heldRead (s : State) (op : Nat) (parts : List Part) (addr : Nat) : HeldRead :=
  let fresh := ((s.addAcc op (.load .none) .none none false parts).setHeld (.read s.nextId))
  match s.cx.heldAt s.issue.slot with
  | some (.read id) =>
    match s.acc? id with
    | none => .wait fresh
    | some acc =>
      match acc.failure? with
      | some (cause, _) =>
        if acc.parts.all Part.answered then
          let t := (s.dropAcc id).clearHeld
          .wait (t.boundaryFailure s.cur cause addr)
        else .wait s
      | none => if acc.parts.all Part.answered then .bytes acc.bytes ((s.dropAcc id).clearHeld) else .wait s
  | _ => .wait fresh

/-- Whether a held read has been made and answered with its bytes. -/
def State.heldBytes? (s : State) : Option (List Byte × Nat) :=
  match s.cx.heldAt s.issue.slot with
  | some (.read id) =>
    match s.acc? id with
    | some acc => if acc.parts.all Part.answered ∧ acc.failure?.isNone then some (acc.bytes, id) else none
    | none => none
  | _ => none

def holdFix (a b : GR) (s : State) : Option State :=
  match s.cellCheck (s.rg a) (s.rg b) false with
  | .fault _ => none
  | .ok p q t =>
    match s.heldBytes? with
    | some _ => if s.ownsCell p ∧ s.mustWait .store none true [p] then some s else none
    | none =>
      match t.heldRead 0x15 [q] (s.rg b).toNat with
      | .wait u => some u
      | .bytes _ _ => none

def execFix (a b : GR) (s : State) : Out :=
  match holdFix a b s with
  | some t => .next t
  | none =>
    match s.cellCheck (s.rg a) (s.rg b) false with
    | .fault t => .next t
    | .ok p _ t =>
      match s.heldBytes? with
      | none => .next s
      | some (l, id) =>
        let t := (t.dropAcc id).clearHeld
        if s.ownsCell p then .next (State.cellFixed { t with issue := { t.issue with fixed := some (p.pa / 64) } } s.cx.coreNum p.pa l) else .next (t.slotFault .permission (s.rg a))

/-- The cell of an LDREC, or its fault, in the order of R244. -/
def State.ldrecCell (s : State) (a : GR) : WordRes :=
  if (s.rg a).toNat % 64 ≠ 0 then .fault (s.slotFault .misaligned (s.rg a))
  else
    match s.rangeParts .read (s.rg a).toNat 64 allBytes noData with
    | .fail f => .fault (s.accTrap { f with addr := (s.rg a).toNat })
    | .ok l t =>
      match l with
      | [] => .fault s
      | p :: _ => if s.ownsCell p then .word p t else .fault (s.slotFault .permission (s.rg a))

/-- LDREC waits for the accesses it follows; an uncorrectable block raises INTEGRITY at the boundary (R297, R305). -/
def holdLdrec (a : GR) (s : State) : Option State :=
  match s.ldrecCell a with
  | .fault _ => none
  | .word p _ =>
    if s.mustWait (.load .none) none false [p] then some s
    else if (s.checkBlocks p.blocks).isNone then some (s.boundaryFailure s.cur .integrity (s.rg a).toNat)
    else none

def execLdrec (g a b : GR) (s : State) : Out :=
  match holdLdrec a s with
  | some t => .next t
  | none =>
    match s.ldrecCell a with
    | .fault t => .next t
    | .word p t =>
      let t := (t.checkBlocks p.blocks).getD t
      .next (t.emit 1 (.g g (BitVec.ofNat 64 (s.mem.readLE (p.pa + 8 * ((s.rg b).toNat % 8)) 8))))

end Sys2Proof.Machine
end

