-- ==== Sys2Proof/Machine/Groups.lean ====
section
/-! DEFINITION. Machine/Groups.lean: groups and barriers (R156 to R159), continuation queues (R160 to R164). -/

namespace Sys2Proof.Machine

/-! ### Group records (R156, R158) -/

def Group.isAt (x : Group) (rank num : Nat) : Bool := x.rank == rank && x.num == num
def State.group? (s : State) (rank num : Nat) : Option Group := s.groups.find? fun x => x.isAt rank num
/-- A record stays occupied while it has a member or a pending barrier (R156). -/
def Group.occupied (x : Group) : Bool := !x.members.isEmpty || !x.next.isEmpty || x.required.isSome
def State.setGroup (s : State) (x : Group) : State :=
  let rest := s.groups.filter fun y => !y.isAt x.rank x.num
  { s with groups := if x.occupied then x :: rest else rest }
def Group.has (x : Group) (k : Nat) : Bool := x.members.contains k || x.next.contains k

/-- The group that a CG word names (R157). -/
def State.groupNum (s : State) (a : GR) (g : BitVec 10) : Nat := ((s.rg a).toNat + g.toNat) % 1024

/-- A context leaves a group (R158): a required member counts as having arrived. -/
def Group.leave (x : Group) (k : Nat) : Group :=
  { x with
    members := x.members.filter (· != k), next := x.next.filter (· != k), nextArrived := x.nextArrived.filter (· != k)
    arrived := match x.required with
      | some req => if req.contains k && !x.arrived.contains k then k :: x.arrived else x.arrived
      | none => x.arrived }

/-- Whether a GJOIN faults QUOTA (R157). -/
def State.joinRefused (s : State) (rank g k : Nat) : Bool :=
  match s.group? rank g with
  | some x => !x.has k && (decide (512 ≤ x.members.length + x.next.length) || decide (8 ≤ (s.groups.filter fun y => y.rank == rank && y.has k).length))
  | none => decide (8 ≤ (s.groups.filter fun y => y.rank == rank && y.has k).length) || decide (1024 ≤ s.groups.length)

def execGjoin (a : GR) (g : BitVec 10) (s : State) : Out :=
  let n := s.groupNum a g
  let rank := s.cx.rank
  if s.joinRefused rank n s.cur then .next (s.slotFault .quota 0)
  else
    match s.group? rank n with
    | none => .next (s.setGroup ⟨rank, n, 0, [s.cur], [], none, [], []⟩)
    | some x =>
      if x.has s.cur then .next s
      else if x.required.isSome then .next (s.setGroup { x with next := x.next ++ [s.cur] })
      else .next (s.setGroup { x with members := x.members ++ [s.cur] })

def execGleave (a : GR) (g : BitVec 10) (s : State) : Out :=
  match s.group? s.cx.rank (s.groupNum a g) with
  | none => .next s
  | some x => .next (if x.has s.cur then s.setGroup (x.leave s.cur) else s)

/-- An arrival at the barrier of the phase, or of the next one for a joiner (R158). -/
def Group.arrive (x : Group) (k : Nat) : Group :=
  if x.next.contains k then { x with nextArrived := x.nextArrived ++ [k] }
  else { x with required := some (x.required.getD x.members), arrived := x.arrived ++ [k] }

/-- The phase whose barrier a member's arrival belongs to. -/
def Group.phaseOf (x : Group) (k : Nat) : Nat := if x.next.contains k then x.phase + 1 else x.phase

/-- GBAR: a member first waits for its earlier accesses, the arrival being a release; it then arrives once and is held until the barrier completes (R158, R213). -/
def holdGbar (a : GR) (g : BitVec 10) (s : State) : Option State :=
  match s.cx.heldAt s.issue.slot with
  | some .released => none
  | some (.barrier _ _) => some s
  | _ =>
    match s.group? s.cx.rank (s.groupNum a g) with
    | none => none
    | some x =>
      if x.has s.cur then
        if s.mustWait (.fence .full) (some .device) true [] then some s
        else some ((s.setGroup (x.arrive s.cur)).setHeld (.barrier (s.groupNum a g) (x.phaseOf s.cur)))
      else none

def execGbar (a : GR) (g : BitVec 10) (s : State) : Out :=
  match holdGbar a g s with
  | some t => .next t
  | none =>
    match s.cx.heldAt s.issue.slot with
    | some .released => .next ((s.acquireAt s.cx.coreNum .device).clearHeld)
    | _ => .next s

def execGcnt (d a : GR) (g : BitVec 10) (s : State) : Out :=
  let n := match s.group? s.cx.rank (s.groupNum a g) with
    | some x => x.members.length + x.next.length
    | none => 0
  .next (s.emit 1 (.g d (BitVec.ofNat 64 n)))

/-- Changes what held bundles have asked for, those that a trap has set aside among them. -/
def Ctx.mapHeld (c : Ctx) (f : Held → Held) : Ctx :=
  let go (t : Tab Held) : Tab Held := t.map fun e => (e.1, f e.2)
  { c with held := go c.held, saveU := c.saveU.map (fun v => { v with held := go v.held }), saveS := c.saveS.map fun v => { v with held := go v.held } }

/-- Releases the arrivals that the completed barrier of a phase held; one at the next phase's barrier stays (R158). -/
def State.releaseAll (s : State) (g phase : Nat) : List Nat → State
  | [] => s
  | k :: l =>
    (s.modCtx k fun c => c.mapHeld fun h => if h = .barrier g phase then .released else h).releaseAll g phase l

/-- The group moves to its next phase; a barrier that joiners have already arrived at is pending there (R158). -/
def Group.nextPhase (x : Group) : Group :=
  let m := x.members ++ x.next
  { x with phase := x.phase + 1, members := m, next := [], required := if x.nextArrived.isEmpty then none else some m, arrived := x.nextArrived, nextArrived := [] }

/-- BARRIER_COMPLETE: every context of the required set has arrived. -/
def execBarrierComplete (rank g : Nat) (s : State) : Out :=
  match s.group? rank g with
  | none => .next s
  | some x =>
    match x.required with
    | none => .next s
    | some req =>
      if req.all x.arrived.contains then .next ((s.setGroup x.nextPhase).releaseAll g x.phase req) else .next s

/-- A context that ends leaves every group it belongs to (R157). -/
def State.leaveGroups (s : State) (k : Nat) : State :=
  (s.groups.filter fun x => x.has k).foldl (fun s x => s.setGroup (x.leave k)) s

/-! ### Continuation queues (R160 to R164) -/

def State.queue (s : State) (rank k : Nat) : Queue := tabGetD (s.rankOf rank).queues k ⟨[], [], false, none⟩
def State.setQueue (s : State) (rank k : Nat) (q : Queue) : State := s.modRank rank fun r => { r with queues := tabSet r.queues k q }

/-- The 64 bytes that a QPOST reads or a QTAKE writes, or the fault (R161); an address both misaligned and out of range is MISALIGNED (DESIGN CHOICE, log 69). -/
inductive RecRes where
  | fault (t : State)
  | parts (l : List Part) (t : State)

def State.recordAt (s : State) (a : W64) (need : Need) : RecRes :=
  if a.toNat % 64 ≠ 0 then .fault (s.slotFault .misaligned a)
  else if 2 ^ 48 ≤ a.toNat then .fault (s.slotFault .translation a)
  else
    match s.rangeParts need a.toNat 64 allBytes noData with
    | .fail f => .fault (s.accTrap { f with addr := a.toNat })
    | .ok l t => .parts l t

def holdQpost (a : GR) (k : QR) (s : State) : Option State :=
  match s.recordAt (s.rg a) .read with
  | .fault _ => none
  | .parts _ _ => if 4096 ≤ (s.queue s.cx.rank k.toNat).recs.length then some s else none

def execQpost (a : GR) (k : QR) (s : State) : Out :=
  match holdQpost a k s with
  | some t => .next t
  | none =>
    match s.recordAt (s.rg a) .read with
    | .fault t => .next t
    | .parts l t => .next (t.addAcc 0x0C (.post k.toNat) .st none true (l ++ [Part.none]))

/-- A context becomes a taker of a queue at its first QTAKE on it (R164). -/
def State.beTaker (s : State) (k : Nat) : State :=
  let q := s.queue s.cx.rank k
  if q.takers.contains s.cur then s else s.setQueue s.cx.rank k { q with takers := q.takers ++ [s.cur] }

/-- A record for another device's memory: its write is sent, and it stays at the head, kept for this take, until that has performed (R163). -/
def State.sendRecord (s : State) (k : Nat) (l : List Part) : State :=
  let q := s.queue s.cx.rank k
  match q.recs with
  | [] => s
  | r :: _ =>
    let l := l.map fun p => { p with data := r }
    ((s.setQueue s.cx.rank k { q with taking := some s.cur }).addAcc 0x0D .store .none none false l).setHeld (.read s.nextId)

def holdQtake (a : GR) (k : QR) (s : State) : Option State :=
  match s.recordAt (s.rg a) .write with
  | .fault _ => none
  | .parts l t =>
    let q := s.queue s.cx.rank k.toNat
    match s.cx.heldAt s.issue.slot with
    | some .sentinel => none
    | some (.read id) =>
      match s.acc? id with
      | some acc => if acc.parts.all Part.answered then none else some s
      | none => none
    | _ =>
      if q.recs.isEmpty then (if q.terminated then none else some ((s.beTaker k.toNat).setHeld (.taker k.toNat)))
      else if q.taking.isSome then some (s.beTaker k.toNat)
      else if s.mustWait .store none false l then some s
      else if l.any Part.remote then some ((t.beTaker k.toNat).sendRecord k.toNat l)
      else none

/-- A store of the present issue whose bytes a later slot's write covers at once performs with it and is not seen (R209). -/
def State.coverStores (s : State) (p : Part) : State :=
  { s with accs := s.accs.map fun a =>
      if a.ctx == s.cur && a.first == s.issue.first && a.kind == .store then
        { a with parts := a.parts.map fun q => { q with en := q.en.zipIdx.map fun (e, i) => e && !p.has p.va (q.va + i) } }
      else a }

/-- Takes the oldest record: its write to A performs first, at the issue, and leaves what the issue's own load has still to read (R208); a write that fails leaves the record where it was (R163). -/
def State.takeRecord (s : State) (k : Nat) (a : W64) (d : GR) (l : List Part) : State :=
  let q := s.queue s.cx.rank k
  match q.recs, l with
  | r :: rest, p :: _ =>
    match ((s.keepBytes s.cur s.issue.first 0 p).coverStores p).homeWrite s.cx.coreNum s.cx.rank false { p with data := r } with
    | (some (cause, _), _) => s.slotFault cause a
    | (none, t) => ((t.setQueue s.cx.rank k { q with recs := rest }).acquireAt s.cx.coreNum .device).emit 1 (.g d 0)
  | _, _ => s.emit 1 (.g d (BitVec.allOnes 64))

def execQtake (a d : GR) (k : QR) (s : State) : Out :=
  match holdQtake a k s with
  | some t => .next t
  | none =>
    match s.recordAt (s.rg a) .write with
    | .fault t => .next t
    | .parts l t =>
      let t := t.beTaker k.toNat
      match s.cx.heldAt s.issue.slot with
      | some .sentinel => .next ((t.emit 1 (.g d (BitVec.allOnes 64))).clearHeld)
      | some (.read id) =>
        match s.acc? id with
        | none => .next t.clearHeld
        | some acc =>
          let u := (t.dropAcc id).clearHeld
          let q := u.queue s.cx.rank k.toNat
          match acc.failure? with
          | none => .next (((u.setQueue s.cx.rank k.toNat { q with recs := q.recs.tail, taking := none }).acquireAt s.cx.coreNum .device).emit 1 (.g d 0))
          | some (cause, _) => .next ((u.setQueue s.cx.rank k.toNat { q with taking := none }).slotFault cause (s.rg a))
      | _ => .next (t.takeRecord k.toNat (s.rg a) d l).clearHeld

/-- Whether a context is held in a QTAKE on a queue; an evicted one still counts (R164, R311). -/
def Ctx.heldOn (c : Ctx) (k : Nat) : Bool :=
  (c.held ++ ((c.saveU.map (·.held)).getD []) ++ ((c.saveS.map (·.held)).getD [])).any fun e => e.2 == .taker k

/-- Gives the sentinel to a context held on a queue. -/
def Ctx.giveSentinel (c : Ctx) (k : Nat) : Ctx := c.mapHeld fun h => if h = .taker k then .sentinel else h

/-- QUEUE_TERMINATION (R164): an empty queue, no post outstanding, every taker held. A queue without a taker does not terminate (DEDUCED, log 10). -/
def execQueueTermination (rank k : Nat) (s : State) : Out :=
  let q := s.queue rank k
  let posting := s.accs.any fun a => a.rank == rank && a.kind == .post k
  if q.recs.isEmpty ∧ q.takers ≠ [] ∧ ¬ q.terminated ∧ ¬ posting ∧ q.takers.all (fun c => (s.ctx c).heldOn k) then
    .next (q.takers.foldl (fun s c => s.modCtx c fun x => x.giveSentinel k) (s.setQueue rank k { q with terminated := true }))
  else .next s

/-- A context that ends is a taker of no queue (R164). -/
def State.leaveQueues (s : State) (k : Nat) : State :=
  s.modRank (s.ctx k).rank fun r => { r with queues := r.queues.map fun e => (e.1, { e.2 with takers := e.2.takers.filter (· != k), taking := if e.2.taking = some k then none else e.2.taking }) }

end Sys2Proof.Machine
end

