-- ==== Sys2Proof/Machine/Ending.lean ====
section
/-! DEFINITION. Machine/Ending.lean: how a context ends, by EXIT (R25) or by the firmware's termination (R303). -/

namespace Sys2Proof.Machine

/-- An operation that runs on after its context has ended: not a load (R25). -/
def Acc.runsOn (a : Acc) : Bool := a.cls != .ld && a.cls != .none

/-- Operations of a context that run on. -/
def State.outstanding (s : State) (k : Nat) : Bool := (s.accs.any fun a => a.ctx == k && a.runsOn) || s.cmds.any fun c => c.ctx == k

/-- Whether a context still occupies its hardware context and banks: running, or ended with commands that read or write its window (R25). -/
def State.occupies (s : State) (k : Nat) : Bool :=
  let c := s.ctx k
  c.phase == .live || (c.phase == .ended && s.usesWindow k)

/-- The reports that a context has not consumed go to its rank's dead letter queue, and the commands they describe are cancelled (R303). -/
def State.buryReports (s : State) (rank : Nat) : List Report → State
  | [] => s
  | r :: l =>
    let s := if r.kind = 0 then s else s.deadLetter rank r
    let s := match r.cmd with
      | some id => s.retireCmd id
      | none => s
    s.buryReports rank l

def State.buryWaiting (s : State) (rank : Nat) : List Report → State
  | [] => s
  | r :: l =>
    let (r, s) := s.numbered rank r
    (s.buryReports rank [r]).buryWaiting rank l

/-- Causes of collectives and shuffles not yet taken (R303). -/
def State.buryCauses (s : State) (k rank : Nat) : List Failure → State
  | [] => s
  | f :: l =>
    let coll := f.cause == .collNonfinite || f.cause == .collAborted || f.cause == .decodeFallbackFailed
    (if coll then s.deadLetterNew rank (failedOp f.cause f.opc (s.ctx k) f.addr f.epc 0 none) else s).buryCauses k rank l

/-- The record of an ended context: nothing of it is in effect any more. -/
def Ctx.ended (c : Ctx) : Ctx :=
  { c with
    phase := .ended, inflight := [], sticky := Sticky.none, loops := [], loopbuf := [], arming := none, strides := none, saveU := none, saveS := none,
    failures := [], reports := [], waiting := [], held := [], yielded := [], preempt := false, fw := none, mwait := false }

def State.launch? (s : State) (id : Nat) : Option Launch := s.launches.find? fun l => l.id == id

/-- The launch that a context's reservation belongs to. -/
def State.parent? (s : State) (k : Nat) : Option Launch := (s.ctx k).launch.bind s.launch?

/-- Whether a context runs a fused kernel. -/
def State.isFusedCtx (s : State) (k : Nat) : Bool := (s.ctx k).kernel.fused

/-- Separates clusters on which no fused context runs any more: one that has exited counts no longer, whatever its commands still do; one that is evicted fuses the cluster it is restored to (R180; DEDUCED, log 16). -/
def State.separate (s : State) : State :=
  let stays (e : Nat × Nat) : Bool :=
    s.ctxs.any fun c => c.2.phase == .live && c.2.rank == e.2 && s.isFusedCtx c.1 &&
      (match c.2.place with | some (n, _) => clusterOf n == e.1 | none => false)
  let gone := (s.fused.filter fun e => !stays e).map (·.1)
  { s with
    fused := s.fused.filter stays
    cores := s.cores.map fun e => if gone.contains (clusterOf e.1) then (e.1, { e.2 with l1 := [] }) else e }

/-- Reports that a context's firmware has taken and not yet serviced (R301). -/
def Ctx.taken (c : Ctx) : List Report :=
  match c.fw with
  | some (.async l _) => l.map (·.1)
  | _ => []

/-- The end of a context (R25): results in flight are discarded, it leaves its groups and queues, the cell it develops fails. -/
def State.endContext (s : State) (k : Nat) : State :=
  let c := s.ctx k
  let s : State := { s with
    watches := s.watches.filter fun w => w.ctx != k
    wins := s.wins.filter fun w => !(w.opener.1 == k && w.opening)
    withdrawn := s.withdrawn.filter fun a => a.ctx != k }
  let s := (s.modCtx k Ctx.ended).releaseEnded k
  let s := ((s.leaveGroups k).leaveQueues k).evalEnded k
  let s := s.buryReports c.rank (c.taken ++ c.reports)
  let s := s.buryWaiting c.rank c.waiting
  (s.buryCauses k c.rank c.failures).separate

/-- The firmware's termination of a context (R303): as by EXIT, then a KIND 2 record with the trap's cause and address. Its OPC names no operation and is 0 (DESIGN CHOICE, log 81). -/
def State.terminate (s : State) (k detail : Nat) : State :=
  let c := s.ctx k
  let s := s.endContext k
  s.deadLetterNew c.rank
    { cause := c.causeField, kind := 2, opc := 0, ctxid := c.ctxid.toNat % 2 ^ 32, faddr := c.faddr.toNat, epc := c.epc.toNat, detail := detail,
      seq := 0, code := c.kernel.header, action := 0, cmd := none }

/-- A fault of the firmware in its work for a context: the cause is recorded and the context ends (R291, R309). -/
def State.fwEnd (s : State) (k : Nat) (cause : Cause) (addr : Nat) : State :=
  (s.modCtx k fun c => c.record cause (BitVec.ofNat 64 addr) 0 0 0).terminate k 0

/-- Ends the present context and marks its issue as over. -/
def State.exitNow (s : State) : State := { s.endContext s.cur with issue := { s.issue with xfer := some .exit } }

end Sys2Proof.Machine
end

