-- ==== Sys2Proof/Machine/Fetch.lean ====
section
/-! DEFINITION. Machine/Fetch.lean: how a bundle's words are fetched (R95, R188, R193) or replayed from the loop buffer (R71), and the loop sequencer's moves (R70 to R72, R96 to R98). -/

namespace Sys2Proof.Machine

/-! ### Fetch -/

/-- Why a bundle cannot be fetched; `outside` says that it lies outside the code segment (R95). -/
structure FetchFail where
  cause : Cause
  addr : Nat
  task : FwTask
  outside : Bool
  deriving DecidableEq, Repr

inductive FetchedWord where
  | ok (w : W32) (s : State)
  | fail (f : FetchFail)

/-- Whether a word lies in the code segment of the context's kernel. -/
def Ctx.inCode (c : Ctx) (va : Nat) : Bool := decide (c.kernel.code ≤ va) && decide (va + 4 ≤ c.kernel.code + c.kernel.size)

/-- The instruction cache's name for the line of a rank that holds a virtual address; 2^41 lines lie in an address space. -/
def insnKey (rank va : Nat) : Nat := rank * 2 ^ 41 + va / 128

/-- A line enters the core's instruction cache of 512 lines (R184). -/
def State.insnFill (s : State) (core key v : Nat) (line : List Byte) : State :=
  s.modCore core fun k => { k with icache := linePut k.icache 512 v key line, badIns := tabDel k.badIns key }

/-- The instruction line of a rank's virtual address that translates to `pa`, in the core's instruction cache; it is filled when both its blocks are sound, its cells VALUE and no open window is in it (R188, R202, R250). -/
def State.fillLine (s : State) (core rank va pa : Nat) : State :=
  let key := insnKey rank va
  match tabGet (s.core core).icache key with
  | some _ => s
  | none =>
    if s.lineLatent pa || s.lineInWindow rank va then s
    else
      match s.checkBlocks (lineBlocks pa) with
      | none => s
      | some s =>
        if (s.core core).icache.length < 512 then s.insnFill core key 0 (s.mem.read (pa / 128 * 128) 128)
        else
          let (n, s) := s.draw
          s.insnFill core key (Config.victim n) (s.mem.read (pa / 128 * 128) 128)

/-- A fetch served by a line of the instruction cache, whose envelope holds or is corrected; none where it cannot be (R305, R397, R398). -/
def State.insnCheck (s : State) (core key pa : Nat) : Option State :=
  match tabGet (s.core core).badIns key with
  | none => some s
  | some true => some ((s.modCore core fun k => { k with badIns := tabDel k.badIns key }).journal 2 core pa)
  | some false => none

/-- The word of a rank's virtual address as fetch sees it, in an open window RESULT; none where its block cannot be corrected (R305). What a fetch through a latent-capable page from a cell that is not VALUE gives is left open, but for its not being the record (R237, R238): a free value (DESIGN CHOICE, log 76). -/
def State.codeWord (s : State) (core rank va pa : Nat) (lc : Bool) : Option (W32 × State) :=
  let t := s.fillLine core rank va pa
  match tabGet (t.core core).icache (insnKey rank va) with
  | some line => (t.insnCheck core (insnKey rank va) pa).map fun u => (BitVec.ofNat 32 (leNat ((line.drop (pa % 128)).take 4)), u)
  | none =>
    if lc && (tabGet t.cells (pa / 64)).any fun (x : Cell) => x.tag != Tag.value then
      let (n, u) := t.draw
      some (BitVec.ofNat 32 (leNat ((List.range 4).map (Config.anyByte n))), u)
    else (s.checkBlocks [pa / 64]).map fun u => (BitVec.ofNat 32 (leNat ((List.range 4).map fun i => u.homeByte rank (va + i) (pa + i))), u)

/-- One word of the bundle at `base`. In U mode the code segment bounds it (R95); S mode is not bound by it (R290). A page of another device's memory, on which R188 is silent, faults PERMISSION (DESIGN CHOICE, log 83). -/
def State.fetchWord (s : State) (base va : Nat) : FetchedWord :=
  let c := s.cx
  if !c.mode && !c.inCode va then .fail ⟨.permission, base, .terminate 0, true⟩
  else
    match s.translate c.coreNum c.rank va .fetch with
    | .fail f => .fail ⟨f.cause, if f.cause = .translation then va else base, if f.curable then .faultRecord else .terminate 0, false⟩
    | .ok pa leaf s =>
      if paRemote pa then .fail ⟨.permission, base, .terminate 0, false⟩
      else
        match s.codeWord c.coreNum c.rank va pa (leaf.bit bitLC) with
        | none => .fail ⟨.integrity, base, .terminate 0, false⟩
        | some (w, s) => .ok w s

/-- A fetched bundle with its words, or the failure. -/
inductive FetchRes where
  | ok (b : Bundle) (words : List W32) (s : State)
  | fail (f : FetchFail)

/-- Fetches word after word until the bundle is whole (R50). -/
def State.fetchFrom (base : Nat) : Nat → List W32 → State → FetchRes
  | 0, _, _ => .fail ⟨.permission, base, .terminate 0, false⟩
  | n + 1, l, s =>
    match decodeBundle (fun i => l[i]?) with
    | some b => .ok b l s
    | none =>
      match s.fetchWord base (base + 4 * l.length) with
      | .fail f => .fail f
      | .ok w s => State.fetchFrom base n (l ++ [w]) s

/-- The bundle at an address: from the loop buffer while it is held there, else fetched. A bundle has at most 15 words. -/
def State.bundleAt (s : State) (addr : Nat) : FetchRes :=
  match tabGet s.cx.loopbuf addr with
  | some l =>
    match decodeBundle (fun i => l[i]?) with
    | some b => .ok b l s
    | none => s.fetchFrom addr 16 []
  | none => s.fetchFrom addr 16 []

/-! ### The loop sequencer -/

/-- Whether an address lies in a level's body. -/
def LoopLevel.has (l : LoopLevel) (a : Nat) : Bool := decide (l.first ≤ a) && decide (a < l.after)

/-- Active levels, innermost first. -/
def Ctx.level? (c : Ctx) (n : Nat) : Option LoopLevel := (c.loops.find? fun e => e.1 == n).map (·.2)

/-- The loop buffer keeps the bundles of active bodies. -/
def Ctx.trimmed (c : Ctx) : Ctx := { c with loopbuf := c.loopbuf.filter fun e => c.loops.any fun l => l.2.has e.1 }

/-- The levels that end an iteration with the last issue of the bundle at `pc`, the levels then active, and where control goes when one of them goes on (R71). -/
def endLevels (pc : Nat) : List (Nat × LoopLevel) → List Nat × List (Nat × LoopLevel) × Option Nat
  | [] => ([], [], none)
  | (n, l) :: rest =>
    if l.last = pc then
      if 1 < l.left then ([n], (n, { l with left := l.left - 1, isFirst := false }) :: rest, some l.first)
      else
        let (e, r, go) := endLevels pc rest
        (n :: e, r, go)
    else
      let (e, r, go) := endLevels pc rest
      (e, (n, l) :: r, go)

/-- The strides of the walkers, by walker and level. -/
def Ctx.stridesNow (c : Ctx) : List (List W32) := c.a.toList.map fun w => w.strides.toList

/-- The strides that levels ending an iteration add, one per walker and level, as they were held at the last issue's step (R71, R90). -/
def Ctx.strideEffs (c : Ctx) (levels : List Nat) : List Eff :=
  levels.flatMap fun n => (List.range 16).filterMap fun w =>
    let x := ((c.strides.getD c.stridesNow).getD w []).getD n 0
    if x = 0 then none else some (.walkAdd (BitVec.ofNat 4 w) x)

/-- A body that is whole begins, or is skipped when its count is 0 (R70, R96). -/
def Ctx.beginBody (c : Ctx) (a : Arming) : Ctx :=
  let c := { c with arming := none, rpos := 0, sres := 0 }
  if a.count = 0 then { c with pc := a.body.after }
  else { c with loops := (a.lvl, a.body) :: c.loops, loopbuf := a.words.foldl (fun t e => tabSet t e.1 e.2) c.loopbuf, pc := a.body.first }

/-- The sequencer passes the end of the bundle at `pc`, of `len` bytes: a body that it arms begins, once it is whole, else iterations end (R69, R71, R96). The strides to add come with it, each the one held now (R90). -/
def Ctx.passEnd (c : Ctx) (len : Nat) : Ctx × List Eff :=
  match c.arming with
  | some a => (if a.rest.isSome then { c with pc := a.body.first, rpos := 0, sres := 0 } else c.beginBody a, [])
  | none =>
    let (ended, levels, go) := endLevels c.pc c.loops
    (Ctx.trimmed { c with loops := levels, pc := go.getD (c.pc + len), rpos := 0, sres := 0 }, c.strideEffs ended)

/-- A transfer to an address: levels whose body does not hold it become inactive, inner ones first (R97). -/
def Ctx.goTo (c : Ctx) (addr : Nat) : Ctx :=
  Ctx.trimmed { c with pc := addr, loops := c.loops.dropWhile fun e => !e.2.has addr, arming := none, rpos := 0, sres := 0 }

/-- LOOPBRK: a level and those it encloses become inactive (R73). An enclosing level whose body ends at the same byte stays active and ends no iteration (DESIGN CHOICE, log 64). -/
def Ctx.breakLevel (c : Ctx) (n : Nat) : Ctx :=
  match c.level? n with
  | none => c
  | some l =>
    Ctx.trimmed { c with pc := l.after, loops := (c.loops.dropWhile fun e => e.1 != n).drop 1, arming := none, rpos := 0, sres := 0 }

/-- Whether a header's LF passes its bundle over now (R72); none where it names a level that is not active. -/
def Ctx.passedOver (c : Ctx) (h : Header) : Option Bool :=
  if h.lf = 0 then some false
  else (c.level? h.ll).map fun l => if h.lf = 1 then !l.isFirst else decide (l.left ≠ 1)

/-- What stands at the place where the present context goes on: a bundle that does not issue now, one that does, or none that can be fetched. -/
inductive NextRes where
  | passed (b : Bundle) (s : State)
  | issues
  | unfetched

def State.nextIs (s : State) : NextRes :=
  if s.cx.rpos ≠ 0 ∨ s.cx.sres ≠ 0 ∨ s.cx.loops.isEmpty then .issues
  else
    match s.bundleAt s.cx.pc with
    | .fail _ => .unfetched
    | .ok b _ t => if b.hdr.ok && t.cx.passedOver b.hdr == some true then .passed b t else .issues

/-- Passes over bundles that do not issue now (R72, R95), up to n of them, and gathers the strides of the iterations that end there: each is the one held at the last issue's step, and they land with its step marks (R90; DEDUCED, log 52). -/
def State.passOver : Nat → State → State × List Eff
  | 0, s => (s, [])
  | n + 1, s =>
    match s.nextIs with
    | .passed b t =>
      let (d, e) := t.cx.passEnd b.len
      let (u, es) := State.passOver n (t.setCx d)
      (u, e ++ es)
    | .issues | .unfetched => (s, [])

/-- Passes over, before an issue, what could not be passed over at the end of the last one; the strides apply at once, as no step passes. -/
def State.skipPassed : Nat → State → State
  | 0, s => s
  | n + 1, s =>
    match s.nextIs with
    | .passed b t =>
      let (d, e) := t.cx.passEnd b.len
      State.skipPassed n (t.setCx (e.foldl (fun c x => c.apply x) d))
    | .issues | .unfetched => s

/-- How many bundles are passed over at once; where more stand in a row, the passing goes on before the next issue. At each pass through the bodies a level has one iteration less. -/
def Ctx.passBound (c : Ctx) : Nat := if c.loops.isEmpty then 0 else 257 * (1 + (c.loops.map fun e => e.2.left).sum)

end Sys2Proof.Machine
end

