-- ==== Sys2Proof/Machine/Control.lean ====
section
/-! DEFINITION. Machine/Control.lean: the C slot but for the group instructions (R69, R73, R93 to R105): a transfer is noted in the issue being made, which carries it out when its slots have committed. -/

namespace Sys2Proof.Machine

def State.transfer (s : State) (x : Xfer) : State := { s with issue := { s.issue with xfer := some x } }

def execCnop (s : State) : Out := .next s

/-! ### Branches (R93, R94) -/

/-- Bundle address + 4 × off. -/
def State.target (s : State) (x : Ext) (o : BitVec 15) : Nat := (BitVec.ofNat 64 s.cx.pc + 4 * immediate 15 x o.toNat).toNat

/-- A branch, taken or not. -/
def State.branch (s : State) (x : Ext) (o : BitVec 15) (taken : Bool) : State := if taken then s.transfer (.to (s.target x o)) else s

def execBeq (x : Ext) (a b : GR) (o : BitVec 15) (s : State) : Out := .next (s.branch x o (s.rg a == s.rg b))
def execBne (x : Ext) (a b : GR) (o : BitVec 15) (s : State) : Out := .next (s.branch x o (s.rg a != s.rg b))
def execBlt (x : Ext) (a b : GR) (o : BitVec 15) (s : State) : Out := .next (s.branch x o ((s.rg a).slt (s.rg b)))
def execBge (x : Ext) (a b : GR) (o : BitVec 15) (s : State) : Out := .next (s.branch x o ((s.rg b).sle (s.rg a)))
def execBltn (x : Ext) (a b : GR) (o : BitVec 15) (s : State) : Out := .next (s.branch x o ((s.rg a).ult (s.rg b)))
def execBgen (x : Ext) (a b : GR) (o : BitVec 15) (s : State) : Out := .next (s.branch x o ((s.rg b).ule (s.rg a)))
def execJmp (x : Ext) (o : BitVec 15) (s : State) : Out := .next (s.branch x o true)

def execJmpg (a : GR) (s : State) : Out :=
  if (s.rg a).toNat % 4 ≠ 0 then .next (s.slotFault .misaligned (s.rg a))
  else .next (s.transfer (.to ((BitVec.ofNat 64 s.cx.kernel.code + s.rg a).toNat)))

/-! ### Loops (R70, R73, R96, R99) -/

/-- ILLEGAL_BUNDLE of the C slot, with SMASK bit 6 (R73). -/
def State.illegalC (s : State) : State := s.takeTrap .illegalBundle 0 0x40 s.cx.rpos 6 (.terminate 0)

/-- The count of a LOOP: a register's low half, the extension word, or CNT (R70). -/
def State.loopCount (s : State) (x : Ext) (r : Bool) (c : BitVec 13) : Nat :=
  if r then (s.rg (c.setWidth 5)).toNat % 2 ^ 32
  else match x with
    | some e => e.toNat
    | none => c.toNat

/-- What the bundles of a body come to. -/
inductive BodyRes where
  | ok (last after : Nat) (words : Tab (List W32)) (s : State)
  /-- Past the end of the innermost active body. -/
  | past
  /-- The bundle at an address cannot be fetched, n bundles before the end; those before it are there. -/
  | fail (f : FetchFail) (addr n : Nat) (words : Tab (List W32)) (s : State)

/-- Takes the n bundles from an address on; `limit` is the end of the body they must stay in. -/
def State.bodyFrom (limit : Option Nat) : Nat → Nat → Nat → Tab (List W32) → State → BodyRes
  | 0, last, addr, l, s => if limit.any (· < addr) then .past else .ok last addr l s
  | n + 1, _, addr, l, s =>
    match limit with
    | some e => if e ≤ addr then .past else
      match s.bundleAt addr with
      | .fail f => .fail f addr (n + 1) l s
      | .ok b w s => State.bodyFrom limit n addr (addr + b.len) (tabSet l addr w) s
    | none =>
      match s.bundleAt addr with
      | .fail f => .fail f addr (n + 1) l s
      | .ok b w s => State.bodyFrom limit n addr (addr + b.len) (tabSet l addr w) s

/-- Distinct bundles that the loop buffer would hold. -/
def Ctx.bufferWith (c : Ctx) (l : Tab (List W32)) : Nat := c.loopbuf.length + (l.filter fun e => (tabGet c.loopbuf e.1).isNone).length

/-- LOOP: its checks (R73, R96, R170), and the body that begins after the last repeat. Where a bundle of the body cannot be fetched, the loading after the last repeat goes on there and takes the fault (R188; DEDUCED, log 14). -/
def execLoop (x : Ext) (l : BitVec 3) (n : BitVec 8) (r : Bool) (c : BitVec 13) (s : State) : Out :=
  let k := s.cx
  if (k.level? l.toNat).isSome || (!k.mode && (k.kernel.depth == 0xFF || decide (k.kernel.depth < l.toNat))) then .next s.illegalC
  else
    match s.bundleAt k.pc with
    | .fail f => .next (s.slotTrap f.cause (BitVec.ofNat 64 f.addr) f.task)
    | .ok b _ s1 =>
      match State.bodyFrom (k.loops.head?.map fun e => e.2.after) (n.toNat + 1) 0 (k.pc + b.len) [] s1 with
      | .past => .next s.illegalC
      | .fail f addr m words s2 =>
        if f.outside then .next (s.slotFault .permission (BitVec.ofNat 64 k.kernel.size))
        else
          let count := s.loopCount x r c
          .next (s2.modCx fun d => { d with arming := some ⟨l.toNat, count, ⟨k.pc + b.len, 0, 0, count, true⟩, words, some (addr, m)⟩ })
      | .ok last after words s2 =>
        if 256 < k.bufferWith words then .next (s.slotFault .permission (BitVec.ofNat 64 k.kernel.size))
        else
          let count := s.loopCount x r c
          .next (s2.modCx fun d => { d with arming := some ⟨l.toNat, count, ⟨k.pc + b.len, last, after, count, true⟩, words, none⟩ })

/-- The loading of a body goes on where a fetch stopped it (R96, R188): the body begins once it is whole; a bundle that cannot be fetched faults with its own address, before it issues. -/
def State.loadBody (s : State) : State :=
  match s.cx.arming with
  | none => s
  | some a =>
    match a.rest with
    | none => s
    | some (addr, n) =>
      let at' (x : Nat) (s : State) : State := s.modCx fun c => { c with pc := x }
      match State.bodyFrom (s.cx.loops.head?.map fun e => e.2.after) n 0 addr a.words s with
      | .past => (at' a.body.first s).takeTrap .illegalBundle 0 0x40 0 0 (.terminate 0)
      | .fail f x m words t =>
        let t := t.modCx fun c => { c with arming := some { a with words := words, rest := some (x, m) } }
        (at' x t).boundaryTrap f.cause (BitVec.ofNat 64 (if f.outside then s.cx.kernel.size else f.addr)) f.task
      | .ok last after words t =>
        if 256 < s.cx.bufferWith words then (at' a.body.first s).boundaryTrap .permission (BitVec.ofNat 64 s.cx.kernel.size) (.terminate 0)
        else t.modCx fun c => c.beginBody { a with body := { a.body with last := last, after := after }, words := words, rest := none }

def execLoopbrk (l : BitVec 3) (s : State) : Out :=
  if (s.cx.level? l.toNat).isNone then .next s.illegalC else .next (s.transfer (.brk l.toNat))

/-! ### Waiting, yielding and ending (R100, R101, R25) -/

/-- Whether a counter exceeds its operand; 15 leaves it out (R22). -/
def exceeds (c : Counter) (n : BitVec 4) : Bool := n != 15 && decide (n.toNat < c.length)

def holdWait (ld st cp tl : BitVec 4) (s : State) : Option State :=
  if exceeds s.cx.ld ld || exceeds s.cx.st st || exceeds s.cx.cp cp || exceeds s.cx.tl tl then some s else none

def execWait (ld st cp tl : BitVec 4) (s : State) : Out := .next ((holdWait ld st cp tl s).getD s)

/-- YIELD changes no architectural state; what it does to the next issue is R155's, in Machine/Issue.lean. -/
def execYield (s : State) : Out := .next s

def execExit (s : State) : Out := .next s.exitNow

/-! ### Instruction prefetch (R102) -/

def execPref (x : Ext) (a : GR) (o : BitVec 20) (s : State) : Out :=
  let off := (s.rg a + 4 * immediate 20 x o.toNat).toNat
  let va := s.cx.kernel.code + off
  if off < s.cx.kernel.size then
    match s.lookup s.cx.coreNum s.cx.rank va with
    | none => .next s
    | some (e, t) =>
      if e.bit bitC && !paRemote (e.paOf va) then
        let (n, t) := t.draw
        .next (if Config.fillsL1 n then t.fillLine s.cx.coreNum s.cx.rank va (e.paOf va) else t)
      else .next t
  else .next s

/-! ### Traps and returns (R103, R104, R105) -/

/-- The present issue completes: a quiet one adds one to sys.cutcount, landing at the next step (R74, R319). -/
def State.countCut (s : State) : State := if s.issue.quiet then s.emit 1 .cutcount else s

/-- TRAP: every slot has committed, so the step is over before the trap is taken (R103). -/
def execTrap (code : BitVec 16) (s : State) : Out :=
  let t := (s.countCut.modCx fun c => { c with step := c.step + 1, strides := some c.stridesNow }).landDue
  .next ((t.takeTrap .software (code.setWidth 64) 0 0 7 (.terminate code.toNat)).transfer .trap)

def execTret (s : State) : Out :=
  if !s.cx.mode && !s.cx.uh then .next (s.slotFault .privilege 0) else .next (s.countCut.doTret.transfer .tret)

def execOrdset (o : BitVec 4) (s : State) : Out :=
  if s.cx.mode then .next (s.emit 1 (.sys .ord (o.setWidth 64))) else .next (s.slotFault .privilege 0)

end Sys2Proof.Machine
end

