-- ==== Sys2Proof/Machine/Elementary.lean ====
section
/-! DEFINITION. Machine/Elementary.lean: the correctly rounded functions of R45: division, roots, exponentials, logarithm, hyperbolic tangent. A transcendental result is bracketed by integers at growing precision until both ends convert alike. -/

namespace Sys2Proof.Machine

/-- Integer square root, bit by bit: the greatest r built from `bits` bits with r * r not above n. -/
def isqrtBits (n : Nat) : Nat → Nat → Nat
  | 0, r => r
  | b + 1, r =>
    let t := r + 2 ^ b
    isqrtBits n b (if t * t ≤ n then t else r)

def isqrt (n : Nat) : Nat := isqrtBits n (Nat.log2 n / 2 + 1) 0

/-- Integer ceiling of a / b for b > 0. -/
def ceilDiv (a b : Nat) : Nat := (a + b - 1) / b

/-- Exact quotient of two positive magnitudes as a value of at least 80 significant bits with a sticky part. -/
def quotient (s : Bool) (m : Nat) (e : Int) (n : Nat) (f : Int) : XVal :=
  let sh := 80 + Nat.log2 n + 1
  let a := m * 2 ^ sh
  .fin s (a / n) (e - f - sh) (a % n != 0)

/-- VDIV (R45). -/
def XVal.div : XVal → XVal → XVal × FlagSet
  | .nan, _ => (.nan, 0)
  | _, .nan => (.nan, 0)
  | .inf _, .inf _ => (.nan, fNV)
  | .inf s, .fin t .. => (.inf (s != t), 0)
  | .fin s .., .inf t => (.zero (s != t), 0)
  | .fin s m e _, .fin t n f _ =>
    if n = 0 then (if m = 0 then (.nan, fNV) else (.inf (s != t), fDZ))
    else if m = 0 then (.zero (s != t), 0)
    else (quotient (s != t) m e n f, 0)

/-- Square root of a positive magnitude m * 2^e, of at least 80 bits, with a sticky part. -/
def rootOf (m : Nat) (e : Int) : XVal :=
  let sh : Nat := if (e % 2) = 0 then 160 else 161
  let n := m * 2 ^ sh
  let r := isqrt n
  .fin false r ((e - sh) / 2) (r * r != n)

/-- VSQRT (R45). -/
def XVal.sqrt : XVal → XVal × FlagSet
  | .nan => (.nan, 0)
  | .inf s => if s then (.nan, fNV) else (.inf false, 0)
  | .fin s m e _ => if m = 0 then (.zero s, 0) else if s then (.nan, fNV) else (rootOf m e, 0)

/-- VRSQ (R45): 1 over the square root. With m * 2^e of even e, the result is floor(sqrt(2^(2b) / m)) scaled, its sticky part set unless it is exact. -/
def XVal.rsqrt : XVal → XVal × FlagSet
  | .nan => (.nan, 0)
  | .inf s => if s then (.nan, fNV) else (.zero false, 0)
  | .fin s m e _ =>
    if m = 0 then (.inf s, fDZ)
    else if s then (.nan, fNV)
    else
      let m' := if e % 2 = 0 then m else 2 * m
      let e' := if e % 2 = 0 then e else e - 1
      let b := Nat.log2 m' + 100
      let r := isqrt (2 ^ (2 * b) / m')
      (.fin false r (-(b : Int) - e' / 2) (r * r * m' != 2 ^ (2 * b)), 0)

/-! ### Brackets: pairs of integers lo, hi that stand for values between lo and hi in units of 2^-P -/

/-- Bracket of ln 2. -/
def ln2Terms (P : Nat) : Nat → Nat
  | 0 => 0
  | k + 1 => 2 ^ P / ((k + 1) * 2 ^ (k + 1)) + ln2Terms P k

def ln2Bracket (P : Nat) : Nat × Nat :=
  let t := ln2Terms P (P + 8)
  (t, t + P + 16)

/-- Lower Taylor sum of exp at r from term `t` of index k. -/
def expLow (P r : Nat) : Nat → Nat → Nat → Nat
  | 0, _, _ => 0
  | n + 1, k, t => t + expLow P r n (k + 1) (t * r / ((k + 1) * 2 ^ P))

/-- Upper Taylor sum of exp at r; the tail is below twice the first term left out. -/
def expHigh (P r : Nat) : Nat → Nat → Nat → Nat
  | 0, _, t => 2 * t + 1
  | n + 1, k, t => t + expHigh P r n (k + 1) (ceilDiv (t * r) ((k + 1) * 2 ^ P))

/-- Bracket of exp over a bracket [a, b] of values from 0 to 1. -/
def expBracket (P a b : Nat) : Nat × Nat :=
  let n := P / 4 + 16
  (expLow P a n 0 (2 ^ P), expHigh P b n 0 (2 ^ P))

/-- Bracket of atanh(z) / z series for z in [a, b], 0 <= z <= 1/3: sums z^(2i+1) / (2i+1). -/
def atanhLow (P a2 : Nat) : Nat → Nat → Nat → Nat
  | 0, _, _ => 0
  | n + 1, i, z => z / (2 * i + 1) + atanhLow P a2 n (i + 1) (z * a2 / 2 ^ P)

def atanhHigh (P b2 : Nat) : Nat → Nat → Nat → Nat
  | 0, _, z => 2 * z + 1
  | n + 1, i, z => ceilDiv z (2 * i + 1) + atanhHigh P b2 n (i + 1) (ceilDiv (z * b2) (2 ^ P))

/-- Bracket of ln f for f = num / 2^w with 1 <= f < 2: twice atanh((f - 1) / (f + 1)). -/
def lnBracket (P num w : Nat) : Nat × Nat :=
  let a := (num - 2 ^ w) * 2 ^ P / (num + 2 ^ w)
  let b := ceilDiv ((num - 2 ^ w) * 2 ^ P) (num + 2 ^ w)
  let n := P / 3 + 8
  (2 * atanhLow P (a * a / 2 ^ P) n 0 a, 2 * atanhHigh P (ceilDiv (b * b) (2 ^ P)) n 0 b)

/-- Floor and ceiling of m * 2^e in units of 2^-P. -/
def fixBracket (P m : Nat) (e : Int) : Nat × Nat :=
  let k := e + P
  if 0 ≤ k then (m * 2 ^ k.toNat, m * 2 ^ k.toNat)
  else (m / 2 ^ (-k).toNat, ceilDiv m (2 ^ (-k).toNat))

/-- Bracket of exp of a signed argument given by its bracket [lo, hi] in units of 2^-P, as (lower, upper, exponent): the result is between lower and upper times 2^exponent. -/
def expOf (P : Nat) (lo hi : Int) : Nat × Nat × Int :=
  let (l, h) := ln2Bracket P
  let n0 : Int := lo / (h : Int)
  let red (n : Int) : Int × Int := (lo - n * (if n < 0 then (l : Int) else h), hi - n * (if n < 0 then (h : Int) else l))
  let n := if (red n0).1 < 0 then n0 - 1 else n0
  let (a, b) := red n
  let (x, y) := expBracket P a.toNat b.toNat
  (x, y, n - P)

/-- Both ends of a bracket converted; equal ends settle the result. -/
def settle (el : Elem) (mode : RMode) (s : Bool) (lo hi : Nat) (e : Int) : Option (Nat × FlagSet) :=
  let a := convert el mode 0 (.fin s lo e true)
  let b := convert el mode 0 (.fin s hi e true)
  if a = b then some a else none

/-- First precision of the list at which `f` settles. -/
def firstSettled (f : Nat → Option (Nat × FlagSet)) : List Nat → Option (Nat × FlagSet)
  | [] => none
  | p :: l => match f p with
    | some r => some r
    | none => firstSettled f l

/-- Precisions tried, in bits. -/
def precisions : List Nat := [64, 160, 320, 640, 1280, 2560]

/-- A value that no precision of the list settles takes the canonical NaN of its format; UNVERIFIED that none of R45's arguments reaches this (log 6). -/
def zivRound (el : Elem) (f : Nat → Option (Nat × FlagSet)) : Nat × FlagSet :=
  (firstSettled f precisions).getD (el.nan, 0)

/-- A magnitude beyond every format's range, and one below it (R37 decides what they become). -/
def hugeVal : XVal := .fin false 1 4000 true
def minuteVal : XVal := .fin false 1 (-4000) true

/-- exp(x), or exp2(x) with `two`, of a finite non-zero argument (R45). -/
def expRound (el : Elem) (mode : RMode) (two : Bool) (s : Bool) (m : Nat) (e : Int) : Nat × FlagSet :=
  if e + Nat.log2 m ≥ 12 then convert el mode 0 (if s then minuteVal else hugeVal)
  else zivRound el fun P =>
    let (l, h) := ln2Bracket P
    let (a0, b0) := fixBracket P m e
    let a := if two then a0 * l / 2 ^ P else a0
    let b := if two then ceilDiv (b0 * h) (2 ^ P) else b0
    let (x, y, k) := if s then expOf P (-(b : Int)) (-(a : Int)) else expOf P a b
    settle el mode false x y k

/-- exp2 of an integer argument is exact. -/
def exp2Exact (m : Nat) (e : Int) : Option Nat :=
  if 0 ≤ e then some (shiftTo m e 0)
  else if m % 2 ^ (-e).toNat = 0 then some (m / 2 ^ (-e).toNat) else none

/-- VEXP and VEXP2 (R45). -/
def expFn (el : Elem) (mode : RMode) (two : Bool) : XVal → Nat × FlagSet
  | .nan => convert el mode 0 .nan
  | .inf s => convert el mode 0 (if s then .zero false else .inf false)
  | .fin s m e _ =>
    if m = 0 then convert el mode 0 (.fin false 1 0 false)
    else if two then
      match exp2Exact m e with
      | some n =>
        if n ≥ 4096 then convert el mode 0 (if s then minuteVal else hugeVal)
        else convert el mode 0 (.fin false 1 (if s then -(n : Int) else n) false)
      | none => expRound el mode true s m e
    else expRound el mode false s m e

/-- VLOG2 (R45). -/
def log2Fn (el : Elem) (mode : RMode) : XVal → Nat × FlagSet
  | .nan => convert el mode 0 .nan
  | .inf s => if s then (el.nan, fNV) else convert el mode 0 (.inf false)
  | .fin s m e _ =>
    if m = 0 then
      let (r, f) := convert el mode 0 (.inf true)
      (r, f ||| fDZ)
    else if s then (el.nan, fNV)
    else
      let w := Nat.log2 m
      let k : Int := w + e
      if m = 2 ^ w then convert el mode 0 (.ofInt k)
      else zivRound el fun P =>
        let (l, h) := ln2Bracket P
        let (a, b) := lnBracket P m w
        let lo : Int := k * 2 ^ P + (a * 2 ^ P / h : Nat)
        let hi : Int := k * 2 ^ P + (ceilDiv (b * 2 ^ P) l : Nat)
        if 0 < lo then settle el mode false lo.toNat hi.toNat (-(P : Int))
        else if hi < 0 then settle el mode true (-hi).toNat (-lo).toNat (-(P : Int))
        else none

/-- VTANH (R45): near zero the result lies just below |x|, far out just below 1. -/
def tanhFn (el : Elem) (mode : RMode) : XVal → Nat × FlagSet
  | .nan => convert el mode 0 .nan
  | .inf s => convert el mode 0 (.fin s 1 0 false)
  | .fin s m e _ =>
    if m = 0 then convert el mode 0 (.zero s)
    else if e + Nat.log2 m ≥ 6 then convert el mode 0 (.fin s (2 ^ 64 - 1) (-64) true)
    else if e + Nat.log2 m < -30 then convert el mode 0 (.fin s (m * 2 ^ 32 - 1) (e - 32) true)
    else zivRound el fun P =>
      let (a, b) := fixBracket P m (e + 1)
      let (x, y, k) := expOf P a b
      let (lo, hi) := (shiftTo x k (-(P : Int)), shiftTo y k (-(P : Int)))
      let one := 2 ^ P
      settle el mode s ((lo - one) * 2 ^ P / (hi + one)) (ceilDiv ((hi - one) * 2 ^ P) (lo + one)) (-(P : Int))

end Sys2Proof.Machine
end

