-- ==== Sys2Proof/Machine/Vector.lean ====
section
/-! DEFINITION. Machine/Vector.lean: the V slot (R106 to R125). A lane is its bits as a number. -/

namespace Sys2Proof.Machine

/-! ### Lanes and predicates (R106) -/

/-- Which lanes a predicate enables: bit w * i for lane i. -/
def lanesEnabled (t : Ty) (p : PReg) : List Bool := (List.range t.lanes).map fun i => p.getLsbD (t.width * i)

/-- A register's lanes. -/
def vlanes (t : Ty) (v : VReg) : List Nat := lanesOf t.bits t.lanes v.toNat

/-- The bits of the lanes of width w that are enabled. -/
def laneMask (w : Nat) (en : List Bool) : VReg := BitVec.ofNat 2048 (packLanes w (en.map fun b => if b then 2 ^ w - 1 else 0))

/-- Lanes of width w as a register. -/
def vpack (w : Nat) (l : List Nat) : VReg := BitVec.ofNat 2048 (packLanes w l)

/-- Flags of the enabled lanes (R43). -/
def enabledFlags (en : List Bool) (f : List FlagSet) : FlagSet := orFlags ((en.zip f).map fun e => if e.1 then e.2 else 0)

/-- A result by lanes of width w: the enabled ones land with their flags. -/
def State.lanesOut (s : State) (lat w : Nat) (d : VR) (en : List Bool) (r : List (Nat × FlagSet)) : State :=
  (s.emit lat (.v d (laneMask w en) (vpack w (r.map (·.1))))).emitFlags lat (enabledFlags en (r.map (·.2)))

/-- A whole register. -/
def State.vecOut (s : State) (lat : Nat) (d : VR) (x : VReg) : State := s.emit lat (.v d (BitVec.allOnes 2048) x)

/-- Latency of an operation that differs between I and F (R109). -/
def vecLat (t : Ty) (i f : Nat) : Nat := if t.isInt then i else f

/-- Lane by lane from VA. -/
def State.vecUn (s : State) (x : Option VExt) (lat : Nat) (d a : VR) (t : Ty) (p : PR) (f : Nat → Nat × FlagSet) : Out :=
  .next (s.withStreams (vecStreams x a 0) fun s =>
    s.lanesOut lat t.bits d (lanesEnabled t (s.cx.rp p)) ((vlanes t (s.vsrc (vextQA x) a t.bits)).map f))

/-- Lane by lane from VA and VB. -/
def State.vecBin (s : State) (x : Option VExt) (lat : Nat) (d a b : VR) (t : Ty) (p : PR) (f : Nat → Nat → Nat × FlagSet) : Out :=
  .next (s.withStreams (vecStreams x a b) fun s =>
    s.lanesOut lat t.bits d (lanesEnabled t (s.cx.rp p))
      (List.zipWith f (vlanes t (s.vsrc (vextQA x) a t.bits)) (vlanes t (s.vsrc (vextQB x) b t.bits))))

/-- Lane by lane from VA, VB and VD. -/
def State.vecTri (s : State) (x : Option VExt) (lat : Nat) (d a b : VR) (t : Ty) (p : PR) (f : Nat → Nat → Nat → Nat × FlagSet) : Out :=
  .next (s.withStreams (vecStreams x a b) fun s =>
    s.lanesOut lat t.bits d (lanesEnabled t (s.cx.rp p))
      (List.zipWith (fun ab c => f ab.1 ab.2 c) ((vlanes t (s.vsrc (vextQA x) a t.bits)).zip (vlanes t (s.vsrc (vextQB x) b t.bits))) (vlanes t (s.rv d t.bits))))

/-- Whole lanes moved: lane i of the result is `f i`, all bits unchanged (R107). -/
def State.vecMove (s : State) (x : Option VExt) (lat : Nat) (d a b : VR) (t : Ty) (p : PR) (f : (Nat → Nat) → (Nat → Nat) → Nat → Nat) : Out :=
  .next (s.withStreams (vecStreams x a b) fun s =>
    let va := (s.vsrc (vextQA x) a t.bits).toNat
    let vb := (s.vsrc (vextQB x) b t.bits).toNat
    s.emit lat (.v d (laneMask t.bits (lanesEnabled t (s.cx.rp p)))
      (vpack t.bits ((List.range t.lanes).map (f (laneN t.bits va) (laneN t.bits vb))))))

/-! ### Lane arithmetic on integers (R110) -/

/-- sv of R110. -/
def laneInt (t : Ty) (x : Nat) : Int := if t.signed then (BitVec.ofNat t.bits x).toInt else (x % 2 ^ t.bits : Nat)

/-- Bits of an integer modulo 2^(8w). -/
def intLane (t : Ty) (x : Int) : Nat := (BitVec.ofInt t.bits x).toNat

/-- lo and hi of a type. -/
def laneRange (t : Ty) : Int × Int := intRange t.signed t.bits

def clampInt (lo hi x : Int) : Int := if x < lo then lo else if hi < x then hi else x

/-- An operation on sv of the lanes; no flag. -/
def intOp (t : Ty) (f : Int → Int → Int) (a b : Nat) : Nat × FlagSet := (intLane t (f (laneInt t a) (laneInt t b)), 0)

/-- VADDS and VSUBS: the exact result held to the type's range. -/
def intSat (t : Ty) (f : Int → Int → Int) (a b : Nat) : Nat × FlagSet :=
  (intLane t (clampInt (laneRange t).1 (laneRange t).2 (f (laneInt t a) (laneInt t b))), 0)

def laneShl (t : Ty) (a n : Nat) : Nat × FlagSet := (if t.bits ≤ n then 0 else a * 2 ^ n % 2 ^ t.bits, 0)
def laneShr (t : Ty) (a n : Nat) : Nat × FlagSet := (if t.bits ≤ n then 0 else a / 2 ^ n, 0)
def laneSar (t : Ty) (a n : Nat) : Nat × FlagSet := (((BitVec.ofNat t.bits a).sshiftRight n).toNat, 0)

/-! ### Lane arithmetic on floats (R111) -/

def laneVal (t : Ty) (a : Nat) : XVal := t.elem.decode a

/-- An exact result rounded once by MODE into the type, with the flags of forming it. -/
def laneRound (t : Ty) (m : RMode) (r : XVal × FlagSet) : Nat × FlagSet :=
  let c := convert t.elem m 0 r.1
  (c.1, r.2 ||| c.2)

def fltAdd (t : Ty) (m : RMode) (a b : Nat) : Nat × FlagSet := laneRound t m (XVal.add m (laneVal t a) (laneVal t b))
def fltSub (t : Ty) (m : RMode) (a b : Nat) : Nat × FlagSet := laneRound t m (XVal.add m (laneVal t a) (laneVal t b).neg)
def fltMul (t : Ty) (m : RMode) (a b : Nat) : Nat × FlagSet := laneRound t m (XVal.mul (laneVal t a) (laneVal t b))
def fltFma (t : Ty) (m : RMode) (a b d : Nat) : Nat × FlagSet := laneRound t m (XVal.fma m (laneVal t a) (laneVal t b) (laneVal t d))

def signOf (t : Ty) (a : Nat) : Bool := a.testBit (t.bits - 1)

/-- -0 below +0, as minimum and maximum order them. -/
def fltBelow (t : Ty) (a b : Nat) : Bool :=
  match (laneVal t a).cmp (laneVal t b) with
  | some .lt => true
  | some .eq => signOf t a && !signOf t b
  | _ => false

/-- minimum and maximum of IEEE 754-2019, on bits. -/
def fltMin (t : Ty) (a b : Nat) : Nat :=
  if laneVal t a = .nan ∨ laneVal t b = .nan then t.elem.nan else if fltBelow t b a then b else a
def fltMax (t : Ty) (a b : Nat) : Nat :=
  if laneVal t a = .nan ∨ laneVal t b = .nan then t.elem.nan else if fltBelow t a b then b else a

def fltClear (t : Ty) (f : Nat → Nat) (a : Nat) : Nat := if laneVal t a = .nan then t.elem.nan else f a

/-- VRINT: the integral value with the operand's sign; no flag. -/
def fltInt (t : Ty) (m : RMode) (a : Nat) : Nat :=
  match laneVal t a with
  | .fin s n e k => (convert t.elem .rne 0 (.fin s (roundMag m s 0 n e k 0).1 0 false)).1
  | v => (convert t.elem .rne 0 v).1

/-! ### Operations on a lane of either kind -/

def laneAdd (t : Ty) (m : RMode) (a b : Nat) : Nat × FlagSet := if t.isInt then intOp t (· + ·) a b else fltAdd t m a b
def laneSub (t : Ty) (m : RMode) (a b : Nat) : Nat × FlagSet := if t.isInt then intOp t (· - ·) a b else fltSub t m a b
def laneMul (t : Ty) (m : RMode) (a b : Nat) : Nat × FlagSet := if t.isInt then intOp t (· * ·) a b else fltMul t m a b
def laneFma (t : Ty) (m : RMode) (a b d : Nat) : Nat × FlagSet :=
  if t.isInt then (intLane t (laneInt t a * laneInt t b + laneInt t d), 0) else fltFma t m a b d
def laneMin (t : Ty) (a b : Nat) : Nat := if t.isInt then (intOp t min a b).1 else fltMin t a b
def laneMax (t : Ty) (a b : Nat) : Nat := if t.isInt then (intOp t max a b).1 else fltMax t a b
def laneClamp (t : Ty) (a b d : Nat) : Nat × FlagSet := (laneMin t (laneMax t d a) b, 0)
def laneAbs (t : Ty) (a : Nat) : Nat × FlagSet :=
  (if t.isInt then intLane t (laneInt t a).natAbs else fltClear t (fun x => x % 2 ^ (t.bits - 1)) a, 0)
def laneNeg (t : Ty) (a : Nat) : Nat × FlagSet :=
  (if t.isInt then intLane t (-(laneInt t a)) else fltClear t (fun x => x ^^^ 2 ^ (t.bits - 1)) a, 0)

/-- A condition of VCMP on two lanes (R112). -/
def laneCmp (t : Ty) (c : Cnd) (a b : Nat) : Bool :=
  match (laneVal t a).cmp (laneVal t b) with
  | none => c == .ne || c == .un
  | some o =>
    match c with
    | .eq => o == .eq
    | .ne => o != .eq
    | .lt => o == .lt
    | .le => o != .gt
    | .gt => o == .gt
    | .ge => o != .lt
    | .un => false

/-! ### Arithmetic, logic and functions (R110, R111) -/

def execVnop (s : State) : Out := .next s
def execVadd (x : Option VExt) (d a b : VR) (t : Ty) (m : RMode) (p : PR) (s : State) : Out := s.vecBin x (vecLat t 2 4) d a b t p (laneAdd t m)
def execVsub (x : Option VExt) (d a b : VR) (t : Ty) (m : RMode) (p : PR) (s : State) : Out := s.vecBin x (vecLat t 2 4) d a b t p (laneSub t m)
def execVmul (x : Option VExt) (d a b : VR) (t : Ty) (m : RMode) (p : PR) (s : State) : Out := s.vecBin x (vecLat t 2 4) d a b t p (laneMul t m)
def execVfma (x : Option VExt) (d a b : VR) (t : Ty) (m : RMode) (p : PR) (s : State) : Out := s.vecTri x (vecLat t 2 4) d a b t p (laneFma t m)
def execVmin (x : Option VExt) (d a b : VR) (t : Ty) (p : PR) (s : State) : Out := s.vecBin x (vecLat t 2 4) d a b t p fun u v => (laneMin t u v, 0)
def execVmax (x : Option VExt) (d a b : VR) (t : Ty) (p : PR) (s : State) : Out := s.vecBin x (vecLat t 2 4) d a b t p fun u v => (laneMax t u v, 0)
def execVabs (x : Option VExt) (d a : VR) (t : Ty) (p : PR) (s : State) : Out := s.vecUn x 2 d a t p (laneAbs t)
def execVneg (x : Option VExt) (d a : VR) (t : Ty) (p : PR) (s : State) : Out := s.vecUn x 2 d a t p (laneNeg t)
def execVadds (x : Option VExt) (d a b : VR) (t : Ty) (p : PR) (s : State) : Out := s.vecBin x 2 d a b t p (intSat t (· + ·))
def execVsubs (x : Option VExt) (d a b : VR) (t : Ty) (p : PR) (s : State) : Out := s.vecBin x 2 d a b t p (intSat t (· - ·))
def execVand (x : Option VExt) (d a b : VR) (t : Ty) (p : PR) (s : State) : Out := s.vecBin x 2 d a b t p fun u v => (u &&& v, 0)
def execVor (x : Option VExt) (d a b : VR) (t : Ty) (p : PR) (s : State) : Out := s.vecBin x 2 d a b t p fun u v => (u ||| v, 0)
def execVxor (x : Option VExt) (d a b : VR) (t : Ty) (p : PR) (s : State) : Out := s.vecBin x 2 d a b t p fun u v => (u ^^^ v, 0)
def execVshl (x : Option VExt) (d a b : VR) (t : Ty) (p : PR) (s : State) : Out := s.vecBin x 2 d a b t p (laneShl t)
def execVshr (x : Option VExt) (d a b : VR) (t : Ty) (p : PR) (s : State) : Out := s.vecBin x 2 d a b t p (laneShr t)
def execVsar (x : Option VExt) (d a b : VR) (t : Ty) (p : PR) (s : State) : Out := s.vecBin x 2 d a b t p (laneSar t)
def execVclamp (x : Option VExt) (d a b : VR) (t : Ty) (p : PR) (s : State) : Out := s.vecTri x (vecLat t 2 4) d a b t p (laneClamp t)
def execVdiv (x : Option VExt) (d a b : VR) (t : Ty) (m : RMode) (p : PR) (s : State) : Out :=
  s.vecBin x 12 d a b t p fun u v => laneRound t m ((laneVal t u).div (laneVal t v))
def execVsqrt (x : Option VExt) (d a : VR) (t : Ty) (m : RMode) (p : PR) (s : State) : Out :=
  s.vecUn x 12 d a t p fun u => laneRound t m (laneVal t u).sqrt
def execVrcp (x : Option VExt) (d a : VR) (t : Ty) (m : RMode) (p : PR) (s : State) : Out :=
  s.vecUn x 12 d a t p fun u => laneRound t m ((XVal.ofInt 1).div (laneVal t u))
def execVrsq (x : Option VExt) (d a : VR) (t : Ty) (m : RMode) (p : PR) (s : State) : Out :=
  s.vecUn x 12 d a t p fun u => laneRound t m (laneVal t u).rsqrt
def execVexp (x : Option VExt) (d a : VR) (t : Ty) (m : RMode) (p : PR) (s : State) : Out :=
  s.vecUn x 14 d a t p fun u => expFn t.elem m false (laneVal t u)
def execVexp2 (x : Option VExt) (d a : VR) (t : Ty) (m : RMode) (p : PR) (s : State) : Out :=
  s.vecUn x 14 d a t p fun u => expFn t.elem m true (laneVal t u)
def execVlog2 (x : Option VExt) (d a : VR) (t : Ty) (m : RMode) (p : PR) (s : State) : Out :=
  s.vecUn x 14 d a t p fun u => log2Fn t.elem m (laneVal t u)
def execVtanh (x : Option VExt) (d a : VR) (t : Ty) (m : RMode) (p : PR) (s : State) : Out :=
  s.vecUn x 14 d a t p fun u => tanhFn t.elem m (laneVal t u)
def execVrint (x : Option VExt) (d a : VR) (t : Ty) (m : RMode) (p : PR) (s : State) : Out := s.vecUn x 4 d a t p fun u => (fltInt t m u, 0)

/-! ### Compare, select and predicates (R112 to R114) -/

/-- All w bits of each lane set to the lane's answer. -/
def predOf (t : Ty) (l : List Bool) : PReg := BitVec.ofNat 256 (packLanes t.width (l.map fun b => if b then 2 ^ t.width - 1 else 0))

def execVcmp (x : Option VExt) (pd : PR) (a b : VR) (t : Ty) (c : Cnd) (p : PR) (s : State) : Out :=
  .next (s.withStreams (vecStreams x a b) fun s =>
    let r := List.zipWith (laneCmp t c) (vlanes t (s.vsrc (vextQA x) a t.bits)) (vlanes t (s.vsrc (vextQB x) b t.bits))
    s.emit 2 (.p pd (predOf t (List.zipWith (· && ·) (lanesEnabled t (s.cx.rp p)) r))))

def execVsel (x : Option VExt) (d a b : VR) (t : Ty) (p : PR) (s : State) : Out :=
  .next (s.withStreams (vecStreams x a b) fun s =>
    let m := laneMask t.bits (lanesEnabled t (s.cx.rp p))
    s.vecOut 2 d (mixBits m (s.vsrc (vextQB x) b t.bits) (s.vsrc (vextQA x) a t.bits)))

/-- PLOG: bit j is LOP[2 * PA_j + PB_j]. -/
def plogBits (lop : BitVec 4) (a b : PReg) : PReg :=
  (if lop.getLsbD 3 then a &&& b else 0) ||| (if lop.getLsbD 2 then a &&& ~~~b else 0)
    ||| (if lop.getLsbD 1 then ~~~a &&& b else 0) ||| (if lop.getLsbD 0 then ~~~a &&& ~~~b else 0)

def execPlog (d a b : PR) (lop : BitVec 4) (s : State) : Out := .next (s.emit 2 (.p d (plogBits lop (s.cx.rp a) (s.cx.rp b))))

def bitsSet (p : PReg) : Nat := ((List.range 256).filter fun j => p.getLsbD j).length

def execPcnt (a b : PR) (g : GR) (s : State) : Out := .next (s.emit 2 (.g g (BitVec.ofNat 64 (bitsSet (s.cx.rp a &&& s.cx.rp b)))))

/-! ### Random words (R44, R48, R125) -/

/-- The counter that the next draw of the present issue starts from: sys.rngctr, or what an earlier slot of the issue leaves it at. -/
def Ctx.drawFrom (c : Ctx) : BitVec 128 :=
  c.inflight.foldl (fun n l => match l.eff with | .rngctr x => x | _ => n) c.rngctr

/-- Reserves the words of n positions: the counter advances for the next step. -/
def State.reserve (s : State) (n : Nat) : State := s.emit 1 (.rngctr (s.cx.drawFrom + BitVec.ofNat 128 ((n + 3) / 4)))

/-- The words of n positions. -/
def State.words (s : State) (n : Nat) : List Nat := philoxWords s.cx.rngkey s.cx.drawFrom n

/-- A lane of VRAND from its word. -/
def randLane (t : Ty) (w : Nat) : Nat :=
  match t with
  | .f32 => (convert t.elem .rne 0 (.fin false (w / 2 ^ 8) (-24) false)).1
  | .f16 => (convert t.elem .rne 0 (.fin false (w / 2 ^ 21) (-11) false)).1
  | .bf16 => (convert t.elem .rne 0 (.fin false (w / 2 ^ 24) (-8) false)).1
  | .i8 | .i16 | .i32 | .n8 | .n16 | .n32 => w % 2 ^ t.bits

def execVrand (_x : Option VExt) (d : VR) (t : Ty) (p : PR) (s : State) : Out :=
  .next ((s.lanesOut 10 t.bits d (lanesEnabled t (s.cx.rp p)) ((s.words t.lanes).map fun w => (randLane t w, 0))).reserve t.lanes)

/-! ### Conversion (R115 to R117) -/

/-- Element and width in a register of each side of a VCVT. -/
def cvtSide (f : Fmt) (t : Ty) (typeSide : Bool) : Elem × Nat := if typeSide then (t.elem, t.bits) else ((f.elem).getD t.elem, f.bits)

/-- The k element registers together, first lowest. -/
def State.cvtSource (s : State) (x : Option VExt) (a : VR) (k w : Nat) : Nat :=
  if vextQA x then (s.vsrc true a w).toNat
  else packLanes 2048 ((List.range k).map fun i => (s.rv (a + BitVec.ofNat 5 i) w).toNat)

/-- The exact source values, one for each destination position. -/
def State.cvtValues (s : State) (x : Option VExt) (a : VR) (f : Fmt) (t : Ty) (toTy : Bool) : List XVal :=
  let k := cvtRegs f t toTy
  let side := cvtSide f t (!toTy)
  let src := s.cvtSource x a k side.2
  (List.range (cvtDst f t toTy)).map fun j =>
    let v := side.1.decode (laneN side.2 src j)
    if f.isBlock && toTy then scaled (laneN 8 (s.rv (a + BitVec.ofNat 5 k) 8).toNat (j / f.block)) v else v

/-- Successive groups of n. -/
def chunks {α : Type} (n : Nat) : Nat → List α → List (List α)
  | 0, _ => []
  | fuel + 1, l => if l.isEmpty then [] else l.take n :: chunks n fuel (l.drop n)

def execVcvt (x : Option VExt) (d a : VR) (f : Fmt) (t : Ty) (m : RMode) (toTy : Bool) (s : State) : Out :=
  .next (s.withStreams (if vextQA x then [a.setWidth 3] else []) fun s =>
    let n := cvtDst f t toTy
    let vals := s.cvtValues x a f t toTy
    let ws := if m = .sr then s.words n else List.replicate n 0
    let u :=
      if f.isBlock && !toTy then
        match f.elem with
        | some (.float e) =>
          let blocks := (chunks f.block n (vals.zip ws)).map (convertBlock e m)
          ((s.vecOut 4 d (vpack f.bits (blocks.flatMap fun b => b.2.1))).vecOut 4 (d + 1) (vpack 8 (blocks.map (·.1)))).emitFlags 4
            (orFlags (blocks.map fun b => b.2.2))
        | _ => s
      else
        let side := cvtSide f t toTy
        let px := s.cx.rp ((x.map (·.px)).getD 0)
        s.lanesOut 4 side.2 d ((List.range n).map fun j => px.getLsbD (j * side.2 / 8)) (List.zipWith (fun v w => convert side.1 m w v) vals ws)
    if m = .sr then u.reserve n else u)

/-! ### Reductions and scans (R118 to R120) -/

/-- The operation of a node or step. -/
def redOp (t : Ty) (op : RedOp) (m : RMode) (a b : Nat) : Nat × FlagSet :=
  match op with
  | .add => laneAdd t m a b
  | .min => (laneMin t a b, 0)
  | .max => (laneMax t a b, 0)
  | .and => (a &&& b, 0)
  | .or => (a ||| b, 0)
  | .xor => (a ^^^ b, 0)

def redIdentity (t : Ty) (op : RedOp) : Nat :=
  match op with
  | .add | .or | .xor => 0
  | .and => 2 ^ t.bits - 1
  | .min => if t.isInt then intLane t (laneRange t).2 else (convert t.elem .rne 0 (.inf false)).1
  | .max => if t.isInt then intLane t (laneRange t).1 else (convert t.elem .rne 0 (.inf true)).1

/-- A NaN is delivered as the canonical one. -/
def canonical (t : Ty) (a : Nat) : Nat := if t.isFloat ∧ laneVal t a = .nan then t.elem.nan else a

/-- One level of the tree. -/
def redLevel (op : Nat → Nat → Nat × FlagSet) : List (Option Nat) → List (Option Nat) × FlagSet
  | x :: y :: l =>
    let r := redLevel op l
    match x, y with
    | none, y => (y :: r.1, r.2)
    | some a, none => (some a :: r.1, r.2)
    | some a, some b =>
      let z := op a b
      (some z.1 :: r.1, z.2 ||| r.2)
  | l => (l, 0)

/-- The tree of R119 over 2^n lanes. -/
def redTree (op : Nat → Nat → Nat × FlagSet) : Nat → List (Option Nat) → FlagSet → Option Nat × FlagSet
  | 0, l, f => ((l.head?).getD none, f)
  | n + 1, l, f =>
    let r := redLevel op l
    redTree op n r.1 (f ||| r.2)

/-- The lanes that a predicate enables, the others ABSENT. -/
def presentLanes (en : List Bool) (l : List Nat) : List (Option Nat) := List.zipWith (fun b x => if b then some x else none) en l

def execVred (x : Option VExt) (d a : VR) (op : RedOp) (t : Ty) (m : RMode) (p : PR) (s : State) : Out :=
  .next (s.withStreams (vecStreams x a 0) fun s =>
    let l := presentLanes (lanesEnabled t (s.cx.rp p)) (vlanes t (s.vsrc (vextQA x) a t.bits))
    let r := redTree (redOp t op m) (Nat.log2 t.lanes) l 0
    (s.vecOut 6 d (BitVec.ofNat 2048 (canonical t (r.1.getD (redIdentity t op))))).emitFlags 6 r.2)

/-- The scan of R120: the running value, and each lane's result with its flags. -/
def scanLanes (t : Ty) (op : Nat → Nat → Nat × FlagSet) : Option Nat → List (Option Nat) → List (Nat × FlagSet)
  | _, [] => []
  | acc, none :: l => (0, 0) :: scanLanes t op acc l
  | none, some x :: l => (canonical t x, 0) :: scanLanes t op (some (canonical t x)) l
  | some a, some x :: l =>
    let z := op a x
    z :: scanLanes t op (some z.1) l

def execVscan (x : Option VExt) (d a : VR) (op : RedOp) (t : Ty) (m : RMode) (p : PR) (s : State) : Out :=
  .next (s.withStreams (vecStreams x a 0) fun s =>
    let en := lanesEnabled t (s.cx.rp p)
    s.lanesOut 8 t.bits d en (scanLanes t (redOp t op m) none (presentLanes en (vlanes t (s.vsrc (vextQA x) a t.bits)))))

/-! ### Divergence (R121, R122) -/

/-- A list of indices as 128 n16 entries, the rest 0xFFFF. -/
def indexReg (l : List Nat) : VReg := vpack 16 (l ++ List.replicate (128 - l.length) 0xFFFF)

def execVpart (_x : Option VExt) (d : VR) (g : GR) (t : Ty) (p : PR) (s : State) : Out :=
  let en := lanesEnabled t (s.cx.rp p)
  let yes := (List.range t.lanes).filter fun i => en.getD i false
  let no := (List.range t.lanes).filter fun i => !en.getD i false
  .next (s.emitAll 8 [.v d (BitVec.allOnes 2048) (indexReg yes), .v (d + 1) (BitVec.allOnes 2048) (indexReg no),
    .g g (BitVec.ofNat 64 yes.length), .g (g + 1) (BitVec.ofNat 64 no.length)])

def execVgath (x : Option VExt) (d a b : VR) (t : Ty) (p : PR) (s : State) : Out :=
  .next (s.withStreams (vecStreams x a b) fun s =>
    let va := (s.vsrc (vextQA x) a t.bits).toNat
    let vb := (s.vsrc (vextQB x) b 16).toNat
    s.emit 6 (.v d (laneMask t.bits (lanesEnabled t (s.cx.rp p)))
      (vpack t.bits ((List.range t.lanes).map fun i => if laneN 16 vb i < t.lanes then laneN t.bits va (laneN 16 vb i) else 0))))

/-- The lane that lands in lane j of a VSCAT: the highest enabled i with e_i = j. -/
def scatterFrom (t : Ty) (en : List Bool) (vb : Nat) (j : Nat) : Option Nat :=
  ((List.range t.lanes).reverse).find? fun i => en.getD i false && laneN 16 vb i == j

def execVscat (x : Option VExt) (d a b : VR) (t : Ty) (p : PR) (s : State) : Out :=
  .next (s.withStreams (vecStreams x a b) fun s =>
    let va := (s.vsrc (vextQA x) a t.bits).toNat
    let from? := (List.range t.lanes).map (scatterFrom t (lanesEnabled t (s.cx.rp p)) (s.vsrc (vextQB x) b 16).toNat)
    s.emit 6 (.v d (laneMask t.bits (from?.map Option.isSome)) (vpack t.bits (from?.map fun o => match o with | some i => laneN t.bits va i | none => 0))))

/-! ### Lane movement (R123, R124) -/

def execVperm (x : Option VExt) (d a b : VR) (t : Ty) (p : PR) (s : State) : Out :=
  s.vecMove x 3 d a b t p fun u v i => if v i < t.lanes then u (v i) else 0
def execVzip (x : Option VExt) (d a b : VR) (t : Ty) (p : PR) (s : State) : Out :=
  s.vecMove x 3 d a b t p fun u v i => if i % 2 = 0 then u (i / 2) else v (i / 2)
def execVunzip (x : Option VExt) (d a b : VR) (t : Ty) (p : PR) (s : State) : Out :=
  s.vecMove x 3 d a b t p fun u v i => if 2 * i < t.lanes then u (2 * i) else v (2 * i - t.lanes)
def execVmov (x : Option VExt) (d a : VR) (t : Ty) (p : PR) (s : State) : Out := s.vecMove x 2 d a 0 t p fun u _ i => u i

def execVbcast (_x : Option VExt) (d : VR) (g : GR) (t : Ty) (p : PR) (s : State) : Out :=
  .next (s.lanesOut 2 t.bits d (lanesEnabled t (s.cx.rp p)) (List.replicate t.lanes ((s.rg g).toNat % 2 ^ t.bits, 0)))
def execViota (_x : Option VExt) (d : VR) (g : GR) (t : Ty) (p : PR) (s : State) : Out :=
  .next (s.lanesOut 2 t.bits d (lanesEnabled t (s.cx.rp p)) ((List.range t.lanes).map fun i => (((s.rg g).toNat + i) % 2 ^ t.bits, 0)))

def execVext (x : Option VExt) (d : GR) (a : VR) (g : GR) (t : Ty) (s : State) : Out :=
  .next (s.withStreams (vecStreams x a 0) fun s =>
    let v := laneN t.bits (s.vsrc (vextQA x) a t.bits).toNat ((s.rg g).toNat % t.lanes)
    s.emit 2 (.g d (if t.signed then sext64 t.bits v else zext64 t.bits v)))

def execVins (_x : Option VExt) (d : VR) (a : GR) (g : GR) (t : Ty) (s : State) : Out :=
  let n := (s.rg a).toNat % t.lanes
  .next (s.emit 2 (.v d (BitVec.ofNat 2048 ((2 ^ t.bits - 1) * 2 ^ (t.bits * n))) (BitVec.ofNat 2048 ((s.rg g).toNat % 2 ^ t.bits * 2 ^ (t.bits * n)))))

end Sys2Proof.Machine
end

