-- ==== Sys2Proof/Machine/Matrix.lean ====
section
/-! DEFINITION. Machine/Matrix.lean: the M slot (R126 to R146): beats, drains, the shadow plane, the image of the matrix state. -/

namespace Sys2Proof.Machine

/-! ### Operand pairs and exact sums (R128, R129) -/

def State.mat (s : State) : Matrix := (s.core s.cx.coreNum).mat
def State.modMat (s : State) (f : Matrix → Matrix) : State := s.modCore s.cx.coreNum fun k => { k with mat := f k.mat }

/-- An integer format of the array. -/
def isIntegerFmt (f : Fmt) : Bool :=
  match f with
  | .int16 | .int8 | .uint8 | .int4 | .uint4 | .int2 => true
  | _ => false

/-- The kind of a legal pair of an activation format and a plane format: true for integer kind. -/
def beatKind (a w : Fmt) : Option Bool :=
  if a = .raw ∨ w = .raw ∨ a.isAq ∨ a.bits ≠ w.bits then none
  else if isIntegerFmt a ∧ isIntegerFmt w then some true
  else if isIntegerFmt a ∨ isIntegerFmt w then none
  else some false

/-- The recorded format of the active plane; 0x00 is RAW, not loaded. -/
def Matrix.activeFmt (m : Matrix) : Fmt := (Fmt.ofCode (m.recs[m.activeIx]).2.2.toNat).getD .raw

/-- Whether an accumulator row is read as integers by drains (R136). -/
def Matrix.drainsInt (m : Matrix) : Bool := isIntegerFmt m.activeFmt

/-- The element of a format; RAW, which no beat reads, as bytes. -/
def elemOf (f : Fmt) : Elem := (f.elem).getD (.int false 8)

/-- Element k of an activation row, with its block's scale from the row's scale slot. -/
def actValue (f : Fmt) (row : VReg) (slot : Nat) (k : Nat) : XVal :=
  let x := (elemOf f).decode (laneN f.bits row.toNat k)
  if f.isBlock then scaled (laneN 8 slot (k / f.block)) x else x

/-- Group size of a recorded GRP (R16, R38); of the value 3, which only a loaded image can hold, 256 (DESIGN CHOICE, log 67). -/
def groupSize (grp : Nat) : Nat := 32 * 2 ^ grp

/-- Element k of a plane column with its scale column (R126, R129). -/
def planeValue (f : Fmt) (grp : Nat) (col : VReg) (scales : ScaleCol) (k : Nat) : XVal :=
  let q := laneN f.bits col.toNat k
  if f.isAq then
    let e := laneN 32 scales.toNat (k / groupSize grp)
    asymmetric (e % 2 ^ 16) q (bitsOf e 16 (if f = .aq4 then 4 else 8))
  else
    let x := (elemOf f).decode q
    if f.isBlock then scaled (laneN 8 scales.toNat (k / f.block)) x else x

/-- The exact sum of products of float kind: -0 only when every product is. -/
def exactSum (l : List XVal) : XVal := l.foldl (fun a x => (XVal.add .rne a x).1) (.zero true)

/-- An exact finite value that is an integer. -/
def XVal.toInt : XVal → Int
  | .fin s m e _ => signedOf s (m * 2 ^ e.toNat)
  | _ => 0

/-- S_n for every column n (R129). -/
def Matrix.sums (m : Matrix) (int : Bool) (f : Fmt) (row : VReg) (slot : Nat) : BeatSums :=
  let wf := m.activeFmt
  let grp := (m.recs[m.activeIx]).2.1.toNat
  let acts := (List.range f.perRow).map (actValue f row slot)
  let cols := (m.planes[m.activeIx].toList.zip m.scales[m.activeIx].toList)
  let products (c : VReg × ScaleCol) : List XVal := acts.zipIdx.map fun (a, k) => (XVal.mul a (planeValue wf grp c.1 c.2 k)).1
  if int then .int (cols.map fun c => ((products c).map XVal.toInt).foldl (· + ·) 0)
  else .float (cols.map fun c => exactSum (products c))

/-! ### Ownership (R11, R313) -/

/-- The fault of a context that does not own the matrix state. -/
def State.matrixSwitch (s : State) : State := s.slotTrap .matrixSwitch 0 .matrixSwitch

def State.setDirty (s : State) (b : Bool) : State := s.modCore s.cx.coreNum fun k => { k with mdirty := b }

/-- An MSTLOAD of the core is outstanding: an M-slot operation holds its bundle (R143). -/
def State.mstloadOpen (s : State) : Bool := s.accs.any fun a => a.core == s.cx.coreNum && (match a.kind with | .load (.image _) => true | _ => false)

/-! ### The shadow field (R139 to R141) -/

/-- A row of a block-scaled bank that holds scales. -/
def Ctx.scaleRow (c : Ctx) (r : Nat) : Bool := !dataRowOk (emFmt (c.emOfRow r)) r

/-- The 64-byte side-table entry of an AQ row (R39). -/
def Ctx.sideEntry (c : Ctx) (r : Nat) : Nat := c.window.readLE (65536 * emSide (c.emOfRow r) + 64 * (r % 256)) 64

/-- Whether an AQ bank's side table lies outside the window. -/
def Ctx.sideOutside (c : Ctx) (r : Nat) : Bool := (emFmt (c.emOfRow r)).isAq && decide (c.kernel.banks ≤ emSide (c.emOfRow r))

/-- GRP as a shadow record holds it. -/
def Ctx.recGrp (c : Ctx) (r : Nat) : BitVec 2 := if (emFmt (c.emOfRow r)).isAq then BitVec.ofNat 2 (emGrp (c.emOfRow r)) else 0

/-- Whether an open shadow record disagrees with a row's bank. -/
def State.recordDiffers (s : State) (r : Nat) : Bool :=
  let (o, g, f) := s.mat.recs[s.mat.shadowIx]
  o && (f.toNat != bitsOf (s.cx.emOfRow r).toNat 0 5 || ((emFmt (s.cx.emOfRow r)).isAq && g != s.cx.recGrp r))

/-- The fault of a shadow operation. -/
def State.shadowFault? (s : State) (h : Shadow) : Option State :=
  match s.row? h.w with
  | none => some (s.slotFault .permission ((s.walker h.w).setWidth 64))
  | some r =>
    if s.cx.scaleRow r then some (s.slotFault .formatMismatch 0)
    else if h.op = .mldss then none
    else if emFmt (s.cx.emOfRow r) = .raw ∨ s.recordDiffers r then some (s.slotFault .formatMismatch 0)
    else if s.cx.sideOutside r then some (s.slotFault .permission ((s.walker h.w).setWidth 64))
    else none

/-- The shadow record is set by the first load into a plane. -/
def Matrix.openRecord (m : Matrix) (f : Nat) (g : BitVec 2) : Matrix :=
  { m with recs := m.recs.set m.shadowIx (if (m.recs[m.shadowIx]).1 then m.recs[m.shadowIx] else (true, g, BitVec.ofNat 5 f)) }

/-- The elements of a row as MLDST spreads them over the columns. -/
def transposed (f : Fmt) (lcur : Nat) (row : VReg) : List (Nat × VReg × VReg) :=
  (List.range f.perRow).map fun e =>
    let p := lcur * f.perRow + e
    let at' := f.bits * (p / 128)
    (p % 128, BitVec.ofNat 2048 ((2 ^ f.bits - 1) * 2 ^ at'), BitVec.ofNat 2048 (laneN f.bits row.toNat e * 2 ^ at'))

/-- A shadow operation's effect: record and cursor now, the plane two steps later (R140). The bytes of the scale column that an MLDS has no data for become zero (DESIGN CHOICE, log 66). -/
def State.shadowCommit (s : State) (h : Shadow) : State :=
  match s.row? h.w with
  | none => s
  | some r =>
    let m := s.mat
    let plane := m.shadowIx = 1
    let x := s.cx.emOfRow r
    let f := emFmt x
    let row := s.cx.readRow r
    let t := match h.op with
      | .mlds =>
        let sc := if f.isBlock then s.cx.scaleSlot r else if f.isAq then s.cx.sideEntry r else 0
        ((s.emit 2 (.planeCol plane [(m.lcur.toNat, BitVec.allOnes 2048, row)])).emit 2 (.scaleCol plane m.lcur.toNat (BitVec.ofNat 512 sc))).modMat
          fun m => { m.openRecord (bitsOf x.toNat 0 5) (s.cx.recGrp r) with lcur := m.lcur + 1 }
      | .mldst =>
        (s.emit 2 (.planeCol plane (transposed f m.lcur.toNat row))).modMat
          fun m => { m.openRecord (bitsOf x.toNat 0 5) (s.cx.recGrp r) with lcur := m.lcur + 1 }
      | .mldss =>
        (s.emit 2 (.scaleCol plane m.scur.toNat (BitVec.ofNat 512 (row.toNat % 2 ^ 504)))).modMat fun m => { m with scur := m.scur + 1 }
    t.mark h.w h.mark

def State.shadowFaults (s : State) : Option Shadow → Option State
  | none => none
  | some h => s.shadowFault? h

def State.shadowCommits (s : State) : Option Shadow → State
  | none => s
  | some h => s.shadowCommit h

/-! ### The M word as one unit (R144) -/

/-- An M word of a context in U or S mode: held while an MSTLOAD is outstanding, then ownership, the beat's fault, the shadow's fault, and both effects. -/
def State.mword (s : State) (h : Option Shadow) (fault : Option State) (commit : State → State) : Out :=
  if s.mstloadOpen then .next s
  else if !s.ownsMatrix then .next s.matrixSwitch
  else
    match fault with
    | some t => .next t
    | none =>
      match s.shadowFaults h with
      | some t => .next t
      | none => .next (((commit s).shadowCommits h).setDirty true)

/-- The accumulator row of walker AA (R132). -/
def State.accRow (s : State) (a : AR) : Nat := (s.walker a).toNat % 128

def execMnop (s : State) : Out := .next s

/-! ### Pushes (R131 to R134) -/

/-- The window row that a push reads: of a walker, or the head of a stream. -/
def State.pushRow (s : State) (w : AR) (qs : Bool) : Option Nat := if qs then some (s.cx.streamRow (w.setWidth 3)) else s.row? w

/-- The fault of a push. -/
def State.pushFault? (s : State) (w : AR) (qs : Bool) : Option State :=
  match if qs then s.streamFault? (w.setWidth 3) else none with
  | some t => some t
  | none =>
    match s.pushRow w qs with
    | none => some (s.slotFault .permission ((s.walker w).setWidth 64))
    | some r =>
      if s.cx.scaleRow r ∨ (beatKind (emFmt (s.cx.emOfRow r)) s.mat.activeFmt).isNone then some (s.slotFault .formatMismatch 0) else none

/-- Whether a push waits for its stream element. -/
def holdPush (w : AR) (qs : Bool) (s : State) : Option State := if qs && s.cx.streamEmpty (w.setWidth 3) then some s else none

def State.pushCommit (s : State) (z : Bool) (a : AR) (am : Bool) (w : AR) (sm qs : Bool) : State :=
  match s.pushRow w qs with
  | none => s
  | some r =>
    let f := emFmt (s.cx.emOfRow r)
    let int := (beatKind f s.mat.activeFmt).getD false
    let t := (s.emit 10 (.beat (s.accRow a) z (s.mat.sums int f (s.cx.readRow r) (s.cx.scaleSlot r)) s.mat.sat)).mark a am
    if qs then t.streamTake (w.setWidth 3) else t.mark w sm

def execMpush (a : AR) (am : Bool) (w : AR) (sm : Bool) (qs : Bool) (h : Option Shadow) (s : State) : Out :=
  match holdPush w qs s with
  | some t => .next t
  | none => s.mword h (s.pushFault? w qs) fun s => s.pushCommit false a am w sm qs

def execMpushz (a : AR) (am : Bool) (w : AR) (sm : Bool) (qs : Bool) (h : Option Shadow) (s : State) : Out :=
  match holdPush w qs s with
  | some t => .next t
  | none => s.mword h (s.pushFault? w qs) fun s => s.pushCommit true a am w sm qs

def execMzero (a : AR) (am : Bool) (h : Option Shadow) (s : State) : Out :=
  s.mword h none fun s => (s.emit 10 (.accZero (s.accRow a))).mark a am

/-! ### Drains (R135 to R137) -/

/-- The 512 bytes of an accumulator row as a number. -/
def State.accBits (s : State) (a : AR) : Nat := (s.mat.acc[s.accRow a]'(Nat.mod_lt _ (by decide))).toNat

/-- The columns of a row into two v registers. -/
def State.drainTo (s : State) (a : AR) (am : Bool) (d : VR) : State :=
  let x := s.accBits a
  ((s.emit 4 (.v d (BitVec.allOnes 2048) (BitVec.ofNat 2048 x))).emit 4 (.v (d + 1) (BitVec.allOnes 2048) (BitVec.ofNat 2048 (x / 2 ^ 2048)))).mark a am

def execMdrain (a : AR) (am : Bool) (d : VR) (h : Option Shadow) (s : State) : Out := s.mword h none fun s => s.drainTo a am d

def execMdrainz (a : AR) (am : Bool) (d : VR) (h : Option Shadow) (s : State) : Out :=
  s.mword h none fun s => (s.drainTo a am d).emit 1 (.drainZero (s.accRow a))

/-- The values of an accumulator row as its drains read them. -/
def State.drainValues (s : State) (a : AR) : List XVal :=
  let x := s.accBits a
  (List.range 128).map fun n =>
    if s.mat.drainsInt then .ofInt (BitVec.ofNat 32 (laneN 32 x n)).toInt else F32.decode (laneN 32 x n)

/-- The window bytes that an MDRAINS writes from row r (R136). -/
def State.drainCells (s : State) (a : AR) (r : Nat) : List (Nat × Byte) :=
  let f := emFmt (s.cx.emOfRow r)
  let vals := s.drainValues a
  if f = .raw then cellsAt (256 * r) (leBytes 512 (s.accBits a))
  else
    match (elemOf f) with
    | .float e =>
      if f.isBlock then
        let blocks := (chunks f.block 4 (vals.map fun v => (v, 0))).map (convertBlock e .rne)
        cellsAt (256 * r) (leBytes (16 * f.bits) (packLanes f.bits (blocks.flatMap fun b => b.2.1)))
          ++ cellsAt (65536 * (r / 256) + 61440 + 16 * (r % 256)) (blocks.map fun b => BitVec.ofNat 8 b.1)
      else cellsAt (256 * r) (leBytes (16 * f.bits) (packLanes f.bits (vals.map fun v => (convert (elemOf f) .rne 0 v).1)))
    | .int .. => cellsAt (256 * r) (leBytes (16 * f.bits) (packLanes f.bits (vals.map fun v => (convert (elemOf f) .rne 0 v).1)))

/-- The fault of an MDRAINS. -/
def State.drainFault? (s : State) (w : AR) : Option State :=
  match s.row? w with
  | none => some (s.slotFault .permission ((s.walker w).setWidth 64))
  | some r =>
    if s.cx.rows < r + drainRows s.cx w then some (s.slotFault .permission ((s.walker w).setWidth 64))
    else if s.cx.scaleRow r ∨ (emFmt (s.cx.emOfRow r)).isAq then some (s.slotFault .formatMismatch 0)
    else none

/-- An MDRAINS waits for commands of its context that read or write the bytes it writes (R258). -/
def holdDrains (a w : AR) (s : State) : Option State :=
  match s.row? w with
  | none => none
  | some r => if (s.drainFault? w).isNone && s.engineHolds ((s.drainCells a r).map (·.1)) then some s else none

def execMdrains (a : AR) (am : Bool) (w : AR) (sm : Bool) (h : Option Shadow) (s : State) : Out :=
  match holdDrains a w s with
  | some t => .next t
  | none => s.mword h (s.drainFault? w) fun s =>
      match s.row? w with
      | none => s
      | some r => ((s.emit 4 (.window (s.drainCells a r))).mark a am).mark w sm

/-- Addresses are counted modulo 2^64 (DESIGN CHOICE, log 83). -/
def execMdrainw (a : AR) (am : Bool) (g : GR) (h : Option Shadow) (s : State) : Out :=
  s.mword h (if (s.rg g).toNat % 4 ≠ 0 then some (s.slotFault .misaligned (s.rg g)) else none) fun s =>
    let x := s.accBits a
    let parts := (List.range 128).map fun n =>
      (⟨(s.rg g + BitVec.ofNat 64 (4 * n)).toNat, 0, false, List.replicate 4 true, leBytes 4 (laneN 32 x n), .waiting⟩ : Part)
    (s.addAcc 0x06 (.winAdd s.mat.drainsInt) .tl none false parts).mark a am

/-! ### Swap and modes (R138, R140, R141) -/

def execMswap (s : State) : Out := s.mword none none fun s => s.emit 1 .swap
def execMmodeWrap (h : Option Shadow) (s : State) : Out := s.mword h none fun s => s.emit 1 (.sat false)
def execMmodeSat (h : Option Shadow) (s : State) : Out := s.mword h none fun s => s.emit 1 (.sat true)
def execMmodeClrovf (h : Option Shadow) (s : State) : Out := s.mword h none fun s => s.emit 1 .clrOvf

def execMlds (w : AR) (m : Bool) (s : State) : Out := s.mword (some ⟨.mlds, w, m⟩) none id
def execMldst (w : AR) (m : Bool) (s : State) : Out := s.mword (some ⟨.mldst, w, m⟩) none id
def execMldss (w : AR) (m : Bool) (s : State) : Out := s.mword (some ⟨.mldss, w, m⟩) none id

/-! ### The image (R142, R143) -/

/-- Bytes of the image. -/
def imageBytes : Nat := 147456

def recByte (r : Bool × BitVec 2 × BitVec 5) : Nat := r.1.toNat * 128 + r.2.1.toNat * 32 + r.2.2.toNat

/-- Byte 63 of a scale column (R127). -/
def Matrix.controlByte (m : Matrix) (shadow : Bool) (n : Nat) : Nat :=
  if shadow then (if n = 0 then recByte m.recs[m.shadowIx] else 0)
  else if n = 0 then recByte m.recs[m.activeIx]
  else if n = 1 then m.lcur.toNat
  else if n = 2 then m.scur.toNat
  else if n = 3 then m.ovf.toNat * 2 + m.sat.toNat
  else 0

/-- The bytes of a region of n-byte entries in a vector of 128. -/
def vecBytes {w : Nat} (v : Vector (BitVec w) 128) (n i : Nat) : Nat :=
  laneN 8 (v[i / n % 128]'(Nat.mod_lt _ (by decide))).toNat (i % n)

/-- Byte i of the image of a matrix state. -/
def Matrix.imageByte (m : Matrix) (i : Nat) : Byte :=
  BitVec.ofNat 8 (
    if i < 0x10000 then vecBytes m.acc 512 i
    else if i < 0x18000 then vecBytes m.planes[m.activeIx] 256 (i - 0x10000)
    else if i < 0x20000 then vecBytes m.planes[m.shadowIx] 256 (i - 0x18000)
    else
      let shadow := decide (0x22000 ≤ i)
      let j := i % 0x2000
      if j % 64 = 63 then m.controlByte shadow (j / 64)
      else vecBytes m.scales[if shadow then m.shadowIx else m.activeIx] 64 j)

/-- A format record from its byte. -/
def recOf (x : Nat) : Bool × BitVec 2 × BitVec 5 := (x.testBit 7, BitVec.ofNat 2 (x / 32), BitVec.ofNat 5 x)

/-- 128 entries of n bytes from a list of bytes. -/
def vecOfBytes (w n : Nat) (l : List Byte) : Vector (BitVec w) 128 :=
  Vector.ofFn fun i : Fin 128 => BitVec.ofNat w (leNat ((l.drop (n * i.val)).take n))

/-- The matrix state that an image gives; `act` numbers its active plane. Reserved bytes and bits become zero. -/
def Matrix.ofImage (act : Bool) (l : List Byte) : Matrix :=
  let a : Vector VReg 128 := vecOfBytes 2048 256 (l.drop 0x10000)
  let b : Vector VReg 128 := vecOfBytes 2048 256 (l.drop 0x18000)
  let sa : Vector ScaleCol 128 := (vecOfBytes 512 64 (l.drop 0x20000)).map (· &&& scaleMask)
  let sb : Vector ScaleCol 128 := (vecOfBytes 512 64 (l.drop 0x22000)).map (· &&& scaleMask)
  let c (i : Nat) : Nat := (l.getD i 0).toNat
  let ra := recOf (c 0x2003F)
  let rb := recOf (c 0x2203F)
  { acc := vecOfBytes 4096 512 l
    planes := if act then ⟨#[b, a], rfl⟩ else ⟨#[a, b], rfl⟩
    scales := if act then ⟨#[sb, sa], rfl⟩ else ⟨#[sa, sb], rfl⟩
    act := act
    recs := if act then ⟨#[rb, ra], rfl⟩ else ⟨#[ra, rb], rfl⟩
    lcur := BitVec.ofNat 7 (c 0x2007F)
    scur := BitVec.ofNat 7 (c 0x200BF)
    ovf := (c 0x200FF).testBit 1
    sat := (c 0x200FF).testBit 0 }

/-- The matrix state once every M-slot operation that the context has issued has landed. -/
def State.matLanded (s : State) : Matrix := (s.cx.inflight.filter fun l => l.eff.onMatrix).foldl (fun m l => m.apply l.eff) s.mat

/-- The owner's record keeps which physical plane is active, before an image replaces the state. -/
def State.keepAct (s : State) : State :=
  let n := s.cx.coreNum
  let k := s.core n
  if k.mowner = 0xFFFF then s
  else
    match s.ctxAt n k.mhwc.toNat with
    | some j => s.modCtx j fun c => { c with mact := k.mat.act }
    | none => s

/-- What both check: the mode, the address, the image's pages; a shadow operation beside them needs ownership as any other. -/
def State.imageWord (s : State) (g : GR) (h : Option Shadow) (need : Need) (data : Nat → Byte) (commit : List Part → State → State) : Out :=
  if s.mstloadOpen then .next s
  else if !s.cx.mode then .next (s.slotFault .privilege 0)
  else
    match s.checkAddr (s.rg g) 4096 with
    | some t => .next t
    | none =>
      match s.rangeParts need (s.rg g).toNat imageBytes allBytes data with
      | .fail f => .next (s.accTrap f)
      | .ok parts t =>
        if h.isSome && !s.ownsMatrix then .next s.matrixSwitch
        else
          match s.shadowFaults h with
          | some u => .next u
          | none => .next (((commit parts (t.keepAct.setDirty false)).shadowCommits h).setDirty h.isSome)

def execMstsave (g : GR) (h : Option Shadow) (s : State) : Out :=
  let m := s.matLanded
  s.imageWord g h .write m.imageByte fun parts t => t.addAcc 0x0A .store .st none false parts

def execMstload (g : GR) (h : Option Shadow) (s : State) : Out :=
  s.imageWord g h .read noData fun parts t => t.addAcc 0x0B (.load (.image s.cx.step)) .ld none false parts

/-- Whether a landing comes of an M-slot operation issued before an MSTLOAD of step `step`, and not of the shadow operation beside it (R143). -/
def Landing.beforeImage (l : Landing) (step : Nat) : Bool :=
  match l.eff with
  | .planeCol .. | .scaleCol .. => decide (l.due < step + 2)
  | e => e.onMatrix

/-- Whether an MSTLOAD still waits for what its context issued before it, in the handler that issued it, to land (R143). -/
def State.imageWaits (s : State) (k step : Nat) : Bool := (s.ctx k).mode && (s.ctx k).inflight.any fun l => l.beforeImage step

/-- The image of an MSTLOAD replaces the whole matrix state at one moment (R143). -/
def State.landImage (s : State) (a : Acc) : State :=
  let c := s.ctx a.ctx
  let n := c.coreNum
  let k := s.core n
  let act := if k.mowner ≠ 0xFFFF ∧ k.mhwc.toNat = c.hw then k.mat.act else c.mact
  s.setCore n { k with mat := Matrix.ofImage act a.bytes, badMat := false }

/-- LOAD_RETIRE: an access that brings a value back retires; of an MSTLOAD it is the matrix state, once what was issued before it has landed (R21, R143). -/
def execLoadRetire (id : Nat) (s : State) : Out :=
  match s.acc? id with
  | none => .next s
  | some a =>
    match a.kind with
    | .load (.image step) =>
      if a.parts.all Part.answered ∧ a.failure?.isNone ∧ (s.ctx a.ctx).phase = .live then
        .next (if s.imageWaits a.ctx step then s else (s.retireLoad id).landImage a)
      else .next (s.retireLoad id)
    | _ => .next (s.retireLoad id)

end Sys2Proof.Machine
end

