-- ==== Sys2Proof/Machine/Copy.lean ====
section
/-! DEFINITION. Machine/Copy.lean: the copy engine as the X slot commands it: operand checks (R259 to R272), spools and stream registers (R274 to R278), XFMT, XSTAT and RNGSET (R280 to R282). -/

namespace Sys2Proof.Machine

/-! ### A command from its word (R265) -/

/-- The scratchpad side of a command (R260). -/
def State.nearSide (s : State) (d : CopySide) : Side :=
  match d with
  | .walker w _ => .spad (256 * ((s.walker w).toNat / 256))
  | .spool n => .spool n.toNat

def State.markSide (s : State) (d : CopySide) : State :=
  match d with
  | .walker w m => s.mark w m
  | .spool _ => s

/-- Window bytes that this issue's earlier slots write, with what they hold (R208). -/
def State.ownWrites (s : State) : List (Nat × Byte) :=
  (s.cx.inflight.drop s.issue.base).flatMap fun l =>
    match l.eff with
    | .window cells => cells.map fun e => (e.1, s.cx.window.get e.1)
    | _ => []

/-- A command as its operands stand at issue (R256). -/
def State.command (s : State) (op : Nat) (x : XR) (src dst : Side) (scales : Nat) (index : Option (Nat × Bool)) (adds : Bool) (o : CmdOrder) : Cmd where
  id := s.nextId
  ctx := s.cur
  rank := s.cx.rank
  core := s.cx.coreNum
  opc := op
  epc := s.cx.pc
  shape := s.cx.rx x
  src := src
  dst := dst
  scaleBase := scales
  index := index
  indices := []
  adds := adds
  emulsion := s.cx.emulsion
  order := o
  ctr := s.cx.drawFrom
  key := s.cx.rngkey
  started := false
  acq := o.acq
  run := 0
  elem := 0
  flags := 0
  stopped := none
  reported := false
  keep := s.ownWrites
  keepG := []
  shut := s.issue.fixed
  first := s.issue.first
  fetched := []
  refused := []
  parked := []
  out := []
  cls := if adds then .tl else .cp

/-! ### Checks at issue (R272) -/

/-- Format of a side for run r, where it is known at issue (R261). -/
def Cmd.fmtAt (c : Cmd) (k : Ctx) (dst : Bool) (r : Nat) : Option Fmt :=
  match if dst then c.dst else c.src with
  | .global _ => some c.gfmt
  | .spad a => if c.spadAt dst a r / 65536 < k.kernel.banks then some (c.bankFmt (c.spadAt dst a r)) else none
  | .spool n => (tabGet k.spools n).map fun sp => c.bankFmt (256 * sp.base)
  | .pattern _ | .targets .. => none

/-- RAW or AQ beside a different format (R261). -/
def unlike (a b : Fmt) : Bool := a != b && (a == .raw || b == .raw || a.isAq || b.isAq)

/-- Whether a spool of a block-scaled format breaks R263 for runs of n elements. -/
def blockSpoolBad (f : Fmt) (sp : Spool) (n : Nat) : Bool :=
  f.isBlock && (decide (240 < sp.base % 256 + sp.size) || n % f.block != 0 || decide (f.perRow < n))

/-- Whether a side breaks R262 or R263. -/
def Cmd.blockBad (c : Cmd) (k : Ctx) (dst : Bool) : Bool :=
  let n := shN0 c.shape
  match if dst then c.dst else c.src with
  | .global _ => c.gfmt.isBlock && n % c.gfmt.block != 0
  | .spad a => (List.range (shRuns c.shape)).any fun r =>
      match c.fmtAt k dst r with
      | none => false
      | some f =>
        let at' := c.spadAt dst a r
        f.isBlock && (n % f.block != 0 || at' % 256 != 0 || decide (240 ≤ at' / 256 % 256) || decide (f.perRow < n))
  | .spool m =>
    match tabGet k.spools m with
    | none => false
    | some sp => blockSpoolBad (c.bankFmt (256 * sp.base)) sp n
  | .pattern _ | .targets .. => false

/-- Every run's pair of formats, where both are known. -/
def Cmd.pairs (c : Cmd) (k : Ctx) : List (Fmt × Fmt) :=
  (List.range (shRuns c.shape)).filterMap fun r =>
    match c.fmtAt k false r, c.fmtAt k true r with
    | some a, some b => some (a, b)
    | _, _ => none

def Cmd.isFill (c : Cmd) : Bool := match c.src with | .pattern _ => true | _ => false
def Cmd.isMulticast (c : Cmd) : Bool := match c.dst with | .targets .. => true | _ => false

/-- FORMAT_MISMATCH of R272. A CPM of a block-scaled GFMT has no scale array (DEDUCED, log 11). -/
def Cmd.formatBad (c : Cmd) (k : Ctx) : Bool :=
  decide (5 ≤ shMode c.shape) || (shFmt c.shape).isNone || (c.pairs k).any (fun e => unlike e.1 e.2)
    || c.blockBad k false || c.blockBad k true
    || (c.adds && (c.gfmt != .f32 || (c.pairs k).any fun e => e.1 != .f32))
    || (c.index.isSome && (c.gfmt.isBlock || shN2 c.shape != 1 || shN3 c.shape != 1))
    || (c.isFill && (match c.dst with
          | .global _ => c.gfmt.isBlock
          | _ => (List.range (shRuns c.shape)).any fun r => match c.fmtAt k true r with | some f => f.isBlock | none => false))
    || (c.isMulticast && c.gfmt.isBlock)

/-- Bits of an element on a side, for run r. -/
def Cmd.widthAt (c : Cmd) (k : Ctx) (dst : Bool) (r : Nat) : Nat :=
  match if dst then c.dst else c.src with
  | .global _ => c.gfmt.memBits
  | _ => match c.fmtAt k dst r with | some f => f.bits | none => 8

/-- The first window address of a side that PERMISSION reports, 0 for a spool (R272). -/
def Cmd.permissionBad (c : Cmd) (k : Ctx) (dst : Bool) : Option Nat :=
  match if dst then c.dst else c.src with
  | .spad a =>
    (List.range (shRuns c.shape)).findSome? fun r =>
      let at' := c.spadAt dst a r
      let n := runBytes (shN0 c.shape) (c.widthAt k dst r)
      if k.kernel.banks ≤ at' / 65536 then some at'
      else if at' / 65536 < (at' + n - 1) / 65536 then some ((at' / 65536 + 1) * 65536)
      else none
  | .spool m =>
    match tabGet k.spools m with
    | none => some 0
    | some sp => if 256 * sp.elem < runBytes (shN0 c.shape) (c.widthAt k dst 0) then some 0 else none
  | .targets _ _ mask => if mask % 256 = 0 ∨ 256 ≤ mask then some 0 else none
  | .global _ | .pattern _ => none

/-- The base of a side that MISALIGNED reports (R260, R272): "the offending base" is read as that of the side; where the runs of an indexed side start is not known at issue (DEDUCED, log 12). -/
def Cmd.misaligned (c : Cmd) (k : Ctx) (dst : Bool) : Option Nat :=
  let odd (base : Nat) (start : Nat → Nat) : Option Nat :=
    if (List.range (shRuns c.shape)).any fun r =>
        let w := c.widthAt k dst r
        shN0 c.shape * w % 8 != 0 || (decide (16 ≤ w) && start r % (w / 8) != 0)
    then some base else none
  match if dst then c.dst else c.src with
  | .global base => odd base fun r => if c.index.isSome then 0 else c.globalAt dst base r
  | .spad a => odd a (c.spadAt dst a)
  | .spool m => match tabGet k.spools m with | some sp => odd (256 * sp.base) fun _ => 0 | none => none
  | .pattern _ | .targets .. => none

/-- An index list that is not a multiple of 4 (R268). -/
def Cmd.indexBad (c : Cmd) : Option Nat :=
  match c.index with
  | some (b, _) => if b % 4 ≠ 0 then some b else none
  | none => none

/-- The fault of a command at the X slot, in the order of R272's table; of two sides that both break a row it reports the source's address (DESIGN CHOICE, log 83). -/
def State.commandFault? (s : State) (c : Cmd) : Option State :=
  let k := s.cx
  if c.formatBad k then some (s.slotFault .formatMismatch 0)
  else
    match (c.permissionBad k false).or (c.permissionBad k true) with
    | some a => some (s.slotFault .permission (BitVec.ofNat 64 a))
    | none =>
      match ((c.misaligned k false).or (c.misaligned k true)).or c.indexBad with
      | some a => some (s.slotFault .misaligned (BitVec.ofNat 64 a))
      | none => none

/-! ### Acceptance (R256, R261, R267) -/

/-- Philox blocks that a command reserves. -/
def Cmd.blocksDrawn (c : Cmd) (k : Ctx) : Nat :=
  if shMode c.shape = 4 ∧ (c.isMulticast ∨ (c.pairs k).any fun e => e.1 != e.2) then shRuns c.shape * ((shN0 c.shape + 3) / 4) else 0

/-- The engine holds 16 commands of a context that have not started. -/
def State.engineFull (s : State) : Bool := decide (16 ≤ (s.cmds.filter fun c => c.ctx == s.cur && !c.started).length)

def holdCommand (c : Cmd) (s : State) : Option State := if (s.commandFault? c).isNone && s.engineFull then some s else none

def State.accept (s : State) (c : Cmd) (near : CopySide) : Out :=
  match holdCommand c s with
  | some t => .next t
  | none =>
    match s.commandFault? c with
    | some t => .next t
    | none =>
      let n := c.blocksDrawn s.cx
      let t := if n = 0 then s else s.emit 1 (.rngctr (c.ctr + BitVec.ofNat 128 n))
      .next (({ t with cmds := t.cmds ++ [c], nextId := t.nextId + 1 }.modCx fun k => k.countUp c.cls c.id).markSide near)

/-- No scratchpad side. -/
def noSide : CopySide := .spool 0

def cmdCpLd (a b : GR) (x : XR) (d : CopySide) (o : CmdOrder) (s : State) : Cmd :=
  s.command 0x01 x (.global (s.rg a).toNat) (s.nearSide d) (s.rg b).toNat none false o
def cmdCpSt (a b : GR) (x : XR) (d : CopySide) (o : CmdOrder) (s : State) : Cmd :=
  s.command 0x01 x (s.nearSide d) (.global (s.rg a).toNat) (s.rg b).toNat none false o
def cmdCpMv (b : GR) (x : XR) (d : CopySide) (o : CmdOrder) (s : State) : Cmd :=
  s.command 0x01 x (.spad ((s.rg b).toNat % 2 ^ 32)) (s.nearSide d) 0 none false o
def cmdCpm (a b : GR) (x : XR) (n : SpR) (o : CmdOrder) (s : State) : Cmd :=
  s.command 0x02 x (.global (s.rg a).toNat) (.targets n.toNat ((s.rg b).toNat / 2 ^ 32) ((s.rg b).toNat % 2 ^ 32)) 0 none false o
def cmdCpg (a b : GR) (x : XR) (d : CopySide) (o : CmdOrder) (s : State) : Cmd :=
  s.command 0x03 x (.global (s.rg a).toNat) (s.nearSide d) 0 (some ((s.rg b).toNat, false)) false o
def cmdCps (a b : GR) (x : XR) (d : CopySide) (o : CmdOrder) (s : State) : Cmd :=
  s.command 0x04 x (s.nearSide d) (.global (s.rg a).toNat) 0 (some ((s.rg b).toNat, true)) false o
def cmdCpw (a : GR) (x : XR) (d : CopySide) (o : CmdOrder) (s : State) : Cmd :=
  s.command 0x05 x (s.nearSide d) (.global (s.rg a).toNat) 0 none true o
def cmdCpfScratch (b : GR) (x : XR) (d : CopySide) (o : CmdOrder) (s : State) : Cmd :=
  s.command 0x06 x (.pattern (s.rg b)) (s.nearSide d) 0 none false o
def cmdCpfGlobal (a b : GR) (x : XR) (o : CmdOrder) (s : State) : Cmd :=
  s.command 0x06 x (.pattern (s.rg b)) (.global (s.rg a).toNat) 0 none false o

def execXnop (s : State) : Out := .next s
def execCpLd (a b : GR) (x : XR) (d : CopySide) (o : CmdOrder) (s : State) : Out := s.accept (cmdCpLd a b x d o s) d
def execCpSt (a b : GR) (x : XR) (d : CopySide) (o : CmdOrder) (s : State) : Out := s.accept (cmdCpSt a b x d o s) d
def execCpMv (b : GR) (x : XR) (d : CopySide) (o : CmdOrder) (s : State) : Out := s.accept (cmdCpMv b x d o s) d
def execCpm (a b : GR) (x : XR) (n : SpR) (o : CmdOrder) (s : State) : Out := s.accept (cmdCpm a b x n o s) noSide
def execCpg (a b : GR) (x : XR) (d : CopySide) (o : CmdOrder) (s : State) : Out := s.accept (cmdCpg a b x d o s) d
def execCps (a b : GR) (x : XR) (d : CopySide) (o : CmdOrder) (s : State) : Out := s.accept (cmdCps a b x d o s) d
def execCpw (a : GR) (x : XR) (d : CopySide) (o : CmdOrder) (s : State) : Out := s.accept (cmdCpw a x d o s) d
def execCpfScratch (b : GR) (x : XR) (d : CopySide) (o : CmdOrder) (s : State) : Out := s.accept (cmdCpfScratch b x d o s) d
def execCpfGlobal (a b : GR) (x : XR) (o : CmdOrder) (s : State) : Out := s.accept (cmdCpfGlobal a b x o s) noSide

/-! ### Shapes, spools and stream registers (R275 to R278) -/

def execXshape (a b : GR) (x : XR) (h : Bool) (s : State) : Out :=
  .next (s.emit 1 (.x x h ((s.rg a).setWidth 128 ||| ((s.rg b).setWidth 128 <<< 64))))

/-- The spool that an SPDEF defines, when it lies in one bank of the window and its size is a multiple of its element. -/
def State.spoolFor (s : State) (a : GR) (size : BitVec 8) (elem : BitVec 2) : Option Spool :=
  let base := (s.rg a).toNat / 256
  let n := size.toNat + 1
  let e := 2 ^ elem.toNat
  if n % e = 0 ∧ base % 256 + n ≤ 256 ∧ base + n ≤ s.cx.rows then some ⟨base, n, e, 0, 0, none⟩ else none

/-- SPDEF waits until no outstanding command of the context names the spool. -/
def holdSpdef (a : GR) (n : SpR) (size : BitVec 8) (elem : BitVec 2) (s : State) : Option State :=
  if (s.spoolFor a size elem).isSome && s.cmds.any (fun c => c.ctx == s.cur && c.spools.contains n.toNat) then some s else none

def execSpdef (a : GR) (n : SpR) (size : BitVec 8) (elem : BitVec 2) (s : State) : Out :=
  match holdSpdef a n size elem s with
  | some t => .next t
  | none =>
    match s.spoolFor a size elem with
    | none => .next (s.slotFault .permission (s.rg a))
    | some sp => .next (s.emit 1 (.spoolDef n.toNat sp))

def execSbind (q : QR) (n : SpR) (s : State) : Out := .next (s.emit 1 (.bind q (some n)))
def execSbindNone (q : QR) (s : State) : Out := .next (s.emit 1 (.bind q none))

/-- The fault of a SPADV, or the spool it acts on (R278). -/
inductive AdvRes where
  | fault (t : State)
  | spool (sp : Spool)

def State.advance (s : State) (a : GR) (n : SpR) : AdvRes :=
  match tabGet s.cx.spools n.toNat with
  | none => .fault (s.slotFault .permission 0)
  | some sp =>
    if (s.rg a).toNat % sp.elem ≠ 0 ∨ sp.size < (s.rg a).toNat then .fault (s.slotFault .permission (s.rg a)) else .spool sp

def holdSpadvP (a : GR) (n : SpR) (s : State) : Option State :=
  match s.advance a n with
  | .fault _ => none
  | .spool sp => if sp.room < (s.rg a).toNat then some s else none

def execSpadvP (a : GR) (n : SpR) (s : State) : Out :=
  match holdSpadvP a n s with
  | some t => .next t
  | none =>
    match s.advance a n with
    | .fault t => .next t
    | .spool _ => .next (s.emit 1 (.spoolP n.toNat (s.rg a).toNat))

def holdSpadvC (a : GR) (n : SpR) (s : State) : Option State :=
  match s.advance a n with
  | .fault _ => none
  | .spool sp => if sp.held < (s.rg a).toNat then some s else none

def execSpadvC (a : GR) (n : SpR) (s : State) : Out :=
  match holdSpadvC a n s with
  | some t => .next t
  | none =>
    match s.advance a n with
    | .fault t => .next t
    | .spool _ => .next (s.emit 1 (.spoolC n.toNat (s.rg a).toNat))

/-! ### XFMT, XSTAT, RNGSET (R280 to R282) -/

def execXfmt (a b : GR) (s : State) : Out :=
  if s.cx.kernel.banks ≤ (s.rg a).toNat then .next (s.slotFault .permission (s.rg a))
  else
    let x : W32 := (s.rg b).setWidth 32
    if emOk x then .next ((s.emit 1 (.emulsion (s.rg a).toNat x)).addAcc 0x0B .marker .cp none false [])
    else .next (s.slotFault .formatMismatch 0)

def holdXstat (what : BitVec 3) (s : State) : Option State := if what.toNat < 2 && !s.cx.cp.isEmpty then some s else none

/-- A spool pointer; an undefined spool faults as for a command (DEDUCED, log 13). -/
def State.pointerOf (s : State) (d : GR) (n : SpR) (f : Spool → Nat) : Out :=
  match tabGet s.cx.spools n.toNat with
  | none => .next (s.slotFault .permission 0)
  | some sp => .next (s.emit 1 (.g d (BitVec.ofNat 64 (f sp))))

def execXstat (d : GR) (what : BitVec 3) (n : SpR) (s : State) : Out :=
  match holdXstat what s with
  | some t => .next t
  | none =>
    let flags := s.emit 1 (.g d (s.cx.cflags.setWidth 64))
    match what.toNat with
    | 0 => .next flags
    | 1 => .next (flags.emit 1 .cflagsClear)
    | 2 => s.pointerOf d n (·.p)
    | 3 => s.pointerOf d n (·.c)
    | _ =>
      if s.ownsMatrix then .next (s.emit 1 (.g d (BitVec.ofNat 64 (s.mat.ovf.toNat + 2 * s.mat.sat.toNat)))) else .next s.matrixSwitch

/-- The 128-bit operand of an RNGSET. -/
def State.rngOperand (s : State) (a b : GR) : BitVec 128 := (s.rg a).setWidth 128 ||| ((s.rg b).setWidth 128 <<< 64)

def execRngsetAdd (a b : GR) (s : State) : Out := .next (s.emit 1 (.rngctr (s.cx.rngctr + s.rngOperand a b)))
def execRngsetSub (a b : GR) (s : State) : Out :=
  .next (s.emit 1 (.rngctr ((BitVec.ofNat 128 (s.cx.ctxid.toNat % 2 ^ 32) <<< 96) + s.rngOperand a b)))

end Sys2Proof.Machine
end

