-- ==== Sys2Proof/Machine/Engine.lean ====
section
/-! DEFINITION. Machine/Engine.lean: how the copy engine runs its commands (R256, R257, R260 to R273, R277): start, reading, moving and writing, failure, retirement. -/

namespace Sys2Proof.Machine

def State.cmd? (s : State) (id : Nat) : Option Cmd := s.cmds.find? fun c => c.id == id
def State.modCmd (s : State) (id : Nat) (f : Cmd → Cmd) : State := { s with cmds := s.cmds.map fun c => if c.id = id then f c else c }

/-! ### Start (R215, R256, R271) -/

/-- Nothing that the context issued before the command is still to perform in this device: what its acquire waits for. -/
def State.earlierDone (s : State) (c : Cmd) : Bool :=
  !(s.accs.any fun x => x.ctx == c.ctx && decide (x.id < c.id) && !x.localDone)
    && !(s.cmds.any fun x => x.ctx == c.ctx && decide (x.id < c.id) && s.cmdLocalLeft x)

/-- The acquire of a command with ACQ performs once nothing is left before it (R215). -/
def State.acquireFor (s : State) (c : Cmd) : State :=
  if c.acq && s.earlierDone c then (s.acquireAt c.core c.order.scope).modCmd c.id fun x => { x with acq := false } else s

/-- COPY_COMMAND_START: in issue order, up to 8 of a context at once. An empty command retires. -/
def execCopyCommandStart (id : Nat) (s : State) : Out :=
  match s.cmd? id with
  | none => .next s
  | some c =>
    let mine := s.cmds.filter fun x => x.ctx == c.ctx
    if c.started ∨ (s.ctx c.ctx).phase = .evicted ∧ c.cls = .cp ∨ mine.any (fun x => decide (x.id < id) && !x.started) ∨ 8 ≤ (mine.filter (·.started)).length then .next s
    else
      let s := (s.acquireFor c).modCmd id fun x => { x with started := true }
      .next (if shRuns c.shape = 0 then s.retireCmd id else s)

/-! ### Order of a command's accesses (R209, R210, R215, R257) -/

/-- A command as the access that its reads, or its writes, are. -/
def Cmd.asAcc (c : Cmd) (write rel : Bool) : Acc :=
  { id := c.id, ctx := c.ctx, rank := c.rank, core := c.core, slot := 5, opc := c.opc, epc := c.epc, kind := if write then .store else .load .none,
    cls := .none, acq := none, rel := rel, parts := [], woken := false, first := c.first, keep := c.keepG, shut := c.shut }

/-- Whether something the context issued before the command still holds back accesses to some spans. -/
def State.cmdBlocked (s : State) (c : Cmd) (write rel : Bool) (spans : List (Nat × Nat)) : Bool :=
  let y := c.asAcc write rel
  let parts := (spans.flatMap fun a => piecesOf a.1 a.2).map fun (va, n) =>
    let e := s.walk c.rank va
    (⟨va, (e.map (·.paOf va)).getD 0, (e.map (·.bit bitLC)).getD false, List.replicate n true, [], .waiting⟩ : Part)
  parts.any fun p => !p.remote &&
    (s.accs.any (fun x => x.ctx == c.ctx && decide (x.id < c.id) && s.orders x y p)
      || s.cmds.any (fun x => x.ctx == c.ctx && decide (x.id < c.id) && s.cmdOrders x y p))

/-- The spools, by context, that a command fills, and the one it drains. -/
def State.producedInto (s : State) (c : Cmd) : List (Nat × Nat) :=
  match c.dst with
  | .spool n => [(c.ctx, n)]
  | .targets n base mask => (s.targetsOf c.rank base mask).filterMap fun t => t.map fun k => (k, n)
  | _ => []
def Cmd.consumedFrom (c : Cmd) : Option Nat :=
  match c.src with
  | .spool n => some n
  | _ => none

/-- Whether an earlier command of the context has still to touch the window bytes that a run reads, or writes, or drains, or feeds, the same spool (R257). -/
def State.spadBlocked (s : State) (c : Cmd) (write : Bool) : Bool :=
  let foot := s.spadFoot c write
  let meet (b : List SpadSpan) : Bool := foot.any fun x => b.any x.meets
  s.cmds.any fun x => x.ctx == c.ctx && decide (x.id < c.id) &&
    (meet (s.spadLeft x true)
      || (if write then meet (s.spadLeft x false) || (s.producedInto x).any (s.producedInto c).contains
          else c.consumedFrom.isSome && x.consumedFrom == c.consumedFrom))

/-! ### Reading (R206, R207, R238, R268, R273) -/

/-- Why the virtual function of a command holds an access at an address back: the budget of a port, or of an HBM controller (R323). -/
def State.budgetHolds (s : State) (c : Cmd) (va : Nat) : Bool :=
  let vf := (s.rankOf c.rank).vf
  ((s.vf vf).flits != 0 || (s.vf vf).beats != 0) &&
    match s.walk c.rank va with
    | some t => if paRemote (t.paOf va) then s.portHeld vf (paDevice (t.paOf va)) else s.hbmHeld vf (t.paOf va)
    | none => false

/-- Whether an address of a command leads to another device. -/
def State.cmdRemoteAt (s : State) (c : Cmd) (va : Nat) : Bool :=
  match s.walk c.rank va with
  | some t => paRemote (t.paOf va)
  | none => false

/-- A byte that a command has read. -/
def Cmd.byteAt (c : Cmd) (va : Nat) : Option Byte := (c.fetched.find? fun e => e.1 == va).map (·.2)

/-- The failure of a read that covers an address: it began in the line at or before it. -/
def Cmd.refusedAt (c : Cmd) (va : Nat) : Option (Cause × Nat × Bool) :=
  (c.refused.find? fun r => r.1 / 128 == va / 128 && decide (r.1 ≤ va)).map (·.2)

/-- Which bytes of a range a command has neither read nor found failing. -/
def Cmd.lacks (c : Cmd) (va n : Nat) : List Bool := (List.range n).map fun i => (c.byteAt (va + i)).isNone && (c.refusedAt (va + i)).isNone

/-- Lines, as parts of ranges, from which a command has still to read: of its index list, and of elements of its present run up to `hi`. -/
def Cmd.toRead (c : Cmd) (hi : Nat) : List (Nat × Nat) :=
  ((c.indexFoot ++ if c.unplaced false c.run then [] else c.globalRange false c.run c.elem hi).flatMap fun a => linePieces (a.2 / 128 + 2) a.1 a.2).filter
    fun e => (c.lacks e.1 e.2).any fun b => b

/-- Whether a command may read from a line now: nothing before it holds the read back, and it is not on its way. Another device's memory waits for no acquire (R216). -/
def State.lineReady (s : State) (c : Cmd) (va n : Nat) : Bool :=
  !s.cmdBlocked c false false [(va, n)] && !s.budgetHolds c va && (!c.acq || s.cmdRemoteAt c va)
    && !s.remote.any fun e => e.2.forCmd && e.2.owner == c.id && spansMeet (e.2.part, 128 - e.2.part % 128) (va, n)

def State.refuseRead (s : State) (c : Cmd) (va : Nat) (cause : Cause) (addr : Nat) (curable : Bool) : State :=
  s.modCmd c.id fun x => { x with refused := x.refused ++ [(va, cause, addr, curable)] }

/-- What the parts of a read have come to. -/
def Cmd.take (c : Cmd) : List Part → Cmd
  | [] => c
  | p :: l =>
    Cmd.take (match p.st with
      | .done => { c with fetched := c.fetched ++ ((List.range p.en.length).filter fun i => p.en.getD i false).map fun i => (p.va + i, p.data.getD i 0) }
      | .failed cause x => { c with refused := c.refused ++ [(p.firstVa, cause, x, false)] }
      | .parked k => { c with parked := c.parked ++ [(k, p.va, p.en.length)] }
      | .waiting | .sent _ => c) l

/-- A command reads what it lacks of a line: as a core's read, or by a request to another device. -/
def State.readLine (s : State) (c : Cmd) (va n : Nat) : State :=
  let en := c.lacks va n
  let i := en.findIdx id
  match s.translate c.core c.rank (va + i) .read with
  | .fail f => s.refuseRead c (va + i) f.cause (va + i) f.curable
  | .ok pa leaf s =>
    let vf := (s.rankOf c.rank).vf
    if paRemote pa then
      match s.request vf pa c.id (va + i) true none fun tag => .read Config.ownDevice tag (paOnDevice pa) (en.drop i) with
      | none => s.refuseRead c (va + i) .translation (va + i) false
      | some (_, s) => s
    else
      let (l, t) := ((s.crossDie c.core pa).spendHbm vf pa).coreRead (c.asAcc false false) ⟨va, pa - i, leaf.bit bitLC, en, [], .waiting⟩
      t.modCmd c.id fun x => x.take l

/-- The indices whose bytes have been read, taken in order (R268). -/
def Cmd.takeIndices : Nat → Cmd → Cmd
  | 0, c => c
  | n + 1, c =>
    match c.indexFoot.head? with
    | none => c
    | some (a, _) =>
      let l := (List.range 4).filterMap fun i => c.byteAt (a + i)
      if l.length = 4 then Cmd.takeIndices n { c with indices := c.indices ++ [leNat l] } else c

/-! ### Elements of a run (R260 to R263) -/

/-- Elements read of a run: the first, the format they have, their bits, the scales of the run's blocks, and the read that failed behind them: element, cause, address, whether it can be cured. -/
structure ReadRun where
  lo : Nat
  fmt : Fmt
  bits : List Nat
  scales : List Nat
  fail : Option (Nat × Cause × Nat × Bool)
  deriving DecidableEq, Repr

/-- The bits of elements lo to hi - 1 of a run whose bytes from byte `from'` on are given. -/
def elementBits (f : Fmt) (w lo hi from' : Nat) (l : List Byte) : List Nat :=
  let n := leNat l
  (List.range (hi - lo)).map fun i => n / 2 ^ (w * (lo + i) - 8 * from') % 2 ^ w % 2 ^ (elemOf f).width

/-- Converts elements lo on of run r into a format: their bits, the scales of their blocks, the flags (R261, R36, R44). -/
def Cmd.convertRun (c : Cmd) (src : ReadRun) (dst : Fmt) (lo : Nat) : List Nat × List Nat × FlagSet :=
  match c.src with
  | .pattern x => (src.bits.map fun _ => x.toNat % 2 ^ (elemOf dst).width, [], 0)
  | _ =>
    if src.fmt = dst then (src.bits, src.scales, 0)
    else
      let mode := (RMode.ofCode (shMode c.shape)).getD .rne
      let q := (shN0 c.shape + 3) / 4
      let words := if mode = .sr then (philoxWords c.key (c.ctr + BitVec.ofNat 128 (c.run * q)) (shN0 c.shape)).drop lo
        else List.replicate src.bits.length 0
      let vals := src.bits.zipIdx.map fun (b, i) =>
        let x := (elemOf src.fmt).decode b
        if src.fmt.isBlock then scaled (src.scales.getD ((lo + i) / src.fmt.block) 0) x else x
      if dst.isBlock then
        match elemOf dst with
        | .float e =>
          let blocks := (chunks dst.block src.bits.length (vals.zip words)).map (convertBlock e mode)
          (blocks.flatMap fun b => b.2.1, List.replicate (lo / dst.block) 0 ++ blocks.map (·.1), orFlags (blocks.map fun b => b.2.2))
        | .int .. => ([], [], 0)
      else
        let r := List.zipWith (fun v w => convert (elemOf dst) mode w v) vals words
        (r.map (·.1), [], orFlags (r.map (·.2)))

/-- Byte `o` of a run after elements `lo` on, of width w, have been put into it. -/
def mergedByte (w lo : Nat) (bits : List Nat) (o : Nat) (old : Byte) : Byte :=
  let m := (2 ^ (w * bits.length) - 1) * 2 ^ (w * lo) / 2 ^ (8 * o)
  let d := packLanes w bits * 2 ^ (w * lo) / 2 ^ (8 * o)
  mixBits (BitVec.ofNat 8 m) old (BitVec.ofNat 8 d)

/-! ### Targets -/

/-- Where a run goes: a place in global memory, or a context's window with the spool it fills. -/
inductive DstRun where
  | global (va : Nat)
  | window (k : Nat) (addr : Nat) (spool : Option Nat)
  deriving DecidableEq, Repr

/-- Room for another element, and no mark of an earlier failure in the way. -/
def Spool.canTake (sp : Spool) : Bool := decide (sp.elem ≤ sp.room)

/-- The destinations of a run with their formats; none while one of them is not ready; a failure of a CPM target (R267, R273). -/
inductive DstsRes where
  | hold
  | fail (cause : Cause)
  | ok (l : List (DstRun × Fmt))

def Cmd.bankNow (k : Ctx) (addr : Nat) : Fmt := emFmt (k.emOfRow (addr / 256))

/-- Checks of a CPM target that R272 makes of a spool at issue. -/
def Cmd.targetBad (c : Cmd) (f : Fmt) (sp : Spool) : Option Cause :=
  let n := shN0 c.shape
  if unlike c.gfmt f ∨ blockSpoolBad f sp n then some .formatMismatch
  else if n * f.bits % 8 ≠ 0 then some .misaligned
  else if 256 * sp.elem < runBytes n f.bits then some .permission
  else none

def State.targetRuns (s : State) (c : Cmd) (n : Nat) : List (Option Nat) → DstsRes
  | [] => .ok []
  | none :: _ => .fail .permission
  | some k :: l =>
    match tabGet (s.ctx k).spools n with
    | none => .fail .permission
    | some sp =>
      let f := Cmd.bankNow (s.ctx k) (256 * sp.base)
      match c.targetBad f sp, s.targetRuns c n l with
      | some cause, _ => .fail cause
      | none, .fail cause => .fail cause
      | none, .hold => .hold
      | none, .ok r => if sp.canTake && (s.ctx k).phase != .evicted then .ok ((.window k (256 * sp.rowAt sp.p) (some n), f) :: r) else .hold

def State.dstsOf (s : State) (c : Cmd) : DstsRes :=
  match c.dst with
  | .global base => .ok [(.global (c.globalAt true base c.run), c.gfmt)]
  | .spad a => .ok [(.window c.ctx (c.spadAt true a c.run) none, c.bankFmt (c.spadAt true a c.run))]
  | .spool n =>
    match tabGet (s.ctx c.ctx).spools n with
    | none => .fail .permission
    | some sp => if sp.canTake then .ok [(.window c.ctx (256 * sp.rowAt sp.p) (some n), c.bankFmt (256 * sp.base))] else .hold
  | .targets n base mask => s.targetRuns c n (s.targetsOf c.rank base mask)
  | .pattern _ => .ok []

/-! ### Sources -/

/-- The first window byte of a span that lies in a block failing its envelope check (R305). -/
def Ctx.spoiltAt (c : Ctx) (a n : Nat) : Option Nat :=
  (c.bad.filterMap fun u => match u with
    | .row r q => let b := 256 * r + 64 * q
                  if b < a + n ∧ a < b + 64 then some (max a b) else none
    | _ => none).min?

/-- A window run, with the bytes that R208 keeps; it fails at its first spoilt element. -/
def State.windowRun (s : State) (c : Cmd) (f : Fmt) (addr lo hi : Nat) (kept : Bool) : ReadRun :=
  let (b0, b1) := byteSpan f.bits lo hi
  let k := s.ctx c.ctx
  let byte (x : Nat) : Byte :=
    match if kept then c.keep.find? (fun e => e.1 == x) else none with
    | some e => e.2
    | none => k.window.get x
  let bytes := (List.range (b1 - b0)).map fun i => byte (addr + b0 + i)
  let slot := (List.range 16).map fun i => (byte (slotOfRow addr + i)).toNat
  let spoilt := (k.spoiltAt (addr + b0) (b1 - b0)).map fun x => (max lo ((x - addr) * 8 / f.bits), x)
  let scale := if f.isBlock then (k.spoiltAt (slotOfRow addr + lo / f.block) ((hi + f.block - 1) / f.block - lo / f.block)).map fun x =>
      (max lo ((x - slotOfRow addr) * f.block), x) else none
  let fail := match spoilt, scale with
    | some x, some y => some (if y.1 < x.1 then y else x)
    | x, none => x
    | none, y => y
  ⟨lo, f, (elementBits f f.bits lo hi b0 bytes).take ((fail.map (·.1)).getD hi - lo), slot, fail.map fun x => (x.1, .integrity, x.2, false)⟩

/-- How many bytes of a range have been read before the first that has not, and, where a read has failed there, its failure. -/
def Cmd.prefixOf (c : Cmd) (va n : Nat) : Nat × Option (Cause × Nat × Bool) :=
  let k := (List.range n).findIdx fun i => (c.byteAt (va + i)).isNone
  (k, if k < n then c.refusedAt (va + k) else none)

/-- The bytes of a range that have been read. -/
def Cmd.bytesOf (c : Cmd) (va n : Nat) : List Byte := (List.range n).map fun i => (c.byteAt (va + i)).getD 0

/-- Elements from lo on of the present run, up to hi, whose bytes and scales have been read (R262), and the failure behind them. -/
def Cmd.globalRun (c : Cmd) (base lo hi : Nat) : ReadRun :=
  let f := c.gfmt
  let w := f.memBits
  let (b0, b1) := byteSpan w lo hi
  let va := c.globalAt false base c.run + b0
  let (k, bad) := c.prefixOf va (b1 - b0)
  let top := if k = b1 - b0 then hi else max lo ((b0 + k) * 8 / w)
  let first := lo / f.block
  let sva := wrapAdd 64 c.scaleBase (c.run * (shN0 c.shape / f.block) + first : Nat)
  let m := if f.isBlock then (hi + f.block - 1) / f.block - first else 0
  let (j, sbad) := c.prefixOf sva m
  let stop := if j = m then hi else max lo ((first + j) * f.block)
  let fail := if stop < top then sbad.map fun x => (stop, x) else if top < hi then bad.map fun x => (top, x) else none
  ⟨lo, f, (elementBits f w lo hi b0 (c.bytesOf va (b1 - b0))).take (min top stop - lo), List.replicate first 0 ++ (c.bytesOf sva j).map BitVec.toNat, fail⟩

/-- Where the present run begins in the command's own window. -/
def State.srcAddr (s : State) (c : Cmd) : Option Nat :=
  match c.src with
  | .spad a => some (c.spadAt false a c.run)
  | .spool n => (tabGet (s.ctx c.ctx).spools n).map fun sp => 256 * sp.rowAt (sp.c + (c.run - c.back.1) * sp.elem)
  | .global _ | .pattern _ | .targets .. => none

/-- Window bytes of elements lo to hi - 1 of the present run, with their scales. -/
def State.rowsOf (s : State) (c : Cmd) (lo hi : Nat) : List (Nat × Nat) :=
  match s.srcAddr c with
  | some a =>
    let f := c.bankFmt a
    let (b0, b1) := byteSpan f.bits lo hi
    (a + b0, b1 - b0) :: (if f.isBlock then [(slotOfRow a + lo / f.block, (hi + f.block - 1) / f.block - lo / f.block)] else [])
  | none => []

/-- What there is of elements lo to hi - 1 of the present run; none while a spool has not brought its element. -/
def State.sourceOf (s : State) (c : Cmd) (lo hi : Nat) : Option ReadRun :=
  match c.src with
  | .pattern _ => some ⟨lo, .raw, List.replicate (hi - lo) 0, [], none⟩
  | .spad a => some (s.windowRun c (c.bankFmt (c.spadAt false a c.run)) (c.spadAt false a c.run) lo hi true)
  | .spool n =>
    match tabGet (s.ctx c.ctx).spools n with
    | none => some ⟨lo, .raw, [], [], some (lo, .permission, 0, false)⟩
    | some sp =>
      let f := c.bankFmt (256 * sp.base)
      let ahead := (c.run - c.back.1) * sp.elem
      let row := 256 * sp.rowAt (sp.c + ahead)
      if sp.held < ahead + sp.elem then
        (if sp.marked (sp.c + ahead) then some ⟨lo, f, [], [], some (lo, .streamFaulted, row, false)⟩ else none)
      else some (s.windowRun c f row lo hi false)
  | .targets .. => none
  | .global base => some (c.globalRun base lo hi)

/-! ### Writing (R206, R207, R238, R257, R273) -/

/-- The first byte of the scales of a run. -/
def Cmd.scaleAt (c : Cmd) (r : Nat) : Nat := wrapAdd 64 c.scaleBase (r * (shN0 c.shape / c.gfmt.block) : Nat)

/-- The base of a global destination. -/
def Cmd.dstBase (c : Cmd) : Nat := match c.dst with | .global b => b | _ => 0

def Cmd.toGlobal (c : Cmd) : Bool := match c.dst with | .global _ => true | _ => false

/-- Bits of an element of a global destination. -/
def Cmd.dstBits (c : Cmd) : Nat := if c.adds then 32 else c.gfmt.memBits

/-- The first element that a byte of a piece holds, counted over all runs: of a block-scaled format the first of its block (R273). -/
def Cmd.elemAt (c : Cmd) (p : OutPiece) (va : Nat) : Nat :=
  let n0 := shN0 c.shape
  let r := p.elem / n0
  let blk (e : Nat) : Nat := if c.gfmt.isBlock then e / c.gfmt.block * c.gfmt.block else e
  r * n0 + if p.scale then (va - c.scaleAt r) * c.gfmt.block else max (p.elem % n0) (blk ((va - c.globalAt true c.dstBase r) * 8 / c.dstBits))

/-- The pieces in which elements of the present run, from lo on, go to a global destination: scales first; the last one holds the last element (R215, R262, R269). -/
def Cmd.piecesFor (c : Cmd) (va lo : Nat) (bits scales : List Nat) : List OutPiece :=
  let w := c.dstBits
  let at' := c.run * shN0 c.shape
  let b := c.gfmt.block
  let piece (x : Nat × Nat) : OutPiece :=
    let at0 (i : Nat) : Nat := x.1 - va + i
    let p : OutPiece :=
      ⟨x.1, at' + lo, false, (List.range x.2).map fun i => BitVec.ofNat 8 ((2 ^ (w * bits.length) - 1) * 2 ^ (w * lo) / 2 ^ (8 * at0 i)),
        (List.range x.2).map fun i => BitVec.ofNat 8 (packLanes w bits * 2 ^ (w * lo) / 2 ^ (8 * at0 i))⟩
    { p with elem := c.elemAt p x.1 }
  let (b0, b1) := byteSpan w lo (lo + bits.length)
  let data := if c.adds then (List.range bits.length).map fun i => (va + 4 * (lo + i), 4) else linePieces ((b1 - b0) / 128 + 2) (va + b0) (b1 - b0)
  let n := if c.gfmt.isBlock then (lo + bits.length) / b - lo / b else 0
  let sva := c.scaleAt c.run + lo / b
  (linePieces (n / 128 + 2) sva n).map (fun x =>
      ⟨x.1, at' + (x.1 - c.scaleAt c.run) * b, true, List.replicate x.2 0xFF, (List.range x.2).map fun i => BitVec.ofNat 8 (scales.getD (x.1 - c.scaleAt c.run + i) 0)⟩)
    ++ data.map piece

/-- Why a write of a piece would fail now, and where. -/
def State.pieceRefusal (s : State) (c : Cmd) (va n : Nat) : Option (Cause × Nat × Bool) × State :=
  match s.translate c.core c.rank va .write with
  | .fail f => (some (f.cause, va, f.curable), s)
  | .ok pa leaf s =>
    let p : Part := ⟨va, pa, leaf.bit bitLC, List.replicate n true, [], .waiting⟩
    let s := if paRemote pa then s else s.develop c.core p
    if c.adds then
      (if paRemote pa ∨ (s.winIx? c.rank va).isNone ∨ s.meetsCell p then some (.permission, va, false) else none, s)
    else if paRemote pa then (if s.unroutable pa then some (.translation, va, false) else none, s)
    else
      ((s.writeRefusal c.rank false p).map fun (cause, x) =>
        (cause, if cause = .integrity then va + (List.range n).findIdx fun i => p.partialBlocks.contains ((pa + i) / 64) && s.blockLost ((pa + i) / 64) else x, false), s)

/-- The first element of some pieces that cannot be written. -/
def State.firstRefusal (s : State) (c : Cmd) : List OutPiece → Option (Nat × Cause × Nat × Bool) × State
  | [] => (none, s)
  | p :: l =>
    let (r, s) := s.pieceRefusal c p.va p.data.length
    let (q, s) := s.firstRefusal c l
    match r with
    | none => (q, s)
    | some (cause, x, k) =>
      let e := c.elemAt p x
      match q with
      | some y => (some (if y.1 < e then y else (e, cause, x, k)), s)
      | none => (some (e, cause, x, k), s)

/-- The command stops at an element, counted over all runs: what it has read from there on it reads again when it goes on, and replies on their way count for nothing (R273). -/
def State.stopAt (s : State) (id e : Nat) (cause : Cause) (addr : Nat) (curable : Bool) : State :=
  State.modCmd { s with remote := s.remote.map fun x => if x.2.forCmd && x.2.owner == id && (match x.2.pkt.body with | .read .. => true | _ => false) then (x.1, { x.2 with owner := 0 }) else x } id
    fun c => { c with run := e / shN0 c.shape, elem := e % shN0 c.shape, stopped := some (cause, addr, curable), reported := false,
                      fetched := [], refused := [], out := c.out.filter fun p => decide (p.elem < e) }

/-- The same at an element of the present run. -/
def State.stopCmd (s : State) (c : Cmd) (e : Nat) (cause : Cause) (addr : Nat) (curable : Bool) : State := s.stopAt c.id (c.run * shN0 c.shape + e) cause addr curable

/-- Bytes of its window that a command has still to read keep what they hold before they are written (R208). -/
def State.keepWindow (s : State) (c : Cmd) (k : Nat) (cells : List (Nat × Byte)) : State :=
  match c.src with
  | .spad a =>
    if k ≠ c.ctx then s
    else
      let left := (c.runsLeft false).flatMap fun r => c.spadSpans false a r (c.fromElem false r)
      let old := (cells.filter fun e => left.any (inSpan e.1) && !(c.keep.any fun x => x.1 == e.1)).map fun e => (e.1, (s.ctx k).window.get e.1)
      { s with cmds := s.cmds.map fun x => if x.id = c.id then { x with keep := x.keep ++ old } else x }
  | _ => s

/-- Writes elements lo on of a run into a window: the merged bytes, the scale slot with zeros behind the row's last block (R35, R262), and, at the end of a spool element, zeros beyond the run (R263, R277) and P's advance. -/
def State.putWindow (s : State) (c : Cmd) (k addr : Nat) (spool : Option Nat) (f : Fmt) (lo : Nat) (bits scales : List Nat) : State :=
  let n0 := shN0 c.shape
  let hi := lo + bits.length
  let (b0, b1) := byteSpan f.bits lo hi
  let data := (List.range (b1 - b0)).map fun i => (addr + b0 + i, mergedByte f.bits lo bits (b0 + i) ((s.ctx k).window.get (addr + b0 + i)))
  let done := decide (hi = n0)
  let past := if spool.isSome then n0 / f.block else rowBlocks f
  let slot :=
    if f.isBlock then
      ((List.range (hi / f.block - lo / f.block)).map fun i => (slotOfRow addr + lo / f.block + i, BitVec.ofNat 8 (scales.getD (lo / f.block + i) 0)))
        ++ (if done then (List.range (16 - past)).map fun i => (slotOfRow addr + past + i, (0 : Byte)) else [])
    else []
  let rows := match spool with | some n => ((tabGet (s.ctx k).spools n).map (·.elem)).getD 1 | none => 1
  let tail :=
    if done ∧ spool.isSome then
      (List.range (256 * rows - runBytes n0 f.bits)).map (fun i => (addr + runBytes n0 f.bits + i, (0 : Byte)))
        ++ (if f.isBlock then (List.range (rows - 1)).flatMap fun j => (List.range 16).map fun i => (slotOfRow (addr + 256 * (1 + j)) + i, (0 : Byte)) else [])
    else []
  let cells := data ++ slot ++ tail
  (s.keepWindow c k cells).modCtx k fun x =>
    let x := Ctx.heal { x with window := x.window.writeCells cells } (.window cells)
    match spool with
    | some n => if done then { x with spools := tabModify x.spools n fun sp => { sp with p := (sp.p + sp.elem) % 2 ^ 32 } } else x
    | none => x

/-- Moves elements lo on of the present run to each destination: into windows, or on their way to global memory; and gathers the flags. -/
def State.putAll (s : State) (c : Cmd) (src : ReadRun) (lo : Nat) : List (DstRun × Fmt) → State × FlagSet
  | [] => (s, 0)
  | (d, f) :: l =>
    let (bits, scales, fl) := c.convertRun src f lo
    let s := match d with
      | .window k addr spool => s.putWindow c k addr spool f lo bits scales
      | .global va => s.modCmd c.id fun x => { x with out := x.out ++ c.piecesFor va lo bits scales }
    let (s, g) := s.putAll c src lo l
    (s, fl ||| g)

/-- Whether piece i of a command's is before piece j in element order. -/
def OutPiece.before (p : OutPiece) (i : Nat) (q : OutPiece) (j : Nat) : Bool := decide (p.elem < q.elem) || (p.elem == q.elem && decide (i < j))

/-- Whether two pieces have a byte in common, under one address or under two that map it. -/
def State.outMeets (s : State) (c : Cmd) (p q : OutPiece) : Bool :=
  spansMeet (p.va, p.data.length) (q.va, q.data.length)
    || match s.walk c.rank p.va, s.walk c.rank q.va with
      | some a, some b => spansMeet (a.paOf p.va, p.data.length) (b.paOf q.va, q.data.length)
      | _, _ => false

/-- Whether piece i may be written now. Pieces go in any order, but that of R257 for a byte that two write, and the last piece of a command with REL last (R215). A piece for another device goes when all before it are written, and those behind it wait for its confirmation: it may fail (R273). -/
def State.outReady (s : State) (c : Cmd) (i : Nat) (p : OutPiece) : Bool :=
  let far := s.cmdRemoteAt c p.va
  let last := c.order.rel && decide (c.run = shRuns c.shape) && decide (i + 1 = c.out.length)
  !(s.remote.any fun e => e.2.forCmd && e.2.owner == c.id && (match e.2.pkt.body with | .write .. => true | _ => false))
    && !(c.out.zipIdx.any fun (q, j) => (last && j != i) || (q.before j p i && (far || s.cmdRemoteAt c q.va || s.outMeets c q p)))
    && !s.cmdBlocked c true last [(p.va, p.data.length)] && !s.budgetHolds c p.va

/-- The byte with which the element begins that a byte of a piece belongs to (R273). -/
def Cmd.byteOf (c : Cmd) (p : OutPiece) (x : Nat) : Nat :=
  if p.scale then x else c.globalAt true c.dstBase (p.elem / shN0 c.shape) + c.elemAt p x % shN0 c.shape * c.dstBits / 8

/-- Two pieces of one. -/
def Cmd.splitAt (c : Cmd) (p : OutPiece) (n : Nat) : List OutPiece :=
  [{ p with mask := p.mask.take n, data := p.data.take n },
    { p with va := p.va + n, elem := c.elemAt p (p.va + n), mask := p.mask.drop n, data := p.data.drop n }]

/-- Writes piece i: at its home slice, with the line discarded from the core's L1 (R207); into another device's memory as a request for each cell, which is written whole or not at all; or as an add (R269). What the command has still to read keeps its bytes (R208). One of which an element is refused there is cut before that element, which then stops the command. The bits of another device's byte beside elements that do not fill it are free (log 32). -/
def State.writeOut (s : State) (c : Cmd) (i : Nat) (p : OutPiece) : State :=
  match s.pieceRefusal c p.va p.data.length with
  | (some (cause, x, k), s) =>
    let n := c.byteOf p x - p.va
    if n = 0 then s.stopAt c.id p.elem cause x k
    else s.modCmd c.id fun y => { y with out := y.out.take i ++ c.splitAt p n ++ y.out.drop (i + 1) }
  | (none, s) =>
    match s.translate c.core c.rank p.va .write with
    | .fail _ => s
    | .ok pa leaf s =>
      let vf := (s.rankOf c.rank).vf
      let en := List.replicate p.data.length true
      let mixed (old : Nat → Byte) : List Byte := p.data.zipIdx.map fun (b, j) => mixBits (p.mask.getD j 0) (old j) b
      if paRemote pa then
        if p.va / 64 ≠ (p.va + p.data.length - 1) / 64 then
          s.modCmd c.id fun y => { y with out := y.out.take i ++ c.splitAt p (64 - p.va % 64) ++ y.out.drop (i + 1) }
        else
        let (d, s) := s.draw
        match s.request vf pa c.id p.va true none fun tag => .write Config.ownDevice tag false (paOnDevice pa) en (mixed (Config.anyByte d)) with
        | some (_, s) => s
        | none => s
      else
        let q : Part := ⟨p.va, pa, leaf.bit bitLC, en, mixed fun j => s.mem.get (pa + j), .waiting⟩
        let s := (((s.crossDie c.core pa).spendHbm vf pa).keepBytes c.ctx c.first c.id q).modCmd c.id fun y => { y with out := y.out.eraseIdx i }
        if c.adds then (s.windowAddAt c.rank p.va (F32.decode (leNat q.data))).getD s
        else ((s.homeWrite c.core c.rank false q).2).l1Drop c.core pa

/-! ### Moving -/

/-- Whether a command may move elements now: its context is not evicted, its engine's budget is not used up (R308, R323), it waits at no cell. -/
def State.cmdReady (s : State) (c : Cmd) : Bool :=
  c.started && c.stopped.isNone && c.parked.isEmpty && decide (c.run < shRuns c.shape)
    && !((s.ctx c.ctx).phase == .evicted && c.cls == .cp)
    && !(s.vf (s.rankOf c.rank).vf).spent .copyEngine c.core

/-- An indexed run that is not aligned to its element (DESIGN CHOICE, log 12). -/
def Cmd.indexMisaligned (c : Cmd) : Option Nat :=
  let chk (dst : Bool) (base : Nat) : Option Nat :=
    let a := c.globalAt dst base c.run
    if 16 ≤ c.gfmt.memBits ∧ a % (c.gfmt.memBits / 8) ≠ 0 then some a else none
  match c.index, c.src, c.dst with
  | some (_, false), .global b, _ => chk false b
  | some (_, true), _, .global b => chk true b
  | _, _, _ => none

/-- n rounded up to a multiple of k. -/
def roundUp (n k : Nat) : Nat := if k = 0 then n else (n + k - 1) / k * k

/-- The elements of the present run before `hi` are on their way; with the last of them what was read for the run is done with. -/
def State.advanceCmd (s : State) (c : Cmd) (hi : Nat) (fl : FlagSet) : State :=
  let full := decide (hi = shN0 c.shape)
  s.modCmd c.id fun x =>
    { x with
      run := if full then c.run + 1 else c.run, elem := if full then 0 else hi, flags := x.flags ||| fl
      fetched := if full then x.fetched.filter fun e => x.indexFoot.any (inSpan e.1) else x.fetched
      refused := if full then x.refused.filter fun e => x.indexFoot.any (inSpan e.1) else x.refused }

/-- Stops a command at an element of its present run, once no earlier command has still to touch what it writes (R257, R273). -/
def State.stopHere (s : State) (c : Cmd) (cause : Cause) (addr : Nat) (curable : Bool) : Option State :=
  if s.spadBlocked c true then none else some (s.stopCmd c c.elem cause addr curable)

/-- Moves up to n more elements of the present run (all that are left for 0), whole blocks of the destination and whole bytes: those that have been read, before the first failure; none when none can move. -/
def State.moveRun (s : State) (c : Cmd) (n : Nat) (dsts : List (DstRun × Fmt)) : Option State :=
  let blk := (dsts.map fun d => d.2.block).foldl max 0
  let unit := max blk (8 / Nat.gcd 8 c.gfmt.memBits)
  let n0 := shN0 c.shape
  let top := if n = 0 then n0 else min n0 (roundUp (c.elem + n) unit)
  if s.spadBlocked c false || s.spadBlocked c true then none
  else
    (s.sourceOf c c.elem top).bind fun src =>
      let got := c.elem + src.bits.length
      let hi := if src.fail.isSome || got = n0 then got else got / unit * unit
      let final := decide (c.run + 1 = shRuns c.shape) && decide (hi = n0)
      if (hi ≤ c.elem && src.fail.isNone) || s.cmdBlocked c true false (c.globalRange true c.run c.elem hi)
          || (c.order.rel && final && !c.toGlobal && !s.earlierDone c) then none
      else
        let out := match dsts with
          | (.global va, _) :: _ => c.piecesFor va c.elem (List.replicate (hi - c.elem) 0) []
          | _ => []
        let (refusal, s) := s.firstRefusal c out
        let stop := match refusal with
          | some (e, x) => some (e - c.run * n0, x)
          | none => src.fail
        let hi' := match stop with | some (e, _) => if blk = 0 then e else e / blk * blk | none => hi
        let (s, fl) := s.putAll c { src with bits := src.bits.take (hi' - c.elem) } c.elem dsts
        let s := s.correctUnits c.ctx fun x => (s.rowsOf c c.elem hi).any x.inRow
        let s := (s.spend (s.rankOf c.rank).vf .copyEngine c.core (((hi' - c.elem) * c.gfmt.memBits + 2047) / 2048)).advanceCmd c hi' fl
        some (match stop with
          | some (_, cause, x, k) => s.stopCmd c hi' cause x k
          | none => s)

/-- What a command does next with the elements of its present run: it stops at one whose index, place or target fails, or moves some. -/
def State.moveCmd (s : State) (c : Cmd) (n : Nat) : Option State :=
  if c.unplaced false c.run || c.unplaced true c.run then
    (c.indexFoot.head?.bind fun a => c.refusedAt a.1).bind fun (cause, x, k) => s.stopHere c cause x k
  else
    match c.indexMisaligned with
    | some a => s.stopHere c .misaligned a false
    | none =>
      match s.dstsOf c with
      | .hold => none
      | .fail cause => s.stopHere c cause 0 false
      | .ok dsts => s.moveRun c n dsts

/-- What a command can do now: write a piece, read a line, move elements. -/
def State.cmdActs (s : State) (c : Cmd) (n : Nat) : List State :=
  (c.out.zipIdx.filterMap fun (p, i) => if s.outReady c i p then some (s.writeOut c i p) else none)
    ++ if s.cmdReady c then
        ((c.toRead (if n = 0 then shN0 c.shape else min (shN0 c.shape) (roundUp (c.elem + n) (max 128 c.gfmt.block)))).filterMap fun e =>
          if s.lineReady c e.1 e.2 then some (s.readLine c e.1 e.2) else none)
          ++ (s.moveCmd c n).toList
      else []

/-- A spool's elements that a command has read are freed once every byte made of them is written (R277). -/
def State.freeRuns (s : State) (id was : Nat) : State :=
  match s.cmd? id with
  | none => s
  | some c =>
    match c.src with
    | .spool n => s.modCtx c.ctx fun k => { k with spools := tabModify k.spools n fun sp => { sp with c := (sp.c + (c.back.1 - was) * sp.elem) % 2 ^ 32 } }
    | _ => s

/-- SPOOL_ELEMENT_FIRE: a command goes on, waiting for its input to have arrived and for room in its output (R277); which of the things that it can do it does next is left to the engine. -/
def execSpoolElementFire (id n : Nat) (s : State) : Out :=
  match s.cmd? id with
  | none => .next s
  | some c =>
    if !c.started then .next s
    else
      let s := (s.acquireFor c).modCmd id fun x => x.takeIndices (shN1 x.shape)
      match s.cmd? id with
      | none => .next s
      | some c =>
        .next (match s.cmdActs c n with
          | [] => s
          | [t] => t.freeRuns id c.back.1
          | _ :: _ :: _ =>
            let (d, s) := s.draw
            let acts := s.cmdActs c n
            (acts.getD (Config.anyNat d % acts.length) s).freeRuns id c.back.1)

/-! ### Failure and retirement (R256, R273) -/

/-- Marks spools faulted at the element that would have come next. -/
def State.markSpools (s : State) (id : Nat) : List (Nat × Nat) → State
  | [] => s
  | (k, n) :: l => (s.modCtx k fun x => { x with spools := tabModify x.spools n fun sp => { sp with mark := some (sp.p, id) } }).markSpools id l

/-- Whether a command waits for a spool: for room, or for an element. -/
def State.waitsSpool (s : State) (c : Cmd) : Bool :=
  (match s.dstsOf c with | .hold => true | _ => false) || (s.sourceOf c c.elem (c.elem + 1)).isNone

/-- Whether a command can still come to fail by itself: it has begun, and waits at no cell, for no spool, and behind no read that waits at one, and its context is not evicted. -/
def State.mayFail (s : State) (c : Cmd) : Bool :=
  c.started && c.stopped.isNone && c.parked.isEmpty && decide (c.run < shRuns c.shape) && (s.ctx c.ctx).phase != .evicted && !s.waitsSpool c
    && !(s.accs.any fun x => x.ctx == c.ctx && decide (x.id < c.id) && x.parts.any Part.isParked)
    && !(s.cmds.any fun x => x.ctx == c.ctx && decide (x.id < c.id) && !x.parked.isEmpty)

/-- COMMAND_FAILURE: a stopped command, when what it had on its way is written, marks its spools and is reported to its context, behind the commands of its context issued before it that have failed or that can still move (R273, R298, R300; log 82). -/
def execCommandFailure (id : Nat) (s : State) : Out :=
  match s.cmd? id with
  | none => .next s
  | some c =>
    match c.stopped with
    | some (cause, addr, _) =>
      if c.reported || !c.out.isEmpty || s.cmds.any fun x => x.ctx == c.ctx && decide (x.id < id) && (x.stopped.isSome && !x.reported || s.mayFail x) then .next s
      else
        let s := (s.modCmd id fun x => { x with reported := true }).markSpools id (s.producedInto c)
        .next (s.report c.ctx c.rank (failedOp cause (opcOf 5 c.opc) (s.ctx c.ctx) addr c.epc (c.run * shN0 c.shape + c.elem) (some id)))
    | none => .next s

/-- Removes the marks that a command left. -/
def Ctx.unmark (c : Ctx) (id : Nat) : Ctx :=
  { c with spools := c.spools.map fun e => (e.1, if (e.2.mark.map (·.2)) = some id then { e.2 with mark := none } else e.2) }

/-- A stopped command goes on from its element (R299). -/
def State.resumeCmd (s : State) (id : Nat) : State :=
  { s with
    cmds := s.cmds.map fun c => if c.id = id then { c with stopped := none, reported := false } else c
    ctxs := s.ctxs.map fun e => (e.1, e.2.unmark id) }

/-- COPY_COMMAND_RETIRE: when every write has performed; an XFMT when the commands counted on CP before it have retired (R280). -/
def execCopyCommandRetire (id : Nat) (s : State) : Out :=
  match s.cmd? id with
  | some c =>
    if c.started ∧ c.stopped.isNone ∧ shRuns c.shape ≤ c.run ∧ c.out = [] ∧ ¬ c.acq then .next (s.retireCmd id)
    else .next s
  | none =>
    match s.acc? id with
    | some a =>
      if a.kind = .marker ∧ ¬ s.cmds.any (fun c => c.ctx == a.ctx && c.cls == .cp && decide (c.id < id))
          ∧ ¬ s.accs.any (fun x => x.ctx == a.ctx && x.kind == .marker && decide (x.id < id)) then
        .next ((s.dropAcc id).modCtx a.ctx fun c => c.countDown .cp id)
      else .next s
    | none => .next s

end Sys2Proof.Machine
end

