-- ==== Sys2Proof/Machine/Hub.lean ====
section
/-! DEFINITION. Machine/Hub.lean: accesses that the hub, the command processors and the host make through a rank's tables (R176, R193, R202, R204, R238, R390, R398). -/

namespace Sys2Proof.Machine

/-- The answer to such an access: what it gives, or its cause and the failing address. -/
inductive HubRes (α : Type) where
  | ok (x : α) (s : State)
  | fail (cause : Cause) (addr : Nat)

/-- One piece of a range, in one line. A page of another device is out of their reach but for what the command processors do (DESIGN CHOICE, log 15). -/
def State.hubPart (s : State) (rank : Nat) (need : Need) (va : Nat) (data : List Byte) : HubRes Part :=
  match s.hubTranslate rank va need with
  | none => .fail (s.hubCause rank va) va
  | some (pa, t) =>
    let lc := match s.walk rank va with | some e => e.bit bitLC | none => false
    if paRemote pa then .fail .permission va else .ok ⟨va, pa, lc, List.replicate data.length true, data, .waiting⟩ t

/-- The pieces of a range of bytes that starts at `va0`. -/
def State.hubParts (s : State) (rank : Nat) (need : Need) (va0 : Nat) (data : List Byte) : List (Nat × Nat) → HubRes (List Part)
  | [] => .ok [] s
  | (va, n) :: l =>
    match s.hubPart rank need va ((data.drop (va - va0)).take n) with
    | .fail c a => .fail c a
    | .ok p s =>
      match State.hubParts s rank need va0 data l with
      | .fail c a => .fail c a
      | .ok ps s => .ok (p :: ps) s

/-- The first byte of a part that lies in a cell that is not VALUE. -/
def State.latentByte? (s : State) (p : Part) : Option Nat :=
  ((List.range p.en.length).find? fun i => p.lc && match tabGet s.cells ((p.pa + i) / 64) with | some c => c.tag != .value | none => false).map (p.va + ·)

/-- Reads parts at their home slices: RESULT in open windows; a cell that is not VALUE or an uncorrectable block fails the read. -/
def State.readParts (s : State) (rank : Nat) : List Part → HubRes (List Byte)
  | [] => .ok [] s
  | p :: l =>
    match s.latentByte? p with
    | some x => .fail .permission x
    | none =>
      match s.checkBlocks p.blocks with
      | none => .fail .integrity p.va
      | some t =>
        match State.readParts t rank l with
        | .fail c a => .fail c a
        | .ok bs u => .ok (t.homeBytes rank p ++ bs) u

def State.hubGet (s : State) (rank va n : Nat) : HubRes (List Byte) :=
  match s.hubParts rank .read va (List.replicate n 0) (linePieces (n / 128 + 2) va n) with
  | .fail c a => .fail c a
  | .ok ps s => s.readParts rank ps

/-- The first refusal among parts to be written. -/
def State.partsRefusal (s : State) (rank : Nat) (l : List Part) : Option (Cause × Nat) := l.findSome? fun p => s.writeRefusal rank false p

/-- Writes parts whose writing nothing refuses. -/
def State.writeParts (s : State) : List Part → State
  | [] => s
  | p :: l => (s.putBytes p).writeParts l

/-- Writes bytes, all of them or, where one is refused, none; `developing` says whether a write develops cells of compressed pages that it touches (R377). -/
def State.hubPutWith (s : State) (developing : Bool) (rank va : Nat) (data : List Byte) : HubRes Unit :=
  match s.hubParts rank .write va data (linePieces (data.length / 128 + 2) va data.length) with
  | .fail c a => .fail c a
  | .ok ps s =>
    let s := if developing then ps.foldl (State.develop · 0) s else s
    match s.partsRefusal rank ps with
    | some (c, a) => .fail c a
    | none => .ok () (s.writeParts ps)

def State.hubPut (s : State) (rank va : Nat) (data : List Byte) : HubRes Unit := s.hubPutWith true rank va data

/-- Adds to a 64-bit word of this device's memory. -/
def State.hubAddHere (s : State) (rank va : Nat) (x : W64) : HubRes Unit :=
  match s.hubParts rank .write va (List.replicate 8 0) [(va, 8)] with
  | .fail c a => .fail c a
  | .ok ps s =>
    let s := ps.foldl (State.develop · 0) s
    match s.partsRefusal rank ps, ps with
    | some (c, a), _ => .fail c a
    | none, p :: _ => .ok () (s.writeParts [{ p with data := leBytes 8 ((s.mem.readLE p.pa 8 + x.toNat) % 2 ^ 64) }])
    | none, [] => .ok () s

/-- Sends an add to a word in another device's memory: it performs at the word's home, and `dead` is the record of its failure there. -/
def State.addRemote (s : State) (rank va pa : Nat) (x : W64) (dead : Option (Nat × Report)) : HubRes Unit :=
  match s.request (s.rankOf rank).vf pa 0 0 false dead fun tag => .amo Config.ownDevice tag .add true (paOnDevice pa) x with
  | some (_, t) => .ok () t
  | none => .fail .translation va

/-- Adds to a 64-bit word as an atomic at its home (R167, R176). -/
def State.hubAdd (s : State) (rank va : Nat) (x : W64) (dead : Option (Nat × Report)) : HubRes Unit :=
  match s.hubTranslate rank va .write with
  | some (pa, t) => if paRemote pa then t.addRemote rank va pa x dead else s.hubAddHere rank va x
  | none => s.hubAddHere rank va x

/-- Writes what can be written; a write that fails changes nothing. -/
def State.hubPutD (s : State) (rank va : Nat) (data : List Byte) : State :=
  match s.hubPut rank va data with
  | .ok _ t => t
  | .fail _ _ => s

/-! ### What the command processors do in another device's memory (R171, R173, R176, R185, R216) -/

/-- What such an access comes to: it may have to wait for a reply. -/
inductive CpRes (α : Type) where
  | ok (x : α) (s : State)
  | fail (cause : Cause) (addr : Nat)
  | wait (s : State)

/-- Where an address of a rank lies in another device's memory, once its translation allows the access. -/
def State.farPa? (s : State) (rank va : Nat) (need : Need) : Option (Nat × State) :=
  match s.hubTranslate rank va need with
  | some (pa, t) => if paRemote pa then some (pa, t) else none
  | none => none

/-- What a command processor has asked of other devices for a queue is needed no more. -/
def State.dropFar (s : State) (owner : Nat) : State := if s.far.isEmpty then s else { s with far := s.far.filter fun f => f.owner != owner }

/-- The answer to a piece of a queue's access at another device: it is asked for once, when its port's budget allows it, and awaited. -/
def State.farPiece (s : State) (owner vf va n : Nat) (write : Bool) (pa : Nat) (body : Nat → PktBody) : CpRes (List Byte) :=
  match s.far.find? fun f => f.owner == owner && f.va == va && f.len == n && f.write == write with
  | some f =>
    match f.ans with
    | some (l, 0) => .ok l s
    | some (_, c) => .fail (Cause.ofCode c) va
    | none => .wait s
  | none =>
    if s.portHeld vf (paDevice pa) then .wait s
    else
      match s.request vf pa 0 0 false none body with
      | none => .fail .translation va
      | some (tag, t) => .wait { t with far := t.far ++ [⟨owner, va, n, write, tag, none⟩] }

/-- Reads pieces of a range, each in one line, for a queue of a virtual function. -/
def State.cpPieces (s : State) (owner rank : Nat) : List (Nat × Nat) → CpRes (List Byte)
  | [] => .ok [] s
  | (va, n) :: l =>
    let first : CpRes (List Byte) :=
      match s.farPa? rank va .read with
      | some (pa, t) => t.farPiece owner (owner / 16) va n false pa fun tag => .read Config.ownDevice tag (paOnDevice pa) (List.replicate n true)
      | none =>
        match s.hubGet rank va n with
        | .ok b t => .ok b t
        | .fail c a => .fail c a
    match first with
    | .fail c a => .fail c a
    | .wait t => .wait t
    | .ok b t =>
      match State.cpPieces t owner rank l with
      | .ok r u => .ok (b ++ r) u
      | .fail c a => .fail c a
      | .wait u => .wait u

/-- Whether some page of a range lies in another device's memory. -/
def State.rangeFar (s : State) (rank va n : Nat) : Bool :=
  (pageStarts va n).any fun v => match s.walk rank v with | some e => paRemote (e.paOf v) | none => false

/-- Reads bytes for a command processor's queue, wherever they lie. -/
def State.cpGet (s : State) (owner rank va n : Nat) : CpRes (List Byte) :=
  if s.rangeFar rank va n then s.cpPieces owner rank (linePieces (n / 128 + 2) va n)
  else
    match s.hubGet rank va n with
    | .ok b t => .ok b t
    | .fail c a => .fail c a

/-- Writes the bytes of one line for a command processor's queue, wherever they lie. -/
def State.cpPut (s : State) (owner rank va : Nat) (l : List Byte) : CpRes Unit :=
  match s.farPa? rank va .write with
  | some (pa, t) =>
    match t.farPiece owner (owner / 16) va l.length true pa fun tag =>
        .write Config.ownDevice tag false (paOnDevice pa) (List.replicate l.length true) l with
    | .ok _ u => .ok () u
    | .fail c a => .fail c a
    | .wait u => .wait u
  | none =>
    match s.hubPut rank va l with
    | .ok _ t => .ok () t
    | .fail c a => .fail c a

/-- Whether a write to a word would leave by a port whose budget the virtual function has used up (R323). -/
def State.wordHeld (s : State) (vf rank va : Nat) : Bool :=
  match s.walk rank va with
  | some e => paRemote (e.paOf va) && s.portHeld vf (paDevice (e.paOf va))
  | none => false

/-- Writes a STATUS word, wherever it lies; one that cannot be written stays as it is (R173; DESIGN CHOICE, log 73). -/
def State.cpStatus (s : State) (vf rank va : Nat) (status : Nat) : State :=
  match s.farPa? rank va .write with
  | some (pa, t) =>
    match t.request vf pa 0 0 false none fun tag => .write Config.ownDevice tag false (paOnDevice pa) (List.replicate 8 true) (leBytes 8 status) with
    | some (_, u) => u
    | none => s
  | none => s.hubPutD rank va (leBytes 8 status)

end Sys2Proof.Machine
end

