-- ==== Sys2Proof/Machine/Launch.lean ====
section
/-! DEFINITION. Machine/Launch.lean: launches (R165 to R167, R169 to R174, R179 to R181, R409): the LAUNCH instruction, the kernel header, checks and refusals, placement, completion. -/

namespace Sys2Proof.Machine

/-! ### LAUNCH (R165, R166) -/

/-- The parts of a descriptor, or the fault of its address: MISALIGNED before TRANSLATION where both hold (DESIGN CHOICE, log 69). -/
def State.descriptor (s : State) (a : W64) (n : Nat) : RecRes :=
  if a.toNat % n ≠ 0 then .fault (s.slotFault .misaligned a)
  else if 2 ^ 48 ≤ a.toNat then .fault (s.slotFault .translation a)
  else
    match s.rangeParts .read a.toNat n allBytes noData with
    | .fail f => .fault (s.accTrap { f with addr := a.toNat })
    | .ok l t => .parts l t

/-- A virtual function under a Last Collection, or held by one, starts nothing (R327, R329). -/
def State.collected (s : State) (vf : Nat) : Bool := (s.vf vf).halted

/-- Whether a child record enters the child queue at once (R166, R327). -/
def State.childRoom (s : State) (vf : Nat) : Bool := decide ((s.vf vf).childq.length < 64) && !s.collected vf

def State.modLaunch (s : State) (id : Nat) (f : Launch → Launch) : State :=
  { s with launches := s.launches.map fun l => if l.id = id then f l else l }

/-- Whether a record of the present context can be parked. -/
def State.canPark (s : State) : Bool :=
  match s.parent? s.cur with
  | some l => decide (l.parked < l.maxchild)
  | none => false

/-- Whether a parked record of a virtual function can enter its child queue now: it does so ahead of new records and of new host work (R166, R168). -/
def State.drainDue (s : State) (vf : Nat) : Bool := s.childRoom vf && s.ranks.any fun r => r.2.vf == vf && !r.2.parked.isEmpty

/-- The record of the bytes of a descriptor that the LAUNCH of the bundle at `epc` has read. -/
def State.childRecord (s : State) (l : List Byte) (epc : Nat) : LaunchRec :=
  let c := s.cx
  { id := s.nextId, rank := c.rank, vf := s.vfOf s.cur
    src := .child s.cur c.launch { failedOp .illegalBundle (opcOf 5 0x0E) c 0 epc 0 none with cause := 0, kind := 3 }
    code := fieldLE l 0x00 8, args := BitVec.ofNat 64 (fieldLE l 0x08 8), event := fieldLE l 0x10 8, status := 0
    nctx := fieldLE l 0x18 4, nptr := none, base := fieldLE l 0x1C 4 }

/-- Accepts a launch record: into the child queue, else into the parking area; none where its reservation is full. -/
def State.acceptChild (s : State) (r : LaunchRec) : Option State :=
  let s := { s with nextId := s.nextId + 1 }
  if s.childRoom r.vf then some (s.modVf r.vf fun f => { f with childq := f.childq ++ [r] })
  else if s.canPark then
    some ((s.modRank r.rank fun k => { k with parked := k.parked ++ [r] }).modLaunch ((s.cx.launch).getD 0) fun l => { l with parked := l.parked + 1 })
  else none

/-- LAUNCH holds its bundle until the descriptor has been read and, the acceptance being a release, what came before has performed; a record that can leave the parking area enters the child queue first. -/
def holdLaunch (a : GR) (s : State) : Option State :=
  match s.descriptor (s.rg a) 32 with
  | .fault _ => none
  | .parts l t =>
    if s.cx.heldAt s.issue.slot = some .accepted then none
    else
    match s.heldBytes? with
    | some _ => if s.mustWait (.fence .release) none true [] || s.drainDue (s.vfOf s.cur) then some s else none
    | none =>
      match t.heldRead 0x0E l (s.rg a).toNat with
      | .wait u => some u
      | .bytes _ _ => none

def execLaunch (a : GR) (s : State) : Out :=
  match holdLaunch a s with
  | some t => .next t
  | none =>
    match s.descriptor (s.rg a) 32 with
    | .fault t => .next t
    | .parts _ t =>
      if s.cx.heldAt s.issue.slot = some .accepted then .next s.clearHeld
      else
      match s.heldBytes? with
      | none => .next s
      | some (l, id) =>
        let t := (t.dropAcc id).clearHeld
        .next ((t.acceptChild (t.childRecord l s.cx.pc)).getD (t.slotFault .quota 0))

/-! ### The kernel header (R169) -/

/-- What the checks of R171 read in a header. -/
structure KHeader where
  kernel : Kernel
  fmaj : Nat
  fmin : Nat
  mrev : Nat
  digest : List Byte
  /-- HEADER: every field in its range. -/
  ok : Bool

def kernelHeader (va : Nat) (l : List Byte) : KHeader :=
  let f := fieldLE l
  let size := f 0x0C 4
  let offOk (x : Nat) : Bool := x % 4 == 0 && decide (x < size)
  let depth := f 0x1C 1
  { kernel :=
      { header := va, code := va + 0x60, size := size, entry := f 0x10 4, handler := f 0x14 4, qsites := f 0x2C 4, budget := f 0x20 8
        cutbound := f 0x28 4, banks := f 0x1A 2, depth := depth, maxchild := f 0x1E 2, develop := f 0x1D 1, nctx := f 0x18 2, fused := (f 0x0A 2).testBit 0 }
    fmaj := f 6 1, fmin := f 7 1, mrev := f 8 2, digest := (l.drop 0x40).take 32
    ok := f 0 4 == 0x4F4B564A && f 4 2 == 1 && decide (f 0x0A 2 < 2) && f 6 1 != 0 && decide (0 < size) && size % 4 == 0 && offOk (f 0x10 4)
      && (f 0x14 4 == 0 || offOk (f 0x14 4)) && decide (1 ≤ f 0x18 2) && decide (f 0x18 2 ≤ 512) && decide (1 ≤ f 0x1A 2) && decide (f 0x1A 2 ≤ 32)
      && (decide (depth < 6) || depth == 0xFF) && decide (f 0x1D 1 < 3) && decide (1 ≤ f 0x20 8) && decide (1 ≤ f 0x28 4) && decide (f 0x2C 4 ≤ 4096)
      && f 0x30 8 == 0 && f 0x38 8 == 0 }

/-! ### Placement (R179, R180) -/

/-- Partition of a cluster (R321). -/
def State.partitionOf (s : State) (cl : Nat) : Nat := bitsOf s.hub.clpart.toNat (4 * cl) 4

/-- Contexts that occupy a core. -/
def State.occupants (s : State) (core : Nat) : List Nat :=
  (s.ctxs.filter fun e => (e.2.place.map (·.1)) == some core && s.occupies e.1).map (·.1)

/-- Hardware contexts of a core that suspended readers have vacated for their cells' evaluators, with the readers (R241). -/
def State.reservedAt (s : State) (core : Nat) : List (Nat × Nat) :=
  s.cells.filterMap fun e => match e.2.vacated, e.2.inPlace with
    | some (n, hw), some k => if n = core then some (hw, k) else none
    | _, _ => none

def State.banksFree (s : State) (core : Nat) : Nat :=
  32 - (((s.occupants core) ++ (s.reservedAt core).map (·.2)).map fun k => (s.ctx k).kernel.banks).sum

def State.hwFree (s : State) (core hw : Nat) : Bool :=
  !((s.occupants core).any fun k => (s.ctx k).hw == hw) && !((s.reservedAt core).any fun e => e.1 == hw)

/-- Whether a cluster accepts contexts of a launch of a rank. -/
def State.clusterOk (s : State) (cl rank : Nat) (fused : Bool) : Bool :=
  match tabGet s.fused cl with
  | some r => fused && r == rank
  | none => !fused || !(s.ctxs.any fun e => s.occupies e.1 && (match e.2.place with | some (c, _) => clusterOf c == cl | none => false))

/-- Whether a core may hold contexts of a launch. -/
def State.coreOk (s : State) (core part rank : Nat) (fused : Bool) : Bool :=
  decide (core < 128) && s.partitionOf (clusterOf core) == part && s.clusterOk (clusterOf core) rank fused

/-- Places free for contexts of `banks` banks, core by core. -/
def State.freePlaces (s : State) (part rank banks : Nat) (fused : Bool) : List (Nat × Nat) :=
  (List.range 128).flatMap fun core =>
    if s.coreOk core part rank fused then (((List.range 4).filter (s.hwFree core)).take (s.banksFree core / banks)).map fun h => (core, h) else []

/-- Whether the places given are all free together. -/
def State.placesOk (s : State) (part rank banks : Nat) (fused : Bool) (l : List (Nat × Nat)) : Bool :=
  l.all fun p =>
    s.coreOk p.1 part rank fused && decide (p.2 < 4) && s.hwFree p.1 p.2 && decide ((l.filter (· == p)).length = 1)
      && decide ((l.filter fun q => q.1 == p.1).length * banks ≤ s.banksFree p.1)

/-- Contexts that a partition holds when every core is free. -/
def State.capacityOf (s : State) (part banks : Nat) : Nat :=
  8 * ((List.range 16).filter fun cl => s.partitionOf cl == part).length * min 4 (32 / banks)

/-- Fuses a cluster at its first fused context: its eight L1 caches are invalidated (R180). -/
def State.fuse (s : State) (cl rank : Nat) : State :=
  if (tabGet s.fused cl).isSome then s
  else { s with fused := tabSet s.fused cl rank, cores := s.cores.map fun e => if clusterOf e.1 = cl then (e.1, { e.2 with l1 := [] }) else e }

/-! ### From acceptance to the first bundle (R24, R171, R181) -/

/-- Bytes of a context's save slot (R309). -/
def saveSlotBytes : Nat := 2314240

/-- The least save slot of a rank that no context of it holds, one that has ended and still occupies its place included (which one is not architectural, R309). -/
def State.saveSlot (s : State) (rank : Nat) : Nat :=
  let base := (s.rankOf rank).save
  let used := (s.ctxs.filter fun e => e.2.rank == rank && (e.2.alive || s.occupies e.1)).map fun e => (e.2.msave.toNat - base) / saveSlotBytes
  ((List.range (used.length + 1)).find? fun k => !used.contains k).getD 0

/-- A context in the state of R24, with the values of R181. -/
def State.newCtx (s : State) (rank : Nat) (launch : Option Nat) (k : Kernel) (place : Nat × Nat) (g1 : W64) (ctxid nctx : Nat) : Ctx :=
  let r := s.rankOf rank
  { Ctx.vacant with
    phase := .live, rank := rank, launch := launch, place := some place, kernel := k
    g := Ctx.vacant.g.set 1 g1, pc := k.code + k.entry, ctxid := BitVec.ofNat 64 (ctxid % 2 ^ 32), nctx := BitVec.ofNat 64 nctx
    msave := BitVec.ofNat 64 (r.save + saveSlotBytes * s.saveSlot rank), rngkey := rankKey r.seed r.vk
    rngctr := BitVec.ofNat 128 (ctxid % 2 ^ 32 * 2 ^ 96) }

/-- Places one context; the firmware marks its save area as holding nothing (R314), and a failure of that write ends the context (R309). -/
def State.placeCtx (s : State) (rank : Nat) (launch : Option Nat) (k : Kernel) (place : Nat × Nat) (g1 : W64) (ctxid nctx : Nat) : Nat × State :=
  let c := s.newCtx rank launch k place g1 ctxid nctx
  let (id, s) := s.takeId
  let s := s.setCtx id c
  match s.hubPut rank (c.msave.toNat + 0x24200) (List.replicate 8 0) with
  | .ok _ t => (id, t)
  | .fail e a => (id, s.fwEnd id e a)

def State.placeAll (s : State) (r : LaunchRec) (k : Kernel) (fused : Bool) (n : Nat) : List (Nat × Nat) → Nat → List Nat × State
  | [], _ => ([], s)
  | p :: l, i =>
    let s := if fused then s.fuse (clusterOf p.1) r.rank else s
    let (id, s) := s.placeCtx r.rank (some r.id) k p r.args (r.base + i) n
    let (ids, s) := State.placeAll s r k fused n l (i + 1)
    (id :: ids, s)

/-- What the checks of a launch come to. -/
inductive CheckRes where
  | refused (status : Nat) (s : State)
  /-- A word or the kernel lies in another device's memory, and its bytes have not all come. -/
  | wait (s : State)
  | ok (h : KHeader) (n : Nat) (s : State)

/-- The number of the queue that a launch comes from, as VF × 16 + queue, 8 for the child queue. -/
def LaunchRec.owner (r : LaunchRec) : Nat :=
  match r.src with
  | .queue v q => v * 16 + q
  | .child .. => r.vf * 16 + 8

/-- The bytes of header and code, when they can be read. -/
def State.kernelBytes (s : State) (owner rank va : Nat) : CpRes (List Byte × List Byte) :=
  match s.cpGet owner rank va 0x60 with
  | .fail c a => .fail c a
  | .wait t => .wait t
  | .ok h s =>
    match s.cpGet owner rank (va + 0x60) (fieldLE h 0x0C 4) with
    | .fail c a => .fail c a
    | .wait t => .wait t
    | .ok c s => .ok (h, c) s

/-- Notes a verified header as the latest launched, in a die's table of 256 (R174). -/
def State.noteVerified (s : State) (die rank va len : Nat) : State :=
  let t := tabGetD s.verified die []
  { s with verified := tabSet s.verified die (((rank, va, len) :: t.filter fun e => !(e.1 == rank && e.2.1 == va)).take 256) }

def State.isVerified (s : State) (die rank va : Nat) : Bool := (tabGetD s.verified die []).any fun e => e.1 == rank && e.2.1 == va

/-- The die whose command processor makes a launch (R178, R409). -/
def State.launchDie (s : State) (r : LaunchRec) : Nat :=
  match r.src with
  | .queue v q => ((tabGet (s.vf v).queues q).map (·.die)).getD 0
  | .child .. => (s.vf r.vf).childDie

/-- The checks of R171 from HEADER to POLICY: the status of the first that fails, else 0. -/
def State.headerStatus (s : State) (die rank vf : Nat) (h : KHeader) (code : List Byte) : Nat :=
  let v := s.vf vf
  if !h.ok then 2
  else if 1 < h.fmaj ∨ 0 < h.fmin then 3
  else if h.mrev ≠ 1 then 4
  else if !s.isVerified die rank h.kernel.header && digest32 code != h.digest then 5
  else if v.cutmax < h.kernel.cutbound ∨ v.budgetmax < h.kernel.budget then 6
  else 0

/-- The count that a command or a descriptor asks for: none for the header's, or the word at NPTR, read when the launch starts (R176). A word of 0 or one that cannot be read refuses it. -/
def State.launchCount (s : State) (r : LaunchRec) : CpRes (Option Nat) :=
  match r.nptr with
  | none => .ok (if r.nctx = 0 then none else some r.nctx) s
  | some a =>
    match s.cpGet r.owner r.rank a 4 with
    | .fail c x => .fail c x
    | .wait t => .wait t
    | .ok w t => if leNat w = 0 then .fail .permission a else .ok (some (leNat w)) t

/-- The checks of R171, in its order. A digest that is verified is kept, though a later check refuse the launch (R174). -/
def State.checkLaunch (s : State) (r : LaunchRec) : CheckRes :=
  match tabGet s.ranks r.rank with
  | none => .refused 1 s
  | some k =>
    match s.launchCount r with
    | .fail _ _ => .refused 2 s
    | .wait t => .wait t
    | .ok count s =>
    match s.kernelBytes r.owner r.rank r.code with
    | .fail _ _ => .refused 2 s
    | .wait t => .wait t
    | .ok (hb, cb) s =>
      let h := kernelHeader r.code hb
      let v := s.vf r.vf
      let n := count.getD h.kernel.nctx
      let bad := s.headerStatus (s.launchDie r) r.rank r.vf h cb
      let s := if bad = 0 ∨ bad = 6 then s.noteVerified (s.launchDie r) r.rank r.code (0x60 + h.kernel.size) else s
      if bad ≠ 0 then .refused bad s
      else if 512 < n ∨ s.capacityOf v.part h.kernel.banks < n then .refused 7 s
      else if k.parkn < h.kernel.maxchild then .refused 8 s
      else .ok h n s

/-- Whether a virtual function has its partition's time slice (R324) and is enabled (R322). -/
def State.hasSlice (s : State) (vf : Nat) : Bool :=
  let v := s.vf vf
  v.enable && (match tabGet s.running v.part with | some w => w == vf | none => true) && (tabGet s.switching v.part).isNone

/-- Whether contexts of a rank may be placed now: its virtual function's slice, and its residency (R374). -/
def State.mayRun (s : State) (vf rank : Nat) : Bool := s.hasSlice vf && (s.rankOf rank).state == 1

/-- What starting a launch comes to. -/
inductive StartRes where
  | refused (status : Nat) (s : State)
  /-- It waits, with what its checks have come to so far. -/
  | waits (s : State)
  | placed (s : State)

/-- Checks a launch and, when all its contexts fit, places them: at the places given, or the first free ones. -/
def State.startLaunch (s : State) (r : LaunchRec) (places : List (Nat × Nat)) : StartRes :=
  match s.checkLaunch r with
  | .refused c t => if r.status ≠ 0 ∧ t.wordHeld r.vf r.rank r.status then .waits t else .refused c t
  | .wait t => .waits t
  | .ok h n t =>
    let part := (t.vf r.vf).part
    let k := t.rankOf r.rank
    let l := if places.isEmpty then (t.freePlaces part r.rank h.kernel.banks h.kernel.fused).take n else places
    if t.mayRun r.vf r.rank && !k.stopped && decide (l.length = n) && t.placesOk part r.rank h.kernel.banks h.kernel.fused l
        && decide (k.reserved + h.kernel.maxchild ≤ k.parkn) && !(r.status != 0 && t.wordHeld r.vf r.rank r.status) then
      let t := t.modRank r.rank fun k => { k with reserved := k.reserved + h.kernel.maxchild }
      let t := { t with running := tabSet t.running part r.vf }
      let launch : Launch := ⟨r.id, r.rank, r.vf, r.src, r.code, r.base, r.event, [], h.kernel.maxchild, 0, h.kernel.fused⟩
      let (ids, t) := { t with launches := t.launches ++ [launch] }.placeAll r h.kernel h.kernel.fused n l 0
      let t := t.modLaunch r.id fun x => { x with ctxs := ids }
      .placed (if r.status = 0 then t else t.cpStatus r.vf r.rank r.status 0)
    else .waits t

/-- The refusal of a child launch reaches its issuer (R173). -/
def State.refuseChild (s : State) (r : LaunchRec) (status : Nat) : State :=
  match r.src with
  | .child k _ rep => s.report k r.rank { rep with detail := status }
  | .queue .. => s

/-- A record leaves the parking area: its entry in its launch's reservation is free (R166). -/
def State.unpark (s : State) (r : LaunchRec) : State :=
  match r.src with
  | .child _ (some p) _ =>
    match s.launch? p with
    | some _ => s.modLaunch p fun l => { l with parked := l.parked - 1 }
    | none => s.modRank r.rank fun k => { k with reserved := k.reserved - 1 }
  | _ => s

/-- PARKED_LAUNCH_DRAIN: the oldest parked record of a rank enters its virtual function's child queue. -/
def execParkedLaunchDrain (rank : Nat) (s : State) : Out :=
  match (s.rankOf rank).parked with
  | [] => .next s
  | r :: l =>
    if s.childRoom r.vf then
      .next (((s.modRank rank fun k => { k with parked := l }).unpark r).modVf r.vf fun f => { f with childq := f.childq ++ [r] })
    else .next s

/-- Starts the head of a child queue at places, or the first free ones; refused, it is reported. -/
def State.startChild (s : State) (vf : Nat) (places : List (Nat × Nat)) : State :=
  if s.collected vf then s
  else
    match (s.vf vf).childq with
    | [] => s
    | r :: l =>
      match s.startLaunch r places with
      | .waits t => t
      | .refused c t => ((t.modVf vf fun f => { f with childq := l }).refuseChild r c).dropFar r.owner
      | .placed t => (t.modVf vf fun f => { f with childq := l }).dropFar r.owner

/-! ### Completion (R167) -/

/-- The record of a failed add to a launch's event word. -/
def Launch.eventRecord (l : Launch) : Report :=
  { cause := 0, kind := 1, opc := 0, ctxid := l.base, faddr := l.event, epc := 0, detail := 0, seq := 0, code := l.header, action := 0, cmd := none }

/-- The add to an event word, at the word's home; its failure goes to the dead letter queue and changes nothing else. -/
def State.signalEvent (s : State) (l : Launch) : State :=
  if l.event = 0 then s
  else
    let bad (c : Cause) : State := s.deadLetterNew l.rank { l.eventRecord with cause := c.code }
    if l.event % 8 ≠ 0 then bad .misaligned
    else
      match s.hubAdd l.rank l.event 1 (some (l.rank, l.eventRecord)) with
      | .ok _ t => t
      | .fail c _ => bad c

/-- LAUNCH_COMPLETE: every context has ended and what it left running has finished. -/
def execLaunchComplete (id : Nat) (s : State) : Out :=
  match s.launch? id with
  | none => .next s
  | some l =>
    if (l.ctxs.all fun k => !(s.ctx k).alive && !s.outstanding k) && !(l.event != 0 && s.wordHeld l.vf l.rank l.event) then
      let s := s.signalEvent l
      let s := s.modRank l.rank fun k => { k with reserved := k.reserved - (l.maxchild - l.parked) }
      let s := { s with launches := s.launches.filter (fun x => x.id != id), ctxs := s.ctxs.filter fun e => !l.ctxs.contains e.1 }
      .next (match l.src with
        | .queue v q => s.modVf v fun f => { f with queues := tabModify f.queues q fun x => ({ x with running := x.running.filter (· != id) }).settled }
        | .child .. => s)
    else .next s

end Sys2Proof.Machine
end

