-- ==== Sys2Proof/Machine/Collective.lean ====
section
/-! DEFINITION. Machine/Collective.lean: communicators, XCOLL, what a collective computes, its packets, halts, aborts and reduction slots (R341 to R354). -/

namespace Sys2Proof.Machine

/-! ### Reads that a held bundle makes one after the other (R152, R297) -/

/-- The reads that the slot now acting has made for its held bundle, in order. -/
def State.slotReads (s : State) : List Acc :=
  s.accs.filter fun a => a.ctx == s.cur && a.slot == s.issue.slot && a.kind == .load .none && a.cls == .none

/-- Drops them. -/
def State.dropReads (s : State) : State :=
  let ids := s.slotReads.map (·.id)
  { s with accs := s.accs.filter fun a => !ids.contains a.id }.clearHeld

inductive SeqRead where
  | wait (t : State)
  | bytes (l : List Byte)

/-- Read i of the bundle: made when it is reached, then awaited; one that fails raises its cause at the boundary, with its address, and the bundle is attempted afresh. -/
def State.seqRead (s : State) (i op : Nat) (parts : List Part) : SeqRead :=
  match s.slotReads[i]? with
  | none => .wait ((s.addAcc op (.load .none) .none none false parts).setHeld (.read s.nextId))
  | some a =>
    if a.parts.all Part.answered then
      match a.failure? with
      | none => .bytes a.bytes
      | some (cause, addr) => .wait (s.dropReads.boundaryFailure s.cur cause addr)
    else .wait s

/-! ### Communicators (R341) -/

/-- What finding a communicator comes to: waiting, a fault of a read of the tables, undefined, or its members in ascending order. -/
inductive CommRes where
  | wait (t : State)
  | fault (t : State)
  | undefined
  | members (l : List Nat)

/-- 16-bit identifiers of a list. -/
def idsOf : List Byte → List Nat
  | a :: b :: l => (a.toNat + 256 * b.toNat) :: idsOf l
  | _ => []

def strictlyAscending : List Nat → Bool
  | a :: b :: l => decide (a < b) && strictlyAscending (b :: l)
  | _ => true

/-- Reads entry and list of a communicator, after `i` earlier reads of the bundle. -/
def State.communicator (s : State) (i op comm : Nat) : CommRes :=
  let r := s.rankOf s.cx.rank
  if comm = 0 then .members (List.range r.nvk)
  else
    let entry := r.commt + 16 * comm
    match s.rangeParts .read entry 16 allBytes noData with
    | .fail f => .fault (s.accTrap f)
    | .ok l t =>
      match t.seqRead i op l with
      | .wait u => .wait u
      | .bytes e =>
        let at' := fieldLE e 0 8
        let n := fieldLE e 8 8
        if at' = 0 ∨ n = 0 ∨ 65536 < n then .undefined
        else
          match s.rangeParts .read at' (2 * n) allBytes noData with
          | .fail f => .fault (s.accTrap f)
          | .ok l t =>
            match t.seqRead (i + 1) op l with
            | .wait u => .wait u
            | .bytes b =>
              let ids := idsOf b
              if strictlyAscending ids && ids.all (· < r.nvk) then .members ids else .undefined

/-- Position of the present context's rank among the members. -/
def State.positionIn (s : State) (members : List Nat) : Option Nat :=
  let vk := (s.rankOf s.cx.rank).vk
  members.findIdx? (· == vk)

/-! ### The order (R342, R344) -/

inductive CollOp where
  | sum | min | max | none
  deriving DecidableEq, Repr

structure XOrder where
  comm : Nat
  exact : Bool
  op : Nat
  elem : Option Ty
  flags : Nat
  naxes : Nat
  ndims : Nat
  mesh : List Nat
  slay : List Nat
  tlay : List Nat
  spart : Nat
  tpart : Nat
  timeout : Nat
  shape : List Nat
  src : Nat
  tgt : Nat

def xorder (l : List Byte) : XOrder :=
  let f := fieldLE l
  { comm := f 0 2, exact := f 2 1 == 1, op := f 3 1, elem := Ty.ofCode (f 4 1), flags := f 5 1, naxes := f 6 1, ndims := f 7 1
    mesh := (List.range 4).map fun i => f (8 + 2 * i) 2, slay := (List.range 4).map fun d => f (0x10 + d) 1
    tlay := (List.range 4).map fun d => f (0x14 + d) 1, spart := f 0x18 1, tpart := f 0x19 1, timeout := f 0x1C 4
    shape := (List.range 4).map fun d => f (0x20 + 4 * d) 4, src := f 0x30 8, tgt := f 0x38 8 }

/-- OP of SUM, MIN, MAX or NONE. -/
def XOrder.kind (o : XOrder) : CollOp :=
  match o.op with
  | 0 => .sum
  | 1 => .min
  | 2 => .max
  | _ => .none

def XOrder.ty (o : XOrder) : Ty := o.elem.getD .i8
def XOrder.acq (o : XOrder) : Bool := o.flags.testBit 0
def XOrder.rel (o : XOrder) : Bool := o.flags.testBit 1
def XOrder.scope (o : XOrder) : Scope := (Scope.ofCode (bitsOf o.flags 2 2)).getD .core

/-- What can be checked without the communicator (check 3 of R343). -/
def XOrder.okAlone (o : XOrder) (l : List Byte) : Bool :=
  let axes := 2 ^ o.naxes
  decide (o.comm < 4096) && decide (fieldLE l 2 1 < 2) && decide (o.op < 4) && o.elem.isSome && decide (o.flags < 16)
    && decide (1 ≤ o.naxes) && decide (o.naxes ≤ 4) && decide (1 ≤ o.ndims) && decide (o.ndims ≤ 4)
    && ((List.range 4).all fun i => decide (i < o.naxes) || o.mesh.getD i 0 == 1)
    && ((List.range 4).all fun d => decide (o.slay.getD d 0 < axes) && decide (o.tlay.getD d 0 < axes)
        && (decide (d < o.ndims) || (o.slay.getD d 0 == 0 && o.tlay.getD d 0 == 0 && o.shape.getD d 0 == 1)))
    && decide (o.spart < axes) && decide (o.tpart < axes) && fieldLE l 0x1A 2 == 0
    && (o.tpart &&& o.spart) == o.tpart && ((o.op == 3) == (o.spart == o.tpart)) && (!o.exact || o.ty.isFloat)

/-- Axes of a mask. -/
def axesOf (mask : Nat) : List Nat := (List.range 4).filter fun a => mask.testBit a

/-- Blocks that a mask cuts a dimension into. -/
def XOrder.blocks (o : XOrder) (mask : Nat) : Nat := ((axesOf mask).map fun a => o.mesh.getD a 1).foldl (· * ·) 1

/-- A layout meets R342: an axis in one mask at most, extents divisible. -/
def XOrder.layoutOk (o : XOrder) (lay : List Nat) (part : Nat) : Bool :=
  ((List.range 4).all fun a => decide (((part :: lay).filter fun m => m.testBit a).length ≤ 1))
    && ((List.range 4).all fun d => o.blocks (lay.getD d 0) != 0 && o.shape.getD d 1 % o.blocks (lay.getD d 0) == 0)

/-- Check 6 of R343. -/
def XOrder.okIn (o : XOrder) (n : Nat) : Bool :=
  o.mesh.foldl (· * ·) 1 == n && o.layoutOk o.slay o.spart && o.layoutOk o.tlay o.tpart

/-- Coordinate of a position on an axis. -/
def XOrder.coord (o : XOrder) (p a : Nat) : Nat := p / ((o.mesh.take a).foldl (· * ·) 1) % o.mesh.getD a 1

/-- Block number that a position holds of a dimension: mixed radix, lowest axis most significant. -/
def XOrder.block (o : XOrder) (mask p : Nat) : Nat := (axesOf mask).foldl (fun b a => b * o.mesh.getD a 1 + o.coord p a) 0

/-- Extents of a shard. -/
def XOrder.extents (o : XOrder) (lay : List Nat) : List Nat := (List.range 4).map fun d => o.shape.getD d 1 / o.blocks (lay.getD d 0)

/-- Bytes of a shard. -/
def XOrder.shardBytes (o : XOrder) (lay : List Nat) : Nat := (o.extents lay).foldl (· * ·) 1 * o.ty.width

/-- Row-major number of an element among extents, and back. -/
def rowMajor (ext idx : List Nat) : Nat := (ext.zip idx).foldl (fun n e => n * e.1 + e.2) 0
def unRowMajor (ext : List Nat) (n : Nat) : List Nat :=
  (List.range 4).map fun d => n / ((ext.drop (d + 1)).foldl (· * ·) 1) % max 1 (ext.getD d 1)

/-! ### What a collective computes (R345, R347, R348, R352) -/

/-- The source elements that make up element `idx` of the target of position p: positions in ascending order, with the bits each holds. -/
def XOrder.inputs (o : XOrder) (n : Nat) (data : Nat → List Byte) (p : Nat) (idx : List Nat) : List (Nat × Nat) :=
  let text := o.extents o.tlay
  let x := (List.range 4).map fun d => o.block (o.tlay.getD d 0) p * text.getD d 1 + idx.getD d 0
  let sext := o.extents o.slay
  let want (a : Nat) (q : Nat) : Bool :=
    if o.spart.testBit a then (if o.tpart.testBit a then o.coord q a == o.coord p a else true)
    else match (List.range 4).find? fun d => (o.slay.getD d 0).testBit a with
      | some _ => true
      | none => o.coord q a == 0
  let holds (q : Nat) : Bool := (List.range 4).all fun d => x.getD d 0 / max 1 (sext.getD d 1) == o.block (o.slay.getD d 0) q
  let off := rowMajor sext ((List.range 4).map fun d => x.getD d 0 % max 1 (sext.getD d 1))
  ((List.range n).filter fun q => ((List.range 4).all fun a => want a q) && holds q).map fun q =>
    (q, leNat (((data q).drop (o.ty.width * off)).take o.ty.width))

/-- OP of two values of an element type (R347). -/
def XOrder.combine (o : XOrder) (a b : Nat) : Nat :=
  match o.kind with
  | .sum => (laneAdd o.ty .rne a b).1
  | .min => laneMin o.ty a b
  | .max => laneMax o.ty a b
  | .none => a

/-- One level of the canonical tree: values with the leaves beneath them. -/
def XOrder.level (o : XOrder) : List (List Nat × Nat) → List (List Nat × Nat)
  | a :: b :: l => (a.1 ++ b.1, o.combine a.2 b.2) :: o.level l
  | l => l

def nonFinite (t : Ty) (x : Nat) : Bool := t.isFloat && !(laneVal t x).isFinite

/-- The tree: its root, and per level, lowest first, the leaves beneath its non-finite results. -/
def XOrder.tree (o : XOrder) : Nat → List (List Nat × Nat) → Nat × List (List Nat)
  | 0, l => ((l.head?.map (·.2)).getD 0, [])
  | fuel + 1, l =>
    if l.length ≤ 1 then ((l.head?.map (·.2)).getD 0, [])
    else
      let r := o.level l
      let bad := (r.filter fun e => decide (1 < e.1.length) && nonFinite o.ty e.2).flatMap (·.1)
      let (v, more) := o.tree fuel r
      (v, bad :: more)

/-- The exact sum of EXACT mode, rounded once (R348). -/
def XOrder.exactSum (o : XOrder) (l : List Nat) : Nat :=
  let e := l.foldl (fun (e : WinElem) x => e.add (laneVal o.ty x)) WinElem.zero
  let v : XVal :=
    if e.nan ∨ (e.pinf ∧ e.ninf) then .nan
    else if e.pinf then .inf false
    else if e.ninf then .inf true
    else if e.ovf then .inf (decide (e.sum.toInt < 0))
    else XVal.ofScaled e.sum.toInt (-149)
  (convert o.ty.elem .rne 0 v).1

/-- The value of one element of a target, and what halts the collective there: a position whose source element is non-finite, or non-finite results by level. -/
def XOrder.value (o : XOrder) (l : List (Nat × Nat)) : Nat × Option Nat × List (List Nat) :=
  match o.kind with
  | .none => ((l.head?.map (·.2)).getD 0, none, [])
  | _ =>
    if o.exact && o.kind == .sum then (o.exactSum (l.map (·.2)), none, [])
    else
      let leaves := l.map fun e => ([e.1], e.2)
      let (v, bad) := o.tree (l.length + 1) leaves
      if o.exact then (v, none, [])
      else (v, (l.find? fun e => nonFinite o.ty e.2).map (·.1), bad)

/-- Every value of a position's target, element by element. -/
def XOrder.values (o : XOrder) (n : Nat) (data : Nat → List Byte) (p : Nat) : List (Nat × Option Nat × List (List Nat)) :=
  let ext := o.extents o.tlay
  (List.range (ext.foldl (· * ·) 1)).map fun i => o.value (o.inputs n data p (unRowMajor ext i))

/-- The culprit of a halt, if the collective halts (R352). -/
def XOrder.culprit (o : XOrder) (n : Nat) (data : Nat → List Byte) : Option Nat :=
  let all := (List.range n).flatMap (o.values n data)
  match (all.filterMap (·.2.1)).min? with
  | some p => some p
  | none =>
    let depth := (all.map fun e => e.2.2.length).foldl max 0
    ((List.range depth).map fun i => all.flatMap fun e => e.2.2.getD i []).findSome? fun l => l.min?

/-- The target bytes of a position. -/
def XOrder.targetBytes (o : XOrder) (n : Nat) (data : Nat → List Byte) (p : Nat) : List Byte :=
  (o.values n data p).flatMap fun e => leBytes o.ty.width e.1

/-! ### XCOLL (R343) -/

/-- Whether a range of a rank has a byte in another device's memory. -/
def State.rangeRemote (s : State) (rank va len : Nat) : Bool :=
  (pagePieces (len / 65536 + 2) va len).any fun e => match s.walk rank e.1 with | some x => paRemote (x.paOf e.1) | none => false

/-- What the checks of an XCOLL come to. -/
inductive XcollRes where
  | wait (t : State)
  | fault (t : State)
  | ok (o : XOrder) (order : List Byte) (members : List Nat) (pos : Nat)

def State.xcollCheck (s : State) (a : W64) : XcollRes :=
  match s.descriptor a 64 with
  | .fault t => .fault t
  | .parts l t =>
    match t.seqRead 0 0x0F l with
    | .wait u => .wait u
    | .bytes b =>
      let o := xorder b
      let bad (c : Cause) : XcollRes := .fault (s.dropReads.slotFault c a)
      if !o.okAlone b then bad .formatMismatch
      else
        match s.communicator 1 0x0F o.comm with
        | .wait u => .wait u
        | .fault u => .fault u.dropReads
        | .undefined => bad .permission
        | .members ms =>
          match s.positionIn ms with
          | none => bad .permission
          | some p =>
            if !o.okIn ms.length then bad .formatMismatch
            else if s.rangeRemote s.cx.rank o.src (o.shardBytes o.slay) ∨ s.rangeRemote s.cx.rank o.tgt (o.shardBytes o.tlay) then bad .permission
            else .ok o b ms p

def holdXcoll (a : GR) (s : State) : Option State :=
  match s.xcollCheck (s.rg a) with
  | .wait t => some t
  | .fault _ => none
  | .ok .. => none

/-- Parts of a range whose translation and turn have still to come. -/
def pendingParts (va len : Nat) : List Part :=
  (linePieces (len / 128 + 2) va len).map fun e => ⟨e.1, 0, false, List.replicate e.2 true, [], .sent 0⟩

/-- The two accesses of a collective or a shuffle: its reads, and its writes, which count on TL (R209). -/
def State.addTile (s : State) (op : Nat) (reads writes : List Part) (acq : Option Scope) (rel : Bool) : State :=
  let c := s.cx
  let rd : Acc :=
    { id := s.nextId, ctx := s.cur, rank := c.rank, core := c.coreNum, slot := s.issue.slot, opc := op, epc := c.pc, kind := .source, cls := .none,
      acq := acq, rel := false, parts := reads, woken := false, first := s.issue.first, keep := [], shut := s.issue.fixed }
  { s with nextId := s.nextId + 1, accs := s.accs ++ [rd] }.addAcc op .coll .tl none rel writes

/-- How a collective stands for a member that now issues its XCOLL: an abort may have come before it (R353). -/
def State.collOutcome (s : State) (job comm k : Nat) : CollEnd :=
  match (s.collAborts.find? fun x => x.1 == job && x.2.1 == comm && x.2.2.1 == k).map (·.2.2.2) with
  | some true => .mismatch
  | some false => .abort
  | none => .open

/-- Positions of members whose endpoint has told its peers to hold (R353, R387): by a notice that came before, or one of this device. -/
def State.heldHere (s : State) (job comm : Nat) (members : List Nat) : List Nat :=
  (List.range members.length).filter fun p =>
    s.holds.contains (job, comm, p) ||
      match ((members[p]?).bind fun vk => s.jobRank? job vk).map s.rankOf with
      | some r => r.state == 2 || r.state == 3
      | none => false

def execXcoll (a : GR) (s : State) : Out :=
  match s.xcollCheck (s.rg a) with
  | .wait t => .next t
  | .fault t => .next t
  | .ok o b ms p =>
    let c := s.cx
    let t := s.dropReads
    let k := tabGetD (s.rankOf c.rank).collNum o.comm 0
    let coll : Coll :=
      { id := t.nextId + 1, rd := t.nextId, rank := c.rank, ctx := s.cur, job := s.jobOf s.cur, comm := o.comm, k := k, addr := (s.rg a).toNat, order := b,
        members := ms, pos := p, begun := false, sent := false, held := t.heldHere (s.jobOf s.cur) o.comm ms, unacked := []
        outcome := s.collOutcome (s.jobOf s.cur) o.comm k }
    let t := t.addTile 0x0F (pendingParts o.src (o.shardBytes o.slay)) (pendingParts o.tgt (o.shardBytes o.tlay))
      (if o.acq then some o.scope else none) o.rel
    .next ((State.modRank { t with colls := t.colls ++ [coll] } c.rank) fun r => { r with collNum := tabSet r.collNum o.comm (k + 1) })

/-! ### The exchange (R345, R346, R349) -/

def State.coll? (s : State) (id : Nat) : Option Coll := s.colls.find? fun c => c.id == id
def State.modColl (s : State) (id : Nat) (f : Coll → Coll) : State :=
  { s with colls := s.colls.map fun c => if c.id = id then f c else c }

/-- Gives the parts of an access their turn: translated for reading or writing, a part that cannot be is failed (R353). -/
def State.readyParts (s : State) (rank : Nat) (need : Need) : List Part → List Part × State
  | [] => ([], s)
  | p :: l =>
    let (q, s) : Part × State :=
      match s.hubTranslate rank p.va need with
      | none => ({ p with st := .failed (if (s.walk rank p.va).isNone then .translation else .permission) p.va }, s)
      | some (pa, t) => if paRemote pa then ({ p with st := .failed .permission p.va }, t) else ({ p with pa := pa, lc := ((s.walk rank p.va).map (·.bit bitLC)).getD false, st := .waiting }, t)
    let (qs, s) := State.readyParts s rank need l
    (q :: qs, s)

/-- Puts bytes into parts, in order. -/
def fillParts : List Part → List Byte → List Part
  | [], _ => []
  | p :: l, b => { p with data := b.take p.en.length } :: fillParts l (b.drop p.en.length)

/-- Whether what its context issued before an access has performed. -/
def State.earlierPerformed (s : State) (ctx id : Nat) : Bool :=
  !(s.accs.any fun x => x.ctx == ctx && decide (x.id < id) && !x.localDone) && !(s.cmds.any fun c => c.ctx == ctx && decide (c.id < id) && s.cmdLocalLeft c)

/-- Where a member lives: none when on this device, else its device, when the map has it (R377). -/
def State.deviceOf (s : State) (job vk : Nat) : Option Nat :=
  if (s.jobRank? job vk).isSome then none else tabGet s.located (rankKeyOf job vk)

/-- Sends a body to the device of a member; false where the sorting office has no way there (R340). -/
def State.sendTo (s : State) (job vk : Nat) (b : PktBody) : Option State :=
  match s.deviceOf job vk with
  | none => some s
  | some d => s.send ⟨d, b⟩

/-- The devices that host members not here. -/
def State.devicesOf (s : State) (job : Nat) (members : List Nat) : List Nat := (members.filterMap fun vk => s.deviceOf job vk).eraseDups

/-- Sends a body to every device that hosts members not here, once each. -/
def State.sendAll (s : State) (job : Nat) (members : List Nat) (b : PktBody) : State × Bool :=
  (s.devicesOf job members).foldl (fun (t, ok) d =>
    match t.send ⟨d, b⟩ with
    | some u => (u, ok)
    | none => (t, false)) (s, true)

/-- An abort reaches every member whose XCOLL has not retired, those that issue it later too (R353); `mismatch` says that nothing has been written, and stays so (R346). -/
def State.abortColl (s : State) (job comm k : Nat) (mismatch : Bool) : State :=
  { s with
    colls := s.colls.map fun c => if c.job = job ∧ c.comm = comm ∧ c.k = k ∧ c.outcome ≠ .mismatch then { c with outcome := if mismatch then .mismatch else .abort } else c
    collAborts := if s.collAborts.any fun x => x.1 == job && x.2.1 == comm && x.2.2.1 == k then s.collAborts else (job, comm, k, mismatch) :: s.collAborts }

/-- A member aborts its collective for every member. -/
def State.abortAll (s : State) (c : Coll) (mismatch : Bool) : State :=
  ((s.sendAll c.job c.members (.collAbort c.job c.comm c.k mismatch)).1).abortColl c.job c.comm c.k mismatch

/-- A member's own access fails: its report, and the abort for every member. -/
def State.collFails (s : State) (c : Coll) (cause : Cause) (addr : Nat) : State :=
  match s.acc? c.id with
  | none => s
  | some a =>
    let s := s.report c.ctx c.rank (failedOp cause (opcOf a.slot a.opc) (s.ctx c.ctx) addr a.epc 0 none)
    s.abortAll c false

/-- Whether a contribution belongs to a collective. -/
def Coll.has (c : Coll) (x : Contribution) : Bool := x.job == c.job && x.comm == c.comm && x.k == c.k
def Coll.same (c d : Coll) : Bool := d.job == c.job && d.comm == c.comm && d.k == c.k

/-- Contributions at the endpoints of this device, and those that a reduction slot holds. -/
def State.atHand (s : State) : List Contribution := s.contribs ++ s.redslots.flatMap (·.partials)

/-- The contribution of a position to a collective, once all of it has arrived. -/
def State.contribution? (s : State) (c : Coll) (p : Nat) : Option Contribution :=
  s.atHand.find? fun x => c.has x && x.pos == p && (x.pieces.map fun e => e.2.length).sum == x.total

def Contribution.data (x : Contribution) : List Byte := x.pieces.flatMap (·.2)

/-- A piece of a contribution is put with those that have come before it. -/
def mergePiece (l : List Contribution) (x : Contribution) : List Contribution :=
  let same (y : Contribution) : Bool := y.job == x.job && y.comm == x.comm && y.k == x.k && y.pos == x.pos
  if l.any same then l.map fun y => if same y then { y with pieces := x.pieces.foldl (fun t e => tabSet t e.1 e.2) y.pieces } else y else l ++ [x]

/-! The nodes of the tree that reduce, in reduction slots (R347, R349, R350). -/

/-- The leaves of the nodes of a tree over some positions, lowest level first. -/
def treeNodes : Nat → List (List Nat) → List (List Nat)
  | 0, _ => []
  | fuel + 1, l =>
    let rec pairs : List (List Nat) → List (List Nat)
      | a :: b :: r => (a ++ b) :: pairs r
      | r => r
    if l.length ≤ 1 then [] else ((pairs l).filter fun e => !l.contains e) ++ treeNodes fuel (pairs l)

/-- The nodes of a collective: a tree for every choice of coordinates on the axes that are not reduced. -/
def XOrder.nodes (o : XOrder) (n : Nat) : List (List Nat) :=
  let keep := (List.range 4).foldl (fun m a => if o.spart.testBit a && !o.tpart.testBit a then m else m + 2 ^ a) 0
  let key (q : Nat) : Nat := o.block keep q
  (((List.range n).map key).eraseDups).flatMap fun k => treeNodes (n + 1) (((List.range n).filter fun q => key q == k).map fun q => [q])

/-- The positions beneath the node of a leased slot. -/
def State.slotCovers (s : State) (r : RedSlot) (x : Contribution) : Bool :=
  match s.coll? r.coll with
  | some c => c.has x && (((xorder c.order).nodes c.members.length).getD r.node []).contains x.pos
  | none => false

/-- A piece of a contribution arrives: at the slot that evaluates a node above it, else at the endpoints. -/
def State.takeContribution (s : State) (x : Contribution) : State :=
  let known := s.contribs.any fun y => y.job == x.job && y.comm == x.comm && y.k == x.k && y.pos == x.pos
  match if known then none else s.redslots.find? (s.slotCovers · x) with
  | some r => { s with redslots := s.redslots.map fun y => if y.slot = r.slot then { y with partials := mergePiece y.partials x } else y }
  | none => { s with contribs := mergePiece s.contribs x }

/-- Slots are given up, and what they hold goes to the endpoints that evaluate their nodes from then on (R351). -/
def State.dropSlots (s : State) (gone : RedSlot → Bool) : State :=
  ((s.redslots.filter gone).flatMap (·.partials)).foldl (fun (t : State) x => { t with contribs := mergePiece t.contribs x })
    { s with redslots := s.redslots.filter fun r => !gone r }

/-- Whether a node of a collective may still ask for a slot: it reduces across devices, no packet of the collective has been sent from here and nothing beneath the node has come to the endpoints, and no slot has it or has been asked for it (R350). -/
def State.mayAsk (s : State) (c : Coll) (node : Nat) : Bool :=
  let mine (id : Nat) : Bool := match s.coll? id with | some d => c.same d | none => false
  (xorder c.order).kind != .none && c.outcome == .open && !(s.colls.any fun d => c.same d && d.sent) 
    && !(s.contribs.any fun x => c.has x && (((xorder c.order).nodes c.members.length).getD node []).contains x.pos) && !(s.devicesOf c.job c.members).isEmpty
    && decide (node < ((xorder c.order).nodes c.members.length).length)
    && !(s.redslots.any fun r => r.node == node && mine r.coll) && !(s.slotReqs.any fun e => e.2.1 == node && mine e.1)

/-- Offsets of the pieces of a contribution: a packet has room for 63 flits, two of them for the order (R338). -/
def pieceOffsets (n : Nat) : List Nat := (List.range (max 1 ((n + 1951) / 1952))).map (1952 * ·)

/-- An order without SRC and TGT, as position 0 compares it (R346). -/
def orderDigest (l : List Byte) : List Byte := digest32 (l.take 0x30)

/-- Begins to read the source. -/
def State.collBegin (s : State) (c : Coll) : State :=
  match s.acc? c.rd with
  | none => s
  | some a =>
    if a.acq.isSome ∧ ¬ s.earlierPerformed c.ctx c.rd then s
    else
      let (ps, s) := s.readyParts c.rank .read a.parts
      (s.setAcc { a with parts := ps }).modColl c.id fun c => { c with begun := true }

/-- Sends the contribution once the whole source has been read: to the members here whole, to other devices in pieces that they confirm; nodes that reduce across devices then ask for reduction slots (R338, R343, R350). -/
def State.collSend (s : State) (c : Coll) : State :=
  match s.acc? c.rd with
  | none => s
  | some a =>
    if a.parts.all Part.answered then
      match a.failure? with
      | some (cause, addr) => s.collFails c cause addr
      | none =>
        let vf := (s.rankOf c.rank).vf
        let devs := s.devicesOf c.job c.members
        if devs.any (s.portHeld vf) then s
        else
          let b := a.bytes
          let nodes := (xorder c.order).nodes c.members.length
          let port := ((devs.head?.bind s.portTo).map (·.1)).getD 0
          let asked : List (Nat × Nat × Nat) := ((List.range nodes.length).filter (s.mayAsk c)).map fun i => (c.id, i, port)
          let s := (s.dropAcc c.rd).takeContribution ⟨c.job, c.comm, c.k, c.pos, c.order, b.length, [(0, b)]⟩
          let out := devs.flatMap fun d => (pieceOffsets b.length).map fun o => (d, o)
          let s := State.modColl { s with slotReqs := s.slotReqs ++ asked } c.id fun c => { c with sent := true, unacked := out }
          match s.sendRequests vf (out.map fun e => ⟨e.1, .contribution Config.ownDevice c.job c.comm c.k c.pos c.order b.length e.2 ((b.drop e.2).take 1952)⟩) with
          | some s => s
          | none => s.collFails c .translation c.addr
    else s

/-- Decides a collective once every contribution has arrived. Where the orders differ nothing is written, and position 0 aborts it (R346). -/
def State.collDecide (s : State) (c : Coll) : State :=
  let n := c.members.length
  let got := (List.range n).map (s.contribution? c)
  if got.all Option.isSome then
    let orders := got.map fun x => (x.map fun y => orderDigest y.order).getD []
    if orders.all fun d => d == orders.headD [] then
      let o := xorder c.order
      let data (p : Nat) : List Byte := ((s.contribution? c p).map (·.data)).getD []
      let halts := if !o.exact && o.ty.isFloat && o.kind != .none then o.culprit n data else none
      match halts with
      | some p => s.modColl c.id fun c => { c with outcome := .halt (p == c.pos) }
      | none =>
        match s.acc? c.id with
        | none => s
        | some a =>
          let (ps, s) := s.readyParts c.rank .write (fillParts a.parts (o.targetBytes n data c.pos))
          (s.setAcc { a with parts := ps }).modColl c.id fun c => { c with outcome := .writing }
    else if c.pos = 0 then s.abortAll c true else s
  else s

/-- COLLECTIVE_PACKET: a member's endpoint reads and sends its contribution, or, the contributions there, evaluates its nodes. -/
def execCollectivePacket (id pos : Nat) (s : State) : Out :=
  match s.coll? id with
  | none => .next s
  | some c =>
    if c.outcome ≠ .open then .next s
    else if pos = c.pos ∧ ¬ c.begun then .next (s.collBegin c)
    else if pos = c.pos ∧ ¬ c.sent then .next (s.collSend c)
    else if c.sent then .next (s.collDecide c)
    else .next s

/-- Bytes of a range become undefined where they can be written (log 1). -/
def State.scrambleRange (s : State) (rank va len : Nat) : State :=
  let (n, s) := s.draw
  (linePieces (len / 128 + 2) va len).foldl (fun t e =>
    match t.hubTranslate rank e.1 .write with
    | some (pa, u) =>
      if paRemote pa then t else u.writeMem ((List.range e.2).map fun i => (pa + i, Config.anyByte n (e.1 + i)))
    | none => t) s

/-- The slots that a member asked for stay with its collective while another member of it is open here, and are free after the last (R350). -/
def State.passSlots (s : State) (c : Coll) : State :=
  match s.colls.find? fun d => d.id != c.id && c.same d with
  | some d =>
    { s with
      redslots := s.redslots.map fun r => if r.coll = c.id then { r with coll := d.id } else r
      slotReqs := s.slotReqs.map fun e => if e.1 = c.id then (d.id, e.2) else e }
  | none => s.dropSlots fun r => r.coll == c.id

/-- The XCOLL leaves TL, with the cause it raises, if any. -/
def State.collRetire (s : State) (c : Coll) (cause : Option Cause) : State :=
  let opc := ((s.acc? c.id).map fun a => opcOf a.slot a.opc).getD (opcOf 5 0x0F)
  let epc := ((s.acc? c.id).map (·.epc)).getD 0
  let s := ((s.dropAcc c.rd).dropAcc c.id).modCtx c.ctx fun x => x.countDown .tl c.id
  let s := s.passSlots c
  let s := { s with colls := s.colls.filter (fun x => x.id != c.id), slotReqs := s.slotReqs.filter fun e => e.1 != c.id }
  let s := if s.colls.any c.same then s else { s with contribs := s.contribs.filter fun x => !c.has x }
  match cause with
  | none => s
  | some e =>
    let s := if c.outcome = .mismatch then s else s.scrambleRange c.rank (xorder c.order).tgt ((xorder c.order).shardBytes (xorder c.order).tlay)
    s.collFailure c.ctx c.rank e c.addr opc epc

/-- COLLECTIVE_RETIRE: the target is written and what the rank sent accepted (R343), or the collective has halted or aborted. -/
def execCollectiveRetire (id pos : Nat) (s : State) : Out :=
  match s.coll? id with
  | none => .next s
  | some c =>
    if pos ≠ c.pos then .next s
    else
      match c.outcome with
      | .open => .next s
      | .halt true => .next (s.collRetire c (some .collNonfinite))
      | .halt false => .next (s.collRetire c (some .collAborted))
      | .abort | .mismatch => .next (s.collRetire c (some .collAborted))
      | .writing =>
        match s.acc? c.id with
        | none => .next (s.collRetire c none)
        | some a =>
          if a.parts.all Part.answered then
            match a.failure? with
            | none => .next (if c.unacked.isEmpty then s.collRetire c none else s)
            | some (cause, addr) => .next (s.collFails c cause addr)
          else .next s

/-! ### Timers and held ranks (R353) -/

/-- Whether the timer of a position counts: no peer's HOLD stops it. -/
def timerRuns (held : List Nat) (pos : Nat) : Bool := held.all (· == pos)

/-- COLL_TIMEOUT: the timer of a member here reaches TIMEOUT; it does not while a HOLD notice stops it. Of a member elsewhere its abort arrives. -/
def execCollTimeout (id pos : Nat) (s : State) : Out :=
  match s.coll? id with
  | none => .next s
  | some c =>
    match s.colls.find? fun d => c.same d && d.pos == pos with
    | none => .next s
    | some d => .next (if (xorder d.order).timeout ≠ 0 ∧ timerRuns d.held pos then s.abortAll d false else s)

/-- HOLD_NOTICE: the timers of the peers of a position stop, also of those that join the collective while it holds. -/
def execHoldNotice (job comm pos : Nat) (s : State) : Out :=
  .next { s with
    inbox := s.inbox.erase (.hold job comm pos)
    holds := if s.holds.contains (job, comm, pos) then s.holds else (job, comm, pos) :: s.holds
    colls := s.colls.map fun c => if c.job = job ∧ c.comm = comm ∧ ¬ c.held.contains pos then { c with held := c.held ++ [pos] } else c
    shufs := s.shufs.map fun h => if h.job = job ∧ h.comm = comm ∧ ¬ h.held.contains pos then { h with held := h.held ++ [pos] } else h }

/-- RESUME_NOTICE: they go on from the value they held. -/
def execResumeNotice (job comm pos : Nat) (s : State) : Out :=
  .next { s with
    inbox := s.inbox.erase (.resume job comm pos)
    holds := s.holds.filter (· != (job, comm, pos))
    colls := s.colls.map fun c => if c.job = job ∧ c.comm = comm then { c with held := c.held.filter (· != pos) } else c
    shufs := s.shufs.map fun h => if h.job = job ∧ h.comm = comm then { h with held := h.held.filter (· != pos) } else h }

/-! ### Reduction slots (R350, R351) -/

/-- Serves the request that stands first at the allocation port: the lowest port at or after the pointer, which then passes it; refused when no slot is free. -/
def State.serveSlot (s : State) : State :=
  let turn (e : Nat × Nat × Nat) : Nat := (e.2.2 + 128 - s.slotPtr % 128) % 128
  match s.slotReqs.map turn |>.min? with
  | none => s
  | some m =>
    match s.slotReqs.find? fun e => turn e == m with
    | none => s
    | some e =>
      let s : State := { s with slotReqs := s.slotReqs.erase e }
      match (List.range 64).find? fun n => !s.redslots.any fun r => r.slot == n with
      | none => s
      | some n => { s with redslots := s.redslots ++ [⟨n, e.1, e.2.1, []⟩], slotPtr := (e.2.2 + 1) % 128 }

/-- Serves every request that has arrived: they count as those of one cycle. -/
def State.serveSlots (s : State) : Nat → State
  | 0 => s
  | n + 1 => s.serveSlot.serveSlots n

/-- SLOT_REQUEST: a request of a reduction node reaches the allocation port; with one that is there already, all are served. -/
def execSlotRequest (id node port : Nat) (s : State) : Out :=
  match s.coll? id with
  | none => .next { s with slotReqs := s.slotReqs.filter fun e => e.1 != id }
  | some c =>
    if s.slotReqs.contains (id, node, port) then .next (s.serveSlots s.slotReqs.length)
    else if s.mayAsk c node && decide (port < 128) then .next { s with slotReqs := s.slotReqs ++ [(id, node, port)] }
    else .next s

/-- SLOT_LEASE_EXPIRY: the slot is reclaimed; what it holds goes to an endpoint, which goes on with its node. -/
def execSlotLeaseExpiry (slot : Nat) (s : State) : Out := .next (s.dropSlots fun r => r.slot == slot)

end Sys2Proof.Machine
end

