-- ==== Sys2Proof/Machine/Landing.lean ====
section
/-! DEFINITION. Machine/Landing.lean: the steps by which results land and accesses perform: landings (R18, R131), retirement of loads (R21, R23), accesses at their home slices (R206, R238), walks (R197), window adds and the writes of a closing window (R200, R202, R204), and the start of an evaluator (R241, R242, R247). -/

namespace Sys2Proof.Machine

/-- The results of context k that are due and of one kind land, in the order of R18. -/
def State.landSome (s : State) (k : Nat) (which : Eff → Bool) : State :=
  let t : State := { s with cur := k }
  let c := t.cx
  let due (l : Landing) : Bool := decide (l.due ≤ c.step) && t.mayLand l.eff && which l.eff
  let now := (c.inflight.filter due).map (·.eff)
  { (t.setCx { c with inflight := c.inflight.filter fun l => !due l }).applyEffs (now.filter Eff.first ++ now.filter fun e => !e.first) with cur := s.cur }

/-- Sums of a beat, and the pending zero of an MZERO (R131, R134). -/
def Eff.isBeat : Eff → Bool
  | .beat .. | .accZero .. => true
  | _ => false

/-- FIXED_LATENCY_LANDING: nothing is left to land while the context has issued nothing, since an issue ends with what is due at its next step. -/
def execFixedLatencyLanding (k : Nat) (s : State) : Out :=
  if (s.ctx k).phase = .live then .next (s.landSome k fun e => !e.isBeat) else .next s

/-- BEAT_LANDING. -/
def execBeatLanding (k : Nat) (s : State) : Out :=
  if (s.ctx k).phase = .live then .next (s.landSome k Eff.isBeat) else .next s

/-- A write to cells of a compressed page develops them before it performs (R377). -/
def State.developFor (s : State) (id i : Nat) : State :=
  match s.acc? id with
  | some a =>
    match a.parts[i]? with
    | some p => if a.writes && a.kind != .expose && p.st == .waiting && !p.remote && !s.blocked a p then s.develop a.core p else s
    | none => s
  | none => s

def execAccessPerform (id i : Nat) (s : State) : Out := .next ((s.developFor id i).accessPerform id i)

/-- WALK_COMPLETE: a translation that the walk finds is installed, and what it reads and ECC can correct is corrected; one that it does not find, or whose walk reads what cannot be corrected, faults the access that asked, at that access. -/
def execWalkComplete (core rank va : Nat) (s : State) : Out :=
  match s.walk rank va with
  | some e => .next (if s.walkSound rank va then (s.correctBlocks (s.walkBlocks rank va)).tlbInstall core e else s)
  | none => .next s

/-! ### Exact windows -/

/-- WINDOW_ADD: the next part of an access that adds reaches its elements. -/
def execWindowAdd (id : Nat) (s : State) : Out :=
  match s.acc? id with
  | none => .next s
  | some a =>
    match a.kind with
    | .winAdd _ =>
      match a.parts.findIdx? fun p => p.st == .waiting with
      | some i => execAccessPerform id i s
      | none => .next s
    | _ => .next s

/-- The writes of the elements of a line of a closing window that cannot be made are reported, each one (R202, R298). -/
def State.closeFails (s : State) (a : Acc) (cause : Cause) (va : Nat) : Nat → State
  | 0 => s
  | n + 1 => (s.report a.ctx a.rank (failedOp cause (opcOf a.slot a.opc) (s.ctx a.ctx) va a.epc 0 none)).closeFails a cause (va + 4) n

/-- The writes of 16 elements of a closing window that lie in one cell, as stores of 4 bytes of the closing core: refused at a cell that is not VALUE (R238), or in a block that fails its check beyond correction, which each of them covers in part (R397). -/
def State.closeCell (s : State) (a : Acc) (va pa : Nat) (lc : Bool) (data : List Byte) : State :=
  let p : Part := ⟨va, pa, lc, List.replicate 64 true, data, .waiting⟩
  let s := (s.keepBytes a.ctx a.first a.id p).develop a.core p
  match s.checkBlocks p.blocks with
  | none => s.closeFails a .integrity va 16
  | some s =>
    match s.homeWrite a.core a.rank false p with
    | (none, t) => t
    | (some (cause, _), _) => s.closeFails a cause va 16

/-- The writes of the next line of a closing window, translated by the tables now in force. -/
def State.closeLine (s : State) (a : Acc) (i : Nat) (w : Win) : State :=
  let va := w.base + 4 * w.written
  let data := (List.range 128).map fun j => resultByte (w.elemAt (va + j)) (va + j)
  let s : State := { s with wins := s.wins.modify i fun w => { w with written := w.written + 32 } }
  match s.translate a.core a.rank va .write with
  | .fail f => s.closeFails a f.cause va 32
  | .ok pa leaf t =>
    if paRemote pa then t.closeFails a .permission va 32
    else
      (((t.crossDie a.core pa).spendHbm (t.rankOf a.rank).vf pa).closeCell a va pa (leaf.bit bitLC) (data.take 64)).closeCell a (va + 64) (pa + 64) (leaf.bit bitLC)
        (data.drop 64)

/-- WINDOW_CLOSE_WRITE: the next line of a closing window; after the last the window is gone and the WCLOSE retires. -/
def execWindowCloseWrite (id : Nat) (s : State) : Out :=
  match s.acc? id with
  | none => .next s
  | some a =>
    match a.kind with
    | .wclose base n =>
      if s.blocked a Part.none then .next s
      else
        match s.wins.findIdx? fun w => w.rank == a.rank && w.base == base && w.closing with
        | none => .next ((s.dropAcc id).modCtx a.ctx fun c => c.countDown .tl id)
        | some i =>
          match s.wins[i]? with
          | none => .next s
          | some w =>
            if w.written < n ∧ s.hbmHeld (s.rankOf a.rank).vf (((s.walk a.rank (w.base + 4 * w.written)).map (·.paOf (w.base + 4 * w.written))).getD 0) then .next s
            else
            let t := if w.written < n then s.closeLine a i w else s
            if w.written + 32 < n then .next t
            else .next ((State.dropAcc { t with wins := t.wins.eraseIdx i } id).modCtx a.ctx fun c => c.countDown .tl id)
    | _ => .next s

/-! ### Latent cells -/

/-- LATENT_CELL_READ: a read arrives at a cell's home slice. -/
def execLatentCellRead (id i : Nat) (s : State) : Out :=
  match s.acc? id with
  | none => .next s
  | some a =>
    match a.parts[i]? with
    | none => .next s
    | some p => if a.reads && p.cellKeys.any (fun c => (s.cell? c).isSome) then execAccessPerform id i s else .next s

/-- A reserved value in a suspension record (R239). -/
def recordBad (r : List Byte) : Bool :=
  let hint := fieldLE r 0x14 1
  (decide (2 < hint) && hint != 0xFF) || decide (8 < fieldLE r 0x15 1) || (r.drop 0x16).take 10 != List.replicate 10 0

/-- The scope of an evaluator: the narrower of the record's HINT and the first reader's DEVELOP; 0 core, 1 cluster, 2 partition. -/
def State.evalScope (s : State) (x : Cell) (r : List Byte) : Nat :=
  let d := (s.ctx x.first.1).kernel.develop
  if fieldLE r 0x14 1 = 0xFF then d else min (fieldLE r 0x14 1) d

def inScope (scope core of' : Nat) : Bool :=
  match scope with
  | 0 => core == of'
  | 1 => clusterOf core == clusterOf of'
  | _ => true

/-- The number under which a virtual function's development engine asks other devices. -/
def evalOwner (vf : Nat) : Nat := vf * 16 + 9

/-- The evaluator's header, when it and its code can be read and pass R242; the first reader's die verifies the digest (R174, log 34). -/
def State.evalHeader (s : State) (die rank va : Nat) : CpRes KHeader :=
  match s.kernelBytes (evalOwner (s.rankOf rank).vf) rank va with
  | .fail c a => .fail c a
  | .wait t => .wait t
  | .ok (hb, cb) t =>
    let h := kernelHeader va hb
    if t.headerStatus die rank (t.rankOf rank).vf h cb = 0 then .ok h (t.noteVerified die rank va (0x60 + h.kernel.size)) else .fail .latentFaulted va

/-- The evaluator of cell c starts at a place (R242); `alone` says that it has the cluster or shares it with its rank's fused contexts, so that a FUSED one fuses it (R180). -/
def State.startEvaluator (s : State) (c : Nat) (x : Cell) (r : List Byte) (h : KHeader) (p : Nat × Nat) (alone : Bool) : State :=
  let s := if h.kernel.fused && alone then s.fuse (clusterOf p.1) x.rank else s
  let (id, s) := s.placeCtx x.rank none h.kernel p (BitVec.ofNat 64 (fieldLE r 8 8)) (fieldLE r 0x10 4) 1
  if (s.ctx id).alive then
    let s := s.modCtx id fun k => { k with g := k.g.set 2 (BitVec.ofNat 64 x.va), eval := some ⟨c, x.va, c :: x.first.2.2⟩ }
    { s with cells := tabSet s.cells c { x with eval := some id, placed := true, vacated := none } }
  else s.cellFailed c

/-- The evaluator of a cell whose first reader has been suspended for it starts in the hardware context that the reader has vacated, whatever else runs in the cluster (R241; log 16 of a FUSED one). -/
def State.startInPlace (s : State) (c : Nat) (x : Cell) (r : List Byte) (h : KHeader) (p : Nat × Nat) : State :=
  s.startEvaluator c x r h p (s.clusterOk (clusterOf p.1) x.rank h.kernel.fused)

/-- EVALUATOR_START: the evaluator of a developing cell starts at a free context in scope, the given one or the first; with none, its first reader is asked to give way, once, and it starts in the context that the reader vacates (R241). A bad record or header fails the development (R246). A cell of a compressed page is developed by the firmware (R377). -/
def execEvaluatorStart (c : Nat) (place : Option (Nat × Nat)) (s : State) : Out :=
  match s.cell? c with
  | none => .next s
  | some x =>
    if x.tag ≠ .developing ∨ x.placed then .next s
    else
      match x.packed with
      | some b => .next (s.cellFixed x.first.2.1 (64 * c) b)
      | none =>
      let r := s.mem.read (64 * c) 64
      if recordBad r then .next (s.cellFailed c)
      else
        match s.evalHeader (dieOf x.first.2.1) x.rank (fieldLE r 0 8) with
        | .fail _ _ => .next (s.cellFailed c)
        | .wait t => .next t
        | .ok h t =>
          let v := (t.rankOf x.rank).vf
          let t := t.dropFar (evalOwner v)
          let scope := t.evalScope x r
          let l := (t.freePlaces (t.vf v).part x.rank h.kernel.banks h.kernel.fused).filter fun p => inScope scope p.1 x.first.2.1
          if !t.mayRun v x.rank then .next s
          else
            match x.vacated with
            | some p => .next (t.startInPlace c x r h p)
            | none =>
            match place with
            | some p =>
              if inScope scope p.1 x.first.2.1 && t.placesOk (t.vf v).part x.rank h.kernel.banks h.kernel.fused [p] then .next (t.startEvaluator c x r h p true)
              else .next s
            | none =>
              match l with
              | p :: _ => .next (t.startEvaluator c x r h p true)
              | [] =>
                let k := x.first.1
                if x.inPlace.isSome ∨ (s.ctx k).phase ≠ .live then .next s
                else .next (State.modCtx { s with cells := tabSet s.cells c { x with inPlace := some k } } k fun d => { d with preempt := true })

end Sys2Proof.Machine
end

