-- ==== Sys2Proof/Machine/Firmware.lean ====
section
/-! DEFINITION. Machine/Firmware.lean: what the S-mode firmware does for a context that has trapped to it (R289, R301 to R303, R308, R315), and the restoration of an evicted context (R310, R311). -/

namespace Sys2Proof.Machine

/-! ### The firmware's own accesses (R291, R309) -/

/-- A fault of the firmware: the cause is recorded and the context ends (R291). -/
def State.fwFault (s : State) (cause : Cause) (addr : Nat) : State :=
  s.fwEnd s.cur cause addr

/-- Writes bytes at an offset of the context's save slot, then goes on; a failed write ends the context. -/
def State.saveWrite (s : State) (off : Nat) (l : List Byte) (go : State → State) : State :=
  match s.hubPut s.cx.rank (s.cx.msave.toNat + off) l with
  | .ok _ t => go t
  | .fail c a => s.fwFault c a

/-! ### Holds that are given up (R292, R308) -/

/-- The held bundle's requests that a trap gives up: its reads, its WAITM's watch, the window that its WOPEN is clearing; but for an eviction a LAUNCH's read and a QTAKE's wait stay. -/
def State.abandon (s : State) (evicting : Bool) : State :=
  let launchRead (a : Acc) : Bool := evicting && a.opc == 0x0E && a.slot == 5
  let drops (a : Acc) : Bool := a.ctx == s.cur && a.kind == .load .none && a.cls == .none && !launchRead a
  let keeps (h : Held) : Bool := match h with
    | .read id => (s.accs.any fun a => a.id == id && !drops a)
    | .waitm .. | .opening => false
    | .taker _ => evicting
    | .barrier .. | .released | .sentinel | .accepted => true
  let t : State := { s with
    accs := s.accs.filter fun a => !drops a
    watches := s.watches.filter fun w => w.ctx != s.cur
    wins := s.wins.filter fun w => !(w.opener.1 == s.cur && w.opening) }
  t.modCx fun c => { c with held := c.held.filter fun e => keeps e.2 }

/-! ### MATRIX_SWITCH (R315) -/

/-- Stores the matrix state of the present core as the image of context k, valid from then on (R313, R314). The firmware's read of a state that fails its envelope check is a fault of its own (R291, R305; DEDUCED, log 77). -/
def State.saveMatrix (s : State) (k : Nat) (go : State → State) : State :=
  let m := (s.core s.cx.coreNum).mat
  let c := s.ctx k
  if (s.core s.cx.coreNum).badMat then s.fwFault .integrity 0
  else
  match s.hubPut c.rank c.msave.toNat ((List.range imageBytes).map m.imageByte) with
  | .fail e a => s.fwFault e a
  | .ok _ t =>
    match t.hubPut c.rank (c.msave.toNat + 0x24200) (leBytes 8 1) with
    | .fail e a => t.fwFault e a
    | .ok _ u => go u

/-- Gives the matrix state of the core to the present context, with an image. -/
def State.takeMatrix (s : State) (l : List Byte) : State :=
  let c := s.cx
  s.modCore c.coreNum fun k =>
    { k with mat := Matrix.ofImage c.mact l, mowner := c.ctxid.setWidth 16, mhwc := BitVec.ofNat 2 c.hw, mdirty := false, badMat := false }

/-- The handler of MATRIX_SWITCH for the present context: of an owner that has ended nothing is saved (R313). -/
def State.switchMatrix (s : State) : State :=
  let k := s.core s.cx.coreNum
  let load (s : State) : State :=
    let s := s.keepAct
    match s.hubGet s.cx.rank (s.cx.msave.toNat + 0x24200) 8 with
    | .fail e a => s.fwFault e a
    | .ok st s =>
      if (leNat st).testBit 0 then
        match s.hubGet s.cx.rank s.cx.msave.toNat imageBytes with
        | .fail e a => s.fwFault e a
        | .ok l s => (s.takeMatrix l).doTret
      else (s.takeMatrix (List.replicate imageBytes 0)).doTret
  if k.mowner ≠ 0xFFFF ∧ k.mdirty then
    match s.ctxAt s.cx.coreNum k.mhwc.toNat with
    | some j => if (s.ctx j).alive then s.saveMatrix j load else load s
    | none => load s
  else load s

/-! ### ASYNC (R298, R299, R301) -/

/-- Whether the command of a report is stopped by what a change of the mapping can cure. -/
def State.curableCmd (s : State) (r : Report) : Bool :=
  match r.cmd.bind s.cmd? with
  | some c => match c.stopped with
    | some (_, _, k) => k
    | none => false
  | none => false

/-- Posts the fault records that the reports need, and answers the others. -/
def State.askHost (s : State) : List (Report × Option Nat × Option Bool) → List (Report × Option Nat × Option Bool) × State
  | [] => ([], s)
  | (r, _, _) :: l =>
    let v := s.vfOf s.cur
    if s.curableCmd r then
      let seq := (s.vf v).mseq
      let (l, s) := (s.interrupt v 4 (s.rankOf s.cx.rank).vk r.faddr 0xFF).askHost l
      ((r, some seq, none) :: l, s)
    else
      let (l, s) := s.askHost l
      ((r, none, none) :: l, s)

/-- ACTION of a serviced report: 0 with nothing stopped, 1 resume, 2 cancel. -/
def actionOf (r : Report) (answer : Option Bool) : Nat := if r.cmd.isNone then 0 else if answer = some true then 1 else 2

/-- What the TRET does with each report's command; a cancelled one goes to the dead letter queue. -/
def State.settleReports (s : State) : List (Report × Option Nat × Option Bool) → State
  | [] => s
  | (r, _, a) :: l =>
    let s := match r.cmd with
      | none => s
      | some id =>
        if actionOf r a = 1 then s.resumeCmd id else (s.retireCmd id).deadLetter s.cx.rank { r with action := 2 }
    s.settleReports l

/-- Writes the ACTION of report i of the save area and of those after it. -/
def State.writeActions (s : State) : List (Report × Option Nat × Option Bool) → Nat → (State → State) → State
  | [], _, go => go s
  | (r, _, a) :: l, i, go => s.saveWrite (0x24000 + 64 * i + 0x30) [BitVec.ofNat 8 (actionOf r a)] fun t => t.writeActions l (i + 1) go

/-- The service of ASYNC once every answer is there. -/
def State.finishAsync (s : State) (l : List (Report × Option Nat × Option Bool)) : State :=
  s.writeActions l 0 fun t =>
    let u := t.settleReports l
    if l.any fun e => actionOf e.1 e.2.2 == 2 then (u.modCx fun c => { c with fw := none }).terminate s.cur 0 else u.doTret

/-! ### Eviction (R308, R309) -/

/-- Whether every part of an access that has not been answered is parked at a latent cell. -/
def Acc.parkedOnly (a : Acc) : Bool :=
  a.parts.all (fun p => p.answered || (match p.st with | .parked _ => true | _ => false)) && !a.parts.all Part.answered

/-- A LAUNCH of a held bundle that has its record and is not accepted. -/
def State.heldLaunch? (s : State) : Option Acc :=
  s.accs.find? fun a => a.ctx == s.cur && a.kind == .load .none && a.cls == .none && a.opc == 0x0E && a.slot == 5

/-- A held LAUNCH is first accepted (R308); one that has no room is refused when its bundle is attempted again. -/
def State.settleLaunch (s : State) : State :=
  match s.heldLaunch? with
  | none => s
  | some a =>
    let t : State := (s.dropAcc a.id).modCx fun c => { c with saveS := c.saveS.map fun v => { v with held := tabDel v.held 5 } }
    if ¬ a.parts.all Part.answered ∨ a.failure?.isSome then t
    else
      match t.acceptChild (t.childRecord a.bytes a.epc) with
      | some u => u.modCx fun c => { c with saveS := c.saveS.map fun v => { v with held := tabSet v.held 5 .accepted } }
      | none => t

/-- Whether a read of an operation's context that was issued before it is parked at a cell, and may hold it back for as long (R213). -/
def State.stalled (s : State) (a : Acc) : Bool :=
  s.behindParked a || s.cmds.any fun c => c.ctx == a.ctx && decide (c.id < a.id) && !c.parked.isEmpty

/-- Whether an eviction can withdraw a load: it is parked, or has performed nowhere that it could not perform again and waits behind a read that is parked, which it would otherwise outwait (R241, R308; DEDUCED, log 8). -/
def State.withdrawable (s : State) (a : Acc) : Bool :=
  a.parkedOnly || (s.stalled a && !a.parts.all Part.answered && a.parts.all fun p => p.answered || p.isParked || (p.st == .waiting && !p.remote))

/-- Whether the loads of the present context have retired but for those that can be withdrawn, and a held LAUNCH can be settled. -/
def State.evictReady (s : State) : Bool :=
  (s.accs.all fun a => !(a.ctx == s.cur && a.cls == .ld) || s.withdrawable a)
    && (match s.heldLaunch? with
      | some a => s.withdrawable a || a.failure?.isSome
          || (a.parts.all Part.answered && !s.mustWait (.fence .release) none true [] && !s.drainDue (s.vfOf s.cur))
      | none => true)

/-- Withdraws the loads of the present context that have not retired. -/
def State.withdrawLoads (s : State) : State :=
  let gone := s.accs.filter fun a => a.ctx == s.cur && a.cls == .ld
  let ids := gone.map (·.id)
  { s with
    accs := s.accs.filter fun a => !ids.contains a.id
    withdrawn := s.withdrawn ++ gone.map fun a => { a with parts := a.parts.map fun p => { p with st := .waiting } }
    cells := s.cells.map fun e => (e.1, { e.2 with readers := e.2.readers.filter fun id => !ids.contains id }) }

/-- The image's own bytes are the firmware's (R309): undefined to a reader of the save slot (log 1); those of the window lie behind it. -/
def State.writeImage (s : State) (go : State → State) : State :=
  let (n, s) := s.draw
  s.saveWrite 151552 ((List.range 65536).map (Config.anyByte n)) fun t =>
    t.saveWrite 217088 ((List.range (65536 * t.cx.kernel.banks)).map fun i => Config.anyByte n (65536 + i)) go

/-- The commands of the present context stop at the element they have come to: what is on its way is written, what they have read and not moved they read again (R308, R310). -/
def State.stopCopies (s : State) : State :=
  let mine (c : Cmd) : Bool := c.ctx == s.cur && c.cls == .cp
  let ids := (s.cmds.filter mine).map (·.id)
  { s with
    cmds := s.cmds.map fun c => if mine c then { c with parked := [], fetched := [], refused := [] } else c
    remote := s.remote.map fun x =>
      if x.2.forCmd && ids.contains x.2.owner && (match x.2.pkt.body with | .read .. => true | _ => false) then (x.1, { x.2 with owner := 0 }) else x
    cells := s.cells.map fun e => (e.1, { e.2 with cmds := e.2.cmds.filter fun id => !ids.contains id }) }

/-- The hardware context is free, or free for the evaluator of the cell that the context waits for (R241); a firmware that was not waiting for the host has only its TRET left. -/
def State.vacate (s : State) : State :=
  let p := s.cx.place
  let s := s.stopCopies.modCx fun c => { c with
    phase := .evicted, place := none, preempt := false
    fw := match c.fw with
      | some .preempt => some .ret
      | f => f }
  State.separate { s with cells := s.cells.map fun e => if e.2.inPlace = some s.cur ∧ ¬ e.2.placed then (e.1, { e.2 with vacated := p }) else e }

/-- The present context gives up the matrix state that it owns (R313). -/
def State.giveMatrixUp (s : State) : State :=
  if s.ownsMatrix then (s.keepAct).modCore s.cx.coreNum fun k => { k with mowner := 0xFFFF, mdirty := false } else s

/-- The eviction of the present context. -/
def State.evict (s : State) : State :=
  let s := s.settleLaunch.withdrawLoads
  if s.ownsMatrix ∧ (s.core s.cx.coreNum).mdirty then s.saveMatrix s.cur fun t => t.giveMatrixUp.writeImage State.vacate
  else s.giveMatrixUp.writeImage State.vacate

/-! ### The firmware's next action -/

/-- Whether the firmware holds the context for an answer of the host. -/
def Ctx.awaitsHost (c : Ctx) : Bool :=
  match c.fw with
  | some (.awaitHost _ none) => true
  | some (.async l true) => l.any fun e => e.2.1.isSome && e.2.2.isNone
  | _ => false

/-- Whether a context stands at a cut point at which the cut of its rank now being made parks it: the first one it meets, then the one after its T-th quiet bundle (R319). A context whose last complete issue was quiet stands there also while a slot trap has left its next issue half made (DESIGN CHOICE, log 85). -/
def State.parkedByCut (s : State) (k : Nat) : Bool :=
  let c := s.ctx k
  c.quiet.isSome && (match s.cuts.find? fun x => x.rank == c.rank with
    | none => false
    | some x => match x.target with
      | some t => decide (t ≤ c.cutcount.toNat)
      | none => true)

/-- The next action of the firmware for the present context; what it waits for leaves the state as it is. A context held for the host's answer is evicted at once (R307). -/
def State.firmware (s : State) : State :=
  if s.cx.awaitsHost then (if (s.cx.preempt || s.parkedByCut s.cur) && s.evictReady then s.evict else s)
  else
    match s.cx.fw with
    | none => s
    | some (.terminate d) => s.terminate s.cur d
    | some .faultRecord =>
      let v := s.vfOf s.cur
      let seq := (s.vf v).mseq
      (s.interrupt v 4 (s.rankOf s.cx.rank).vk s.cx.faddr.toNat 0xFF).modCx fun c => { c with fw := some (.awaitHost seq none) }
    | some (.awaitHost _ (some true)) => s.doTret
    | some (.awaitHost _ (some false)) => s.terminate s.cur 0
    | some (.awaitHost _ none) => s
    | some (.async l false) =>
      let (l, s) := s.askHost l
      s.modCx fun c => { c with fw := some (.async l true) }
    | some (.async l true) => s.finishAsync l
    | some (.stream owner n _) =>
      match (tabGet (s.ctx owner).spools n).bind (·.mark) with
      | none => s.doTret
      | some (_, id) => if (s.cmd? id).isSome then s else s.terminate s.cur 0
    | some .matrixSwitch => s.switchMatrix
    | some .preempt => if s.evictReady then s.evict else s
    | some .ret => s.doTret

/-! ### Restoration (R310) -/

/-- Whether an evicted context may be restored: its development in place is over, no cut or hold keeps it, its virtual function runs. -/
def State.mayRestore (s : State) (k core hw : Nat) : Bool :=
  let c := s.ctx k
  let v := (s.rankOf c.rank).vf
  c.phase == .evicted && !(s.cells.any fun e => e.2.inPlace == some k) && !s.parkedByCut k && s.mayRun v c.rank
    && s.placesOk (s.vf v).part c.rank c.kernel.banks c.kernel.fused [(core, hw)]

/-- The firmware's reads of a save slot that restores a context: its image, and its window behind it (R309, R310; log 18). -/
def State.readImage (s : State) (k : Nat) : HubRes Unit :=
  let c := s.ctx k
  match s.hubGet c.rank (c.msave.toNat + 151552) 65536 with
  | .fail e a => .fail e a
  | .ok _ t =>
    match t.hubGet c.rank (c.msave.toNat + 217088) (65536 * c.kernel.banks) with
    | .fail e a => .fail e a
    | .ok _ u => .ok () u

/-- An evicted context takes a place, whose L1 gives up the lines it holds. -/
def State.takePlace (s : State) (k core hw : Nat) : State :=
  let s := if (s.ctx k).kernel.fused then s.fuse (clusterOf core) (s.ctx k).rank else s
  (s.modCtx k fun c => { c with phase := .live, place := some (core, hw) }).l1DropAll core

/-- RESTORATION: the context takes a place, whose L1 gives up the lines it holds, which may be older than what the context has read (R209); what it still has outstanding is the new core's from then on (R209, R211); its withdrawn loads are made again and its commands go on; it ends with TRET unless its firmware still waits. A save slot that cannot be read ends it (R309). -/
def execRestoration (k core hw : Nat) (s : State) : Out :=
  if s.mayRestore k core hw then
    let s := s.takePlace k core hw
    match s.readImage k with
    | .fail e a => .next (State.fwEnd { s with cur := k } k e a)
    | .ok _ s =>
      let s : State := { s with
        cur := k
        withdrawn := s.withdrawn.filter fun a => a.ctx != k
        accs := (s.accs ++ s.withdrawn.filter fun a => a.ctx == k).map fun a => if a.ctx = k then { a with core := core } else a
        cmds := s.cmds.map fun c => if c.ctx = k then { c with core := core } else c }
      .next (if s.cx.fw = some .ret then s.doTret else s)
  else .next s

end Sys2Proof.Machine
end

