-- ==== Sys2Proof/Machine/Boundary.lean ====
section
/-! DEFINITION. Machine/Boundary.lean: the causes that a context takes at a boundary, in their order (R289, R291, R292, R297, R298, R307, R316, R318). -/

namespace Sys2Proof.Machine

/-- Whether a TRET in flight would have to land results on a matrix state that its context does not own, or results that it restored wait for it (R316). -/
def State.matrixDue (s : State) : Bool :=
  !s.ownsMatrix && (s.cx.mwait || s.cx.inflight.any fun l => l.eff.onMatrix && decide (l.due ≤ s.cx.step))

/-- The trap of the oldest failure (R297). -/
def State.takeFailure (s : State) (f : Failure) (rest : List Failure) : State :=
  let s := (s.abandon false).modCx fun c => { c with failures := rest }
  s.boundaryTrap f.cause (BitVec.ofNat 64 f.addr) (.terminate 0)

/-- The trap of ASYNC: the firmware has the pending reports; what waited takes their places (R298). -/
def State.asyncTaken (s : State) (rest : List Failure) : State :=
  let rs := s.cx.reports
  let s := (s.abandon false).modCx fun c => { c with failures := rest, reports := [] }
  let s := s.boundaryTrap .async (BitVec.ofNat 64 ((rs.head?.map (·.faddr)).getD 0)) (.async (rs.map fun r => (r, none, none)) false)
  s.fillReports s.cur 8

/-- ASYNC: the reports become the records of the save area, oldest first. -/
def State.takeAsync (s : State) (rest : List Failure) : State :=
  let rs := s.cx.reports
  (s.asyncTaken rest).saveWrite 0x24000 ((rs.flatMap Report.bytes) ++ List.replicate (512 - 64 * rs.length) 0) id

/-- The first cause due at the boundary before the next issue, with the state after its trap. `quiet` says whether that issue is a quiet one, and is absent where its bundle cannot be fetched; the continuation of a TRAP is no issue. -/
def State.boundary (s : State) (quiet : Option Bool) : Option (Cause × State) :=
  let c := s.cx
  let trap (e : Cause) (t : FwTask) (evicting : Bool) : Option (Cause × State) := some (e, (s.abandon evicting).boundaryTrap e 0 t)
  if c.mode then none
  else
    match if c.uh then [] else c.failures with
    | f :: rest => some (f.cause, if f.cause = .async then s.takeAsync rest else s.takeFailure f rest)
    | [] =>
      if c.preempt || s.parkedByCut s.cur then trap .preempt .preempt true
      else if c.sres ≠ 7 ∧ c.kernel.budget ≤ c.issues then trap .budgetExceeded (.terminate 0) false
      else if c.sres ≠ 7 ∧ quiet = some false ∧ c.kernel.cutbound ≤ c.sinceQuiet then trap .cutOverrun (.terminate 0) false
      else if s.matrixDue then trap .matrixSwitch .matrixSwitch false
      else none

/-- The present context before its next issue: bundles fetched afresh that do not issue now are passed over (R72, R95), but not while a body is still being loaded. -/
def State.prepared (s : State) : State := if (s.cx.arming.bind (·.rest)).isSome then s else s.skipPassed s.cx.passBound

/-- Whether the present context stands before a bundle that does not issue now: more of them stand in a row than are passed over at once (R72). -/
def State.passing (s : State) : Bool :=
  (s.cx.arming.bind (·.rest)).isNone && (match s.nextIs with
    | .passed .. => true
    | .issues | .unfetched => false)

/-- Whether the next issue of the present context is a quiet one; none where its bundle is not there. -/
def State.nextQuiet (s : State) : Option Bool :=
  if s.passing then none
  else
    match s.bundleAt s.cx.pc with
    | .ok b _ _ => some b.hdr.quiet
    | .fail _ => none

/-- A context that runs on a core. -/
def Ctx.placed (c : Ctx) : Bool := c.phase == .live && c.place.isSome

/-- Takes the first cause due for context k when it is one of those wanted. -/
def State.takeIf (s : State) (k : Nat) (wanted : Cause → Bool) : State :=
  let t : State := State.prepared { s with cur := k, issue := ⟨0, false, none, 0, s.nextId, false, none⟩ }
  if t.cx.placed && t.cx.fw.isNone then
    match t.boundary t.nextQuiet with
    | some (e, u) => if wanted e then u else s
    | none => s
  else s

/-- BOUNDARY_FAILURE_TRAP (R297). -/
def execBoundaryFailureTrap (k : Nat) (s : State) : Out :=
  .next (s.takeIf k fun e => e != .async && e != .preempt && e != .budgetExceeded && e != .cutOverrun && e != .matrixSwitch)

/-- ASYNC (R298). -/
def execAsyncTrap (k : Nat) (s : State) : Out := .next (s.takeIf k (· == .async))

/-- BUDGET_EXCEEDED (R289). -/
def execBudgetExceeded (k : Nat) (s : State) : Out := .next (s.takeIf k (· == .budgetExceeded))

/-- CUT_OVERRUN (R318). -/
def execCutOverrun (k : Nat) (s : State) : Out := .next (s.takeIf k (· == .cutOverrun))

/-- MATRIX_SWITCH: the trap of a pending landing (R316), or the firmware's switch for a context that has trapped (R315). -/
def execMatrixSwitch (k : Nat) (s : State) : Out :=
  if (s.ctx k).placed ∧ (s.ctx k).fw = some .matrixSwitch then .next (State.switchMatrix { s with cur := k })
  else .next (s.takeIf k (· == .matrixSwitch))

/-- PREEMPT: a request to evict (R307), then the trap at the boundary, then the eviction (R308). -/
def execPreempt (k : Nat) (s : State) : Out :=
  let c := s.ctx k
  if ¬ c.placed then .next s
  else if c.fw = some .preempt ∨ (c.awaitsHost ∧ (c.preempt ∨ s.parkedByCut k)) then .next (State.firmware { s with cur := k })
  else if c.preempt then .next (s.takeIf k (· == .preempt))
  else
    let t := s.modCtx k fun c => { c with preempt := true }
    .next (if s.parkedByCut k then t.takeIf k (· == .preempt) else t)

end Sys2Proof.Machine
end

