-- ==== Sys2Proof/Machine/Queues.lean ====
section
/-! DEFINITION. Machine/Queues.lean: command queues and the commands they run (R175 to R178, R409), the placement of launches (R173, R179). -/

namespace Sys2Proof.Machine

/-! ### A queue's set-up and indices (R391, R395) -/

def CmdQueue.home (q : CmdQueue) : Nat := bitsOf q.cfg.toNat 32 16
def CmdQueue.prio (q : CmdQueue) : Nat := bitsOf q.cfg.toNat 20 2
def CmdQueue.enabled (q : CmdQueue) : Bool := q.cfg.getLsbD 63
/-- Virtual address of the slot at the head. -/
def CmdQueue.slotAddr (q : CmdQueue) : Nat := q.ring.toNat + 64 * (q.cons % q.slots)

/-- The consumer index that the host sees: the slots of an active LOOP body are not released (R177). -/
def CmdQueue.released (q : CmdQueue) : Nat :=
  match (q.loops.filter (·.isLoop)).getLast? with
  | some b => b.start
  | none => q.cons

def VF.queue (v : VF) (q : Nat) : CmdQueue := tabGetD v.queues q CmdQueue.reset
def State.cmdQueue (s : State) (vf q : Nat) : CmdQueue := (s.vf vf).queue q
/-- Changes a queue; what its processor has read of other devices' memory for the command at its head is read afresh for the next. -/
def State.modQueue (s : State) (vf q : Nat) (f : CmdQueue → CmdQueue) : State :=
  (s.modVf vf fun v => { v with queues := tabSet v.queues q (f (v.queue q)).settled }).dropFar (vf * 16 + q)

/-- Bodies that the position has passed end, or begin their next run; a position beyond the end of a body ends it too (DEDUCED, log 19). -/
def CmdQueue.unroll (q : CmdQueue) : Nat → CmdQueue
  | 0 => q
  | n + 1 =>
    match q.loops with
    | [] => q
    | b :: rest =>
      if (q.cons + 2 ^ 32 - b.start) % 2 ^ 32 < b.len then q
      else if 1 < b.left then { q with cons := b.start, loops := { b with left := b.left - 1 } :: rest }
      else CmdQueue.unroll { q with loops := rest } n

/-- The head command is over; `n` more are passed over. -/
def CmdQueue.advance (q : CmdQueue) (n : Nat) : CmdQueue :=
  { q with cons := (q.cons + 1 + n) % 2 ^ 32, head := .idle }.unroll 5

/-- A body begins after the head command. -/
def CmdQueue.push (q : CmdQueue) (isLoop : Bool) (len left : Nat) : CmdQueue :=
  { q with loops := ⟨isLoop, (q.cons + 1) % 2 ^ 32, len, left⟩ :: q.loops }

/-! ### Commands (R175, R176) -/

def cmdCode (l : List Byte) : Nat := fieldLE l 0 1
def cmdVk (l : List Byte) : Nat := fieldLE l 2 2

/-- Bytes of a command; those after them are reserved (DEDUCED, log 19). -/
def cmdBytes (code : Nat) : Nat :=
  match code with
  | 1 => 0x30 | 2 => 0x38 | 3 => 0x19 | 4 => 0x19 | 5 => 0x11 | 6 => 0x1A | 7 => 0x20 | 8 => 0x18 | 9 => 0x08
  | _ => 64

/-- Operands within their ranges; event words of commands lie at multiples of 8. -/
def cmdInRange (l : List Byte) : Bool :=
  let f := fieldLE l
  match cmdCode l with
  | 1 => decide (f 0x28 4 ≤ 512)
  | 2 => f 0x28 4 == 0
  | 3 => f 8 8 % 8 == 0 && decide (f 0x18 1 < 4)
  | 4 => f 8 8 % 8 == 0 && decide (f 0x18 1 < 2)
  | 5 => f 0x10 1 != 0
  | 6 => f 8 8 % 8 == 0 && decide (f 0x18 1 < 4) && f 0x19 1 != 0
  | 7 | 8 | 9 => true
  | _ => false

def cmdOk (l : List Byte) : Bool :=
  let code := cmdCode l
  let flags := fieldLE l 1 1
  decide (flags < 4) && (!flags.testBit 1 || code == 4) && fieldLE l 4 4 == 0
    && (cmdVk l == 0 || code == 1 || code == 2 || code == 8) && ((l.drop (cmdBytes code)).all (· == 0)) && cmdInRange l

/-- Commands that wait until every earlier one of their queue is complete (R177). -/
def cmdDrains (l : List Byte) : Bool := (fieldLE l 1 1).testBit 0 || cmdCode l == 4 || cmdCode l == 8 || cmdCode l == 9

/-- CMP of WAITEV and IF. -/
def cmpHolds (cmp : Nat) (w v : Nat) : Bool :=
  match cmp with
  | 0 => decide (v ≤ w)
  | 1 => w == v
  | 2 => w != v
  | _ => decide (w < v)

/-! ### Which command starts (R177, R178, R324, R327) -/

/-- What stands at the head of a queue and can start. -/
inductive HeadRes where
  | nothing
  /-- A slot that cannot be read, or a malformed command (R176); DATA of its record. -/
  | bad (data : Nat)
  /-- Its slot lies in another device's memory, and its bytes have not all come. -/
  | wait (s : State)
  | cmd (l : List Byte) (s : State)

/-- Whether a queue's processor may start commands of it. -/
def State.served? (s : State) (vf : Nat) : Bool := s.hasSlice vf && !(s.vf vf).halted

def State.homeRank (s : State) (vf q : Nat) : Nat := rankKeyOf vf (s.cmdQueue vf q).home

/-- What stands at a queue's head. The record of a malformed command carries DATA 0 (DESIGN CHOICE, log 72). -/
def State.headCmd (s : State) (vf q : Nat) : HeadRes :=
  let x := s.cmdQueue vf q
  if x.state = 1 ∧ x.head = .idle ∧ x.posted ∧ s.served? vf then
    match s.cpGet (vf * 16 + q) (s.homeRank vf q) x.slotAddr 64 with
    | .fail _ _ => .bad x.slotAddr
    | .wait t => .wait t
    | .ok l t => if !cmdOk l then .bad 0 else if cmdDrains l && x.running != [] then .nothing else .cmd l t
  else .nothing

def StartRes.waiting : StartRes → Bool
  | .waits _ => true
  | .refused .. | .placed _ => false

/-- The record of a launch command. -/
def State.hostRecord (s : State) (vf q : Nat) (l : List Byte) : LaunchRec :=
  { id := s.nextId, rank := rankKeyOf vf (cmdVk l), vf := vf, src := .queue vf q
    code := fieldLE l 8 8, args := BitVec.ofNat 64 (fieldLE l 0x10 8), event := fieldLE l 0x18 8, status := fieldLE l 0x20 8
    nctx := fieldLE l 0x28 4, nptr := if cmdCode l = 2 then some (fieldLE l 0x30 8) else none, base := fieldLE l 0x2C 4 }

def isLaunch (l : List Byte) : Bool := cmdCode l == 1 || cmdCode l == 2

def State.childCanStart (s : State) (vf : Nat) : Bool :=
  match (s.vf vf).childq with
  | [] => false
  | r :: _ => s.served? vf && !(s.startLaunch r []).waiting

/-- Whether the head of a queue can start: no parked record of its virtual function can enter the child queue first, no record of the child queue can start, whichever die serves it (R166, R168), and a launch can be placed, or is refused. -/
def State.canStart (s : State) (vf q : Nat) : Bool :=
  !s.drainDue vf && !s.childCanStart vf &&
    match (s.cmdQueue vf q).head with
    | .launch r => s.served? vf && !(s.startLaunch r []).waiting
    | .waitev .. | .copy .. | .adding .. => false
    | .idle => match s.headCmd vf q with
      | .nothing | .wait _ => false
      | .bad _ => true
      | .cmd l t => !isLaunch l || !(t.startLaunch (t.hostRecord vf q l) []).waiting

/-- The child queue's priority: the highest of the enabled queues, else 0 (R409). -/
def VF.childPrio (v : VF) : Nat := ((v.queues.filter fun e => e.2.state != 4).map fun e => e.2.prio).foldl max 0

/-- Heads that can start on a die: priority and queue, as VF × 16 + queue, 8 for a child queue. -/
def State.startable (s : State) (die : Nat) : List (Nat × Nat) :=
  s.vfs.flatMap fun e =>
    ((e.2.queues.filter fun q => q.2.die == die && s.canStart e.1 q.1).map fun q => (q.2.prio, e.1 * 16 + q.1))
      ++ (if e.2.childDie == die && s.childCanStart e.1 then [(e.2.childPrio, e.1 * 16 + 8)] else [])

/-- The queue that a die's processor serves next: highest priority, a child queue before the host queues of its virtual function, then round-robin. The cyclic order is that of VF × 16 + queue, a child queue's number being 8 (DESIGN CHOICE, log 84). -/
def State.nextServed (s : State) (die : Nat) : Option Nat :=
  let l := s.startable die
  let top := (l.map (·.1)).foldl max 0
  let eq := (l.filter fun e => e.1 == top).map (·.2)
  let eq := eq.filter fun k => k % 16 == 8 || !eq.contains (k / 16 * 16 + 8)
  let last := tabGetD s.served (die * 4 + top) (192 * 16)
  match (eq.filter fun k => decide (last < k)).min? with
  | some k => some k
  | none => eq.min?

def State.turn (s : State) (vf q : Nat) : Bool := s.nextServed (s.cmdQueue vf q).die == some (vf * 16 + q)
def State.childTurn (s : State) (vf : Nat) : Bool := s.nextServed (s.vf vf).childDie == some (vf * 16 + 8)

/-- A processor has served a queue; its virtual function has the partition. -/
def State.noteServed (s : State) (die prio key vf : Nat) : State :=
  { s with served := tabSet s.served (die * 4 + prio) key, running := tabSet s.running (s.vf vf).part vf }

/-- The queue stops with QUEUE_ERROR (R176). -/
def State.queueError (s : State) (vf q data : Nat) : State :=
  (s.modQueue vf q fun x => { x with state := 3, head := .idle }).interrupt vf 2 0xFFFF data q

/-- Starts the head command of a queue when it is of the given code; a bad one stops the queue under any. A slot that is still being read starts nothing. -/
def State.onCmd (s : State) (vf q code : Nat) (act : List Byte → State → State) : Out :=
  let x := s.cmdQueue vf q
  let note (t : State) : State := t.noteServed x.die x.prio (vf * 16 + q) vf
  match s.headCmd vf q with
  | .nothing => .next s
  | .wait t => .next t
  | .bad data => .next (if s.turn vf q then (note s).queueError vf q data else s)
  | .cmd l t => .next (if cmdCode l = code && s.turn vf q then act l (note t) else s)

/-! ### LAUNCH and LAUNCH.INDIRECT -/

/-- A launch command is read from its slot and waits at its queue's head: it starts, in its queue's turn, when it is placed (R178, LAUNCH_PLACEMENT). -/
def State.hostLaunch (s : State) (vf q code : Nat) : Out :=
  match s.headCmd vf q with
  | .cmd l t =>
    if cmdCode l = code then .next ({ t with nextId := t.nextId + 1 }.modQueue vf q fun x => { x with head := .launch (t.hostRecord vf q l) }) else .next s
  | .nothing | .bad _ | .wait _ => s.onCmd vf q code fun _ t => t

def execCmdLaunch (vf q : Nat) (s : State) : Out := s.hostLaunch vf q 1

/-- LAUNCH.INDIRECT: its count is read when it starts. -/
def execCmdLaunchIndirect (vf q : Nat) (s : State) : Out := s.hostLaunch vf q 2

/-- The refusal of a host's launch: its STATUS, an interrupt record, and its queue stopped at it (R173). A STATUS word that cannot be written stays as it is (DESIGN CHOICE, log 73). -/
def State.refuseHost (s : State) (vf q : Nat) (r : LaunchRec) (status : Nat) : State :=
  let s := if r.status ≠ 0 ∧ (tabGet s.ranks r.rank).isSome then s.cpStatus vf r.rank r.status status else s
  (s.modQueue vf q fun x => { x with state := 2, head := .idle }).interrupt vf 1 (r.rank % 65536) status q

/-- Places the launch at a queue's head in the queue's turn, or refuses it. While it waits, what its checks have come to is kept (R174). -/
def State.placeHost (s : State) (vf q : Nat) (r : LaunchRec) (places : List (Nat × Nat)) : State :=
  let x := s.cmdQueue vf q
  let note (t : State) : State := t.noteServed x.die x.prio (vf * 16 + q) vf
  match s.startLaunch r places with
  | .waits t => if s.served? vf then t else s
  | .refused c t => if s.turn vf q then (note t).refuseHost vf q r c else s
  | .placed t => if s.turn vf q then (note t).modQueue vf q fun x => ({ x with running := x.running ++ [r.id] }).advance 0 else s

/-- The host queue at whose head a launch waits. -/
def State.launchHead? (s : State) (id : Nat) : Option (Nat × Nat × LaunchRec) :=
  s.vfs.findSome? fun e => e.2.queues.findSome? fun q => match q.2.head with
    | .launch r => if r.id = id then some (e.1, q.1, r) else none
    | _ => none

/-- The virtual function at the head of whose child queue a launch waits. -/
def State.childHead? (s : State) (id : Nat) : Option Nat :=
  (s.vfs.find? fun e => (e.2.childq.head?.map (·.id)) == some id).map (·.1)

/-- The head of a child queue starts in its turn (R409). -/
def State.serveChild (s : State) (vf : Nat) (places : List (Nat × Nat)) : State :=
  let v := s.vf vf
  match v.childq with
  | [] => s
  | r :: _ =>
    if s.served? vf && (s.startLaunch r places).waiting then s.startChild vf places
    else if s.childTurn vf && s.served? vf then (s.startChild vf places).noteServed v.childDie v.childPrio (vf * 16 + 8) vf
    else s

/-- CHILD_QUEUE_START. -/
def execChildQueueStart (vf : Nat) (s : State) : Out := .next (s.serveChild vf [])

/-- LAUNCH_PLACEMENT: a launch at the head of its queue is checked and placed at the places chosen, or the first free ones. -/
def execLaunchPlacement (id : Nat) (places : List (Nat × Nat)) (s : State) : Out :=
  match s.launchHead? id with
  | some (vf, q, r) => .next (s.placeHost vf q r places)
  | none =>
    match s.childHead? id with
    | some vf => .next (s.serveChild vf places)
    | none => .next s

/-! ### The other commands -/

/-- Reads the word at a command's ADDR, or stops the queue; a word of another device's memory is awaited. -/
def State.cmdWord (s : State) (vf q addr n : Nat) (go : Nat → State → State) : State :=
  match s.cpGet (vf * 16 + q) (s.homeRank vf q) addr n with
  | .fail _ a => s.queueError vf q a
  | .wait t => t
  | .ok w t => go (leNat w) t

/-- WAITEV begins: its event word can be read. -/
def execWaitev (vf q : Nat) (s : State) : Out :=
  s.onCmd vf q 3 fun l t =>
    t.cmdWord vf q (fieldLE l 8 8) 8 fun _ u =>
      u.modQueue vf q fun x => { x with head := .waitev (fieldLE l 8 8) (BitVec.ofNat 64 (fieldLE l 0x10 8)) (fieldLE l 0x18 1) }

/-- WAITEV_SATISFIED: the held queue goes on once its word satisfies CMP, an acquire for the commands after it. -/
def execWaitevSatisfied (vf q : Nat) (s : State) : Out :=
  match (s.cmdQueue vf q).head with
  | .waitev addr value cmp =>
    if s.served? vf then
      .next (s.cmdWord vf q addr 8 fun w t => if cmpHolds cmp w value.toNat then t.modQueue vf q fun x => x.advance 0 else s.dropFar (vf * 16 + q))
    else .next s
  | _ => .next s

/-- A SIGNAL is complete: with IRQ, an interrupt record. -/
def State.signalled (s : State) (vf q addr : Nat) (irq : Bool) : State :=
  let s := s.modQueue vf q fun x => x.advance 0
  if irq then s.interrupt vf 3 0xFFFF addr q else s

/-- A SIGNAL's store or add to a word of this device's memory. -/
def State.signalHere (s : State) (vf q : Nat) (l : List Byte) : State :=
  let addr := fieldLE l 8 8
  let v := fieldLE l 0x10 8
  let r := if fieldLE l 0x18 1 = 0 then s.hubPut (s.homeRank vf q) addr (leBytes 8 v) else s.hubAddHere (s.homeRank vf q) addr (BitVec.ofNat 64 v)
  match r with
  | .fail _ a => s.queueError vf q a
  | .ok _ t => t.signalled vf q addr ((fieldLE l 1 1).testBit 1)

/-- A SIGNAL's store or add to a word of another device's memory is sent there; the queue waits for it to perform. -/
def State.signalRemote (s : State) (vf q pa : Nat) (l : List Byte) : State :=
  let addr := fieldLE l 8 8
  let v := fieldLE l 0x10 8
  let body (tag : Nat) : PktBody :=
    if fieldLE l 0x18 1 = 0 then .write Config.ownDevice tag false (paOnDevice pa) (List.replicate 8 true) (leBytes 8 v)
    else .amo Config.ownDevice tag .add true (paOnDevice pa) (BitVec.ofNat 64 v)
  match s.request vf pa 0 0 false none body with
  | none => s.queueError vf q addr
  | some (tag, t) => t.modQueue vf q fun x => { x with head := .adding tag addr ((fieldLE l 1 1).testBit 1) }

/-- SIGNAL: a store or an add to an event word, then, with IRQ, an interrupt record. -/
def execSignal (vf q : Nat) (s : State) : Out :=
  s.onCmd vf q 4 fun l t =>
    match t.hubTranslate (t.homeRank vf q) (fieldLE l 8 8) .write with
    | some (pa, u) => if paRemote pa then (if t.portHeld vf (paDevice pa) then s else u.signalRemote vf q pa l) else t.signalHere vf q l
    | none => t.signalHere vf q l

/-- The queue whose SIGNAL waits for the reply to a request. -/
def State.signalOf? (s : State) (tag : Nat) : Option (Nat × Nat × Nat × Bool) :=
  s.vfs.findSome? fun e => e.2.queues.findSome? fun x => match x.2.head with
    | .adding t addr irq => if t = tag then some (e.1, x.1, addr, irq) else none
    | _ => none

/-- Enters a body when it runs, passes it over when it does not, at whatever depth it stands (DESIGN CHOICE, log 71); a fifth level stops the queue (R177). -/
def State.enterBody (s : State) (vf q : Nat) (isLoop : Bool) (len runs : Nat) : State :=
  if runs = 0 then s.modQueue vf q fun x => x.advance len
  else if 4 ≤ (s.cmdQueue vf q).loops.length then s.queueError vf q 0
  else s.modQueue vf q fun x => (x.push isLoop len runs).advance 0

def execCmdLoop (vf q : Nat) (s : State) : Out :=
  s.onCmd vf q 5 fun l t => t.cmdWord vf q (fieldLE l 8 8) 4 fun c u => u.enterBody vf q true (fieldLE l 0x10 1) c

def execCmdIf (vf q : Nat) (s : State) : Out :=
  s.onCmd vf q 6 fun l t =>
    t.cmdWord vf q (fieldLE l 8 8) 8 fun w u =>
      u.enterBody vf q false (fieldLE l 0x19 1) (if cmpHolds (fieldLE l 0x18 1) w (fieldLE l 0x10 8) then 1 else 0)

/-- Whether the HBM controller of an address holds a command processor's access (R323). -/
def State.cpHeld (s : State) (vf rank va : Nat) : Bool :=
  match s.walk rank va with
  | some e => !paRemote (e.paOf va) && s.hbmHeld vf (e.paOf va)
  | none => false

/-- The beats that it moves there. -/
def State.cpSpend (s : State) (vf rank va : Nat) : State :=
  match s.walk rank va with
  | some e => if paRemote (e.paOf va) then s else s.spendHbm vf (e.paOf va)
  | none => s

/-- The next piece of a COPY that has started: bytes of one line of each side. -/
def State.copyPiece (s : State) (vf q src dst left : Nat) : State :=
  if left = 0 then s.modQueue vf q fun x => x.advance 0
  else
    let n := min left (min (128 - src % 128) (128 - dst % 128))
    let rank := s.homeRank vf q
    if s.cpHeld vf rank src || s.cpHeld vf rank dst then s
    else
    match s.cpGet (vf * 16 + q) rank src n with
    | .fail _ a => s.queueError vf q a
    | .wait t => t
    | .ok l t =>
      match (t.cpSpend vf rank src).cpPut (vf * 16 + q) rank dst l with
      | .fail _ a => t.queueError vf q a
      | .wait u => u
      | .ok _ u => (u.cpSpend vf rank dst).modQueue vf q fun x => { x with head := .copy (src + n) (dst + n) (left - n) }

/-- COPY: it starts, then moves its bytes in ascending order. -/
def execCmdCopy (vf q : Nat) (s : State) : Out :=
  match (s.cmdQueue vf q).head with
  | .copy src dst left => .next (s.copyPiece vf q src dst left)
  | _ => s.onCmd vf q 7 fun l t => t.modQueue vf q fun x => { x with head := .copy (fieldLE l 8 8) (fieldLE l 0x10 8) (fieldLE l 0x18 8) }

/-- A TLBINV's effect: translations and instruction lines of the range, and verified headers of which it covers a page (R174, R188, R198). -/
def State.invalidate (s : State) (rank va len : Nat) : State :=
  let s := s.tlbDrop rank va len
  let hit (e : Nat × Nat × Nat) : Bool := e.1 == rank && decide (e.2.1 / 65536 * 65536 < va + len) && decide (va < e.2.1 + e.2.2)
  let stays (k : Nat) : Bool := !(k / 2 ^ 41 == rank && decide (k % 2 ^ 41 * 128 < va + len) && decide (va < (k % 2 ^ 41 + 1) * 128))
  { s with
    verified := s.verified.map fun t => (t.1, t.2.filter fun e => !hit e)
    cores := s.cores.map fun e => (e.1, { e.2 with icache := e.2.icache.filter fun l => stays l.1 }) }

def execTlbinv (vf q : Nat) (s : State) : Out :=
  s.onCmd vf q 8 fun l t =>
    let rank := rankKeyOf vf (cmdVk l)
    if (tabGet t.ranks rank).isNone then t.queueError vf q (cmdVk l)
    else (t.invalidate rank (fieldLE l 8 8) (65536 * fieldLE l 0x10 8)).modQueue vf q fun x => x.advance 0

/-- HOLDPOINT: the position after it. -/
def execHoldpoint (vf q : Nat) (s : State) : Out :=
  s.onCmd vf q 9 fun _ t => t.modQueue vf q fun x => { x with holdpoint := some ((x.cons + 1) % 2 ^ 32) }.advance 0

end Sys2Proof.Machine
end

