-- ==== Sys2Proof/Machine/Shuffle.lean ====
section
/-! DEFINITION. Machine/Shuffle.lean: XSHUF, its plan, contact sheets, pairing, cancellation and the plain fallback (R355 to R371), and what a descheduled or unopened endpoint spills (R360, R379). -/

namespace Sys2Proof.Machine

/-! ### XSHUF (R355, R357) -/

/-- A field of a plan header by offset and bytes. -/
def planField (h : List Byte) (off n : Nat) : Nat := fieldLE h off n

/-- The header's own checks: reserved bytes zero, every field in its range. -/
def planOk (h : List Byte) : Bool :=
  let f := planField h
  f 0 4 != 0 && decide (f 4 2 < 4096) && decide (1 ≤ f 6 1) && decide (f 6 1 ≤ 63) && decide (f 7 1 < 16) && decide (f 8 4 ≤ 2 ^ 20)
    && decide (f 0x0C 4 ≤ 2 ^ 20) && decide (f 0x10 4 ≤ 4096) && f 0x18 8 % 32 == 0 && f 0x20 8 % 16 == 0 && f 0x28 8 % 16 == 0
    && f 0x30 8 % 32 == 0 && f 0x38 8 == 0

inductive XshufRes where
  | wait (t : State)
  | fault (t : State)
  | ok (header : List Byte) (members : List Nat) (pos : Nat)

/-- The checks of R355 in its order. -/
def State.xshufCheck (s : State) (a : W64) : XshufRes :=
  match s.descriptor a 64 with
  | .fault t => .fault t
  | .parts l t =>
    match t.seqRead 0 0x10 l with
    | .wait u => .wait u
    | .bytes b =>
      let bad (c : Cause) : XshufRes := .fault (s.dropReads.slotFault c a)
      if !planOk b || s.shufs.any (fun h => h.rank == s.cx.rank && h.shid == planField b 0 4) then bad .formatMismatch
      else
        match s.communicator 1 0x10 (planField b 4 2) with
        | .wait u => .wait u
        | .fault u => .fault u.dropReads
        | .undefined => bad .permission
        | .members ms =>
          match s.positionIn ms with
          | none => bad .permission
          | some p => .ok b ms p

def holdXshuf (a : GR) (s : State) : Option State :=
  match s.xshufCheck (s.rg a) with
  | .wait t => some t
  | .fault _ => none
  | .ok .. => none

/-- The generation after one (R362). -/
def nextGen (g : Nat) : Nat := if (g + 1) % 65536 = 0 then 1 else (g + 1) % 65536

/-- XSHUF accepted: its endpoint begins to read the entries. -/
def execXshuf (a : GR) (s : State) : Out :=
  match s.xshufCheck (s.rg a) with
  | .wait t => .next t
  | .fault t => .next t
  | .ok b ms p =>
    let c := s.cx
    let f := planField b
    let t := s.dropReads
    let gen := nextGen (s.rankOf c.rank).shufGen
    let num := tabGetD (s.rankOf c.rank).shufNum (f 0 4) 0 + 1
    let h : Shuf :=
      { acc := t.nextId + 1, rd := t.nextId, rank := c.rank, ctx := s.cur, job := s.jobOf s.cur, comm := f 4 2, shid := f 0 4, num := num, blen := f 6 1, gen := gen
        members := ms, pos := p, addr := (s.rg a).toNat, header := b, stage := 0, sends := [], recvs := [], fallback := 0, held := t.heldHere (s.jobOf s.cur) (f 4 2) ms, abort := none }
    let (l, t) := t.readyParts c.rank .read
      (pendingParts (f 0x18 8) (32 * f 8 4) ++ pendingParts (f 0x20 8) (16 * f 0x0C 4) ++ pendingParts (f 0x28 8) (16 * f 0x10 4))
    let t := t.addTile 0x10 l [] (if (f 7 1).testBit 0 then Scope.ofCode (bitsOf (f 7 1) 2 2) else none) ((f 7 1).testBit 1)
    .next (State.modRank { t with shufs := t.shufs ++ [h] } c.rank fun r => { r with shufGen := gen, shufNum := tabSet r.shufNum (f 0 4) num })

/-! ### Finding shuffles and sending to members -/

def State.modShuf (s : State) (acc : Nat) (f : Shuf → Shuf) : State := { s with shufs := s.shufs.map fun h => if h.acc = acc then f h else h }
def State.shuf? (s : State) (rank shid : Nat) : Option Shuf := s.shufs.find? fun h => h.rank == rank && h.shid == shid
/-- The shuffle of a member, by its position, when its rank lives here. -/
def State.shufAt? (s : State) (job shid pos : Nat) : Option Shuf := s.shufs.find? fun h => h.job == job && h.shid == shid && h.pos == pos
def State.rankHere (s : State) (job vk : Nat) : Bool := (s.jobRank? job vk).isSome
def Shuf.vkOf (h : Shuf) (pos : Nat) : Nat := h.members.getD pos 0

/-- Sends a body to a rank of a job: to its endpoint here, or to its device; the flag is false where a route is missing (R340). -/
def State.post (s : State) (job vk : Nat) (b : PktBody) : State × Bool :=
  if s.rankHere job vk then ({ s with inbox := s.inbox ++ [b] }, true)
  else
    match s.sendTo job vk b with
    | some t => (t, true)
    | none => (s, false)

/-! ### Spilling (R360, R379) -/

/-- Bytes of a packet: a header flit and its payload flits. -/
def packetBytes (b : PktBody) : Nat :=
  match b with
  | .shuffle p => 32 + p.payload.length
  | .overprint o => 32 + o.payload.length
  | .contribution _ _ _ _ _ order _ _ d => 32 + (order.length + d.length + 31) / 32 * 32
  | _ => 32

/-- Room in a rank's spill area, a request packet taking its flits (DEDUCED, log 17). -/
def RankRec.spillRoom (r : RankRec) (b : PktBody) : Bool := decide ((r.spilled.map packetBytes).sum + packetBytes b ≤ 65536 * r.spillsz)

/-- The device whose endpoint sent a request packet of a shuffle or a collective; of an overprint, the one that sent the packet for the receiver this copy is bound for. -/
def senderOf : PktBody → Nat
  | .shuffle p => p.dev
  | .overprint o => if o.toP then o.p.dev else o.q.dev
  | .contribution dev .. => dev
  | _ => Config.ownDevice

/-- A request packet is refused with RETRY: its sender keeps it, here or on its device (R379). -/
def State.refuse (s : State) (b : PktBody) : State :=
  if senderOf b = Config.ownDevice then { s with retries := s.retries ++ [b] } else (s.send ⟨senderOf b, .retry b⟩).getD s

/-- Writes a packet to the spill area; a request packet that finds it full is refused. Packets of the other classes are kept in any case (log 17). -/
def State.spill (s : State) (rank : Nat) (b : PktBody) : State :=
  if (s.rankOf rank).spillRoom b ∨ pktClass b ≠ .request then s.modRank rank fun r => { r with spilled := r.spilled ++ [b] } else s.refuse b

/-- Whether an endpoint takes packets of a SHID now: its rank resident, its shuffle open and the hold entries registered. -/
def State.takesShid (s : State) (rank shid : Nat) : Option Shuf :=
  if (s.rankOf rank).state = 1 then (s.shuf? rank shid).filter fun h => h.stage != 0 else none

/-- An overprint enters the decode buffer of the group of the port that it came by, for the receivers here that it is bound for (R366). -/
def State.buffer (s : State) (o : Overprint) : State :=
  let add (on second : Bool) : List Decoding := if on then [⟨o.port / 8 % 16, second, o, []⟩] else []
  { s with decoding := s.decoding ++ add (o.toP && s.rankHere o.p.job o.p.vk) false ++ add (o.toQ && s.rankHere o.q.job o.q.vk) true }

/-- The entries of a list that fit a decode buffer of `room` bytes; the others wait in the request buffers of their ports. -/
def fitting : Nat → List Decoding → List Decoding
  | _, [] => []
  | room, d :: l => if packetBytes (.overprint d.op) ≤ room then d :: fitting (room - packetBytes (.overprint d.op)) l else []

/-- The 256 KiB decode buffer of a port group (R366). -/
def State.decodeBuffer (s : State) (group : Nat) : List Decoding := fitting 262144 (s.decoding.filter fun d => d.group == group)

/-- A spilled packet goes on to the endpoint of its rank. -/
def State.redeliver (s : State) (b : PktBody) : State :=
  match b with
  | .overprint o => s.buffer o
  | .contribution _ job comm k pos order total off data => s.takeContribution ⟨job, comm, k, pos, order, total, [(off, data)]⟩
  | .collAbort job comm k mismatch => s.abortColl job comm k mismatch
  | b => { s with inbox := s.inbox ++ [b] }

def shidOf? (b : PktBody) : Option Nat :=
  match b with
  | .shuffle p => some p.shid
  | .overprint o => some o.p.shid
  | .shufAbort _ _ shid _ _ => some shid
  | _ => none

/-- Delivers the spilled packets that a rank can now take, in arrival order, ahead of what arrives later. -/
def State.unspill (s : State) (rank : Nat) : State :=
  let r := s.rankOf rank
  let takes (b : PktBody) : Bool := match shidOf? b with
    | some shid => (s.takesShid rank shid).isSome
    | none => r.state == 1
  let later := s.inbox
  let t : State := { s.modRank rank fun r => { r with spilled := r.spilled.filter fun b => !takes b } with inbox := [] }
  let t := (r.spilled.filter takes).foldl State.redeliver t
  { t with inbox := t.inbox ++ later }

/-! ### Aborts (R359, R370) -/

/-- An abort comes for a member here: into its endpoint when the shuffle is open, into its spill area when it has still to be; one that has retired keeps what it has. -/
def State.abortNotice (s : State) (job vk shid pos num : Nat) : State :=
  match s.jobRank? job vk with
  | none => s
  | some rank =>
    let b : PktBody := .shufAbort job vk shid pos num
    match s.shuf? rank shid with
    | some h => if h.num = num then { s with inbox := s.inbox ++ [b] } else s
    | none => if tabGetD (s.rankOf rank).shufNum shid 0 < num then s.spill rank b else s

/-- A member finds a cause: every member is aborted; a member that has not opened the shuffle finds the abort in its spill area. -/
def State.shufFails (s : State) (h : Shuf) (found : Option (Cause × Nat)) : State :=
  let s : State := { s with shufs := s.shufs.map fun x =>
    if x.acc = h.acc then { x with abort := some (x.abort.getD found) }
    else if x.job = h.job ∧ x.shid = h.shid ∧ x.num = h.num ∧ x.abort.isNone then { x with abort := some none } else x }
  (List.range h.members.length).foldl (fun t p =>
    if (t.shufAt? h.job h.shid p).isSome then t
    else if t.rankHere h.job (h.vkOf p) then t.abortNotice h.job (h.vkOf p) h.shid p h.num
    else (t.post h.job (h.vkOf p) (.shufAbort h.job (h.vkOf p) h.shid p h.num)).1) s

/-! ### The entries (R358, R359, R362) -/

/-- Cuts a list into n pieces of k. -/
def entriesOf (k : Nat) (l : List Byte) (n : Nat) : List (List Byte) := (List.range n).map fun i => (l.drop (k * i)).take k

/-- What is wrong with an address of a block, if anything. -/
def State.blockBad (s : State) (rank addr len : Nat) : Option (Cause × Nat) :=
  if addr % 32 ≠ 0 then some (.misaligned, addr) else if s.rangeRemote rank addr len then some (.permission, addr) else none

def holdersOf (e : List Byte) : List Nat := ((List.range 4).map fun i => fieldLE e (8 * 2 + 2 * i) 2).filter (· != 0xFFFF)

/-- What is wrong with a send entry that lies at `at'`. -/
def State.sendBad (s : State) (h : Shuf) (at' : Nat) (e : List Byte) : Option (Cause × Nat) :=
  let n := h.members.length
  if fieldLE e 6 2 ≠ 0 ∨ fieldLE e 0x18 8 ≠ 0 ∨ n ≤ fieldLE e 4 2 ∨ (holdersOf e).any (fun p => decide (n ≤ p) || p == fieldLE e 4 2) then
    some (.formatMismatch, at')
  else s.blockBad h.rank (fieldLE e 8 8) (32 * h.blen)

def State.recvBad (s : State) (h : Shuf) (at' : Nat) (e : List Byte) : Option (Cause × Nat) :=
  if fieldLE e 6 2 ≠ 0 ∨ h.members.length ≤ fieldLE e 4 2 then some (.formatMismatch, at') else s.blockBad h.rank (fieldLE e 8 8) (32 * h.blen)

def State.holdBad (s : State) (h : Shuf) (at' : Nat) (e : List Byte) : Option (Cause × Nat) :=
  if fieldLE e 4 4 ≠ 0 then some (.formatMismatch, at') else s.blockBad h.rank (fieldLE e 8 8) (32 * h.blen)

/-- The physical pieces of a block, where its pages are mapped. -/
def State.blockPieces (s : State) (rank addr len : Nat) : List (Nat × Nat) :=
  (linePieces (len / 128 + 2) addr len).filterMap fun e => (s.walk rank e.1).map fun x => (x.paOf e.1, e.2)

/-- Registers hold entries in order; a full sheet of 4,096 gives up the one registered longest ago. -/
def State.register (s : State) (h : Shuf) : List (List Byte) → State
  | [] => s
  | e :: l =>
    let x : SheetEntry := ⟨h.shid, fieldLE e 0 4, fieldLE e 8 8, h.gen, s.blockPieces h.rank (fieldLE e 8 8) (32 * h.blen)⟩
    (s.modRank h.rank fun r => { r with sheet := (r.sheet ++ [x]).drop (r.sheet.length + 1 - 4096) }).register h l

/-- Receive entries with their places among the parts of the writes. -/
def recvEntries (len : Nat) : List (List Byte) → Nat → List RecvEntry × List Part
  | [], _ => ([], [])
  | e :: l, at' =>
    let ps := pendingParts (fieldLE e 8 8) len
    let (rs, qs) := recvEntries len l (at' + ps.length)
    (⟨fieldLE e 0 4, fieldLE e 4 2, fieldLE e 8 8, at', ps.length, .no, false⟩ :: rs, ps ++ qs)

/-- The endpoint has read the entries: a bad one aborts the shuffle, else its holds are registered and its blocks are read. -/
def State.takeEntries (s : State) (h : Shuf) (rd wr : Acc) : State :=
  let f := planField h.header
  let b := rd.bytes
  let sends := entriesOf 32 b (f 8 4)
  let recvs := entriesOf 16 (b.drop (32 * f 8 4)) (f 0x0C 4)
  let holds := entriesOf 16 (b.drop (32 * f 8 4 + 16 * f 0x0C 4)) (f 0x10 4)
  let blks := recvs.map fun e => fieldLE e 0 4
  let bad :=
    (sends.zipIdx.findSome? fun (e, i) => s.sendBad h (f 0x18 8 + 32 * i) e).or
      ((recvs.zipIdx.findSome? fun (e, i) => s.recvBad h (f 0x20 8 + 16 * i) e).or
        ((if blks.eraseDups.length = blks.length then none else some (Cause.formatMismatch, f 0x20 8)).or
          (holds.zipIdx.findSome? fun (e, i) => s.holdBad h (f 0x28 8 + 16 * i) e)))
  match bad with
  | some x => s.shufFails h (some x)
  | none =>
    let s := s.register h holds
    let (rs, ws) := recvEntries (32 * h.blen) recvs 0
    let ss := sends.map fun e => (⟨fieldLE e 0 4, fieldLE e 4 2, fieldLE e 8 8, holdersOf e, false⟩ : SendEntry)
    let (ps, s) := s.readyParts h.rank .read (ss.flatMap fun e => pendingParts e.src (32 * h.blen))
    let s := (s.setAcc { rd with parts := ps }).setAcc { wr with parts := ws }
    (s.modShuf h.acc fun h => { h with stage := 1, sends := ss, recvs := rs }).unspill h.rank

/-! ### The sorting office (R364, R365) -/

/-- Envelopes of a block: a CRC-32C for each 64 bytes. -/
def envelopes (l : List Byte) : List Nat := (List.range ((l.length + 63) / 64)).map fun i => crc32c ((l.drop (64 * i)).take 64)

/-- A packet that finds no route is dropped, and a sender here has its shuffle fail (R337, R340). -/
def State.unrouted (s : State) (p : ShufPkt) : State :=
  match s.shufAt? p.job p.shid p.src with
  | some h =>
    if p.dev = Config.ownDevice then
      s.shufFails h (some (.translation, ((h.sends.find? fun e => e.blk == p.blk && e.dest == p.dst).map (·.src)).getD h.addr))
    else s
  | none => s

/-- The virtual function of a packet's sender here. -/
def State.senderVf (s : State) (p : ShufPkt) : Nat := ((s.shufAt? p.job p.shid p.src).map fun h => (s.rankOf h.rank).vf).getD 0

/-- The device that a packet goes on to: this one where its receiver lives here, else the one its header names, or, from here on, the one that the location map has (R365, R377). -/
def State.wayOf (s : State) (p : ShufPkt) : Option Nat :=
  if s.rankHere p.job p.vk then some Config.ownDevice
  else if p.dest ≠ Config.ownDevice then some p.dest
  else (s.deviceOf p.job p.vk).filter (· != Config.ownDevice)

/-- A packet leaves the window plain: to an endpoint here, or to its receiver's device, its sender's sorting office keeping it until it is acknowledged (R382). -/
def State.leavePlain (s : State) (p : ShufPkt) : State :=
  if s.rankHere p.job p.vk then { s with inbox := s.inbox ++ [.shuffle p] }
  else
    match s.wayOf p with
    | none => s.unrouted p
    | some d =>
      let q : Packet := ⟨d, .shuffle { p with dest := d }⟩
      (if p.dev = Config.ownDevice then s.sendRequest (s.senderVf p) q else s.send q).getD (s.unrouted p)

def pairable (p q : ShufPkt) : Bool :=
  p.job == q.job && p.shid == q.shid && p.payload.length == q.payload.length && p.dst != q.dst && p.holders.contains q.dst && q.holders.contains p.dst

def xorBytes (a b : List Byte) : List Byte := List.zipWith (· ^^^ ·) a b

def overprintOf (p q : ShufPkt) : Overprint :=
  ⟨{ p with payload := [] }, { q with payload := [] }, xorBytes p.payload q.payload, true, true, 0⟩

/-- Sends a copy of an overprint towards a device; the plain packets of senders here that it stands for are kept until they are acknowledged. -/
def State.sendCopy (s : State) (d : Nat) (o : Overprint) (plain : List ShufPkt) : State :=
  match s.portTo d with
  | none => plain.foldl State.unrouted s
  | some (port, s) =>
    let own := plain.filter fun p => p.dev == Config.ownDevice
    let s := s.enqueue port ⟨d, .overprint o⟩
    let s := if own.isEmpty then s else s.spend ((own.head?.map s.senderVf).getD 0) .fabric port (pktFlits (.overprint o))
    own.foldl (fun (t : State) p => { t with unconfirmed := t.unconfirmed ++ [⟨port, ⟨d, .shuffle p⟩⟩] }) s

/-- An overprint goes on to the receivers that it is bound for: those here, then by one packet where both have the same route, else by a copy each (R365). -/
def State.forwardOverprint (s : State) (o : Overprint) (plain : List ShufPkt) : State :=
  let far (on : Bool) (p : ShufPkt) : Option Nat := if on && !s.rankHere p.job p.vk then s.wayOf p else none
  let only (p : ShufPkt) : List ShufPkt := plain.filter fun x => x.dst == p.dst
  let t := (plain.filter fun p => (s.wayOf p).isNone).foldl State.unrouted (s.buffer o)
  let o : Overprint := { o with p := { o.p with dest := (s.wayOf o.p).getD o.p.dest }, q := { o.q with dest := (s.wayOf o.q).getD o.q.dest } }
  match far o.toP o.p, far o.toQ o.q with
  | none, none => t
  | some d, none => t.sendCopy d { o with toQ := false } (only o.p)
  | none, some d => t.sendCopy d { o with toP := false } (only o.q)
  | some d, some e =>
    if d = e ∨ tabGetD s.routes d [] = tabGetD s.routes e [] then t.sendCopy d o plain
    else (t.sendCopy d { o with toQ := false } (only o.p)).sendCopy e { o with toP := false } (only o.q)

/-- A plain packet passes the sorting office: it pairs with the first eligible packet of the window, or waits there, the oldest making room. The port by which an overprint made here comes to a receiver here is free (log 1). -/
def State.office (s : State) (p : ShufPkt) : State :=
  if p.plainOnly || p.bad then s.leavePlain p
  else
    match s.pairing.findIdx? (pairable p) with
    | some i =>
      match s.pairing[i]? with
      | some q =>
        let (n, s) := s.draw
        { s with pairing := s.pairing.eraseIdx i }.forwardOverprint { overprintOf p q with port := Config.anyNat n % 128 } [p, q]
      | none => s
    | none =>
      let s : State := { s with pairing := s.pairing ++ [p] }
      if 512 < s.pairing.length then
        match s.pairing with
        | q :: l => State.leavePlain { s with pairing := l } q
        | [] => s
      else s

/-- PAIRING_TIMEOUT: a packet leaves the window plain. -/
def execPairingTimeout (index : Nat) (s : State) : Out :=
  match s.pairing[index]? with
  | some p => .next (State.leavePlain { s with pairing := s.pairing.eraseIdx index } p)
  | none => .next s

/-! ### What an endpoint sends -/

def Shuf.packet (h : Shuf) (e : SendEntry) (payload : List Byte) (plainOnly bad : Bool) : ShufPkt :=
  ⟨Config.ownDevice, Config.ownDevice, h.job, h.vkOf e.dest, h.shid, e.blk, h.pos, e.dest, e.holders, envelopes payload, payload, plainOnly, bad⟩

/-- Whether a port's budget holds a block (R323). -/
def State.shufHeld (s : State) (h : Shuf) (e : SendEntry) : Bool :=
  match s.deviceOf h.job (h.vkOf e.dest) with
  | some d => s.portHeld (s.rankOf h.rank).vf d
  | none => false

/-- Sends the blocks that have been read. -/
def State.sendBlocks (s : State) (h : Shuf) : List SendEntry → List Byte → State
  | [], _ => s
  | e :: l, b => (s.office (h.packet e (b.take (32 * h.blen)) false false)).sendBlocks h l (b.drop (32 * h.blen))

/-- Marks a block acknowledged at its sender (R356). -/
def State.acknowledge (s : State) (job shid blk src dst : Nat) : State :=
  match s.shufAt? job shid src with
  | none => s
  | some h =>
    let mine (u : Unconfirmed) : Bool := match u.pkt.body with
      | .shuffle p => p.job == job && p.shid == shid && p.blk == blk && p.src == src && p.dst == dst
      | _ => false
    State.modShuf { s with unconfirmed := s.unconfirmed.filter fun u => !mine u } h.acc fun h =>
      { h with sends := h.sends.map fun e => if e.blk = blk ∧ e.dest = dst then { e with acked := true } else e }

/-- The packet of an overprint that a receiver decodes. -/
def Decoding.mine (d : Decoding) : ShufPkt := if d.second then d.op.q else d.op.p

/-- Whether an entry of a decode buffer has been decoded: it stays until its block is written (R366). -/
def Decoding.decoded (d : Decoding) : Bool := decide (0 < d.read.length) && decide (d.op.payload.length ≤ d.read.length)

/-- Frees the decoded entries of a shuffle's receiver, or of one block of it. -/
def State.freeDecoded (s : State) (h : Shuf) (blk : Option Nat) : State :=
  { s with decoding := s.decoding.filter fun d =>
      !(d.decoded && d.mine.job == h.job && d.mine.shid == h.shid && d.mine.dst == h.pos && (match blk with | some b => d.mine.blk == b | none => true)) }

/-- A target has been written: its sender learns it. -/
def State.blockWritten (s : State) (h : Shuf) (e : RecvEntry) : State :=
  let s := (s.freeDecoded h (some e.blk)).modShuf h.acc fun h => { h with recvs := h.recvs.map fun x => if x.first = e.first ∧ x.blk = e.blk then { x with written := true } else x }
  if s.rankHere h.job (h.vkOf e.sender) then s.acknowledge h.job h.shid e.blk e.sender h.pos
  else (s.post h.job (h.vkOf e.sender) (.shufAck h.job h.shid e.blk e.sender h.pos)).1

/-- Parts of the writes that belong to a receive entry. -/
def RecvEntry.parts (e : RecvEntry) (a : Acc) : List Part := (a.parts.drop e.first).take e.count

/-- Notes the targets that have been written, or the first that could not be. -/
def State.noteWritten (s : State) (h : Shuf) (a : Acc) : List RecvEntry → State
  | [] => s
  | e :: l =>
    if (e.came = .plain ∨ e.came = .decoded) ∧ ¬ e.written ∧ (e.parts a).all Part.answered then
      match Acc.failure? { a with parts := e.parts a } with
      | some f => s.shufFails h (some f)
      | none => (s.blockWritten h e).noteWritten h a l
    else s.noteWritten h a l

/-- The endpoint of a shuffle goes on: from its entries to its blocks, from its blocks to the packets, and it notes the targets written. -/
def State.shufGoes (s : State) (h : Shuf) : State :=
  if h.abort.isSome then s
  else
    match s.acc? h.acc with
    | none => s
    | some wr =>
      let s := s.noteWritten h wr h.recvs
      match s.acc? h.rd with
      | none => s
      | some rd =>
        if rd.parts.all Part.answered then
          match rd.failure? with
          | some f => s.shufFails h (some f)
          | none =>
            if h.stage = 0 then s.takeEntries h rd wr
            else if h.sends.any (s.shufHeld h) then s
            else ((s.dropAcc h.rd).modShuf h.acc fun h => { h with stage := 2 }).sendBlocks h h.sends rd.bytes
        else s

/-! ### What an endpoint receives (R360, R366 to R368) -/

/-- A block's bytes are on their way to its target. -/
def State.deposit (s : State) (h : Shuf) (e : RecvEntry) (payload : List Byte) (came : Came) : State :=
  match s.acc? h.acc with
  | none => s
  | some a =>
    let (ps, s) := s.readyParts h.rank .write (fillParts (e.parts a) payload)
    (s.setAcc { a with parts := a.parts.take e.first ++ ps ++ a.parts.drop (e.first + e.count) }).modShuf h.acc fun h =>
      { h with recvs := h.recvs.map fun x => if x.first = e.first ∧ x.blk = e.blk then { x with came := came } else x }

/-- The block of a receive entry cannot be had: its target is undefined, the entry waits no longer (R368). -/
def State.forsake (s : State) (h : Shuf) (e : RecvEntry) : State :=
  match s.acc? h.acc with
  | none => s
  | some a =>
    let s := s.scrambleRange h.rank e.tgt (32 * h.blen)
    (s.setAcc { a with parts := a.parts.take e.first ++ (e.parts a).map (fun p => { p with st := .done }) ++ a.parts.drop (e.first + e.count) }).modShuf h.acc fun h =>
      { h with recvs := h.recvs.map fun x => if x.first = e.first ∧ x.blk = e.blk then { x with came := .failed, written := true } else x }

def Shuf.entry? (h : Shuf) (blk : Nat) : Option RecvEntry := h.recvs.find? fun e => e.blk == blk

/-- A plain packet at its receiver's endpoint. -/
def State.takePlain (s : State) (p : ShufPkt) : State :=
  match s.jobRank? p.job p.vk with
  | none => s.leavePlain p
  | some rank =>
  match s.takesShid rank p.shid with
  | none => s.spill rank (.shuffle p)
  | some h =>
    if h.abort.isSome then s
    else
      match h.entry? p.blk with
      | none => s.shufFails h none
      | some e => if e.came ≠ .no then s else if p.bad || envelopes p.payload != p.crc then s.forsake h e else s.deposit h e p.payload .plain

/-- Whether a packet can arrive now: it is on its way here, or its sender lives on another device. -/
def State.arrives (s : State) (p : ShufPkt) : Bool :=
  s.inbox.contains (.shuffle p) || (s.rankHere p.job p.vk && (s.shufAt? p.job p.shid p.src).isNone)

/-- SHUFFLE_PACKET. -/
def execShufflePacket (p : ShufPkt) (s : State) : Out :=
  if s.arrives p then .next (State.takePlain { s with inbox := s.inbox.erase (.shuffle p) } p) else .next s

/-- Asks the sender of a block to send it plain (R367). -/
def State.fallBack (s : State) (h : Shuf) (e : RecvEntry) : State :=
  let s := s.modShuf h.acc fun h => { h with fallback := h.fallback + 1 }
  (s.post h.job (h.vkOf e.sender) (.reissue h.job h.shid e.blk e.sender h.pos)).1

/-- Where the held block of an overprint's other packet lies, when it is usable (R363, R366). -/
def State.heldBlock (s : State) (h : Shuf) (blk : Nat) : Option Nat :=
  ((s.rankOf h.rank).sheet.find? fun e => e.shid == h.shid && e.blk == blk && e.gen == h.gen).map (·.addr)

/-- What the next event of a decode comes to: nothing more, or so much of the held block read. -/
inductive DecodeRes where
  | over (t : State)
  | goes (read : List Byte) (t : State)

/-- An overprint at a receiver: `mine` is its packet, `other` the one it holds the block of. Each event reads the held block in one more line (R206); with the last the block is decoded, if the held one is still usable. -/
def State.decode (s : State) (mine other : ShufPkt) (d : Decoding) : DecodeRes :=
  match s.jobRank? mine.job mine.vk with
  | none => .over (s.forwardOverprint { d.op with toP := !d.second, toQ := d.second } [])
  | some rank =>
  match s.takesShid rank mine.shid with
  | none => .over (s.spill rank (.overprint { d.op with toP := !d.second, toQ := d.second }))
  | some h =>
    if h.abort.isSome then .over s
    else
      match h.entry? mine.blk with
      | none => .over (s.shufFails h none)
      | some e =>
        if e.came ≠ .no then .over s
        else
          match s.heldBlock h other.blk with
          | none => .over (s.fallBack h e)
          | some a =>
            let at' := a + d.read.length
            let n := min (128 - at' % 128) (32 * h.blen - d.read.length)
            match s.hubGet h.rank at' n with
            | .fail _ _ => .over (s.fallBack h e)
            | .ok b t =>
              let got := d.read ++ b
              if got.length < 32 * h.blen then .goes got t
              else
                let blk := xorBytes d.op.payload got
                if envelopes blk = mine.crc then .goes got (t.deposit h e blk .decoded) else .over (t.fallBack h e)

/-- OVERPRINT_DECODE: the first overprint of a port group's decode buffer that is not yet decoded. -/
def execOverprintDecode (group : Nat) (s : State) : Out :=
  match (s.decodeBuffer group).find? fun d => !d.decoded with
  | none => .next s
  | some d =>
    match if d.second then s.decode d.op.q d.op.p d else s.decode d.op.p d.op.q d with
    | .over t => .next { t with decoding := t.decoding.erase d }
    | .goes l t => .next { t with decoding := t.decoding.map fun x => if x = d then { x with read := l } else x }

/-- REISSUE_PLAIN: the sender's endpoint reads the block again and sends it plain; a failed read is reported and the receiver's fallback fails (R367, R368). -/
def execReissuePlain (rank shid blk dst : Nat) (s : State) : Out :=
  match s.shuf? rank shid with
  | none => .next s
  | some h =>
    let msg : PktBody := .reissue h.job shid blk h.pos dst
    if ¬ s.inbox.contains msg ∧ s.rankHere h.job (h.vkOf dst) then .next s
    else
      let t : State := { s with inbox := s.inbox.erase msg }
      match h.sends.find? fun e => e.blk == blk && e.dest == dst with
      | none => .next t
      | some e =>
        if t.shufHeld h e then .next s
        else
        match t.hubGet rank e.src (32 * h.blen) with
        | .ok b u => .next (u.office (h.packet e b true false))
        | .fail c x =>
          let u := t.office (h.packet e [] true true)
          let epc := ((s.acc? h.acc).map (·.epc)).getD 0
          .next (u.report h.ctx rank (failedOp c (opcOf 5 0x10) (s.ctx h.ctx) x epc 0 none))

/-! ### Retirement (R356, R369, R370) -/

/-- The XSHUF leaves TL. -/
def State.shufGone (s : State) (h : Shuf) : State :=
  let s := (((s.dropAcc h.rd).dropAcc h.acc).freeDecoded h none).modCtx h.ctx fun x => x.countDown .tl h.acc
  let mine (b : PktBody) : Bool := match b with
    | .shuffle p => p.job == h.job && p.shid == h.shid && p.src == h.pos
    | _ => false
  { s with shufs := s.shufs.filter (fun x => x.acc != h.acc), unconfirmed := s.unconfirmed.filter fun u => !mine u.pkt.body }

/-- The status area of a retiring XSHUF. -/
def Shuf.status (h : Shuf) : List Byte :=
  layout [((h.recvs.filter fun e => e.came == .plain).length, 8), ((h.recvs.filter fun e => e.came == .decoded).length, 8), (h.fallback, 8), (0, 8)]

/-- The targets that a shuffle's receive entries name, where its endpoint has not taken the entries (R370). -/
def State.untakenTargets (s : State) (h : Shuf) : List Nat :=
  if h.stage ≠ 0 then []
  else
    (List.range (planField h.header 0x0C 4)).filterMap fun i =>
      match s.hubGet h.rank (planField h.header 0x20 8 + 16 * i) 16 with
      | .ok e _ => some (fieldLE e 8 8)
      | .fail _ _ => none

/-- The targets not written become undefined, and the member reports the abort: COLL_ABORTED, or the cause it found. -/
def State.abortShuf (s : State) (h : Shuf) (found : Option (Cause × Nat)) : State :=
  let epc := ((s.acc? h.acc).map (·.epc)).getD 0
  let landed (e : RecvEntry) : Bool := match s.acc? h.acc with
    | some a => e.came != .no && (e.parts a).all fun p => p.st == .done
    | none => false
  let s := (s.untakenTargets h ++ (h.recvs.filter fun e => !e.written && !landed e).map (·.tgt)).foldl (fun t a => t.scrambleRange h.rank a (32 * h.blen)) s
  let (cause, addr) := found.getD (.collAborted, h.addr)
  (s.shufGone h).report h.ctx h.rank (failedOp cause (opcOf 5 0x10) (s.ctx h.ctx) addr epc 0 none)

/-- SHUFFLE_ABORT: an abort reaches a member, from a member here or on another device, and its XSHUF retires. -/
def execShuffleAbort (rank shid : Nat) (s : State) : Out :=
  match s.shuf? rank shid with
  | none => .next s
  | some h =>
    match h.abort with
    | some found => .next (s.abortShuf h found)
    | none =>
      if s.inbox.contains (.shufAbort h.job (h.vkOf h.pos) shid h.pos h.num) ∨ (h.members.any fun vk => !s.rankHere h.job vk) then
        .next (State.abortShuf { s with inbox := s.inbox.erase (.shufAbort h.job (h.vkOf h.pos) shid h.pos h.num) } h none)
      else .next s

/-- SHUFFLE_TIMEOUT: a member's timer reaches TIMEOUT; a HOLD notice stops it. -/
def execShuffleTimeout (rank shid : Nat) (s : State) : Out :=
  match s.shuf? rank shid with
  | none => .next s
  | some h => if planField h.header 0x14 4 ≠ 0 ∧ timerRuns h.held h.pos ∧ h.abort = none then .next (s.shufFails h none) else .next s

/-- SHUFFLE_RETIRE: the endpoint goes on, and its XSHUF retires once every target is written and every block acknowledged, its status written first. -/
def execShuffleRetire (rank shid : Nat) (s : State) : Out :=
  match s.shuf? rank shid with
  | none => .next s
  | some h =>
    if h.stage = 2 ∧ h.abort = none ∧ h.recvs.all (·.written) ∧ h.sends.all (·.acked) then
      let epc := ((s.acc? h.acc).map (·.epc)).getD 0
      let t := match s.hubPut rank (planField h.header 0x30 8) h.status with
        | .ok _ t => t
        | .fail c x => s.report h.ctx rank (failedOp c (opcOf 5 0x10) (s.ctx h.ctx) x epc 0 none)
      .next ((h.recvs.filter fun e => e.came == .failed).foldl
        (fun t e => t.collFailure h.ctx rank .decodeFallbackFailed e.tgt (opcOf 5 0x10) epc) (t.shufGone h))
    else .next (s.shufGoes h)

/-! ### Spilling and retries as events (R379) -/

/-- SPILL: a packet for a rank whose endpoint does not take packets now. -/
def execSpill (rank : Nat) (b : PktBody) (s : State) : Out :=
  if (tabGet s.ranks rank).isSome ∧ ((s.rankOf rank).state = 2 ∨ (s.rankOf rank).state = 3) then
    .next (State.spill { s with inbox := s.inbox.erase b } rank b)
  else .next s

/-- Whether a refused packet still has something to do: its shuffle or its collective is open here. -/
def State.stillOpen (s : State) (b : PktBody) : Bool :=
  match b with
  | .shuffle p => (s.shufAt? p.job p.shid p.src).isSome
  | .overprint o => let p := if o.toP then o.p else o.q
                    (s.shufAt? p.job p.shid p.src).isSome
  | .contribution _ job comm k pos .. => s.colls.any fun c => c.job == job && c.comm == comm && c.k == k && c.pos == pos
  | _ => false

/-- RETRY: a sender here keeps a packet that a full spill area refused. -/
def execRetry (b : PktBody) (s : State) : Out :=
  .next (if s.stillOpen b ∧ senderOf b = Config.ownDevice then { s with retries := s.retries ++ [b] } else s)

/-- A packet that was refused is sent again (R379). -/
def State.resend (s : State) (b : PktBody) : State :=
  match b with
  | .shuffle p => s.leavePlain p
  | .overprint o => s.forwardOverprint o []
  | .contribution _ job comm k pos _ _ off _ =>
    match s.colls.find? fun c => c.job == job && c.comm == comm && c.k == k && c.pos == pos with
    | some c => ((s.sendRequests (s.rankOf c.rank).vf ((c.unacked.filter fun e => e.2 == off).map fun e => ⟨e.1, b⟩))).getD s
    | none => s
  | _ => s

/-- RETRY_RESEND: the packet kept longest is sent again. -/
def execRetryResend (s : State) : Out :=
  match s.retries with
  | [] => .next s
  | b :: l => .next (State.resend { s with retries := l } b)

end Sys2Proof.Machine
end

