-- ==== Sys2Proof/Machine/Ranks.lean ====
section
/-! DEFINITION. Machine/Ranks.lean: rank records (R372, R394), residency (R374, R410), tier moves (R375), physical accesses of the hub, the pages that a rank's tables map. -/

namespace Sys2Proof.Machine

/-! ### Physical memory (R393) -/

/-- Whether a range lies wholly in memory of this device. -/
def paRange (pa n : Nat) : Bool := paLocal pa && paLocal (pa + (n - 1)) && (decide (pa < 0x8000000000) == decide (pa + (n - 1) < 0x8000000000))

/-- Blocks of 64 bytes that a range touches. -/
def physBlocks (pa n : Nat) : List Nat := if n = 0 then [] else (List.range ((pa + n - 1) / 64 - pa / 64 + 1)).map (pa / 64 + ·)

/-- A read of the hub's by physical address: what can be corrected is; the bytes of a block that cannot be are free (R305 names no reader there; log 87). -/
def State.physGet (s : State) (pa n : Nat) : List Byte × State :=
  let t := s.correctBlocks (physBlocks pa n)
  if (physBlocks pa n).any t.blockLost then
    let (d, u) := t.draw
    ((s.mem.read pa n).zipIdx.map fun (b, i) => if t.blockLost ((pa + i) / 64) then Config.anyByte d i else b, u)
  else (s.mem.read pa n, t)

/-- Writes bytes where there is memory: none where a block covered in part cannot be corrected; blocks wholly covered become sound (R397, R398). -/
def State.physPut? (s : State) (pa : Nat) (l : List Byte) : Option State :=
  let whole (b : Nat) : Bool := decide (pa ≤ 64 * b) && decide (64 * b + 64 ≤ pa + l.length)
  if paRange pa l.length then
    match s.checkBlocks ((physBlocks pa l.length).filter fun b => !whole b) with
    | some t => some (State.writeMem { t with bad := t.bad.filter fun e => !whole e.1 } (l.zipIdx.map fun (b, i) => (pa + i, b)))
    | none => none
  else none

/-- The same for the hub's own writes: where it can write nothing, nothing changes. -/
def State.physPut (s : State) (pa : Nat) (l : List Byte) : State := (s.physPut? pa l).getD s

/-! ### The pages of a rank -/

/-- Entries of a node that are not zero. -/
def nodeEntries (m : Memory) (node : Nat) : List Nat := ((m.filter fun c => decide (node ≤ c.1) && decide (c.1 < node + 4096)).map fun c => (c.1 - node) / 8).eraseDups

/-- Nodes and leaves that a walk can meet from a node that maps addresses from `va` on. -/
def tableFrom (m : Memory) (rank : Nat) : List (Nat × Nat × Bool × Bool) → Nat → Nat → List Nat × List TlbEntry
  | [], _, _ => ([], [])
  | (shift, width, leafAllowed, tableAllowed) :: below, node, va =>
    let one (i : Nat) : List Nat × List TlbEntry :=
      let e := m.readLE (node + 8 * i) 8
      let base := va + i * 2 ^ shift
      if 2 ^ width ≤ i then ([], [])
      else if pteL e then
        (if leafAllowed && leafOk e shift then ([], [⟨rank, base, 2 ^ shift, bitsOf e 16 40 * 65536, e % 256, node + 8 * i⟩]) else ([], []))
      else if tableAllowed && tableOk e then tableFrom m rank below (bitsOf e 12 44 * 4096) base
      else ([], [])
    let l := (nodeEntries m node).map one
    (node :: l.flatMap (·.1), l.flatMap (·.2))

def State.leaves (s : State) (rank : Nat) : List TlbEntry := (tableFrom s.mem rank walkLevelsBelow (s.rankOf rank).root 0).2
def State.tableNodes (s : State) (rank : Nat) : List Nat := (tableFrom s.mem rank walkLevelsBelow (s.rankOf rank).root 0).1

/-- 64 KiB units of the leaves whose D is set (R327). -/
def State.dirtyLeaves (s : State) (rank : Nat) : List TlbEntry := (s.leaves rank).filter fun e => e.bit bitD
def State.dirtyUnits (s : State) (rank : Nat) : Nat := ((s.dirtyLeaves rank).map fun e => e.size / 65536).sum

/-! ### Rank records (R372, R394) -/

/-- What a record holds; DLQPROD and DLQOVF start at 0, and DLQCONS stands as it was handed over. -/
def rankRecord (l : List Byte) : RankRec :=
  let f := fieldLE l
  { RankRec.blank with
    vk := f 0 2, vf := f 2 2, job := f 2 2, nvk := f 4 4, seed := BitVec.ofNat 64 (f 8 8), root := f 0x10 8, wallow := f 0x18 1, state := f 0x19 1
    dlq := f 0x20 8, dlqcons := f 0x2C 4, qarea := f 0x38 8, park := f 0x40 8, plist := f 0x48 8, spill := f 0x50 8, spillsz := f 0x58 4, parkn := f 0x5C 4
    save := f 0x60 8, commt := f 0x68 8 }

/-- Whether every field of a record is in its range and every reserved byte zero. -/
def recordOk (l : List Byte) : Bool :=
  let r := rankRecord l
  decide (1 ≤ r.nvk) && decide (r.nvk ≤ 65536) && decide (r.wallow ≤ 128) && r.state == 0 && ((l.drop 0x1A).take 6).all (· == 0)
    && r.spill % 65536 == 0 && decide (1 ≤ r.spillsz) && decide (r.parkn ≤ 2 ^ 20) && ((l.drop 0x70).all (· == 0))
    && r.root % 4096 == 0 && paRange r.root 4096

def State.setRkstat (s : State) (n : Nat) : State := s.modHub fun h => { h with rkstat := n }

/-- Pages of this device that a rank's tables map and those of no other known rank. -/
def State.ownPages (s : State) (rank : Nat) : List TlbEntry :=
  let others := (s.ranks.filter fun r => r.1 != rank).flatMap fun r => s.leaves r.1
  (s.leaves rank).filter fun e => !paRemote e.pa && !others.any fun x => decide (x.pa < e.pa + e.size) && decide (e.pa < x.pa + x.size)

/-- The tags of pages become 00: their memory is assigned to a rank, or belongs to none (R237). -/
def State.clearTags (s : State) (l : List TlbEntry) : State :=
  { s with cells := s.cells.filter fun c => !l.any fun e => decide (e.pa ≤ 64 * c.1) && decide (64 * c.1 < e.pa + e.size) }

/-- CREATE takes effect: the record at RKADDR becomes known; a full device is found before a bad record (DEDUCED, log 20). -/
def State.createRank (s : State) : State :=
  let a := s.hub.rkaddr.toNat
  let (l, s) := s.physGet a 256
  let r := rankRecord l
  if 1024 ≤ s.ranks.length then s.setRkstat 2
  else if a % 256 ≠ 0 ∨ ¬ paRange a 256 ∨ ¬ recordOk l ∨ 192 ≤ r.vf ∨ ¬ (s.vf r.vf).enable ∨ (tabGet s.ranks (rankKeyOf r.vf r.vk)).isSome then s.setRkstat 3
  else
    let t : State := { s with ranks := tabSet s.ranks (rankKeyOf r.vf r.vk) r }
    (t.clearTags (t.ownPages (rankKeyOf r.vf r.vk))).setRkstat 0

/-- A command written to RKCMD is the hub's work, and RKSTAT is BUSY, until it takes effect (R394). The host's write and the hub's work are the same event at its two times; a second command while the hub works does nothing (DESIGN CHOICE, log 20). -/
def State.rankCommand (s : State) (v : W64) (work : State → State) : State :=
  match s.hub.rkcmd with
  | none => s.modHub fun h => { h with rkcmd := some v, rkstat := 1 }
  | some x => if x = v then work (s.modHub fun h => { h with rkcmd := none }) else s

/-- RANK_CREATE: the host writes CREATE to RKCMD; then the hub carries it out. -/
def execRankCreate (s : State) : Out := .next (if s.hub.devstat ≠ 7 then s else s.rankCommand 1 State.createRank)

/-- Contexts of a rank that live: running, or evicted. -/
def State.liveOf (s : State) (rank : Nat) : List Nat := (s.ctxs.filter fun e => e.2.rank == rank && e.2.alive).map (·.1)

/-- Operations of a rank that are outstanding. -/
def State.rankBusy (s : State) (rank : Nat) : Bool :=
  (s.accs.any fun a => a.rank == rank && a.runsOn) || (s.cmds.any fun c => c.rank == rank) || s.colls.any (·.rank == rank) || s.shufs.any (·.rank == rank)

/-- Whether a rank is in use so that it cannot be forgotten (R394). -/
def State.rankInUse (s : State) (rank : Nat) : Bool :=
  match tabGet s.ranks rank with
  | none => true
  | some r =>
    s.liveOf rank != [] || s.colls.any (·.rank == rank) || s.shufs.any (·.rank == rank) || s.wins.any (·.rank == rank) || r.state == 3
      || ((s.vf r.vf).queues.any fun q => q.2.enabled && q.2.home == r.vk)

/-- FORGET takes effect: the record and the endpoint are freed, and a cut that was asked of the rank is void; no page is freed, but what only the rank mapped is assigned to no rank and has no tag left (R237). -/
def State.forgetRank (s : State) (rank : Nat) : State :=
  if s.rankInUse rank then s.setRkstat 4
  else
    let left := tabDel s.ranks rank
    State.setRkstat { s.clearTags (s.ownPages rank) with
      ranks := left, cuts := s.cuts.filter fun c => c.rank != rank
      collAborts := s.collAborts.filter fun x => left.any fun e => e.2.job == x.1 } 0

/-- RANK_FORGET: the host writes FORGET to RKCMD; then the hub carries it out. -/
def execRankForget (value : W64) (s : State) : Out :=
  .next (if s.hub.devstat = 0xE ∨ bitsOf value.toNat 0 2 ≠ 2 then s
    else s.rankCommand value fun t => t.forgetRank (rankKeyOf (bitsOf value.toNat 32 16) (bitsOf value.toNat 16 16)))

/-! ### Residency (R374, R410) -/

/-- Ranks that hold a place among the 64, and accumulators. -/
def State.residents (s : State) : List Nat := (s.ranks.filter fun e => e.2.state == 1 || e.2.state == 3).map (·.1)

def State.canReside (s : State) (rank : Nat) : Bool :=
  let l := s.residents.filter (· != rank)
  decide (l.length < 64) && decide ((l.map fun k => (s.rankOf k).wallow).sum + (s.rankOf rank).wallow ≤ 128)

/-- A rank's position in a communicator, and the members, by its communicator table (R341). -/
def State.memberOf (s : State) (rank comm : Nat) : Option (Nat × List Nat) :=
  let r := s.rankOf rank
  let among (l : List Nat) : Option (Nat × List Nat) := (l.findIdx? (· == r.vk)).map fun p => (p, l)
  if comm = 0 then among (List.range r.nvk)
  else
    match s.hubGet rank (r.commt + 16 * comm) 16 with
    | .fail _ _ => none
    | .ok e t =>
      if fieldLE e 0 8 = 0 ∨ fieldLE e 8 8 = 0 ∨ 65536 < fieldLE e 8 8 then none
      else
        match t.hubGet rank (fieldLE e 0 8) (2 * fieldLE e 8 8) with
        | .fail _ _ => none
        | .ok b _ => among (idsOf b)

/-- Collectives and shuffles of which a rank is a member and of which its endpoint knows, though it has not issued its own yet: communicator, its position, the members. -/
def State.openOf (s : State) (rank : Nat) : List (Nat × Nat × List Nat) :=
  let r := s.rankOf rank
  let among (comm : Nat) (l : List Nat) : Option (Nat × Nat × List Nat) := (l.findIdx? (· == r.vk)).map fun p => (comm, p, l)
  let open1 := (s.colls.filter fun c => c.job == r.job).filterMap fun c => among c.comm c.members
  let open2 := (s.shufs.filter fun h => h.job == r.job).filterMap fun h => among h.comm h.members
  let open3 := ((s.atHand.filter fun x => x.job == r.job).map (·.comm)).eraseDups.filterMap fun k => (s.memberOf rank k).map fun e => (k, e.1, e.2)
  (open1 ++ open2 ++ open3).eraseDups

/-- A notice of a rank's endpoint to the peers of some of its open collectives and shuffles. -/
def State.tellPeers (s : State) (rank : Nat) (mk : Nat → Nat → Nat → PktBody) (l : List (Nat × Nat × List Nat)) : State :=
  let job := (s.rankOf rank).job
  l.foldl (fun s e => let t := (s.sendAll job e.2.2 (mk job e.1 e.2.1)).1; { t with inbox := t.inbox ++ [mk job e.1 e.2.1] }) s

/-- A notice of a rank's endpoint to the peers of its open collectives and shuffles (R353, R379, R387). -/
def State.notify (s : State) (rank : Nat) (mk : Nat → Nat → Nat → PktBody) : State := s.tellPeers rank mk (s.openOf rank)

/-- A packet of a collective has arrived: members here that are descheduled or migrating tell their peers to hold. -/
def State.holdFor (s : State) (job comm : Nat) : State :=
  (s.ranks.filter fun r => r.2.job == job && (r.2.state == 2 || r.2.state == 3)).foldl (fun t r =>
    match t.memberOf r.1 comm with
    | some e => t.tellPeers r.1 .hold [(comm, e.1, e.2)]
    | none => t) s

/-- A rank that is resident again takes what waits in its spill area, then tells its peers. -/
def State.rejoin (s : State) (rank : Nat) : State := (s.unspill rank).notify rank .resume

/-- MAKE_RESIDENT. -/
def execMakeResident (rank : Nat) (s : State) : Out :=
  match tabGet s.ranks rank with
  | none => .next s
  | some r =>
    if (r.state = 0 ∨ r.state = 2) ∧ s.canReside rank then .next ((s.modRank rank fun r => { r with state := 1 }).rejoin rank) else .next s

/-- Whether nothing keeps a rank resident. -/
def State.rankIdle (s : State) (rank : Nat) : Bool :=
  (s.rankOf rank).state == 1 && !s.rankBusy rank && !(s.ctxs.any fun e => e.2.rank == rank && s.occupies e.1) && !(s.cuts.any fun c => c.rank == rank)

/-! ### Tier moves (R375) -/

/-- Where a page goes: the addresses and the cells of it. -/
structure PageMove where
  src : Nat
  dst : Nat
  size : Nat

def PageMove.pa (m : PageMove) (a : Nat) : Nat := if m.src ≤ a ∧ a < m.src + m.size then m.dst + (a - m.src) else a
def PageMove.cell (m : PageMove) (c : Nat) : Nat := m.pa (64 * c) / 64

/-- A table keyed by cells or blocks of 64 bytes, moved; what stood at the destination goes. -/
def PageMove.tab {α : Type} (m : PageMove) (t : Tab α) : Tab α :=
  (t.filter fun e => !(decide (m.dst ≤ 64 * e.1) && decide (64 * e.1 < m.dst + m.size))).foldl (fun r e => tabSet r (m.cell e.1) e.2) []

def PageMove.part (m : PageMove) (p : Part) : Part :=
  { p with pa := m.pa p.pa, st := match p.st with | .parked c => .parked (m.cell c) | x => x }

def PageMove.acc (m : PageMove) (a : Acc) : Acc := { a with parts := a.parts.map m.part, shut := a.shut.map m.cell }

/-- A request of another device that waits to be served is served where the page is then. -/
def PageMove.body (m : PageMove) (b : PktBody) : PktBody :=
  match b with
  | .read dev tag pa en => .read dev tag (m.pa pa) en
  | .write dev tag many pa en l => .write dev tag many (m.pa pa) en l
  | .amo dev tag op wide pa x => .amo dev tag op wide (m.pa pa) x
  | .cas dev tag wide pa x y => .cas dev tag wide (m.pa pa) x y
  | b => b

/-- Everything that names a physical address of the page follows it; what ECC corrects as it is read is corrected (R397, R398); lines of it in L1 are out of reach. -/
def State.movePage (s : State) (m : PageMove) : State :=
  let inSrc (a : Nat) : Bool := decide (m.src ≤ a) && decide (a < m.src + m.size)
  let inDst (a : Nat) : Bool := decide (m.dst ≤ a) && decide (a < m.dst + m.size)
  let moved := (s.mem.filter fun c => inSrc c.1).map fun c => (m.pa c.1, c.2)
  let s := s.correctBlocks ((s.bad.map (·.1)).filter fun b => inSrc (64 * b))
  { s with
    mem := Memory.writeCells (s.mem.filter fun c => !inDst c.1) moved
    bad := m.tab s.bad
    cells := m.tab (s.cells.map fun e => (e.1, { e.2 with first := (e.2.first.1, e.2.first.2.1, e.2.first.2.2.map m.cell) }))
    accs := s.accs.map m.acc, withdrawn := s.withdrawn.map m.acc
    cmds := s.cmds.map fun c => { c with parked := c.parked.map (fun e => (m.cell e.1, e.2)), shut := c.shut.map m.cell }
    watches := s.watches.map fun w => { w with pa := m.pa w.pa }
    owned := s.owned.map fun e => (m.pa e.1, e.2)
    inbox := s.inbox.map m.body
    remoteReads := s.remoteReads.map fun w =>
      { w with pa := m.pa w.pa, got := w.got.map (fun e => (m.pa e.1, e.2)), fail := w.fail.map (fun e => (m.pa e.1, e.2)), cells := w.cells.map m.cell }
    wins := s.wins.map fun w => { w with pages := w.pages.map fun p => (p.1, m.pa p.2.1, p.2.2) }
    ranks := s.ranks.map fun r => (r.1, { r.2 with sheet := r.2.sheet.map fun e => { e with pieces := e.pieces.map fun p => (m.pa p.1, p.2) } })
    ctxs := s.ctxs.map fun e => (e.1, { e.2 with eval := e.2.eval.map fun v => { v with cell := m.cell v.cell, chain := v.chain.map m.cell } })
    cores := s.cores.map fun e => (e.1, { e.2 with l1 := e.2.l1.filter fun l => !inSrc (128 * l.1) && !inDst (128 * l.1) }) }

/-- The tier of a local address: HBM4E or not. -/
def inHbm (pa : Nat) : Bool := decide (pa < 0x8000000000)

/-- TIER of a leaf. -/
def State.tierOf (s : State) (e : TlbEntry) : Nat := bitsOf (s.mem.readLE e.entry 8) 8 2

/-- Whether the management processor may move a page to a place in the other tier: free of any page and any table. A page of TIER 1 never leaves HBM4E; one of TIER 2 does not come back to it while its rank is descheduled. A page mapped twice stays (DEDUCED, log 20). -/
def State.tierMoveOk (s : State) (e : TlbEntry) (pa : Nat) : Bool :=
  let all := s.ranks.flatMap fun r => s.leaves r.1
  let meets (a n b k : Nat) : Bool := decide (a < b + k) && decide (b < a + n)
  pa % e.size == 0 && paRange e.pa e.size && paRange pa e.size && inHbm e.pa != inHbm pa
    && !(inHbm e.pa && s.tierOf e == 1) && !(inHbm pa && s.tierOf e == 2 && (s.rankOf e.rank).state == 2)
    && (all.filter fun x => meets x.pa x.size e.pa e.size).length == 1 && !(all.any fun x => meets x.pa x.size pa e.size)
    && !((s.ranks.flatMap fun r => s.tableNodes r.1).any fun n => meets n 4096 pa e.size || meets n 4096 e.pa e.size)

/-- A page moves where it may: the leaf names its new place, and its translations go. -/
def State.moveTier (s : State) (rank : Nat) (e : TlbEntry) (pa : Nat) : State :=
  if s.tierMoveOk e pa then
    let old := s.mem.readLE e.entry 8
    let new := old % 2 ^ 16 + pa / 65536 * 2 ^ 16 + old / 2 ^ 56 * 2 ^ 56
    let s := s.movePage ⟨e.pa, pa, e.size⟩
    { s with mem := s.mem.write e.entry (leBytes 8 new) }.tlbDrop rank e.va e.size
  else s

/-- TIER_MOVE. -/
def execTierMove (rank va pa : Nat) (s : State) : Out :=
  match s.walk rank va with
  | none => .next s
  | some e => .next (s.moveTier rank e pa)

/-- The first place in LPDDR-6 where a page may go; which one is the management processor's choice (DESIGN CHOICE, log 20). -/
def State.lowPlace? (s : State) (e : TlbEntry) : Option Nat :=
  let taken := (s.ranks.flatMap fun r => (s.leaves r.1).map (·.size)) ++ (s.ranks.flatMap fun r => (s.tableNodes r.1).map fun _ => 4096)
  ((List.range ((taken.map fun n => n / e.size + 2).sum + 1)).find? fun k => s.tierMoveOk e (0x10000000000 + k * e.size)).map fun k => 0x10000000000 + k * e.size

/-- Pages whose TIER is 2 go to LPDDR-6 when their rank is descheduled. -/
def State.demote (s : State) (rank : Nat) : State :=
  ((s.leaves rank).filter fun e => inHbm e.pa && s.tierOf e == 2).foldl (fun t e =>
    match t.lowPlace? e with
    | some pa => t.moveTier rank e pa
    | none => t) s

/-- DESCHEDULE. -/
def execDeschedule (rank : Nat) (s : State) : Out :=
  if s.rankIdle rank then .next (((s.modRank rank fun r => { r with state := 2 }).demote rank).notify rank .hold) else .next s

end Sys2Proof.Machine
end

