-- ==== Sys2Proof/Machine/Carry.lean ====
section
/-! DEFINITION. Machine/Carry.lean: what a rank takes with it (R205, R329, R373, R381) in a hold segment or to another device, and how it is put in place there. -/

namespace Sys2Proof.Machine

/-! ### Cells named apart from their places -/

def Ctx.mapCells (c : Ctx) (f : Nat → Nat) : Ctx := { c with eval := c.eval.map fun e => { e with cell := f e.cell, chain := e.chain.map f } }
def Cell.mapChain (c : Cell) (f : Nat → Nat) : Cell := { c with first := (c.first.1, c.first.2.1, c.first.2.2.map f) }

/-- A cell's number in its rank's address space, in place of that of its physical block. -/
def State.cellVirtual (s : State) (c : Nat) : Nat :=
  match s.cell? c with
  | some x => x.va / 64
  | none => c

/-- Where a rank's tables now put a cell that is named so. -/
def State.cellPlace (s : State) (rank v : Nat) : Nat :=
  match s.walk rank (64 * v) with
  | some e => e.paOf (64 * v) / 64
  | none => v

/-! ### What a rank takes with it -/

/-- A page of a rank block: its 64 KiB units with their tags. -/
def State.heldPages (s : State) (e : TlbEntry) : List HeldPage :=
  (List.range (e.size / 65536)).map fun i =>
    let pa := e.pa + 65536 * i
    ⟨e.va + 65536 * i,
      (s.cells.filter fun c => decide (pa ≤ 64 * c.1) && decide (64 * c.1 < pa + 65536)).map fun c => (c.1 - pa / 64, c.2.mapChain s.cellVirtual),
      s.mem.read pa 65536,
      (s.bad.filter fun b => !b.2 && decide (pa ≤ 64 * b.1) && decide (64 * b.1 < pa + 65536)).map fun b => b.1 - pa / 64⟩

/-- What ECC corrects as pages are read is corrected (R398). -/
def State.correctPages (s : State) (l : List TlbEntry) : State :=
  s.correctBlocks ((s.bad.map (·.1)).filter fun b => l.any fun e => decide (e.pa ≤ 64 * b) && decide (64 * b < e.pa + e.size))

/-- What a rank block carries of a rank, with some of its pages. The contributions, aborts and notices of its job are its endpoint's state of open collectives. -/
def State.rankBlock (s : State) (rank : Nat) (pages : List TlbEntry) : RankBlock :=
  let r := s.rankOf rank
  { rank := rank, record := r, groups := s.groups.filter fun g => g.rank == rank, wins := s.wins.filter fun w => w.rank == rank
    ctxs := (s.ctxs.filter fun e => e.2.rank == rank).map fun e => (e.1, e.2.mapCells s.cellVirtual)
    withdrawn := s.withdrawn.filter fun a => a.rank == rank
    launches := s.launches.filter fun l => l.rank == rank, pages := (pages.filter fun e => !paRemote e.pa).flatMap s.heldPages
    mail := (s.vf r.vf).mwait.filter fun b => fieldLE b 6 2 == r.vk
    contribs := s.contribs.filter fun x => x.job == r.job, aborts := s.collAborts.filter fun x => x.1 == r.job
    holds := s.holds.filter fun x => x.1 == r.job }

/-- What a rank takes with it is here no more. -/
def State.removeRankWork (s : State) (rank : Nat) : State :=
  let gone := (s.launches.filter fun l => l.rank == rank).map (·.id)
  { s with
    ctxs := s.ctxs.filter fun e => e.2.rank != rank
    withdrawn := s.withdrawn.filter fun a => a.rank != rank
    launches := s.launches.filter fun l => l.rank != rank
    wins := s.wins.filter fun w => w.rank != rank
    groups := s.groups.filter fun g => g.rank != rank
    vfs := s.vfs.map fun e => (e.1, { e.2 with queues := e.2.queues.map fun q => (q.1, ({ q.2 with running := q.2.running.filter fun id => !gone.contains id }).settled) }) }

/-- The cells that a rank develops fail for whatever else waits at them, a read of another device among it (R243, R246, R408). -/
def State.failCells (s : State) (rank : Nat) : State :=
  ((s.cells.filter fun e => e.2.rank == rank && e.2.tag == .developing).map (·.1)).foldl State.cellFailed s

/-! ### Numbers of another device -/

def Held.shift (n : Nat) : Held → Held
  | .read a => .read (a + n)
  | .barrier g phase => .barrier g phase
  | .released => .released
  | .waitm b w => .waitm b (w.map (· + n))
  | .opening => .opening
  | .taker k => .taker k
  | .sentinel => .sentinel
  | .accepted => .accepted

def Report.shift (n : Nat) (r : Report) : Report := { r with cmd := r.cmd.map (· + n) }
def SaveSet.shift (n : Nat) (v : SaveSet) : SaveSet := { v with held := v.held.map fun e => (e.1, e.2.shift n) }

def FwTask.shift (n : Nat) : FwTask → FwTask
  | .async l p => .async (l.map fun e => (e.1.shift n, e.2)) p
  | .stream o k m => .stream (o + n) k m
  | .terminate d => .terminate d
  | .faultRecord => .faultRecord
  | .awaitHost q a => .awaitHost q a
  | .matrixSwitch => .matrixSwitch
  | .preempt => .preempt
  | .ret => .ret

def LaunchSrc.shift (n : Nat) : LaunchSrc → LaunchSrc
  | .queue v q => .queue v q
  | .child k p rep => .child (k + n) (p.map (· + n)) (rep.shift n)

/-- A context of another device under numbers of this one, n higher. -/
def Ctx.shift (n : Nat) (c : Ctx) : Ctx :=
  let up (l : Counter) : Counter := l.map fun e => (e.1 + n, e.2)
  { c with
    launch := c.launch.map (· + n), ld := up c.ld, st := up c.st, cp := up c.cp, tl := up c.tl
    spools := c.spools.map fun e => (e.1, { e.2 with mark := e.2.mark.map fun m => (m.1, m.2 + n) })
    reports := c.reports.map (Report.shift n), waiting := c.waiting.map (Report.shift n)
    held := c.held.map fun e => (e.1, e.2.shift n), saveU := c.saveU.map (SaveSet.shift n), saveS := c.saveS.map (SaveSet.shift n)
    yielded := c.yielded.map (· + n), fw := c.fw.map (FwTask.shift n) }

def Group.shift (n : Nat) (g : Group) : Group :=
  let up (l : List Nat) : List Nat := l.map (· + n)
  { g with members := up g.members, next := up g.next, required := g.required.map up, arrived := up g.arrived, nextArrived := up g.nextArrived }

def Cell.shift (n : Nat) (c : Cell) : Cell :=
  { c with eval := c.eval.map (· + n), readers := c.readers.map (· + n), cmds := c.cmds.map (· + n), first := (c.first.1 + n, c.first.2), inPlace := c.inPlace.map (· + n) }

/-- The highest number that a rank block uses. -/
def RankBlock.top (b : RankBlock) : Nat :=
  (b.ctxs.map (·.1) ++ b.launches.map (·.id) ++ b.withdrawn.map (·.id) ++ b.record.parked.map (·.id) ++ b.wins.map (·.opener.2)).foldl max 0

/-- A rank block of another device under numbers of this one. -/
def RankBlock.shift (n : Nat) (b : RankBlock) : RankBlock :=
  { b with
    record := { b.record with
      queues := b.record.queues.map fun e => (e.1, { e.2 with takers := e.2.takers.map (· + n), taking := e.2.taking.map (· + n) })
      parked := b.record.parked.map fun r => { r with id := r.id + n, src := r.src.shift n } }
    groups := b.groups.map (Group.shift n)
    wins := b.wins.map fun w => { w with opener := (w.opener.1 + n, w.opener.2 + n) }
    ctxs := b.ctxs.map fun e => (e.1 + n, e.2.shift n)
    withdrawn := b.withdrawn.map fun a => { a with id := a.id + n, ctx := a.ctx + n, first := a.first + n }
    launches := b.launches.map fun l => { l with id := l.id + n, ctxs := l.ctxs.map (· + n), src := l.src.shift n }
    pages := b.pages.map fun p => { p with tags := p.tags.map fun e => (e.1, e.2.shift n) } }

/-- A host's launch that has come from another device: no queue of this one waits for it. -/
def LaunchSrc.detached : LaunchSrc → LaunchSrc
  | .queue .. => .child 0 none ⟨0, 0, 0, 0, 0, 0, 0, 0, 0, 0, none⟩
  | .child k p rep => .child k p rep

/-- A rank block as that of the rank that it becomes here, under a virtual function. -/
def RankBlock.asRank (b : RankBlock) (rank vf : Nat) : RankBlock :=
  { b with
    rank := rank
    record := { b.record with vf := vf, parked := b.record.parked.map fun r => { r with rank := rank, vf := vf } }
    groups := b.groups.map fun g => { g with rank := rank }
    wins := b.wins.map fun w => { w with rank := rank }
    ctxs := b.ctxs.map fun e => (e.1, { e.2 with rank := rank })
    withdrawn := b.withdrawn.map fun a => { a with rank := rank }
    launches := b.launches.map fun l => { l with rank := rank, vf := vf, src := l.src.detached }
    pages := b.pages.map fun p => { p with tags := p.tags.map fun e => (e.1, { e.2 with rank := rank }) } }

/-! ### Putting it in place -/

/-- A page goes back to where its rank maps it, with its tags; a block that could not be corrected is one still (R398). -/
def State.restorePage (s : State) (rank : Nat) (p : HeldPage) : State :=
  match s.walk rank p.va with
  | none => s
  | some e =>
    let pa := e.paOf p.va
    let s := s.physPut pa p.bytes
    let rest := s.cells.filter fun c => !(decide (pa ≤ 64 * c.1) && decide (64 * c.1 < pa + 65536))
    { s with
      bad := p.lost.foldl (fun t b => tabSet t (b + pa / 64) false) s.bad
      cells := p.tags.foldl (fun t c => tabSet t (c.1 + pa / 64) (c.2.mapChain (s.cellPlace rank))) rest }

/-- Where a byte of a rank lies by its tables now, else where it lay. -/
def State.placeNow (s : State) (rank va pa : Nat) : Nat := ((s.walk rank va).map (·.paOf va)).getD pa

/-- The groups, windows, withdrawn loads, launches and contexts of a rank block take their places, at the addresses that its rank's tables now name (R205, R310). -/
def State.placeWork (s : State) (b : RankBlock) : State :=
  let place := s.placeNow b.rank
  { s with
    groups := s.groups ++ b.groups
    wins := s.wins ++ b.wins.map fun w => { w with pages := w.pages.map fun p => (p.1, place p.1 p.2.1, p.2.2) }
    withdrawn := s.withdrawn ++ b.withdrawn.map fun a => { a with parts := a.parts.map fun p => { p with pa := place p.va p.pa } }
    launches := s.launches ++ b.launches
    ctxs := b.ctxs.foldl (fun t e => tabSet t e.1 (e.2.mapCells (s.cellPlace b.rank))) s.ctxs }

/-- The guarded pieces of a rank's sheet lie where its tables now put them. -/
def State.placeSheet (s : State) (rank : Nat) : State :=
  s.modRank rank fun r => { r with sheet := r.sheet.map fun e => { e with pieces := s.blockPieces rank e.addr (e.pieces.map (·.2)).sum } }

/-- An endpoint's state of its job's open collectives joins what this device has of them. -/
def State.takeEndpoint (s : State) (b : RankBlock) : State :=
  { s with
    contribs := b.contribs.foldl mergePiece s.contribs
    collAborts := s.collAborts ++ b.aborts.filter fun x => !s.collAborts.contains x
    holds := s.holds ++ b.holds.filter fun x => !s.holds.contains x }

end Sys2Proof.Machine
end

