-- ==== Sys2Proof/Machine/Tenancy.lean ====
section
/-! DEFINITION. Machine/Tenancy.lean: consistent cuts (R319, R320), partitions and time slices (R321, R324), the reset of a virtual function (R325), Last Collection (R326 to R328), hold and restoration (R329), migration (R376 to R378). -/

namespace Sys2Proof.Machine

/-! ### Partitions (R321) -/

/-- Whether a cluster holds any context or is fused. -/
def State.clusterBusy (s : State) (cl : Nat) : Bool :=
  (tabGet s.fused cl).isSome || s.ctxs.any fun e => s.occupies e.1 && (match e.2.place with | some (c, _) => clusterOf c == cl | none => false)

/-- CLPART: clusters move to the partitions named, but for those in use. -/
def execClpart (value : W64) (s : State) : Out :=
  let put (x : W64) (cl : Nat) : W64 := if s.clusterBusy cl then x else putBits x (4 * cl) 4 (bitsOf value.toNat (4 * cl) 4)
  .next (if s.hub.devstat = 0xE then s else s.modHub fun h => { h with clpart := (List.range 16).foldl put h.clpart })

/-! ### Consistent cuts (R319, R320) -/

def State.cutOf? (s : State) (rank : Nat) : Option Cut := s.cuts.find? fun c => c.rank == rank

/-- Whether nothing of a rank is under way that a cut waits for: a cell whose evaluator has still to start or whose reader is suspended in place (R251), an operation of a context that has exited (R317, R354). -/
def State.rankStill (s : State) (rank : Nat) : Bool :=
  !s.rankBusy rank && !(s.cells.any fun e => e.2.rank == rank && ((e.2.tag == .developing && !e.2.placed) || e.2.inPlace.isSome))

/-- Whether every live context of the rank is parked, evicted where the cut parks it, with nothing else under way. -/
def State.allParked (s : State) (rank : Nat) : Bool :=
  s.rankStill rank && (s.liveOf rank).all fun k => (s.ctx k).phase == .evicted && s.parkedByCut k

/-- The cut count: the maximum of what the parked contexts offer. -/
def State.cutMax (s : State) (rank : Nat) : Nat := ((s.liveOf rank).map fun k => (s.ctx k).cutcount.toNat).foldl max 0

/-- Whether a cut is complete: its count is formed and every context has reached it. -/
def State.cutDone (s : State) (c : Cut) : Bool := c.target.isSome && s.allParked c.rank

/-- The cut of a rank that is being made is over; one that waits behind it begins. -/
def State.dropCut (s : State) (rank : Nat) : State := { s with cuts := s.cuts.eraseP fun c => c.rank == rank }

/-- The cut count of a rank's cut is formed. -/
def State.formCut (s : State) (rank : Nat) : State :=
  { s with cuts := s.cuts.modify (s.cuts.findIdx fun c => c.rank == rank) fun c => { c with target := some (s.cutMax rank) } }

/-- CONSISTENT_CUT: the hypervisor's request for a rank that is not being cut; then, as contexts park, the count T; a hypervisor's cut is over once complete (DEDUCED, log 21). -/
def execConsistentCut (rank : Nat) (s : State) : Out :=
  match s.cutOf? rank with
  | none => .next (if (tabGet s.ranks rank).isSome then { s with cuts := s.cuts ++ [⟨rank, .hypervisor, none⟩] } else s)
  | some c =>
    if s.allParked rank then
      match c.target with
      | none => .next (s.formCut rank)
      | some _ => .next (if c.why = .hypervisor then s.dropCut rank else s)
    else .next s

/-! ### Migration (R376 to R378) -/

/-- The end of a migration order: its status word, a record for the hypervisor, and, but for DONE, the rank as it was. -/
def State.endMigration (s : State) (order rank : Nat) (status : Nat) : State :=
  let (l, s) := s.physGet order 32
  let s := s.physPut (fieldLE l 8 8) (leBytes 8 status)
  s.hvInterrupt 8 (fieldLE l 2 2) (rank % 65536) status

/-- A migration that fails: the rank resumes here. -/
def State.failMigration (s : State) (order rank was status : Nat) : State :=
  let moved := (s.rankOf rank).state == 3
  let s := (s.dropCut rank).modRank rank fun r => { r with stopped := false, state := if r.state = 3 then was else r.state }
  ((if moved && was == 1 then s.rejoin rank else s)).endMigration order rank status

/-- CUT_ABANDON: parked contexts resume, and the requester learns of it; a hold's cut is ended by R328. -/
def execCutAbandon (rank : Nat) (s : State) : Out :=
  match s.cutOf? rank with
  | none => .next s
  | some c =>
    if s.cutDone c then .next s
    else
      match c.why with
      | .migration order was => .next (s.failMigration order rank was 3)
      | .hold _ => .next (s.dropCut rank)
      | .hypervisor => .next ((s.dropCut rank).hvInterrupt 7 (s.rankOf rank).vf (rank % 65536) (rank % 65536))

/-- Whether an order is well-formed (R376). -/
def orderOk (l : List Byte) : Bool := decide (fieldLE l 6 1 < 2) && fieldLE l 7 1 == 0 && ((l.drop 0x10).take 16).all (· == 0)

/-- Every other device that the routing table names learns where a rank lives now (R377). -/
def State.tellMaps (s : State) (vf vk dev : Nat) : State :=
  s.routes.foldl (fun t e => (t.send ⟨e.1, .rankAt vf vk dev⟩).getD t) s

/-- The packets that carry a rank's state, 63 flits of it each (R338): offset and bytes. -/
def migrantPieces (l : List Byte) : List (Nat × List Byte) := (List.range (max 1 ((l.length + 2015) / 2016))).map fun i => (2016 * i, (l.drop (2016 * i)).take 2016)

/-- Sends a rank's state to a device. -/
def State.sendRank (s : State) (rank dev dvf : Nat) (compress : Bool) : State :=
  let r := s.rankOf rank
  let s := s.correctPages (s.leaves rank)
  let l := rankBytes (s.rankBlock rank (s.leaves rank))
  (migrantPieces l).foldl (fun t x => (t.send ⟨dev, .migrant r.vf r.vk dvf compress l.length x.1 x.2⟩).getD t) s

/-- The commit (R377): the rank's state, with all its pages and their tags, goes to the destination; every location map names it; the rank is forgotten here, and what comes for it is forwarded (R379). Another rank's or device's read that waits at a cell of it fails as at a failed development (DESIGN CHOICE, log 75). -/
def State.commitMigration (s : State) (order rank dev : Nat) : State :=
  let r := s.rankOf rank
  let (l, s) := s.physGet order 32
  let s := ((s.sendRank rank dev (fieldLE l 2 2) ((fieldLE l 6 1).testBit 0)).failCells rank).removeRankWork rank
  let s := s.modVf r.vf fun v => { v with mwait := v.mwait.filter fun b => fieldLE b 6 2 != r.vk }
  let s : State := { s with
    cells := s.cells.filter fun e => e.2.rank != rank
    ranks := tabDel s.ranks rank
    located := tabSet s.located (rankKeyOf r.job r.vk) dev
    moved := s.moved ++ [rankKeyOf r.job r.vk] }
  (State.physPut { s.tellMaps r.job r.vk dev with cuts := s.cuts.filter fun c => c.rank != rank } (fieldLE l 8 8) (leBytes 8 0)).hvInterrupt 8 (fieldLE l 2 2) r.vk 0

/-- MIGRATION: the order is taken and the rank cut; then it is migrating and its peers hold; then the transfer ends as the destination and the link allow. The flags say: its identity verified, it can make the rank known, the link carried everything. This device itself is no destination. -/
def execMigration (order : Nat) (attested accepted linkOk : Bool) (s : State) : Out :=
  if s.hub.devstat = 0xE then .next s
  else
    let (l, s) := s.physGet order 32
    match s.cuts.find? fun c => match c.why with | .migration o _ => o == order | _ => false with
    | none =>
      match s.ranks.find? fun e => e.2.vk == fieldLE l 0 2 with
      | none => .next (s.endMigration order (fieldLE l 0 2) 5)
      | some (rank, r) =>
        if ¬ orderOk l then .next (s.endMigration order rank 5)
        else if (s.cutOf? rank).isSome then .next s
        else .next { s.modRank rank fun r => { r with stopped := true } with cuts := s.cuts ++ [⟨rank, .migration order r.state, none⟩] }
    | some c =>
      let was := match c.why with | .migration _ w => w | _ => 0
      if ¬ s.cutDone c then .next s
      else if (s.rankOf c.rank).state ≠ 3 then .next ((s.modRank c.rank fun r => { r with state := 3 }).notify c.rank .hold)
      else if ¬ attested then .next (s.failMigration order c.rank was 1)
      else if ¬ accepted then .next (s.failMigration order c.rank was 2)
      else if ¬ linkOk ∨ (s.portTo (fieldLE l 4 2)).isNone ∨ fieldLE l 4 2 = Config.ownDevice then .next (s.failMigration order c.rank was 4)
      else .next (s.commitMigration order c.rank (fieldLE l 4 2))

/-! ### The destination of a migration (R377, R378, R381) -/

/-- What waits under a firmware decompression record: a cell that a read, or a write, develops first. -/
def packedCell (rank va : Nat) (l : List Byte) : Cell :=
  { tag := .latent, rank := rank, va := va, eval := none, placed := false, readers := [], cmds := [], first := (0, 0, []), inPlace := none, vacated := none, packed := some l }

/-- A page that has come compressed: each of its cells is LATENT under its record. -/
def State.packPage (s : State) (rank : Nat) (p : HeldPage) : State :=
  match s.walk rank p.va with
  | none => s
  | some e =>
    let pa := e.paOf p.va
    let (n, s) := s.draw
    let s := s.physPut pa ((List.range 65536).map fun i => Config.anyByte n (pa + i))
    { s with cells := (List.range 1024).foldl (fun t i => tabSet t (pa / 64 + i) (packedCell rank (p.va + 64 * i) ((p.bytes.drop (64 * i)).take 64))) s.cells }

/-- Whether a page of a rank travels compressed: its leaf has LC set and its cells are all VALUE. -/
def State.packs (s : State) (rank : Nat) (p : HeldPage) : Bool :=
  p.tags.isEmpty && p.lost.isEmpty && (match s.walk rank p.va with | some e => e.bit bitLC | none => false)

/-- An interrupt record of a migrated rank, for its new virtual function (R381). -/
def remail (vf gen : Nat) (b : List Byte) : List Byte := b.take 2 ++ leBytes 2 gen ++ leBytes 2 vf ++ b.drop 6

/-- A rank arrives: its record, its pages at the places that its tables here name, its windows, groups, launches and evicted contexts under numbers of this device, its endpoint's state, its interrupt records; it is resident when a place is free, and its endpoint then sends RESUME. A destination that cannot make it known has answered so before (CAPACITY, R376). -/
def State.installRank (s : State) (dvf : Nat) (compress : Bool) (b : RankBlock) : State :=
  let rank := rankKeyOf dvf b.record.vk
  if 192 ≤ dvf ∨ ¬ (s.vf dvf).enable ∨ 1024 ≤ s.ranks.length ∨ (tabGet s.ranks rank).isSome then s
  else
    let at' := rankKeyOf b.record.job b.record.vk
    let c := (b.shift s.nextId).asRank rank dvf
    let s : State := { s with
      nextId := s.nextId + b.top + 1
      ranks := tabSet s.ranks rank { c.record with state := 0, stopped := false }, located := tabDel s.located at', moved := s.moved.filter (· != at') }
    let s := c.pages.foldl (fun t p => if compress && t.packs rank p then t.packPage rank p else t.restorePage rank p) s
    let s := ((s.placeWork c).placeSheet rank).takeEndpoint c
    let s := s.modVf dvf fun v => { v with mwait := v.mwait ++ b.mail.map (remail dvf v.gen) }
    if s.canReside rank then (s.modRank rank fun r => { r with state := 1 }).rejoin rank else s

/-- What a migration's packets have brought, whole or not: the bytes before the first that has not come. -/
def joinPieces : Nat → Nat → List (Nat × List Byte) → List Byte
  | 0, _, _ => []
  | n + 1, at', l =>
    match l.find? fun e => e.1 == at' && !e.2.isEmpty with
    | some e => e.2 ++ joinPieces n (at' + e.2.length) l
    | none => []

/-- A packet of a migration arrives; with the last of them the rank is installed. -/
def State.takeMigrant (s : State) (vf vk dvf : Nat) (compress : Bool) (total off : Nat) (bytes : List Byte) : State :=
  let same (x : PktBody) : Bool := match x with | .migrant v k d c n .. => v == vf && k == vk && d == dvf && c == compress && n == total | _ => false
  let l := s.arriving ++ [.migrant vf vk dvf compress total off bytes]
  let pieces := (l.filter same).filterMap fun x => match x with | .migrant _ _ _ _ _ o b => some (o, b) | _ => none
  let whole := joinPieces pieces.length 0 pieces
  if whole.length < total then { s with arriving := l }
  else
    let t : State := { s with arriving := l.filter fun x => !same x }
    match arrivingRank whole with
    | some b => t.installRank dvf compress b
    | none => t

/-! ### The reset of a virtual function (R322, R325) -/

def State.ranksOf (s : State) (vf : Nat) : List Nat := (s.ranks.filter fun e => e.2.vf == vf).map (·.1)

/-- Memory whose key is gone reads as no one knows (log 1), and no L1 holds a line of it. -/
def State.forgetRange (s : State) (pa size : Nat) : State :=
  if paRemote pa then s
  else
    let (n, s) := s.draw
    let s := s.writeMem ((List.range size).map fun i => (pa + i, Config.anyByte n i))
    { s with cores := s.cores.map fun e => (e.1, { e.2 with l1 := e.2.l1.filter fun l => !(decide (pa < 128 * l.1 + 128) && decide (128 * l.1 < pa + size)) }) }

def State.forgetPage (s : State) (e : TlbEntry) : State := s.forgetRange e.pa e.size

/-- What else a virtual function holds in memory: pages that it has written and that no table of it maps any more, its hold segments (R329). Of those only the headers are known from then on, by their generation. -/
def State.forgetHeld (s : State) (vf : Nat) : State :=
  let s := (s.owned.filter fun e => e.2.2 == vf).foldl (fun t e => t.forgetRange e.1 e.2.1) s
  let s := (s.segments.filter fun (x : Segment) => x.vf == vf).foldl (fun t x => t.forgetRange x.addr x.len) s
  { s with owned := s.owned.filter fun e => e.2.2 != vf, segments := s.segments.map fun (x : Segment) => if x.vf = vf then { x with queues := [], blocks := [] } else x }

/-- What the device holds for a rank of a reset virtual function, beside its contexts' own work. -/
def State.clearRank (s : State) (rank : Nat) : State :=
  let s := (s.leaves rank).foldl State.forgetPage s
  let s := s.removeRankWork rank
  let s := State.failCells { s with accs := s.accs.filter fun a => a.rank != rank, cmds := s.cmds.filter fun c => c.rank != rank } rank
  let ids := (s.colls.filter fun c => c.rank == rank).map (·.id)
  let s : State := { s with
    watches := s.watches.filter fun w => (s.ctx w.ctx).phase != .vacant
    colls := s.colls.filter fun c => c.rank != rank
    shufs := s.shufs.filter fun h => h.rank != rank
    redslots := s.redslots.filter fun r => !ids.contains r.coll
    slotReqs := s.slotReqs.filter fun r => !ids.contains r.1
    cuts := s.cuts.filter fun c => c.rank != rank
    verified := s.verified.map fun t => (t.1, t.2.filter fun e => e.1 != rank) }
  s.modRank rank fun r => { r with queues := [], parked := [], reserved := 0, sheet := [], spilled := [], stopped := false, state := if r.state = 3 then 1 else r.state }

/-- Matrix state that a context of the rank owns is zeroed and freed. -/
def State.clearMatrix (s : State) (rank : Nat) : State :=
  { s with cores := s.cores.map fun e =>
      match s.ctxAt e.1 e.2.mhwc.toNat with
      | some k => if e.2.mowner ≠ 0xFFFF ∧ (s.ctx k).rank = rank then (e.1, { e.2 with mat := Matrix.zero, mowner := 0xFFFF, mdirty := false, badMat := false }) else e
      | none => e }

/-- Whether a virtual function is a target of a Last Collection in force. -/
def State.collecting (s : State) (vf : Nat) : Bool := s.collections.any fun c => c.targets.contains vf

/-- No cache holds anything of a virtual function: translations and lines of its ranks, known here still or not, and L1 lines that it allocated (R325). -/
def State.clearCaches (s : State) (vf : Nat) : State :=
  { s with
    cores := s.cores.map fun e => (e.1, { e.2 with
      tlb := e.2.tlb.filter fun t => t.rank / 65536 != vf, icache := e.2.icache.filter (fun l => l.1 / 2 ^ 41 / 65536 != vf)
      l1 := e.2.l1.filter fun l => tabGet e.2.l1vf l.1 != some vf })
    tlb2 := s.tlb2.map fun e => (e.1, e.2.filter fun t => t.rank / 65536 != vf) }

/-- The reset: work ends without dead letter records, queues and keys are discarded, GEN advances; ENABLE must be written before the virtual function runs again. -/
def State.resetVf (s : State) (vf : Nat) : State :=
  let s := (((s.ranksOf vf).foldl (fun s r => (s.clearMatrix r).clearRank r) s).forgetHeld vf).clearCaches vf
  let (n, s) := s.draw
  let s := s.modVf vf fun v => { v with
    enable := false, gen := (v.gen + 1) % 65536, key := some (Config.freshKey n)
    queues := v.queues.map fun q => (q.1, { q.2 with state := 4, cfg := putBits q.2.cfg 63 1 0, prod := 0, cons := 0, loops := [], head := .idle, holdpoint := none, running := [] })
    childq := [], used := [], halted := s.collecting vf, holding := false }
  State.separate { s with
    running := s.running.filter fun e => e.2 != vf, switching := s.switching.filter fun e => e.2 != vf && tabGet s.running e.1 != some vf
    retries := s.retries.filter s.stillOpen, unconfirmed := s.unconfirmed.filter fun u => s.stillOpen u.pkt.body
    pairing := s.pairing.filter fun p => p.dev != Config.ownDevice || (s.shufAt? p.job p.shid p.src).isSome
    contribs := s.contribs.filter fun x => s.ranks.any fun r => r.2.job == x.job && r.2.vf != vf
    collAborts := s.collAborts.filter fun x => s.ranks.any fun r => r.2.job == x.1 && r.2.vf != vf }

/-- VF_RESET. -/
def execVfReset (vf : Nat) (s : State) : Out := .next (if vf < 192 ∧ s.hub.devstat ≠ 0xE then s.resetVf vf else s)

/-- A virtual function is enabled; one that a Last Collection delivered starts commands again, one that is held does not (DEDUCED, log 21). Its child queue is assigned to a die, either one (R409, log 70). -/
def State.enableVf (s : State) (vf : Nat) : State :=
  let (n, t) := s.draw
  t.modVf vf fun v =>
    { v with enable := true, halted := v.halted && (v.holding || s.collecting vf), childDie := if v.enable then v.childDie else Config.anyNat n % 2 }

/-- VF_ENABLE: the virtual function may run. -/
def execVfEnable (vf : Nat) (s : State) : Out := .next (if vf < 192 ∧ s.hub.devstat ≠ 0xE then s.enableVf vf else s)

/-! ### Time slices (R324) -/

/-- Whether a virtual function has work. -/
def State.hasWork (s : State) (vf : Nat) : Bool :=
  let v := s.vf vf
  v.enable && ((!v.halted && ((v.queues.any fun q => q.2.state == 1) || v.childq != [])) || s.ctxs.any fun e => e.2.alive && (s.rankOf e.2.rank).vf == vf)

/-- The virtual function whose turn comes after v's. -/
def State.nextVf (s : State) (part v : Nat) : Option Nat :=
  let l := (s.vfs.filter fun e => e.2.part == part && e.1 != v && s.hasWork e.1).map (·.1)
  match l.find? fun k => decide (v < k) with
  | some k => some k
  | none => l.head?

/-- Contexts of a virtual function that still occupy hardware contexts. -/
def State.placedOf (s : State) (vf : Nat) : List Nat := (s.ctxs.filter fun e => (s.rankOf e.2.rank).vf == vf && s.occupies e.1).map (·.1)

def CmdQueue.copying (q : CmdQueue) : Bool := match q.head with | .copy .. => true | _ => false

/-- QUANTUM_EXPIRY: the slice of a partition ends when another virtual function of it has work; every context is evicted; then the next one has the slice. A QUANT of 0 ends no slice but one without work (DEDUCED, log 21). -/
def execQuantumExpiry (part : Nat) (s : State) : Out :=
  match tabGet s.running part with
  | none => .next s
  | some v =>
    match tabGet s.switching part with
    | some w =>
      if s.placedOf v = [] ∧ ¬ (s.vf v).queues.any (fun q => q.2.copying) then
        .next { s with running := tabSet s.running part w, switching := tabDel s.switching part }
      else .next s
    | none =>
      match s.nextVf part v with
      | none => .next s
      | some w =>
        if (s.vf v).quant ≠ 0 ∨ ¬ s.hasWork v then
          let s : State := { s with switching := tabSet s.switching part w }
          .next ((s.placedOf v).foldl (fun s k => if (s.ctx k).phase = .live then s.modCtx k fun c => { c with preempt := true } else s) s)
        else .next s

/-! ### Last Collection (R326 to R328) -/

/-- Hub cycles that a collection keeps in hand. -/
def collMargin : Nat := 40000

/-- Launches that a queue has started, and child launches of their ranks. -/
def State.startedBy (s : State) (vf q : Nat) : List Launch :=
  let own := s.launches.filter fun l => l.src == .queue vf q
  let ranks := own.map (·.rank)
  own ++ s.launches.filter fun l => l.vf == vf && ranks.contains l.rank && (match l.src with | .child .. => true | .queue .. => false)

/-- The queues of a target: those that are set up or have a launch running; queue 0 when there is none and something runs (DEDUCED, log 22). -/
def State.queueNumbers (s : State) (vf : Nat) : List Nat :=
  let l := ((s.vf vf).queues.filter fun q => q.2.state != 4 || s.launches.any fun x => x.src == .queue vf q.1).map (·.1)
  if l.isEmpty && s.launches.any (·.vf == vf) then [0] else l

/-- Launches of a queue: those that it has started and child launches of their ranks; those that belong to no queue so, as child launches do whose parents have completed, are of the first one (DEDUCED, log 22). -/
def State.queueLaunches (s : State) (vf q : Nat) : List Launch :=
  let qs := s.queueNumbers vf
  s.startedBy vf q ++ if qs.head? = some q then s.launches.filter fun l => l.vf == vf && !(qs.any fun p => (s.startedBy vf p).contains l) else []

def State.queueRanks (s : State) (vf q : Nat) : List Nat := ((s.queueLaunches vf q).map (·.rank)).eraseDups

/-- Live contexts of a queue's launches. -/
def State.queueCtxs (s : State) (vf q : Nat) : List Ctx :=
  ((s.queueLaunches vf q).flatMap (·.ctxs)).filterMap fun k => if (s.ctx k).alive then some (s.ctx k) else none

/-- Bytes of a rank block (R329). -/
def State.blockLen (s : State) (rank : Nat) : Nat :=
  65536 + 196608 * (s.rankOf rank).wallow + ((s.liveOf rank).map fun k => 65536 + 65536 * (s.ctx k).kernel.banks).sum + 65856 * s.dirtyUnits rank

/-- Bytes of a hold segment with blocks of these ranks. -/
def State.segmentLen (s : State) (vf : Nat) (ranks : List Nat) : Nat :=
  64 + 256 * (s.queueNumbers vf).length + (ranks.map s.blockLen).sum

/-- DIRTY of a queue's ranks. -/
def State.dirtyBytes (s : State) (ranks : List Nat) : Nat :=
  (ranks.map fun r => 65536 * s.dirtyUnits r + ((s.liveOf r).map fun k => 65536 * (s.ctx k).kernel.banks).sum).sum

/-- The first feasible outcome of a queue (R327). -/
def State.outcomeOf (s : State) (vf q deadline : Nat) : Nat :=
  let v := s.vf vf
  let cs := s.queueCtxs vf q
  let ranks := s.queueRanks vf q
  let left := (cs.map fun c => c.kernel.budget - c.issues).foldl max 0
  let bound := (cs.map fun c => c.kernel.cutbound).foldl max 0
  let all := ((s.launches.filter fun l => l.vf == vf).map (·.rank)).eraseDups
  if s.queueLaunches vf q = [] ∨ 2 * left + collMargin ≤ deadline then 1
  else if (s.cmdQueue vf q).holdpoint.isSome ∧ v.holdbw ≠ 0 ∧ 2 * bound + (s.dirtyBytes ranks + v.holdbw - 1) / v.holdbw + collMargin ≤ deadline
      ∧ v.nextSeg + s.segmentLen vf all ≤ 65536 * v.holdsz then 2
  else 3

/-- Queues that share a rank take the latest outcome of any; a returned queue returns its virtual function (R328). -/
def State.mergeOutcomes (s : State) (l : List CollEntry) : List CollEntry :=
  l.map fun e =>
    let ranks := s.queueRanks e.vf e.q
    let others := l.filter fun x => x.vf == e.vf && (x.outcome == 3 || (s.queueRanks x.vf x.q).any ranks.contains)
    { e with outcome := (others.map (·.outcome)).foldl max e.outcome }

/-- Targets that a descriptor names. -/
def State.targetsOfColl (s : State) (l : List Byte) : List Nat :=
  (List.range 192).filter fun v => (fieldLE l 0x10 24).testBit v || (fieldLE l 8 2).testBit (s.vf v).part

/-- The answer to a post whose descriptor's bytes are given, and the collection when it is accepted; a malformed descriptor is found first (DEDUCED, log 22). The report array has one entry for each queue of a target, by ascending virtual function and then queue (DESIGN CHOICE, log 84). -/
def State.collCheck (s : State) (addr : Nat) (l : List Byte) : Nat × Collection :=
  let targets := s.targetsOfColl l
  let d := fieldLE l 0 8
  let rough := targets.flatMap fun v => (s.queueNumbers v).map fun q => (⟨v, q, s.outcomeOf v q d, false, false⟩ : CollEntry)
  let c : Collection := ⟨addr, d, fieldLE l 0x28 8, targets, (List.range 8).foldl (fun l _ => s.mergeOutcomes l) rough⟩
  if ((l.drop 0x0A).take 6).any (· != 0) ∨ (l.drop 0x30).any (· != 0) ∨ targets = [] then (3, c)
  else if d < collMargin then (1, c)
  else if targets.any s.collecting then (2, c)
  else (0, c)

/-- Ranks that a hold of a virtual function cuts. -/
def State.holdRanks (s : State) (vf : Nat) (l : List CollEntry) : List Nat :=
  (l.filter fun e => e.vf == vf && e.outcome == 2).flatMap (fun e => s.queueRanks e.vf e.q) |>.eraseDups

/-- What acceptance does for a target: its queues stop; a returned one is reset, the ranks of a held one are cut, each behind a cut that is being made of it already. -/
def State.collectTarget (s : State) (l : List CollEntry) (vf : Nat) : State :=
  let s := s.modVf vf fun v => { v with halted := true }
  if l.any fun e => e.vf == vf && e.outcome == 3 then s.resetVf vf
  else
    { s with cuts := s.cuts ++ (s.holdRanks vf l).map fun r => ⟨r, .hold vf, none⟩ }

/-- Whether a queue of a collection is vacant: nothing of it runs; its state is in its hold segment when it is held. -/
def State.vacant (s : State) (e : CollEntry) : Bool :=
  if e.outcome = 2 ∧ ¬ e.overrun then (s.vf e.vf).holding
  else s.queueLaunches e.vf e.q == [] && !(s.cmdQueue e.vf e.q).copying

/-- The bytes of a report entry (R328). -/
def collReport (e : CollEntry) (cycles : Nat) : List Byte := layout [(e.vf, 1), (e.q, 1), (e.outcome, 1), (e.overrun.toNat, 1), (0, 4), (cycles, 8)]

/-- A collection that has written all its entries is over. -/
def State.closeCollections (s : State) : State :=
  let complete := s.collections.filter fun c => c.entries.all (·.written)
  complete.foldl (fun s c => s.hvInterrupt 6 0xFFFF 0xFFFF c.addr) { s with collections := s.collections.filter fun c => !c.entries.all (·.written) }

/-- LAST_COLLECTION: the post is answered in COLLSTAT. -/
def execLastCollection (addr : Nat) (s : State) : Out :=
  if s.hub.devstat = 0xE then .next s
  else
    let (l, s) := s.physGet addr 64
    let (status, c) := s.collCheck addr l
    let s := s.modHub fun h => { h with collstat := status }
    if status = 0 then .next (c.targets.foldl (fun (t : State) v => t.collectTarget c.entries v) { s with collections := s.collections ++ [c] }).closeCollections
    else .next s

/-! ### Hold segments (R329) -/

def HeldPage.byteTags (p : HeldPage) : List Byte :=
  (List.range 256).map fun i => BitVec.ofNat 8 (((List.range 4).map fun j =>
    (match (tabGet p.tags (4 * i + j)).map (·.tag) with | none => 0 | some .value => 0 | some .latent => 1 | some .developing => 2 | some .faulted => 3) * 4 ^ j).sum)

/-- The bytes of a page: its address, its tags as the device keeps them (two bits a cell; their coding is private, DESIGN CHOICE, log 22), its data. -/
def HeldPage.image (p : HeldPage) : List Byte := leBytes 8 p.va ++ List.replicate 56 0 ++ p.byteTags ++ p.bytes

/-- What a hold writes after its header: records and images whose layout is private are bytes that no one knows (log 1). -/
def State.segmentBody (s : State) (n : Nat) (vf : Nat) (blocks : List RankBlock) : List Byte :=
  let unknown (from' len : Nat) : List Byte := (List.range len).map fun i => Config.anyByte n (from' + i)
  unknown 64 (256 * (s.queueNumbers vf).length) ++ blocks.zipIdx.flatMap fun (b, i) =>
    let pages := b.pages.flatMap HeldPage.image
    unknown (2 ^ 40 * (i + 1)) (s.blockLen b.rank - pages.length) ++ pages

/-- Writes the hold segment of a virtual function whose cuts are complete; what it carries leaves the device's units. -/
def State.writeHold (s : State) (vf : Nat) : State :=
  let v := s.vf vf
  let cut (c : Cut) : Bool := c.why == .hold vf
  let ranks := (s.cuts.filter cut).map (·.rank)
  let s := ranks.foldl (fun s r => s.correctPages (s.dirtyLeaves r)) s
  let blocks := ranks.map fun r => { s.rankBlock r (s.dirtyLeaves r) with mail := [] }
  let (n, s) := s.draw
  let body := s.segmentBody n vf blocks
  let len := 64 + body.length
  let head := layout [(0x5348564A, 4), (vf, 2), (v.gen, 2), ((s.queueNumbers vf).length, 4), (ranks.length, 4), (len, 8), (v.lastSeg.getD (2 ^ 64 - 1), 8)]
  let addr := v.holdbase + v.nextSeg
  let seg : Segment := ⟨addr, vf, v.gen, len, v.queues, blocks⟩
  let s := s.physPut addr (head ++ digest32 body ++ body)
  let s := ranks.foldl (fun s r => (s.removeRankWork r).dropCut r) s
  { s with segments := s.segments.filter (fun (x : Segment) => x.addr != addr) ++ [seg] }.modVf vf fun w =>
    { w with holding := true, halted := true, lastSeg := some w.nextSeg, nextSeg := w.nextSeg + len }

/-- Whether the hold's own cut of a rank is complete. -/
def State.holdCut (s : State) (vf rank : Nat) : Bool :=
  match s.cutOf? rank with
  | some c => c.why == .hold vf && s.cutDone c
  | none => false

/-- Whether nothing of a virtual function's queues is under way that its segment does not carry: a launch of a delivered queue, a COPY, a SIGNAL on its way (R328, R329). -/
def State.queuesStill (s : State) (vf : Nat) : Bool :=
  ((s.collections.flatMap (·.entries)).all fun e => !(e.vf == vf && e.outcome == 1) || s.queueLaunches vf e.q == [])
    && (s.vf vf).queues.all fun q => match q.2.head with
      | .copy .. | .adding .. => false
      | .idle | .launch _ | .waitev .. => true

/-- Whether the cuts of a hold are complete: of every rank with running launches of a held queue. A rank whose cut was abandoned has none, and the hold is not made (R320, R328). -/
def State.holdReady (s : State) (vf : Nat) : Bool :=
  !(s.vf vf).holding && s.queuesStill vf && (s.holdRanks vf ((s.collections.flatMap (·.entries)).filter fun e => !e.overrun)).all (s.holdCut vf)
    && (s.cuts.filter fun c => c.why == .hold vf).all fun c => s.holdCut vf c.rank

/-- QUEUE_VACANCY: a queue of a target is vacant, after `cycles` hub cycles; a held virtual function's segment is written first. -/
def execQueueVacancy (vf q cycles : Nat) (s : State) : Out :=
  match s.collections.find? fun c => c.entries.any fun e => e.vf == vf && e.q == q && !e.written with
  | none => .next s
  | some c =>
    match c.entries.find? fun e => e.vf == vf && e.q == q && !e.written with
    | none => .next s
    | some e =>
      let s := if e.outcome = 2 ∧ ¬ e.overrun ∧ s.holdReady vf then s.writeHold vf else s
      if s.vacant e then
        let i := c.entries.findIdx fun e => e.vf == vf && e.q == q
        let s := s.physPut (c.report + 16 * i) (collReport e cycles)
        .next (State.closeCollections { s with collections := s.collections.map fun x =>
          if x.addr = c.addr ∧ x.targets = c.targets then { x with entries := x.entries.map fun y => if y.vf = vf ∧ y.q = q then { y with written := true } else y } else x })
      else .next s

/-- LAST_COLLECTION_OVERRUN: a queue that is not vacant by D − M has its virtual function reset. -/
def execLastCollectionOverrun (vf q : Nat) (s : State) : Out :=
  match s.collections.findSome? fun c => c.entries.find? fun e => e.vf == vf && e.q == q && !e.written with
  | none => .next s
  | some e =>
    if s.vacant e ∨ e.overrun then .next s
    else
      let s : State := { s with collections := s.collections.map fun c => { c with entries := c.entries.map fun y => if y.vf = vf ∧ ¬ y.written then { y with overrun := true } else y } }
      .next (s.resetVf vf)

/-! ### Restoration from the hold store (R329) -/

def State.setReststat (s : State) (n : Nat) : State := s.modHub fun h => { h with reststat := n }

/-- The segment at an address, when its header checks and all of it can be read. -/
def State.segmentAt (s : State) (addr : Nat) : Option Segment :=
  match s.segments.find? fun x => x.addr == addr with
  | none => none
  | some seg =>
    let h := s.mem.read addr 64
    if !((physBlocks addr seg.len).any s.blockLost) ∧ fieldLE h 0 4 = 0x5348564A ∧ fieldLE h 4 2 = seg.vf ∧ fieldLE h 0x10 8 = seg.len
        ∧ (h.drop 0x20).take 32 = digest32 (s.mem.read (addr + 64) (seg.len - 64)) then some seg
    else none

/-- Whether a segment's virtual function has been reset since it was written: its key is gone, and its generation tells so before anything is read (R325, R329; DEDUCED, log 22). -/
def State.segmentLost (s : State) (addr : Nat) : Bool :=
  s.segments.any fun (x : Segment) => x.addr == addr && x.gen != (s.vf x.vf).gen

/-- Whether every rank of a segment can be resident together. -/
def State.segmentFits (s : State) (seg : Segment) : Bool :=
  let mine := seg.blocks.map (·.rank)
  let others := s.residents.filter fun r => !mine.contains r
  mine.all (fun r => (tabGet s.ranks r).isSome) && decide (others.length + mine.length ≤ 64)
    && decide (((others ++ mine).map fun r => (s.rankOf r).wallow).sum ≤ 128)

/-- A rank block goes back: the rank is resident, its pages, windows, groups and contexts as they were at the cut. -/
def State.restoreBlock (s : State) (b : RankBlock) : State :=
  let s := b.pages.foldl (fun s p => s.restorePage b.rank p) s
  let s := s.modRank b.rank fun r => { b.record with state := 1, root := r.root, dlqprod := r.dlqprod, dlqcons := r.dlqcons, dlqovf := r.dlqovf, seq := r.seq, stopped := false }
  ((s.placeWork b).placeSheet b.rank).takeEndpoint b

/-- Without REPLAY every queue goes on where it stopped; with it, after its last HOLDPOINT. -/
def replayQueue (q : CmdQueue) : CmdQueue :=
  let q := { q with loops := [], head := .idle, running := [] }
  (match q.holdpoint with | some p => { q with cons := p, state := if q.state = 4 then 4 else 1 } | none => q).settled

/-- A write to RESTORE: the status in RESTSTAT, and on DONE the virtual function as it was. One that is not held is answered HEADER (DEDUCED, log 22). -/
def State.restoreFrom (s : State) (addr : Nat) (replay : Bool) : State :=
  if s.hub.devstat = 0xE then s
  else if addr % 64 ≠ 0 then s.setReststat 2
  else if s.segmentLost addr then s.setReststat 3
  else
    match s.segmentAt addr with
    | none => s.setReststat 2
    | some seg =>
      let s := s.correctBlocks (physBlocks addr seg.len)
      if (s.vf seg.vf).gen ≠ fieldLE (s.mem.read addr 8) 6 2 then s.setReststat 3
      else if ¬ (s.vf seg.vf).holding then s.setReststat 2
      else if ¬ s.segmentFits seg then s.setReststat 4
      else
        let s := if replay then
            seg.blocks.foldl (fun s b => s.modRank b.rank fun r => { r with state := 1, parked := [], reserved := 0 }) s
          else seg.blocks.foldl State.restoreBlock s
        let s := s.modVf seg.vf fun v => { v with
          queues := if replay then seg.queues.map fun q => (q.1, replayQueue q.2) else seg.queues
          holding := false, halted := s.collecting seg.vf }
        ((seg.blocks.map (·.rank)).foldl State.rejoin s).setReststat 0

def execRestore (addr : Nat) (s : State) : Out := .next (s.restoreFrom addr false)
def execRestoreReplay (addr : Nat) (s : State) : Out := .next (s.restoreFrom addr true)

end Sys2Proof.Machine
end

