-- ==== Sys2Proof/Machine/Fabric.lean ====
section
/-! DEFINITION. Machine/Fabric.lean: packets of the fabric (R337, R340), what other devices ask of this one's memory (R408), replies, failed links (R382), the routing table. -/

namespace Sys2Proof.Machine

/-! ### Requests of other devices, at the home slices (R206, R337, R408) -/

/-- The rank and the virtual address of a byte of an open window, by its physical address. -/
def State.windowByte? (s : State) (pa : Nat) : Option (Nat × Nat) :=
  s.wins.findSome? fun w => w.pages.findSome? fun p =>
    if p.2.1 ≤ pa ∧ pa < p.2.1 + p.2.2 ∧ (s.winIx? w.rank (p.1 + (pa - p.2.1))).isSome then some (w.rank, p.1 + (pa - p.2.1)) else none

def State.byteAtHome (s : State) (pa : Nat) : Byte :=
  match s.windowByte? pa with
  | some (rank, va) => s.homeByte rank va pa
  | none => s.mem.get pa

/-- What a request comes to: its reply, or a read that waits at cells being developed. -/
inductive ServeRes where
  | answer (r : PktBody) (s : State)
  | kept (s : State)

/-- One cell of a read by another device: its bytes, its failure, or a place among what it waits for (R408). -/
def State.serveCell (s : State) (w : WaitingRead) (c : Nat) : WaitingRead × State :=
  match (s.cell? c).map Cell.tag with
  | some .latent => (w.failAt (64 * c) Cause.permission.code, s)
  | some .faulted => (w.failAt (64 * c) Cause.latentFaulted.code, s)
  | some .developing => ({ w with cells := w.cells ++ [c] }, s)
  | some .value | none =>
    match s.checkBlocks [c] with
    | none => (w.failAt ((w.bytesIn c).headD (64 * c)) Cause.integrity.code, s)
    | some t => ({ w with got := w.got ++ (w.bytesIn c).map fun a => (a, t.byteAtHome a) }, t)

/-- A part that a request of another device names. -/
def requestPart (pa : Nat) (en : List Bool) (l : List Byte) : Part := ⟨pa, pa, true, en, l, .waiting⟩

/-- A read: each cell that it touches answers for itself; the lowest failing one fails it once all have answered. -/
def State.serveRead (s : State) (dev tag pa : Nat) (en : List Bool) : ServeRes :=
  if ¬ paLocal pa then .answer (.reply tag [] Cause.translation.code pa) s
  else
    let (w, s) := (requestPart pa en []).cellKeys.foldl (fun (e : WaitingRead × State) c => e.2.serveCell e.1 c) (⟨dev, tag, pa, en, [], none, []⟩, s)
    if w.cells.isEmpty then .answer w.reply s else .kept { s with remoteReads := s.remoteReads ++ [w] }

/-- Why a write to a part is refused, and where: an open window (R204), a cell that is not VALUE, by its own address where the access touches several (R238), a bad block covered in part (R398). -/
def State.serveRefusal (s : State) (many : Bool) (p : Part) : Option (Nat × Nat) :=
  let touched := ((List.range p.en.length).filter fun i => p.en.getD i false).map (p.pa + ·)
  if ¬ paLocal p.pa then some (Cause.translation.code, p.pa)
  else
    match touched.find? fun a => (s.windowByte? a).isSome || (match tabGet s.cells (a / 64) with | some c => c.tag != .value | none => false) with
    | some a => some (Cause.permission.code, if many && (s.windowByte? a).isNone then a / 64 * 64 else a)
    | none => if p.partialBlocks.any fun b => tabGet s.bad b == some false then some (Cause.integrity.code, touched.headD p.pa) else none

/-- Writes the parts that nothing refuses, and gives the first refusal. -/
def State.serveParts (s : State) (many : Bool) : List Part → Option (Nat × Nat) × State
  | [] => (none, s)
  | p :: l =>
    match s.serveRefusal many p with
    | some f => (some f, (s.serveParts many l).2)
    | none => (s.putBytes p).serveParts many l

/-- A write, cell by cell; cells of compressed pages develop first. `many` says that its access touches several cells. -/
def State.serveWrite (s : State) (tag : Nat) (many : Bool) (p : Part) : ServeRes :=
  let s := s.develop 0 p
  let pieces := if p.cellKeys.length ≤ 1 then [p] else p.cellKeys.map p.inCell
  match s.serveParts many pieces with
  | (some (cause, a), t) => .answer (.reply tag [] cause a) t
  | (none, t) => .answer (.reply tag [] 0 0) t

/-- An atomic: the old bytes, and the new value where one is written. -/
def State.serveAtomic (s : State) (tag pa : Nat) (wide : Bool) (new : Nat → Option Nat) : ServeRes :=
  let n := if wide then 8 else 4
  let p := requestPart pa (List.replicate n true) []
  let s := s.develop 0 p
  match s.serveRefusal false p with
  | some (cause, a) => .answer (.reply tag [] cause a) s
  | none =>
    let t := (s.checkBlocks p.blocks).getD s
    let old := t.mem.readLE pa n
    .answer (.reply tag (leBytes n old) 0 0) (match new old with
      | some v => t.storeBytes { p with data := leBytes n v }
      | none => t)

/-- The answer to a request of another device, and that device. -/
def State.serve (s : State) (b : PktBody) : Option (Nat × ServeRes) :=
  match b with
  | .read dev tag pa en => some (dev, s.serveRead dev tag pa en)
  | .write dev tag many pa en l => some (dev, s.serveWrite tag many (requestPart pa en l))
  | .amo dev tag op wide pa x => some (dev, s.serveAtomic tag pa wide fun old => some (amoNew op (if wide then 64 else 32) old x.toNat))
  | .cas dev tag wide pa x y =>
    let w := if wide then 64 else 32
    some (dev, s.serveAtomic tag pa wide fun old => if old = x.toNat % 2 ^ w then some (y.toNat % 2 ^ w) else none)
  | _ => none

/-! ### Replies (R167, R176, R211, R216, R273, R297, R298) -/

/-- A part that waits for a reply has it; a failure lies where the reply says, as the access names that byte. -/
def answerPart (tag cause off : Nat) (bytes : List Byte) (p : Part) : Part :=
  if p.st = .sent tag then
    if cause = 0 then { p with st := .done, data := if bytes.isEmpty then p.data else bytes } else { p with st := .failed (Cause.ofCode cause) (p.va + off - paOnDevice p.pa) }
  else p

/-- The reply to a request of a copy command: the bytes read, or the read that failed; a piece written, or one that stops the command at its first element (R273). The failure lies where the reply says, as the command names that byte. -/
def State.answerCmd (s : State) (r : RemoteReq) (bytes : List Byte) (cause off : Nat) : State :=
  match s.cmd? r.owner with
  | none => s
  | some c =>
    match r.pkt.body with
    | .read _ _ pa en =>
      s.modCmd c.id fun x =>
        if cause = 0 then
          { x with fetched := x.fetched ++ ((List.range en.length).filter fun i => en.getD i false).map fun i => (r.part + i, bytes.getD i 0) }
        else { x with refused := x.refused ++ [(r.part, Cause.ofCode cause, r.part + off - pa, false)] }
    | .write _ _ _ pa _ _ =>
      if cause = 0 then (s.modCmd c.id fun x => { x with out := x.out.eraseP fun p => p.va == r.part }).freeRuns c.id c.back.1
      else
        match c.out.find? fun p => p.va == r.part with
        | some p => s.stopAt c.id p.elem (Cause.ofCode cause) (r.part + off - pa) false
        | none => s
    | _ => s

/-- The reply to an access; an acquire takes effect with it (R211). -/
def State.answerAcc (s : State) (a : Acc) (tag : Nat) (bytes : List Byte) (cause off : Nat) : State :=
  let s := match a.acq with
    | some scope => s.acquireAt a.core scope
    | none => s
  (s.setAcc { a with parts := a.parts.map (answerPart tag cause off bytes) }).settle a.id

/-- A reply reaches what waits for it: a command processor's access, a command queue's SIGNAL, an add to an event word, a copy command, an access. -/
def State.answerReply (s : State) (tag : Nat) (bytes : List Byte) (cause off : Nat) : State :=
  match tabGet s.remote tag with
  | none => s
  | some r =>
    let s : State := { s with
      remote := tabDel s.remote tag
      far := s.far.map fun f => if f.tag = tag then { f with ans := some (bytes, cause) } else f }
    match s.signalOf? tag, r.dead with
    | some (vf, q, addr, irq), _ => if cause = 0 then s.signalled vf q addr irq else s.queueError vf q addr
    | none, some (rank, rec) => if cause = 0 then s else s.deadLetterNew rank { rec with cause := cause }
    | none, none =>
      if r.forCmd then s.answerCmd r bytes cause off
      else
        match s.acc? r.owner with
        | none => s
        | some a => s.answerAcc a tag bytes cause off

/-! ### Collectives between devices (R338, R343, R345, R379) -/

/-- Ranks of a job that live here. -/
def State.ranksOfJob (s : State) (job : Nat) : List Nat := (s.ranks.filter fun r => r.2.job == job).map (·.1)

/-- What comes for the endpoints of a job goes on, too, to the devices that ranks of it have moved to from here (R377, R379). -/
def State.forwardJob (s : State) (job : Nat) (b : PktBody) : State :=
  (((s.moved.filter fun k => k / 65536 == job).filterMap fun k => tabGet s.located k).eraseDups).foldl (fun t d => (t.send ⟨d, b⟩).getD t) s

/-- Ranks of a job here whose endpoints write what comes into their spill areas: descheduled, or migrating (R379). -/
def State.awayOf (s : State) (job : Nat) : List Nat := (s.ranksOfJob job).filter fun k => (s.rankOf k).state == 2 || (s.rankOf k).state == 3

/-- Writes a packet into the spill areas that do not have it yet. -/
def State.spillInto (s : State) (b : PktBody) (l : List Nat) : State :=
  l.foldl (fun t k => if (t.rankOf k).spilled.contains b then t else t.spill k b) s

/-- A piece of a contribution comes in: for the endpoints that take it now, into the spill areas of those that do not, and on to where ranks have moved. While one of those areas is full its sender keeps it, else it is confirmed. -/
def State.takePiece (s : State) (dev : Nat) (x : Contribution) (off : Nat) (b : PktBody) : State :=
  let away := s.awayOf x.job
  if away.any fun k => !(s.rankOf k).spilled.contains b && !(s.rankOf k).spillRoom b then (s.holdFor x.job x.comm).refuse b
  else
    let t := ((s.forwardJob x.job b).holdFor x.job x.comm).spillInto b away
    let t := if (s.ranksOfJob x.job).any fun k => !away.contains k then t.takeContribution x else t
    (t.send ⟨dev, .contribAck Config.ownDevice x.job x.comm x.k x.pos off⟩).getD t

/-- A piece sent by a member here has been accepted at a device. -/
def State.pieceTaken (s : State) (dev job comm k pos off : Nat) : State :=
  let mine (b : PktBody) : Bool := match b with
    | .contribution _ j c n p _ _ o _ => j == job && c == comm && n == k && p == pos && o == off
    | _ => false
  State.confirm { s with colls := s.colls.map fun c =>
    if c.job = job ∧ c.comm = comm ∧ c.k = k ∧ c.pos = pos then { c with unacked := c.unacked.filter (· != (dev, off)) } else c } dev mine

/-! ### PACKET_ROUTE (R340, R364, R365, R379) -/

/-- A message for the endpoints of a job: those that take it now do so in turn or as `now` says, the others spill it, and it goes on to where ranks have moved. -/
def State.toEndpoints (s : State) (job : Nat) (b : PktBody) (now : State → State) : State :=
  let away := s.awayOf job
  let t := (s.forwardJob job b).spillInto b away
  if (s.ranksOfJob job).any fun k => !away.contains k then now t else t

/-- A packet for this device. -/
def State.deliver (s : State) (b : PktBody) : State :=
  let s : State := { s with inbox := s.inbox.erase b }
  let later (t : State) : State := { t with inbox := t.inbox ++ [b] }
  match s.serve b with
  | some (dev, .answer r t) => (t.send ⟨dev, r⟩).getD t
  | some (_, .kept t) => t
  | none =>
    match b with
    | .reply tag bytes cause off => s.answerReply tag bytes cause off
    | .contribution dev job comm k pos order total off data => s.takePiece dev ⟨job, comm, k, pos, order, total, [(off, data)]⟩ off b
    | .contribAck dev job comm k pos off => s.pieceTaken dev job comm k pos off
    | .collAbort job comm k mismatch => s.toEndpoints job b fun t => t.abortColl job comm k mismatch
    | .shufAck job shid blk src dst => (s.forwardJob job b).acknowledge job shid blk src dst
    | .overprint o => s.forwardOverprint o []
    | .retry p => if s.stillOpen p then { s with retries := s.retries ++ [p] } else s
    | .rankAt job vk dev => { s with located := if dev = Config.ownDevice then tabDel s.located (rankKeyOf job vk) else tabSet s.located (rankKeyOf job vk) dev }
    | .shuffle p => if s.rankHere p.job p.vk then s.office p else s.leavePlain p
    | .shufAbort job vk shid dst num => if s.rankHere job vk then s.abortNotice job vk shid dst num else (s.sendTo job vk b).getD s
    | .migrant vf vk dvf compress total off bytes => s.takeMigrant vf vk dvf compress total off bytes
    | .hold job .. | .resume job .. | .reissue job .. => s.toEndpoints job b later
    | .read .. | .write .. | .amo .. | .cas .. => s

/-- A packet for another device passes through (R340): a shuffle's enters the pairing window of this sorting office (R364), and an overprint parts where its routes do (R365). -/
def State.passThrough (s : State) (p : Packet) : State :=
  match p.body with
  | .shuffle q => s.office q
  | .overprint o => s.forwardOverprint o []
  | _ => (s.send p).getD s

/-- PACKET_ROUTE: a packet of the fabric goes to this device's units, or on by its destination's entry; without an entry it is dropped. -/
def execPacketRoute (p : Packet) (s : State) : Out := .next (if p.dev = Config.ownDevice then s.deliver p.body else s.passThrough p)

/-- ROUTING_TABLE_WRITE: an entry of the sorting office's 8,192, up to four ports of 128. -/
def execRoutingTableWrite (dev : Nat) (ports : List Nat) (s : State) : Out :=
  .next (if dev < 8192 ∧ ports.length ≤ 4 ∧ ports.all (fun p => decide (p < 128)) then
    { s with routes := if ports.isEmpty then tabDel s.routes dev else tabSet s.routes dev ports } else s)

/-! ### Failed links (R382) -/

/-- Requests that may be applied twice. -/
def resendable (b : PktBody) : Bool :=
  match b with
  | .amo _ _ op _ _ _ => op != .add && op != .xor
  | .cas .. => false
  | _ => true

/-- An atomic whose confirmation is lost fails: an INTEGRITY report with DETAIL 1, its destination as a refused one's (R228). -/
def State.loseAtomic (s : State) (tag : Nat) (r : RemoteReq) : State :=
  match s.signalOf? tag, r.dead with
  | some _, _ => s.answerReply tag [] Cause.integrity.code 0
  | none, some (rank, rec) => State.deadLetterNew { s with remote := tabDel s.remote tag } rank { rec with cause := Cause.integrity.code, detail := 1 }
  | none, none =>
  let s : State := { s with remote := tabDel s.remote tag }
  match s.acc? r.owner with
  | none => s
  | some a =>
    let s := (s.setAcc { a with parts := a.parts.map fun p => if p.st = .sent tag then { p with st := .done, data := p.data.map fun _ => 0 } else p })
    (s.report a.ctx a.rank (failedOp .integrity (opcOf a.slot a.opc) (s.ctx a.ctx) ((a.parts.head?.map (·.firstVa)).getD 0) a.epc 1 none)).settle a.id

/-- The physical address that a request names. -/
def lostAt (b : PktBody) : Nat :=
  match b with
  | .read _ _ pa _ | .write _ _ _ pa .. | .amo _ _ _ _ pa _ | .cas _ _ _ pa .. => pa
  | _ => 0

/-- What becomes of one request that had left by the failed port. -/
def State.reroute (s : State) (tag : Nat) (r : RemoteReq) : State :=
  if resendable r.pkt.body then
    match s.portTo r.pkt.dev with
    | some (port, t) => { t.enqueue port r.pkt with remote := tabSet t.remote tag { r with port := some port } }
    | none => s.answerReply tag [] Cause.translation.code (lostAt r.pkt.body)
  else s.loseAtomic tag r

/-- A block or a piece of a contribution whose confirmation is lost is sent by another port; with none left, its shuffle or its collective fails (R340, R382). -/
def State.resendLost (s : State) (u : Unconfirmed) : State :=
  let s : State := { s with unconfirmed := s.unconfirmed.erase u }
  match s.portTo u.pkt.dev with
  | some (port, t) => { t.enqueue port u.pkt with unconfirmed := t.unconfirmed ++ [⟨port, u.pkt⟩] }
  | none =>
    match u.pkt.body with
    | .shuffle p => s.unrouted p
    | .contribution _ job comm k pos .. =>
      match s.colls.find? fun c => c.job == job && c.comm == comm && c.k == k && c.pos == pos with
      | some c => s.collFails c .translation c.addr
      | none => s
    | _ => s

/-- LINK_FAILURE: the port is fenced; requests it left unconfirmed are sent by another, or fail. -/
def execLinkFailure (port : Nat) (s : State) : Out :=
  let t : State := if s.failedPorts.contains port then s else { s with failedPorts := s.failedPorts ++ [port] }
  let t := (t.remote.filter fun e => e.2.port == some port).foldl (fun u e => u.reroute e.1 e.2) t
  .next ((t.unconfirmed.filter fun u => u.port == port).foldl State.resendLost t)

end Sys2Proof.Machine
end

