-- ==== Sys2Proof/Machine/Host.lean ====
section
/-! DEFINITION. Machine/Host.lean: the host link (R390 to R392), the register spaces (R393 to R395), mailboxes (R380, R381), seals (R401, R402), attestation (R403, R404), power and start (R405 to R407). -/

namespace Sys2Proof.Machine

/-- The register pages of virtual functions answer (R406). -/
def State.pagesUp (s : State) (vf : Nat) : Bool := s.hub.devstat == 7 && decide (vf < 192)
/-- The hypervisor's registers answer, but for DEVSTAT and attestation in FWFAIL (R406). -/
def State.registersUp (s : State) : Bool := s.hub.devstat != 0xE

/-! ### Memory windows (R390), the physical function's memory aperture (R393) -/

/-- The rank and virtual address of a host access, when its window allows it. -/
def State.windowTarget (s : State) (vf w off len : Nat) (write : Bool) : Option (Nat × Nat) :=
  match (s.vf vf).wins[w]? with
  | none => none
  | some (vbase, size, vk, flags) =>
    if s.pagesUp vf ∧ 1 ≤ len ∧ off + len ≤ 65536 * size ∧ flags.testBit 0 ∧ (write → flags.testBit 1) ∧ (tabGet s.ranks (rankKeyOf vf vk)).isSome then
      some (rankKeyOf vf vk, vbase + off)
    else none

def State.hostAnswer (s : State) (r : Option (List Byte)) : State := { s with hostReplies := r :: s.hostReplies }

/-- The number that names the physical function in a host's read: its memory aperture shows device physical addresses to the hypervisor (R393). -/
def physicalFunction : Nat := 192

/-- A transfer over the JHL, whose lanes are one group: one whose check fails is sent again, and entered (R398, R399). -/
def State.useJhl (s : State) : State := s.useLink 7 0

/-- The hypervisor reads at a physical address; where there is no memory, or a block cannot be corrected, it has an error completion. -/
def State.apertureRead (s : State) (pa len : Nat) : State :=
  if s.registersUp && decide (1 ≤ len) && paRange pa len && !(physBlocks pa len).any s.blockLost then
    (s.physGet pa len).2.hostAnswer (some (s.physGet pa len).1)
  else s.hostAnswer none

/-- What the hypervisor writes at a physical address. Like every access it performs at the home slice (R189), and no L1 changes with it. -/
def State.apertureWrite? (s : State) (pa : Nat) (l : List Byte) : Option State := if s.registersUp ∧ 1 ≤ l.length then s.physPut? pa l else none

/-- HOST_WINDOW_READ: the bytes, or an error completion; of the physical function, what its aperture shows at an offset. -/
def execHostWindowRead (vf w off len : Nat) (s : State) : Out :=
  let s := s.useJhl
  if vf = physicalFunction then .next (s.apertureRead off len)
  else
  match s.windowTarget vf w off len false with
  | none => .next (s.hostAnswer none)
  | some (rank, va) =>
    match s.hubGet rank va len with
    | .ok l t => .next (t.hostAnswer (some l))
    | .fail _ _ => .next (s.hostAnswer none)

/-- HOST_WINDOW_WRITE: all the bytes, or an error completion and none; for the physical function, at an offset of its aperture. A cell that is not VALUE is an error, and none develops (R390). -/
def execHostWindowWrite (vf w off : Nat) (bytes : List Byte) (s : State) : Out :=
  let s := s.useJhl
  if vf = physicalFunction then
    .next (match s.apertureWrite? off bytes with
      | some t => t.hostAnswer (some [])
      | none => s.hostAnswer none)
  else
  match s.windowTarget vf w off bytes.length true with
  | none => .next (s.hostAnswer none)
  | some (rank, va) =>
    match s.hubPutWith false rank va bytes with
    | .ok _ t => .next (t.hostAnswer (some []))
    | .fail _ _ => .next (s.hostAnswer none)

/-! ### Command queues (R391, R395) -/

/-- DOORBELL: a new producer index ahead of the consumer, by no more than the ring holds. -/
def execDoorbell (vf q : Nat) (value : W64) (s : State) : Out :=
  let x := s.cmdQueue vf q
  let ahead := (value.toNat % 2 ^ 32 + 2 ^ 32 - x.released) % 2 ^ 32
  .next (if s.pagesUp vf ∧ q < 8 ∧ x.state ≠ 4 ∧ 1 ≤ ahead ∧ ahead ≤ x.slots then s.modQueue vf q fun x => { x with prod := value.toNat % 2 ^ 32 } else s)

/-- A QCTL action on a stopped queue. -/
def State.qctl (s : State) (vf q : Nat) (f : CmdQueue → CmdQueue) : State :=
  let x := s.cmdQueue vf q
  if s.pagesUp vf ∧ q < 8 ∧ (x.state = 2 ∨ x.state = 3) then s.modQueue vf q fun x => f { x with state := 1 } else s

def execQctlRestart (vf q : Nat) (s : State) : Out := .next (s.qctl vf q id)
def execQctlRestartAfter (vf q : Nat) (s : State) : Out := .next (s.qctl vf q fun x => x.advance 0)
def execQctlDiscard (vf q : Nat) (s : State) : Out := .next (s.qctl vf q fun x => { x with cons := if x.posted then x.prod else x.cons, loops := [], head := .idle })

/-- The fields of QCFG. -/
def qcfgMask : W64 := 0x8000FFFF003FFFFF

/-- The checks of ENABLE := 1. -/
def State.queueOk (s : State) (vf : Nat) (x : CmdQueue) : Bool :=
  x.slots != 0 && x.slots &&& (x.slots - 1) == 0 && decide (x.slots ≤ 2 ^ 19) && x.ring.toNat % 64 == 0
    && (tabGet s.ranks (rankKeyOf vf x.home)).isSome

/-- Sets a queue up and starts it; a processor is assigned to it, either one (log 1). -/
def State.enableQueue (s : State) (vf q : Nat) (cfg : W64) : State :=
  let x := { s.cmdQueue vf q with cfg := cfg &&& qcfgMask }
  let (n, t) := s.draw
  if s.queueOk vf x then
    t.modQueue vf q fun _ => { CmdQueue.reset with state := 0, ring := x.ring, cfg := x.cfg, die := Config.anyNat n % 2 }
  else s.modQueue vf q fun _ => { x with cfg := putBits x.cfg 63 1 0, state := 4 }

/-- A write to QCFG: of its fields while the queue is disabled; ENABLE := 1 checks and starts it; ENABLE := 0 disables an idle or stopped one. -/
def State.writeQcfg (s : State) (vf q : Nat) (cfg : W64) : State :=
  let x := s.cmdQueue vf q
  if ¬ s.pagesUp vf ∨ 8 ≤ q then s
  else if x.enabled then
    if cfg.getLsbD 63 ∨ x.state = 1 then s
    else s.modQueue vf q fun x => { x with state := 4, cfg := putBits x.cfg 63 1 0, cons := x.prod, loops := [], head := .idle }
  else if cfg.getLsbD 63 then s.enableQueue vf q cfg
  else s.modQueue vf q fun x => { x with cfg := cfg &&& qcfgMask }

def execQueueEnable (vf q : Nat) (cfg : W64) (s : State) : Out := .next (s.writeQcfg vf q (putBits cfg 63 1 1))
def execQueueDisable (vf q : Nat) (s : State) : Out := .next (s.writeQcfg vf q (putBits (s.cmdQueue vf q).cfg 63 1 0))

/-! ### Answers to fault records (R289, R301, R391) -/

/-- The first answer to the record of a sequence number. -/
def FwTask.answer (t : FwTask) (seq : Nat) (resume : Bool) : FwTask :=
  match t with
  | .awaitHost n none => if n = seq then .awaitHost n (some resume) else t
  | .async l posted => .async (l.map fun e => if e.2.1 = some seq ∧ e.2.2 = none then (e.1, e.2.1, some resume) else e) posted
  | _ => t

/-- FRACT: the context that awaits the record in FRSEQ has its answer. -/
def State.fract (s : State) (vf : Nat) (resume : Bool) : State :=
  if s.pagesUp vf then
    { s with ctxs := s.ctxs.map fun e => if (s.rankOf e.2.rank).vf = vf then (e.1, { e.2 with fw := e.2.fw.map fun t => t.answer (s.vf vf).frseq resume }) else e }
  else s

def execFractResume (vf : Nat) (s : State) : Out := .next (s.fract vf true)
def execFractEnd (vf : Nat) (s : State) : Out := .next (s.fract vf false)

/-! ### Mailboxes (R380, R381, R392) -/

/-- Writes the oldest waiting record into a mailbox that has room: then PROD, then a message. A record of another generation is counted instead. -/
def State.writeRecord (s : State) (box vf : Nat) (stale : Bool) (r : List Byte) : Option State :=
  let (l, s) := s.physGet box 0x18
  let prod := fieldLE l 0 8
  if box = 0 ∨ 64 ≤ (prod + 2 ^ 64 - fieldLE l 8 8) % 2 ^ 64 then none
  else if stale then some (s.physPut (box + 0x10) (leBytes 8 ((fieldLE l 0x10 8 + 1) % 2 ^ 64)))
  else
    let next := (prod + 1) % 2 ^ 64
    let t := ((s.physPut (box + 32 + 32 * (prod % 64)) r).physPut box (leBytes 8 next)).useJhl
    some { t with messages := (vf, next) :: t.messages }

/-- INTERRUPT_RECORD: for a virtual function's mailbox, or the hypervisor's. -/
def execInterruptRecord (box : Option Nat) (s : State) : Out :=
  match box with
  | none =>
    match s.hub.hvwait with
    | [] => .next s
    | r :: l =>
      match s.writeRecord s.hub.hvmbox.toNat 0xFFFF false r with
      | none => .next s
      | some t => .next (t.modHub fun h => { h with hvwait := l })
  | some vf =>
    let v := s.vf vf
    match v.mwait with
    | [] => .next s
    | r :: l =>
      match s.writeRecord v.mbox.toNat vf (fieldLE r 2 2 != v.gen) r with
      | none => .next s
      | some t => .next (t.modVf vf fun v => { v with mwait := l })

/-- A mailbox's address: a multiple of 32. -/
def boxAddr (a : W64) : W64 := a &&& ~~~(31 : W64)

def execMbox (vf : Nat) (addr : W64) (s : State) : Out := .next (if s.pagesUp vf then s.modVf vf fun v => { v with mbox := boxAddr addr } else s)
def execHvmbox (addr : W64) (s : State) : Out := .next (if s.registersUp then s.modHub fun h => { h with hvmbox := boxAddr addr } else s)

/-- JHL_RETRAIN: a virtual function's last message is sent again; a host may receive it twice (R392). -/
def execJhlRetrain (vf : Nat) (s : State) : Out :=
  match s.messages.find? fun m => m.1 == vf with
  | some m => .next { s with messages := m :: s.messages }
  | none => .next s

/-- DLQCONS: the host has consumed dead letter records (R304, R372). -/
def execDlqcons (rank : Nat) (value : W32) (s : State) : Out := .next (s.modRank rank fun r => { r with dlqcons := value.toNat })

/-! ### The virtual function's control block (R322) -/

/-- The 256 bytes of a control block. -/
def VF.block (v : VF) : List Byte :=
  layout [(v.part, 1), (v.enable.toNat, 1), (v.gen, 2), (v.waymask, 4), (v.quant, 4), (v.cutmax, 4), (v.budgetmax, 8), (v.holdbase, 8), (v.holdbw, 4),
      (v.cpbytes, 4), (v.flits, 4), (v.beats, 4), (v.wallocs, 4), (v.holdsz, 4), (0, 8)]
    ++ v.wins.flatMap (fun (vbase, size, vk, flags) => layout [(vbase, 8), (size, 4), (vk, 2), (flags, 1), (0, 1)]) ++ List.replicate 64 0

/-- The fields that the hypervisor may write, from the bytes of a block; reserved bits stay zero. -/
def VF.ofBlock (v : VF) (l : List Byte) : VF :=
  let f := fieldLE l
  { v with
    part := f 0 1 % 16, waymask := f 4 2, quant := f 8 4, cutmax := f 0xC 4, budgetmax := f 0x10 8, holdbase := f 0x18 8 / 4096 * 4096, holdbw := f 0x20 4
    cpbytes := f 0x24 4, flits := f 0x28 4, beats := f 0x2C 4, wallocs := f 0x30 4, holdsz := f 0x34 4
    wins := (List.range 8).map fun i => (f (0x40 + 16 * i) 8 / 65536 * 65536, f (0x48 + 16 * i) 4, f (0x4C + 16 * i) 2, f (0x4E + 16 * i) 1 % 4) }

/-- Bytes of a block replaced. -/
def splice (l : List Byte) (off : Nat) (x : List Byte) : List Byte := (l.take off ++ x ++ l.drop (off + x.length)).take l.length

/-- A write of the hypervisor to a control block. A write of HOLDBASE begins a new hold store; one of CTL writes ENABLE, and RESET when its bit is set. With both bits set the reset takes place and ENABLE is 0 after it (DESIGN CHOICE, log 86). -/
def State.writeBlock (s : State) (vf off : Nat) (bytes : List Byte) : State :=
  let covers (a n : Nat) : Bool := decide (off < a + n) && decide (a < off + bytes.length)
  let l := splice (s.vf vf).block off bytes
  let s := s.modVf vf fun v =>
    let v := v.ofBlock l
    if covers 0x18 8 then { v with lastSeg := none, nextSeg := 0 } else v
  if covers 1 1 then
    if (fieldLE l 1 1).testBit 1 then s.resetVf vf
    else if (fieldLE l 1 1).testBit 0 then s.enableVf vf
    else s.modVf vf fun v => { v with enable := false }
  else s

/-- REGISTER_WRITE: registers that have no row of their own; a reserved offset ignores the write. -/
def execRegisterWrite (r : HostReg) (value : Nat) (s : State) : Out :=
  let x : W64 := BitVec.ofNat 64 value
  .next (match r with
    | .qring vf q => if s.pagesUp vf ∧ q < 8 ∧ ¬ (s.cmdQueue vf q).enabled then s.modQueue vf q fun c => { c with ring := x } else s
    | .qcfg vf q => s.writeQcfg vf q x
    | .frseq vf => if s.pagesUp vf then s.modVf vf fun v => { v with frseq := x.toNat } else s
    | .vfBlock vf off len => if s.registersUp ∧ vf < 192 ∧ off + len ≤ 256 then s.writeBlock vf off (leBytes len value) else s
    | .rkaddr => if s.registersUp then s.modHub fun h => { h with rkaddr := x } else s
    | .sealbase => if s.registersUp then s.modHub fun h => { h with sealbase := x &&& ~~~(0xFFFF : W64) } else s
    | .attbase => s.modHub fun h => { h with attbase := x &&& ~~~(0xFFFF : W64) }
    | .sealn => if s.registersUp then s.modHub fun h => { h with sealn := x } else s
    | .attnonce i => s.modHub fun h => { h with attnonce := if hi : i < 4 then h.attnonce.set i x else h.attnonce }
    | .reserved _ => s
    | .memory pa len => (s.apertureWrite? pa (leBytes len value)).getD s)

/-! ### What the registers read as (R391, R393) -/

def CmdQueue.qstat (q : CmdQueue) : Nat := q.state + q.released * 2 ^ 32

/-- An 8-byte read of a virtual function's register page; write-only registers and reserved offsets read as zero. -/
def State.readPage (s : State) (vf off : Nat) : Nat :=
  if ¬ s.pagesUp vf then 0
  else if 0x40 ≤ off ∧ off < 0x80 ∧ off % 8 = 0 then (s.cmdQueue vf ((off - 0x40) / 8)).qstat
  else if 0x100 ≤ off ∧ off < 0x180 ∧ off % 16 = 0 then (s.cmdQueue vf ((off - 0x100) / 16)).ring.toNat
  else if 0x100 ≤ off ∧ off < 0x180 ∧ off % 16 = 8 then (s.cmdQueue vf ((off - 0x100) / 16)).cfg.toNat
  else 0

/-- A read of `len` bytes of the hypervisor's register space. -/
def State.readRegister (s : State) (off len : Nat) : Nat :=
  let h := s.hub
  if off = 0x038 then h.devstat
  else if off = 0x028 then h.attbase.toNat
  else if off = 0x078 then h.attreq.toNat
  else if ¬ s.registersUp then 0
  else if off = 0x000 then h.jprod
  else if off = 0x010 then h.jovf
  else if off = 0x018 then h.sealreq.isSome.toNat
  else if off = 0x020 then h.sealbase.toNat
  else if off = 0x030 then h.cap.toNat
  else if off = 0x060 then h.sealn.toNat
  else if off = 0x068 then h.sealprod
  else if off = 0x100 then h.clpart.toNat
  else if off = 0x110 then h.collstat
  else if off = 0x120 then h.hvmbox.toNat
  else if off = 0x130 then h.reststat
  else if off = 0x148 then h.rkstat
  else if 0x1000 ≤ off ∧ off < 0x1000 + 256 * 192 then leNat (((s.vf ((off - 0x1000) / 256)).block.drop (off % 256)).take len)
  else 0

/-! ### The journal's drain and its seals (R400 to R402) -/

def execJcons (value : W64) (s : State) : Out := .next (if s.registersUp then s.modHub fun h => { h with jcons := value.toNat } else s)
def execSealcons (value : W64) (s : State) : Out := .next (if s.registersUp then s.modHub fun h => { h with sealcons := value.toNat } else s)

/-- SEALREQ: the trigger of a seal that covers the last entry (R401, R402). -/
def execSealreq (s : State) : Out :=
  .next (if s.registersUp ∧ s.hub.jprod ≠ 0 then s.modHub fun h => { h.trigger (h.jprod - 1) with sealreq := some (h.jprod - 1) } else s)

/-- An entry of the journal that the hub still has. -/
def Hub.entry (h : Hub) (seq : Nat) : List Byte := h.journal.getD (seq + h.journal.length - h.jprod) []

/-- The bytes of a seal. -/
def Hub.sealBytes (h : Hub) (last : Nat) : List Byte :=
  let head := layout [(h.sealprod, 8), (last, 8)] ++ digest32 (h.entry last) ++ layout [(h.boot, 8), (0, 8)]
  head ++ (List.range 49856).map (Config.signatureByte 1 head) ++ List.replicate 15616 0

/-- SEAL: the first seal that waits is written when the ring has room; SEALPROD then rises. A request is pending until a seal covers the entry that was the last at it. -/
def execSeal (s : State) : Out :=
  let h := s.hub
  match h.sealwait with
  | [] => .next s
  | last :: l =>
    if 1 ≤ h.sealn.toNat ∧ h.sealn.toNat ≤ 1024 ∧ h.sealprod - h.sealcons < h.sealn.toNat then
      .next ((s.physPut (h.sealbase.toNat + 65536 * (h.sealprod % h.sealn.toNat)) (h.sealBytes last)).modHub fun h =>
        { h with sealprod := h.sealprod + 1, sealwait := l, sealreq := h.sealreq.filter fun x => decide (last < x) })
    else .next s

/-! ### Attestation (R403, R404) -/

def deviceBytes (which n : Nat) : List Byte := (List.range n).map (Config.deviceByte which)

/-- An attestation report. -/
def Hub.report (h : Hub) : List Byte :=
  let nonce := h.attnonce.toList.flatMap fun w => leBytes 8 w.toNat
  let last := h.jprod - 1
  let body := layout [(1, 4), (1, 1), (0, 1), (1, 2), (h.boot, 8)] ++ nonce ++ deviceBytes 0 32 ++ deviceBytes 1 32 ++ layout [(last, 8), (0, 8)]
    ++ digest32 (h.entry last) ++ deviceBytes 2 64 ++ deviceBytes 3 64 ++ deviceBytes 4 29792
  body ++ (List.range 29792).map (Config.signatureByte 0 body) ++ List.replicate 5664 0

/-- ATTREQ: a request; then its report is written, and ATTREQ reads 0. -/
def execAttreq (s : State) : Out :=
  if s.hub.attreq then .next ((s.physPut s.hub.attbase.toNat s.hub.report).modHub fun h => { h with attreq := false })
  else .next (s.modHub fun h => { h with attreq := true })

/-! ### Power and start (R405 to R407) -/

def execCap (value : W64) (s : State) : Out := .next (if s.registersUp then s.modHub fun h => { h with cap := value } else s)
/-- THERMAL_LIMIT: the clocks are lowered, which changes time only. -/
def execThermalLimit (s : State) : Out := .next (s.modHub fun h => { h with lowered := true })
def execTemperatureLimitCleared (s : State) : Out := .next (s.modHub fun h => { h with lowered := false })
/-- THERMAL_SHUTDOWN: the device stops. -/
def execThermalShutdown (s : State) : Out := .next (s.modHub fun h => { h with shutdown := true })

/-- The journal's first entry of a boot (R399); with the journal full it waits for room, before any other entry. -/
def Hub.startEntry (h : Hub) (hcyc : Nat) : Hub := if h.room then h.startNow hcyc h.startPrev else { h with startdue := true }

/-- Keys are drawn for every virtual function. -/
def State.drawKeys (s : State) : State :=
  (List.range 192).foldl (fun s v => let (n, s) := s.draw; s.modVf v fun f => { f with key := some (Config.freshKey n) }) s

/-- POWER_ON: the next state of the start sequence; the boot count rises as it begins (DEDUCED, log 23). -/
def execPowerOn (verified : Bool) (s : State) : Out :=
  let go (n : Nat) (s : State) : Out := .next (s.modHub fun h => { h with devstat := n })
  match s.hub.devstat with
  | 1 => go (if verified then 2 else 0xE) (s.modHub fun h => { h with boot := h.boot + 1 })
  | 2 => go 3 { s with cells := [], wins := [] }
  | 3 => go 4 s.drawKeys
  | 4 => go 5 { s with routes := [], failedPorts := [] }
  | 5 => let (n, s) := s.draw; go 6 (s.modHub fun h => h.startEntry (Config.timeStamp n).toNat)
  | 6 => go 7 s
  | _ => .next s

/-- DEVICE_RESET: state 1; every key and every rank is gone, and what memory held is no longer known; the journal, its seals and their numbers and the boot count survive, as do errors of storage and links that are yet to be met. -/
def execDeviceReset (s : State) : Out :=
  let (n, s) := s.draw
  let h := s.hub
  .next { State.reset with
    free := s.free, nextId := s.nextId, agenda := s.agenda
    mem := Memory.writeCells [] (s.mem.map fun c => (c.1, Config.anyByte n c.1))
    bad := s.bad, flips := s.flips
    hub := { Hub.reset with jprod := h.jprod, jcons := h.jcons, jovf := h.jovf, jlost := h.jlost, journal := h.journal, sealprod := h.sealprod, sealcons := h.sealcons, sealwait := h.sealwait, sealreq := h.sealreq, boot := h.boot } }

end Sys2Proof.Machine
end

