-- ==== Sys2Proof/Machine/Scalar.lean ====
section
/-! DEFINITION. Machine/Scalar.lean: the S slot (R82 to R92). -/

namespace Sys2Proof.Machine

/-! ### Shared operations -/

/-- A scalar result in the low bits of its destination after `lat` steps (R82). -/
def State.scalar (s : State) (lat : Nat) (d : GR) (x : W64) : Out := .next (s.emit lat (.g d x))

/-- 1 or 0 (R83). -/
def truth (b : Bool) : W64 := if b then 1 else 0

/-- The shift count of B (R84). -/
def shiftCount (b : W64) : Nat := b.toNat % 64

/-- Bits [127:64] of a signed product (R83). -/
def mulHigh (a b : W64) : W64 := BitVec.ofInt 64 (a.toInt * b.toInt / 2 ^ 64)
/-- Bits [127:64] of an unsigned product (R83). -/
def mulHighN (a b : W64) : W64 := BitVec.ofNat 64 (a.toNat * b.toNat / 2 ^ 64)

/-- Signed quotient and remainder (R85). -/
def divRem (a b : W64) : W64 × W64 :=
  if b = 0 then (BitVec.allOnes 64, a)
  else (BitVec.ofInt 64 (a.toInt.tdiv b.toInt), BitVec.ofInt 64 (a.toInt.tmod b.toInt))
/-- Unsigned quotient and remainder (R85). -/
def divRemN (a b : W64) : W64 × W64 :=
  if b = 0 then (BitVec.allOnes 64, a) else (BitVec.ofNat 64 (a.toNat / b.toNat), BitVec.ofNat 64 (a.toNat % b.toNat))

/-- Zero bits above the highest one bit (R83). -/
def leadingZeros (a : W64) : W64 := if a = 0 then 64 else BitVec.ofNat 64 (63 - Nat.log2 a.toNat)
/-- Zero bits below the lowest one bit (R83). -/
def trailingZeros (a : W64) : W64 := BitVec.ofNat 64 (((List.range 64).find? fun i => a.getLsbD i).getD 64)
/-- One bits (R83). -/
def oneBits (a : W64) : W64 := BitVec.ofNat 64 ((List.range 64).filter fun i => a.getLsbD i).length
/-- Bit i moved to bit 63 - i (R83). -/
def bitReverse (a : W64) : W64 := a.reverse

/-- The field of `wid` + 1 bits at bit `pos` (R88). -/
def fieldAt (a : W64) (pos wid : BitVec 6) : Nat := a.toNat / 2 ^ pos.toNat % 2 ^ (wid.toNat + 1)

/-- Write of one walker field (R89): G + imm modulo 2^32. -/
def State.walkerImm (s : State) (x : Ext) (g : GR) (i : BitVec 13) : W32 := (s.rg g + immediate 13 x i.toNat).setWidth 32

/-! ### Three-register operations (R83) -/

def execSnop (s : State) : Out := .next s
def execAdd (d a b : GR) (s : State) : Out := s.scalar 1 d (s.rg a + s.rg b)
def execSub (d a b : GR) (s : State) : Out := s.scalar 1 d (s.rg a - s.rg b)
def execMul (d a b : GR) (s : State) : Out := s.scalar 3 d (s.rg a * s.rg b)
def execMulh (d a b : GR) (s : State) : Out := s.scalar 3 d (mulHigh (s.rg a) (s.rg b))
def execMulhn (d a b : GR) (s : State) : Out := s.scalar 3 d (mulHighN (s.rg a) (s.rg b))
def execDiv (d a b : GR) (s : State) : Out := s.scalar 18 d ((divRem (s.rg a) (s.rg b)).1)
def execDivn (d a b : GR) (s : State) : Out := s.scalar 18 d ((divRemN (s.rg a) (s.rg b)).1)
def execRem (d a b : GR) (s : State) : Out := s.scalar 18 d ((divRem (s.rg a) (s.rg b)).2)
def execRemn (d a b : GR) (s : State) : Out := s.scalar 18 d ((divRemN (s.rg a) (s.rg b)).2)
def execAnd (d a b : GR) (s : State) : Out := s.scalar 1 d (s.rg a &&& s.rg b)
def execOr (d a b : GR) (s : State) : Out := s.scalar 1 d (s.rg a ||| s.rg b)
def execXor (d a b : GR) (s : State) : Out := s.scalar 1 d (s.rg a ^^^ s.rg b)
def execAndn (d a b : GR) (s : State) : Out := s.scalar 1 d (s.rg a &&& ~~~(s.rg b))
def execShl (d a b : GR) (s : State) : Out := s.scalar 1 d (s.rg a <<< shiftCount (s.rg b))
def execShr (d a b : GR) (s : State) : Out := s.scalar 1 d (s.rg a >>> shiftCount (s.rg b))
def execSar (d a b : GR) (s : State) : Out := s.scalar 1 d ((s.rg a).sshiftRight (shiftCount (s.rg b)))
def execRol (d a b : GR) (s : State) : Out := s.scalar 1 d ((s.rg a).rotateLeft (shiftCount (s.rg b)))
def execMin (d a b : GR) (s : State) : Out := s.scalar 1 d (if (s.rg a).slt (s.rg b) then s.rg a else s.rg b)
def execMax (d a b : GR) (s : State) : Out := s.scalar 1 d (if (s.rg a).slt (s.rg b) then s.rg b else s.rg a)
def execMinn (d a b : GR) (s : State) : Out := s.scalar 1 d (if (s.rg a).ult (s.rg b) then s.rg a else s.rg b)
def execMaxn (d a b : GR) (s : State) : Out := s.scalar 1 d (if (s.rg a).ult (s.rg b) then s.rg b else s.rg a)
def execSeq (d a b : GR) (s : State) : Out := s.scalar 1 d (truth (s.rg a == s.rg b))
def execSne (d a b : GR) (s : State) : Out := s.scalar 1 d (truth (s.rg a != s.rg b))
def execSlt (d a b : GR) (s : State) : Out := s.scalar 1 d (truth ((s.rg a).slt (s.rg b)))
def execSltn (d a b : GR) (s : State) : Out := s.scalar 1 d (truth ((s.rg a).ult (s.rg b)))
def execSle (d a b : GR) (s : State) : Out := s.scalar 1 d (truth ((s.rg a).sle (s.rg b)))
def execSlen (d a b : GR) (s : State) : Out := s.scalar 1 d (truth ((s.rg a).ule (s.rg b)))
def execClz (d a : GR) (s : State) : Out := s.scalar 1 d (leadingZeros (s.rg a))
def execCtz (d a : GR) (s : State) : Out := s.scalar 1 d (trailingZeros (s.rg a))
def execPopc (d a : GR) (s : State) : Out := s.scalar 1 d (oneBits (s.rg a))
def execBrev (d a : GR) (s : State) : Out := s.scalar 1 d (bitReverse (s.rg a))
def execSel (d a b c : GR) (s : State) : Out := s.scalar 1 d (if s.rg c ≠ 0 then s.rg a else s.rg b)

/-! ### Immediates (R86) -/

def execAddi (x : Ext) (d a : GR) (i : BitVec 15) (s : State) : Out := s.scalar 1 d (s.rg a + immediate 15 x i.toNat)
def execAndi (x : Ext) (d a : GR) (i : BitVec 15) (s : State) : Out := s.scalar 1 d (s.rg a &&& immediate 15 x i.toNat)
def execOri (x : Ext) (d a : GR) (i : BitVec 15) (s : State) : Out := s.scalar 1 d (s.rg a ||| immediate 15 x i.toNat)
def execXori (x : Ext) (d a : GR) (i : BitVec 15) (s : State) : Out := s.scalar 1 d (s.rg a ^^^ immediate 15 x i.toNat)
def execSlti (x : Ext) (d a : GR) (i : BitVec 15) (s : State) : Out := s.scalar 1 d (truth ((s.rg a).slt (immediate 15 x i.toNat)))
def execLih (x : Ext) (d a : GR) (i : BitVec 15) (s : State) : Out := s.scalar 1 d (zext64 32 (s.rg a).toNat + (immediate 15 x i.toNat <<< 32))
def execLi (x : Ext) (d : GR) (i : BitVec 15) (s : State) : Out := s.scalar 1 d (immediate 15 x i.toNat)
def execShli (d a : GR) (i : BitVec 15) (s : State) : Out := s.scalar 1 d (s.rg a <<< i.toNat)
def execShri (d a : GR) (i : BitVec 15) (s : State) : Out := s.scalar 1 d (s.rg a >>> i.toNat)
def execSari (d a : GR) (i : BitVec 15) (s : State) : Out := s.scalar 1 d ((s.rg a).sshiftRight i.toNat)

/-! ### Bit fields (R88) -/

def execBfx (d a : GR) (pos wid : BitVec 6) (s : State) : Out := s.scalar 1 d (sext64 (wid.toNat + 1) (fieldAt (s.rg a) pos wid))
def execBfxn (d a : GR) (pos wid : BitVec 6) (s : State) : Out := s.scalar 1 d (BitVec.ofNat 64 (fieldAt (s.rg a) pos wid))
def execBfi (d a : GR) (pos wid : BitVec 6) (s : State) : Out :=
  s.scalar 1 d (putBits (s.rg d) pos.toNat (wid.toNat + 1) ((s.rg a).toNat % 2 ^ (wid.toNat + 1)))
def execSext (d a : GR) (wid : BitVec 6) (s : State) : Out := s.scalar 1 d (sext64 (wid.toNat + 1) (s.rg a).toNat)
def execZext (d a : GR) (wid : BitVec 6) (s : State) : Out := s.scalar 1 d (zext64 (wid.toNat + 1) (s.rg a).toNat)

/-! ### Walkers (R89) -/

/-- MOVA reads the value before any step mark of the issue acts. -/
def execMova (g : GR) (w : AR) (s : State) : Out := s.scalar 1 g ((s.walker w).setWidth 64)
def execWset (x : Ext) (g : GR) (w : AR) (i : BitVec 13) (s : State) : Out := .next (s.emit 1 (.walkSet w (s.walkerImm x g i)))
def execWstep (x : Ext) (g : GR) (w : AR) (i : BitVec 13) (s : State) : Out := .next (s.emit 1 (.walkStep w (s.walkerImm x g i)))
def execWstride (x : Ext) (g : GR) (w : AR) (l : BitVec 3) (i : BitVec 13) (s : State) : Out :=
  .next (s.emit 1 (.walkStride w l.toNat (s.walkerImm x g i)))

/-! ### System registers (R12, R91, R312) -/

/-- sys.mowner as the mode sees it: in U mode only MOWNER, 0xFFFE for an owner of another rank (R312). -/
def State.mownerRead (s : State) : W64 :=
  let c := s.cx
  let k := s.core c.coreNum
  if c.mode then BitVec.ofNat 64 (k.mowner.toNat + k.mhwc.toNat * 2 ^ 16 + k.mdirty.toNat * 2 ^ 19)
  else
    let foreign := match s.ctxAt c.coreNum k.mhwc.toNat with
      | some j => (s.ctx j).rank != c.rank
      | none => false
    if k.mowner ≠ 0xFFFF ∧ foreign = true then 0xFFFE else k.mowner.setWidth 64

/-- A system register's value at issue. -/
def State.sysRead (s : State) : SysReg → W64
  | .status => s.cx.status
  | .cause => BitVec.ofNat 64 s.cx.causeField
  | .faddr => s.cx.faddr
  | .epc => s.cx.epc
  | .flags => s.cx.flags
  | .ord => s.cx.ord
  | .ctxid => s.cx.ctxid
  | .nctx => s.cx.nctx
  | .vk => BitVec.ofNat 64 (s.rankOf s.cx.rank).vk
  | .nvk => BitVec.ofNat 64 (s.rankOf s.cx.rank).nvk
  | .cutcount => s.cx.cutcount
  | .mowner => s.mownerRead
  | .msave => s.cx.msave
  | .rngkey => s.cx.rngkey
  | .rngctrLo => s.cx.rngctr.setWidth 64
  | .rngctrHi => (s.cx.rngctr >>> 64).setWidth 64

/-- What U mode may read (R91). -/
def sysReadable (mode : Bool) (r : SysReg) : Bool := mode || r != .msave

/-- What each mode may write (R91). -/
def sysWritable (mode : Bool) (r : SysReg) : Bool :=
  match r with
  | .flags | .rngctrLo | .rngctrHi => true
  | .status | .cause | .faddr | .epc | .mowner | .msave => mode
  | .ord | .ctxid | .nctx | .vk | .nvk | .cutcount | .rngkey => false

def execSysrd (g : GR) (r : SysReg) (s : State) : Out :=
  if sysReadable s.cx.mode r then s.scalar 1 g (s.sysRead r) else .next (s.slotFault .privilege 0)

def execSyswr (g : GR) (r : SysReg) (s : State) : Out :=
  if sysWritable s.cx.mode r then
    .next (s.emit 1 (if r = .mowner then .mownerWrite (s.rg g) s.cx.hw else .sys r (s.rg g)))
  else .next (s.slotFault .privilege 0)

end Sys2Proof.Machine
end

