-- ==== Sys2Proof/Machine/Slots.lean ====
section
/-! DEFINITION. Machine/Slots.lean: the meaning of a slot operation as the issue of a bundle runs it; the same calls as Machine/Dispatch.lean, which also holds the events. -/

namespace Sys2Proof.Machine

/-- One slot operation, acting for the context `cur`; an event is not a slot operation and changes nothing here. -/
def slotExec (i : Instr) (s : State) : Host.Outcome State Fault Refusal :=
  match i with
  | .snop => execSnop s
  | .add d a b => execAdd d a b s
  | .sub d a b => execSub d a b s
  | .mul d a b => execMul d a b s
  | .mulh d a b => execMulh d a b s
  | .mulhn d a b => execMulhn d a b s
  | .div d a b => execDiv d a b s
  | .divn d a b => execDivn d a b s
  | .rem d a b => execRem d a b s
  | .remn d a b => execRemn d a b s
  | .and d a b => execAnd d a b s
  | .or d a b => execOr d a b s
  | .xor d a b => execXor d a b s
  | .andn d a b => execAndn d a b s
  | .shl d a b => execShl d a b s
  | .shr d a b => execShr d a b s
  | .sar d a b => execSar d a b s
  | .rol d a b => execRol d a b s
  | .min d a b => execMin d a b s
  | .max d a b => execMax d a b s
  | .minn d a b => execMinn d a b s
  | .maxn d a b => execMaxn d a b s
  | .seq d a b => execSeq d a b s
  | .sne d a b => execSne d a b s
  | .slt d a b => execSlt d a b s
  | .sltn d a b => execSltn d a b s
  | .sle d a b => execSle d a b s
  | .slen d a b => execSlen d a b s
  | .clz d a => execClz d a s
  | .ctz d a => execCtz d a s
  | .popc d a => execPopc d a s
  | .brev d a => execBrev d a s
  | .addi x d a im => execAddi x d a im s
  | .andi x d a im => execAndi x d a im s
  | .ori x d a im => execOri x d a im s
  | .xori x d a im => execXori x d a im s
  | .shli d a im => execShli d a im s
  | .shri d a im => execShri d a im s
  | .sari d a im => execSari d a im s
  | .slti x d a im => execSlti x d a im s
  | .li x d im => execLi x d im s
  | .lih x d a im => execLih x d a im s
  | .bfx d a pos wid => execBfx d a pos wid s
  | .bfxn d a pos wid => execBfxn d a pos wid s
  | .bfi d a pos wid => execBfi d a pos wid s
  | .sext d a wid => execSext d a wid s
  | .zext d a wid => execZext d a wid s
  | .sel d a b c => execSel d a b c s
  | .mova g w => execMova g w s
  | .wset x g w im => execWset x g w im s
  | .wstep x g w im => execWstep x g w im s
  | .wstride x g w l im => execWstride x g w l im s
  | .sysrd g sx => execSysrd g sx s
  | .syswr g sx => execSyswr g sx s
  | .cnop => execCnop s
  | .beq x a b o => execBeq x a b o s
  | .bne x a b o => execBne x a b o s
  | .blt x a b o => execBlt x a b o s
  | .bge x a b o => execBge x a b o s
  | .bltn x a b o => execBltn x a b o s
  | .bgen x a b o => execBgen x a b o s
  | .jmp x o => execJmp x o s
  | .jmpg a => execJmpg a s
  | .loop x l n r c => execLoop x l n r c s
  | .loopbrk l => execLoopbrk l s
  | .wait ld st cp tl => execWait ld st cp tl s
  | .yield => execYield s
  | .exit => execExit s
  | .gjoin a g => execGjoin a g s
  | .gleave a g => execGleave a g s
  | .gbar a g => execGbar a g s
  | .gcnt d a g => execGcnt d a g s
  | .pref x a o => execPref x a o s
  | .trap code => execTrap code s
  | .tret => execTret s
  | .ordset o => execOrdset o s
  | .lnop => execLnop s
  | .ld x g a sz o => execLd x g a sz o s
  | .st x g a sz o => execSt x g a sz o s
  | .vld x v a p o => execVld x v a p o s
  | .vst x v a p o => execVst x v a p o s
  | .vlds v w m p => execVlds v w m p s
  | .vsts v w m p => execVsts v w m p s
  | .spld g w m sz => execSpld g w m sz s
  | .spst g w m sz => execSpst g w m sz s
  | .lda x g a sz scope o => execLda x g a sz scope o s
  | .stl x g a sz scope o => execStl x g a sz scope o s
  | .amo g a b op sc scope wide => execAmo g a b op sc scope wide s
  | .cas g a b c sc scope wide => execCas g a b c sc scope wide s
  | .amow a b => execAmow a b s
  | .wopen a b => execWopen a b s
  | .wclose a => execWclose a s
  | .fence scope kind => execFence scope kind s
  | .drain => execDrain s
  | .waitm g a b scope => execWaitm g a b scope s
  | .prefd x a l2 o => execPrefd x a l2 o s
  | .expose a b => execExpose a b s
  | .fix a b => execFix a b s
  | .ldrec g a b => execLdrec g a b s
  | .clean x n a o => execClean x n a o s
  | .vnop => execVnop s
  | .vadd x d a b t m p => execVadd x d a b t m p s
  | .vsub x d a b t m p => execVsub x d a b t m p s
  | .vmul x d a b t m p => execVmul x d a b t m p s
  | .vfma x d a b t m p => execVfma x d a b t m p s
  | .vmin x d a b t p => execVmin x d a b t p s
  | .vmax x d a b t p => execVmax x d a b t p s
  | .vabs x d a t p => execVabs x d a t p s
  | .vneg x d a t p => execVneg x d a t p s
  | .vadds x d a b t p => execVadds x d a b t p s
  | .vsubs x d a b t p => execVsubs x d a b t p s
  | .vand x d a b t p => execVand x d a b t p s
  | .vor x d a b t p => execVor x d a b t p s
  | .vxor x d a b t p => execVxor x d a b t p s
  | .vshl x d a b t p => execVshl x d a b t p s
  | .vshr x d a b t p => execVshr x d a b t p s
  | .vsar x d a b t p => execVsar x d a b t p s
  | .vclamp x d a b t p => execVclamp x d a b t p s
  | .vdiv x d a b t m p => execVdiv x d a b t m p s
  | .vsqrt x d a t m p => execVsqrt x d a t m p s
  | .vrcp x d a t m p => execVrcp x d a t m p s
  | .vrsq x d a t m p => execVrsq x d a t m p s
  | .vexp x d a t m p => execVexp x d a t m p s
  | .vexp2 x d a t m p => execVexp2 x d a t m p s
  | .vlog2 x d a t m p => execVlog2 x d a t m p s
  | .vtanh x d a t m p => execVtanh x d a t m p s
  | .vrint x d a t m p => execVrint x d a t m p s
  | .vcmp x pd a b t c p => execVcmp x pd a b t c p s
  | .vsel x d a b t p => execVsel x d a b t p s
  | .vcvt x d a f t m toTy => execVcvt x d a f t m toTy s
  | .vred x d a op t m p => execVred x d a op t m p s
  | .vscan x d a op t m p => execVscan x d a op t m p s
  | .vpart x d g t p => execVpart x d g t p s
  | .vgath x d a b t p => execVgath x d a b t p s
  | .vscat x d a b t p => execVscat x d a b t p s
  | .vperm x d a b t p => execVperm x d a b t p s
  | .vzip x d a b t p => execVzip x d a b t p s
  | .vunzip x d a b t p => execVunzip x d a b t p s
  | .vbcast x d g t p => execVbcast x d g t p s
  | .vext x d a g t => execVext x d a g t s
  | .vins x d a g t => execVins x d a g t s
  | .viota x d g t p => execViota x d g t p s
  | .vrand x d t p => execVrand x d t p s
  | .plog d a b lop => execPlog d a b lop s
  | .pcnt a b g => execPcnt a b g s
  | .vmov x d a t p => execVmov x d a t p s
  | .mnop => execMnop s
  | .mpush a am sx sm qs h => execMpush a am sx sm qs h s
  | .mpushz a am sx sm qs h => execMpushz a am sx sm qs h s
  | .mdrain a am d h => execMdrain a am d h s
  | .mdrainz a am d h => execMdrainz a am d h s
  | .mdrains a am sx sm h => execMdrains a am sx sm h s
  | .mdrainw a am g h => execMdrainw a am g h s
  | .mzero a am h => execMzero a am h s
  | .mswap => execMswap s
  | .mmodeWrap h => execMmodeWrap h s
  | .mmodeSat h => execMmodeSat h s
  | .mmodeClrovf h => execMmodeClrovf h s
  | .mstsave a h => execMstsave a h s
  | .mstload a h => execMstload a h s
  | .mlds w mark => execMlds w mark s
  | .mldst w mark => execMldst w mark s
  | .mldss w mark => execMldss w mark s
  | .xnop => execXnop s
  | .cpLd a b x sx o => execCpLd a b x sx o s
  | .cpSt a b x sx o => execCpSt a b x sx o s
  | .cpMv b x sx o => execCpMv b x sx o s
  | .cpm a b x n o => execCpm a b x n o s
  | .cpg a b x sx o => execCpg a b x sx o s
  | .cps a b x sx o => execCps a b x sx o s
  | .cpw a x sx o => execCpw a x sx o s
  | .cpfScratch b x sx o => execCpfScratch b x sx o s
  | .cpfGlobal a b x o => execCpfGlobal a b x o s
  | .xshape a b x h => execXshape a b x h s
  | .spdef a n size elem => execSpdef a n size elem s
  | .sbind q n => execSbind q n s
  | .sbindNone q => execSbindNone q s
  | .spadvP a n => execSpadvP a n s
  | .spadvC a n => execSpadvC a n s
  | .xfmt a b => execXfmt a b s
  | .qpost a k => execQpost a k s
  | .qtake a d k => execQtake a d k s
  | .launch a => execLaunch a s
  | .xcoll a => execXcoll a s
  | .xshuf a => execXshuf a s
  | .xstat d what n => execXstat d what n s
  | .rngsetAdd a b => execRngsetAdd a b s
  | .rngsetSub a b => execRngsetSub a b s
  | .loadRetire _ => .next s
  | .accessPerform _ _ => .next s
  | .windowCloseWrite _ => .next s
  | .restoration _ _ _ => .next s
  | .copyCommandStart _ => .next s
  | .spoolElementFire _ _ => .next s
  | .copyCommandRetire _ => .next s
  | .commandFailure _ => .next s
  | .evaluatorStart _ _ => .next s
  | .barrierComplete _ _ => .next s
  | .queueTermination _ _ => .next s
  | .launchPlacement _ _ => .next s
  | .parkedLaunchDrain _ => .next s
  | .childQueueStart _ => .next s
  | .launchComplete _ => .next s
  | .cmdLaunch _ _ => .next s
  | .cmdLaunchIndirect _ _ => .next s
  | .waitev _ _ => .next s
  | .waitevSatisfied _ _ => .next s
  | .signal _ _ => .next s
  | .cmdLoop _ _ => .next s
  | .cmdIf _ _ => .next s
  | .cmdCopy _ _ => .next s
  | .tlbinv _ _ => .next s
  | .holdpoint _ _ => .next s
  | .makeResident _ => .next s
  | .consistentCut _ => .next s
  | .quantumExpiry _ => .next s
  | .queueVacancy _ _ _ => .next s
  | .packetRoute _ => .next s
  | .collectivePacket _ _ => .next s
  | .slotRequest _ _ _ => .next s
  | .collectiveRetire _ _ => .next s
  | .holdNotice _ _ _ => .next s
  | .resumeNotice _ _ _ => .next s
  | .shufflePacket _ => .next s
  | .pairingTimeout _ => .next s
  | .overprintDecode _ => .next s
  | .reissuePlain _ _ _ _ => .next s
  | .shuffleAbort _ _ => .next s
  | .shuffleRetire _ _ => .next s
  | .interruptRecord _ => .next s
  | .powerOn _ => .next s
  | .bundleIssue _ => .next s
  | .fixedLatencyLanding _ => .next s
  | .beatLanding _ => .next s
  | .walkComplete _ _ _ => .next s
  | .windowAdd _ => .next s
  | .boundaryFailureTrap _ => .next s
  | .asyncTrap _ => .next s
  | .preempt _ => .next s
  | .budgetExceeded _ => .next s
  | .cutOverrun _ => .next s
  | .matrixSwitch _ => .next s
  | .latentCellRead _ _ => .next s
  | .tierMove _ _ _ => .next s
  | .deschedule _ => .next s
  | .cutAbandon _ => .next s
  | .budgetWindowEnd _ _ => .next s
  | .lastCollection _ => .next s
  | .lastCollectionOverrun _ _ => .next s
  | .restore _ => .next s
  | .restoreReplay _ => .next s
  | .vfReset _ => .next s
  | .vfEnable _ => .next s
  | .migration _ _ _ _ => .next s
  | .rankForget _ => .next s
  | .clpart _ => .next s
  | .linkFailure _ => .next s
  | .slotLeaseExpiry _ => .next s
  | .collTimeout _ _ => .next s
  | .shuffleTimeout _ _ => .next s
  | .spill _ _ => .next s
  | .retry _ => .next s
  | .sealcons _ => .next s
  | .jcons _ => .next s
  | .mbox _ _ => .next s
  | .hvmbox _ => .next s
  | .doorbell _ _ _ => .next s
  | .qctlRestart _ _ => .next s
  | .qctlRestartAfter _ _ => .next s
  | .qctlDiscard _ _ => .next s
  | .fractResume _ => .next s
  | .fractEnd _ => .next s
  | .queueEnable _ _ _ => .next s
  | .queueDisable _ _ => .next s
  | .cap _ => .next s
  | .registerWrite _ _ => .next s
  | .hostWindowRead _ _ _ _ => .next s
  | .hostWindowWrite _ _ _ _ => .next s
  | .jhlRetrain _ => .next s
  | .routingTableWrite _ _ => .next s
  | .dlqcons _ _ => .next s
  | .rankCreate => .next s
  | .retryResend => .next s
  | .seal => .next s
  | .sealreq => .next s
  | .attreq => .next s
  | .thermalLimit => .next s
  | .thermalShutdown => .next s
  | .deviceReset => .next s
  | .temperatureLimitCleared => .next s

end Sys2Proof.Machine
end

