-- ==== Sys2Proof/Machine/Issue.lean ====
section
/-! DEFINITION. Machine/Issue.lean: the issue of a bundle (R17, R52, R67 to R77, R152 to R155, R292, R293, R296, R317, R318). -/

namespace Sys2Proof.Machine

/-! ### Operations in effect (R67, R69, R296) -/

def stickyAt (t : Sticky) (j : Nat) : Option Instr :=
  match j with
  | 2 => t.l
  | 3 => t.v
  | 4 => t.m
  | 5 => t.x
  | _ => none

/-- The NOP of a slot that has a sticky operation (R67). -/
def isNop (i : Instr) : Bool := i == .lnop || i == .vnop || i == .mnop || i == .xnop

/-- A present word replaces the slot's sticky operation when its slot commits. -/
def stickyPut (t : Sticky) (j : Nat) (i : Instr) : Sticky :=
  let x := if isNop i then none else some i
  match j with
  | 2 => { t with l := x }
  | 3 => { t with v := x }
  | 4 => { t with m := x }
  | 5 => { t with x := x }
  | _ => t

/-- What a slot does in an issue: an operation, present or sticky; a reserved encoding; nothing. -/
inductive SlotAct where
  | op (i : Instr) (present : Bool)
  | reserved
  | idle
  deriving DecidableEq, Repr

/-- The act of slot j in the present context's next issue of a bundle: C at the first issue only, and from SRES on. -/
def Ctx.actOf (c : Ctx) (b : Bundle) (j : Nat) : SlotAct :=
  if j < c.sres ∨ (j = 6 ∧ c.rpos ≠ 0) then .idle
  else
    match b.words.find? fun w => w.slot == j with
    | some w => match w.op with
      | some i => .op i true
      | none => .reserved
    | none => match stickyAt c.sticky j with
      | some i => .op i false
      | none => .idle

/-- The acts of the issue in slot order. -/
def Ctx.acts (c : Ctx) (b : Bundle) : List (Nat × SlotAct) := (List.range 7).map fun j => (j, c.actOf b j)

/-- The operations in effect with their slots. -/
def opsOf (l : List (Nat × SlotAct)) : List (Nat × Instr) :=
  l.filterMap fun e => match e.2 with
    | .op i _ => some (e.1, i)
    | .reserved | .idle => none

/-! ### Structural conflicts (R48, R76, R77, R282) -/

/-- A write target of R76. -/
inductive WKey where
  | g (r : GR)
  | v (r : VR)
  | p (r : PR)
  | o (t : Target)
  deriving DecidableEq, Repr

def Uses.writes (u : Uses) : List WKey :=
  (u.gd.filter (· != 0)).map .g ++ u.vd.map .v ++ (u.pd.filter (· != 0)).map .p ++ u.other.map .o

/-- The copy command that an operation would make. -/
def commandOf (i : Instr) (s : State) : Option Cmd :=
  match i with
  | .cpLd a b x d o => some (cmdCpLd a b x d o s)
  | .cpSt a b x d o => some (cmdCpSt a b x d o s)
  | .cpMv b x d o => some (cmdCpMv b x d o s)
  | .cpm a b x n o => some (cmdCpm a b x n o s)
  | .cpg a b x d o => some (cmdCpg a b x d o s)
  | .cps a b x d o => some (cmdCps a b x d o s)
  | .cpw a x d o => some (cmdCpw a x d o s)
  | .cpfScratch b x d o => some (cmdCpfScratch b x d o s)
  | .cpfGlobal a b x o => some (cmdCpfGlobal a b x o s)
  | _ => none

/-- Whether an operation draws from the random stream (R48). -/
def State.draws (s : State) (i : Instr) : Bool :=
  match i with
  | .vrand .. => true
  | .vcvt _ _ _ _ _ m _ => m == .sr
  | _ => match commandOf i s with
    | some c => c.blocksDrawn s.cx != 0
    | none => false

/-- Whether an operation writes sys.rngctr itself. -/
def Uses.setsRng (u : Uses) : Bool := u.other.contains (.sys .rngctrLo) || u.other.contains (.sys .rngctrHi)

/-- Sum of a count over the operations of an issue. -/
def total (l : List (Nat × Instr × Uses)) (f : Uses → Nat) : Nat := (l.map fun e => f e.2.2).sum

/-- The slots that a limit on a count makes offending. -/
def overLimit (l : List (Nat × Instr × Uses)) (f : Uses → Nat) (limit : Nat) : List Nat :=
  if limit < total l f then (l.filter fun e => f e.2.2 != 0).map (·.1) else []

/-- The slots that hold an offending operation. -/
def State.conflicts (s : State) (ops : List (Nat × Instr)) : List Nat :=
  let l := ops.map fun e => (e.1, e.2, usesOf s.cx e.2)
  let ws := l.flatMap fun e => e.2.2.writes
  let qs := l.flatMap fun e => e.2.2.q
  let rng := l.any (fun e => e.2.2.setsRng) && l.any fun e => s.draws e.2.1
  (l.filter fun e => e.2.2.writes.any fun k => decide (1 < ws.count k)).map (·.1)
    ++ (l.filter fun e => e.2.2.q.any fun k => decide (1 < qs.count k)).map (·.1)
    ++ overLimit l (·.rowReads) 3 ++ overLimit l (·.rowWrites) 2
    ++ overLimit l (fun u => (u.g.filter (· != 0)).length) 6 ++ overLimit l (fun u => (u.gd.filter (· != 0)).length) 3
    ++ overLimit l (·.v) 4 ++ overLimit l (·.vd.length) 2
    ++ (if rng then (l.filter fun e => e.2.2.setsRng || s.draws e.2.1).map (·.1) else [])

/-- SMASK from a list of slots (R77). -/
def smaskOf (l : List Nat) : Nat := l.foldl (fun m j => m ||| 2 ^ j) 0

/-- SMASK of an illegal bundle, 0 for a legal one (R72, R74 to R76). -/
def State.illegalMask (s : State) (b : Bundle) (acts : List (Nat × SlotAct)) : Nat :=
  let c := s.cx
  let header := !b.hdr.ok || (c.passedOver b.hdr).isNone || (b.hdr.quiet && !c.mode && decide (c.kernel.qsites ≤ b.hdr.cut))
  smaskOf ((if header then [7] else []) ++ (acts.filter fun e => e.2 == .reserved).map (·.1) ++ s.conflicts (opsOf acts))

/-! ### Integrity of what a slot reads (R305) -/

/-- A row, the scale slot of a row, and the side-table entry of an AQ row, as spans of the window: address and bytes. -/
def rowSpan (r : Nat) : Nat × Nat := (256 * r, 256)
def Ctx.scaleSpan (c : Ctx) (r : Nat) : List (Nat × Nat) := if (emFmt (c.emOfRow r)).isBlock then [(slotOfRow (256 * r), 16)] else []
def Ctx.sideSpan (c : Ctx) (r : Nat) : List (Nat × Nat) := if (emFmt (c.emOfRow r)).isAq then [(65536 * emSide (c.emOfRow r) + 64 * (r % 256), 64)] else []

/-- What a shadow operation reads of the window: its row, and with MLDS the row's scales or side-table entry (R39, R139). -/
def State.shadowSpans (s : State) (op : ShadowOp) (w : AR) : List (Nat × Nat) :=
  let r := (s.walker w).toNat / 256
  rowSpan r :: (if op = .mlds then s.cx.scaleSpan r ++ s.cx.sideSpan r else [])

/-- What an operation reads of the window. -/
def State.spansRead (s : State) (i : Instr) : List (Nat × Nat) :=
  let w (a : AR) : Nat := (s.walker a).toNat / 256
  let sh (h : Option Shadow) : List (Nat × Nat) := match h with | some x => s.shadowSpans x.op x.w | none => []
  let act (a : AR) (qs : Bool) : List (Nat × Nat) :=
    let r := if qs then s.cx.streamRow (a.setWidth 3) else w a
    rowSpan r :: s.cx.scaleSpan r
  match i with
  | .vlds _ a _ _ | .spld _ a _ _ => [rowSpan (w a)]
  | .mpush _ _ a _ qs h | .mpushz _ _ a _ qs h => act a qs ++ sh h
  | .mdrain _ _ _ h | .mdrainz _ _ _ h | .mdrains _ _ _ _ h | .mdrainw _ _ _ h | .mzero _ _ h | .mmodeWrap h | .mmodeSat h | .mmodeClrovf h
  | .mstsave _ h | .mstload _ h => sh h
  | .mlds a _ => s.shadowSpans .mlds a
  | .mldst a _ => s.shadowSpans .mldst a
  | .mldss a _ => s.shadowSpans .mldss a
  | _ => (usesOf s.cx i).q.map fun q => rowSpan (s.cx.streamRow q)

/-- The p registers that an operation reads: its predicate, what PLOG and PCNT combine, and the predicate of a VCVT's extension word (R117). -/
def predsRead : Instr → List PR
  | .vld _ _ _ p _ | .vst _ _ _ p _ | .vlds _ _ _ p | .vsts _ _ _ p => [p]
  | .vadd _ _ _ _ _ _ p | .vsub _ _ _ _ _ _ p | .vmul _ _ _ _ _ _ p | .vfma _ _ _ _ _ _ p | .vdiv _ _ _ _ _ _ p | .vcmp _ _ _ _ _ _ p => [p]
  | .vmin _ _ _ _ _ p | .vmax _ _ _ _ _ p | .vadds _ _ _ _ _ p | .vsubs _ _ _ _ _ p | .vand _ _ _ _ _ p | .vor _ _ _ _ _ p | .vxor _ _ _ _ _ p
  | .vshl _ _ _ _ _ p | .vshr _ _ _ _ _ p | .vsar _ _ _ _ _ p | .vclamp _ _ _ _ _ p | .vsel _ _ _ _ _ p => [p]
  | .vgath _ _ _ _ _ p | .vscat _ _ _ _ _ p | .vperm _ _ _ _ _ p | .vzip _ _ _ _ _ p | .vunzip _ _ _ _ _ p => [p]
  | .vabs _ _ _ _ p | .vneg _ _ _ _ p | .vpart _ _ _ _ p | .vbcast _ _ _ _ p | .viota _ _ _ _ p | .vrand _ _ _ p | .vmov _ _ _ _ p => [p]
  | .vsqrt _ _ _ _ _ p | .vrcp _ _ _ _ _ p | .vrsq _ _ _ _ _ p | .vexp _ _ _ _ _ p | .vexp2 _ _ _ _ _ p | .vlog2 _ _ _ _ _ p | .vtanh _ _ _ _ _ p
  | .vrint _ _ _ _ _ p | .vred _ _ _ _ _ _ p | .vscan _ _ _ _ _ _ p => [p]
  | .vcvt x _ _ _ _ _ _ => [(x.map (·.px)).getD 0]
  | .plog _ a b _ | .pcnt a b _ => [a, b]
  | _ => []

/-- The walkers that an operation reads. -/
def walkersRead : Instr → List AR
  | .mova _ w => [w]
  | .vlds _ w _ _ | .vsts _ w _ _ | .spld _ w _ _ | .spst _ w _ _ | .mlds w _ | .mldst w _ | .mldss w _ => [w]
  | .mpush a _ w _ qs h | .mpushz a _ w _ qs h => a :: (if qs then [] else [w]) ++ h.toList.map (·.w)
  | .mdrain a _ _ h | .mdrainz a _ _ h | .mdrainw a _ _ h | .mzero a _ h => a :: h.toList.map (·.w)
  | .mdrains a _ w _ h => a :: w :: h.toList.map (·.w)
  | .mmodeWrap h | .mmodeSat h | .mmodeClrovf h | .mstsave _ h | .mstload _ h => h.toList.map (·.w)
  | .cpLd _ _ _ d _ | .cpSt _ _ _ d _ | .cpMv _ _ d _ | .cpg _ _ _ d _ | .cps _ _ _ d _ | .cpw _ _ d _ | .cpfScratch _ _ d _ =>
    match d with
    | .walker w _ => [w]
    | .spool _ => []
  | _ => []

/-- The shape registers that an operation reads. -/
def shapesRead : Instr → List XR
  | .cpLd _ _ x _ _ | .cpSt _ _ x _ _ | .cpMv _ x _ _ | .cpm _ _ x _ _ | .cpg _ _ x _ _ | .cps _ _ x _ _ | .cpw _ x _ _ | .cpfScratch _ x _ _
  | .cpfGlobal _ _ x _ => [x]
  | _ => []

/-- Whether an operation reads a plane or the accumulator. -/
def readsMatrix (i : Instr) : Bool :=
  match i with
  | .mpush .. | .mpushz .. | .mdrain .. | .mdrainz .. | .mdrains .. | .mdrainw .. | .mstsave .. => true
  | _ => false

/-- Whether an operation reads a register. -/
def Ctx.readsReg (c : Ctx) (i : Instr) (x : Spoilt) : Bool :=
  match x with
  | .g r => (usesOf c i).g.any (·.toNat == r)
  | .v r _ => (usesOf c i).vs.any (·.toNat == r)
  | .p r => r != 0 && (predsRead i).any (·.toNat == r)
  | .a r => (walkersRead i).any (·.toNat == r)
  | .x r => (shapesRead i).any (·.toNat == r)
  | .q r => (usesOf c i).q.any (·.toNat == r)
  | .row .. => false

/-- Whether an operation reads a register that fails its envelope check. -/
def Ctx.spoiltReg (c : Ctx) (i : Instr) : Bool := c.bad.any (c.readsReg i)

/-- What an operation reads and ECC can correct is corrected (R398). -/
def State.correctRead (s : State) (i : Instr) : State :=
  if s.cx.corr.isEmpty then s else s.correctUnits s.cur fun x => s.cx.readsReg i x || (s.spansRead i).any x.inRow

/-- The address that INTEGRITY records when an operation reads a spoilt register, row or matrix state. -/
def State.spoiltBy (s : State) (i : Instr) : Option Nat :=
  let c := s.cx
  if c.bad.isEmpty && !(s.core c.coreNum).badMat then none
  else if c.spoiltReg i then some 0
  else
    match (s.spansRead i).find? fun a => c.bad.any fun x => x.inRow a with
    | some a => some (a.1 / 256 * 256)
    | none => if readsMatrix i && (s.core c.coreNum).badMat then some 0 else none

/-! ### Holds (R20 to R23, R152) -/

def State.atSlot (s : State) (j : Nat) : State := { s with issue := { s.issue with slot := j } }

/-- Stream reads of a bundle that take a row of a spool each. -/
def State.streamReads (s : State) (ops : List (Nat × Instr)) (n : SpR) : Nat :=
  ((ops.flatMap fun e => (usesOf s.cx e.2).q).filter fun q => (s.cx.spoolOf q).any fun x => x.1 == n.toNat).length

/-- A SPADV.c waits for the rows that the stream reads of its own bundle take before it, too (R278). -/
def State.spadvHolds (s : State) (ops : List (Nat × Instr)) (a : GR) (n : SpR) : Bool :=
  match s.advance a n with
  | .fault _ => false
  | .spool sp => decide (sp.held < (s.rg a).toNat + s.streamReads ops n)

/-- Whether a slot's operation holds its bundle, whose operations are `ops`, without asking for anything. One that reads a register failing its envelope check takes INTEGRITY, whatever its hold would be (R305). -/
def State.slotHolds (s : State) (ops : List (Nat × Instr)) (e : Nat × Instr) : Bool :=
  let t := s.atSlot e.1
  (e.1 == 4 && e.2 != .mnop && s.mstloadOpen) || (!s.cx.spoiltReg e.2 && ((usesOf s.cx e.2).q.any s.cx.streamEmpty ||
    (match e.2 with
    | .wait a b c d => (holdWait a b c d t).isSome
    | .vsts _ w _ p => (holdVsts w p t).isSome
    | .spst _ w _ z => (holdSpst w z t).isSome
    | .drain => (holdDrain t).isSome
    | .mdrains a _ w _ _ => (holdDrains a w t).isSome
    | .spdef a n z k => (holdSpdef a n z k t).isSome
    | .spadvP a n => (holdSpadvP a n t).isSome
    | .spadvC a n => t.spadvHolds ops a n
    | .xstat _ w _ => (holdXstat w t).isSome
    | .qpost a k => (holdQpost a k t).isSome
    | i => match commandOf i t with
      | some c => (holdCommand c t).isSome
      | none => false)))

/-- Counters that would pass 63 (R21). -/
def State.countersFull (s : State) (ops : List (Nat × Instr)) : Bool :=
  [Cls.ld, Cls.st, Cls.cp, Cls.tl].any fun k => decide (63 < (s.cx.counter k).length + (ops.filter fun e => classOf e.2 == k).length)
    && ops.any fun e => classOf e.2 == k

/-- Whether the issue writes a register that an outstanding load will write (R23). -/
def State.interlocked (s : State) (ops : List (Nat × Instr)) : Bool :=
  ops.any fun e =>
    let u := usesOf s.cx e.2
    s.accs.any fun a => a.ctx == s.cur &&
      ((match a.gDst with | some (d, _) => d != 0 && u.gd.contains d | none => false) || (match a.vDst with | some (d, _, _) => u.vd.contains d | none => false))

/-- Whether the issue is held without asking for anything. -/
def State.held (s : State) (ops : List (Nat × Instr)) : Bool := s.countersFull ops || s.interlocked ops || ops.any (s.slotHolds ops)

/-- A slot that asks for something while its bundle is held: the state in which it waits. What reads a register failing its envelope check asks for nothing (R305). -/
def State.slotAsks (s : State) (e : Nat × Instr) : Option State :=
  let t := s.atSlot e.1
  if s.cx.spoiltReg e.2 then none
  else
  match e.2 with
  | .wopen a b => holdWopen a b t
  | .gbar a g => holdGbar a g t
  | .waitm _ a b _ => holdWaitm a b t
  | .fix a b => holdFix a b t
  | .ldrec _ a _ => holdLdrec a t
  | .qtake a _ k => holdQtake a k t
  | .launch a => holdLaunch a t
  | .xcoll a => holdXcoll a t
  | .xshuf a => holdXshuf a t
  | _ => none

/-- The state in which the slots wait, when one of them does. -/
def State.asks (s : State) (ops : List (Nat × Instr)) : Option State :=
  ops.foldl (fun r e => match (r.getD s).slotAsks e with | some t => some t | none => r) none

/-- The WAITMs of a bundle take the values they wait for at its first attempt, even where something else holds it (R233). -/
def State.noteBounds (s : State) (ops : List (Nat × Instr)) : State :=
  ops.foldl (fun t e => match e.2 with
    | .waitm _ _ b _ => if (tabGet t.cx.held e.1).isSome || t.cx.spoiltReg e.2 then t else (t.atSlot e.1).setHeld (.waitm (t.rg b) none)
    | _ => t) s

/-! ### What a quiet bundle owes (R317) -/

def State.cutViolated (s : State) (ops : List (Nat × Instr)) : Bool :=
  let c := s.cx
  !(c.st.isEmpty && c.cp.isEmpty && c.tl.isEmpty) || (s.accs.any fun a => a.ctx == s.cur && a.cls == .ld && !a.parkedOnly)
    || (ops.any fun e => classOf e.2 != .none) || (s.cmds.any fun x => x.ctx == s.cur) || c.uh

/-! ### The slots of an issue (R293) -/

/-- What the slots come to: every one has committed, one has trapped, or the machine stops. -/
inductive SlotsRes where
  | done (s : State)
  | trapped (s : State)
  | stop (o : Out)

/-- The slots act in order; each that commits makes its present word sticky. A slot that its own checks let pass and that has read what fails an envelope check takes INTEGRITY instead (R305). A TRAP, in the last slot, commits (R103). -/
def runSlots : List (Nat × SlotAct) → State → SlotsRes
  | [], s => .done s
  | (j, a) :: l, s =>
    match a with
    | .idle | .reserved => runSlots l s
    | .op i present =>
      let t := (s.atSlot j).correctRead i
      match slotExec i t with
      | .next u =>
        if u.issue.xfer = some .trap then .done u
        else if u.issue.trapped then .trapped u
        else
          match t.spoiltBy i with
          | some x => .trapped (t.slotFault .integrity (BitVec.ofNat 64 x))
          | none => runSlots l (if present then u.modCx fun c => { c with sticky := stickyPut c.sticky j i } else u)
      | o => .stop o

/-- The issue is counted: U-mode issues, those since the last quiet one, the site of a quiet one (R289, R318, R319). -/
def Ctx.counted (c : Ctx) (user : Bool) (h : Header) : Ctx :=
  if user then
    { c with issues := c.issues + 1, sinceQuiet := if h.quiet then 0 else c.sinceQuiet + 1, quiet := if h.quiet then some h.cut else none }
  else c

/-- Other contexts of the core that are live, for YIELD and its end (R155). -/
def State.coreMates (s : State) : List Nat :=
  (s.ctxs.filter fun e => e.1 != s.cur && e.2.placed && e.2.coreNum == s.cx.coreNum).map (·.1)

/-- Whether a context that has yielded still waits for one that is on its core (R155). -/
def State.waitsForMates (s : State) (k : Nat) : Bool :=
  (s.ctx k).yielded.any fun j => (s.ctx j).placed && (s.ctx j).coreNum == (s.ctx k).coreNum

/-- A context as it stands before its next issue. -/
def State.atIssue (s : State) (k : Nat) : State := State.prepared { s with cur := k, issue := ⟨0, false, none, 0, s.nextId, false, none⟩ }

/-- Whether a context's next issue is ready (R152): no cause is due before it, its bundle is there, nothing holds it. -/
def State.isReady (s : State) (k : Nat) : Bool :=
  let t := s.atIssue k
  if t.cx.placed && t.cx.fw.isNone && t.cx.sres != 7 && (t.cx.arming.bind (·.rest)).isNone && !t.passing && !t.waitsForMates k then
    match t.bundleAt t.cx.pc with
    | .fail _ => false
    | .ok b _ u =>
      let ops := opsOf (t.cx.acts b)
      (t.boundary (some b.hdr.quiet)).isNone && !u.held ops && (u.asks ops).isNone
  else false

/-- The contexts that have yielded no longer wait for the one that has issued, wherever they are. -/
def State.noteIssued (s : State) : State :=
  { s with ctxs := s.ctxs.map fun e => (e.1, { e.2 with yielded := e.2.yielded.filter (· != s.cur) }) }

/-- After the slots of an issue: a transfer, the next repeat, or the bundle's end with the iterations that end there (R69, R71, R97). -/
def Ctx.afterSlots (c : Ctx) (x : Option Xfer) (b : Bundle) : Ctx × List Eff :=
  match x with
  | some (.to a) => (c.goTo a, [])
  | some (.brk n) => (c.breakLevel n, [])
  | _ => if c.rpos < b.hdr.rpt then ({ c with rpos := c.rpos + 1, sres := 0 }, []) else c.passEnd b.len

/-- The end of an issue whose slots have all committed: the bundles behind it that do not issue now are passed over, each stride that an iteration's end adds being the one held at this step (R72, R90); then the step count advances and results land. -/
def State.finish (s : State) (b : Bundle) (ready : List Nat) (user : Bool) : State :=
  let last := decide (b.hdr.rpt ≤ s.cx.rpos)
  let s := s.modCx fun c => c.counted user b.hdr
  match s.issue.xfer with
  | some .exit | some .trap | some .tret => s
  | x =>
    let s := s.modCx fun c => { c with strides := none }
    let now := s.cx.stridesNow
    let (c, effs) := s.cx.afterSlots x b
    let (s, more) := State.passOver c.passBound (s.setCx c)
    let s := ((s.emitAll 1 (effs ++ more)).countCut).modCx fun c =>
      { c with step := c.step + 1, held := [], mwait := false, strides := if c.loops.isEmpty ∧ c.arming.isNone then none else some now }
    let s := s.landDue
    let yields := last && x.isNone && b.words.any fun w => w.slot == 6 && w.op == some .yield
    if yields then s.modCx fun c => { c with yielded := ready } else s

/-- Issues the present context's fetched bundle (R292 items 4 and 5, R293); none while it is held and asks for nothing new. CUT_VIOLATION, which R292 does not place, is taken at the issue, behind ILLEGAL_BUNDLE and what holds the bundle and before the slots (DESIGN CHOICE, log 85). The cycle whose ready contexts a YIELD waits for is that of its bundle's last issue: those ready before it; one that is merged with that issue has issued (R155; DESIGN CHOICE, log 84). -/
def State.issueBundle (s : State) (b : Bundle) : Option Out :=
  let acts := s.cx.acts b
  let ops := opsOf acts
  if s.held ops then
    let t := s.noteBounds ops
    if t.ctxs = s.ctxs then none else some (.next t)
  else
    let mask := s.illegalMask b acts
    let user := !s.cx.mode
    if mask ≠ 0 then some (.next (s.takeTrap .illegalBundle 0 mask s.cx.rpos s.cx.sres (.terminate 0)).noteIssued)
    else
      match s.asks ops with
      | some t =>
        if t.ctxs = s.ctxs ∧ t.accs = s.accs ∧ t.groups = s.groups ∧ t.ranks = s.ranks ∧ t.wins = s.wins ∧ t.watches = s.watches then none else some (.next t)
      | none =>
        if b.hdr.quiet && user && s.cutViolated ops then some (.next ((s.abandon false).boundaryTrap .cutViolation 0 (.terminate 0)).noteIssued)
        else
        let ready := if b.words.any fun w => w.slot == 6 && w.op == some .yield then s.coreMates.filter s.isReady else []
        let t := s.modCore s.cx.coreNum fun k => { k with last := s.cx.hw }
        match runSlots acts { t with issue := { t.issue with base := t.cx.inflight.length, first := t.nextId, quiet := b.hdr.quiet } } with
        | .stop o => some o
        | .trapped u => some (.next (u.abandon false).noteIssued)
        | .done u => some (.next { u.finish b ready user with free := u.free + 1 }.noteIssued)

/-- The continuation after a TRAP: what would have followed its bundle's last issue (R103). -/
def State.continueAfter (s : State) (b : Bundle) : State :=
  let (c, effs) := s.cx.passEnd b.len
  let (t, more) := State.passOver c.passBound (s.setCx c)
  t.modCx fun c => (effs ++ more).foldl Ctx.apply c

/-- The next issue of context k: its firmware's action, the passing over of bundles where more stand in a row than are passed over at once, a boundary cause, the loading of a body, or its bundle; none when nothing can happen. -/
def State.issueOf (s : State) (k : Nat) : Option Out :=
  let t : State := { s with cur := k, issue := ⟨0, false, none, 0, s.nextId, false, none⟩ }
  if !t.cx.placed then none
  else if t.cx.fw.isSome then
    let u := t.firmware
    if u = t then none else some (.next u)
  else
    let t := s.atIssue k
    if t.passing then some (.next t)
    else
    let f := t.bundleAt t.cx.pc
    match t.boundary (match f with | .ok b _ _ => some b.hdr.quiet | .fail _ => none) with
    | some (_, u) => some (.next u)
    | none =>
      if t.waitsForMates k then none
      else if (t.cx.arming.bind (·.rest)).isSome then some (.next t.loadBody)
      else
        match f with
        | .fail e => some (.next (t.boundaryTrap e.cause (BitVec.ofNat 64 e.addr) e.task))
        | .ok b _ u => if u.cx.sres = 7 then some (.next (u.continueAfter b)) else u.issueBundle b

/-! ### Which context of a core issues (R153, R154) -/

/-- How far a hardware context stands behind the one that was last primary of its core. -/
def State.turnOf (s : State) (k : Nat) : Nat := ((s.ctx k).hw + 3 - (s.core (s.ctx k).coreNum).last) % 4

/-- The contexts on the core of context k. -/
def State.matesOf (s : State) (k : Nat) : List Nat :=
  (s.ctxs.filter fun e => e.1 != k && e.2.placed && e.2.coreNum == (s.ctx k).coreNum).map (·.1)

/-- The operations that a ready context's next issue has in effect, with their slots. -/
def State.opsNow (s : State) (k : Nat) : List (Nat × Instr) :=
  let t := s.atIssue k
  match t.bundleAt t.cx.pc with
  | .ok b _ _ => opsOf (t.cx.acts b)
  | .fail _ => []

/-- Whether two contexts may issue in one cycle: no slot in common, and their rows within the limits. -/
def State.mayMerge (s : State) (k j : Nat) : Bool :=
  let a := s.opsNow k
  let b := s.opsNow j
  let sum (f : Uses → Nat) : Nat := (a.map fun e => f (usesOf (s.ctx k) e.2)).sum + (b.map fun e => f (usesOf (s.ctx j) e.2)).sum
  !(a.any fun e => b.any fun d => d.1 == e.1) && decide (sum (·.rowReads) ≤ 3) && decide (sum (·.rowWrites) ≤ 2)

/-- The context that is merged with a primary one: the lowest-numbered other one that is ready and may be. -/
def State.mergedWith (s : State) (k : Nat) : Option Nat :=
  ((List.range 4).filterMap fun hw => (s.matesOf k).find? fun j => (s.ctx j).hw == hw).find? fun j => s.isReady j && s.mayMerge k j

/-- The issue of a merged context; it does not move the rotation. -/
def State.mergedIssue (s : State) (j : Nat) : State :=
  let n := (s.ctx j).coreNum
  let last := (s.core n).last
  match s.issueOf j with
  | some (.next t) => t.modCore n fun c => { c with last := last }
  | _ => s

/-- BUNDLE_ISSUE: the context issues when it is the first ready one behind the last primary of its core, and another may issue with it; what is no issue, such as a trap or what its firmware does, needs no turn. -/
def execBundleIssue (k : Nat) (s : State) : Out :=
  let mates := s.matesOf k
  if (mates.any fun j => decide (s.turnOf j < s.turnOf k) && s.isReady j) && s.isReady k then .next s
  else
    match s.issueOf k with
    | none => .next s
    | some (.next t) =>
      if mates.isEmpty || !s.isReady k then .next t
      else
        match s.mergedWith k with
        | some j => .next (if t.isReady j then t.mergedIssue j else t)
        | none => .next t
    | some o => o

end Sys2Proof.Machine
end

