-- ==== Sys2Proof/Machine/Dispatch.lean ====
section
/-! DEFINITION. Machine/Dispatch.lean: one arm per instruction, each one direct call of its meaning. -/

namespace Sys2Proof.Machine

def exec (i : Instr) (s : State) : Host.Outcome State Fault Refusal :=
  match i with
  | .snop => Sys2Proof.Machine.execSnop s
  | .add d a b => Sys2Proof.Machine.execAdd d a b s
  | .sub d a b => Sys2Proof.Machine.execSub d a b s
  | .mul d a b => Sys2Proof.Machine.execMul d a b s
  | .mulh d a b => Sys2Proof.Machine.execMulh d a b s
  | .mulhn d a b => Sys2Proof.Machine.execMulhn d a b s
  | .div d a b => Sys2Proof.Machine.execDiv d a b s
  | .divn d a b => Sys2Proof.Machine.execDivn d a b s
  | .rem d a b => Sys2Proof.Machine.execRem d a b s
  | .remn d a b => Sys2Proof.Machine.execRemn d a b s
  | .and d a b => Sys2Proof.Machine.execAnd d a b s
  | .or d a b => Sys2Proof.Machine.execOr d a b s
  | .xor d a b => Sys2Proof.Machine.execXor d a b s
  | .andn d a b => Sys2Proof.Machine.execAndn d a b s
  | .shl d a b => Sys2Proof.Machine.execShl d a b s
  | .shr d a b => Sys2Proof.Machine.execShr d a b s
  | .sar d a b => Sys2Proof.Machine.execSar d a b s
  | .rol d a b => Sys2Proof.Machine.execRol d a b s
  | .min d a b => Sys2Proof.Machine.execMin d a b s
  | .max d a b => Sys2Proof.Machine.execMax d a b s
  | .minn d a b => Sys2Proof.Machine.execMinn d a b s
  | .maxn d a b => Sys2Proof.Machine.execMaxn d a b s
  | .seq d a b => Sys2Proof.Machine.execSeq d a b s
  | .sne d a b => Sys2Proof.Machine.execSne d a b s
  | .slt d a b => Sys2Proof.Machine.execSlt d a b s
  | .sltn d a b => Sys2Proof.Machine.execSltn d a b s
  | .sle d a b => Sys2Proof.Machine.execSle d a b s
  | .slen d a b => Sys2Proof.Machine.execSlen d a b s
  | .clz d a => Sys2Proof.Machine.execClz d a s
  | .ctz d a => Sys2Proof.Machine.execCtz d a s
  | .popc d a => Sys2Proof.Machine.execPopc d a s
  | .brev d a => Sys2Proof.Machine.execBrev d a s
  | .addi x d a im => Sys2Proof.Machine.execAddi x d a im s
  | .andi x d a im => Sys2Proof.Machine.execAndi x d a im s
  | .ori x d a im => Sys2Proof.Machine.execOri x d a im s
  | .xori x d a im => Sys2Proof.Machine.execXori x d a im s
  | .shli d a im => Sys2Proof.Machine.execShli d a im s
  | .shri d a im => Sys2Proof.Machine.execShri d a im s
  | .sari d a im => Sys2Proof.Machine.execSari d a im s
  | .slti x d a im => Sys2Proof.Machine.execSlti x d a im s
  | .li x d im => Sys2Proof.Machine.execLi x d im s
  | .lih x d a im => Sys2Proof.Machine.execLih x d a im s
  | .bfx d a pos wid => Sys2Proof.Machine.execBfx d a pos wid s
  | .bfxn d a pos wid => Sys2Proof.Machine.execBfxn d a pos wid s
  | .bfi d a pos wid => Sys2Proof.Machine.execBfi d a pos wid s
  | .sext d a wid => Sys2Proof.Machine.execSext d a wid s
  | .zext d a wid => Sys2Proof.Machine.execZext d a wid s
  | .sel d a b c => Sys2Proof.Machine.execSel d a b c s
  | .mova g w => Sys2Proof.Machine.execMova g w s
  | .wset x g w im => Sys2Proof.Machine.execWset x g w im s
  | .wstep x g w im => Sys2Proof.Machine.execWstep x g w im s
  | .wstride x g w l im => Sys2Proof.Machine.execWstride x g w l im s
  | .sysrd g sx => Sys2Proof.Machine.execSysrd g sx s
  | .syswr g sx => Sys2Proof.Machine.execSyswr g sx s
  | .cnop => Sys2Proof.Machine.execCnop s
  | .beq x a b o => Sys2Proof.Machine.execBeq x a b o s
  | .bne x a b o => Sys2Proof.Machine.execBne x a b o s
  | .blt x a b o => Sys2Proof.Machine.execBlt x a b o s
  | .bge x a b o => Sys2Proof.Machine.execBge x a b o s
  | .bltn x a b o => Sys2Proof.Machine.execBltn x a b o s
  | .bgen x a b o => Sys2Proof.Machine.execBgen x a b o s
  | .jmp x o => Sys2Proof.Machine.execJmp x o s
  | .jmpg a => Sys2Proof.Machine.execJmpg a s
  | .loop x l n r c => Sys2Proof.Machine.execLoop x l n r c s
  | .loopbrk l => Sys2Proof.Machine.execLoopbrk l s
  | .wait ld st cp tl => Sys2Proof.Machine.execWait ld st cp tl s
  | .yield => Sys2Proof.Machine.execYield s
  | .exit => Sys2Proof.Machine.execExit s
  | .gjoin a g => Sys2Proof.Machine.execGjoin a g s
  | .gleave a g => Sys2Proof.Machine.execGleave a g s
  | .gbar a g => Sys2Proof.Machine.execGbar a g s
  | .gcnt d a g => Sys2Proof.Machine.execGcnt d a g s
  | .pref x a o => Sys2Proof.Machine.execPref x a o s
  | .trap code => Sys2Proof.Machine.execTrap code s
  | .tret => Sys2Proof.Machine.execTret s
  | .ordset o => Sys2Proof.Machine.execOrdset o s
  | .lnop => Sys2Proof.Machine.execLnop s
  | .ld x g a sz o => Sys2Proof.Machine.execLd x g a sz o s
  | .st x g a sz o => Sys2Proof.Machine.execSt x g a sz o s
  | .vld x v a p o => Sys2Proof.Machine.execVld x v a p o s
  | .vst x v a p o => Sys2Proof.Machine.execVst x v a p o s
  | .vlds v w m p => Sys2Proof.Machine.execVlds v w m p s
  | .vsts v w m p => Sys2Proof.Machine.execVsts v w m p s
  | .spld g w m sz => Sys2Proof.Machine.execSpld g w m sz s
  | .spst g w m sz => Sys2Proof.Machine.execSpst g w m sz s
  | .lda x g a sz scope o => Sys2Proof.Machine.execLda x g a sz scope o s
  | .stl x g a sz scope o => Sys2Proof.Machine.execStl x g a sz scope o s
  | .amo g a b op sc scope wide => Sys2Proof.Machine.execAmo g a b op sc scope wide s
  | .cas g a b c sc scope wide => Sys2Proof.Machine.execCas g a b c sc scope wide s
  | .amow a b => Sys2Proof.Machine.execAmow a b s
  | .wopen a b => Sys2Proof.Machine.execWopen a b s
  | .wclose a => Sys2Proof.Machine.execWclose a s
  | .fence scope kind => Sys2Proof.Machine.execFence scope kind s
  | .drain => Sys2Proof.Machine.execDrain s
  | .waitm g a b scope => Sys2Proof.Machine.execWaitm g a b scope s
  | .prefd x a l2 o => Sys2Proof.Machine.execPrefd x a l2 o s
  | .expose a b => Sys2Proof.Machine.execExpose a b s
  | .fix a b => Sys2Proof.Machine.execFix a b s
  | .ldrec g a b => Sys2Proof.Machine.execLdrec g a b s
  | .clean x n a o => Sys2Proof.Machine.execClean x n a o s
  | .vnop => Sys2Proof.Machine.execVnop s
  | .vadd x d a b t m p => Sys2Proof.Machine.execVadd x d a b t m p s
  | .vsub x d a b t m p => Sys2Proof.Machine.execVsub x d a b t m p s
  | .vmul x d a b t m p => Sys2Proof.Machine.execVmul x d a b t m p s
  | .vfma x d a b t m p => Sys2Proof.Machine.execVfma x d a b t m p s
  | .vmin x d a b t p => Sys2Proof.Machine.execVmin x d a b t p s
  | .vmax x d a b t p => Sys2Proof.Machine.execVmax x d a b t p s
  | .vabs x d a t p => Sys2Proof.Machine.execVabs x d a t p s
  | .vneg x d a t p => Sys2Proof.Machine.execVneg x d a t p s
  | .vadds x d a b t p => Sys2Proof.Machine.execVadds x d a b t p s
  | .vsubs x d a b t p => Sys2Proof.Machine.execVsubs x d a b t p s
  | .vand x d a b t p => Sys2Proof.Machine.execVand x d a b t p s
  | .vor x d a b t p => Sys2Proof.Machine.execVor x d a b t p s
  | .vxor x d a b t p => Sys2Proof.Machine.execVxor x d a b t p s
  | .vshl x d a b t p => Sys2Proof.Machine.execVshl x d a b t p s
  | .vshr x d a b t p => Sys2Proof.Machine.execVshr x d a b t p s
  | .vsar x d a b t p => Sys2Proof.Machine.execVsar x d a b t p s
  | .vclamp x d a b t p => Sys2Proof.Machine.execVclamp x d a b t p s
  | .vdiv x d a b t m p => Sys2Proof.Machine.execVdiv x d a b t m p s
  | .vsqrt x d a t m p => Sys2Proof.Machine.execVsqrt x d a t m p s
  | .vrcp x d a t m p => Sys2Proof.Machine.execVrcp x d a t m p s
  | .vrsq x d a t m p => Sys2Proof.Machine.execVrsq x d a t m p s
  | .vexp x d a t m p => Sys2Proof.Machine.execVexp x d a t m p s
  | .vexp2 x d a t m p => Sys2Proof.Machine.execVexp2 x d a t m p s
  | .vlog2 x d a t m p => Sys2Proof.Machine.execVlog2 x d a t m p s
  | .vtanh x d a t m p => Sys2Proof.Machine.execVtanh x d a t m p s
  | .vrint x d a t m p => Sys2Proof.Machine.execVrint x d a t m p s
  | .vcmp x pd a b t c p => Sys2Proof.Machine.execVcmp x pd a b t c p s
  | .vsel x d a b t p => Sys2Proof.Machine.execVsel x d a b t p s
  | .vcvt x d a f t m toTy => Sys2Proof.Machine.execVcvt x d a f t m toTy s
  | .vred x d a op t m p => Sys2Proof.Machine.execVred x d a op t m p s
  | .vscan x d a op t m p => Sys2Proof.Machine.execVscan x d a op t m p s
  | .vpart x d g t p => Sys2Proof.Machine.execVpart x d g t p s
  | .vgath x d a b t p => Sys2Proof.Machine.execVgath x d a b t p s
  | .vscat x d a b t p => Sys2Proof.Machine.execVscat x d a b t p s
  | .vperm x d a b t p => Sys2Proof.Machine.execVperm x d a b t p s
  | .vzip x d a b t p => Sys2Proof.Machine.execVzip x d a b t p s
  | .vunzip x d a b t p => Sys2Proof.Machine.execVunzip x d a b t p s
  | .vbcast x d g t p => Sys2Proof.Machine.execVbcast x d g t p s
  | .vext x d a g t => Sys2Proof.Machine.execVext x d a g t s
  | .vins x d a g t => Sys2Proof.Machine.execVins x d a g t s
  | .viota x d g t p => Sys2Proof.Machine.execViota x d g t p s
  | .vrand x d t p => Sys2Proof.Machine.execVrand x d t p s
  | .plog d a b lop => Sys2Proof.Machine.execPlog d a b lop s
  | .pcnt a b g => Sys2Proof.Machine.execPcnt a b g s
  | .vmov x d a t p => Sys2Proof.Machine.execVmov x d a t p s
  | .mnop => Sys2Proof.Machine.execMnop s
  | .mpush a am sx sm qs h => Sys2Proof.Machine.execMpush a am sx sm qs h s
  | .mpushz a am sx sm qs h => Sys2Proof.Machine.execMpushz a am sx sm qs h s
  | .mdrain a am d h => Sys2Proof.Machine.execMdrain a am d h s
  | .mdrainz a am d h => Sys2Proof.Machine.execMdrainz a am d h s
  | .mdrains a am sx sm h => Sys2Proof.Machine.execMdrains a am sx sm h s
  | .mdrainw a am g h => Sys2Proof.Machine.execMdrainw a am g h s
  | .mzero a am h => Sys2Proof.Machine.execMzero a am h s
  | .mswap => Sys2Proof.Machine.execMswap s
  | .mmodeWrap h => Sys2Proof.Machine.execMmodeWrap h s
  | .mmodeSat h => Sys2Proof.Machine.execMmodeSat h s
  | .mmodeClrovf h => Sys2Proof.Machine.execMmodeClrovf h s
  | .mstsave a h => Sys2Proof.Machine.execMstsave a h s
  | .mstload a h => Sys2Proof.Machine.execMstload a h s
  | .mlds w mark => Sys2Proof.Machine.execMlds w mark s
  | .mldst w mark => Sys2Proof.Machine.execMldst w mark s
  | .mldss w mark => Sys2Proof.Machine.execMldss w mark s
  | .xnop => Sys2Proof.Machine.execXnop s
  | .cpLd a b x sx o => Sys2Proof.Machine.execCpLd a b x sx o s
  | .cpSt a b x sx o => Sys2Proof.Machine.execCpSt a b x sx o s
  | .cpMv b x sx o => Sys2Proof.Machine.execCpMv b x sx o s
  | .cpm a b x n o => Sys2Proof.Machine.execCpm a b x n o s
  | .cpg a b x sx o => Sys2Proof.Machine.execCpg a b x sx o s
  | .cps a b x sx o => Sys2Proof.Machine.execCps a b x sx o s
  | .cpw a x sx o => Sys2Proof.Machine.execCpw a x sx o s
  | .cpfScratch b x sx o => Sys2Proof.Machine.execCpfScratch b x sx o s
  | .cpfGlobal a b x o => Sys2Proof.Machine.execCpfGlobal a b x o s
  | .xshape a b x h => Sys2Proof.Machine.execXshape a b x h s
  | .spdef a n size elem => Sys2Proof.Machine.execSpdef a n size elem s
  | .sbind q n => Sys2Proof.Machine.execSbind q n s
  | .sbindNone q => Sys2Proof.Machine.execSbindNone q s
  | .spadvP a n => Sys2Proof.Machine.execSpadvP a n s
  | .spadvC a n => Sys2Proof.Machine.execSpadvC a n s
  | .xfmt a b => Sys2Proof.Machine.execXfmt a b s
  | .qpost a k => Sys2Proof.Machine.execQpost a k s
  | .qtake a d k => Sys2Proof.Machine.execQtake a d k s
  | .launch a => Sys2Proof.Machine.execLaunch a s
  | .xcoll a => Sys2Proof.Machine.execXcoll a s
  | .xshuf a => Sys2Proof.Machine.execXshuf a s
  | .xstat d what n => Sys2Proof.Machine.execXstat d what n s
  | .rngsetAdd a b => Sys2Proof.Machine.execRngsetAdd a b s
  | .rngsetSub a b => Sys2Proof.Machine.execRngsetSub a b s
  | .loadRetire id => Sys2Proof.Machine.execLoadRetire id s
  | .accessPerform id part => Sys2Proof.Machine.execAccessPerform id part s
  | .windowCloseWrite id => Sys2Proof.Machine.execWindowCloseWrite id s
  | .restoration k core hw => Sys2Proof.Machine.execRestoration k core hw s
  | .copyCommandStart id => Sys2Proof.Machine.execCopyCommandStart id s
  | .spoolElementFire id n => Sys2Proof.Machine.execSpoolElementFire id n s
  | .copyCommandRetire id => Sys2Proof.Machine.execCopyCommandRetire id s
  | .commandFailure id => Sys2Proof.Machine.execCommandFailure id s
  | .evaluatorStart cell place => Sys2Proof.Machine.execEvaluatorStart cell place s
  | .barrierComplete rank g => Sys2Proof.Machine.execBarrierComplete rank g s
  | .queueTermination rank q => Sys2Proof.Machine.execQueueTermination rank q s
  | .launchPlacement id places => Sys2Proof.Machine.execLaunchPlacement id places s
  | .parkedLaunchDrain rank => Sys2Proof.Machine.execParkedLaunchDrain rank s
  | .childQueueStart vf => Sys2Proof.Machine.execChildQueueStart vf s
  | .launchComplete id => Sys2Proof.Machine.execLaunchComplete id s
  | .cmdLaunch vf q => Sys2Proof.Machine.execCmdLaunch vf q s
  | .cmdLaunchIndirect vf q => Sys2Proof.Machine.execCmdLaunchIndirect vf q s
  | .waitev vf q => Sys2Proof.Machine.execWaitev vf q s
  | .waitevSatisfied vf q => Sys2Proof.Machine.execWaitevSatisfied vf q s
  | .signal vf q => Sys2Proof.Machine.execSignal vf q s
  | .cmdLoop vf q => Sys2Proof.Machine.execCmdLoop vf q s
  | .cmdIf vf q => Sys2Proof.Machine.execCmdIf vf q s
  | .cmdCopy vf q => Sys2Proof.Machine.execCmdCopy vf q s
  | .tlbinv vf q => Sys2Proof.Machine.execTlbinv vf q s
  | .holdpoint vf q => Sys2Proof.Machine.execHoldpoint vf q s
  | .makeResident rank => Sys2Proof.Machine.execMakeResident rank s
  | .consistentCut rank => Sys2Proof.Machine.execConsistentCut rank s
  | .quantumExpiry part => Sys2Proof.Machine.execQuantumExpiry part s
  | .queueVacancy vf q cycles => Sys2Proof.Machine.execQueueVacancy vf q cycles s
  | .packetRoute p => Sys2Proof.Machine.execPacketRoute p s
  | .collectivePacket coll pos => Sys2Proof.Machine.execCollectivePacket coll pos s
  | .slotRequest coll node port => Sys2Proof.Machine.execSlotRequest coll node port s
  | .collectiveRetire coll pos => Sys2Proof.Machine.execCollectiveRetire coll pos s
  | .holdNotice job comm pos => Sys2Proof.Machine.execHoldNotice job comm pos s
  | .resumeNotice job comm pos => Sys2Proof.Machine.execResumeNotice job comm pos s
  | .shufflePacket p => Sys2Proof.Machine.execShufflePacket p s
  | .pairingTimeout index => Sys2Proof.Machine.execPairingTimeout index s
  | .overprintDecode group => Sys2Proof.Machine.execOverprintDecode group s
  | .reissuePlain rank shid blk dst => Sys2Proof.Machine.execReissuePlain rank shid blk dst s
  | .shuffleAbort rank shid => Sys2Proof.Machine.execShuffleAbort rank shid s
  | .shuffleRetire rank shid => Sys2Proof.Machine.execShuffleRetire rank shid s
  | .interruptRecord box => Sys2Proof.Machine.execInterruptRecord box s
  | .powerOn verified => Sys2Proof.Machine.execPowerOn verified s
  | .bundleIssue k => Sys2Proof.Machine.execBundleIssue k s
  | .fixedLatencyLanding k => Sys2Proof.Machine.execFixedLatencyLanding k s
  | .beatLanding k => Sys2Proof.Machine.execBeatLanding k s
  | .walkComplete core rank va => Sys2Proof.Machine.execWalkComplete core rank va s
  | .windowAdd id => Sys2Proof.Machine.execWindowAdd id s
  | .boundaryFailureTrap k => Sys2Proof.Machine.execBoundaryFailureTrap k s
  | .asyncTrap k => Sys2Proof.Machine.execAsyncTrap k s
  | .preempt k => Sys2Proof.Machine.execPreempt k s
  | .budgetExceeded k => Sys2Proof.Machine.execBudgetExceeded k s
  | .cutOverrun k => Sys2Proof.Machine.execCutOverrun k s
  | .matrixSwitch k => Sys2Proof.Machine.execMatrixSwitch k s
  | .latentCellRead id part => Sys2Proof.Machine.execLatentCellRead id part s
  | .tierMove rank va pa => Sys2Proof.Machine.execTierMove rank va pa s
  | .deschedule rank => Sys2Proof.Machine.execDeschedule rank s
  | .cutAbandon rank => Sys2Proof.Machine.execCutAbandon rank s
  | .budgetWindowEnd vf u => Sys2Proof.Machine.execBudgetWindowEnd vf u s
  | .lastCollection addr => Sys2Proof.Machine.execLastCollection addr s
  | .lastCollectionOverrun vf q => Sys2Proof.Machine.execLastCollectionOverrun vf q s
  | .restore addr => Sys2Proof.Machine.execRestore addr s
  | .restoreReplay addr => Sys2Proof.Machine.execRestoreReplay addr s
  | .vfReset vf => Sys2Proof.Machine.execVfReset vf s
  | .vfEnable vf => Sys2Proof.Machine.execVfEnable vf s
  | .migration order attested accepted linkOk => Sys2Proof.Machine.execMigration order attested accepted linkOk s
  | .rankForget value => Sys2Proof.Machine.execRankForget value s
  | .clpart value => Sys2Proof.Machine.execClpart value s
  | .linkFailure port => Sys2Proof.Machine.execLinkFailure port s
  | .slotLeaseExpiry slot => Sys2Proof.Machine.execSlotLeaseExpiry slot s
  | .collTimeout coll pos => Sys2Proof.Machine.execCollTimeout coll pos s
  | .shuffleTimeout rank shid => Sys2Proof.Machine.execShuffleTimeout rank shid s
  | .spill rank b => Sys2Proof.Machine.execSpill rank b s
  | .retry b => Sys2Proof.Machine.execRetry b s
  | .sealcons value => Sys2Proof.Machine.execSealcons value s
  | .jcons value => Sys2Proof.Machine.execJcons value s
  | .mbox vf addr => Sys2Proof.Machine.execMbox vf addr s
  | .hvmbox addr => Sys2Proof.Machine.execHvmbox addr s
  | .doorbell vf q value => Sys2Proof.Machine.execDoorbell vf q value s
  | .qctlRestart vf q => Sys2Proof.Machine.execQctlRestart vf q s
  | .qctlRestartAfter vf q => Sys2Proof.Machine.execQctlRestartAfter vf q s
  | .qctlDiscard vf q => Sys2Proof.Machine.execQctlDiscard vf q s
  | .fractResume vf => Sys2Proof.Machine.execFractResume vf s
  | .fractEnd vf => Sys2Proof.Machine.execFractEnd vf s
  | .queueEnable vf q cfg => Sys2Proof.Machine.execQueueEnable vf q cfg s
  | .queueDisable vf q => Sys2Proof.Machine.execQueueDisable vf q s
  | .cap value => Sys2Proof.Machine.execCap value s
  | .registerWrite r value => Sys2Proof.Machine.execRegisterWrite r value s
  | .hostWindowRead vf w off len => Sys2Proof.Machine.execHostWindowRead vf w off len s
  | .hostWindowWrite vf w off bytes => Sys2Proof.Machine.execHostWindowWrite vf w off bytes s
  | .jhlRetrain vf => Sys2Proof.Machine.execJhlRetrain vf s
  | .routingTableWrite dev ports => Sys2Proof.Machine.execRoutingTableWrite dev ports s
  | .dlqcons rank value => Sys2Proof.Machine.execDlqcons rank value s
  | .rankCreate => Sys2Proof.Machine.execRankCreate s
  | .retryResend => Sys2Proof.Machine.execRetryResend s
  | .seal => Sys2Proof.Machine.execSeal s
  | .sealreq => Sys2Proof.Machine.execSealreq s
  | .attreq => Sys2Proof.Machine.execAttreq s
  | .thermalLimit => Sys2Proof.Machine.execThermalLimit s
  | .thermalShutdown => Sys2Proof.Machine.execThermalShutdown s
  | .deviceReset => Sys2Proof.Machine.execDeviceReset s
  | .temperatureLimitCleared => Sys2Proof.Machine.execTemperatureLimitCleared s

end Sys2Proof.Machine
end

