-- ==== Sys2Proof/Machine/Step.lean ====
section
/-! DEFINITION. Machine/Step.lean: one step of the machine: what the agenda names, else the next thing that the machine does by itself; how a word is placed where the next step fetches it. -/

namespace Sys2Proof.Machine

/-! ### What can happen next (the order is the model's, log 24) -/

/-- Whether an event does anything in a state. -/
def State.changes (s : State) (i : Instr) : Bool :=
  match exec i s with
  | .next t => decide (t ≠ s)
  | .fault _ | .refused _ => true

/-- The parts of an access that can perform, its retirement (that of an XFMT is counted with the copy commands), its closing writes. -/
def accEvents (a : Acc) : List Instr :=
  let waits (i : Nat) : Bool := ((a.parts[i]?).map (·.st)) == some PartSt.waiting
  let l : List Instr := ((List.range a.parts.length).filter waits).map (Instr.accessPerform a.id)
  l ++ [if a.kind = .marker then Instr.copyCommandRetire a.id else Instr.loadRetire a.id, Instr.windowCloseWrite a.id]

def cmdEvents (c : Cmd) : List Instr := [Instr.copyCommandStart c.id, Instr.commandFailure c.id, Instr.spoolElementFire c.id 0, Instr.copyCommandRetire c.id]

/-- Start sequence, accesses, evaluators, copy commands. -/
def State.unitEvents (s : State) : List Instr :=
  let start : List Instr := if s.hub.devstat < 7 then [Instr.powerOn true] else []
  let evals : List Instr := (s.cells.filter fun e => e.2.tag == .developing && !e.2.placed).map fun e => Instr.evaluatorStart e.1 none
  start ++ s.accs.flatMap accEvents ++ evals ++ s.cmds.flatMap cmdEvents

/-- What a command queue of a virtual function may do. -/
def queueEvents (vf : Nat) (e : Nat × CmdQueue) : List Instr :=
  let q := e.1
  match e.2.head with
  | .launch r => [Instr.launchPlacement r.id [], Instr.makeResident r.rank]
  | .waitev .. => [Instr.waitevSatisfied vf q]
  | .adding .. => []
  | .copy .. => [Instr.cmdCopy vf q]
  | .idle =>
    [Instr.cmdLaunch vf q, Instr.cmdLaunchIndirect vf q, Instr.waitev vf q, Instr.signal vf q, Instr.cmdLoop vf q, Instr.cmdIf vf q, Instr.cmdCopy vf q,
      Instr.tlbinv vf q, Instr.holdpoint vf q]

def vfEvents (e : Nat × VF) : List Instr :=
  let child : List Instr := if e.2.childq.isEmpty then [] else [Instr.childQueueStart e.1]
  child ++ e.2.queues.flatMap (queueEvents e.1)

def rankEvents (e : Nat × RankRec) : List Instr :=
  let drain : List Instr := if e.2.parked.isEmpty then [] else [Instr.parkedLaunchDrain e.1]
  e.2.queues.map (fun q => Instr.queueTermination e.1 q.1) ++ drain

/-- Groups, queues, launches, cuts, slices. -/
def State.launchEvents (s : State) : List Instr :=
  let groups : List Instr := s.groups.map fun g => Instr.barrierComplete g.rank g.num
  let launches : List Instr := s.launches.map fun l => Instr.launchComplete l.id
  let cuts : List Instr := s.cuts.map fun c => Instr.consistentCut c.rank
  let slices : List Instr := s.running.map fun p => Instr.quantumExpiry p.1
  groups ++ s.ranks.flatMap rankEvents ++ launches ++ s.vfs.flatMap vfEvents ++ cuts ++ slices

/-- What an endpoint does with what has arrived. -/
def State.inboxEvent (s : State) (b : PktBody) : Option Instr :=
  match b with
  | .shuffle p => some (Instr.shufflePacket p)
  | .reissue job shid blk src dst => (s.shufAt? job shid src).map fun h => Instr.reissuePlain h.rank shid blk dst
  | .shufAbort job _ shid dst _ => (s.shufAt? job shid dst).map fun h => Instr.shuffleAbort h.rank shid
  | .hold job comm pos => some (Instr.holdNotice job comm pos)
  | .resume job comm pos => some (Instr.resumeNotice job comm pos)
  | b => some (Instr.packetRoute ⟨Config.ownDevice, b⟩)

def shufEvents (h : Shuf) : List Instr :=
  let l : List Instr := if h.abort.isSome then [Instr.shuffleAbort h.rank h.shid] else []
  l ++ [Instr.shuffleRetire h.rank h.shid]

/-- Collectives, shuffles, packets. -/
def State.fabricEvents (s : State) : List Instr :=
  let colls : List Instr := s.colls.flatMap fun c => [Instr.collectivePacket c.id c.pos, Instr.collectiveRetire c.id c.pos]
  let slots : List Instr := (s.slotReqs.take 1).map fun e => Instr.slotRequest e.1 e.2.1 e.2.2
  let decodes : List Instr := ((s.decoding.map (·.group)).eraseDups).map Instr.overprintDecode
  let pairs : List Instr := if s.pairing.isEmpty then [] else [Instr.pairingTimeout 0]
  let again : List Instr := if s.retries.any fun b => (State.resend { s with retries := [] } b).retries.isEmpty then [Instr.retryResend] else []
  colls ++ slots ++ s.shufs.flatMap shufEvents ++ s.inbox.filterMap s.inboxEvent ++ decodes ++ pairs ++ again

/-- Interrupt records, seals, rank commands, attestation, vacancies of a Last Collection. -/
def State.hubEvents (s : State) : List Instr :=
  let hv : List Instr := if s.hub.hvwait.isEmpty then [] else [Instr.interruptRecord none]
  let vfs : List Instr := (s.vfs.filter fun v => !v.2.mwait.isEmpty).map fun v => Instr.interruptRecord (some v.1)
  let seals : List Instr := if s.hub.sealwait.isEmpty then [] else [Instr.seal]
  let rank : List Instr := match s.hub.rkcmd with
    | none => []
    | some v => [if v = 1 then Instr.rankCreate else Instr.rankForget v]
  let att : List Instr := if s.hub.attreq then [Instr.attreq] else []
  let coll : List Instr := s.collections.flatMap fun c => (c.entries.filter fun e => !e.written).map fun e => Instr.queueVacancy e.vf e.q (Config.anyNat s.free)
  hv ++ vfs ++ seals ++ rank ++ att ++ coll

/-- Places for an evicted context to come back to: the first free one. -/
def State.restoreEvents (s : State) (e : Nat × Ctx) : List Instr :=
  let l : List Instr := match (s.freePlaces (s.vf (s.rankOf e.2.rank).vf).part e.2.rank e.2.kernel.banks e.2.kernel.fused).head? with
    | some p => [Instr.restoration e.1 p.1 p.2]
    | none => []
  Instr.makeResident e.2.rank :: l

/-- Evicted contexts that may come back, then the contexts' issues, those after the last one first. -/
def State.contextEvents (s : State) : List Instr :=
  let evicted := s.ctxs.filter fun e => e.2.phase == .evicted
  let order := (s.ctxs.filter fun e => decide (s.cur < e.1)) ++ s.ctxs.filter fun e => decide (e.1 ≤ s.cur)
  let issues : List Instr := order.map fun e => Instr.bundleIssue e.1
  evicted.flatMap s.restoreEvents ++ issues

/-- The first thing that the machine can do by itself. -/
def State.nextAuto (s : State) : Option Instr :=
  match s.unitEvents.find? s.changes with
  | some i => some i
  | none =>
    match s.launchEvents.find? s.changes with
    | some i => some i
    | none =>
      match s.fabricEvents.find? s.changes with
      | some i => some i
      | none =>
        match s.hubEvents.find? s.changes with
        | some i => some i
        | none => s.contextEvents.find? s.changes

/-- One step: the event or operation that the agenda names next; with nothing there, what the machine does by itself; with nothing to do, nothing changes. A device that heat has stopped stops (R405) until it is reset (R407). -/
def step (s : State) : Host.Outcome State Fault Refusal :=
  if s.hub.shutdown ∧ s.agenda.head? ≠ some .deviceReset then .fault .deviceStopped
  else
    match s.agenda with
    | i :: l => exec i { s with agenda := l }
    | [] =>
      match s.nextAuto with
      | some i => exec i s
      | none => .next s

/-! ### A word where the next step fetches (log 25) -/

/-- The kernel whose code holds the word: header at 0x10000, its limits wide. -/
def fetchKernel : Kernel where
  header := 0x10000
  code := 0x10060
  size := 0xFFA0
  entry := 0
  handler := 0
  qsites := 4096
  budget := 2 ^ 64 - 1
  cutbound := 2 ^ 32 - 1
  banks := 1
  depth := 255
  maxchild := 0
  develop := 0
  nctx := 1
  fused := false

/-- The words of a bundle of one slot: header, slot word, an extension word of zeros when its E bit is set (R49 to R51). -/
def fetchWords (slot : Nat) (w : W32) : List W32 :=
  BitVec.ofNat 32 (2 ^ (31 - slot)) :: w :: (if w.getLsbD 25 then [0] else [])

def fetchBytes (slot : Nat) (w : W32) : List Byte := (fetchWords slot w).flatMap fun x => leBytes 4 x.toNat

/-- The present context as it stands before the first issue of the bundle at the code's start. -/
def fetchCtx (c : Ctx) : Ctx :=
  { c with
    phase := .live, place := some (c.place.getD (0, 0)), kernel := fetchKernel, pc := 0x10060, rpos := 0, sres := 0
    status := statusUH (statusMode c.status false) false, sticky := Sticky.none, loops := [], loopbuf := [], arming := none, issues := 0, sinceQuiet := 0, quiet := none
    failures := [], held := [], yielded := [], preempt := false, fw := none, mwait := false, strides := none }

/-- The state with an instruction placed where the next step fetches: the present context runs the code at 0x10060 of its rank, whose page its core has translated to physical page 0x10000; the bytes lie there; the agenda names the context's issue. -/
def State.withFetchWord (s : State) (nbits w : Nat) : State :=
  if nbits ≤ 32 then
    match decodeAlone (BitVec.ofNat 32 w) with
    | none => s
    | some (j, _) =>
      let c := fetchCtx s.cx
      let core := s.core c.coreNum
      let page : TlbEntry := ⟨c.rank, 0x10000, 65536, 0x10000, 0xD7, 0⟩
      { s with
        hub := { s.hub with shutdown := false }
        ctxs := tabSet s.ctxs s.cur c
        cores := tabSet s.cores c.coreNum { core with tlb := page :: core.tlb, icache := tabDel core.icache (insnKey c.rank 0x10060) }
        bad := s.bad.filter fun e => e.1 != 0x10060 / 64 && e.1 != 0x10060 / 64 + 1 && e.1 != 0x10060 / 64 - 1
        mem := s.mem.write 0x10060 (fetchBytes j (BitVec.ofNat 32 w))
        agenda := [.bundleIssue s.cur] }
  else s

end Sys2Proof.Machine
end

