-- ==== Sys2Proof/Certificates/Slice0/Obligations.lean ====
section
/-! DEFINITION. Certificates/Slice0/Obligations.lean: the statements about the machine. The definitions of Sys2Proof.Spec say in the terms of the spec what a statement needs; each Obligations.<Name> is one statement or names the statements it joins. -/

/-! ## What the statements are written with -/

namespace Sys2Proof.Spec

open Sys2Proof Sys2Proof.Machine

/-- `s` with one more result of the present context in flight: effect `e`, which lands `lat` steps from now; nothing else of the machine differs. -/
def pending (s : State) (lat : Nat) (e : Eff) : State :=
  { s with ctxs := tabSet s.ctxs s.cur { s.cx with inflight := s.cx.inflight ++ [⟨s.cx.step + lat, e⟩] } }

/-- `s` with a control transfer noted in the issue being made. -/
def withXfer (s : State) (x : Xfer) : State := { s with issue := { s.issue with xfer := some x } }

/-- Bits [w-1:0] of n as two's complement (R6). -/
def twosOf (w n : Nat) : Int := if n % 2 ^ w < 2 ^ (w - 1) then (n % 2 ^ w : Nat) else ((n % 2 ^ w : Nat) : Int) - (2 ^ w : Nat)

/-- The operand of an immediate field of w bits, by R60: SEXT(F, w), or SEXT(EXT × 2^w + F, w + 32). -/
def immOf (w : Nat) (x : Ext) (f : Nat) : Int :=
  match x with
  | none => twosOf w f
  | some e => twosOf (w + 32) (e.toNat * 2 ^ w + f)

/-- A 64-bit value is the integer n modulo 2^64. -/
def IsMod (n : Int) (x : W64) : Prop := x = BitVec.ofInt 64 n

/-- 1 if the condition holds, else 0 (R83). -/
def IsTruth (p : Prop) (x : W64) : Prop := (p → x = 1) ∧ (¬p → x = 0)

/-- q and r of R85: truncated division, all ones and the dividend for a zero divisor. -/
def quotOf (a b : Int) : Int := if b = 0 then -1 else a.tdiv b
def remOf (a b : Int) : Int := if b = 0 then a else a - a.tdiv b * b

/-- What R83, R84 and R85 give for each three-register operation: destination, latency (R82), and what its result is; `R` reads a g register at issue. -/
def registerOp (i : Instr) (R : GR → W64) : Option (GR × Nat × (W64 → Prop)) :=
  let sg (r : GR) : Int := (R r).toInt
  let un (r : GR) : Int := (R r).toNat
  let cnt (r : GR) : Nat := (R r).toNat % 64
  match i with
  | .add d a b => some (d, 1, IsMod (un a + un b))
  | .sub d a b => some (d, 1, IsMod (un a - un b))
  | .mul d a b => some (d, 3, IsMod (un a * un b))
  | .mulh d a b => some (d, 3, IsMod ((sg a * sg b).fdiv (2 ^ 64)))
  | .mulhn d a b => some (d, 3, IsMod ((un a * un b).fdiv (2 ^ 64)))
  | .div d a b => some (d, 18, IsMod (quotOf (sg a) (sg b)))
  | .divn d a b => some (d, 18, IsMod (quotOf (un a) (un b)))
  | .rem d a b => some (d, 18, IsMod (remOf (sg a) (sg b)))
  | .remn d a b => some (d, 18, IsMod (remOf (un a) (un b)))
  | .and d a b => some (d, 1, fun x => ∀ k : Nat, k < 64 → x.getLsbD k = ((R a).getLsbD k && (R b).getLsbD k))
  | .or d a b => some (d, 1, fun x => ∀ k : Nat, k < 64 → x.getLsbD k = ((R a).getLsbD k || (R b).getLsbD k))
  | .xor d a b => some (d, 1, fun x => ∀ k : Nat, k < 64 → x.getLsbD k = ((R a).getLsbD k != (R b).getLsbD k))
  | .andn d a b => some (d, 1, fun x => ∀ k : Nat, k < 64 → x.getLsbD k = ((R a).getLsbD k && !(R b).getLsbD k))
  | .shl d a b => some (d, 1, IsMod (un a * 2 ^ cnt b))
  | .shr d a b => some (d, 1, IsMod ((un a).fdiv (2 ^ cnt b)))
  | .sar d a b => some (d, 1, IsMod ((sg a).fdiv (2 ^ cnt b)))
  | .rol d a b => some (d, 1, fun x => ∀ k : Nat, k < 64 → x.getLsbD ((k + cnt b) % 64) = (R a).getLsbD k)
  | .min d a b => some (d, 1, IsMod (Min.min (sg a) (sg b)))
  | .max d a b => some (d, 1, IsMod (Max.max (sg a) (sg b)))
  | .minn d a b => some (d, 1, IsMod (Min.min (un a) (un b)))
  | .maxn d a b => some (d, 1, IsMod (Max.max (un a) (un b)))
  | .seq d a b => some (d, 1, IsTruth (R a = R b))
  | .sne d a b => some (d, 1, IsTruth (R a ≠ R b))
  | .slt d a b => some (d, 1, IsTruth (sg a < sg b))
  | .sltn d a b => some (d, 1, IsTruth (un a < un b))
  | .sle d a b => some (d, 1, IsTruth (sg a ≤ sg b))
  | .slen d a b => some (d, 1, IsTruth (un a ≤ un b))
  | .clz d a => some (d, 1, fun x => (R a = 0 ∧ x = 64) ∨ (x.toNat < 64 ∧ 2 ^ (63 - x.toNat) ≤ (R a).toNat ∧ (R a).toNat < 2 ^ (64 - x.toNat)))
  | .ctz d a => some (d, 1, fun x => (R a = 0 ∧ x = 64) ∨ (x.toNat < 64 ∧ (R a).toNat % 2 ^ (x.toNat + 1) = 2 ^ x.toNat))
  | .popc d a => some (d, 1, fun x => x.toNat = ((Finset.range 64).filter fun k => (R a).getLsbD k = true).card)
  | .brev d a => some (d, 1, fun x => ∀ k : Nat, k < 64 → x.getLsbD (63 - k) = (R a).getLsbD k)
  | .sel d a b c => some (d, 1, fun x => (R c ≠ 0 → x = R a) ∧ (R c = 0 → x = R b))
  | _ => none

/-- What R86 and R88 give for each operation on an immediate or a bit field. -/
def immediateOp (i : Instr) (R : GR → W64) : Option (GR × Nat × (W64 → Prop)) :=
  let sg (r : GR) : Int := (R r).toInt
  let un (r : GR) : Int := (R r).toNat
  match i with
  | .addi x d a f => some (d, 1, IsMod (un a + immOf 15 x f.toNat))
  | .andi x d a f => some (d, 1, fun y => ∀ k : Nat, k < 64 → y.getLsbD k = ((R a).getLsbD k && (BitVec.ofInt 64 (immOf 15 x f.toNat)).getLsbD k))
  | .ori x d a f => some (d, 1, fun y => ∀ k : Nat, k < 64 → y.getLsbD k = ((R a).getLsbD k || (BitVec.ofInt 64 (immOf 15 x f.toNat)).getLsbD k))
  | .xori x d a f => some (d, 1, fun y => ∀ k : Nat, k < 64 → y.getLsbD k = ((R a).getLsbD k != (BitVec.ofInt 64 (immOf 15 x f.toNat)).getLsbD k))
  | .shli d a f => some (d, 1, IsMod (un a * 2 ^ f.toNat))
  | .shri d a f => some (d, 1, IsMod ((un a).fdiv (2 ^ f.toNat)))
  | .sari d a f => some (d, 1, IsMod ((sg a).fdiv (2 ^ f.toNat)))
  | .slti x d a f => some (d, 1, IsTruth (sg a < immOf 15 x f.toNat))
  | .li x d f => some (d, 1, IsMod (immOf 15 x f.toNat))
  | .lih x d a f => some (d, 1, IsMod (un a % 2 ^ 32 + immOf 15 x f.toNat % 2 ^ 32 * 2 ^ 32))
  | .bfx d a pos wid => some (d, 1, IsMod (twosOf (wid.toNat + 1) ((R a).toNat / 2 ^ pos.toNat)))
  | .bfxn d a pos wid => some (d, 1, IsMod ((R a).toNat / 2 ^ pos.toNat % 2 ^ (wid.toNat + 1) : Nat))
  | .bfi d a pos wid => some (d, 1, fun y => ∀ k : Nat, k < 64 →
      y.getLsbD k = if pos.toNat ≤ k ∧ k < pos.toNat + wid.toNat + 1 then (R a).getLsbD (k - pos.toNat) else (R d).getLsbD k)
  | .sext d a wid => some (d, 1, IsMod (twosOf (wid.toNat + 1) (R a).toNat))
  | .zext d a wid => some (d, 1, IsMod ((R a).toNat % 2 ^ (wid.toNat + 1) : Nat))
  | _ => none

end Sys2Proof.Spec

open Sys2Proof Sys2Proof.Machine Sys2Proof.Spec

/-- R51 to R66: every bit of an encoding is kept: decoding the word of a well-formed slot operation, with its extension word, gives that operation back. -/
def Obligations.DecodeOfEncodeIsTheOperation : Prop :=
  ∀ (i : Instr) (sl : Slot), i.slot = some sl → i.wf = true →
    ∃ (w : W32) (x : Ext), i.encodeSlot = some (w, x) ∧ decodeSlot sl w x = some i

/-- R52, R75: a word that decodes names a legal operation of its slot, and it is the one word, with its extension word, that encodes it: no reserved or unused bit is left unread. -/
def Obligations.EncodeOfDecodeIsTheWord : Prop :=
  ∀ (sl : Slot) (w : W32) (x : Ext) (i : Instr), decodeSlot sl w x = some i →
    i.slot = some sl ∧ i.wf = true ∧ i.encodeSlot = some (w, x)

/-- R82 to R85: every three-register operation puts its result in flight for its destination, to land after its latency, and changes nothing else. A destination g0 is one like any other here: the landing discards it. -/
def Obligations.RegisterOperationsGiveTheirResult : Prop :=
  ∀ (i : Instr) (s : State) (d : GR) (lat : Nat) (P : W64 → Prop), registerOp i s.rg = some (d, lat, P) →
    ∃ x, P x ∧ exec i s = .next (pending s lat (.g d x))

/-- R86, R88: every legal immediate and bit-field operation likewise. -/
def Sys2Proof.Spec.ImmediateOperationsGiveTheirResult : Prop :=
  ∀ (i : Instr) (s : State) (d : GR) (lat : Nat) (P : W64 → Prop), i.wf = true → immediateOp i s.rg = some (d, lat, P) →
    ∃ x, P x ∧ exec i s = .next (pending s lat (.g d x))

namespace Sys2Proof.Spec

open Sys2Proof Sys2Proof.Machine

/-- What R89 gives for each walker instruction: latency-1 effects on one field of walker AW, or on the destination of MOVA. -/
def walkerOp (i : Instr) (s : State) : Option Eff :=
  let sum (x : Ext) (g : GR) (f : BitVec 13) : W32 := BitVec.ofInt 32 ((s.rg g).toNat + immOf 13 x f.toNat)
  match i with
  | .mova g w => some (.g g (BitVec.ofNat 64 (s.cx.ra w).value.toNat))
  | .wset x g w f => some (.walkSet w (sum x g f))
  | .wstep x g w f => some (.walkStep w (sum x g f))
  | .wstride x g w l f => some (.walkStride w l.toNat (sum x g f))
  | _ => none

/-- When a conditional branch of R93 is taken. -/
def branchTaken (i : Instr) (R : GR → W64) : Option (Ext × BitVec 15 × Prop) :=
  let sg (r : GR) : Int := (R r).toInt
  let un (r : GR) : Nat := (R r).toNat
  match i with
  | .beq x a b o => some (x, o, R a = R b)
  | .bne x a b o => some (x, o, R a ≠ R b)
  | .blt x a b o => some (x, o, sg a < sg b)
  | .bge x a b o => some (x, o, sg a ≥ sg b)
  | .bltn x a b o => some (x, o, un a < un b)
  | .bgen x a b o => some (x, o, un a ≥ un b)
  | .jmp x o => some (x, o, True)
  | _ => none

/-- Bundle address + 4 × off, modulo 2^64 (R93). -/
def branchTarget (s : State) (x : Ext) (o : BitVec 15) : Nat := (((s.cx.pc : Int) + 4 * immOf 15 x o.toNat) % 2 ^ 64).toNat

/-- Everything of a context but what a trap entry changes: its trap registers, its place in its code and what the trap sets aside (R290, R291). -/
def SameButTrap (c d : Ctx) : Prop :=
  d = { c with
    status := d.status, faddr := d.faddr, epc := d.epc, pc := d.pc, rpos := d.rpos, sres := d.sres, step := d.step, sticky := d.sticky, loops := d.loops,
    loopbuf := d.loopbuf, inflight := d.inflight, arming := d.arming, strides := d.strides, held := d.held, saveU := d.saveU, saveS := d.saveS, fw := d.fw }

/-- What a trap entry records in the status word (R290): CAUSE, SMASK, RPOS and SRES. -/
def Recorded (x : W64) (cause smask rpos sres : Nat) : Prop :=
  x.toNat / 2 ^ 16 % 2 ^ 8 = cause ∧ x.toNat / 2 ^ 24 % 2 ^ 8 = smask ∧ x.toNat / 2 ^ 8 % 2 ^ 7 = rpos ∧ x.toNat / 2 ^ 4 % 2 ^ 3 = sres

/-- What a trap sets aside is no longer in effect, and the handler counts its own steps. -/
def SetAside (d : Ctx) : Prop :=
  d.sticky = Sticky.none ∧ d.loops = [] ∧ d.loopbuf = [] ∧ d.inflight = [] ∧ d.arming = none ∧ d.strides = none ∧ d.held = [] ∧ d.step = 0 ∧ d.rpos = 0 ∧ d.sres = 0

/-- The save set holds what the context had (R290, R295). -/
def Saved (v : SaveSet) (c : Ctx) : Prop :=
  v.sticky = c.sticky ∧ v.loops = c.loops ∧ v.loopbuf = c.loopbuf ∧ v.inflight = c.inflight ∧ v.step = c.step ∧ v.arming = c.arming ∧ v.strides = c.strides ∧ v.held = c.held

/-- `s` with the present context's LOOP noted, to begin after its bundle's last repeat. -/
def withArming (s : State) (a : Arming) : State := { s with ctxs := tabSet s.ctxs s.cur { s.cx with arming := some a } }

/-- Only the present context and the record of the issue being made differ. -/
def OnlyPresent (s t : State) : Prop := t = { s with ctxs := tabSet s.ctxs s.cur t.cx, issue := t.issue }

end Sys2Proof.Spec

/-- R89: the walker instructions write the fields it gives, one step later; MOVA reads the value before any step mark of its issue. -/
def Sys2Proof.Spec.WalkerInstructionsSetTheirField : Prop :=
  ∀ (i : Instr) (s : State) (e : Eff), i.wf = true → walkerOp i s = some e → exec i s = .next (pending s 1 e)

/-- R91, R12: SYSRD gives the register's value at issue, one step later, where the mode may read it; sys.msave is the one register that U mode may not read, and there it faults PRIVILEGE at its slot. sys.mowner in S mode is the register of R312. -/
def Sys2Proof.Spec.SysrdReadsTheRegister : Prop :=
  ∀ (g : GR) (r : SysReg) (s : State),
    (¬(r = .msave ∧ s.cx.mode = false) → ∃ x, exec (.sysrd g r) s = .next (pending s 1 (.g g x)) ∧
      (match r with
      | .status => x = s.cx.status
      | .cause => x.toNat = s.cx.status.toNat / 2 ^ 16 % 2 ^ 8
      | .faddr => x = s.cx.faddr
      | .epc => x = s.cx.epc
      | .flags => x = s.cx.flags
      | .ord => x = s.cx.ord
      | .ctxid => x = s.cx.ctxid
      | .nctx => x = s.cx.nctx
      | .vk => x = BitVec.ofNat 64 (s.rankOf s.cx.rank).vk
      | .nvk => x = BitVec.ofNat 64 (s.rankOf s.cx.rank).nvk
      | .cutcount => x = s.cx.cutcount
      | .msave => x = s.cx.msave
      | .rngkey => x = s.cx.rngkey
      | .rngctrLo => x.toNat = s.cx.rngctr.toNat % 2 ^ 64
      | .rngctrHi => x.toNat = s.cx.rngctr.toNat / 2 ^ 64
      | .mowner => s.cx.mode = true →
          let k := s.core s.cx.coreNum
          x.toNat = k.mowner.toNat + k.mhwc.toNat * 2 ^ 16 + (if k.mdirty then 2 ^ 19 else 0)))
    ∧ (r = .msave ∧ s.cx.mode = false → exec (.sysrd g r) s = .next (s.slotFault .privilege 0))

/-- R91: SYSWR puts the write in flight, to land at the next step, where its table allows it in the mode; where it does not, it faults PRIVILEGE at its slot. A write of sys.mowner carries the writer's hardware context. -/
def Sys2Proof.Spec.SyswrWritesOrFaults : Prop :=
  ∀ (g : GR) (r : SysReg) (s : State),
    let both : Prop := r = .flags ∨ r = .rngctrLo ∨ r = .rngctrHi
    let sOnly : Prop := r = .status ∨ r = .cause ∨ r = .faddr ∨ r = .epc ∨ r = .mowner ∨ r = .msave
    (both ∨ (sOnly ∧ r ≠ .mowner ∧ s.cx.mode = true) → exec (.syswr g r) s = .next (pending s 1 (.sys r (s.rg g)))) ∧
    (r = .mowner ∧ s.cx.mode = true → exec (.syswr g r) s = .next (pending s 1 (.mownerWrite (s.rg g) s.cx.hw))) ∧
    (¬both ∧ ¬(sOnly ∧ s.cx.mode = true) → exec (.syswr g r) s = .next (s.slotFault .privilege 0))

/-- R91: the bits that a landing SYSWR changes: [31:1] of sys.status but for its reserved bits, [7:0] of sys.cause, which is the CAUSE field, [4:0] of sys.flags, whose other bits become zero, a half of sys.rngctr, all of the others. -/
def Sys2Proof.Spec.SyswrChangesTheBitsOfTheRegister : Prop :=
  ∀ (c : Ctx) (x : W64),
    (∀ k : Nat, k < 64 → (c.writeSys .status x).status.getLsbD k =
      if k = 1 ∨ (4 ≤ k ∧ k ≤ 6) ∨ (8 ≤ k ∧ k ≤ 14) ∨ (16 ≤ k ∧ k ≤ 31) then x.getLsbD k else c.status.getLsbD k) ∧
    (∀ k : Nat, k < 64 → (c.writeSys .cause x).status.getLsbD k =
      if 16 ≤ k ∧ k ≤ 23 then x.getLsbD (k - 16) else c.status.getLsbD k) ∧
    (c.writeSys .flags x).flags.toNat = x.toNat % 32 ∧
    (c.writeSys .faddr x).faddr = x ∧ (c.writeSys .epc x).epc = x ∧ (c.writeSys .msave x).msave = x ∧
    (c.writeSys .rngctrLo x).rngctr.toNat = c.rngctr.toNat / 2 ^ 64 * 2 ^ 64 + x.toNat ∧
    (c.writeSys .rngctrHi x).rngctr.toNat = x.toNat * 2 ^ 64 + c.rngctr.toNat % 2 ^ 64

/-- R93, R94: a branch notes a transfer to its target when its condition holds and changes nothing otherwise; JMP always does; JMPG goes to code offset A, or faults MISALIGNED at its slot with A as its address. -/
def Sys2Proof.Spec.BranchesTransferToTheirTarget : Prop :=
  ∀ (s : State),
    (∀ (i : Instr) (x : Ext) (o : BitVec 15) (p : Prop), branchTaken i s.rg = some (x, o, p) →
      (p → exec i s = .next (withXfer s (.to (branchTarget s x o)))) ∧ (¬p → exec i s = .next s)) ∧
    (∀ a : GR, (s.rg a).toNat % 4 = 0 → exec (.jmpg a) s = .next (withXfer s (.to ((s.cx.kernel.code + (s.rg a).toNat) % 2 ^ 64)))) ∧
    (∀ a : GR, (s.rg a).toNat % 4 ≠ 0 → exec (.jmpg a) s = .next (s.slotFault .misaligned (s.rg a)))

/-- R93, R97, R98: a taken transfer makes the bundle at its target the next one, with no repeat left and no stride added; the active levels whose body does not hold the target become inactive, from the innermost outwards, and the others stay as they are. -/
def Sys2Proof.Spec.TakenTransferLeavesTheBodiesItIsOutside : Prop :=
  ∀ (c : Ctx) (b : Bundle) (a : Nat),
    let d := (c.afterSlots (some (.to a)) b).1
    (c.afterSlots (some (.to a)) b).2 = [] ∧ d.pc = a ∧ d.rpos = 0 ∧ d.sres = 0 ∧ d.sticky = c.sticky ∧ d.inflight = c.inflight ∧
    (∃ out, c.loops = out ++ d.loops ∧ (∀ e ∈ out, ¬(e.2.first ≤ a ∧ a < e.2.after)) ∧
      (∀ e rest, d.loops = e :: rest → e.2.first ≤ a ∧ a < e.2.after))

/-- R71, R90: when the last issue of a bundle ends an iteration of the innermost level whose body ends there: with iterations left control returns to the start of its body and only its strides are added, each as it was held at that issue's step; at its last iteration it becomes inactive, and with no enclosing body ending there control passes on behind the body. -/
def Sys2Proof.Spec.IterationEndsAtTheLastBundle : Prop :=
  ∀ (c : Ctx) (n len : Nat) (l : LoopLevel) (rest : List (Nat × LoopLevel)),
    c.arming = none → c.loops = (n, l) :: rest → l.last = c.pc →
    let d := (c.passEnd len).1
    let held (w : AR) : W32 := match c.strides with
      | some l => (l.getD w.toNat []).getD n 0
      | none => (c.ra w).strides.toList.getD n 0
    let strides (w : AR) : Eff := .walkAdd w (held w)
    let itsStrides : Prop := (∀ e ∈ (c.passEnd len).2, ∃ w, e = strides w) ∧
      ∀ w : AR, held w ≠ 0 → (c.passEnd len).2.count (strides w) = 1
    (1 < l.left → d.pc = l.first ∧ d.loops = (n, { l with left := l.left - 1, isFirst := false }) :: rest ∧ itsStrides) ∧
    (l.left ≤ 1 → (∀ e ∈ rest, e.2.last ≠ c.pc) → d.pc = c.pc + len ∧ d.loops = rest ∧ itsStrides)

/-- R70, R96: a legal LOOP notes its body, from the byte behind its bundle, and its count: an immediate, the extension word, or bits [31:0] of a register; of a body whose bundles cannot all be fetched now it notes where the loading goes on after the last repeat (R188; the model's choice, log 14). A body that reaches beyond the end of the code, or that would bring the loop buffer above 256 distinct bundles, faults PERMISSION at the slot with the code's size as address. R73, R170: one that names an active level or one deeper than its kernel declares, or whose body would pass the end of the innermost active body, faults ILLEGAL_BUNDLE with SMASK bit 6 alone. -/
def Sys2Proof.Spec.LoopArmsItsLevel : Prop :=
  ∀ (x : Ext) (l : BitVec 3) (n : BitVec 8) (r : Bool) (c : BitVec 13) (s : State),
    let limit := s.cx.loops.head?.map fun e => e.2.after
    let count := if r then (s.rg (BitVec.ofNat 5 c.toNat)).toNat % 2 ^ 32 else (match x with | some e => e.toNat | none => c.toNat)
    ((∃ e ∈ s.cx.loops, e.1 = l.toNat) ∨ (s.cx.mode = false ∧ (s.cx.kernel.depth = 0xFF ∨ s.cx.kernel.depth < l.toNat)) →
      exec (.loop x l n r c) s = .next (s.takeTrap .illegalBundle 0 0x40 s.cx.rpos 6 (.terminate 0))) ∧
    ((∀ e ∈ s.cx.loops, e.1 ≠ l.toNat) → (s.cx.mode = true ∨ (s.cx.kernel.depth ≠ 0xFF ∧ l.toNat ≤ s.cx.kernel.depth)) →
      ∀ (b : Bundle) (ws : List W32) (s1 : State), s.bundleAt s.cx.pc = .ok b ws s1 →
        (State.bodyFrom limit (n.toNat + 1) 0 (s.cx.pc + b.len) [] s1 = .past →
          exec (.loop x l n r c) s = .next (s.takeTrap .illegalBundle 0 0x40 s.cx.rpos 6 (.terminate 0))) ∧
        (∀ last after words s2, State.bodyFrom limit (n.toNat + 1) 0 (s.cx.pc + b.len) [] s1 = .ok last after words s2 → s.cx.bufferWith words ≤ 256 →
          exec (.loop x l n r c) s = .next (withArming s2 ⟨l.toNat, count, ⟨s.cx.pc + b.len, last, after, count, true⟩, words, none⟩)) ∧
        (∀ f a m words s2, State.bodyFrom limit (n.toNat + 1) 0 (s.cx.pc + b.len) [] s1 = .fail f a m words s2 → f.outside = false →
          exec (.loop x l n r c) s = .next (withArming s2 ⟨l.toNat, count, ⟨s.cx.pc + b.len, 0, 0, count, true⟩, words, some (a, m)⟩)) ∧
        (∀ last after words s2, State.bodyFrom limit (n.toNat + 1) 0 (s.cx.pc + b.len) [] s1 = .ok last after words s2 → 256 < s.cx.bufferWith words →
          exec (.loop x l n r c) s = .next (s.slotFault .permission (BitVec.ofNat 64 s.cx.kernel.size))) ∧
        (∀ f a m words s2, State.bodyFrom limit (n.toNat + 1) 0 (s.cx.pc + b.len) [] s1 = .fail f a m words s2 → f.outside = true →
          exec (.loop x l n r c) s = .next (s.slotFault .permission (BitVec.ofNat 64 s.cx.kernel.size))))

/-- R73, R99: LOOPBRK of an active level notes its transfer, which makes that level and every level it encloses inactive and passes on behind its body, with no stride added; of an inactive level it faults ILLEGAL_BUNDLE with SMASK bit 6. That an enclosing level whose body ends at the same byte stays active is the model's choice (log 64). -/
def Sys2Proof.Spec.LoopbrkLeavesTheLevel : Prop :=
  ∀ (l : BitVec 3) (s : State),
    ((∀ e ∈ s.cx.loops, e.1 ≠ l.toNat) → exec (.loopbrk l) s = .next (s.takeTrap .illegalBundle 0 0x40 s.cx.rpos 6 (.terminate 0))) ∧
    (∀ (inner rest : List (Nat × LoopLevel)) (v : LoopLevel), s.cx.loops = inner ++ (l.toNat, v) :: rest → (∀ e ∈ inner, e.1 ≠ l.toNat) →
      exec (.loopbrk l) s = .next (withXfer s (.brk l.toNat)) ∧
      ∀ b : Bundle, (s.cx.afterSlots (some (.brk l.toNat)) b).2 = [] ∧
        (s.cx.afterSlots (some (.brk l.toNat)) b).1.loops = rest ∧ (s.cx.afterSlots (some (.brk l.toNat)) b).1.pc = v.after)

/-- The slot NOPs, YIELD, and a WAIT change no state of their own (R67, R100, R101); a held bundle issues nothing at all: the context's step does not advance (R17, R21, R100), and what its WAITMs wait for at its first attempt (R233) is all that it may note. Which bundle a WAIT holds is the third clause: while a counter named by the WAIT exceeds its operand. -/
def Sys2Proof.Spec.WaitsHoldAndNopsChangeNothing : Prop :=
  (∀ (i : Instr) (s : State), i = .snop ∨ i = .cnop ∨ i = .lnop ∨ i = .vnop ∨ i = .mnop ∨ i = .xnop ∨ i = .yield → exec i s = .next s) ∧
  (∀ (ld st cp tl : BitVec 4) (s : State), exec (.wait ld st cp tl) s = .next s) ∧
  (∀ (ld st cp tl : BitVec 4) (s : State) (ops : List (Nat × Instr)), s.slotHolds ops (6, .wait ld st cp tl) = true ↔
      (ld ≠ 15 ∧ ld.toNat < s.cx.ld.length) ∨ (st ≠ 15 ∧ st.toNat < s.cx.st.length) ∨ (cp ≠ 15 ∧ cp.toNat < s.cx.cp.length) ∨
        (tl ≠ 15 ∧ tl.toNat < s.cx.tl.length)) ∧
  (∀ (s : State) (b : Bundle), s.held (opsOf (s.cx.acts b)) = true →
    (s.issueBundle b = none ∨ ∃ t, s.issueBundle b = some (.next t) ∧ OnlyPresent s t ∧ t.cx = { s.cx with held := t.cx.held }) ∧
    ((∀ e ∈ opsOf (s.cx.acts b), ∀ g a y sc, e.2 ≠ .waitm g a y sc) → s.issueBundle b = none))

/-- R102: PREF changes nothing but what the caches of translations and of instructions hold and, where the line it fetches has a block with a correctable error, that block's state and its journal entry (R398), as has what its walk reads (R397); the counter of free values is the model's own (log 1). -/
def Sys2Proof.Spec.PrefTouchesOnlyTheCaches : Prop :=
  ∀ (x : Ext) (a : GR) (o : BitVec 20) (s : State), ∃ t, exec (.pref x a o) s = .next t ∧
    t = { s with cores := t.cores, tlb2 := t.tlb2, bad := t.bad, hub := { s.hub with
            jprod := t.hub.jprod, jovf := t.hub.jovf, jlost := t.hub.jlost, journal := t.hub.journal, sealwait := t.hub.sealwait, startdue := t.hub.startdue }, free := t.free }

/-- R105: ORDSET in S mode puts OMODE in flight for sys.ord; in U mode it faults PRIVILEGE at its slot. -/
def Sys2Proof.Spec.OrdsetIsPrivileged : Prop :=
  ∀ (o : BitVec 4) (s : State),
    (s.cx.mode = true → exec (.ordset o) s = .next (pending s 1 (.sys .ord (BitVec.ofNat 64 o.toNat)))) ∧
    (s.cx.mode = false → exec (.ordset o) s = .next (s.slotFault .privilege 0))

/-- R290, R291, R293: a trap at a slot of an issue in U mode records its cause, address, bundle address, RPOS and the slot as SRES; sets sticky operations, loop sequencer, results in flight and step count aside; and enters the U-mode handler of the kernel for a U cause when the kernel has one and is not in it, else S mode. Nothing else of the machine changes; memory in particular. -/
def Sys2Proof.Spec.SlotTrapEntersItsHandler : Prop :=
  ∀ (s : State) (cause : Cause) (addr : W64) (task : FwTask), s.cx.mode = false → s.cx.rpos < 128 → s.issue.slot < 8 →
    let t := s.slotTrap cause addr task
    let handled : Prop := cause.isU = true ∧ s.cx.uh = false ∧ s.cx.kernel.handler ≠ 0
    OnlyPresent s t ∧ SameButTrap s.cx t.cx ∧ t.issue = { s.issue with trapped := true } ∧ (∀ a, t.mem.get a = s.mem.get a) ∧
    t.cx.faddr = addr ∧ t.cx.epc = BitVec.ofNat 64 s.cx.pc ∧ Recorded t.cx.status cause.code 0 s.cx.rpos s.issue.slot ∧ SetAside t.cx ∧
    (handled → t.cx.mode = false ∧ t.cx.uh = true ∧ t.cx.pc = s.cx.kernel.code + s.cx.kernel.handler ∧ (∃ v, t.cx.saveU = some v ∧ Saved v s.cx) ∧
      t.cx.saveS = s.cx.saveS ∧ t.cx.fw = s.cx.fw) ∧
    (¬handled → t.cx.mode = true ∧ t.cx.uh = s.cx.uh ∧ (∃ v, t.cx.saveS = some v ∧ Saved v s.cx ∧
        (s.cx.uh = true → v.trapRegs = some (s.cx.status, s.cx.faddr, s.cx.epc))) ∧
      t.cx.saveU = s.cx.saveU ∧ t.cx.fw.isSome = true)

/-- R289, R291: a fault in S mode records its cause and address and leaves the context to be terminated, with the DETAIL of its cause: CODE of a TRAP, 0 of a fault. -/
def Sys2Proof.Spec.FaultInSModeTerminates : Prop :=
  ∀ (s : State) (cause : Cause) (addr : W64) (task : FwTask), s.cx.mode = true → s.cx.rpos < 128 → s.issue.slot < 8 →
    let t := s.slotTrap cause addr task
    t.cx.fw = some (.terminate (match task with | .terminate d => d | _ => 0)) ∧ t.cx.faddr = addr ∧ Recorded t.cx.status cause.code 0 s.cx.rpos s.issue.slot ∧ t.cx.mode = true ∧ t.cx.pc = s.cx.pc

/-- R103, R74: TRAP in U mode: the step of its bundle is over, a quiet bundle's count in flight, and what was due has landed, the next step number and the count in flight being the model's reading of that boundary (log 53); then SOFTWARE is taken with the code as address, the bundle's address, SRES 7 and RPOS 0, in the kernel's U-mode handler if it declares one and is not in it, else in S mode; the remaining repeats do not issue. -/
def Sys2Proof.Spec.TrapRaisesSoftware : Prop :=
  ∀ (code : BitVec 16) (s : State), s.cx.mode = false →
    let v := if s.issue.quiet then pending s 1 .cutcount else s
    let u := State.landDue { v with ctxs := tabSet v.ctxs v.cur { v.cx with step := v.cx.step + 1, strides := some (v.cx.a.toList.map fun w => w.strides.toList) } }
    ∃ t, exec (.trap code) s = .next t ∧ t.issue.xfer = some .trap ∧ OnlyPresent u t ∧ SameButTrap u.cx t.cx ∧ (∀ a, t.mem.get a = s.mem.get a) ∧
      t.cx.faddr.toNat = code.toNat ∧ t.cx.epc = BitVec.ofNat 64 u.cx.pc ∧ Recorded t.cx.status 0x16 0 0 7 ∧ SetAside t.cx ∧
      (u.cx.kernel.handler ≠ 0 ∧ u.cx.uh = false → t.cx.mode = false ∧ t.cx.uh = true ∧ t.cx.pc = u.cx.kernel.code + u.cx.kernel.handler ∧
        ∃ v, t.cx.saveU = some v ∧ Saved v u.cx) ∧
      (u.cx.kernel.handler = 0 ∨ u.cx.uh = true → t.cx.mode = true ∧ ∃ v, t.cx.saveS = some v ∧ Saved v u.cx)

namespace Sys2Proof.Spec

open Sys2Proof Sys2Proof.Machine

/-- The results of the present context that land now: those due by its step count; one that acts on the matrix state only while the context owns it (R18, R316). -/
def dueNow (s : State) : List Eff :=
  (s.cx.inflight.filter fun l => decide (l.due ≤ s.cx.step) && (!l.eff.onMatrix || s.ownsMatrix)).map (·.eff)

/-- What g register r holds after effects that land in order: the latest writer's value (R18); g0 reads as zero (R10). -/
def landedG (r : GR) (old : W64) (l : List Eff) : W64 :=
  if r = 0 then 0 else l.foldl (fun x e => match e with | .g d y => if d = r then y else x | _ => x) old

/-- Predicate register r likewise; p0 reads as all ones. -/
def landedP (r : PR) (old : PReg) (l : List Eff) : PReg :=
  if r = 0 then BitVec.allOnes 256 else l.foldl (fun x e => match e with | .p d y => if d = r then y else x | _ => x) old

/-- Vector register r likewise, bit by bit under the mask of each result. -/
def landedV (r : VR) (old : VReg) (l : List Eff) : VReg :=
  l.foldl (fun x e => match e with | .v d m y => if d = r then (x &&& ~~~m) ||| (y &&& m) else x | _ => x) old

/-- A walker's value likewise: a written value replaces it, a mark or a stride adds (R90). -/
def landedWalk (w : AR) (old : W32) (l : List Eff) : W32 :=
  l.foldl (fun x e => match e with | .walkSet d y => if d = w then y else x | .walkAdd d y => if d = w then x + y else x | _ => x) old

/-- A half of an X register replaced. -/
def landedHalf (x : XReg) (upper : Bool) (y : BitVec 128) : XReg :=
  BitVec.ofNat 256 (if upper then x.toNat % 2 ^ 128 + y.toNat * 2 ^ 128 else x.toNat / 2 ^ 128 * 2 ^ 128 + y.toNat)

/-- `u` as a return finds it: what its save set holds in flight, and before it what of the handler's could not land, due at the step that is restored (R295, R316). -/
def returned (u : State) (v : SaveSet) : State :=
  { u with ctxs := tabSet u.ctxs u.cur { u.cx with step := v.step, inflight := (u.cx.inflight.map fun l => { l with due := v.step }) ++ v.inflight } }

end Sys2Proof.Spec

/-- R104, R295, R316: TRET in U mode outside a handler faults PRIVILEGE. In the U-mode handler, and in S mode, the handler's results in flight land, then the bundle at sys.epc is resumed at RPOS and SRES with what the trap set aside, and results of it that are due land before its issue; a U handler's return clears UH, an S handler's return clears MODE and keeps UH. -/
def Sys2Proof.Spec.TretResumesTheHeldBundle : Prop :=
  ∀ (s : State),
    (s.cx.mode = false → s.cx.uh = false → exec .tret s = .next (s.slotFault .privilege 0)) ∧
    (s.cx.mode = true ∨ s.cx.uh = true →
      let u := State.landAll 64 (if s.issue.quiet then pending s 1 .cutcount else s)
      ∃ t, exec .tret s = .next t ∧ t.issue.xfer = some .tret ∧ (∀ a, t.mem.get a = s.mem.get a) ∧
        t.cx.pc = u.cx.epc.toNat ∧ t.cx.rpos = u.cx.status.toNat / 2 ^ 8 % 2 ^ 7 ∧ t.cx.sres = u.cx.status.toNat / 2 ^ 4 % 2 ^ 3 ∧
        t.cx.mode = false ∧
        (∀ v, (u.cx.mode = true ∧ u.cx.saveS = some v) ∨ (u.cx.mode = false ∧ u.cx.saveU = some v) →
          let w := returned u v
          t.cx.step = v.step ∧ t.cx.sticky = v.sticky ∧ t.cx.loops = v.loops ∧ t.cx.loopbuf = v.loopbuf ∧ t.cx.arming = v.arming ∧ t.cx.strides = v.strides ∧ t.cx.held = v.held ∧
          (∀ r : GR, t.cx.rg r = landedG r (u.cx.rg r) (dueNow w)) ∧ (∀ r : PR, t.cx.rp r = landedP r (u.cx.rp r) (dueNow w)) ∧
          (∀ r : VR, t.cx.rv r = landedV r (u.cx.rv r) (dueNow w)) ∧ (∀ r : AR, (t.cx.ra r).value = landedWalk r (u.cx.ra r).value (dueNow w)) ∧
          (dueNow w = [] → t.cx.inflight = w.cx.inflight ∧
            (u.cx.mode = true → t.cx.uh = u.cx.uh ∧ t.cx.saveU = u.cx.saveU ∧ t.cx.fw = none) ∧
            (u.cx.mode = false → t.cx.uh = false ∧ t.cx.saveS = u.cx.saveS ∧ t.cx.faddr = u.cx.faddr ∧ t.cx.epc = u.cx.epc))))

namespace Sys2Proof.Spec

open Sys2Proof Sys2Proof.Machine

/-- What g register r of a context reads as (R10). -/
def gOf (s : State) (k : Nat) (r : GR) : W64 := (s.ctx k).rg r

/-- Every register, walker, system register and row of a window is as it was, of every context. -/
def SameRegisters (s t : State) : Prop :=
  ∀ k, (t.ctx k).g = (s.ctx k).g ∧ (t.ctx k).v = (s.ctx k).v ∧ (t.ctx k).p = (s.ctx k).p ∧ (t.ctx k).a = (s.ctx k).a ∧ (t.ctx k).x = (s.ctx k).x ∧
    (t.ctx k).q = (s.ctx k).q ∧ (t.ctx k).status = (s.ctx k).status ∧ (t.ctx k).flags = (s.ctx k).flags ∧ (t.ctx k).faddr = (s.ctx k).faddr ∧
    (t.ctx k).epc = (s.ctx k).epc ∧ (t.ctx k).ord = (s.ctx k).ord ∧ (t.ctx k).rngctr = (s.ctx k).rngctr ∧ (t.ctx k).cutcount = (s.ctx k).cutcount ∧
    (t.ctx k).window = (s.ctx k).window ∧ (t.ctx k).emulsion = (s.ctx k).emulsion ∧ (t.ctx k).spools = (s.ctx k).spools ∧
    (t.ctx k).inflight = (s.ctx k).inflight ∧ (t.ctx k).step = (s.ctx k).step ∧ (t.ctx k).pc = (s.ctx k).pc

/-- Every byte of memory reads as it did. -/
def SameMemory (s t : State) : Prop := ∀ a, t.mem.get a = s.mem.get a

end Sys2Proof.Spec

/-- R10, R18, R90: at a landing every g, p and v register takes the value of its latest-issued result due by the step count and keeps its value otherwise, a write of g0 or p0 is discarded, and a walker's value is formed by the writes, marks and strides that land; what is not due stays in flight, and memory does not change. -/
def Sys2Proof.Spec.ResultsLandAtTheirStep : Prop :=
  ∀ (s : State),
    let t := s.landDue
    (∀ r : GR, t.cx.rg r = landedG r (s.cx.rg r) (dueNow s)) ∧ (∀ r : PR, t.cx.rp r = landedP r (s.cx.rp r) (dueNow s)) ∧
    (∀ r : VR, t.cx.rv r = landedV r (s.cx.rv r) (dueNow s)) ∧ (∀ w : AR, (t.cx.ra w).value = landedWalk w (s.cx.ra w).value (dueNow s)) ∧
    t.cx.inflight = s.cx.inflight.filter (fun l => !(decide (l.due ≤ s.cx.step) && (!l.eff.onMatrix || s.ownsMatrix))) ∧
    t.cx.step = s.cx.step ∧ t.cx.pc = s.cx.pc ∧ (∀ k, k ≠ s.cur → t.ctx k = s.ctx k) ∧ SameMemory s t

/-- R92, R14: a SYSWR of sys.flags that lands with raised flags does not erase them: the register then holds the written bits ORed with every flag that lands. -/
def Sys2Proof.Spec.WrittenFlagsKeepWhatIsRaised : Prop :=
  ∀ (s : State) (n : Nat) (x : W64) (f g : FlagSet), s.cx.step = n →
    s.cx.inflight = [⟨n, .flags f⟩, ⟨n, .sys .flags x⟩, ⟨n, .flags g⟩] →
    s.landDue.cx.flags.toNat = (x.toNat % 32) ||| f.toNat ||| g.toNat

/-- R18, R90, R91: at a landing each X register, walker step and stride, system register, the count of quiet issues, the random counter, the copy flags, each bank's emulsion, spool and stream binding takes what lands on it, a register's later write over its earlier one; SYSWR's writes are those of `Ctx.writeSys`, whose bits the statement beside this one gives, and sys.flags keeps every flag that lands with a write of it. A write of sys.mowner sets the owner of the core's matrix state and leaves it clean; what lands on the matrix state lands in order, an MDRAINZ's zero and a clear of OVF first, and leaves it dirty. -/
def Sys2Proof.Spec.EveryKindOfResultLands : Prop :=
  ∀ (s : State),
    let t := s.landDue
    let l := dueNow s
    let n := s.cx.coreNum
    let sys : Ctx := l.foldl (fun d e => match e with | .sys r y => d.writeSys r y | _ => d) s.cx
    (∀ r : XR, t.cx.rx r = l.foldl (fun x e => match e with | .x d up y => if d = r then landedHalf x up y else x | _ => x) (s.cx.rx r)) ∧
    (∀ w : AR, (t.cx.ra w).step = l.foldl (fun x e => match e with | .walkStep d y => if d = w then y else x | _ => x) (s.cx.ra w).step) ∧
    (∀ (w : AR) (i : Fin 6), (t.cx.ra w).strides[i] = l.foldl (fun x e => match e with | .walkStride d m y => if d = w ∧ m = i.val then y else x | _ => x) (s.cx.ra w).strides[i]) ∧
    t.cx.status = sys.status ∧ t.cx.faddr = sys.faddr ∧ t.cx.epc = sys.epc ∧ t.cx.msave = sys.msave ∧ t.cx.ord = sys.ord ∧
    t.cx.flags = l.foldl (fun x e => match e with | .flags f => x ||| f.setWidth 64 | _ => x) sys.flags ∧
    t.cx.rngctr = l.foldl (fun x e => match e with
      | .sys .rngctrLo y => BitVec.ofNat 128 (x.toNat / 2 ^ 64 * 2 ^ 64 + y.toNat)
      | .sys .rngctrHi y => BitVec.ofNat 128 (y.toNat * 2 ^ 64 + x.toNat % 2 ^ 64)
      | .rngctr y => y
      | _ => x) s.cx.rngctr ∧
    t.cx.cutcount = s.cx.cutcount + BitVec.ofNat 64 (l.count .cutcount) ∧
    t.cx.cflags = (if Eff.cflagsClear ∈ l then 0 else s.cx.cflags) ∧
    t.cx.window = l.foldl (fun m e => match e with | .window cells => m.writeCells cells | _ => m) s.cx.window ∧
    (∀ b : Fin 32, t.cx.emulsion[b] = l.foldl (fun x e => match e with | .emulsion i y => if i = b.val then y else x | _ => x) s.cx.emulsion[b]) ∧
    (∀ k, tabGet t.cx.spools k = l.foldl (fun x e => match e with
      | .spoolDef i sp => if i = k then some sp else x
      | .spoolP i a => if i = k then x.map fun sp => { sp with p := (sp.p + a) % 2 ^ 32 } else x
      | .spoolC i a => if i = k then x.map fun sp => { sp with c := (sp.c + a) % 2 ^ 32 } else x
      | _ => x) (tabGet s.cx.spools k)) ∧
    (∀ q : QR, t.cx.rq q = l.foldl (fun x e => match e with
      | .bind r (some sp) => if r = q then some sp else if x = some sp then none else x
      | .bind r none => if r = q then none else x
      | _ => x) (s.cx.rq q)) ∧
    ((∀ e ∈ l, e.onMatrix = false) →
      (t.core n).mowner = l.foldl (fun x e => match e with | .mownerWrite y _ => y.setWidth 16 | _ => x) (s.core n).mowner ∧
      (t.core n).mhwc = l.foldl (fun x e => match e with | .mownerWrite _ hw => BitVec.ofNat 2 hw | _ => x) (s.core n).mhwc ∧
      (t.core n).mdirty = ((s.core n).mdirty && !l.any fun e => match e with | .mownerWrite .. => true | _ => false) ∧ (t.core n).mat = (s.core n).mat) ∧
    ((∀ e ∈ l, ∀ y hw, e ≠ .mownerWrite y hw) →
      (t.core n).mat = (l.filter Eff.first ++ l.filter fun e => !e.first).foldl Matrix.apply (s.core n).mat ∧
      (t.core n).mdirty = ((s.core n).mdirty || l.any Eff.onMatrix) ∧ (t.core n).mowner = (s.core n).mowner ∧ (t.core n).mhwc = (s.core n).mhwc) ∧
    (∀ (plane : Bool) (m : Matrix) (c : Nat) (mask data : VReg), c < 128 → ∀ (p : Fin 2) (i : Fin 128),
      ((m.apply (.planeCol plane [(c, mask, data)])).planes[p])[i] =
        if p.val = plane.toNat ∧ i.val = c then ((m.planes[p])[i] &&& ~~~mask) ||| (data &&& mask) else (m.planes[p])[i]) ∧
    (∀ (plane : Bool) (m : Matrix) (c : Nat) (x : ScaleCol), c < 128 → ∀ (p : Fin 2) (i : Fin 128),
      ((m.apply (.scaleCol plane c x)).scales[p])[i] =
        if p.val = plane.toNat ∧ i.val = c then BitVec.ofNat 512 (x.toNat % 2 ^ 504) else (m.scales[p])[i])

/-- R18: the events FIXED_LATENCY_LANDING and BEAT_LANDING land what is due of a live context, sums and pending zeros at the second, all else at the first; where nothing is due no register and no byte changes; of a context that is not live they change nothing. -/
def Sys2Proof.Spec.LandingEventsLandWhatIsDue : Prop :=
  ∀ (k : Nat) (s : State),
    ((s.ctx k).phase ≠ .live → exec (.fixedLatencyLanding k) s = .next s ∧ exec (.beatLanding k) s = .next s) ∧
    ((∀ l ∈ (s.ctx k).inflight, (s.ctx k).step < l.due) →
      ∃ t u, exec (.fixedLatencyLanding k) s = .next t ∧ exec (.beatLanding k) s = .next u ∧ SameRegisters s t ∧ SameRegisters s u ∧ SameMemory s t ∧ SameMemory s u) ∧
    ((s.ctx k).phase = .live → (∀ l ∈ (s.ctx k).inflight, l.eff.isBeat = false) →
      exec (.fixedLatencyLanding k) s = .next { State.landDue { s with cur := k } with cur := s.cur } ∧ exec (.beatLanding k) s = .next s) ∧
    ((s.ctx k).phase = .live → (∀ l ∈ (s.ctx k).inflight, l.eff.isBeat = true) →
      exec (.beatLanding k) s = .next { State.landDue { s with cur := k } with cur := s.cur } ∧ exec (.fixedLatencyLanding k) s = .next s) ∧
    (∀ (n : Nat) (d : GR) (x : W64), (s.ctx k).phase = .live → (s.ctx k).step = n → (s.ctx k).inflight = [⟨n, .g d x⟩] →
      ∃ t, exec (.fixedLatencyLanding k) s = .next t ∧ (t.ctx k).inflight = [] ∧ SameMemory s t ∧
        (∀ r : GR, gOf t k r = if r = 0 then 0 else if r = d then x else gOf s k r) ∧ (t.ctx k).v = (s.ctx k).v ∧ (t.ctx k).p = (s.ctx k).p) ∧
    (∀ (n : Nat) (row : Nat) (core hw : Nat), (s.ctx k).phase = .live → (s.ctx k).step = n → (s.ctx k).inflight = [⟨n, .accZero row⟩] →
      (s.ctx k).place = some (core, hw) → (s.core core).mowner ≠ 0xFFFF → (s.core core).mhwc.toNat = hw →
      ∃ t, exec (.beatLanding k) s = .next t ∧ (t.ctx k).inflight = [] ∧ SameMemory s t ∧ (t.core core).mdirty = true ∧ (t.ctx k).g = (s.ctx k).g ∧
        ∀ i : Fin 128, (t.core core).mat.acc[i] = if i.val = row % 128 then 0 else (s.core core).mat.acc[i])

namespace Sys2Proof.Spec

open Sys2Proof Sys2Proof.Machine

/-- The machine as slot j of the first issue of bundle b acts: its core has this context as the last to issue. -/
def atSlotOf (u : State) (b : Bundle) (j : Nat) : State :=
  let t := { u with cores := tabSet u.cores u.cx.coreNum { u.core u.cx.coreNum with last := u.cx.hw } }
  { t with issue := { u.issue with slot := j, base := u.cx.inflight.length, first := u.nextId, quiet := b.hdr.quiet } }

/-- `t` is `s` with the record of the pages that a virtual function has written brought up to date: that record is the model's own (R325, log 78). -/
def SameButOwned (s t : State) : Prop := t = { s with owned := t.owned }

/-- Word n of the code behind an address that TLB entry e translates. -/
def codeWordAt (s : State) (e : TlbEntry) (pc n : Nat) : W32 := BitVec.ofNat 32 (s.mem.readLE (e.pa + (pc + 4 * n - e.va)) 4)

/-- What an L-slot access asks for: opcode, need, address (R218), bytes, alignment, enabled bytes, bytes to write, kind, counter, acquire, release (R221). -/
structure AccessForm where
  opc : Nat
  need : Need
  addr : W64
  n : Nat
  align : Nat
  en : Nat → Bool
  data : Nat → Byte
  kind : AccKind
  cls : Cls
  acq : Option Scope
  rel : Bool

/-- Bytes of an SZ (R56). -/
def sizeOf' (sz : Sz) : Nat := match sz with | .i8 | .n8 => 1 | .i16 | .n16 => 2 | .i32 | .n32 => 4 | .b64 => 8

/-- Value of GA plus the offset, modulo 2^64 (R218). -/
def addressOf (s : State) (a : GR) (w : Nat) (x : Ext) (off : Nat) : W64 := BitVec.ofInt 64 ((s.rg a).toNat + immOf w x off)

/-- Byte i of a number. -/
def byteAt (x i : Nat) : Byte := BitVec.ofNat 8 (x / 2 ^ (8 * i))

/-- The loads, stores and atomics of R222, R223, R226, R227 and R229. -/
def accessOp (i : Instr) (s : State) : Option AccessForm :=
  match i with
  | .ld x g a sz o => some ⟨1, .read, addressOf s a 12 x o.toNat, sizeOf' sz, sizeOf' sz, fun _ => true, fun _ => 0, .load (.g g sz), .ld, none, false⟩
  | .st x g a sz o => some ⟨2, .write, addressOf s a 12 x o.toNat, sizeOf' sz, sizeOf' sz, fun _ => true, byteAt (s.rg g).toNat, .store, .st, none, false⟩
  | .vld x v a p o => some ⟨3, .read, addressOf s a 12 x o.toNat, 256, 1, fun j => (s.cx.rp p).getLsbD j, fun _ => 0, .load (.v v (s.cx.rp p)), .ld, none, false⟩
  | .vst x v a p o => some ⟨4, .write, addressOf s a 12 x o.toNat, 256, 1, fun j => (s.cx.rp p).getLsbD j, byteAt (s.rv v 8).toNat, .store, .st, none, false⟩
  | .lda x g a sz sc o => some ⟨9, .read, addressOf s a 10 x o.toNat, sizeOf' sz, sizeOf' sz, fun _ => true, fun _ => 0, .load (.g g sz), .ld, some sc, false⟩
  | .stl x g a sz _ o => some ⟨10, .write, addressOf s a 10 x o.toNat, sizeOf' sz, sizeOf' sz, fun _ => true, byteAt (s.rg g).toNat, .store, .st, none, true⟩
  | .amo g a b op sc scope wide => some ⟨11, .write, s.rg a, if wide then 8 else 4, if wide then 8 else 4, fun _ => true, fun _ => 0,
      .amo op wide (s.rg b) g, if g = 0 then .st else .ld, if sc then some scope else none, sc⟩
  | .cas g a b c sc scope wide => some ⟨12, .write, s.rg a, if wide then 8 else 4, if wide then 8 else 4, fun _ => true, fun _ => 0,
      .cas wide (s.rg b) (s.rg c) g, if g = 0 then .st else .ld, if sc then some scope else none, sc⟩
  | .amow a b => some ⟨13, .write, s.rg a, 4, 4, fun _ => true, byteAt (s.rg b).toNat, .winAdd false, .st, none, false⟩
  | _ => none

/-- The translation of every byte of a range is entry e of the core's TLB, which grants the need and shows A, and D for a write, as set (R193, R194, R196). -/
def Mapped (s : State) (need : Need) (e : TlbEntry) (va n : Nat) : Prop :=
  (∀ x, va ≤ x → x < va + n → (s.core s.cx.coreNum).tlb.find? (fun e => e.covers s.cx.rank x) = some e) ∧
  e.bits.testBit need.bit = true ∧ e.bits.testBit bitA = true ∧ (need = .write → e.bits.testBit bitD = true)

/-- The parts of an access: one for each 128-byte line that holds an enabled byte (R206, R223). -/
def partsThrough (e : TlbEntry) (f : AccessForm) : List Part :=
  let va := f.addr.toNat
  ((linePieces (f.n / 128 + 2) va f.n).filter fun q => (List.range q.2).any fun i => f.en (q.1 - va + i)).map fun q =>
    ⟨q.1, e.pa + (q.1 - e.va), e.bits.testBit bitLC, (List.range q.2).map fun i => f.en (q.1 - va + i),
      (List.range q.2).map fun i => f.data (q.1 - va + i), .waiting⟩

/-- `s` with one more outstanding access of the present context, which counts on its counter (R21). -/
def withAccess (s : State) (f : AccessForm) (parts : List Part) : State :=
  { s with
    nextId := s.nextId + 1
    accs := s.accs ++ [⟨s.nextId, s.cur, s.cx.rank, s.cx.coreNum, s.issue.slot, f.opc, s.cx.pc, f.kind, f.cls, f.acq, f.rel, parts, false, s.issue.first, [], s.issue.fixed⟩]
    ctxs := tabSet s.ctxs s.cur (s.cx.countUp f.cls s.nextId) }

/-- The new word of an atomic on words of w bits, old value `o`, operand `b` (R226). -/
def amoResult (op : Aop) (w o b : Nat) : Nat :=
  let b := b % 2 ^ w
  let so := twosOf w o
  let sb := twosOf w b
  match op with
  | .swap => b
  | .add => (o + b) % 2 ^ w
  | .and => o &&& b
  | .or => o ||| b
  | .xor => o ^^^ b
  | .min => if so ≤ sb then o else b
  | .max => if so ≤ sb then b else o
  | .minn => if o ≤ b then o else b
  | .maxn => if o ≤ b then b else o

/-- A part in this device's memory to which no open window, no latent cell and no bad block is near. -/
def PlainPart (s : State) (rank : Nat) (p : Part) : Prop :=
  p.st = .waiting ∧ p.remote = false ∧ (∀ w ∈ s.wins, w.rank ≠ rank) ∧ s.cells = [] ∧ s.bad = []

/-- Access `id` of the machine is `a`, and its part i may perform now: nothing that its context issued earlier is still ordered before it (R210), and no memory budget of its virtual function holds it (R323). -/
def MayPerform (s : State) (id i : Nat) (a : Acc) (p : Part) : Prop :=
  s.acc? id = some a ∧ a.id = id ∧ a.parts[i]? = some p ∧ s.blocked a p = false ∧ s.hbmHeld (s.rankOf a.rank).vf (s.placeOf a p) = false

/-- A read that no write or FIX of its own issue has gone before at what it reads (R208). -/
def NothingKept (a : Acc) : Prop := a.keep = [] ∧ a.shut = none

/-- No part of an access, or of another access of its context, has failed. -/
def NoneFailed (s : State) (a : Acc) : Prop := ∀ x ∈ s.accs, x.ctx = a.ctx → ∀ q ∈ x.parts, ∀ c y, q.st ≠ .failed c y

/-- The parts of a VLD whose byte 0 lies at `base`: lines in ascending order, each with an enabled byte, that hold every byte its predicate enables (R206, R223). -/
def VectorParts (a : Acc) (mask : PReg) (base : Nat) : Prop :=
  a.parts.Pairwise (fun p q => p.va + p.en.length ≤ q.va) ∧
  (∀ p ∈ a.parts, base ≤ p.va ∧ p.va + p.en.length ≤ base + 256 ∧ p.data.length = p.en.length ∧ p.en.any id = true ∧
    ∀ i, i < p.en.length → p.en.getD i false = mask.getLsbD (p.va - base + i)) ∧
  (∀ j, j < 256 → mask.getLsbD j = true → ∃ p ∈ a.parts, p.va ≤ base + j ∧ base + j < p.va + p.en.length)

end Sys2Proof.Spec

/-- A step of a device that heat has not stopped runs exactly the operation or event that the agenda names next, else the first thing the machine does by itself; with nothing to do it changes nothing. R405, R407: a stopped device stops, but for a device reset. That an agenda says what happens next, and what the machine does first by itself when that is empty, are the model's own (log 24). -/
def Obligations.StepRunsTheOperationThatIsNext : Prop :=
  ∀ (s : State),
    (s.hub.shutdown = true → s.agenda.head? ≠ some .deviceReset → step s = .fault .deviceStopped) ∧
    (∀ l : List Instr, s.agenda = .deviceReset :: l → step s = exec .deviceReset { s with agenda := l }) ∧
    (s.hub.shutdown = false →
      (∀ (i : Instr) (l : List Instr), s.agenda = i :: l → step s = exec i { s with agenda := l }) ∧
      (∀ i : Instr, s.agenda = [] → s.nextAuto = some i → step s = exec i s) ∧ (s.agenda = [] → s.nextAuto = none → step s = .next s))

/-- R50, R52, R95: a bundle not held in the loop buffer is read from memory at the program counter, word after word, little-endian, through the context's translation, and is the bundle that the decoder reads from those words. -/
def Sys2Proof.Spec.FetchReadsTheBundleAtThePc : Prop :=
  ∀ (s : State) (e : TlbEntry) (n : Nat) (b : Bundle),
    let pc := s.cx.pc
    tabGet s.cx.loopbuf pc = none → s.cells = [] → s.cx.mode = false → s.cx.kernel.code ≤ pc → pc + 4 * n ≤ s.cx.kernel.code + s.cx.kernel.size → n ≤ 15 →
    pc + 4 * n ≤ 2 ^ 48 → pc % 4 = 0 → Mapped s .fetch e pc (4 * n) → paRemote e.pa = false → e.pa % 65536 = 0 → e.va % 65536 = 0 → e.pa + e.size ≤ 2 ^ 55 →
    s.bad = [] → (∀ w ∈ s.wins, w.rank ≠ s.cx.rank) → (s.core s.cx.coreNum).icache = [] →
    decodeBundle (fun i => if i < n then some (codeWordAt s e pc i) else none) = some b →
    ∃ ws u, s.bundleAt pc = .ok b ws u ∧ SameMemory s u ∧ u.ctxs = s.ctxs ∧ u.cur = s.cur ∧ u.issue = s.issue

/-- R17, R52, R67, R69, R153, R154: when it is a context's turn on its core and it issues a fetched bundle whose one word decodes to operation i, nothing holds the issue and it is legal, the issue is exec of i in that slot, and then the end of the issue: the word becomes the slot's sticky operation, the issue is counted, the sequencer moves on, the step count rises by one and what is due lands. A context merged with it issues beside it. -/
def Sys2Proof.Spec.IssueRunsTheDecodedOperation : Prop :=
  ∀ (s : State) (k j : Nat) (i : Instr) (b : Bundle) (ws : List W32) (u w : State),
    let t := s.atIssue k
    (s.ctx k).placed = true → (s.ctx k).fw = none → (∀ m ∈ s.matesOf k, s.turnOf k ≤ s.turnOf m ∨ s.isReady m = false) →
    t.passing = false → t.waitsForMates k = false → t.cx.arming.bind (·.rest) = none → t.bundleAt t.cx.pc = .ok b ws u → t.boundary (some b.hdr.quiet) = none →
    b.words = [⟨j, some i⟩] → j ≤ 6 → i.slot.isSome = true → i ≠ .yield → (b.hdr.quiet = true → u.cx.mode = true ∨ u.cutViolated [(j, i)] = false) →
    u.cx.sres = 0 → u.cx.rpos = 0 → u.cx.sticky = Sticky.none →
    u.held [(j, i)] = false → u.illegalMask b (u.cx.acts b) = 0 → u.asks [(j, i)] = none → u.cx.corr = [] → (atSlotOf u b j).spoiltBy i = none →
    exec i (atSlotOf u b j) = .next w → w.issue.trapped = false → w.issue.xfer = none →
    let r := State.noteIssued { (w.modCx fun c => { c with sticky := stickyPut c.sticky j i }).finish b [] (!u.cx.mode) with free := w.free + 1 }
    (s.matesOf k = [] → exec (.bundleIssue k) s = .next r) ∧
    (exec (.bundleIssue k) s = .next r ∨ ∃ m ∈ s.matesOf k, s.mergedWith k = some m ∧ exec (.bundleIssue k) s = .next (r.mergedIssue m))

/-- R17, R69: the end of an issue whose slots have committed and that transfers nowhere: the step count rises by one, and with repeats left the same bundle issues again, else control passes on. -/
def Sys2Proof.Spec.IssueTakesOneStep : Prop :=
  ∀ (s : State) (b : Bundle) (user : Bool), s.issue.xfer = none → s.cx.loops = [] → s.cx.arming = none → s.cx.loopbuf = [] →
    let t := s.finish b [] user
    t.cx.step = s.cx.step + 1 ∧
    (s.cx.rpos < b.hdr.rpt → t.cx.pc = s.cx.pc ∧ t.cx.rpos = s.cx.rpos + 1) ∧ (b.hdr.rpt ≤ s.cx.rpos → t.cx.pc = s.cx.pc + b.len ∧ t.cx.rpos = 0) ∧
    t.cx.sres = 0 ∧ SameMemory s t ∧ (∀ k, k ≠ s.cur → t.ctx k = s.ctx k)

/-- R218, R220, R221: a load, store, atomic or window add whose address is in range and aligned and whose bytes are mapped becomes one outstanding access of the present context, one part to each line that holds an enabled byte, and its counter rises; nothing else changes, and no byte is read or written yet. An access with nothing enabled settles at once. -/
def Sys2Proof.Spec.AccessesBecomeOutstanding : Prop :=
  ∀ (i : Instr) (s : State) (f : AccessForm) (e : TlbEntry), accessOp i s = some f →
    f.addr.toNat + f.n ≤ 2 ^ 48 → f.addr.toNat % f.align = 0 → Mapped s f.need e f.addr.toNat f.n →
    ∃ o, exec i s = .next ((withAccess { s with owned := o } f (partsThrough e f)).settle s.nextId) ∧ (f.need = .read → o = s.owned)

/-- R218, R193, R220: an address of 2^48 or more faults TRANSLATION; then a misaligned one faults MISALIGNED; then, for an access inside one line whose bytes are all enabled, one that the rank's tables do not map faults TRANSLATION, one whose page denies it faults PERMISSION, and one whose walk reads a block that fails its check beyond correction faults INTEGRITY (R305; the model's reading of a walk, log 80); each with the address as its faulting address, at the slot, and no counter rises. -/
def Sys2Proof.Spec.AccessesFaultAtTheirSlot : Prop :=
  ∀ (i : Instr) (s : State) (f : AccessForm), accessOp i s = some f →
    (2 ^ 48 ≤ f.addr.toNat → exec i s = .next (s.slotFault .translation f.addr)) ∧
    (f.addr.toNat < 2 ^ 48 → f.addr.toNat % f.align ≠ 0 → exec i s = .next (s.slotFault .misaligned f.addr)) ∧
    (f.addr.toNat < 2 ^ 48 → f.addr.toNat % f.align = 0 → f.addr.toNat % 128 + f.n ≤ 128 → (∀ j < f.n, f.en j = true) →
      (s.lookup s.cx.coreNum s.cx.rank f.addr.toNat = none →
        (s.walkSound s.cx.rank f.addr.toNat = true → exec i s = .next (s.slotTrap .translation f.addr .faultRecord)) ∧
        (s.walkSound s.cx.rank f.addr.toNat = false → exec i s = .next (s.slotFault .integrity f.addr))) ∧
      (∀ e t, s.lookup s.cx.coreNum s.cx.rank f.addr.toNat = some (e, t) → e.bits.testBit f.need.bit = false →
        exec i s = .next (s.slotTrap .permission f.addr .faultRecord)))

/-- R206, R186: when a part of a store performs in plain memory of this device, the bytes it enables hold the store's bytes from then on and every other byte of memory reads as before; no register of any context changes. R233: a WAITM that waits at a word the store writes into, and that the word then satisfies, has it. -/
def Sys2Proof.Spec.StorePerformsItsEnabledBytes : Prop :=
  ∀ (s : State) (id i : Nat) (a : Acc) (p : Part), MayPerform s id i a p → a.kind = .store → PlainPart s a.rank p → NoneFailed s a → s.mem.wf = true →
    ∃ t, exec (.accessPerform id i) s = .next t ∧ SameRegisters s t ∧
      (∀ j, p.en.getD j false = true → t.mem.get (p.pa + j) = p.data.getD j 0) ∧
      (∀ x, (∀ j, p.en.getD j false = true → x ≠ p.pa + j) → t.mem.get x = s.mem.get x) ∧
      (∀ w ∈ s.watches, w.got = none → (∃ j, p.en.getD j false = true ∧ w.pa ≤ p.pa + j ∧ p.pa + j < w.pa + 8) → w.bound.toNat ≤ t.mem.readLE w.pa 8 →
        { w with got := some (BitVec.ofNat 64 (t.mem.readLE w.pa 8)) } ∈ t.watches)

/-- R206, R207, R238: when a part of a load that L1 does not serve performs in plain memory, it has brought the bytes that memory holds at that instant; no byte of memory and no register changes until the load retires. A read that meets a latent cell (LATENT_CELL_READ) in VALUE is such a read; an event for a part that no cell concerns changes nothing. -/
def Sys2Proof.Spec.LoadPerformsWithTheBytesOfMemory : Prop :=
  ∀ (s : State) (id i : Nat) (a : Acc) (p : Part), MayPerform s id i a p → (∃ d, a.kind = .load d ∧ d ≠ .none) → a.acq = none → PlainPart s a.rank p →
    NothingKept a → NoneFailed s a → s.l1Line a.core p.pa = none →
    (∃ t b, exec (.accessPerform id i) s = .next t ∧ SameRegisters s t ∧ SameMemory s t ∧ t.acc? id = some b ∧
      b.parts[i]? = some { p with st := .done, data := (List.range p.en.length).map fun j => if p.en.getD j false then s.mem.get (p.pa + j) else 0 }) ∧
    exec (.latentCellRead id i) s = .next s

/-- R226, R227, R214: an AMO or CAS that performs reads the word and writes the new one in one instant: op(old, b), or C where the old value equals B; it brings the old value back, and no other byte of memory changes. -/
def Sys2Proof.Spec.AtomicsReadAndWriteInOneInstant : Prop :=
  ∀ (s : State) (id i : Nat) (a : Acc) (p : Part) (wide : Bool) (b : W64), MayPerform s id i a p → PlainPart s a.rank p → NoneFailed s a → s.mem.wf = true →
    p.en = List.replicate (if wide then 8 else 4) true →
    let n := if wide then 8 else 4
    let old := s.mem.readLE p.pa n
    (∀ op d, a.kind = .amo op wide b d →
      ∃ t, exec (.accessPerform id i) s = .next t ∧ SameRegisters s t ∧ t.mem.readLE p.pa n = amoResult op (8 * n) old b.toNat ∧
        (∀ x, x < p.pa ∨ p.pa + n ≤ x → t.mem.get x = s.mem.get x)) ∧
    (∀ c d, a.kind = .cas wide b c d →
      ∃ t, exec (.accessPerform id i) s = .next t ∧ SameRegisters s t ∧
        t.mem.readLE p.pa n = (if old = b.toNat % 2 ^ (8 * n) then c.toNat % 2 ^ (8 * n) else old) ∧
        (∀ x, x < p.pa ∨ p.pa + n ≤ x → t.mem.get x = s.mem.get x))

/-- R21, R23, R222, R226: a load or atomic whose parts have all performed retires: its register takes the bytes, extended as SZ states (an atomic's zero-extended), earlier results in flight for it are discarded, and its counter falls; g0 keeps reading as zero; memory and every other g register are unchanged. -/
def Sys2Proof.Spec.LoadRetiresIntoItsRegister : Prop :=
  ∀ (s : State) (id : Nat) (a : Acc) (d : GR) (x : W64), s.acc? id = some a → a.cls = .ld → (∀ p ∈ a.parts, p.st = .done) →
    (s.ctx a.ctx).alive = true →
    (∃ sz, a.kind = .load (.g d sz) ∧ x = szExtend sz (leNat a.bytes)) ∨
      (∃ op wide b, a.kind = .amo op wide b d ∧ x = BitVec.ofNat 64 (leNat a.bytes % 2 ^ (if wide then 64 else 32))) ∨
      (∃ wide b c, a.kind = .cas wide b c d ∧ x = BitVec.ofNat 64 (leNat a.bytes % 2 ^ (if wide then 64 else 32))) →
    ∃ t, exec (.loadRetire id) s = .next t ∧ SameMemory s t ∧
      (∀ r : GR, gOf t a.ctx r = if r = 0 then 0 else if r = d then x else gOf s a.ctx r) ∧
      (t.ctx a.ctx).v = (s.ctx a.ctx).v ∧ (t.ctx a.ctx).p = (s.ctx a.ctx).p ∧
      (t.ctx a.ctx).ld = ((s.ctx a.ctx).ld.map fun e => if e.1 = id then (id, true) else e).dropWhile (·.2) ∧
      (∀ l ∈ (t.ctx a.ctx).inflight, ∀ y, l.eff ≠ .g d y)

/-- R223, R23: a VLD whose parts have all performed retires: the enabled bytes of its register take the bytes read together, the others keep theirs. -/
def Sys2Proof.Spec.VectorLoadRetiresItsEnabledBytes : Prop :=
  ∀ (s : State) (id : Nat) (a : Acc) (d : VR) (mask : PReg) (base : Nat), s.acc? id = some a → a.cls = .ld → a.kind = .load (.v d mask) → (∀ p ∈ a.parts, p.st = .done) →
    VectorParts a mask base → (s.ctx a.ctx).alive = true →
    ∃ t, exec (.loadRetire id) s = .next t ∧ SameMemory s t ∧ (t.ctx a.ctx).g = (s.ctx a.ctx).g ∧ (t.ctx a.ctx).p = (s.ctx a.ctx).p ∧
      (∀ r : VR, r ≠ d → (t.ctx a.ctx).rv r = (s.ctx a.ctx).rv r) ∧
      (∀ p ∈ a.parts, ∀ i k : Nat, i < p.en.length → k < 8 → p.en.getD i false = true →
        ((t.ctx a.ctx).rv d).getLsbD (8 * (p.va - base + i) + k) = (p.data.getD i 0).getLsbD k) ∧
      (∀ j k : Nat, j < 256 → k < 8 → mask.getLsbD j = false → ((t.ctx a.ctx).rv d).getLsbD (8 * j + k) = ((s.ctx a.ctx).rv d).getLsbD (8 * j + k))

namespace Sys2Proof.Spec

open Sys2Proof Sys2Proof.Machine

/-- A step mark's effect beside an operation's: value + issue step at the next step (R68). -/
def stepMark (s : State) (w : AR) (m : Bool) (t : State) : State := if m then pending t 1 (.walkAdd w (s.cx.ra w).step) else t

/-- Byte j of a 256-byte register (R4). -/
def vbyte (x : VReg) (j : Nat) : Byte := BitVec.ofNat 8 (x.toNat / 2 ^ (8 * j))

/-- Nothing of the present context is outstanding and no engine command runs: no slot operation waits for an earlier one. -/
def Quiet (s : State) : Prop := (∀ a ∈ s.accs, a.ctx ≠ s.cur) ∧ s.cmds = [] ∧ s.remote = []

/-- B(w) of R203: 16 KiB-aligned blocks that a range of count elements touches. -/
def blocksOf (base count : Nat) : Nat := (base + 4 * count - 1) / 16384 - base / 16384 + 1

/-- A new window violates a bound of R203. -/
def WindowFull (s : State) (base count : Nat) : Prop :=
  let mine := s.wins.filter fun w => w.rank == s.cx.rank
  (s.rankOf s.cx.rank).wallow < (mine.map fun w => blocksOf w.base w.count).sum + blocksOf base count ∨ 64 ≤ mine.length ∨
    ∃ w ∈ mine, w.base < base + 4 * count ∧ base < w.base + 4 * w.count

/-- The exact sum of an element after the finite, infinite or NaN value x is added (R200). -/
def addedTo (e : WinElem) (x : XVal) : WinElem :=
  let e' : WinElem := match x with
    | .nan => { e with nan := true }
    | .inf true => { e with ninf := true }
    | .inf false => { e with pinf := true }
    | .fin neg m k _ => { e with sum := e.sum + BitVec.ofInt 302 ((if neg then -(m : Int) else (m : Int)) * 2 ^ (k + 149).toNat) }
  if e.cnt = 2 ^ 24 then { e' with ovf := true } else { e' with cnt := e.cnt + 1 }

end Sys2Proof.Spec

/-- R224, R68: VLDS puts the row's bytes in flight for its register under the mask, three steps out; VSTS puts the register's enabled bytes in flight for the row, one step out; each steps its walker when marked; a row outside the window faults PERMISSION at the slot with the walker's value as address. -/
def Sys2Proof.Spec.RowMovesBetweenWindowAndVectorRegister : Prop :=
  ∀ (v : VR) (w : AR) (m : Bool) (p : PR) (s : State),
    let r := (s.cx.ra w).value.toNat / 256
    (256 * s.cx.kernel.banks ≤ r →
      exec (.vlds v w m p) s = .next (s.slotFault .permission (BitVec.ofNat 64 (s.cx.ra w).value.toNat)) ∧
      exec (.vsts v w m p) s = .next (s.slotFault .permission (BitVec.ofNat 64 (s.cx.ra w).value.toNat))) ∧
    (r < 256 * s.cx.kernel.banks →
      (∃ mask data, exec (.vlds v w m p) s = .next (stepMark s w m (pending s 3 (.v v mask data))) ∧
        ∀ j, j < 256 → vbyte data j = s.cx.window.get (256 * r + j) ∧ vbyte mask j = if (s.cx.rp p).getLsbD j then 0xFF else 0) ∧
      (s.cmds = [] →
        ∃ cells, exec (.vsts v w m p) s = .next (stepMark s w m (pending s 1 (.window cells))) ∧
          ∀ a b, (a, b) ∈ cells ↔ ∃ j, j < 256 ∧ (s.cx.rp p).getLsbD j = true ∧ a = 256 * r + j ∧ b = vbyte (s.rv v 8) j))

/-- R225: SPLD puts the extended bytes at the walker's value in flight for its register, three steps out; SPST the register's low bytes for the window, one step out; the range is checked before the alignment, and either fault has the walker's value as address. -/
def Sys2Proof.Spec.ScratchpadScalarsMove : Prop :=
  ∀ (g : GR) (w : AR) (m : Bool) (sz : Sz) (s : State),
    let a := (s.cx.ra w).value.toNat
    let addr := BitVec.ofNat 64 a
    (65536 * s.cx.kernel.banks ≤ a → exec (.spld g w m sz) s = .next (s.slotFault .permission addr) ∧ exec (.spst g w m sz) s = .next (s.slotFault .permission addr)) ∧
    (a < 65536 * s.cx.kernel.banks → a % sizeOf' sz ≠ 0 →
      exec (.spld g w m sz) s = .next (s.slotFault .misaligned addr) ∧ exec (.spst g w m sz) s = .next (s.slotFault .misaligned addr)) ∧
    (a < 65536 * s.cx.kernel.banks → a % sizeOf' sz = 0 →
      exec (.spld g w m sz) s = .next (stepMark s w m (pending s 3 (.g g (szExtend sz (s.cx.window.readLE a (sizeOf' sz)))))) ∧
      (s.cmds = [] → ∃ cells, exec (.spst g w m sz) s = .next (stepMark s w m (pending s 1 (.window cells))) ∧
        ∀ x b, (x, b) ∈ cells ↔ ∃ j, j < sizeOf' sz ∧ x = a + j ∧ b = byteAt (s.rg g).toNat j))

/-- R18, R224: bytes of the window written by results that land read as the latest of them; the others keep theirs. The premise is the canonical form that MemoryStaysCanonical keeps. -/
def Sys2Proof.Spec.WindowWritesLand : Prop :=
  ∀ (s : State) (cells : List (Nat × Byte)), s.cx.window.wf = true → s.cx.inflight = [⟨s.cx.step, .window cells⟩] →
    ∀ a, s.landDue.cx.window.get a = cells.foldl (fun b c => if c.1 = a then c.2 else b) (s.cx.window.get a)

/-- R230, R203, R206: a WOPEN that nothing holds, whose base is aligned, whose count is legal, whose pages all translate for writing and whose rank has room opens a window of zeroed accumulators over its range, one line after another, each a write at an instant of its own, the last one as it issues; memory keeps its bytes; a misaligned base faults MISALIGNED, and a bad count or a bound of R203 WINDOW_FULL, each with A as address and nothing opened. -/
def Sys2Proof.Spec.WopenOpensAZeroedWindow : Prop :=
  ∀ (a b : GR) (s : State),
    let base := (s.rg a).toNat
    let c := (s.rg b).toNat
    (2 ^ 48 ≤ base → exec (.wopen a b) s = .next (s.slotFault .translation (s.rg a))) ∧
    (base < 2 ^ 48 → base % 128 ≠ 0 → exec (.wopen a b) s = .next (s.slotFault .misaligned (s.rg a))) ∧
    (base < 2 ^ 48 → base % 128 = 0 →
      (c % 32 ≠ 0 ∨ c < 32 ∨ 524288 < c → exec (.wopen a b) s = .next (s.slotFault .windowFull (s.rg a))) ∧
      (c % 32 = 0 → 32 ≤ c → c ≤ 524288 → ∀ l t, s.windowPages (pagePieces (c / 16384 + 3) base (4 * c)) = .ok l t → SameButOwned s t →
        (WindowFull s base c → exec (.wopen a b) s = .next (s.slotFault .windowFull (s.rg a))) ∧
        (¬WindowFull s base c → Quiet s → s.slicesHeld (s.vfOf s.cur) l = false → (∀ w ∈ s.wins, w.opener.1 ≠ s.cur ∨ w.count ≤ w.cleared) →
          ∃ u, exec (.wopen a b) s = .next u ∧ (∀ n, u.core n = { s.core n with l1 := (u.core n).l1 }) ∧
            u = { s with
              wins := s.wins ++ [⟨s.cx.rank, base, c, false, (s.cur, s.issue.first), 32, 0, l, []⟩]
              vfs := u.vfs, cores := u.cores, owned := u.owned, ranks := u.ranks, ctxs := u.ctxs } ∧
            (c = 32 → u.ctxs = s.ctxs) ∧
            (32 < c → u.ctxs = tabSet s.ctxs s.cur { s.cx with held := tabSet s.cx.held s.issue.slot .opening })) ∧
        (∀ (before after : List Win) (w : Win), s.wins = before ++ w :: after → (∀ v ∈ before ++ after, v.opener.1 ≠ s.cur ∨ v.count ≤ v.cleared) →
          w.opener.1 = s.cur → w.rank = s.cx.rank → w.base = base → w.count = c → w.cleared < c → w.cleared % 32 = 0 →
          ¬WindowFull { s with wins := before ++ after } base c → Quiet s →
          ∃ u, exec (.wopen a b) s = .next u ∧ (∀ n, u.core n = { s.core n with l1 := (u.core n).l1 }) ∧
            u = { s with
              wins := before ++ { w with cleared := w.cleared + 32, opener := (s.cur, s.issue.first) } :: after
              cores := u.cores, owned := u.owned, ranks := u.ranks, ctxs := u.ctxs } ∧
            (w.cleared + 32 < c → u.ctxs = s.ctxs) ∧
            (w.cleared + 32 = c → u.ctxs = tabSet s.ctxs s.cur { s.cx with held := tabDel s.cx.held s.issue.slot }))))

/-- R231, R204: WCLOSE of the base of an open window of the rank marks it as closing and counts one TL; any other base faults PERMISSION with A as address. -/
def Sys2Proof.Spec.WcloseMarksTheWindowClosing : Prop :=
  ∀ (a : GR) (s : State),
    let base := (s.rg a).toNat
    ((∀ w ∈ s.wins, ¬(w.rank = s.cx.rank ∧ w.base = base ∧ w.closing = false ∧ w.count ≤ w.cleared)) → exec (.wclose a) s = .next (s.slotFault .permission (s.rg a))) ∧
    (∀ (before after : List Win) (w : Win), s.wins = before ++ w :: after → (∀ v ∈ before, ¬(v.rank = s.cx.rank ∧ v.base = base ∧ v.closing = false ∧ v.count ≤ v.cleared)) →
      w.rank = s.cx.rank → w.base = base → w.closing = false → w.count ≤ w.cleared →
      exec (.wclose a) s = .next (withAccess { s with wins := before ++ { w with closing := true } :: after }
        ⟨15, .write, 0, 0, 1, fun _ => false, fun _ => 0, .wclose base w.count, .tl, none, false⟩ [⟨0, 0, false, [], [], .waiting⟩]))

/-- R232, R216: a FENCE becomes outstanding with its kind and scope, counts on nothing and holds nothing; a DRAIN that its issue lets through changes nothing, and one is not held while nothing of the context is outstanding. -/
def Sys2Proof.Spec.FenceIsOutstandingAndDrainWaits : Prop :=
  (∀ (sc : Scope) (k : FenceKind) (s : State), exec (.fence sc k) s = .next (withAccess s
    ⟨16, .read, 0, 0, 1, fun _ => false, fun _ => 0, .fence k, .none, if k = .release then none else some sc, k != .acquire⟩ [⟨0, 0, false, [], [], .waiting⟩])) ∧
  (∀ s : State, exec .drain s = .next s) ∧
  (∀ (s : State) (ops : List (Nat × Instr)), Quiet s → s.slotHolds ops (2, .drain) = false) ∧
  (∀ (s : State) (ops : List (Nat × Instr)) (a : Acc) (p : Part), a ∈ s.accs → a.ctx = s.cur → p ∈ a.parts → p.remote = true → p.answered = false →
    s.slotHolds ops (2, .drain) = true)

/-- R233: a WAITM whose word is at least B, with nothing outstanding before it, delivers the word one step later and changes beside it only what L1 holds; one whose word is less waits at its home slice, which tests it again after each write: the context remembers B and the slice the watch, and nothing else changes. One whose word a write has satisfied delivers what that write left there, whatever the word holds by then. -/
def Sys2Proof.Spec.WaitmWaitsForItsWord : Prop :=
  ∀ (g a b : GR) (sc : Scope) (s : State) (e : TlbEntry),
    let A := (s.rg a).toNat
    let pa := e.pa + (A - e.va)
    A + 8 ≤ 2 ^ 48 → A % 8 = 0 → Mapped s .read e A 8 → paRemote pa = false → (∀ w ∈ s.wins, w.rank ≠ s.cx.rank) → s.cells = [] → s.bad = [] → Quiet s →
    tabGet s.cx.held s.issue.slot = none →
    ((s.rg b).toNat ≤ s.mem.readLE pa 8 → ∃ t, exec (.waitm g a b sc) s = .next t ∧
      t.cx.inflight = s.cx.inflight ++ [⟨s.cx.step + 1, .g g (BitVec.ofNat 64 (s.mem.readLE pa 8))⟩] ∧
      OnlyPresent { s with cores := t.cores, watches := t.watches } t ∧ t.issue = s.issue ∧ t.cx = { s.cx with inflight := t.cx.inflight, held := t.cx.held }) ∧
    (s.mem.readLE pa 8 < (s.rg b).toNat → ∃ t, exec (.waitm g a b sc) s = .next t ∧
      OnlyPresent { s with nextId := s.nextId + 1, watches := s.watches ++ [⟨s.nextId, s.cur, pa, s.rg b, none⟩] } t ∧ t.issue = s.issue ∧
      t.cx = { s.cx with held := t.cx.held } ∧ tabGet t.cx.held s.issue.slot = some (.waitm (s.rg b) (some s.nextId)))

/-- R233: the delivery of a word that a write has satisfied. -/
def Sys2Proof.Spec.WaitmDeliversWhatSatisfiedIt : Prop :=
  ∀ (g a b : GR) (sc : Scope) (s : State) (e : TlbEntry) (y x : W64) (id : Nat) (w : Watch),
    let A := (s.rg a).toNat
    A + 8 ≤ 2 ^ 48 → A % 8 = 0 → Mapped s .read e A 8 → paRemote (e.pa + (A - e.va)) = false → (∀ w ∈ s.wins, w.rank ≠ s.cx.rank) → s.bad = [] →
    tabGet s.cx.held s.issue.slot = some (.waitm y (some id)) → s.watches.find? (fun w => w.id == id) = some w → w.got = some x →
    ∃ t, exec (.waitm g a b sc) s = .next t ∧ t.cx.inflight = s.cx.inflight ++ [⟨s.cx.step + 1, .g g x⟩] ∧
      OnlyPresent { s with cores := t.cores, watches := t.watches } t ∧ t.cx = { s.cx with inflight := t.cx.inflight, held := t.cx.held }

/-- R234, R235: PREFD and CLEAN change nothing but what the caches and the translation caches hold and, where a block that they read has a correctable error, that block's state and its journal entry (R398); a CLEAN of more than 1 MiB empties the L1 of its core, when it is not fused. -/
def Sys2Proof.Spec.CacheHintsTouchOnlyTheCaches : Prop :=
  (∀ (x : Ext) (a : GR) (l2 : Bool) (o : BitVec 12) (s : State), ∃ t, exec (.prefd x a l2 o) s = .next t ∧
    t = { s with cores := t.cores, tlb2 := t.tlb2, free := t.free, bad := t.bad, hub := t.hub }) ∧
  (∀ (x : Ext) (n a : GR) (o : BitVec 12) (s : State), ∃ t, exec (.clean x n a o) s = .next t ∧
    t = { s with cores := t.cores, tlb2 := t.tlb2, free := t.free, bad := t.bad, hub := t.hub } ∧
    (1048576 < (s.rg n).toNat → tabGet s.fused (s.cx.coreNum / 8) = none → (t.core s.cx.coreNum).l1 = []))

/-- R240: EXPOSE checks the alignment of A, then that of B; with both cells mapped, A's page latent-capable and in this device, it becomes one outstanding access that counts on ST and reads the record before it writes the cell. -/
def Sys2Proof.Spec.ExposeBecomesOutstanding : Prop :=
  ∀ (a b : GR) (s : State) (e f : TlbEntry),
    let A := (s.rg a).toNat
    let B := (s.rg b).toNat
    let part (e : TlbEntry) (va : Nat) : Part := ⟨va, e.pa + (va - e.va), e.bits.testBit bitLC, List.replicate 64 true, List.replicate 64 0, .waiting⟩
    (A % 64 ≠ 0 → exec (.expose a b) s = .next (s.slotFault .misaligned (s.rg a))) ∧
    (A % 64 = 0 → B % 64 ≠ 0 → exec (.expose a b) s = .next (s.slotFault .misaligned (s.rg b))) ∧
    (A % 64 = 0 → B % 64 = 0 → A < 2 ^ 48 → B < 2 ^ 48 → Mapped s .write e A 64 → Mapped s .read f B 64 →
      paRemote (e.pa + (A - e.va)) = false →
      (e.bits.testBit bitLC = false → exec (.expose a b) s = .next (s.slotTrap .permission (s.rg a) .faultRecord)) ∧
      (e.bits.testBit bitLC = true → ∃ o, exec (.expose a b) s = .next (withAccess { s with owned := o }
        ⟨20, .write, s.rg a, 64, 64, fun _ => true, fun _ => 0, .expose, .st, none, false⟩ [part f B, part e A])))

/-- R240, R238: the write of an EXPOSE whose record has been read makes the cell LATENT with the record's 64 bytes, in one instant, when no window is open over it and it is not DEVELOPING; every other byte keeps its value, and the register files are not touched. -/
def Sys2Proof.Spec.ExposePerformsRecordAndTag : Prop :=
  ∀ (s : State) (id : Nat) (a : Acc) (r p : Part), MayPerform s id 1 a p → a.kind = .expose → a.parts = [r, p] → r.st = .done → r.data.length = 64 →
    PlainPart s a.rank p → NoneFailed s a → p.en = List.replicate 64 true → p.pa % 64 = 0 → s.mem.wf = true →
    ∃ t c, exec (.accessPerform id 1) s = .next t ∧ SameRegisters s t ∧ tabGet t.cells (p.pa / 64) = some c ∧ c.tag = .latent ∧ c.rank = a.rank ∧ c.va = p.va ∧
      (∀ j, j < 64 → t.mem.get (p.pa + j) = r.data.getD j 0) ∧ (∀ x, x < p.pa ∨ p.pa + 64 ≤ x → t.mem.get x = s.mem.get x)

/-- R238, R241, R243: a load's read that meets a LATENT cell in this device turns it DEVELOPING and waits there; one that meets a DEVELOPING cell parks; neither a byte nor a register changes. One that meets a FAULTED cell fails with LATENT_FAULTED. The contexts are no evaluators (R247 and R248 concern those). -/
def Sys2Proof.Spec.LatentReadsDevelopParkOrFail : Prop :=
  ∀ (s : State) (id i : Nat) (a : Acc) (p : Part) (x : Cell), MayPerform s id i a p → (∃ d, a.kind = .load d ∧ d ≠ .none) → a.acq = none → p.remote = false → p.st = .waiting →
    p.lc = true → NothingKept a → NoneFailed s a → (∀ c ∈ s.cmds, c.id ≠ id) → (s.ctx a.ctx).eval = none → s.l1Line a.core p.pa = none →
    p.pa % 64 + p.en.length ≤ 64 → (∃ j, j < p.en.length ∧ p.en.getD j false = true) → tabGet s.cells (p.pa / 64) = some x →
    ∃ t b q y, exec (.latentCellRead id i) s = .next t ∧ exec (.accessPerform id i) s = .next t ∧ SameRegisters s t ∧ SameMemory s t ∧
      t.acc? id = some b ∧ b.parts[i]? = some q ∧ tabGet t.cells (p.pa / 64) = some y ∧
      (x.tag = .latent → q.st = .parked (p.pa / 64) ∧ y.tag = .developing ∧ id ∈ y.readers ∧ y.first.1 = a.ctx) ∧
      (x.tag = .developing → q.st = .parked (p.pa / 64) ∧ y.tag = .developing ∧ id ∈ y.readers) ∧
      (x.tag = .faulted → (∃ va, q.st = .failed .latentFaulted va) ∧ y = x)

/-- The save area of a context that starts at a place can be marked as holding nothing (R309, R314). -/
def Sys2Proof.Spec.PlacesWell (s : State) (rank : Nat) (k : Kernel) (place : Nat × Nat) (args : W64) (ctxid : Nat) : Prop :=
  let r := s.placeCtx rank none k place args ctxid 1
  (r.2.ctx r.1).alive = true

/-- R242, R24: the evaluator of a developing cell whose record and header are good starts at a free place in scope: a live context of the cell's rank with g1 the record's ARGS, g2 the cell's virtual address, CTXID and a context count of 1, every other g register zero, and the cell remembers it. A record with a reserved code fails the development. -/
def Sys2Proof.Spec.EvaluatorStartsAsTheRecordSays : Prop :=
  ∀ (s : State) (c : Nat) (x : Cell) (pl : Nat × Nat), tabGet s.cells c = some x → x.tag = .developing → x.placed = false →
    x.packed = none →
    let r := s.mem.read (64 * c) 64
    (recordBad r = false → ∀ h t0, s.evalHeader (dieOf x.first.2.1) x.rank (leNat (r.take 8)) = .ok h t0 →
      let t := t0.dropFar (evalOwner (t0.rankOf x.rank).vf)
      t.mayRun (t.rankOf x.rank).vf x.rank = true → inScope (t.evalScope x r) pl.1 x.first.2.1 = true → x.vacated = none →
      t.placesOk (t.vf (t.rankOf x.rank).vf).part x.rank h.kernel.banks h.kernel.fused [pl] = true →
      PlacesWell (if h.kernel.fused then t.fuse (clusterOf pl.1) x.rank else t) x.rank h.kernel pl (BitVec.ofNat 64 (leNat ((r.drop 8).take 8))) (leNat ((r.drop 16).take 4)) →
      ∃ u y, exec (.evaluatorStart c (some pl)) s = .next u ∧ tabGet u.cells c = some y ∧ y.placed = true ∧ y.eval = some t.nextId ∧ y.tag = .developing ∧
        let k := u.ctx t.nextId
        k.phase = .live ∧ k.rank = x.rank ∧ k.place = some pl ∧ k.g.toList = (List.range 32).map (fun n => if n = 1 then BitVec.ofNat 64 (leNat ((r.drop 8).take 8))
          else if n = 2 then BitVec.ofNat 64 x.va else 0) ∧
        k.ctxid.toNat = leNat ((r.drop 16).take 4) ∧ k.nctx = 1 ∧ k.pc = h.kernel.code + h.kernel.entry) ∧
    (recordBad r = true → ∃ u y, exec (.evaluatorStart c (some pl)) s = .next u ∧ (x.readers = [] → x.cmds = [] → tabGet u.cells c = some y ∧ y.tag = .faulted))

/-- R245: a FIX by the cell's evaluator whose 64 bytes have been read and that waits for nothing writes them and makes the cell VALUE in one instant; no other byte changes when no read waits at the cell. By any other context it faults PERMISSION with A as address. A FIX that has not read its bytes yet makes the read and waits. -/
def Sys2Proof.Spec.FixWritesTheValue : Prop :=
  ∀ (a b : GR) (s : State) (p q : Part) (t : State), s.cellCheck (s.rg a) (s.rg b) false = .ok p q t → SameButOwned s t → p.pa % 64 = 0 → s.mem.wf = true →
    (∀ l id, s.heldBytes? = some (l, id) → l.length = 64 → s.mustWait .store none true [p] = false →
      (∀ x, tabGet s.cells (p.pa / 64) = some x → p.lc = true → x.tag = .developing → x.eval = some s.cur → x.readers = [] → x.cmds = [] →
        ∃ u, exec (.fix a b) s = .next u ∧ tabGet u.cells (p.pa / 64) = none ∧ SameRegisters s u ∧
          (∀ j, j < 64 → u.mem.get (p.pa + j) = l.getD j 0) ∧ (∀ y, y < p.pa ∨ p.pa + 64 ≤ y → u.mem.get y = s.mem.get y)) ∧
      (s.ownsCell p = false → ∃ u, exec (.fix a b) s = .next u ∧ u.cx.faddr = s.rg a ∧ SameMemory s u ∧ u.issue.trapped = true)) ∧
    (tabGet s.cx.held s.issue.slot = none →
      ∃ u, exec (.fix a b) s = .next u ∧ SameRegisters s u ∧ SameMemory s u ∧ tabGet u.cx.held s.issue.slot = some (.read s.nextId) ∧
        u.accs = s.accs ++ [⟨s.nextId, s.cur, s.cx.rank, s.cx.coreNum, s.issue.slot, 0x15, s.cx.pc, .load .none, .none, none, false, [q], false, s.issue.first, [], s.issue.fixed⟩])

/-- R244: LDREC of a developing cell by its evaluator, with nothing to wait for, gives the record word that B[2:0] selects, one step later; a misaligned A faults MISALIGNED and a cell the context does not develop, or one in a page that is not latent-capable (R237), PERMISSION, each with A as address. -/
def Sys2Proof.Spec.LdrecReadsTheRecord : Prop :=
  ∀ (g a b : GR) (s : State) (e : TlbEntry),
    let A := (s.rg a).toNat
    let pa := e.pa + (A - e.va)
    (A % 64 ≠ 0 → exec (.ldrec g a b) s = .next (s.slotFault .misaligned (s.rg a))) ∧
    (A % 64 = 0 → A < 2 ^ 48 → Mapped s .read e A 64 →
      ((∀ x, tabGet s.cells (pa / 64) = some x → e.bits.testBit bitLC = true → ¬(x.tag = .developing ∧ x.eval = some s.cur)) → exec (.ldrec g a b) s = .next (s.slotFault .permission (s.rg a))) ∧
      (∀ x, tabGet s.cells (pa / 64) = some x → e.bits.testBit bitLC = true → x.tag = .developing → x.eval = some s.cur → Quiet s → s.bad = [] →
        exec (.ldrec g a b) s = .next (pending s 1 (.g g (BitVec.ofNat 64 (s.mem.readLE (pa + 8 * ((s.rg b).toNat % 8)) 8))))))

/-- R200, R204: a window add that performs adds its value exactly to its element and counts it, and memory does not change; ACCESS_PERFORM and WINDOW_ADD are the same step of it. An add that meets no open window leaves the windows as they are. -/
def Sys2Proof.Spec.WindowAddIsExact : Prop :=
  ∀ (s : State) (id : Nat) (a : Acc) (p : Part) (w : Win), MayPerform s id 0 a p → a.kind = .winAdd false → a.parts = [p] → p.st = .waiting → p.pa ≠ 0 → p.remote = false →
    a.acq = none → p.en = [true, true, true, true] → p.va % 4 = 0 → s.wins = [w] → s.cells = [] → (s.ctx a.ctx).alive = true →
    ∃ t, exec (.windowAdd id) s = .next t ∧ exec (.accessPerform id 0) s = .next t ∧ SameMemory s t ∧ SameRegisters s t ∧
      (w.rank = a.rank → w.base + 4 * w.written ≤ p.va → p.va < w.base + 4 * w.cleared → w.base % 4 = 0 →
        t.wins = [{ w with elems := tabSet w.elems ((p.va - w.base) / 4) (addedTo (tabGetD w.elems ((p.va - w.base) / 4) WinElem.zero) (F32.decode (leNat (p.data.take 4)))) }]) ∧
      (w.rank ≠ a.rank ∨ p.va < w.base ∨ w.base + 4 * w.cleared ≤ p.va → t.wins = s.wins)

/-- R202: the last line of a closing window: RESULT of its 32 elements stands in memory, every other byte is unchanged, the window is gone, and the WCLOSE retires on TL. -/
def Sys2Proof.Spec.WindowCloseWritesResults : Prop :=
  ∀ (s : State) (id : Nat) (a : Acc) (w : Win) (pa : Nat) (leaf : TlbEntry) (u : State), s.acc? id = some a → a.kind = .wclose w.base w.count → s.blocked a ⟨0, 0, false, [], [], .waiting⟩ = false →
    s.wins = [w] → w.rank = a.rank → w.closing = true → w.written + 32 = w.count → w.base % 128 = 0 →
    (let t : State := { s with wins := [{ w with written := w.written + 32 }] }
     t.translate a.core a.rank (w.base + 4 * w.written) .write = .ok pa leaf u ∧ SameButOwned t u) → paRemote pa = false → pa % 128 = 0 → s.cells = [] → s.bad = [] →
    (∀ x, s.hbmHeld (s.rankOf a.rank).vf x = false) → s.mem.wf = true →
    ∃ t, exec (.windowCloseWrite id) s = .next t ∧ t.wins = [] ∧ t.acc? id = none ∧ SameRegisters s t ∧
      (∀ n, n < 32 → t.mem.readLE (pa + 4 * n) 4 = (tabGetD w.elems (w.written + n) WinElem.zero).result % 2 ^ 32) ∧
      (∀ x, x < pa ∨ pa + 128 ≤ x → t.mem.get x = s.mem.get x)

/-- R197, R196: a walk that finds a leaf installs it in the first-level cache of its core; one that finds none, or that reads a block that fails its check beyond correction (log 80), changes nothing; memory and the registers stay. -/
def Sys2Proof.Spec.WalkInstallsTheLeaf : Prop :=
  ∀ (core rank va : Nat) (s : State),
    (∀ e, s.walk rank va = some e → s.walkSound rank va = true → ∃ t, exec (.walkComplete core rank va) s = .next t ∧ SameRegisters s t ∧ SameMemory s t ∧ (t.core core).tlb.head? = some e) ∧
    (s.walk rank va = none ∨ s.walkSound rank va = false → exec (.walkComplete core rank va) s = .next s)

namespace Sys2Proof.Spec

open Sys2Proof Sys2Proof.Machine

/-- Lane i of a register of lanes of w bits (R106). -/
def laneOf (w : Nat) (x : VReg) (i : Nat) : Nat := x.toNat / 2 ^ (w * i) % 2 ^ w

/-- A mask and its data say what n lanes of w bits become: the enabled ones take their result, the others are not written. -/
def LanesAre (w n : Nat) (en : Nat → Prop) (r : Nat → Nat) (mask data : VReg) : Prop :=
  ∀ i, i < n → (en i → laneOf w mask i = 2 ^ w - 1 ∧ laneOf w data i = r i % 2 ^ w) ∧ (¬en i → laneOf w mask i = 0)

/-- The governing predicate enables lane i (R106). -/
def Enabled (s : State) (t : Ty) (p : PR) (i : Nat) : Prop := (s.cx.rp p).getLsbD (t.width * i) = true

/-- The stream registers that the VA and VB positions name (R60, R108). -/
def streamsOf (x : Option VExt) (a b : VR) : List QR :=
  match x with
  | none => []
  | some e => (if e.qa then [BitVec.ofNat 3 a.toNat] else []) ++ (if e.qb then [BitVec.ofNat 3 b.toNat] else [])

/-- Each stream register is bound to a defined spool whose next element has arrived (R20). -/
def StreamsReady (s : State) (l : List QR) : Prop := ∀ q ∈ l, ∃ n sp, s.cx.spoolOf q = some (n, sp) ∧ s.cx.spoolRowsOk sp = true ∧ sp.held ≠ 0

/-- Each read consumes one element: C of its spool advances (R20, R277). -/
def consume (s : State) (l : List QR) : State :=
  l.foldl (fun s q => match s.cx.spoolOf q with
    | none => s
    | some (n, sp) => { s with ctxs := tabSet s.ctxs s.cur { s.cx with spools := tabSet s.cx.spools n { sp with c := (sp.c + 1) % 2 ^ 32 } } }) s

/-- A vector source taken in lanes of w bits: a v register, or the window row of the next element of a stream. -/
def sourceOf (s : State) (stream : Bool) (r : VR) (w : Nat) : VReg :=
  if stream then
    match s.cx.spoolOf (BitVec.ofNat 3 r.toNat) with
    | some (_, sp) => BitVec.ofNat 2048 (s.cx.window.readLE (256 * (sp.base + sp.c % sp.size)) 256)
    | none => s.cx.readRow 0
  else s.rv r w

def qaOf (x : Option VExt) : Bool := match x with | some e => e.qa | none => false
def qbOf (x : Option VExt) : Bool := match x with | some e => e.qb | none => false

/-- sv of R110. -/
def svOf (t : Ty) (n : Nat) : Int := if t.signed then twosOf t.bits n else (n : Int)

/-- A form of R57 with its lane rule: extension, VD, VA, VB, type, predicate, latency. -/
structure LaneForm (α : Type) where
  x : Option VExt
  d : VR
  a : VR
  b : VR
  t : Ty
  p : PR
  lat : Nat
  f : α

/-- R110: the lane result of each integer operation, and of the bitwise ones on any type, on lanes a, b, d, modulo 2^(8w). -/
def integerLanes (i : Instr) : Option (LaneForm (Nat → Nat → Nat → Int)) :=
  match i with
  | .vadd x d a b t _ p => if t.isInt then some ⟨x, d, a, b, t, p, 2, fun a b _ => a + b⟩ else none
  | .vsub x d a b t _ p => if t.isInt then some ⟨x, d, a, b, t, p, 2, fun a b _ => a - b⟩ else none
  | .vmul x d a b t _ p => if t.isInt then some ⟨x, d, a, b, t, p, 2, fun a b _ => a * b⟩ else none
  | .vfma x d a b t _ p => if t.isInt then some ⟨x, d, a, b, t, p, 2, fun a b d => a * b + d⟩ else none
  | .vmin x d a b t p => if t.isInt then some ⟨x, d, a, b, t, p, 2, fun a b _ => Min.min (svOf t a) (svOf t b)⟩ else none
  | .vmax x d a b t p => if t.isInt then some ⟨x, d, a, b, t, p, 2, fun a b _ => Max.max (svOf t a) (svOf t b)⟩ else none
  | .vabs x d a t p => if t.isInt then some ⟨x, d, a, 0, t, p, 2, fun a _ _ => |svOf t a|⟩ else none
  | .vneg x d a t p => if t.isInt then some ⟨x, d, a, 0, t, p, 2, fun a _ _ => -(a : Int)⟩ else none
  | .vadds x d a b t p => if t.isInt then some ⟨x, d, a, b, t, p, 2, fun a b _ =>
      let hi : Int := if t.signed then 2 ^ (t.bits - 1) - 1 else 2 ^ t.bits - 1
      let lo : Int := if t.signed then -2 ^ (t.bits - 1) else 0
      Max.max lo (Min.min hi (svOf t a + svOf t b))⟩ else none
  | .vsubs x d a b t p => if t.isInt then some ⟨x, d, a, b, t, p, 2, fun a b _ =>
      let hi : Int := if t.signed then 2 ^ (t.bits - 1) - 1 else 2 ^ t.bits - 1
      let lo : Int := if t.signed then -2 ^ (t.bits - 1) else 0
      Max.max lo (Min.min hi (svOf t a - svOf t b))⟩ else none
  | .vand x d a b t p => some ⟨x, d, a, b, t, p, 2, fun a b _ => ((a &&& b : Nat) : Int)⟩
  | .vor x d a b t p => some ⟨x, d, a, b, t, p, 2, fun a b _ => ((a ||| b : Nat) : Int)⟩
  | .vxor x d a b t p => some ⟨x, d, a, b, t, p, 2, fun a b _ => ((a ^^^ b : Nat) : Int)⟩
  | .vshl x d a b t p => some ⟨x, d, a, b, t, p, 2, fun a n _ => if t.bits ≤ n then 0 else a * 2 ^ n⟩
  | .vshr x d a b t p => some ⟨x, d, a, b, t, p, 2, fun a n _ => if t.bits ≤ n then 0 else ((a / 2 ^ n : Nat) : Int)⟩
  | .vsar x d a b t p => some ⟨x, d, a, b, t, p, 2, fun a n _ => (twosOf t.bits a).fdiv (2 ^ n)⟩
  | .vclamp x d a b t p => if t.isInt then some ⟨x, d, a, b, t, p, 2, fun a b d => Min.min (Max.max (svOf t d) (svOf t a)) (svOf t b)⟩ else none
  | _ => none

/-- The value of a float lane. -/
def valOf (t : Ty) (n : Nat) : XVal := t.elem.decode n

/-- An exact result rounded once by MODE into the type, with the flags of both (R37, R43). -/
def rounded (t : Ty) (m : RMode) (r : XVal × FlagSet) : Nat × FlagSet := ((convert t.elem m 0 r.1).1, r.2 ||| (convert t.elem m 0 r.1).2)

/-- Sign bit of a float lane. -/
def negOf (t : Ty) (n : Nat) : Bool := n.testBit (t.bits - 1)

/-- a lies below b in the order of IEEE 754-2019 minimum and maximum: by value, and -0 below +0. -/
def BelowOf (t : Ty) (a b : Nat) : Prop :=
  (valOf t a).cmp (valOf t b) = some .lt ∨ ((valOf t a).cmp (valOf t b) = some .eq ∧ negOf t a = true ∧ negOf t b = false)

open Classical in
/-- R111: the lane result and flags of each floating-point operation. -/
noncomputable def floatLanes (i : Instr) : Option (LaneForm (Nat → Nat → Nat → Nat × FlagSet)) :=
  let fmin (t : Ty) (a b : Nat) : Nat := if valOf t a = .nan ∨ valOf t b = .nan then t.elem.nan else if BelowOf t b a then b else a
  let fmax (t : Ty) (a b : Nat) : Nat := if valOf t a = .nan ∨ valOf t b = .nan then t.elem.nan else if BelowOf t a b then b else a
  match i with
  | .vadd x d a b t m p => some ⟨x, d, a, b, t, p, 4, fun a b _ => rounded t m (XVal.add m (valOf t a) (valOf t b))⟩
  | .vsub x d a b t m p => some ⟨x, d, a, b, t, p, 4, fun a b _ => rounded t m (XVal.add m (valOf t a) (valOf t b).neg)⟩
  | .vmul x d a b t m p => some ⟨x, d, a, b, t, p, 4, fun a b _ => rounded t m (XVal.mul (valOf t a) (valOf t b))⟩
  | .vfma x d a b t m p => some ⟨x, d, a, b, t, p, 4, fun a b d =>
      let q := XVal.mul (valOf t a) (valOf t b)
      let r := XVal.add m q.1 (valOf t d)
      rounded t m (r.1, q.2 ||| r.2)⟩
  | .vmin x d a b t p => some ⟨x, d, a, b, t, p, 4, fun a b _ => (fmin t a b, 0)⟩
  | .vmax x d a b t p => some ⟨x, d, a, b, t, p, 4, fun a b _ => (fmax t a b, 0)⟩
  | .vclamp x d a b t p => some ⟨x, d, a, b, t, p, 4, fun a b d => (fmin t (fmax t d a) b, 0)⟩
  | .vabs x d a t p => some ⟨x, d, a, 0, t, p, 2, fun a _ _ => (if valOf t a = .nan then t.elem.nan else a % 2 ^ (t.bits - 1), 0)⟩
  | .vneg x d a t p => some ⟨x, d, a, 0, t, p, 2, fun a _ _ => (if valOf t a = .nan then t.elem.nan else (a + 2 ^ (t.bits - 1)) % 2 ^ t.bits, 0)⟩
  | .vdiv x d a b t m p => some ⟨x, d, a, b, t, p, 12, fun a b _ => rounded t m ((valOf t a).div (valOf t b))⟩
  | .vsqrt x d a t m p => some ⟨x, d, a, 0, t, p, 12, fun a _ _ => rounded t m (valOf t a).sqrt⟩
  | .vrcp x d a t m p => some ⟨x, d, a, 0, t, p, 12, fun a _ _ => rounded t m ((XVal.ofInt 1).div (valOf t a))⟩
  | .vrsq x d a t m p => some ⟨x, d, a, 0, t, p, 12, fun a _ _ => rounded t m (valOf t a).rsqrt⟩
  | .vexp x d a t m p => some ⟨x, d, a, 0, t, p, 14, fun a _ _ => expFn t.elem m false (valOf t a)⟩
  | .vexp2 x d a t m p => some ⟨x, d, a, 0, t, p, 14, fun a _ _ => expFn t.elem m true (valOf t a)⟩
  | .vlog2 x d a t m p => some ⟨x, d, a, 0, t, p, 14, fun a _ _ => log2Fn t.elem m (valOf t a)⟩
  | .vtanh x d a t m p => some ⟨x, d, a, 0, t, p, 14, fun a _ _ => tanhFn t.elem m (valOf t a)⟩
  | .vrint x d a t m p => some ⟨x, d, a, 0, t, p, 4, fun a _ _ => (fltInt t m a, 0)⟩
  | _ => none

/-- R122, R123: where each lane of a move comes from: a lane of VA or of VB, or zero. -/
def movedLanes (i : Instr) : Option (LaneForm ((Nat → Nat) → (Nat → Nat) → VReg → Nat → Nat)) :=
  match i with
  | .vperm x d a b t p => some ⟨x, d, a, b, t, p, 3, fun u v _ i => if v i < t.lanes then u (v i) else 0⟩
  | .vzip x d a b t p => some ⟨x, d, a, b, t, p, 3, fun u v _ i => if i % 2 = 0 then u (i / 2) else v ((i - 1) / 2)⟩
  | .vunzip x d a b t p => some ⟨x, d, a, b, t, p, 3, fun u v _ i => if i < t.lanes / 2 then u (2 * i) else v (2 * (i - t.lanes / 2))⟩
  | .vmov x d a t p => some ⟨x, d, a, 0, t, p, 2, fun u _ _ i => u i⟩
  | .vgath x d a b t p => some ⟨x, d, a, b, t, p, 6, fun u _ vb i => if laneOf 16 vb i < t.lanes then u (laneOf 16 vb i) else 0⟩
  | _ => none

/-- Width of the lanes that a move takes VB in: indices of 16 bits of VGATH, else those of its type (R122, R123). -/
def indexBits (i : Instr) (t : Ty) : Nat := match i with | .vgath .. => 16 | _ => t.bits

/-- `s` with flags in flight when there are any (R43). -/
def withFlags (s : State) (lat : Nat) (f : FlagSet) : State := if f = 0 then s else pending s lat (.flags f)

/-- The flags of the enabled lanes together. -/
def FlagsOf (n : Nat) (en : Nat → Prop) (f : Nat → FlagSet) (g : FlagSet) : Prop :=
  ∀ k, k < 5 → (g.getLsbD k = true ↔ ∃ i, i < n ∧ en i ∧ (f i).getLsbD k = true)

/-- A condition of R112 on two values. -/
def CndHolds (c : Cnd) (o : Option Ordering) : Prop :=
  match c with
  | .eq => o = some .eq
  | .ne => o ≠ some .eq
  | .lt => o = some .lt
  | .le => o = some .lt ∨ o = some .eq
  | .gt => o = some .gt
  | .ge => o = some .gt ∨ o = some .eq
  | .un => o = none

/-- The number a lane is compared as (R112): sv of an integer lane, the value of a float lane. -/
def orderOf (t : Ty) (a b : Nat) : Option Ordering :=
  if t.isInt then some (compare (svOf t a) (svOf t b)) else (valOf t a).cmp (valOf t b)

/-- One level of the tree of R119: pairs combined, an absent partner passed over. -/
def treeLevel (op : Nat → Nat → Nat) (n : Nat → Option Nat) (j : Nat) : Option Nat :=
  match n (2 * j), n (2 * j + 1) with
  | none, y => y
  | x, none => x
  | some x, some y => some (op x y)

/-- n[m] of R119. -/
def treeNode (op : Nat → Nat → Nat) (lanes : Nat → Option Nat) : Nat → Nat → Option Nat
  | 0 => lanes
  | m + 1 => treeLevel op (treeNode op lanes m)

/-- Flag k is raised at some node of the tree of R119 that combines two present values, below level n. -/
def TreeRaises (op : Nat → Nat → Nat × FlagSet) (lanes : Nat → Option Nat) (n k : Nat) : Prop :=
  ∃ m j a b, m < n ∧ treeNode (fun u v => (op u v).1) lanes m (2 * j) = some a ∧ treeNode (fun u v => (op u v).1) lanes m (2 * j + 1) = some b ∧ (op a b).2.getLsbD k = true

/-- The running value of R120 after the first n lanes, and what is written to a lane. -/
def scanTo (first : Nat → Nat) (op : Nat → Nat → Nat) (lanes : Nat → Option Nat) : Nat → Option Nat
  | 0 => none
  | n + 1 =>
    match lanes n, scanTo first op lanes n with
    | none, s => s
    | some x, none => some (first x)
    | some x, some s => some (op s x)

/-- Flag k is raised at some step of the scan of n lanes. -/
def ScanRaises (first : Nat → Nat) (op : Nat → Nat → Nat × FlagSet) (lanes : Nat → Option Nat) (n k : Nat) : Prop :=
  ∃ i x s, i < n ∧ lanes i = some x ∧ scanTo first (fun u v => (op u v).1) lanes i = some s ∧ (op s x).2.getLsbD k = true

end Sys2Proof.Spec

/-- R106, R110, R107: every integer lane operation, and the bitwise ones on every type, put the lanes of R110 in flight under the governing predicate, to land after two steps, and raise no flag; a stream operand is the next element of its spool, which the read consumes (R20, R277). Nothing else changes. -/
def Obligations.IntegerLanesAreComputed : Prop :=
  ∀ (i : Instr) (s : State) (L : LaneForm (Nat → Nat → Nat → Int)), i.wf = true → integerLanes i = some L → StreamsReady s (streamsOf L.x L.a L.b) →
    ∃ mask data, exec i s = .next (consume (pending s L.lat (.v L.d mask data)) (streamsOf L.x L.a L.b)) ∧
      LanesAre L.t.bits L.t.lanes (Enabled s L.t L.p)
        (fun n => (L.f (laneOf L.t.bits (sourceOf s (qaOf L.x) L.a L.t.bits) n) (laneOf L.t.bits (sourceOf s (qbOf L.x) L.b L.t.bits) n) (laneOf L.t.bits (s.rv L.d L.t.bits) n) % 2 ^ L.t.bits).toNat) mask data

/-- The value of a finite number. -/
def Sys2Proof.Spec.ratOf (x : XVal) : Option ℚ :=
  match x with
  | .fin neg m k _ => some ((if neg then -(m : ℚ) else (m : ℚ)) * (2 : ℚ) ^ k)
  | _ => none

/-- R37: the conversion of an exact finite number to a floating-point type of the lanes in the mode RNE: where its result is finite no finite number of the type lies nearer, and where another lies as near the result is the one whose last bit is 0; the result is finite wherever the number does not lie beyond the type's finite numbers. -/
def Sys2Proof.Spec.ConversionIsToTheNearest : Prop :=
  ∀ (t : Ty) (neg : Bool) (m : Nat) (k : Int) (x : ℚ), t.isFloat = true → ratOf (.fin neg m k false) = some x →
    let r := (convert t.elem .rne 0 (.fin neg m k false)).1
    (∀ y n z, ratOf (t.elem.decode r) = some y → n < 2 ^ t.bits → ratOf (t.elem.decode n) = some z → |x - y| ≤ |x - z| ∧ (|x - y| = |x - z| → z ≠ y → r % 2 = 0)) ∧
    (∀ n z, n < 2 ^ t.bits → ratOf (t.elem.decode n) = some z → |x| ≤ z → ∃ y, ratOf (t.elem.decode r) = some y)

/-- R106, R111, R43: every floating-point lane operation rounds its exact result once and puts the enabled lanes in flight with their flags, a disabled lane raising none. Of VEXP, VEXP2, VLOG2 and VTANH the lane is that of the model's own functions, which bracket the exact result between rational bounds of growing precision and give NaN where no bracket decides the rounding: the model's choice of a computation (log 6). -/
def Sys2Proof.Spec.FloatLanesAreRoundedOnce : Prop :=
  ∀ (i : Instr) (s : State) (L : LaneForm (Nat → Nat → Nat → Nat × FlagSet)), i.wf = true → floatLanes i = some L → L.t.isFloat = true →
    StreamsReady s (streamsOf L.x L.a L.b) →
    let r (n : Nat) : Nat × FlagSet := L.f (laneOf L.t.bits (sourceOf s (qaOf L.x) L.a L.t.bits) n) (laneOf L.t.bits (sourceOf s (qbOf L.x) L.b L.t.bits) n) (laneOf L.t.bits (s.rv L.d L.t.bits) n)
    ∃ mask data g, exec i s = .next (consume (withFlags (pending s L.lat (.v L.d mask data)) L.lat g) (streamsOf L.x L.a L.b)) ∧
      LanesAre L.t.bits L.t.lanes (Enabled s L.t L.p) (fun n => (r n).1) mask data ∧ FlagsOf L.t.lanes (Enabled s L.t L.p) (fun n => (r n).2) g

/-- R45: the special cases of the division and of the functions, in every mode that the encoding allows them: division by zero, the invalid cases, infinities and signed zeros. -/
def Sys2Proof.Spec.SpecialCasesOfTheFunctions : Prop :=
  ∀ (t : Ty) (m : RMode), t.isFloat = true → m ≠ .sr →
    let dz : FlagSet := 2
    let nv : FlagSet := 1
    let inf (neg : Bool) : Nat := (convert t.elem .rne 0 (.inf neg)).1
    let nan : Nat := t.elem.nan
    (∀ sg mm e k, mm ≠ 0 → ∀ z, (XVal.fin sg mm e k).div (.fin z 0 0 false) = (.inf (sg != z), dz)) ∧
    (∀ y z, ((XVal.fin y 0 0 false).div (.fin z 0 0 false)) = (.nan, nv) ∧ ((XVal.inf y).div (.inf z)) = (.nan, nv)) ∧
    (∀ z, rounded t m ((XVal.ofInt 1).div (.fin z 0 0 false)) = (inf z, dz)) ∧
    (XVal.fin true 0 0 false).sqrt = (.fin true 0 0 false, 0) ∧
    (∀ mm e k, mm ≠ 0 → rounded t m (XVal.fin true mm e k).sqrt = (nan, nv) ∧ rounded t m (XVal.fin true mm e k).rsqrt = (nan, nv) ∧
      log2Fn t.elem m (.fin true mm e k) = (nan, nv)) ∧
    (rounded t m (XVal.inf true).sqrt = (nan, nv) ∧ rounded t m (XVal.inf true).rsqrt = (nan, nv)) ∧
    (∀ z, rounded t m (XVal.fin z 0 0 false).rsqrt = (inf z, dz) ∧ log2Fn t.elem m (.fin z 0 0 false) = (inf true, dz)) ∧
    rounded t m (XVal.inf false).rsqrt = (0, 0) ∧
    (∀ two, expFn t.elem m two (.inf true) = (0, 0) ∧ expFn t.elem m two (.inf false) = (inf false, 0)) ∧
    log2Fn t.elem m (.inf false) = (inf false, 0) ∧
    (∀ z, tanhFn t.elem m (.fin z 0 0 false) = (convert t.elem .rne 0 (.fin z 0 0 false)) ∧ tanhFn t.elem m (.inf z) = convert t.elem .rne 0 (XVal.ofInt (if z then -1 else 1)))

/-- R107, R122, R123: the lane moves deliver lanes unchanged, each enabled lane the one that the rule names. -/
def Sys2Proof.Spec.LaneMovesDeliverTheNamedLane : Prop :=
  ∀ (i : Instr) (s : State) (L : LaneForm ((Nat → Nat) → (Nat → Nat) → VReg → Nat → Nat)), i.wf = true → movedLanes i = some L → StreamsReady s (streamsOf L.x L.a L.b) →
    let va := sourceOf s (qaOf L.x) L.a L.t.bits
    let vb := sourceOf s (qbOf L.x) L.b (indexBits i L.t)
    ∃ mask data, exec i s = .next (consume (pending s L.lat (.v L.d mask data)) (streamsOf L.x L.a L.b)) ∧
      LanesAre L.t.bits L.t.lanes (Enabled s L.t L.p) (L.f (laneOf L.t.bits va) (laneOf L.t.bits vb) vb) mask data

/-- R122: VSCAT writes lane e_i of VD with VA lane i for the enabled i with e_i < L, the highest i where several name one lane, and no other lane. -/
def Sys2Proof.Spec.VscatWritesTheNamedLanes : Prop :=
  ∀ (x : Option VExt) (d a b : VR) (t : Ty) (p : PR) (s : State), StreamsReady s (streamsOf x a b) →
    let va := sourceOf s (qaOf x) a t.bits
    let vb := sourceOf s (qbOf x) b 16
    let names (i j : Nat) : Prop := i < t.lanes ∧ Enabled s t p i ∧ laneOf 16 vb i = j
    ∃ mask data, exec (.vscat x d a b t p) s = .next (consume (pending s 6 (.v d mask data)) (streamsOf x a b)) ∧
      ∀ j, j < t.lanes →
        (∀ i, names i j → (∀ k, names k j → k ≤ i) → laneOf t.bits mask j = 2 ^ t.bits - 1 ∧ laneOf t.bits data j = laneOf t.bits va i) ∧
        ((∀ i, ¬names i j) → laneOf t.bits mask j = 0)

/-- R112, R113, R114: VCMP sets all bits of each enabled lane to its answer and clears the others', raising no flag; VSEL takes each lane from VA or VB; PLOG and PCNT act on every bit of their predicates. -/
def Sys2Proof.Spec.PredicatesAreComparedSelectedAndCounted : Prop :=
  (∀ (x : Option VExt) (pd : PR) (a b : VR) (t : Ty) (c : Cnd) (p : PR) (s : State), StreamsReady s (streamsOf x a b) →
    ∃ r : PReg, exec (.vcmp x pd a b t c p) s = .next (consume (pending s 2 (.p pd r)) (streamsOf x a b)) ∧
      ∀ k, k < 256 → (r.getLsbD k = true ↔ Enabled s t p (k / t.width) ∧
        CndHolds c (orderOf t (laneOf t.bits (sourceOf s (qaOf x) a t.bits) (k / t.width)) (laneOf t.bits (sourceOf s (qbOf x) b t.bits) (k / t.width))))) ∧
  (∀ (x : Option VExt) (d a b : VR) (t : Ty) (p : PR) (s : State), StreamsReady s (streamsOf x a b) →
    ∃ data, exec (.vsel x d a b t p) s = .next (consume (pending s 2 (.v d (BitVec.allOnes 2048) data)) (streamsOf x a b)) ∧
      ∀ i, i < t.lanes → (Enabled s t p i → laneOf t.bits data i = laneOf t.bits (sourceOf s (qaOf x) a t.bits) i) ∧
        (¬Enabled s t p i → laneOf t.bits data i = laneOf t.bits (sourceOf s (qbOf x) b t.bits) i)) ∧
  (∀ (d a b : PR) (lop : BitVec 4) (s : State), ∃ r : PReg, exec (.plog d a b lop) s = .next (pending s 2 (.p d r)) ∧
    ∀ k, k < 256 → r.getLsbD k = lop.getLsbD (2 * ((s.cx.rp a).getLsbD k).toNat + ((s.cx.rp b).getLsbD k).toNat)) ∧
  (∀ (a b : PR) (g : GR) (s : State), ∃ n : W64, exec (.pcnt a b g) s = .next (pending s 2 (.g g n)) ∧
    n.toNat = ((Finset.range 256).filter fun k => (s.cx.rp a).getLsbD k = true ∧ (s.cx.rp b).getLsbD k = true).card)

/-- R124: broadcast, index, extract and insert between g registers and lanes. -/
def Sys2Proof.Spec.LanesMeetScalarRegisters : Prop :=
  (∀ (x : Option VExt) (d : VR) (g : GR) (t : Ty) (p : PR) (s : State), ∃ mask data, exec (.vbcast x d g t p) s = .next (pending s 2 (.v d mask data)) ∧
    LanesAre t.bits t.lanes (Enabled s t p) (fun _ => (s.rg g).toNat) mask data) ∧
  (∀ (x : Option VExt) (d : VR) (g : GR) (t : Ty) (p : PR) (s : State), ∃ mask data, exec (.viota x d g t p) s = .next (pending s 2 (.v d mask data)) ∧
    LanesAre t.bits t.lanes (Enabled s t p) (fun i => (s.rg g).toNat + i) mask data) ∧
  (∀ (x : Option VExt) (d : GR) (a : VR) (g : GR) (t : Ty) (s : State), StreamsReady s (streamsOf x a 0) →
    exec (.vext x d a g t) s = .next (consume (pending s 2 (.g d (BitVec.ofInt 64
      (svOf t (laneOf t.bits (sourceOf s (qaOf x) a t.bits) ((s.rg g).toNat % t.lanes)))))) (streamsOf x a 0))) ∧
  (∀ (x : Option VExt) (d : VR) (a g : GR) (t : Ty) (s : State), ∃ mask data, exec (.vins x d a g t) s = .next (pending s 2 (.v d mask data)) ∧
    LanesAre t.bits t.lanes (fun i => i = (s.rg a).toNat % t.lanes) (fun _ => (s.rg g).toNat) mask data)

/-- R119, R120: VRED combines the enabled lanes along the fixed tree, delivers the identity where none is enabled, and writes zero to every other lane; VSCAN scans them in ascending order and writes no other lane; a NaN is delivered as the canonical one, with the flags of the operations. -/
def Obligations.ReductionsFollowTheirFixedOrder : Prop :=
  ∀ (x : Option VExt) (d a : VR) (op : RedOp) (t : Ty) (m : RMode) (p : PR) (s : State), redOk op t m = true → StreamsReady s (streamsOf x a 0) →
    let va := sourceOf s (qaOf x) a t.bits
    let f (u v : Nat) : Nat := (redOp t op m u v).1
    let lanes (i : Nat) : Option Nat := if (s.cx.rp p).getLsbD (t.width * i) = true ∧ i < t.lanes then some (laneOf t.bits va i) else none
    (∃ data g, exec (.vred x d a op t m p) s = .next (consume (withFlags (pending s 6 (.v d (BitVec.allOnes 2048) data)) 6 g) (streamsOf x a 0)) ∧
      (∀ v, treeNode f lanes (Nat.log2 t.lanes) 0 = some v → laneOf t.bits data 0 = canonical t v % 2 ^ t.bits) ∧
      (treeNode f lanes (Nat.log2 t.lanes) 0 = none → laneOf t.bits data 0 = redIdentity t op % 2 ^ t.bits) ∧
      (∀ i, 0 < i → i < t.lanes → laneOf t.bits data i = 0) ∧
      ∀ k, k < 5 → (g.getLsbD k = true ↔ TreeRaises (redOp t op m) lanes (Nat.log2 t.lanes) k)) ∧
    (∃ mask data g, exec (.vscan x d a op t m p) s = .next (consume (withFlags (pending s 8 (.v d mask data)) 8 g) (streamsOf x a 0)) ∧
      LanesAre t.bits t.lanes (Enabled s t p) (fun i => ((scanTo (canonical t) f lanes (i + 1)).getD 0)) mask data ∧
      ∀ k, k < 5 → (g.getLsbD k = true ↔ ScanRaises (canonical t) (redOp t op m) lanes t.lanes k))

/-- R121: VPART lists the lanes whose bit is 1, ascending, in VD and the others in VD + 1, every remaining entry 0xFFFF, and their counts in the pair of g registers, all after eight steps. -/
def Sys2Proof.Spec.VpartSortsTheLanes : Prop :=
  ∀ (x : Option VExt) (d : VR) (g : GR) (t : Ty) (p : PR) (s : State), t.width ≠ 1 →
    ∃ v0 v1 n0 n1, exec (.vpart x d g t p) s = .next (pending (pending (pending (pending s 8 (.v d (BitVec.allOnes 2048) v0)) 8 (.v (d + 1) (BitVec.allOnes 2048) v1))
        8 (.g g n0)) 8 (.g (g + 1) n1)) ∧
      n0.toNat + n1.toNat = t.lanes ∧
      (∀ e, e < n0.toNat → laneOf 16 v0 e < t.lanes ∧ Enabled s t p (laneOf 16 v0 e) ∧ (∀ e', e' < e → laneOf 16 v0 e' < laneOf 16 v0 e)) ∧
      (∀ e, e < n1.toNat → laneOf 16 v1 e < t.lanes ∧ ¬Enabled s t p (laneOf 16 v1 e) ∧ (∀ e', e' < e → laneOf 16 v1 e' < laneOf 16 v1 e)) ∧
      (∀ e, n0.toNat ≤ e → e < 128 → laneOf 16 v0 e = 0xFFFF) ∧ (∀ e, n1.toNat ≤ e → e < 128 → laneOf 16 v1 e = 0xFFFF)

/-- R44, R48, R125: VRAND takes each lane from its word of the context's stream, scaled to the type, and the stream advances by a block for every four lanes, whatever the predicate. -/
def Sys2Proof.Spec.VrandDrawsItsWords : Prop :=
  ∀ (x : Option VExt) (d : VR) (t : Ty) (p : PR) (s : State),
    let word (i : Nat) : Nat := (philox s.cx.rngkey (s.cx.drawFrom + BitVec.ofNat 128 (i / 4))).getD (i % 4) 0
    ∃ mask data, exec (.vrand x d t p) s = .next (pending (pending s 10 (.v d mask data)) 1 (.rngctr (s.cx.drawFrom + BitVec.ofNat 128 ((t.lanes + 3) / 4)))) ∧
      (t.isInt = true → LanesAre t.bits t.lanes (Enabled s t p) word mask data) ∧
      (t = .f32 → LanesAre 32 64 (Enabled s t p) (fun i => (convert (.float F32) .rne 0 (.fin false (word i / 2 ^ 8) (-24) false)).1) mask data) ∧
      (t = .f16 → LanesAre 16 128 (Enabled s t p) (fun i => (convert (.float F16) .rne 0 (.fin false (word i / 2 ^ 21) (-11) false)).1) mask data) ∧
      (t = .bf16 → LanesAre 16 128 (Enabled s t p) (fun i => (convert (.float BF16) .rne 0 (.fin false (word i / 2 ^ 24) (-8) false)).1) mask data)

/-- R116, R117, R37, R44: VCVT without a block-scaled destination: destination element j is CONVERT of source element j, which lies in register VA + j / S (scaled by its block's byte of register VA + k for a block-scaled source), under PX; with MODE SR every position draws its word and the stream advances. -/
def Sys2Proof.Spec.VcvtConvertsElementByElement : Prop :=
  ∀ (x : Option VExt) (d a : VR) (f : Fmt) (t : Ty) (m : RMode) (toTy : Bool) (s : State), (Instr.vcvt x d a f t m toTy).wf = true → (f.isBlock && !toTy) = false →
    qaOf x = false →
    let dst := cvtSide f t toTy
    let src := cvtSide f t (!toTy)
    let D := cvtDst f t toTy
    let S := cvtSrc f t toTy
    let k := cvtRegs f t toTy
    let px := s.cx.rp (match x with | some e => e.px | none => 0)
    let word (j : Nat) : Nat := if m = .sr then (philox s.cx.rngkey (s.cx.drawFrom + BitVec.ofNat 128 (j / 4))).getD (j % 4) 0 else 0
    let plain (j : Nat) : XVal := src.1.decode (laneOf src.2 (s.rv (a + BitVec.ofNat 5 (j / S)) src.2) (j % S))
    let value (j : Nat) : XVal := if f.isBlock then scaled (laneOf 8 (s.rv (a + BitVec.ofNat 5 k) 8) (j / f.block)) (plain j) else plain j
    let r (j : Nat) : Nat × FlagSet := convert dst.1 m (word j) (value j)
    let en (j : Nat) : Prop := px.getLsbD (j * dst.2 / 8) = true
    ∃ mask data g,
      exec (.vcvt x d a f t m toTy) s = .next (
        let u := withFlags (pending s 4 (.v d mask data)) 4 g
        if m = .sr then pending u 1 (.rngctr (s.cx.drawFrom + BitVec.ofNat 128 ((D + 3) / 4))) else u) ∧
      LanesAre dst.2 D en (fun j => (r j).1) mask data ∧ FlagsOf D en (fun j => (r j).2) g

/-- R36, R116: VCVT to a block-scaled format from one register: each block's scale byte lands in VD + 1 and its elements, scaled by it, in VD. -/
def Sys2Proof.Spec.VcvtFormsBlocks : Prop :=
  ∀ (d a : VR) (f : Fmt) (e : FloatFmt) (t : Ty) (m : RMode) (s : State), (Instr.vcvt none d a f t m false).wf = true → f.isBlock = true → f.elem = some (.float e) → m ≠ .sr →
    let D := cvtDst f t false
    let S := cvtSrc f t false
    let value (j : Nat) : XVal := t.elem.decode (laneOf t.bits (s.rv (a + BitVec.ofNat 5 (j / S)) t.bits) (j % S))
    let block (b : Nat) : Nat × List Nat × FlagSet := convertBlock e m ((List.range f.block).map fun j => (value (f.block * b + j), 0))
    ∃ v0 v1 g, exec (.vcvt none d a f t m false) s = .next (withFlags (pending (pending s 4 (.v d (BitVec.allOnes 2048) v0)) 4 (.v (d + 1) (BitVec.allOnes 2048) v1)) 4 g) ∧
      (∀ j, j < D → laneOf f.bits v0 j = (block (j / f.block)).2.1.getD (j % f.block) 0 % 2 ^ f.bits) ∧
      FlagsOf (D / f.block) (fun _ => True) (fun b => (block b).2.2) g ∧ (∀ b, b < D / f.block → laneOf 8 v1 b = (block b).1 % 256) ∧ (∀ b, D / f.block ≤ b → b < 256 → laneOf 8 v1 b = 0)

/-- R20, R108, R302: a vector operation with a stream operand that is not bound faults STREAM_FAULTED at its slot with address 0, and a bundle that reads a stream whose next element has not arrived is held. -/
def Sys2Proof.Spec.StreamReadsFaultOrHold : Prop :=
  ∀ (d a : VR) (t : Ty) (p : PR) (s : State), a.toNat < 8 →
    let x : Option VExt := some ⟨true, false, 0⟩
    let q : QR := BitVec.ofNat 3 a.toNat
    (s.cx.rq q = none → exec (.vmov x d a t p) s = .next (s.slotFault .streamFaulted 0)) ∧
    (∀ n sp, s.cx.bad = [] → s.cx.spoolOf q = some (n, sp) → sp.mark = none → s.cx.spoolRowsOk sp = true → sp.held = 0 → ∀ ops, s.slotHolds ops (3, .vmov x d a t p) = true)

namespace Sys2Proof.Spec

open Sys2Proof Sys2Proof.Machine

/-- The present context owns its core's matrix state (R11, R313), and no MSTLOAD of a context of its core is outstanding (R143). -/
def OwnsMatrix (s : State) : Prop :=
  (∀ a ∈ s.accs, a.core = s.cx.coreNum → ∀ n, a.kind ≠ .load (.image n)) ∧ (s.core s.cx.coreNum).mowner ≠ 0xFFFF ∧ (s.core s.cx.coreNum).mhwc.toNat = s.cx.hw

/-- `s` with the dirty bit of its core's matrix state set (R312). -/
def withDirty (s : State) : State := { s with cores := tabSet s.cores s.cx.coreNum { s.core s.cx.coreNum with mdirty := true } }

/-- `s` with the matrix state of its core replaced. -/
def withMatrix (s : State) (m : Matrix) : State := { s with cores := tabSet s.cores s.cx.coreNum { s.core s.cx.coreNum with mat := m } }

/-- A walker's step mark (R68): its value becomes value + step at the next step. -/
def marked (s : State) (w : AR) (m : Bool) : State := if m then pending s 1 (.walkAdd w (s.cx.ra w).step) else s

/-- A walker's value as a number. -/
def walkerOf (s : State) (w : AR) : Nat := (s.cx.ra w).value.toNat

/-- Format of the bank that holds a window row (R16). -/
def rowFmt (s : State) (r : Nat) : Fmt := emFmt (s.cx.emulsion.toList.getD (r / 256) 0)

def groupOf (s : State) (r : Nat) : Nat := emGrp (s.cx.emulsion.toList.getD (r / 256) 0)
def sideOf (s : State) (r : Nat) : Nat := emSide (s.cx.emulsion.toList.getD (r / 256) 0)

/-- The 256 bytes of a window row. -/
def rowOf (s : State) (r : Nat) : VReg := BitVec.ofNat 2048 (s.cx.window.readLE (256 * r) 256)

/-- A row of a block-scaled bank at or above row 240 holds scales (R35). -/
def HoldsScales (s : State) (r : Nat) : Prop := (rowFmt s r).isBlock = true ∧ 240 ≤ r % 256

/-- The window row that a push reads: a walker's, or the next element of a stream (R131). -/
def PushRow (s : State) (w : AR) (qs : Bool) (r : Nat) : Prop :=
  if qs then StreamsReady s [w.setWidth 3] ∧ ∃ n sp, s.cx.spoolOf (w.setWidth 3) = some (n, sp) ∧ r = sp.base + sp.c % sp.size
  else r = walkerOf s w / 256 ∧ r < 256 * s.cx.kernel.banks

def wholeFmt (f : Fmt) : Prop := f = .int16 ∨ f = .int8 ∨ f = .uint8 ∨ f = .int4 ∨ f = .uint4 ∨ f = .int2

/-- A legal pair of an activation format and a plane format (R128). -/
def Pairs (fa fw : Fmt) : Prop := fa ≠ .raw ∧ fw ≠ .raw ∧ fa.isAq = false ∧ fa.bits = fw.bits ∧ (wholeFmt fa ↔ wholeFmt fw)

/-- An element of an integer format (R26). -/
def wholeElem (f : Fmt) (row : VReg) (k : Nat) : Int := if f = .uint8 ∨ f = .uint4 then laneOf f.bits row k else twosOf f.bits (laneOf f.bits row k)

/-- S_n of R129 for the 128 columns, over the active plane. -/
def ColumnSums (m : Matrix) (f : Fmt) (row : VReg) (slot : Nat) (x : BeatSums) : Prop :=
  let w := m.activeFmt
  let grp := (m.recs[m.activeIx]).2.1.toNat
  let K := 2048 / f.bits
  (wholeFmt f → ∃ l, x = .int l ∧ l.length = 128 ∧
    ∀ n : Fin 128, l[n.val]? = some (∑ k ∈ Finset.range K, wholeElem f row k * wholeElem w m.planes[m.activeIx][n] k)) ∧
  (¬wholeFmt f → ∃ l, x = .float l ∧ l.length = 128 ∧
    ∀ n : Fin 128, l[n.val]? = some ((List.range K).foldl
      (fun a k => (XVal.add .rne a (XVal.mul (actValue f row slot k) (planeValue w grp m.planes[m.activeIx][n] m.scales[m.activeIx][n] k)).1).1) (.fin true 0 0 false)))

/-- Column n of an accumulator row. -/
def columnOf (r : AccRow) (n : Nat) : Nat := r.toNat / 2 ^ (32 * n) % 2 ^ 32

/-- What the drains read of an accumulator row: integers or F32 values (R136). -/
def drained (m : Matrix) (r : AccRow) (n : Nat) : XVal := if m.drainsInt then .ofInt (twosOf 32 (columnOf r n)) else F32.decode (columnOf r n)

/-- The accumulator row that a walker selects (R132). -/
def rowAcc (s : State) (a : AR) : AccRow := (s.core s.cx.coreNum).mat.acc[(⟨walkerOf s a % 128, Nat.mod_lt _ (by decide)⟩ : Fin 128)]

/-- Bytes of a number from an address on. -/
def cellsOf (a n x : Nat) : List (Nat × Byte) := (List.range n).map fun i => (a + i, byteAt x i)

/-- The M word that has a shadow field beside its beat. -/
def besideShadow (i : Instr) (h : Shadow) : Option Instr :=
  match i with
  | .mpush a am w sm qs none => some (.mpush a am w sm qs (some h))
  | .mpushz a am w sm qs none => some (.mpushz a am w sm qs (some h))
  | .mdrain a am d none => some (.mdrain a am d (some h))
  | .mdrainz a am d none => some (.mdrainz a am d (some h))
  | .mdrains a am w sm none => some (.mdrains a am w sm (some h))
  | .mdrainw a am g none => some (.mdrainw a am g (some h))
  | .mzero a am none => some (.mzero a am (some h))
  | .mmodeWrap none => some (.mmodeWrap (some h))
  | .mmodeSat none => some (.mmodeSat (some h))
  | .mmodeClrovf none => some (.mmodeClrovf (some h))
  | _ => none

/-- The shadow field as an M word of its own. -/
def shadowAlone (h : Shadow) : Instr := match h.op with | .mlds => .mlds h.w h.mark | .mldst => .mldst h.w h.mark | .mldss => .mldss h.w h.mark

/-- The shadow plane's record after a load from a row: unchanged when it is open, else the row's bank (R140). -/
def recordAfter (s : State) (m : Matrix) (r : Nat) : Bool × BitVec 2 × BitVec 5 :=
  if (m.recs[m.shadowIx]).1 then m.recs[m.shadowIx]
  else (true, if (rowFmt s r).isAq then BitVec.ofNat 2 (groupOf s r) else 0, BitVec.ofNat 5 ((s.cx.emulsion.toList.getD (r / 256) 0).toNat % 32))

/-- An open record that is not of a row's bank: of another format or, where the bank is AQ, of another group size (R140). -/
def RecordDiffers (s : State) (m : Matrix) (r : Nat) : Prop :=
  (m.recs[m.shadowIx]).1 = true ∧ ((m.recs[m.shadowIx]).2.2.toNat ≠ (s.cx.emulsion.toList.getD (r / 256) 0).toNat % 32 ∨
    ((rowFmt s r).isAq = true ∧ (m.recs[m.shadowIx]).2.1 ≠ BitVec.ofNat 2 (groupOf s r)))

/-- Byte i of the image of a matrix state (R142). -/
def imageOf (m : Matrix) (i : Nat) : Nat :=
  let rec1 (p : Fin 2) : Nat := (m.recs[p]).1.toNat * 128 + (m.recs[p]).2.1.toNat * 32 + (m.recs[p]).2.2.toNat
  let at' (n : Nat) : Fin 128 := ⟨n % 128, Nat.mod_lt _ (by decide)⟩
  if i < 0x10000 then (m.acc[at' (i / 512)]).toNat / 2 ^ (8 * (i % 512)) % 256
  else if i < 0x18000 then (m.planes[m.activeIx][at' ((i - 0x10000) / 256)]).toNat / 2 ^ (8 * (i % 256)) % 256
  else if i < 0x20000 then (m.planes[m.shadowIx][at' ((i - 0x18000) / 256)]).toNat / 2 ^ (8 * (i % 256)) % 256
  else if i = 0x2003F then rec1 m.activeIx
  else if i = 0x2007F then m.lcur.toNat
  else if i = 0x200BF then m.scur.toNat
  else if i = 0x200FF then m.ovf.toNat * 2 + m.sat.toNat
  else if i = 0x2203F then rec1 m.shadowIx
  else if i % 64 = 63 then 0
  else if i < 0x22000 then (m.scales[m.activeIx][at' ((i - 0x20000) / 64)]).toNat / 2 ^ (8 * (i % 64)) % 256
  else (m.scales[m.shadowIx][at' ((i - 0x22000) / 64)]).toNat / 2 ^ (8 * (i % 64)) % 256

end Sys2Proof.Spec

/-- R128, R129, R131, R132, R134: a push of the owner of the matrix state, without a shadow field, whose row is one of data of a format that the active plane pairs with, sends the exact column sums to its accumulator row, to land after ten steps, takes its stream element or marks its walkers, and sets the dirty bit; on a row of scales or with an illegal pair it faults FORMAT_MISMATCH. MZERO likewise zeroes its row. -/
def Sys2Proof.Spec.PushesSendExactColumnSums : Prop :=
  (∀ (z : Bool) (a : AR) (am : Bool) (w : AR) (sm : Bool) (s : State), OwnsMatrix s → 256 * s.cx.kernel.banks ≤ walkerOf s w / 256 →
    exec (if z then .mpushz a am w sm false none else .mpush a am w sm false none) s = .next (s.slotFault .permission (BitVec.ofNat 64 (walkerOf s w)))) ∧
  (∀ (z : Bool) (a : AR) (am : Bool) (w : AR) (sm qs : Bool) (s : State) (r : Nat), OwnsMatrix s → PushRow s w qs r →
    let i : Instr := if z then .mpushz a am w sm qs none else .mpush a am w sm qs none
    let m := (s.core s.cx.coreNum).mat
    (HoldsScales s r ∨ ¬Pairs (rowFmt s r) m.activeFmt → exec i s = .next (s.slotFault .formatMismatch 0)) ∧
    (¬HoldsScales s r → Pairs (rowFmt s r) m.activeFmt → ∃ x, ColumnSums m (rowFmt s r) (rowOf s r) (s.cx.scaleSlot r) x ∧
      let u := marked (pending s 10 (.beat (walkerOf s a % 128) z x m.sat)) a am
      exec i s = .next (withDirty (if qs then consume u [w.setWidth 3] else marked u w sm)))) ∧
  (∀ (a : AR) (am : Bool) (s : State), OwnsMatrix s → exec (.mzero a am none) s = .next (withDirty (marked (pending s 10 (.accZero (walkerOf s a % 128))) a am)))

/-- R129, R131: a beat that lands adds each integer sum to its column, wrapping or, with SAT, saturating, and sets OVF where the exact sum leaves the column's range; it adds each float sum with one rounding; with Z the column's old value counts as zero. No other row changes, and no plane. -/
def Sys2Proof.Spec.BeatsAccumulateInTheirRow : Prop :=
  ∀ (m : Matrix) (row : Nat) (z : Bool),
    (∀ (sat : Bool) (l : List Int), l.length = 128 →
      let t := m.apply (.beat row z (.int l) sat)
      let y (n : Nat) : Int := (if z then 0 else twosOf 32 (columnOf m.acc[(⟨row % 128, Nat.mod_lt _ (by decide)⟩ : Fin 128)] n)) + l.getD n 0
      (∀ n, n < 128 → twosOf 32 (columnOf t.acc[(⟨row % 128, Nat.mod_lt _ (by decide)⟩ : Fin 128)] n) =
        if sat then Max.max (-2147483648) (Min.min 2147483647 (y n)) else twosOf 32 ((y n) % 2 ^ 32).toNat) ∧
      (t.ovf = true ↔ m.ovf = true ∨ ∃ n, n < 128 ∧ (y n < -2147483648 ∨ 2147483647 < y n)) ∧
      (∀ i : Fin 128, i.val ≠ row % 128 → t.acc[i] = m.acc[i]) ∧ t.planes = m.planes ∧ t.scales = m.scales) ∧
    (∀ (sat : Bool) (l : List XVal), l.length = 128 →
      let t := m.apply (.beat row z (.float l) sat)
      (∀ n, n < 128 → columnOf t.acc[(⟨row % 128, Nat.mod_lt _ (by decide)⟩ : Fin 128)] n =
        (convert (.float F32) .rne 0 (if z then l.getD n .nan
          else (XVal.add .rne (F32.decode (columnOf m.acc[(⟨row % 128, Nat.mod_lt _ (by decide)⟩ : Fin 128)] n)) (l.getD n .nan)).1)).1 % 2 ^ 32) ∧
      (∀ i : Fin 128, i.val ≠ row % 128 → t.acc[i] = m.acc[i]) ∧ t.ovf = m.ovf ∧ t.planes = m.planes ∧ t.scales = m.scales)

/-- R135, R136, R137: the drains of the owner, without a shadow field: to two v registers after four steps, with MDRAINZ zeroing the row at the next step; to the window, converted to its bank's format, RAW as bits; as adds of the 128 columns to consecutive elements, counted on TL, addresses being counted modulo 2^64 (the model's choice, log 83). An MDRAINS of which a row lies outside the window faults PERMISSION, with the walker's value as address also where that is the second row (the model's choice, log 30); into a row of scales or of an AQ bank it faults FORMAT_MISMATCH; an MDRAINW whose address is no multiple of 4 faults MISALIGNED. -/
def Obligations.DrainsDeliverTheRow : Prop :=
  (∀ (a : AR) (am : Bool) (d : VR) (s : State), OwnsMatrix s → ∃ lo hi : VReg,
    (∀ n, n < 64 → laneOf 32 lo n = columnOf (rowAcc s a) n ∧ laneOf 32 hi n = columnOf (rowAcc s a) (64 + n)) ∧
    let u := marked (pending (pending s 4 (.v d (BitVec.allOnes 2048) lo)) 4 (.v (d + 1) (BitVec.allOnes 2048) hi)) a am
    exec (.mdrain a am d none) s = .next (withDirty u) ∧ exec (.mdrainz a am d none) s = .next (withDirty (pending u 1 (.drainZero (walkerOf s a % 128))))) ∧
  (∀ (a : AR) (am : Bool) (w : AR) (sm : Bool) (s : State), OwnsMatrix s →
    let r := walkerOf s w / 256
    let f := rowFmt s r
    let rows := if f = .raw ∨ f = .f32 then 2 else 1
    let val (n : Nat) : XVal := drained (s.core s.cx.coreNum).mat (rowAcc s a) n
    (256 * s.cx.kernel.banks < r + rows → exec (.mdrains a am w sm none) s = .next (s.slotFault .permission (BitVec.ofNat 64 (walkerOf s w)))) ∧
    (r + rows ≤ 256 * s.cx.kernel.banks →
      (HoldsScales s r ∨ f.isAq = true → exec (.mdrains a am w sm none) s = .next (s.slotFault .formatMismatch 0)) ∧
      (¬HoldsScales s r → f.isAq = false → (∀ c ∈ s.cmds, c.ctx ≠ s.cur) →
        ∃ x tail, exec (.mdrains a am w sm none) s = .next (withDirty (marked (marked (pending s 4 (.window (cellsOf (256 * r) (if f = .raw then 512 else 16 * f.bits) x ++ tail))) a am) w sm)) ∧
          (f = .raw → x = (rowAcc s a).toNat ∧ tail = []) ∧
          (f ≠ .raw → f.isBlock = false → tail = [] ∧ ∀ n, n < 128 → x / 2 ^ (f.bits * n) % 2 ^ f.bits = (convert (elemOf f) .rne 0 (val n)).1 % 2 ^ f.bits) ∧
          (∀ e, f.isBlock = true → f.elem = some (.float e) →
            let block (b : Nat) : Nat × List Nat × FlagSet := convertBlock e .rne ((List.range f.block).map fun j => (val (f.block * b + j), 0))
            (∀ n, n < 128 → x / 2 ^ (f.bits * n) % 2 ^ f.bits = (block (n / f.block)).2.1.getD (n % f.block) 0 % 2 ^ f.bits) ∧
            tail = (List.range (128 / f.block)).map fun b => (65536 * (r / 256) + 61440 + 16 * (r % 256) + b, BitVec.ofNat 8 (block b).1))))) ∧
  (∀ (a : AR) (am : Bool) (g : GR) (s : State), OwnsMatrix s →
    ((s.rg g).toNat % 4 ≠ 0 → exec (.mdrainw a am g none) s = .next (s.slotFault .misaligned (s.rg g))) ∧
    ((s.rg g).toNat % 4 = 0 → exec (.mdrainw a am g none) s = .next (withDirty (marked (withAccess s
      ⟨6, .write, 0, 0, 1, fun _ => true, fun _ => 0, .winAdd (s.core s.cx.coreNum).mat.drainsInt, .tl, none, false⟩
      ((List.range 128).map fun n => ⟨((s.rg g).toNat + 4 * n) % 2 ^ 64, 0, false, List.replicate 4 true, (List.range 4).map (byteAt (columnOf (rowAcc s a) n)), .waiting⟩)) a am))))

/-- R138, R140, R141: MSWAP and the MMODEs of the owner change the matrix state one step later; the swap exchanges the planes and their records, closes the record of the new shadow plane and returns both cursors to 0. The shadow loads of the owner: MLDS takes a row as column LCUR of the shadow plane with its scales, MLDST spreads a row's elements over the columns, MLDSS takes a scale column; record and cursor change at once, the plane two steps later; a row outside the window, of scales, RAW, of another bank than an open record, or with its side table outside the window faults, the last with the walker's value as address (the model's choice, log 30). Of a block-scaled row the bytes of the scale column behind the row's own scales become zero (the model's choice, log 66). -/
def Obligations.SwapModesAndShadowLoads : Prop :=
  (∀ s : State, OwnsMatrix s →
    exec .mswap s = .next (withDirty (pending s 1 .swap)) ∧ exec (.mmodeWrap none) s = .next (withDirty (pending s 1 (.sat false))) ∧
    exec (.mmodeSat none) s = .next (withDirty (pending s 1 (.sat true))) ∧ exec (.mmodeClrovf none) s = .next (withDirty (pending s 1 .clrOvf))) ∧
  (∀ m : Matrix, (m.apply .swap).activeIx = m.shadowIx ∧ (m.apply .swap).planes = m.planes ∧ (m.apply .swap).scales = m.scales ∧ (m.apply .swap).acc = m.acc ∧
    (m.apply .swap).lcur = 0 ∧ (m.apply .swap).scur = 0 ∧ (m.apply .swap).recs[m.shadowIx] = m.recs[m.shadowIx] ∧
    (m.apply .swap).recs[m.activeIx] = (false, (m.recs[m.activeIx]).2) ∧
    (∀ b, (m.apply (.sat b)).sat = b ∧ (m.apply (.sat b)).acc = m.acc) ∧ (m.apply .clrOvf).ovf = false ∧ (m.apply .clrOvf).acc = m.acc) ∧
  (∀ (w : AR) (mk : Bool) (s : State), OwnsMatrix s →
    let r := walkerOf s w / 256
    let m := (s.core s.cx.coreNum).mat
    let f := rowFmt s r
    let plane : Bool := m.shadowIx = 1
    (256 * s.cx.kernel.banks ≤ r → ∀ op, exec (shadowAlone ⟨op, w, mk⟩) s = .next (s.slotFault .permission (BitVec.ofNat 64 (walkerOf s w)))) ∧
    (r < 256 * s.cx.kernel.banks →
      (HoldsScales s r → ∀ op, exec (shadowAlone ⟨op, w, mk⟩) s = .next (s.slotFault .formatMismatch 0)) ∧
      (¬HoldsScales s r →
        exec (.mldss w mk) s = .next (withDirty (marked (withMatrix (pending s 2 (.scaleCol plane m.scur.toNat (BitVec.ofNat 512 ((rowOf s r).toNat % 2 ^ 504)))) { m with scur := m.scur + 1 }) w mk)) ∧
        (f = .raw ∨ RecordDiffers s m r → exec (.mlds w mk) s = .next (s.slotFault .formatMismatch 0) ∧ exec (.mldst w mk) s = .next (s.slotFault .formatMismatch 0)) ∧
        (f ≠ .raw → ¬RecordDiffers s m r → f.isAq = true ∧ s.cx.kernel.banks ≤ sideOf s r →
          exec (.mlds w mk) s = .next (s.slotFault .permission (BitVec.ofNat 64 (walkerOf s w))) ∧ exec (.mldst w mk) s = .next (s.slotFault .permission (BitVec.ofNat 64 (walkerOf s w)))) ∧
        (f ≠ .raw → ¬RecordDiffers s m r → ¬(f.isAq = true ∧ s.cx.kernel.banks ≤ sideOf s r) →
          let m' := { m with lcur := m.lcur + 1, recs := m.recs.set m.shadowIx (recordAfter s m r) }
          let sc := if f.isBlock then s.cx.scaleSlot r else if f.isAq then s.cx.window.readLE (65536 * sideOf s r + 64 * (r % 256)) 64 else 0
          exec (.mldst w mk) s = .next (withDirty (marked (withMatrix (pending s 2 (.planeCol plane ((List.range (2048 / f.bits)).map fun e =>
            let p := m.lcur.toNat * (2048 / f.bits) + e
            (p % 128, BitVec.ofNat 2048 ((2 ^ f.bits - 1) * 2 ^ (f.bits * (p / 128))), BitVec.ofNat 2048 (laneOf f.bits (rowOf s r) e * 2 ^ (f.bits * (p / 128))))))) m') w mk)) ∧
          exec (.mlds w mk) s = .next (withDirty (marked (withMatrix (pending (pending s 2 (.planeCol plane [(m.lcur.toNat, BitVec.allOnes 2048, rowOf s r)])) 2
            (.scaleCol plane m.lcur.toNat (BitVec.ofNat 512 sc))) m') w mk))))))

/-- R144, R313: an M word is one unit: where its beat or its shadow field would trap alone, the word traps so and does nothing else; else both act. An M word of a context that does not own the matrix state traps MATRIX_SWITCH and does nothing else. -/
def Sys2Proof.Spec.MatrixWordIsOneUnit : Prop :=
  ∀ (i j : Instr) (h : Shadow) (s : State), besideShadow i h = some j → s.issue.slot = 4 → s.issue.trapped = false → s.cx.spoiltReg i = false → s.slotHolds [] (4, i) = false →
    ∃ t u v, exec i s = .next t ∧ exec (shadowAlone h) s = .next u ∧ exec j s = .next v ∧
      (t.issue.trapped = true → v = t) ∧ (t.issue.trapped = false → u.issue.trapped = true → v = u) ∧
      (t.issue.trapped = false → u.issue.trapped = false → exec (shadowAlone h) t = .next v) ∧
      (¬OwnsMatrix s → v = s.slotTrap .matrixSwitch 0 .matrixSwitch)

/-- R142, R143, R312: MSTSAVE and MSTLOAD of a context in S mode, without a shadow field, at a mapped multiple of 4,096: the image of the matrix state, with what is in flight landed, becomes a store outstanding on ST; the image to be read becomes a load outstanding on LD; the state is clean from then on. In U mode they fault PRIVILEGE. -/
def Sys2Proof.Spec.ImagesAreStoredAndLoaded : Prop :=
  ∀ (g : GR) (s : State), (∀ a ∈ s.accs, a.core = s.cx.coreNum → ∀ n, a.kind ≠ .load (.image n)) →
    let A := (s.rg g).toNat
    (s.cx.mode = false → exec (.mstsave g none) s = .next (s.slotFault .privilege 0) ∧ exec (.mstload g none) s = .next (s.slotFault .privilege 0)) ∧
    (s.cx.mode = true → A % 4096 = 0 → A + 147456 ≤ 2 ^ 48 →
      (∀ e, Mapped s .write e A 147456 → ∃ t a, exec (.mstsave g none) s = .next t ∧ t.accs = s.accs ++ [a] ∧ SameMemory s t ∧ (t.core s.cx.coreNum).mdirty = false ∧
        (t.core s.cx.coreNum).mat = (s.core s.cx.coreNum).mat ∧ t.cx.st = s.cx.st ++ [(s.nextId, false)] ∧ a.kind = .store ∧ a.ctx = s.cur ∧ a.parts.length = 1152 ∧
        ∀ n, n < 147456 → ((a.parts.getD (n / 128) ⟨0, 0, false, [], [], .waiting⟩).data.getD (n % 128) 0).toNat = imageOf s.matLanded n) ∧
      (∀ e, Mapped s .read e A 147456 → ∃ t a, exec (.mstload g none) s = .next t ∧ t.accs = s.accs ++ [a] ∧ SameMemory s t ∧ (t.core s.cx.coreNum).mdirty = false ∧
        (t.core s.cx.coreNum).mat = (s.core s.cx.coreNum).mat ∧ t.cx.ld = s.cx.ld ++ [(s.nextId, false)] ∧ a.kind = .load (.image s.cx.step) ∧ a.ctx = s.cur ∧ a.parts.length = 1152))

namespace Sys2Proof.Spec

open Sys2Proof Sys2Proof.Machine

/-- The scratchpad side of a copy command: the walker's row, or a spool (R260). -/
def sideAt (s : State) : CopySide → Side
  | .walker w _ => .spad (256 * (walkerOf s w / 256))
  | .spool n => .spool n.toNat

/-- What each copy command names (R264 to R271): OPC, shape register, source, destination, scale array, index list and whether it places the destination, window adds, order, and its scratchpad side. -/
def copyForm (i : Instr) (s : State) : Option (Nat × XR × Side × Side × Nat × Option (Nat × Bool) × Bool × CmdOrder × Option CopySide) :=
  let n (g : GR) : Nat := (s.rg g).toNat
  match i with
  | .cpLd a b x d o => some (1, x, .global (n a), sideAt s d, n b, none, false, o, some d)
  | .cpSt a b x d o => some (1, x, sideAt s d, .global (n a), n b, none, false, o, some d)
  | .cpMv b x d o => some (1, x, .spad (n b % 2 ^ 32), sideAt s d, 0, none, false, o, some d)
  | .cpm a b x k o => some (2, x, .global (n a), .targets k.toNat (n b / 2 ^ 32) (n b % 2 ^ 32), 0, none, false, o, none)
  | .cpg a b x d o => some (3, x, .global (n a), sideAt s d, 0, some (n b, false), false, o, some d)
  | .cps a b x d o => some (4, x, sideAt s d, .global (n a), 0, some (n b, true), false, o, some d)
  | .cpw a x d o => some (5, x, sideAt s d, .global (n a), 0, none, true, o, some d)
  | .cpfScratch b x d o => some (6, x, .pattern (s.rg b), sideAt s d, 0, none, false, o, some d)
  | .cpfGlobal a b x o => some (6, x, .pattern (s.rg b), .global (n a), 0, none, false, o, none)
  | _ => none

/-- The command as the engine takes it: its operands as they stand at the issue, the counter of the random stream it draws from, and what its own bundle's earlier slots write (R208, R256, R261). -/
def commandTaken (s : State) (f : Nat × XR × Side × Side × Nat × Option (Nat × Bool) × Bool × CmdOrder × Option CopySide) : Cmd where
  id := s.nextId
  ctx := s.cur
  rank := s.cx.rank
  core := s.cx.coreNum
  opc := f.1
  epc := s.cx.pc
  shape := s.cx.rx f.2.1
  src := f.2.2.1
  dst := f.2.2.2.1
  scaleBase := f.2.2.2.2.1
  index := f.2.2.2.2.2.1
  indices := []
  adds := f.2.2.2.2.2.2.1
  emulsion := s.cx.emulsion
  order := f.2.2.2.2.2.2.2.1
  ctr := s.cx.drawFrom
  key := s.cx.rngkey
  started := false
  acq := f.2.2.2.2.2.2.2.1.acq
  run := 0
  elem := 0
  flags := 0
  stopped := none
  reported := false
  keep := s.ownWrites
  keepG := []
  shut := s.issue.fixed
  first := s.issue.first
  fetched := []
  refused := []
  parked := []
  out := []
  cls := if f.2.2.2.2.2.2.1 then .tl else .cp

/-- A side of a command. -/
def sideOfCmd (c : Cmd) (dst : Bool) : Side := if dst then c.dst else c.src

/-- Run r of a window side that begins at `a` lies in one bank, and that bank in the window (R15, R272). -/
def RunInside (s : State) (c : Cmd) (dst : Bool) (a r : Nat) : Prop :=
  let at' := c.spadAt dst a r
  at' / 65536 < s.cx.kernel.banks ∧ (at' + (shN0 c.shape * (c.bankFmt at').bits + 7) / 8 - 1) / 65536 = at' / 65536

/-- A side meets the PERMISSION row of R272. -/
def SideInside (s : State) (c : Cmd) (dst : Bool) : Prop :=
  match sideOfCmd c dst with
  | .spad a => ∀ r, r < shRuns c.shape → RunInside s c dst a r
  | .spool n => ∃ sp, tabGet s.cx.spools n = some sp ∧ (shN0 c.shape * (c.bankFmt (256 * sp.base)).bits + 7) / 8 ≤ 256 * sp.elem
  | .targets _ _ m => m ≠ 0 ∧ m < 256
  | .global _ | .pattern _ => True

/-- Runs of elements of `w` bits that begin where `start` says are whole bytes and aligned to their element (R260). -/
def RunsAligned (c : Cmd) (w start : Nat → Nat) : Prop :=
  ∀ r, r < shRuns c.shape → shN0 c.shape * w r % 8 = 0 ∧ (16 ≤ w r → start r % (w r / 8) = 0)

/-- The base of a side and whether its runs are aligned; where the runs of an indexed side begin is not known at issue (log 12). -/
def sideBase (s : State) (c : Cmd) (dst : Bool) : Option (Nat × Prop) :=
  match sideOfCmd c dst with
  | .global b => some (b, RunsAligned c (fun _ => c.gfmt.memBits) fun r => if c.index.isSome then 0 else c.globalAt dst b r)
  | .spad a => some (a, RunsAligned c (fun r => (c.bankFmt (c.spadAt dst a r)).bits) fun r => c.spadAt dst a r)
  | .spool n => (tabGet s.cx.spools n).map fun sp => (256 * sp.base, RunsAligned c (fun _ => (c.bankFmt (256 * sp.base)).bits) fun _ => 0)
  | .pattern _ | .targets .. => none

/-- A side meets the MISALIGNED row of R272. -/
def SideAligned (s : State) (c : Cmd) (dst : Bool) : Prop := ∀ x, sideBase s c dst = some x → x.2

/-- The report of a command that has stopped (R299). -/
def reportOf (s : State) (c : Cmd) (cause : Cause) (a : Nat) : Report where
  cause := cause.code
  kind := 1
  opc := 5 * 256 + c.opc % 64
  ctxid := (s.ctx c.ctx).ctxid.toNat % 2 ^ 32
  faddr := a
  epc := c.epc
  detail := c.run * shN0 c.shape + c.elem
  seq := 0
  code := (s.ctx c.ctx).kernel.header
  action := 0
  cmd := some c.id

/-- Sixteen commands of the context wait to start (R256). -/
def engineIsFull (s : State) : Prop := 16 ≤ (s.cmds.filter fun c => c.ctx == s.cur && !c.started).length

/-- `s` with the command taken: its draws reserved, its counter raised, its walker marked. -/
def withCommand (s : State) (c : Cmd) (near : Option CopySide) : State :=
  let n := c.blocksDrawn s.cx
  let t := if n = 0 then s else pending s 1 (.rngctr (c.ctr + BitVec.ofNat 128 n))
  let u : State := { t with cmds := t.cmds ++ [c], nextId := t.nextId + 1, ctxs := tabSet t.ctxs t.cur (t.cx.countUp c.cls c.id) }
  match near with
  | some (.walker w m) => marked u w m
  | _ => u

/-- `s` with every command `id` replaced. -/
def withCmd (s : State) (id : Nat) (f : Cmd → Cmd) : State := { s with cmds := s.cmds.map fun c => if c.id = id then f c else c }

/-- The 128-bit operand of RNGSET. -/
def pairOf (s : State) (a b : GR) : BitVec 128 := BitVec.ofNat 128 ((s.rg a).toNat + (s.rg b).toNat * 2 ^ 64)

/-- An emulsion value that XFMT takes (R16): a defined format, GRP 0 to 2 for AQ, reserved bits zero. -/
def EmulsionOk (x : W32) : Prop :=
  ∃ f, Fmt.ofCode (x.toNat % 32) = some f ∧ ¬(f.isAq = true ∧ x.toNat / 32 % 4 = 3) ∧ x.toNat / 128 % 2 = 0 ∧ x.toNat / 65536 = 0

end Sys2Proof.Spec

/-- R256, R261, R264 to R271: a copy command that breaks no rule of R272 while the engine has room is taken as its operands stand at the issue, counts on CP (CPW on TL), reserves its draws and marks its walker; nothing else changes, and no byte moves yet. With 16 commands waiting it changes nothing: its bundle is held. -/
def Sys2Proof.Spec.CopyCommandsAreTaken : Prop :=
  ∀ (i : Instr) (s : State) f, copyForm i s = some f → s.commandFault? (commandTaken s f) = none →
    (¬engineIsFull s → exec i s = .next (withCommand s (commandTaken s f) f.2.2.2.2.2.2.2.2)) ∧ (engineIsFull s → exec i s = .next s)

/-- R272: what a copy command faults with at its slot, row by row. FORMAT_MISMATCH, address 0: an undefined format or mode; a CPW whose format is not F32; a CPG or CPS of a block-scaled format or of more than one dimension. Then PERMISSION: an undefined spool, a run longer than a spool element or a mask of CPM that names none or more than eight (address 0); a run outside the window or across a bank, with the first window address in run order that is outside its bank or the window. Then MISALIGNED, with the base of the side whose runs are not whole bytes or not aligned to their element, or the base of an index list that is not a multiple of 4. Where both sides break a row, the source is reported: the model's choice (log 83). -/
def Sys2Proof.Spec.CopyCommandsFaultInOrder : Prop :=
  ∀ (i : Instr) (s : State) f, copyForm i s = some f →
    let sh := (s.cx.rx f.2.1).toNat
    let c := commandTaken s f
    (5 ≤ sh / 2 ^ 61 % 8 ∨ Fmt.ofCode (sh / 2 ^ 56 % 32) = none ∨ (c.adds = true ∧ c.gfmt ≠ .f32) ∨
      (c.index.isSome = true ∧ (c.gfmt.isBlock = true ∨ shN2 c.shape ≠ 1 ∨ shN3 c.shape ≠ 1)) → exec i s = .next (s.slotFault .formatMismatch 0)) ∧
    (c.formatBad s.cx = false →
      (∀ dst : Bool, (dst = true → SideInside s c false) →
        ((∃ n, sideOfCmd c dst = .spool n ∧ tabGet s.cx.spools n = none) → exec i s = .next (s.slotFault .permission 0)) ∧
        (∀ n sp, sideOfCmd c dst = .spool n → tabGet s.cx.spools n = some sp → 256 * sp.elem < (shN0 c.shape * (c.bankFmt (256 * sp.base)).bits + 7) / 8 →
          exec i s = .next (s.slotFault .permission 0)) ∧
        (∀ n b m, sideOfCmd c dst = .targets n b m → m = 0 ∨ 256 ≤ m → exec i s = .next (s.slotFault .permission 0)) ∧
        (∀ a r, sideOfCmd c dst = .spad a → r < shRuns c.shape → (∀ j, j < r → RunInside s c dst a j) → ¬RunInside s c dst a r →
          let at' := c.spadAt dst a r
          exec i s = .next (s.slotFault .permission (BitVec.ofNat 64 (if s.cx.kernel.banks ≤ at' / 65536 then at' else (at' / 65536 + 1) * 65536))))) ∧
      (SideInside s c false → SideInside s c true →
        (∀ (dst : Bool) b p, (dst = true → SideAligned s c false) → sideBase s c dst = some (b, p) → ¬p → exec i s = .next (s.slotFault .misaligned (BitVec.ofNat 64 b))) ∧
        (∀ b side, SideAligned s c false → SideAligned s c true → c.index = some (b, side) → b % 4 ≠ 0 →
          exec i s = .next (s.slotFault .misaligned (BitVec.ofNat 64 b)))))

/-- R256, R257, R270, R273, R277: the steps of a command: the oldest that has not started starts while fewer than eight run; a fill moves the elements of its run: each byte of the run takes its pattern's byte, every other byte of the window and all memory stay; a stopped command, once what it had on its way is written, is reported once and marks the spool it feeds: its context gets the report of R299 with the next number of the rank (R298), as the last of its reports when fewer than eight wait there and none waits for a place, else as the last that waits, and has an ASYNC to take; a finished one retires, its flags reach CFLAGS and its counter falls; with the last one that uses the window of a context that has ended, the context gives up its place (R25). That an event moves all elements of the run at once is the form of the engine's events that log 32 gives the model. -/
def Sys2Proof.Spec.CopyCommandsRunAndRetire : Prop :=
  ∀ (s : State) (id : Nat) (c : Cmd), s.cmd? id = some c → c.id = id →
    (c.started = false → (s.ctx c.ctx).phase = .live → (∀ x ∈ s.cmds, x.ctx = c.ctx → x.id < id → x.started = true) →
      (s.cmds.filter fun x => x.ctx == c.ctx && x.started).length < 8 → c.acq = false → shRuns c.shape ≠ 0 →
      exec (.copyCommandStart id) s = .next (withCmd s id fun x => { x with started := true })) ∧
    (c.started = true → exec (.copyCommandStart id) s = .next s) ∧
    (∀ (x : W64) (a : Nat), s.cmdReady c = true → c.elem = 0 → c.index = none → c.src = .pattern x → c.dst = .spad a → (∀ y ∈ s.cmds, y.id = id) →
      (∀ y ∈ s.accs, y.ctx ≠ c.ctx) → c.order.rel = false → c.out = [] →
      let at' := c.spadAt true a c.run
      let w := (c.bankFmt at').bits
      (c.bankFmt at').isBlock = false → 8 ≤ w → (s.ctx c.ctx).window.wf = true →
      ∃ t, exec (.spoolElementFire id 0) s = .next t ∧ SameMemory s t ∧
        ∀ y, (t.ctx c.ctx).window.get y = if at' ≤ y ∧ y < at' + shN0 c.shape * w / 8
          then byteAt (x.toNat % 2 ^ (elemOf (c.bankFmt at')).width) ((y - at') % (w / 8)) else (s.ctx c.ctx).window.get y) ∧
    (∀ cause a k, c.stopped = some (cause, a, k) → c.reported = false → c.out = [] → (s.ctx c.ctx).alive = true → s.cmds = [c] →
      let r := reportOf s c cause a
      let d := s.ctx c.ctx
      ∃ t, exec (.commandFailure id) s = .next t ∧ SameMemory s t ∧ t.cmds = [{ c with reported := true }] ∧
        (d.waiting = [] → d.reports.length < 8 → (t.ctx c.ctx).reports = d.reports ++ [{ r with seq := (s.rankOf d.rank).seq }] ∧ (t.ctx c.ctx).waiting = [] ∧
          ((tabGet s.ranks d.rank).isSome = true → (t.rankOf d.rank).seq = (s.rankOf d.rank).seq + 1) ∧
          (t.ctx c.ctx).failures = if d.failures.any (fun x => x.cause == .async) then d.failures else d.failures ++ [⟨.async, 0, 0, 0⟩]) ∧
        (8 ≤ d.reports.length → (t.ctx c.ctx).reports = d.reports ∧ (t.ctx c.ctx).waiting = d.waiting ++ [r]) ∧
        (∀ n sp, c.dst = .spool n → tabGet d.spools n = some sp → tabGet (t.ctx c.ctx).spools n = some { sp with mark := some (sp.p, id) })) ∧
    (c.reported = true ∨ c.stopped = none → exec (.commandFailure id) s = .next s) ∧
    (c.started = true → c.stopped = none → shRuns c.shape ≤ c.run → c.out = [] → c.acq = false →
      ((s.ctx c.ctx).phase ≠ .ended → exec (.copyCommandRetire id) s = .next { s with
        cmds := s.cmds.filter (fun x => x.id != id)
        ctxs := tabSet s.ctxs c.ctx { (s.ctx c.ctx).countDown c.cls id with cflags := (s.ctx c.ctx).cflags ||| c.flags } }) ∧
      ((s.ctx c.ctx).phase = .ended → ∃ t, exec (.copyCommandRetire id) s = .next t ∧ t.cmds = s.cmds.filter (fun x => x.id != id) ∧ SameMemory s t ∧
        (t.ctx c.ctx).place = (if ∃ x ∈ t.cmds, x.usesWindow c.ctx = true then (s.ctx c.ctx).place else none) ∧ (∀ k, k ≠ c.ctx → t.ctx k = s.ctx k)))

/-- R275 to R278, R280 to R282: the X-slot operations that set registers of the engine put them in flight for the next step: XSHAPE a half of a shape register; SPDEF a spool of its rows, or PERMISSION with A as address where it does not fit one bank; SBIND a binding; SPADV a pointer's advance: with less room, or fewer rows arrived, than it asks for it changes nothing and holds its bundle; XFMT an emulsion register, counted on CP; XSTAT the flags, a pointer or the matrix flags; RNGSET the counter. -/
def Sys2Proof.Spec.EngineRegistersAreSet : Prop :=
  (∀ (a b : GR) (x : XR) (h : Bool) (s : State), exec (.xshape a b x h) s = .next (pending s 1 (.x x h (pairOf s a b)))) ∧
  (∀ (a : GR) (n : SpR) (size : BitVec 8) (elem : BitVec 2) (s : State),
    let base := (s.rg a).toNat / 256
    let rows := size.toNat + 1
    let fits : Prop := rows % 2 ^ elem.toNat = 0 ∧ base % 256 + rows ≤ 256 ∧ base + rows ≤ 256 * s.cx.kernel.banks
    (fits → (∀ c ∈ s.cmds, c.ctx = s.cur → ¬n.toNat ∈ c.spools) → exec (.spdef a n size elem) s = .next (pending s 1 (.spoolDef n.toNat ⟨base, rows, 2 ^ elem.toNat, 0, 0, none⟩))) ∧
    (¬fits → exec (.spdef a n size elem) s = .next (s.slotFault .permission (s.rg a)))) ∧
  (∀ (q : QR) (n : SpR) (s : State), exec (.sbind q n) s = .next (pending s 1 (.bind q (some n))) ∧ exec (.sbindNone q) s = .next (pending s 1 (.bind q none))) ∧
  (∀ (a : GR) (n : SpR) (s : State),
    let k := (s.rg a).toNat
    (tabGet s.cx.spools n.toNat = none → exec (.spadvP a n) s = .next (s.slotFault .permission 0) ∧ exec (.spadvC a n) s = .next (s.slotFault .permission 0)) ∧
    (∀ sp, tabGet s.cx.spools n.toNat = some sp →
      (k % sp.elem ≠ 0 ∨ sp.size < k → exec (.spadvP a n) s = .next (s.slotFault .permission (s.rg a)) ∧ exec (.spadvC a n) s = .next (s.slotFault .permission (s.rg a))) ∧
      (k % sp.elem = 0 → k ≤ sp.size → (k ≤ sp.room → exec (.spadvP a n) s = .next (pending s 1 (.spoolP n.toNat k))) ∧
        (k ≤ sp.held → exec (.spadvC a n) s = .next (pending s 1 (.spoolC n.toNat k))) ∧
        (s.cx.bad = [] → sp.room < k → exec (.spadvP a n) s = .next s ∧ ∀ ops, s.slotHolds ops (5, .spadvP a n) = true) ∧
        (s.cx.bad = [] → sp.held < k → exec (.spadvC a n) s = .next s ∧ s.slotHolds [] (5, .spadvC a n) = true)))) ∧
  (∀ (a b : GR) (s : State),
    let x : W32 := BitVec.ofNat 32 ((s.rg b).toNat % 2 ^ 32)
    (s.cx.kernel.banks ≤ (s.rg a).toNat → exec (.xfmt a b) s = .next (s.slotFault .permission (s.rg a))) ∧
    ((s.rg a).toNat < s.cx.kernel.banks → ¬EmulsionOk x → exec (.xfmt a b) s = .next (s.slotFault .formatMismatch 0)) ∧
    ((s.rg a).toNat < s.cx.kernel.banks → EmulsionOk x → exec (.xfmt a b) s = .next (withAccess (pending s 1 (.emulsion (s.rg a).toNat x))
      ⟨11, .read, 0, 0, 1, fun _ => false, fun _ => 0, .marker, .cp, none, false⟩ []))) ∧
  (∀ (d : GR) (n : SpR) (s : State),
    (s.cx.cp = [] → exec (.xstat d 0 n) s = .next (pending s 1 (.g d (BitVec.ofNat 64 s.cx.cflags.toNat))) ∧
      exec (.xstat d 1 n) s = .next (pending (pending s 1 (.g d (BitVec.ofNat 64 s.cx.cflags.toNat))) 1 .cflagsClear)) ∧
    (∀ sp, tabGet s.cx.spools n.toNat = some sp → exec (.xstat d 2 n) s = .next (pending s 1 (.g d (BitVec.ofNat 64 sp.p))) ∧
      exec (.xstat d 3 n) s = .next (pending s 1 (.g d (BitVec.ofNat 64 sp.c)))) ∧
    (OwnsMatrix s → exec (.xstat d 4 n) s = .next (pending s 1 (.g d (BitVec.ofNat 64 ((s.core s.cx.coreNum).mat.ovf.toNat + 2 * (s.core s.cx.coreNum).mat.sat.toNat)))))) ∧
  (∀ (a b : GR) (s : State), exec (.rngsetAdd a b) s = .next (pending s 1 (.rngctr (s.cx.rngctr + pairOf s a b))) ∧
    exec (.rngsetSub a b) s = .next (pending s 1 (.rngctr (BitVec.ofNat 128 (s.cx.ctxid.toNat % 2 ^ 32 * 2 ^ 96) + pairOf s a b))))

namespace Sys2Proof.Spec

open Sys2Proof Sys2Proof.Machine

/-- The number of the group that a C-slot group word names: A + G modulo 1,024 (R157). -/
def groupNumOf (s : State) (a : GR) (g : BitVec 10) : Nat := ((s.rg a).toNat + g.toNat) % 1024

/-- The present context belongs to a group. -/
def MemberOf (s : State) (x : Group) : Prop := s.cur ∈ x.members ∨ s.cur ∈ x.next

/-- Groups of its rank that the present context belongs to. -/
def groupsJoined (s : State) : Nat := (s.groups.filter fun x => x.rank == s.cx.rank && (x.members.contains s.cur || x.next.contains s.cur)).length

/-- Only the group records differ, and of those only the one of a number of the present rank. -/
def OnlyGroup (s t : State) (n : Nat) : Prop :=
  t = { s with groups := t.groups } ∧ ∀ r m, ¬(r = s.cx.rank ∧ m = n) → t.group? r m = s.group? r m

/-- The continuation queue of the present context's rank. -/
def queueOf (s : State) (k : Nat) : Queue := tabGetD (s.rankOf s.cx.rank).queues k ⟨[], [], false, none⟩

/-- The access of 64 bytes that QPOST reads and QTAKE writes at A (R161). -/
def recordForm (s : State) (a : GR) (need : Need) (k : AccKind) : AccessForm :=
  ⟨12, need, s.rg a, 64, 64, fun _ => true, fun _ => 0, k, .st, none, true⟩

/-- A launch record as a child descriptor gives it (R165). -/
def IsChild (s : State) (l : List Byte) (r : LaunchRec) : Prop :=
  r.rank = s.cx.rank ∧ r.vf = (s.rankOf s.cx.rank).vf ∧ r.code = leNat (l.take 8) ∧ r.args.toNat = leNat ((l.drop 8).take 8) ∧ r.event = leNat ((l.drop 16).take 8) ∧
    r.nctx = leNat ((l.drop 24).take 4) ∧ r.base = leNat ((l.drop 28).take 4) ∧ r.status = 0 ∧ r.nptr = none

/-- A context as its launch starts it (R24, R181): context i of n, at an entry, with its argument. -/
def StartsAs (c : Ctx) (r : LaunchRec) (h : KHeader) (i n : Nat) : Prop :=
  c.phase = .live ∧ c.rank = r.rank ∧ c.launch = some r.id ∧ c.place.isSome = true ∧ c.kernel = h.kernel ∧ c.pc = h.kernel.code + h.kernel.entry ∧
    (∀ g : GR, c.rg g = if g = 1 then r.args else 0) ∧ (∀ v : VR, c.rv v = 0) ∧ (∀ w : AR, c.ra w = Walker.zero) ∧ (∀ x : XR, c.rx x = 0) ∧ (∀ q : QR, c.rq q = none) ∧
    c.status = 0 ∧ c.flags = 0 ∧ c.ord = 1 ∧ c.ctxid.toNat = (r.base + i) % 2 ^ 32 ∧ c.nctx.toNat = n ∧ c.cutcount = 0 ∧ c.rngctr.toNat = (r.base + i) % 2 ^ 32 * 2 ^ 96 ∧
    c.inflight = [] ∧ c.ld = [] ∧ c.st = [] ∧ c.cp = [] ∧ c.tl = [] ∧ c.window = [] ∧ c.spools = [] ∧ c.sticky = Sticky.none ∧ c.loops = [] ∧ c.step = 0

/-- The save area of each context of a launch, placed one after the other from context i on, can be marked as holding nothing (R309, R314): the hub's write of eight zero bytes is not refused. -/
def AreasMarked (r : LaunchRec) (k : Kernel) (n : Nat) : State → List (Nat × Nat) → Nat → Prop
  | _, [], _ => True
  | s, p :: l, i =>
    let u := if k.fused then s.fuse (clusterOf p.1) r.rank else s
    let c := u.newCtx r.rank (some r.id) k p r.args (r.base + i) n
    ∃ x t, ({ u with nextId := u.nextId + 1, ctxs := tabSet u.ctxs u.nextId c } : State).hubPut r.rank (c.msave.toNat + 0x24200) (List.replicate 8 0) = .ok x t ∧
      AreasMarked r k n t l (i + 1)

/-- `s` with a launch of a kernel accepted: its reservation made, its slice running, its record without contexts yet (R167, R324, R409). -/
def withLaunch (s : State) (r : LaunchRec) (k : Kernel) : State :=
  { s with
    ranks := tabModify s.ranks r.rank fun x => { x with reserved := x.reserved + k.maxchild }
    running := tabSet s.running (s.vf r.vf).part r.vf
    launches := s.launches ++ [⟨r.id, r.rank, r.vf, r.src, r.code, r.base, r.event, [], k.maxchild, 0, k.fused⟩] }

end Sys2Proof.Spec

/-- R25, R157, R164, R313: EXIT of a context that is no evaluator and has no report or failure to leave behind ends it: its results in flight are discarded and it leaves its groups and queues; unless a command of its own still uses its window it gives up its place and the matrix state; what it has outstanding runs on, memory keeps its bytes, and no other context changes. R246: one that is the evaluator of a cell still DEVELOPING, at which nothing waits, leaves the cell FAULTED; one whose cell is no longer its to develop changes no cell. -/
def Sys2Proof.Spec.ExitEndsTheContext : Prop :=
  (∀ (s : State) (e : EvalInfo), s.cx.eval = some e → s.cx.reports = [] → s.cx.waiting = [] → s.cx.failures = [] → s.cx.fw = none →
    ∃ t, exec .exit s = .next t ∧ t.cx.phase = .ended ∧
      (∀ x, tabGet s.cells e.cell = some x → x.eval = some s.cur → x.tag = .developing → x.readers = [] → x.cmds = [] →
        ∃ y, tabGet t.cells e.cell = some y ∧ y.tag = .faulted ∧ y.rank = x.rank ∧ y.va = x.va) ∧
      ((∀ x, tabGet s.cells e.cell = some x → x.eval ≠ some s.cur) → t.cells = s.cells ∧ t.mem = s.mem)) ∧
  ∀ (s : State), s.cx.eval = none → s.cx.reports = [] → s.cx.waiting = [] → s.cx.failures = [] → s.cx.fw = none →
    ∃ t, exec .exit s = .next t ∧ t.issue.xfer = some .exit ∧ t.cx.phase = .ended ∧ t.cx.inflight = [] ∧ t.cx.fw = none ∧
      t.cx.g = s.cx.g ∧ t.accs = s.accs ∧ t.cmds = s.cmds ∧ t.mem = s.mem ∧ t.wins = s.wins.filter (fun w => !(w.opener.1 == s.cur && w.opening)) ∧ (∀ k, k ≠ s.cur → t.ctx k = s.ctx k) ∧
      (∀ x ∈ t.groups, s.cur ∉ x.members ∧ s.cur ∉ x.next) ∧ (∀ k q, tabGet (t.rankOf s.cx.rank).queues k = some q → s.cur ∉ q.takers) ∧
      ((∀ c ∈ s.cmds, c.usesWindow s.cur = false) → t.cx.place = none ∧
        ∀ core hw, s.cx.place = some (core, hw) → (s.core core).mhwc.toNat = hw → (t.core core).mowner = 0xFFFF) ∧
      ((∃ c ∈ s.cmds, c.usesWindow s.cur = true) → t.cx.place = s.cx.place ∧ ∀ core, (t.core core).mowner = (s.core core).mowner)

/-- R156 to R159: GJOIN adds the context to the group, to its next phase while a barrier is pending, and faults QUOTA beyond 512 members, 8 groups of a context or 1,024 records; GLEAVE takes it out; GCNT counts members and joiners; no other group changes. GBAR of a context that is no member changes nothing; of a member with nothing outstanding it arrives once and is held; once released it lets the bundle issue, an acquire of scope device. -/
def Sys2Proof.Spec.GroupsAndArrivals : Prop :=
  ∀ (a : GR) (g : BitVec 10) (s : State),
    let n := groupNumOf s a g
    let x? := s.group? s.cx.rank n
    (x? = none → (8 ≤ groupsJoined s ∨ 1024 ≤ s.groups.length) → exec (.gjoin a g) s = .next (s.slotFault .quota 0)) ∧
    (x? = none → groupsJoined s < 8 → s.groups.length < 1024 → ∃ t, exec (.gjoin a g) s = .next t ∧ OnlyGroup s t n ∧
      t.group? s.cx.rank n = some ⟨s.cx.rank, n, 0, [s.cur], [], none, [], []⟩) ∧
    (x? = none → exec (.gleave a g) s = .next s ∧ (tabGet s.cx.held s.issue.slot = none → exec (.gbar a g) s = .next s) ∧ ∀ d, exec (.gcnt d a g) s = .next (pending s 1 (.g d 0))) ∧
    (∀ x, x? = some x →
      (∀ d, exec (.gcnt d a g) s = .next (pending s 1 (.g d (BitVec.ofNat 64 (x.members.length + x.next.length))))) ∧
      (¬MemberOf s x → exec (.gleave a g) s = .next s ∧
        (512 ≤ x.members.length + x.next.length ∨ 8 ≤ groupsJoined s → exec (.gjoin a g) s = .next (s.slotFault .quota 0)) ∧
        (x.members.length + x.next.length < 512 → groupsJoined s < 8 → ∃ t, exec (.gjoin a g) s = .next t ∧ OnlyGroup s t n ∧
          t.group? s.cx.rank n = some (if x.required.isSome then { x with next := x.next ++ [s.cur] } else { x with members := x.members ++ [s.cur] }))) ∧
      (MemberOf s x → exec (.gjoin a g) s = .next s ∧
        ∃ t, exec (.gleave a g) s = .next t ∧ OnlyGroup s t n ∧ ∀ y, t.group? s.cx.rank n = some y → ¬MemberOf s y ∧
          (∀ k, k ≠ s.cur → (k ∈ y.members ↔ k ∈ x.members) ∧ (k ∈ y.next ↔ k ∈ x.next)) ∧
          (∀ req, x.required = some req → s.cur ∈ req → s.cur ∈ y.arrived)) ∧
      (tabGet s.cx.held s.issue.slot = none → ¬MemberOf s x → exec (.gbar a g) s = .next s) ∧
      (tabGet s.cx.held s.issue.slot = none → Quiet s → s.cur ∈ x.members → s.cur ∉ x.next →
        ∃ t, exec (.gbar a g) s = .next t ∧ tabGet t.cx.held s.issue.slot = some (.barrier n x.phase) ∧
          t.group? s.cx.rank n = some { x with required := some (x.required.getD x.members), arrived := x.arrived ++ [s.cur] } ∧
          t = { s with groups := t.groups, ctxs := tabSet s.ctxs s.cur { s.cx with held := t.cx.held } }) ∧
      (tabGet s.cx.held s.issue.slot = some .released → ∃ t, exec (.gbar a g) s = .next t ∧ tabGet t.cx.held s.issue.slot = none ∧
        t = { s with cores := t.cores, ctxs := tabSet s.ctxs s.cur { s.cx with held := t.cx.held } }))

/-- R158: once every context of the required set has arrived the barrier completes: the joiners are members of the next phase, and each context held at this phase's barrier is released, in its saved sets too; nothing else of a context changes. -/
def Sys2Proof.Spec.BarrierReleasesItsSet : Prop :=
  ∀ (rank n : Nat) (s : State) (x : Group) (req : List Nat), s.group? rank n = some x → x.required = some req → (∀ k ∈ req, k ∈ x.arrived) → x.members ++ x.next ≠ [] →
    ∃ t, exec (.barrierComplete rank n) s = .next t ∧ t = { s with groups := t.groups, ctxs := t.ctxs } ∧
      t.group? rank n = some { x with phase := x.phase + 1, members := x.members ++ x.next, next := [], required := if x.nextArrived = [] then none else some (x.members ++ x.next),
                                      arrived := x.nextArrived, nextArrived := [] } ∧
      let free (l : Tab Held) : Tab Held := l.map fun e => (e.1, if e.2 = .barrier n x.phase then .released else e.2)
      (∀ k, k ∈ req → (t.ctx k).held = free (s.ctx k).held ∧ (t.ctx k).saveU = (s.ctx k).saveU.map (fun v => { v with held := free v.held }) ∧
        (t.ctx k).saveS = (s.ctx k).saveS.map fun v => { v with held := free v.held }) ∧
      (∀ k, k ∉ req → t.ctx k = s.ctx k) ∧
      (∀ k, (t.ctx k).g = (s.ctx k).g ∧ (t.ctx k).pc = (s.ctx k).pc ∧ (t.ctx k).inflight = (s.ctx k).inflight)

/-- R161 to R163: a QPOST at a mapped multiple of 64 of a queue that is not full becomes outstanding on ST with its read and its post; of a full queue it changes nothing: the bundle is held. A QTAKE of a queue with records, none of them on its way to another device's memory for a take before it, with nothing outstanding, takes the oldest: its 64 bytes stand at A, every other byte is as before, and zero is in flight for its register; of an empty queue it becomes a taker and waits; of a terminated one all ones are in flight. A misaligned A faults MISALIGNED, before its range is looked at (the model's choice, log 69). -/
def Sys2Proof.Spec.QueuesPostAndTake : Prop :=
  ∀ (a d : GR) (k : QR) (s : State) (e : TlbEntry),
    let A := (s.rg a).toNat
    let q := queueOf s k.toNat
    (A % 64 ≠ 0 → exec (.qpost a k) s = .next (s.slotFault .misaligned (s.rg a)) ∧ exec (.qtake a d k) s = .next (s.slotFault .misaligned (s.rg a))) ∧
    (A % 64 = 0 → A < 2 ^ 48 → Mapped s .read e A 64 →
      (q.recs.length < 4096 → exec (.qpost a k) s = .next (withAccess s (recordForm s a .read (.post k.toNat))
        (partsThrough e (recordForm s a .read (.post k.toNat)) ++ [⟨0, 0, false, [], [], .waiting⟩]))) ∧
      (4096 ≤ q.recs.length → exec (.qpost a k) s = .next s)) ∧
    (A % 64 = 0 → A < 2 ^ 48 → Mapped s .write e A 64 → tabGet s.cx.held s.issue.slot = none → (tabGet s.ranks s.cx.rank).isSome = true →
      (q.recs = [] → q.terminated = false → ∃ t, exec (.qtake a d k) s = .next t ∧ tabGet t.cx.held s.issue.slot = some (.taker k.toNat) ∧
        s.cur ∈ (queueOf t k.toNat).takers ∧ (queueOf t k.toNat).recs = [] ∧ SameMemory s t ∧ t.cx.inflight = s.cx.inflight ∧ t.cx.g = s.cx.g) ∧
      (q.recs = [] → q.terminated = true → ∃ t, exec (.qtake a d k) s = .next t ∧ t.cx.inflight = s.cx.inflight ++ [⟨s.cx.step + 1, .g d (BitVec.allOnes 64)⟩] ∧ SameMemory s t) ∧
      (∀ r rest, q.recs = r :: rest → q.taking = none → r.length = 64 → Quiet s → paRemote (e.pa + (A - e.va)) = false → (∀ w ∈ s.wins, w.rank ≠ s.cx.rank) → s.cells = [] → s.bad = [] →
        s.mem.wf = true →
        ∃ t, exec (.qtake a d k) s = .next t ∧ t.cx.inflight = s.cx.inflight ++ [⟨s.cx.step + 1, .g d 0⟩] ∧ (queueOf t k.toNat).recs = rest ∧ s.cur ∈ (queueOf t k.toNat).takers ∧
          (∀ j, j < 64 → t.mem.get (e.pa + (A - e.va) + j) = r.getD j 0) ∧
          (∀ x, x < e.pa + (A - e.va) ∨ e.pa + (A - e.va) + 64 ≤ x → t.mem.get x = s.mem.get x)))

/-- R164: an empty queue whose takers are all held on it, with no post outstanding, terminates: each taker's wait is answered with the sentinel. -/
def Sys2Proof.Spec.EmptyQueueTerminates : Prop :=
  ∀ (rank k : Nat) (s : State) (q : Queue), tabGet (s.rankOf rank).queues k = some q → q.recs = [] → q.takers ≠ [] → q.terminated = false →
    (∀ a ∈ s.accs, a.rank = rank → a.kind ≠ .post k) → (∀ c ∈ q.takers, ∃ e ∈ (s.ctx c).held, e.2 = .taker k) →
    ∃ t, exec (.queueTermination rank k) s = .next t ∧ tabGet (t.rankOf rank).queues k = some { q with terminated := true } ∧ SameMemory s t ∧
      (∀ c, (t.ctx c).held = if c ∈ q.takers then (s.ctx c).held.map (fun e => (e.1, if e.2 = .taker k then .sentinel else e.2)) else (s.ctx c).held) ∧
      (∀ c, (t.ctx c).g = (s.ctx c).g ∧ (t.ctx c).pc = (s.ctx c).pc)

/-- R165, R166, R409: a LAUNCH whose descriptor has been read and that waits for nothing is accepted: its record enters the child queue of its virtual function, or with that full or stopped the parking area of its rank within its launch's reservation, or else it faults QUOTA; while a parked record of the same virtual function could enter the child queue it is held behind that. Before that it makes the read and is held. A misaligned A faults MISALIGNED, before its range is looked at (the model's choice, log 69). A parked record enters the child queue once there is room. -/
def Sys2Proof.Spec.LaunchIsAcceptedOrRefused : Prop :=
  (∀ (a : GR) (s : State) (e : TlbEntry),
    let A := (s.rg a).toNat
    let v := (s.rankOf s.cx.rank).vf
    let room : Prop := (s.vf v).childq.length < 64 ∧ (s.vf v).halted = false
    (A % 32 ≠ 0 → exec (.launch a) s = .next (s.slotFault .misaligned (s.rg a))) ∧
    (A % 32 = 0 → A < 2 ^ 48 → Mapped s .read e A 32 →
      (tabGet s.cx.held s.issue.slot = none → ∃ t, exec (.launch a) s = .next t ∧ tabGet t.cx.held s.issue.slot = some (.read s.nextId) ∧ SameMemory s t ∧
        t.accs.length = s.accs.length + 1 ∧ t.vfs = s.vfs ∧ t.ranks = s.ranks) ∧
      (∀ l id, s.heldBytes? = some (l, id) → s.mustWait (.fence .release) none true [] = false →
        (room → (∃ x ∈ s.ranks, x.2.vf = v ∧ x.2.parked ≠ []) → exec (.launch a) s = .next s) ∧
        (room → (∀ x ∈ s.ranks, x.2.vf = v → x.2.parked = []) → ∃ t r, exec (.launch a) s = .next t ∧ IsChild s l r ∧ (t.vf v).childq = (s.vf v).childq ++ [r] ∧ tabGet t.cx.held s.issue.slot = none ∧ SameMemory s t ∧
          t.ranks = s.ranks ∧ t.cx.inflight = s.cx.inflight) ∧
        (¬room → ∀ L, s.cx.launch = some L.id → s.launch? L.id = some L →
          (L.parked < L.maxchild → (tabGet s.ranks s.cx.rank).isSome = true → ∃ t r, exec (.launch a) s = .next t ∧ IsChild s l r ∧
            (t.rankOf s.cx.rank).parked = (s.rankOf s.cx.rank).parked ++ [r] ∧ t.vfs = s.vfs ∧ SameMemory s t) ∧
          (L.maxchild ≤ L.parked → ∃ t, exec (.launch a) s = .next t ∧ t.issue.trapped = true ∧ t.vfs = s.vfs ∧ t.ranks = s.ranks ∧ t.cx.status.toNat / 2 ^ 16 % 2 ^ 8 = 0x10))))) ∧
  (∀ (rank : Nat) (s : State) (r : LaunchRec) (l : List LaunchRec), (s.rankOf rank).parked = r :: l → (s.vf r.vf).childq.length < 64 → (s.vf r.vf).halted = false →
    ∃ t, exec (.parkedLaunchDrain rank) s = .next t ∧ (t.vf r.vf).childq = (s.vf r.vf).childq ++ [r] ∧ (t.rankOf rank).parked = l ∧ SameMemory s t ∧ t.ctxs = s.ctxs)

/-- R24, R167, R171, R179, R181, R409: a launch that passes its checks and finds its places starts all its contexts: its record lists as many as it asks for, and the i-th of them is there, in the state of R24 with its argument and its number, where every save area can be marked; one whose area cannot be ends at once (R309). LAUNCH_PLACEMENT starts the one at the head of a queue in its turn, and CHILD_QUEUE_START that of a child queue; one that fails its checks stops its host queue. A launch whose contexts have all ended, with nothing left outstanding, completes: it and its contexts are gone, and the event word it names, if any, has gone up by one; no budget may hold the word back (R323). -/
def Sys2Proof.Spec.LaunchesStartAndComplete : Prop :=
  (∀ (s : State) (r : LaunchRec) (places : List (Nat × Nat)) (t : State), s.startLaunch r places = .placed t →
    ∃ h n u, s.checkLaunch r = .ok h n u ∧
      (s.launch? r.id = none → ∃ L ∈ t.launches, L.id = r.id ∧ L.rank = r.rank ∧ L.event = r.event ∧ L.ctxs.length = n ∧
        (∀ i k, L.ctxs[i]? = some k → ∃ c, tabGet t.ctxs k = some c ∧ (c.phase = .ended ∨ StartsAs c r h i n)) ∧
        (AreasMarked r h.kernel n (withLaunch u r h.kernel)
            (if places = [] then (u.freePlaces (u.vf r.vf).part r.rank h.kernel.banks h.kernel.fused).take n else places) 0 →
          ∀ i k, L.ctxs[i]? = some k → ∃ c, tabGet t.ctxs k = some c ∧ StartsAs c r h i n)) ∧
      ∀ k c, tabGet t.ctxs k = some c → tabGet u.ctxs k ≠ some c → c.phase = .ended ∨ ∃ i, i < n ∧ StartsAs c r h i n) ∧
  (∀ (id vf q : Nat) (places : List (Nat × Nat)) (s : State) (r : LaunchRec), s.launchHead? id = some (vf, q, r) → s.turn vf q = true →
    (∀ t, s.startLaunch r places = .placed t → ∃ u, exec (.launchPlacement id places) s = .next u ∧ u.ctxs = t.ctxs ∧ u.mem = t.mem ∧ (u.cmdQueue vf q).head = .idle ∧
      r.id ∈ (u.cmdQueue vf q).running) ∧
    (∀ code w, s.startLaunch r places = .refused code w → ∃ u, exec (.launchPlacement id places) s = .next u ∧ u.ctxs = s.ctxs ∧ (u.cmdQueue vf q).state = 2 ∧ (u.cmdQueue vf q).head = .idle)) ∧
  (∀ (vf : Nat) (s t : State) (r : LaunchRec) (l : List LaunchRec), (s.vf vf).childq = r :: l → s.childTurn vf = true → s.served? vf = true → s.startLaunch r [] = .placed t →
    ∃ u, exec (.childQueueStart vf) s = .next u ∧ u.ctxs = t.ctxs ∧ u.mem = t.mem ∧ u.launches = t.launches ∧ (u.vf vf).childq = l) ∧
  (∀ (id : Nat) (s : State) (L : Launch), s.launch? id = some L → (∀ k ∈ L.ctxs, (s.ctx k).alive = false ∧ s.outstanding k = false) →
    (L.event ≠ 0 → s.wordHeld L.vf L.rank L.event = false) →
    ∃ t, exec (.launchComplete id) s = .next t ∧ (∀ M ∈ t.launches, M.id ≠ id) ∧ (∀ k ∈ L.ctxs, tabGet t.ctxs k = none) ∧
      (L.event = 0 → t.mem = s.mem) ∧
      (∀ u v, L.event % 8 = 0 → L.event ≠ 0 → s.hubAdd L.rank L.event 1 (some (L.rank, L.eventRecord)) = .ok u v → t.mem = v.mem))

namespace Sys2Proof.Spec

open Sys2Proof Sys2Proof.Machine

/-- Context k runs on a core, in U mode and in no handler: a boundary at which it can take a cause (R292). -/
def AtBoundary (s : State) (k : Nat) : Prop :=
  (s.ctx k).phase = .live ∧ (s.ctx k).place.isSome = true ∧ (s.ctx k).fw = none ∧ (s.ctx k).mode = false ∧ (s.ctx k).uh = false ∧ (s.ctx k).rpos < 128 ∧ (s.ctx k).sres < 8

/-- No bundle is passed over before the next issue of context k (R72). -/
def NothingPassed (s : State) (k : Nat) : Prop := s.atIssue k = { s with cur := k, issue := ⟨0, false, none, 0, s.nextId, false, none⟩ }

/-- Context k has trapped at a boundary (R290, R292, R293): what its trap registers hold, and what stays. -/
def TrappedAt (s u : State) (k cause addr : Nat) : Prop :=
  Recorded (u.ctx k).status cause 0 (s.ctx k).rpos (s.ctx k).sres ∧ (u.ctx k).faddr.toNat = addr ∧ (u.ctx k).epc = BitVec.ofNat 64 (s.ctx k).pc ∧ SetAside (u.ctx k) ∧
    (u.ctx k).g = (s.ctx k).g ∧ (u.ctx k).v = (s.ctx k).v ∧ SameMemory s u ∧ ∀ j, j ≠ k → u.ctx j = s.ctx j

/-- Nothing asks context k to give way. -/
def NoPreempt (s : State) (k : Nat) : Prop := (s.ctx k).preempt = false ∧ ∀ x ∈ s.cuts, x.rank ≠ (s.ctx k).rank

/-- The 64 bytes of a report (R299). -/
def recordBytes (r : Report) : List Byte :=
  let f (n x : Nat) : List Byte := (List.range n).map (byteAt x)
  f 1 r.cause ++ f 1 r.kind ++ f 2 r.opc ++ f 4 r.ctxid ++ f 8 r.faddr ++ f 8 r.epc ++ f 8 r.detail ++ f 8 r.seq ++ f 8 r.code ++ f 1 r.action ++ f 15 0

/-- The records of the save area: those of the reports, oldest first, and records of zeros behind them (R298). -/
def recordArea (l : List Report) : List Byte := (l.flatMap recordBytes) ++ List.replicate (512 - 64 * l.length) 0

/-- The bundle that context k issues next is one without Q. -/
def NextIsOrdinary (s : State) (k : Nat) : Prop := (s.atIssue k).passing = false ∧ ∃ b ws u, (s.atIssue k).bundleAt (s.ctx k).pc = .ok b ws u ∧ b.hdr.quiet = false

end Sys2Proof.Spec

/-- R289, R292, R293, R297, R298, R307, R316, R318: at a boundary a context takes the first cause due: the oldest failure found after issue, with its address; else PREEMPT when it is to give way; else BUDGET_EXCEEDED once its U-mode issues have reached its budget; else CUT_OVERRUN once as many have passed since its last quiet issue as its cut bound allows and the next is not quiet; else MATRIX_SWITCH when results due now, or results restored with it, would land on matrix state that it does not own. Each is recorded with the resumption point of the issue about to be made, and enters S mode, but that a U cause goes to the kernel's handler. ASYNC takes the pending reports with it, gives sys.faddr the address of the oldest, and writes them as the eight records of the save area at sys.msave + 0x24000, the rest zero; it ends the context where those cannot be written. -/
def Obligations.BoundaryCausesAreTakenInOrder : Prop :=
  ∀ (s : State) (k : Nat), AtBoundary s k → NothingPassed s k →
    let c := s.ctx k
    (∀ f rest, c.failures = f :: rest → f.cause ≠ .async → f.cause ≠ .preempt → f.cause ≠ .budgetExceeded → f.cause ≠ .cutOverrun → f.cause ≠ .matrixSwitch →
      ∃ u, exec (.boundaryFailureTrap k) s = .next u ∧ TrappedAt s u k f.cause.code (f.addr % 2 ^ 64) ∧ (u.ctx k).failures = rest ∧
        (f.cause.isU = true → c.kernel.handler ≠ 0 → (u.ctx k).mode = false ∧ (u.ctx k).uh = true ∧ (u.ctx k).pc = c.kernel.code + c.kernel.handler) ∧
        (f.cause.isU = false ∨ c.kernel.handler = 0 → (u.ctx k).mode = true ∧ (u.ctx k).fw = some (.terminate 0))) ∧
    (∀ f rest, c.failures = f :: rest → f.cause = .async →
      let put := ((s.atIssue k).asyncTaken rest).hubPut c.rank (c.msave.toNat + 0x24000) (recordArea c.reports)
      (∀ x w, put = .ok x w → ∃ u, exec (.asyncTrap k) s = .next u ∧ u.mem = w.mem ∧ (u.ctx k).phase = .live ∧
        (u.ctx k).mode = true ∧ Recorded (u.ctx k).status 0x12 0 c.rpos c.sres ∧ (u.ctx k).faddr.toNat = ((c.reports.head?.map (·.faddr)).getD 0) % 2 ^ 64 ∧
        (u.ctx k).fw = some (.async (c.reports.map fun r => (r, none, none)) false) ∧ (c.waiting = [] → (u.ctx k).reports = [] ∧ (u.ctx k).failures = rest) ∧ (u.ctx k).g = c.g) ∧
      (∀ e a, put = .fail e a → ∃ u, exec (.asyncTrap k) s = .next u ∧ (u.ctx k).phase = .ended)) ∧
    (c.failures = [] →
      (c.preempt = true → ∃ u, exec (.preempt k) s = .next u ∧ TrappedAt s u k 0x17 0 ∧ (u.ctx k).mode = true ∧ (u.ctx k).fw = some .preempt) ∧
      (NoPreempt s k → c.sres ≠ 7 →
        (c.kernel.budget ≤ c.issues → ∃ u, exec (.budgetExceeded k) s = .next u ∧ TrappedAt s u k 0x0F 0 ∧ (u.ctx k).mode = true ∧ (u.ctx k).fw = some (.terminate 0)) ∧
        (c.issues < c.kernel.budget →
          (c.kernel.cutbound ≤ c.sinceQuiet → NextIsOrdinary s k →
            ∃ u, exec (.cutOverrun k) s = .next u ∧ TrappedAt s u k 0x0D 0 ∧ (u.ctx k).mode = true ∧ (u.ctx k).fw = some (.terminate 0)) ∧
          (c.sinceQuiet < c.kernel.cutbound → c.mwait = true ∨ (∃ l ∈ c.inflight, l.eff.onMatrix = true ∧ l.due ≤ c.step) →
            ((s.core c.coreNum).mowner = 0xFFFF ∨ (s.core c.coreNum).mhwc.toNat ≠ c.hw) →
            ∃ u, exec (.matrixSwitch k) s = .next u ∧ TrappedAt s u k 0x07 0 ∧ (u.ctx k).mode = true ∧ (u.ctx k).fw = some .matrixSwitch))))

/-- R313 to R315: the firmware's MATRIX_SWITCH for a context that has trapped, on a core whose matrix state is clean or unowned, gives the context the matrix state: as its save area holds it, all zero where that holds none; owner, hardware context and a clear dirty bit say so, and the context is back at the instruction that trapped. -/
def Sys2Proof.Spec.MatrixSwitchGivesTheState : Prop :=
  ∀ (s : State) (k : Nat) (v : SaveSet) (st : List Byte) (u : State),
    let c := s.ctx k
    let n := c.coreNum
    c.phase = .live → c.place.isSome = true → c.fw = some .matrixSwitch → c.mode = true → c.saveS = some v → c.inflight = [] → v.inflight = [] → c.hw < 4 →
    ((s.core n).mowner = 0xFFFF ∨ (s.core n).mdirty = false) → (State.keepAct { s with cur := k }).hubGet c.rank (c.msave.toNat + 0x24200) 8 = .ok st u →
    let given (t : State) : Prop := (t.core n).mowner.toNat = c.ctxid.toNat % 2 ^ 16 ∧ (t.core n).mhwc.toNat = c.hw ∧ (t.core n).mdirty = false ∧
      (t.ctx k).mode = false ∧ (t.ctx k).fw = none ∧ (t.ctx k).pc = c.epc.toNat ∧ (t.ctx k).g = c.g
    ((leNat st) % 2 = 0 → ∃ t, exec (.matrixSwitch k) s = .next t ∧ given t ∧
      (∀ i : Fin 128, (t.core n).mat.acc[i] = 0) ∧ (t.core n).mat.ovf = false ∧ (t.core n).mat.sat = false ∧ (t.core n).mat.lcur = 0 ∧ (t.core n).mat.scur = 0) ∧
    (∀ l w, (leNat st) % 2 = 1 → u.hubGet c.rank c.msave.toNat 147456 = .ok l w → l.length = 147456 →
      ∃ t, exec (.matrixSwitch k) s = .next t ∧ given t ∧ ∀ i, i < 0x20000 → imageOf (t.core n).mat i = (l.getD i 0).toNat)

/-- R307, R308, R310: PREEMPT first asks a running context to give way; once it has trapped for it, with no load left and no matrix state dirty, it is evicted: its image and its window are written to its save slot, and its hardware context is free; it ends where they cannot be written (R309). The bytes of the image are the model's free values (log 1). RESTORATION of one that may return and whose save slot can be read gives it the place and its withdrawn loads; with nothing else to do the firmware returns to the held bundle. -/
def Sys2Proof.Spec.EvictionAndRestoration : Prop :=
  (∀ (s : State) (k : Nat), AtBoundary s k → NoPreempt s k → exec (.preempt k) s = .next { s with ctxs := tabSet s.ctxs k { s.ctx k with preempt := true } }) ∧
  (∀ (s : State) (k : Nat), (s.ctx k).phase = .live → (s.ctx k).place.isSome = true → (s.ctx k).fw = some .preempt → (∀ a ∈ s.accs, a.ctx ≠ k) →
    ((s.core (s.ctx k).coreNum).mowner = 0xFFFF ∨ (s.core (s.ctx k).coreNum).mdirty = false) →
    let c := s.ctx k
    let d := (({ s with cur := k } : State).settleLaunch.withdrawLoads.giveMatrixUp).draw
    let image := d.2.hubPut c.rank (c.msave.toNat + 151552) ((List.range 65536).map (Config.anyByte d.1))
    (∀ x u, image = .ok x u →
      let window := u.hubPut c.rank (c.msave.toNat + 217088) ((List.range (65536 * c.kernel.banks)).map fun i => Config.anyByte d.1 (65536 + i))
      (∀ y w, window = .ok y w → ∃ t, exec (.preempt k) s = .next t ∧ t.mem = w.mem ∧
        (t.ctx k).phase = .evicted ∧ (t.ctx k).place = none ∧ (t.ctx k).fw = some .ret ∧ (t.ctx k).g = c.g ∧ (t.ctx k).v = c.v ∧ (t.ctx k).window = c.window ∧
        (t.ctx k).pc = c.pc ∧ (t.ctx k).saveS.isSome = c.saveS.isSome) ∧
      (∀ e a, window = .fail e a → ∃ t, exec (.preempt k) s = .next t ∧ (t.ctx k).phase = .ended)) ∧
    (∀ e a, image = .fail e a → ∃ t, exec (.preempt k) s = .next t ∧ (t.ctx k).phase = .ended)) ∧
  (∀ (s : State) (k core hw : Nat) (u : State), s.mayRestore k core hw = true → (s.takePlace k core hw).readImage k = .ok () u →
    ∃ t, exec (.restoration k core hw) s = .next t ∧ (t.ctx k).phase = .live ∧ (t.ctx k).place = some (core, hw) ∧ t.mem = u.mem ∧ (∀ a ∈ t.withdrawn, a.ctx ≠ k) ∧
      (∀ a ∈ s.withdrawn, a.ctx = k → { a with core := core } ∈ t.accs) ∧
      ((s.ctx k).fw = some .ret → (s.ctx k).inflight = [] → (s.ctx k).mode = true → (t.ctx k).mode = false ∧ (t.ctx k).pc = (s.ctx k).epc.toNat ∧ (t.ctx k).fw = none) ∧
      ((s.ctx k).fw ≠ some .ret → t.ctx k = { s.ctx k with phase := .live, place := some (core, hw) })) ∧
  (∀ (s : State) (k core hw : Nat) e a, s.mayRestore k core hw = true → (s.takePlace k core hw).readImage k = .fail e a →
    ∃ t, exec (.restoration k core hw) s = .next t ∧ (t.ctx k).phase = .ended)

namespace Sys2Proof.Spec

open Sys2Proof Sys2Proof.Machine

/-- The command `l` of a code stands at the head of queue q of virtual function vf and is served next; `t` is the machine once its processor has read it. -/
def CommandServed (s : State) (vf q code : Nat) (l : List Byte) (t : State) : Prop :=
  s.turn vf q = true ∧ ∃ u, s.headCmd vf q = .cmd l u ∧ leNat (l.take 1) = code ∧
    t = u.noteServed (s.cmdQueue vf q).die ((s.cmdQueue vf q).cfg.toNat / 2 ^ 20 % 4) (vf * 16 + q) vf

/-- The rank in whose memory a queue lies. -/
def homeOf (s : State) (vf q : Nat) : Nat := vf * 65536 + (s.cmdQueue vf q).cfg.toNat / 2 ^ 32 % 2 ^ 16

/-- Field of n bytes of a command. -/
def opnd (l : List Byte) (off n : Nat) : Nat := leNat ((l.drop off).take n)

/-- CMP of WAITEV and IF (R176): the word w against the value v. -/
def CmpHolds (cmp w v : Nat) : Prop :=
  match cmp with
  | 0 => v ≤ w
  | 1 => w = v
  | 2 => w ≠ v
  | _ => w < v

/-- Where a queue stands that has come to a position with some bodies active, innermost first (R176, R177): one whose end it has reached begins its next run, or has had its last and is left. -/
def bodiesAt (pos : Nat) : List QLoop → Nat × List QLoop
  | [] => (pos, [])
  | b :: l =>
    if (pos + 2 ^ 32 - b.start) % 2 ^ 32 < b.len then (pos, b :: l)
    else if 1 < b.left then (b.start, { b with left := b.left - 1 } :: l)
    else bodiesAt pos l

/-- The queue has gone on to the command n behind the one at its head. -/
def GoneOn (s u : State) (vf q n : Nat) : Prop :=
  ((u.cmdQueue vf q).cons, (u.cmdQueue vf q).loops) = bodiesAt (((s.cmdQueue vf q).cons + n) % 2 ^ 32) (s.cmdQueue vf q).loops ∧
    (u.cmdQueue vf q).head = .idle ∧ (u.cmdQueue vf q).prod = (s.cmdQueue vf q).prod

/-- The sorting office has a way to a device by a port that has not failed (R340, R382). -/
def HasRoute (s : State) (dev : Nat) : Prop := dev ≠ Config.ownDevice ∧ ∃ p ∈ tabGetD s.routes dev [], p ∉ s.failedPorts

/-- The register page of a virtual function answers (R406). -/
def PageUp (s : State) (vf : Nat) : Prop := s.hub.devstat = 7 ∧ vf < 192

/-- Window w of virtual function vf lets the host reach n bytes at an offset, in a rank at a virtual address (R390). -/
def HostReaches (s : State) (vf w off n : Nat) (write : Bool) (rank va : Nat) : Prop :=
  PageUp s vf ∧ 1 ≤ n ∧ ∃ vbase size vk flags, (s.vf vf).wins[w]? = some (vbase, size, vk, flags) ∧ off + n ≤ 65536 * size ∧ flags % 2 = 1 ∧
    (write = true → flags / 2 % 2 = 1) ∧ rank = vf * 65536 + vk ∧ (tabGet s.ranks rank).isSome = true ∧ va = vbase + off

/-- A record of 32 bytes has entered a mailbox of local memory and the producer index has gone up (R380). -/
def Posted (s t : State) (box vf : Nat) (r : List Byte) : Prop :=
  let prod := s.mem.readLE box 8
  (∀ i, i < 32 → t.mem.get (box + 32 + 32 * (prod % 64) + i) = r.getD i 0) ∧ t.mem.readLE box 8 = (prod + 1) % 2 ^ 64 ∧
    (∀ x, ¬(box ≤ x ∧ x < box + 8) → ¬(box + 32 + 32 * (prod % 64) ≤ x ∧ x < box + 64 + 32 * (prod % 64)) → t.mem.get x = s.mem.get x) ∧
    t.messages = (vf, (prod + 1) % 2 ^ 64) :: s.messages

/-- A mailbox of local memory with room. -/
def HasRoom (s : State) (box : Nat) : Prop :=
  box ≠ 0 ∧ box % 32 = 0 ∧ paRange box 2080 = true ∧ (s.mem.readLE box 8 + 2 ^ 64 - s.mem.readLE (box + 8) 8) % 2 ^ 64 < 64

end Sys2Proof.Spec

/-- R175 to R177: the commands of a command queue: LAUNCH and LAUNCH.INDIRECT put their record at the head to wait for placement, the count of the latter being read when it starts; WAITEV holds the queue until its event word satisfies CMP; SIGNAL stores or adds, to a word of another device by a request for whose reply its queue waits, or stops the queue where no route leads there; LOOP and IF enter their body, pass it over, or as a fifth level stop the queue; COPY moves its bytes; TLBINV leaves no translation of its range; HOLDPOINT records the position behind it. A command that is over takes the queue to the next one, with the bodies that end there left or begun again. That the pieces of a COPY are those of one line of each side, that the consumer index stays at a held WAITEV, that a body which the position has passed ends, and that a count of 0 refuses its launch are the model's choices (logs 15 and 19). -/
def Obligations.QueueCommandsDoTheirWork : Prop :=
  ∀ (s t : State) (vf q : Nat) (l : List Byte), (s.cmdQueue vf q).loops.length ≤ 4 →
    let home := homeOf s vf q
    let me := vf * 16 + q
    let depth := (s.cmdQueue vf q).loops.length
    (CommandServed s vf q 1 l t → ∃ u r, exec (.cmdLaunch vf q) s = .next u ∧ (u.cmdQueue vf q).head = .launch r ∧ r.rank = vf * 65536 + opnd l 2 2 ∧ r.code = opnd l 8 8 ∧
      r.args.toNat = opnd l 0x10 8 ∧ r.event = opnd l 0x18 8 ∧ r.status = opnd l 0x20 8 ∧ r.nctx = opnd l 0x28 4 ∧ r.base = opnd l 0x2C 4 ∧ r.nptr = none ∧ u.mem = t.mem ∧ u.ctxs = t.ctxs) ∧
    (CommandServed s vf q 2 l t →
      ∃ u r, exec (.cmdLaunchIndirect vf q) s = .next u ∧ (u.cmdQueue vf q).head = .launch r ∧ r.rank = vf * 65536 + opnd l 2 2 ∧ r.code = opnd l 8 8 ∧ r.args.toNat = opnd l 0x10 8 ∧
        r.event = opnd l 0x18 8 ∧ r.status = opnd l 0x20 8 ∧ r.base = opnd l 0x2C 4 ∧ r.nptr = some (opnd l 0x30 8) ∧ u.mem = t.mem ∧ u.ctxs = t.ctxs) ∧
    (∀ (r : LaunchRec) a w v, r.nptr = some a → t.cpGet r.owner r.rank a 4 = .ok w v →
      t.launchCount r = if leNat w = 0 then .fail .permission a else .ok (some (leNat w)) v) ∧
    (CommandServed s vf q 3 l t → ∀ w v, t.cpGet me home (opnd l 8 8) 8 = .ok w v →
      ∃ u, exec (.waitev vf q) s = .next u ∧ (u.cmdQueue vf q).head = .waitev (opnd l 8 8) (BitVec.ofNat 64 (opnd l 0x10 8)) (opnd l 0x18 1) ∧
        (u.cmdQueue vf q).cons = (s.cmdQueue vf q).cons) ∧
    (∀ addr value cmp w v, (s.cmdQueue vf q).head = .waitev addr value cmp → s.served? vf = true → s.cpGet me home addr 8 = .ok w v →
      (CmpHolds cmp (leNat w) value.toNat → ∃ u, exec (.waitevSatisfied vf q) s = .next u ∧ GoneOn s u vf q 1) ∧
      (¬CmpHolds cmp (leNat w) value.toNat → exec (.waitevSatisfied vf q) s = .next (s.dropFar me))) ∧
    (CommandServed s vf q 4 l t →
      (∀ x v, opnd l 0x18 1 = 0 → t.hubPut home (opnd l 8 8) (leBytes 8 (opnd l 0x10 8)) = .ok x v → ∃ u, exec (.signal vf q) s = .next u ∧ u.mem = v.mem ∧ GoneOn s u vf q 1) ∧
      (∀ x v, opnd l 0x18 1 = 1 → t.hubAddHere home (opnd l 8 8) (BitVec.ofNat 64 (opnd l 0x10 8)) = .ok x v →
        ∃ u, exec (.signal vf q) s = .next u ∧ u.mem = v.mem ∧ GoneOn s u vf q 1) ∧
      (∀ pa v, t.hubTranslate home (opnd l 8 8) .write = some (pa, v) → paRemote pa = true → t.portHeld vf (paDevice pa) = false →
        (HasRoute v (paDevice pa) → paLocal (paOnDevice pa) = true →
          ∃ u, exec (.signal vf q) s = .next u ∧ u.mem = v.mem ∧ (u.cmdQueue vf q).cons = (s.cmdQueue vf q).cons ∧
            ∃ tag r, (u.cmdQueue vf q).head = .adding tag (opnd l 8 8) ((opnd l 1 1).testBit 1) ∧ tabGet u.remote tag = some r ∧ r.pkt.dev = paDevice pa) ∧
        (¬HasRoute v (paDevice pa) → ∃ u, exec (.signal vf q) s = .next u ∧ u.mem = v.mem ∧ (u.cmdQueue vf q).state = 3))) ∧
    (CommandServed s vf q 5 l t → ∀ w v, t.cpGet me home (opnd l 8 8) 4 = .ok w v →
      (leNat w = 0 → ∃ u, exec (.cmdLoop vf q) s = .next u ∧ GoneOn s u vf q (1 + opnd l 0x10 1)) ∧
      (leNat w ≠ 0 → depth < 4 → ∃ u, exec (.cmdLoop vf q) s = .next u ∧ (u.cmdQueue vf q).cons = ((s.cmdQueue vf q).cons + 1) % 2 ^ 32 ∧
        (u.cmdQueue vf q).loops = ⟨true, ((s.cmdQueue vf q).cons + 1) % 2 ^ 32, opnd l 0x10 1, leNat w⟩ :: (s.cmdQueue vf q).loops) ∧
      (leNat w ≠ 0 → depth = 4 → ∃ u, exec (.cmdLoop vf q) s = .next u ∧ (u.cmdQueue vf q).state = 3)) ∧
    (CommandServed s vf q 6 l t → ∀ w v, t.cpGet me home (opnd l 8 8) 8 = .ok w v →
      (¬CmpHolds (opnd l 0x18 1) (leNat w) (opnd l 0x10 8) → ∃ u, exec (.cmdIf vf q) s = .next u ∧ GoneOn s u vf q (1 + opnd l 0x19 1)) ∧
      (CmpHolds (opnd l 0x18 1) (leNat w) (opnd l 0x10 8) → depth < 4 → ∃ u, exec (.cmdIf vf q) s = .next u ∧
        (u.cmdQueue vf q).loops = ⟨false, ((s.cmdQueue vf q).cons + 1) % 2 ^ 32, opnd l 0x19 1, 1⟩ :: (s.cmdQueue vf q).loops) ∧
      (CmpHolds (opnd l 0x18 1) (leNat w) (opnd l 0x10 8) → depth = 4 → ∃ u, exec (.cmdIf vf q) s = .next u ∧ (u.cmdQueue vf q).state = 3)) ∧
    (CommandServed s vf q 7 l t → (∀ x y n, (s.cmdQueue vf q).head ≠ .copy x y n) →
      ∃ u, exec (.cmdCopy vf q) s = .next u ∧ (u.cmdQueue vf q).head = .copy (opnd l 8 8) (opnd l 0x10 8) (opnd l 0x18 8) ∧ u.mem = t.mem) ∧
    (∀ src dst n, (s.cmdQueue vf q).head = .copy src dst n →
      (n = 0 → ∃ u, exec (.cmdCopy vf q) s = .next u ∧ GoneOn s u vf q 1 ∧ u.mem = s.mem) ∧
      (n ≠ 0 → s.cpHeld vf home src = true ∨ s.cpHeld vf home dst = true → exec (.cmdCopy vf q) s = .next s) ∧
      (∀ x v y w, n ≠ 0 → s.cpHeld vf home src = false → s.cpHeld vf home dst = false →
        let k := Min.min n (Min.min (128 - src % 128) (128 - dst % 128))
        s.cpGet me home src k = .ok x v → (v.cpSpend vf home src).cpPut me home dst x = .ok y w →
        ∃ u, exec (.cmdCopy vf q) s = .next u ∧ u.mem = w.mem ∧ (u.cmdQueue vf q).head = .copy (src + k) (dst + k) (n - k))) ∧
    (CommandServed s vf q 8 l t → (tabGet t.ranks (vf * 65536 + opnd l 2 2)).isSome = true →
      ∃ u, exec (.tlbinv vf q) s = .next u ∧ GoneOn s u vf q 1 ∧ u.mem = t.mem ∧
        ∀ c ∈ u.cores, ∀ e ∈ c.2.tlb, ¬(e.rank = vf * 65536 + opnd l 2 2 ∧ e.va < opnd l 8 8 + 65536 * opnd l 0x10 8 ∧ opnd l 8 8 < e.va + e.size)) ∧
    (CommandServed s vf q 9 l t →
      ∃ u, exec (.holdpoint vf q) s = .next u ∧ GoneOn s u vf q 1 ∧ (u.cmdQueue vf q).holdpoint = some (((s.cmdQueue vf q).cons + 1) % 2 ^ 32))

/-- R390: the host's accesses through a memory window complete with the bytes of the rank's memory, or write all of them; one that the window does not allow, or that fails, completes with an error and changes nothing but what the link that brings it enters into the journal when its transfer is sent again (R398). R393: the physical function's aperture reads and writes the bytes of device memory at their physical addresses; a write ends the guards of what it covers (R363) and meets the WAITMs that watch it (R233). -/
def Sys2Proof.Spec.HostWindowsReachMemory : Prop :=
  ∀ (s : State) (vf w off n : Nat) (bytes : List Byte) (rank va : Nat),
    let link := s.useLink 7 0
    (s.flips = [] → link = s) ∧
    (HostReaches s vf w off n false rank va →
      (∀ l t, link.hubGet rank va n = .ok l t → exec (.hostWindowRead vf w off n) s = .next { t with hostReplies := some l :: t.hostReplies }) ∧
      (∀ c a, link.hubGet rank va n = .fail c a → exec (.hostWindowRead vf w off n) s = .next { link with hostReplies := none :: s.hostReplies })) ∧
    (vf ≠ 192 → (∀ r v, ¬HostReaches s vf w off n false r v) → exec (.hostWindowRead vf w off n) s = .next { link with hostReplies := none :: s.hostReplies }) ∧
    (HostReaches s vf w off bytes.length true rank va →
      (∀ x t, link.hubPutWith false rank va bytes = .ok x t → exec (.hostWindowWrite vf w off bytes) s = .next { t with hostReplies := some [] :: t.hostReplies }) ∧
      (∀ c a, link.hubPutWith false rank va bytes = .fail c a → exec (.hostWindowWrite vf w off bytes) s = .next { link with hostReplies := none :: s.hostReplies })) ∧
    (vf ≠ 192 → (∀ r v, ¬HostReaches s vf w off bytes.length true r v) → exec (.hostWindowWrite vf w off bytes) s = .next { link with hostReplies := none :: s.hostReplies }) ∧
    (s.hub.devstat ≠ 0xE → s.bad = [] → s.flips = [] → s.mem.wf = true →
      (1 ≤ n → paRange off n = true → exec (.hostWindowRead 192 w off n) s = .next { s with hostReplies := some (s.mem.read off n) :: s.hostReplies }) ∧
      (1 ≤ bytes.length → paRange off bytes.length = true →
        ∃ t, exec (.hostWindowWrite 192 w off bytes) s = .next { t with hostReplies := some [] :: s.hostReplies } ∧
          exec (.registerWrite (.memory off bytes.length) (leNat bytes)) s = .next t ∧
          (∀ i, i < bytes.length → t.mem.get (off + i) = bytes.getD i 0) ∧ (∀ x, x < off ∨ off + bytes.length ≤ x → t.mem.get x = s.mem.get x) ∧
          t = { s with mem := t.mem, ranks := t.ranks, watches := t.watches })) ∧
    (s.hub.devstat = 0xE → exec (.hostWindowRead 192 w off n) s = .next { link with hostReplies := none :: s.hostReplies } ∧
      exec (.hostWindowWrite 192 w off bytes) s = .next { link with hostReplies := none :: s.hostReplies })

/-- R391, R395, R289: the register page of a virtual function: a doorbell moves the producer index ahead of the consumer by no more than the ring holds; QCTL restarts a stopped queue at or behind its stopped command or discards what is left; QCFG sets a queue up while it is disabled, idle whatever it was before, or leaves it disabled where its fields do not allow it, and disables one that does not run; FRACT answers the fault record of FRSEQ. Where the page does not answer, nothing changes. -/
def Sys2Proof.Spec.RegisterPagesControlQueues : Prop :=
  ∀ (s : State) (vf q : Nat), q < 8 →
    let x := s.cmdQueue vf q
    (PageUp s vf →
      (∀ v : W64,
        let ahead := (v.toNat % 2 ^ 32 + 2 ^ 32 - x.released) % 2 ^ 32
        (x.state ≠ 4 → 1 ≤ ahead → ahead ≤ x.cfg.toNat % 2 ^ 20 →
          ∃ u, exec (.doorbell vf q v) s = .next u ∧ (u.cmdQueue vf q).prod = v.toNat % 2 ^ 32 ∧ (u.cmdQueue vf q).cons = x.cons ∧ (u.cmdQueue vf q).head = x.head ∧ u.ctxs = s.ctxs ∧ u.mem = s.mem) ∧
        (ahead = 0 ∨ x.cfg.toNat % 2 ^ 20 < ahead → exec (.doorbell vf q v) s = .next s)) ∧
      (x.state = 2 ∨ x.state = 3 →
        (∃ u, exec (.qctlRestart vf q) s = .next u ∧ (u.cmdQueue vf q).state ≤ 1 ∧ (u.cmdQueue vf q).cons = x.cons ∧ (u.cmdQueue vf q).prod = x.prod) ∧
        (x.loops.length ≤ 4 → ∃ u, exec (.qctlRestartAfter vf q) s = .next u ∧ (u.cmdQueue vf q).state ≤ 1 ∧ GoneOn s u vf q 1) ∧
        (∃ u, exec (.qctlDiscard vf q) s = .next u ∧ (u.cmdQueue vf q).state ≤ 1 ∧ (u.cmdQueue vf q).cons = (if x.posted then x.prod else x.cons) ∧ (u.cmdQueue vf q).head = .idle ∧ (u.cmdQueue vf q).loops = [])) ∧
      (∀ cfg : W64, x.cfg.getLsbD 63 = false → cfg.getLsbD 63 = true → s.queueOk vf { x with cfg := cfg &&& 0x8000FFFF003FFFFF } = true →
        ∃ u, exec (.queueEnable vf q cfg) s = .next u ∧ (u.cmdQueue vf q).state = 0 ∧ (u.cmdQueue vf q).cons = 0 ∧ (u.cmdQueue vf q).prod = 0 ∧ (u.cmdQueue vf q).ring = x.ring ∧
          (u.cmdQueue vf q).cfg = cfg &&& 0x8000FFFF003FFFFF ∧ (u.cmdQueue vf q).loops = [] ∧ (u.cmdQueue vf q).holdpoint = none ∧ (u.cmdQueue vf q).running = []) ∧
      (∀ cfg : W64, x.cfg.getLsbD 63 = false → cfg.getLsbD 63 = true → s.queueOk vf { x with cfg := cfg &&& 0x8000FFFF003FFFFF } = false →
        ∃ u, exec (.queueEnable vf q cfg) s = .next u ∧ (u.cmdQueue vf q).state = 4 ∧ (u.cmdQueue vf q).cfg.getLsbD 63 = false) ∧
      (x.cfg.getLsbD 63 = true → x.state ≠ 1 → ∃ u, exec (.queueDisable vf q) s = .next u ∧ (u.cmdQueue vf q).state = 4 ∧ (u.cmdQueue vf q).cfg.getLsbD 63 = false ∧ u.mem = s.mem) ∧
      (x.cfg.getLsbD 63 = true → x.state = 1 → exec (.queueDisable vf q) s = .next s) ∧
      (∀ (k n : Nat) (c : Ctx), tabGet s.ctxs k = some c → (s.rankOf c.rank).vf = vf → (s.vf vf).frseq = n → c.fw = some (.awaitHost n none) →
        (∃ u, exec (.fractResume vf) s = .next u ∧ tabGet u.ctxs k = some { c with fw := some (.awaitHost n (some true)) }) ∧
        (∃ u, exec (.fractEnd vf) s = .next u ∧ tabGet u.ctxs k = some { c with fw := some (.awaitHost n (some false)) }))) ∧
    (¬PageUp s vf → (∀ v, exec (.doorbell vf q v) s = .next s ∧ exec (.queueEnable vf q v) s = .next s) ∧ exec (.qctlRestart vf q) s = .next s ∧ exec (.qctlRestartAfter vf q) s = .next s ∧
      exec (.qctlDiscard vf q) s = .next s ∧ exec (.queueDisable vf q) s = .next s ∧ exec (.fractResume vf) s = .next s ∧ exec (.fractEnd vf) s = .next s)

/-- R380, R381, R392: a waiting interrupt record of the present generation enters its mailbox where that has room, then the producer index goes up and a message is sent; one of an earlier generation is counted instead; while the mailbox is full, or has no address, it waits. MBOX and HVMBOX take an address, DLQCONS the host's index. That an address drops the bits below its alignment (log 48), and that the producer index is read from the mailbox's header at each record and a retrained link repeats the last message (log 49), are the model's choices. -/
def Obligations.MailboxesTakeRecords : Prop :=
  (∀ (s : State) (vf : Nat) (r : List Byte) (l : List (List Byte)), (s.vf vf).mwait = r :: l → r.length = 32 → s.mem.wf = true → s.bad = [] → s.flips = [] →
    let box := (s.vf vf).mbox.toNat
    (HasRoom s box → leNat ((r.drop 2).take 2) = (s.vf vf).gen → ∃ t, exec (.interruptRecord (some vf)) s = .next t ∧ Posted s t box vf r ∧ (t.vf vf).mwait = l) ∧
    (HasRoom s box → leNat ((r.drop 2).take 2) ≠ (s.vf vf).gen → ∃ t, exec (.interruptRecord (some vf)) s = .next t ∧ (t.vf vf).mwait = l ∧ t.messages = s.messages ∧
      t.mem.readLE (box + 0x10) 8 = (s.mem.readLE (box + 0x10) 8 + 1) % 2 ^ 64) ∧
    (box = 0 ∨ 64 ≤ (s.mem.readLE box 8 + 2 ^ 64 - s.mem.readLE (box + 8) 8) % 2 ^ 64 → exec (.interruptRecord (some vf)) s = .next s)) ∧
  (∀ (s : State) (r : List Byte) (l : List (List Byte)), s.hub.hvwait = r :: l → r.length = 32 → s.mem.wf = true → s.bad = [] → s.flips = [] →
    let box := s.hub.hvmbox.toNat
    (HasRoom s box → ∃ t, exec (.interruptRecord none) s = .next t ∧ Posted s t box 0xFFFF r ∧ t.hub = { s.hub with hvwait := l }) ∧
    (box = 0 ∨ 64 ≤ (s.mem.readLE box 8 + 2 ^ 64 - s.mem.readLE (box + 8) 8) % 2 ^ 64 → exec (.interruptRecord none) s = .next s)) ∧
  (∀ (s : State) (vf : Nat) (a : W64), (PageUp s vf → ∃ t, exec (.mbox vf a) s = .next t ∧ (t.vf vf).mbox.toNat = a.toNat / 32 * 32 ∧ t = { s with vfs := t.vfs }) ∧
    (s.hub.devstat ≠ 0xE → ∃ t, exec (.hvmbox a) s = .next t ∧ t.hub.hvmbox.toNat = a.toNat / 32 * 32 ∧ t = { s with hub := { s.hub with hvmbox := t.hub.hvmbox } })) ∧
  (∀ (s : State) (vf n : Nat) (before after : List (Nat × Nat)), s.messages = before ++ (vf, n) :: after → (∀ m ∈ before, m.1 ≠ vf) →
    exec (.jhlRetrain vf) s = .next { s with messages := (vf, n) :: s.messages }) ∧
  (∀ (s : State) (rank : Nat) (v : W32) (r : RankRec), tabGet s.ranks rank = some r → exec (.dlqcons rank v) s = .next { s with ranks := tabSet s.ranks rank { r with dlqcons := v.toNat } })

/-- R393, R399 to R404: registers of the hypervisor's space: JCONS, SEALCONS and CAP take their value; SEALREQ asks for a seal of the last entry, which takes the place of one that waits for room in the ring and of no other; the first seal that waits is written when its ring has room and SEALPROD goes up: its number, the last entry that it covers with the digest of that, the boot count, and zeros behind its signature; ATTREQ asks for a report, and once that is written reads 0: version 1, feature level 1.0, memory-model revision 1, the boot count, the nonce, the last entry with its digest; no other byte changes. The plain registers take what is written, without the bits below their alignment (the model's choice, log 48); a reserved offset ignores the write. -/
def Obligations.HypervisorRegistersAreWritten : Prop :=
  ∀ (s : State),
    (s.hub.devstat ≠ 0xE →
      (∀ v : W64, exec (.jcons v) s = .next { s with hub := { s.hub with jcons := v.toNat } } ∧ exec (.sealcons v) s = .next { s with hub := { s.hub with sealcons := v.toNat } } ∧
        exec (.cap v) s = .next { s with hub := { s.hub with cap := v } } ∧
        exec (.registerWrite .rkaddr v.toNat) s = .next { s with hub := { s.hub with rkaddr := v } } ∧
        exec (.registerWrite .sealn v.toNat) s = .next { s with hub := { s.hub with sealn := v } } ∧
        exec (.registerWrite .sealbase v.toNat) s = .next { s with hub := { s.hub with sealbase := BitVec.ofNat 64 (v.toNat / 65536 * 65536) } }) ∧
      (s.hub.jprod ≠ 0 → exec .sealreq s = .next { s with hub := { s.hub with
        sealreq := some (s.hub.jprod - 1)
        sealwait := (if s.hub.sealwait.length ≤ s.hub.sealn.toNat - (s.hub.sealprod - s.hub.sealcons) then s.hub.sealwait else s.hub.sealwait.dropLast) ++ [s.hub.jprod - 1] } }) ∧
      (s.hub.jprod = 0 → exec .sealreq s = .next s)) ∧
    (∀ v : W64, exec (.registerWrite .attbase v.toNat) s = .next { s with hub := { s.hub with attbase := BitVec.ofNat 64 (v.toNat / 65536 * 65536) } } ∧
      (∀ i : Fin 4, exec (.registerWrite (.attnonce i) v.toNat) s = .next { s with hub := { s.hub with attnonce := s.hub.attnonce.set i v } }) ∧
      ∀ off, exec (.registerWrite (.reserved off) v.toNat) s = .next s) ∧
    (∀ (vf q : Nat) (v : W64), PageUp s vf → q < 8 →
      (∃ u, exec (.registerWrite (.frseq vf) v.toNat) s = .next u ∧ (u.vf vf).frseq = v.toNat) ∧
      ((s.cmdQueue vf q).cfg.getLsbD 63 = false → ∃ u, exec (.registerWrite (.qring vf q) v.toNat) s = .next u ∧ (u.cmdQueue vf q).ring = v) ∧
      (v.getLsbD 63 = true → exec (.registerWrite (.qcfg vf q) v.toNat) s = exec (.queueEnable vf q v) s) ∧
      (v.getLsbD 63 = false → (s.cmdQueue vf q).cfg.getLsbD 63 = true → exec (.registerWrite (.qcfg vf q) v.toNat) s = exec (.queueDisable vf q) s) ∧
      (v.getLsbD 63 = false → (s.cmdQueue vf q).cfg.getLsbD 63 = false →
        ∃ u, exec (.registerWrite (.qcfg vf q) v.toNat) s = .next u ∧ (u.cmdQueue vf q).cfg = v &&& 0x8000FFFF003FFFFF ∧ (u.cmdQueue vf q).ring = (s.cmdQueue vf q).ring)) ∧
    (∀ (vf n : Nat), s.hub.devstat ≠ 0xE → vf < 192 → n < 2 ^ 32 →
      ∃ u, exec (.registerWrite (.vfBlock vf 8 4) n) s = .next u ∧ (u.vf vf).quant = n ∧ (u.vf vf).gen = (s.vf vf).gen ∧ (u.vf vf).enable = (s.vf vf).enable ∧ u.mem = s.mem) ∧
    (s.hub.sealwait = [] → exec .seal s = .next s) ∧
    (∀ last l, s.hub.sealwait = last :: l → s.hub.sealn.toNat ≤ s.hub.sealprod - s.hub.sealcons → exec .seal s = .next s) ∧
    (∀ last l e, s.hub.sealwait = last :: l → 1 ≤ s.hub.sealn.toNat → s.hub.sealn.toNat ≤ 1024 → s.hub.sealprod - s.hub.sealcons < s.hub.sealn.toNat →
      let at' := s.hub.sealbase.toNat + 65536 * (s.hub.sealprod % s.hub.sealn.toNat)
      s.hub.sealbase.toNat % 65536 = 0 → paRange at' 65536 = true → s.mem.wf = true → s.hub.jprod ≤ last + s.hub.journal.length →
      s.hub.journal[last + s.hub.journal.length - s.hub.jprod]? = some e →
      ∃ t, exec .seal s = .next t ∧ t.hub.sealprod = s.hub.sealprod + 1 ∧ t.hub.sealwait = l ∧ (∀ r, t.hub.sealreq = some r ↔ s.hub.sealreq = some r ∧ last < r) ∧ t.ctxs = s.ctxs ∧
        t.mem.readLE at' 8 = s.hub.sealprod % 2 ^ 64 ∧ t.mem.readLE (at' + 8) 8 = last % 2 ^ 64 ∧ t.mem.read (at' + 0x10) 32 = shake256 e 32 ∧
        t.mem.readLE (at' + 0x30) 8 = s.hub.boot % 2 ^ 64 ∧ t.mem.readLE (at' + 0x38) 8 = 0 ∧ (∀ i, 0xC300 ≤ i → i < 65536 → t.mem.get (at' + i) = 0) ∧
        ∀ x, x < at' ∨ at' + 65536 ≤ x → t.mem.get x = s.mem.get x) ∧
    (s.hub.attreq = false → exec .attreq s = .next { s with hub := { s.hub with attreq := true } }) ∧
    (s.hub.attreq = true →
      let at' := s.hub.attbase.toNat
      at' % 65536 = 0 → paRange at' 65536 = true → s.mem.wf = true →
      ∃ t, exec .attreq s = .next t ∧ t.hub.attreq = false ∧ t.ctxs = s.ctxs ∧
        t.mem.readLE at' 4 = 1 ∧ t.mem.get (at' + 4) = 1 ∧ t.mem.get (at' + 5) = 0 ∧ t.mem.readLE (at' + 6) 2 = 1 ∧ t.mem.readLE (at' + 8) 8 = s.hub.boot % 2 ^ 64 ∧
        (∀ i : Fin 4, t.mem.readLE (at' + 0x10 + 8 * i) 8 = (s.hub.attnonce[i]).toNat) ∧
        t.mem.readLE (at' + 0x70) 8 = (s.hub.jprod - 1) % 2 ^ 64 ∧ t.mem.readLE (at' + 0x78) 8 = 0 ∧
        (∀ e, s.hub.journal.getLast? = some e → 1 ≤ s.hub.jprod → t.mem.read (at' + 0x80) 32 = shake256 e 32) ∧
        (∀ i, 0xE9E0 ≤ i → i < 65536 → t.mem.get (at' + i) = 0) ∧
        ∀ x, x < at' ∨ at' + 65536 ≤ x → t.mem.get x = s.mem.get x)

/-- R405 to R407: the start sequence takes its states 1 to 7 in order, state E when the firmware does not verify; state 2 leaves no latent cell and no window, 4 no route, 5 the journal's start entry, or that due while the journal is full. The temperature limit lowers the clocks, which no state here shows, and its end raises them; a thermal shutdown stops the device until a device reset, which leaves state 1 and no rank, context, queue or key; the journal and the boot count survive. The boot count goes up as the device leaves state 1: the model's choice (log 23). -/
def Obligations.PowerAndStart : Prop :=
  ∀ (s : State),
    (s.hub.devstat = 1 → (∃ t, exec (.powerOn true) s = .next t ∧ t.hub.devstat = 2 ∧ t.hub.boot = s.hub.boot + 1 ∧ t.mem = s.mem) ∧
      (∃ t, exec (.powerOn false) s = .next t ∧ t.hub.devstat = 0xE ∧ t.mem = s.mem)) ∧
    (∀ b, (s.hub.devstat = 2 → ∃ t, exec (.powerOn b) s = .next t ∧ t.hub.devstat = 3 ∧ t.cells = [] ∧ t.wins = []) ∧
      (s.hub.devstat = 3 → ∃ t, exec (.powerOn b) s = .next t ∧ t.hub.devstat = 4 ∧ ∀ v, v < 192 → (t.vf v).key.isSome = true) ∧
      (s.hub.devstat = 4 → ∃ t, exec (.powerOn b) s = .next t ∧ t.hub.devstat = 5 ∧ t.routes = []) ∧
      (s.hub.devstat = 5 → ∃ t, exec (.powerOn b) s = .next t ∧ t.hub.devstat = 6 ∧ (s.hub.jprod - s.hub.jcons < 8192 → t.hub.jprod = s.hub.jprod + 1) ∧
        (8192 ≤ s.hub.jprod - s.hub.jcons → t.hub.jprod = s.hub.jprod ∧ t.hub.startdue = true)) ∧
      (s.hub.devstat = 6 → exec (.powerOn b) s = .next { s with hub := { s.hub with devstat := 7 } }) ∧
      (s.hub.devstat = 7 ∨ s.hub.devstat = 0xE → exec (.powerOn b) s = .next s)) ∧
    exec .thermalLimit s = .next { s with hub := { s.hub with lowered := true } } ∧
    exec .temperatureLimitCleared s = .next { s with hub := { s.hub with lowered := false } } ∧
    (∃ t, exec .thermalShutdown s = .next t ∧ t = { s with hub := { s.hub with shutdown := true } } ∧ (s.agenda.head? ≠ some .deviceReset → step t = .fault .deviceStopped) ∧
      ∀ l, s.agenda = .deviceReset :: l → step t = exec .deviceReset { t with agenda := l }) ∧
    (∃ t, exec .deviceReset s = .next t ∧ t.hub.devstat = 1 ∧ t.ranks = [] ∧ t.ctxs = [] ∧ t.vfs = [] ∧ t.launches = [] ∧ t.accs = [] ∧ t.cmds = [] ∧ t.cells = [] ∧ t.wins = [] ∧
      t.hub.journal = s.hub.journal ∧ t.hub.jprod = s.hub.jprod ∧ t.hub.boot = s.hub.boot ∧ t.mem.wf = true)

namespace Sys2Proof.Spec

open Sys2Proof Sys2Proof.Machine

/-- The 256 bytes of a rank record hold legal fields (R372): NVK, WALLOW, STATE, the reserved bytes, the spill area, the parking area, the root. -/
def RecordFits (l : List Byte) : Prop :=
  1 ≤ opnd l 4 4 ∧ opnd l 4 4 ≤ 65536 ∧ opnd l 0x18 1 ≤ 128 ∧ opnd l 0x19 1 = 0 ∧ (∀ x ∈ (l.drop 0x1A).take 6, x = 0) ∧ opnd l 0x50 8 % 65536 = 0 ∧ 1 ≤ opnd l 0x58 4 ∧
    opnd l 0x5C 4 ≤ 2 ^ 20 ∧ (∀ x ∈ l.drop 0x70, x = 0) ∧ opnd l 0x10 8 % 4096 = 0 ∧ paRange (opnd l 0x10 8) 4096 = true

/-- The record may become known: at its alignment, in memory, legal, of an enabled virtual function, of a rank not known. -/
def RecordTaken (s : State) (a : Nat) (l : List Byte) : Prop :=
  a % 256 = 0 ∧ paRange a 256 = true ∧ RecordFits l ∧ opnd l 2 2 < 192 ∧ (s.vf (opnd l 2 2)).enable = true ∧ tabGet s.ranks (opnd l 2 2 * 65536 + opnd l 0 2) = none

/-- Nothing of a rank is left that keeps it from being forgotten (R394). -/
def RankFree (s : State) (rank : Nat) (r : RankRec) : Prop :=
  tabGet s.ranks rank = some r ∧ (∀ e ∈ s.ctxs, e.2.rank = rank → e.2.alive = false) ∧
    (∀ c ∈ s.colls, c.rank ≠ rank) ∧ (∀ h ∈ s.shufs, h.rank ≠ rank) ∧ (∀ w ∈ s.wins, w.rank ≠ rank) ∧ r.state ≠ 3 ∧
    ∀ q ∈ (s.vf r.vf).queues, ¬(q.2.cfg.getLsbD 63 = true ∧ q.2.cfg.toNat / 2 ^ 32 % 2 ^ 16 = r.vk)

/-- Nothing of a rank keeps it resident (R374). -/
def RankQuiet (s : State) (rank : Nat) (r : RankRec) : Prop :=
  tabGet s.ranks rank = some r ∧ r.state = 1 ∧ (∀ a ∈ s.accs, a.rank = rank → a.runsOn = false) ∧ (∀ c ∈ s.cmds, c.rank ≠ rank) ∧ (∀ c ∈ s.colls, c.rank ≠ rank) ∧
    (∀ h ∈ s.shufs, h.rank ≠ rank) ∧ (∀ e ∈ s.ctxs, e.2.rank = rank → s.occupies e.1 = false) ∧ ∀ c ∈ s.cuts, c.rank ≠ rank

/-- No collective and no shuffle of a job is open here, and no contribution to one has come. -/
def NothingOpen (s : State) (job : Nat) : Prop := (∀ c ∈ s.colls, c.job ≠ job) ∧ (∀ h ∈ s.shufs, h.job ≠ job) ∧ ∀ x ∈ s.atHand, x.job ≠ job

/-- Room for one more resident rank (R374): 64 places, 128 window allotments. -/
def RoomFor (s : State) (rank : Nat) : Prop :=
  let l := (s.ranks.filter fun e => (e.2.state == 1 || e.2.state == 3) && e.1 != rank).map (·.1)
  l.length < 64 ∧ (l.map fun k => (s.rankOf k).wallow).sum + (s.rankOf rank).wallow ≤ 128

/-- The first cut of a rank, the one that is being made, and the cuts before and after it. -/
def CutIs (s : State) (before : List Cut) (c : Cut) (after : List Cut) : Prop := s.cuts = before ++ c :: after ∧ ∀ x ∈ before, x.rank ≠ c.rank

/-- A migration order's cut stands for rank, complete (R319, R377). -/
def OrderAt (s : State) (order : Nat) (c : Cut) (was : Nat) : Prop :=
  c.why = .migration order was ∧ (∃ before after, s.cuts = before ++ c :: after ∧ ∀ x ∈ before, ∀ w, x.why ≠ .migration order w) ∧ c.target.isSome = true ∧
    s.allParked c.rank = true

/-- The status word of a migration order lies in memory, none of whose blocks fails its check. -/
def StatusAt (s : State) (order st : Nat) : Prop := s.bad = [] ∧ st = opnd (s.mem.read order 32) 8 8 ∧ paRange st 8 = true

/-- A target of a Last Collection's descriptor (R326): by its number, or by its partition. -/
def Targeted (s : State) (l : List Byte) (v : Nat) : Prop := v < 192 ∧ ((opnd l 0x10 24).testBit v = true ∨ (opnd l 8 2).testBit (s.vf v).part = true)

end Sys2Proof.Spec

/-- R372, R394: a command written to RKCMD is noted, and RKSTAT reads BUSY, until the hub carries it out, which is the same event at its second time; another one while it works does nothing. Then a rank whose record is legal becomes known with the fields of its record; a full device answers 2, then a record that cannot be taken 3. FORGET frees a rank that is not in use, and voids the cuts asked of it, and answers 4 for one that has a live context or is not known; another action changes nothing. Memory keeps its bytes; the tags of the pages that only this rank maps become 00 (R237). Which answer comes first, and what a command does while the hub works, are the model's choices (log 20). -/
def Sys2Proof.Spec.RanksBecomeKnownAndAreForgotten : Prop :=
  ∀ s : State,
    (s.hub.devstat = 7 → s.hub.rkcmd = none → exec .rankCreate s = .next { s with hub := { s.hub with rkcmd := some 1, rkstat := 1 } }) ∧
    (∀ x, s.hub.rkcmd = some x → (x ≠ 1 → exec .rankCreate s = .next s) ∧ ∀ v, v ≠ x → exec (.rankForget v) s = .next s) ∧
    (s.hub.devstat = 7 → s.hub.rkcmd = some 1 → s.bad = [] →
      let a := s.hub.rkaddr.toNat
      let l := s.mem.read a 256
      (1024 ≤ s.ranks.length → exec .rankCreate s = .next { s with hub := { s.hub with rkcmd := none, rkstat := 2 } }) ∧
      (s.ranks.length < 1024 → ¬RecordTaken s a l → exec .rankCreate s = .next { s with hub := { s.hub with rkcmd := none, rkstat := 3 } }) ∧
      (s.ranks.length < 1024 → RecordTaken s a l → ∃ (r : RankRec) (t : State), exec .rankCreate s = .next t ∧
        t = { s with ranks := tabSet s.ranks (opnd l 2 2 * 65536 + opnd l 0 2) r, cells := t.cells, hub := { s.hub with rkcmd := none, rkstat := 0 } } ∧
        (∀ c ∈ t.cells, c ∈ s.cells ∧ ∀ e ∈ t.ownPages (opnd l 2 2 * 65536 + opnd l 0 2), ¬(e.pa ≤ 64 * c.1 ∧ 64 * c.1 < e.pa + e.size)) ∧ r.dlqcons = opnd l 0x2C 4 ∧
        r.vk = opnd l 0 2 ∧ r.vf = opnd l 2 2 ∧ r.nvk = opnd l 4 4 ∧ r.seed.toNat = opnd l 8 8 ∧ r.root = opnd l 0x10 8 ∧ r.wallow = opnd l 0x18 1 ∧ r.state = 0 ∧
        r.dlq = opnd l 0x20 8 ∧ r.dlqprod = 0 ∧ r.qarea = opnd l 0x38 8 ∧ r.park = opnd l 0x40 8 ∧ r.plist = opnd l 0x48 8 ∧ r.spill = opnd l 0x50 8 ∧ r.spillsz = opnd l 0x58 4 ∧
        r.parkn = opnd l 0x5C 4 ∧ r.save = opnd l 0x60 8 ∧ r.commt = opnd l 0x68 8 ∧ r.queues = [])) ∧
    (s.hub.devstat ≠ 7 → exec .rankCreate s = .next s) ∧
    (∀ (v : W64) (rank : Nat), s.hub.devstat ≠ 0xE → v.toNat % 4 = 2 → rank = v.toNat / 2 ^ 32 % 2 ^ 16 * 65536 + v.toNat / 2 ^ 16 % 2 ^ 16 →
      (s.hub.rkcmd = none → exec (.rankForget v) s = .next { s with hub := { s.hub with rkcmd := some v, rkstat := 1 } }) ∧
      (∀ r, s.hub.rkcmd = some v → RankFree s rank r → ∃ t, exec (.rankForget v) s = .next t ∧
        t = { s with ranks := s.ranks.filter fun e => e.1 != rank, cells := t.cells, collAborts := t.collAborts,
                     cuts := s.cuts.filter fun c => c.rank != rank, hub := { s.hub with rkcmd := none, rkstat := 0 } } ∧
        (∀ c ∈ t.cells, c ∈ s.cells ∧ ∀ e ∈ s.ownPages rank, ¬(e.pa ≤ 64 * c.1 ∧ 64 * c.1 < e.pa + e.size))) ∧
      (s.hub.rkcmd = some v → tabGet s.ranks rank = none ∨ (∃ e ∈ s.ctxs, e.2.rank = rank ∧ e.2.alive = true) →
        exec (.rankForget v) s = .next { s with hub := { s.hub with rkcmd := none, rkstat := 4 } })) ∧
    (∀ v : W64, v.toNat % 4 ≠ 2 → exec (.rankForget v) s = .next s)

/-- R374: a rank with room becomes resident and takes what waits in its spill area; with nothing of it waiting and nothing of its job open, its STATE is all that changes; without room nothing changes. A resident rank that nothing keeps is descheduled: STATE 2, which is all that changes where no page of it has TIER 2 (R375) and nothing of its job is open. -/
def Sys2Proof.Spec.ResidencyFollowsItsRules : Prop :=
  ∀ (s : State) (rank : Nat) (r : RankRec), tabGet s.ranks rank = some r →
    (r.state = 0 ∨ r.state = 2 →
      (RoomFor s rank → (∃ t, exec (.makeResident rank) s = .next t ∧ (t.rankOf rank).state = 1 ∧ t.mem = s.mem ∧ t.ctxs = s.ctxs ∧ t.accs = s.accs) ∧
        (r.spilled = [] → NothingOpen s r.job →
          exec (.makeResident rank) s = .next { s with ranks := tabSet s.ranks rank { r with state := 1 } })) ∧
      (¬RoomFor s rank → exec (.makeResident rank) s = .next s)) ∧
    (r.state = 1 ∨ r.state = 3 → exec (.makeResident rank) s = .next s) ∧
    (RankQuiet s rank r → (∃ t, exec (.deschedule rank) s = .next t ∧ (t.rankOf rank).state = 2 ∧ t.cur = s.cur) ∧
      (NothingOpen s r.job → (∀ e ∈ s.leaves rank, s.tierOf e ≠ 2) → exec (.deschedule rank) s = .next { s with ranks := tabSet s.ranks rank { r with state := 2 } })) ∧
    (r.state ≠ 1 → exec (.deschedule rank) s = .next s)

/-- R375: a tier move that may be made takes every byte of the page to its new place and the leaf to name it, keeps every byte outside both places and the leaf, and leaves no translation of the page; one that may not be made changes nothing. When it may is the model's reading of R375 (log 20). -/
def Sys2Proof.Spec.TierMovesKeepThePage : Prop :=
  ∀ (s : State) (rank va pa : Nat) (e : TlbEntry), s.walk rank va = some e →
    (s.tierMoveOk e pa = true → s.mem.wf = true →
      (∀ i, i < e.size → ¬(e.entry ≤ pa + i ∧ pa + i < e.entry + 8) ∧ ¬(e.entry ≤ e.pa + i ∧ e.pa + i < e.entry + 8)) →
      ∃ t, exec (.tierMove rank va pa) s = .next t ∧
        (∀ i, i < e.size → t.mem.get (pa + i) = s.mem.get (e.pa + i)) ∧
        t.mem.readLE e.entry 8 / 2 ^ 16 % 2 ^ 40 = pa / 2 ^ 16 ∧ t.mem.readLE e.entry 8 % 2 ^ 16 = s.mem.readLE e.entry 8 % 2 ^ 16 ∧
        (∀ x, ¬(pa ≤ x ∧ x < pa + e.size) → ¬(e.entry ≤ x ∧ x < e.entry + 8) → t.mem.get x = s.mem.get x) ∧
        (∀ c ∈ t.cores, ∀ x ∈ c.2.tlb, ¬(x.rank = rank ∧ x.va < e.va + e.size ∧ e.va < x.va + x.size)) ∧ t.mem.wf = true) ∧
    (s.tierMoveOk e pa = false → exec (.tierMove rank va pa) s = .next s)

/-- R321: CLPART moves each cluster that holds no context and is not fused to the partition that its field names, and no other. R319, R320: a cut that is asked for is noted; when every context is parked its count is the greatest of theirs; a complete cut of the hypervisor is over (log 21). An abandoned cut is dropped and its requester told; a complete one stays. -/
def Obligations.PartitionsAndCuts : Prop :=
  (∀ (s : State) (v : W64), s.hub.devstat ≠ 0xE → ∃ t, exec (.clpart v) s = .next t ∧ t = { s with hub := { s.hub with clpart := t.hub.clpart } } ∧
    ∀ cl, cl < 16 → t.hub.clpart.toNat / 2 ^ (4 * cl) % 16 = (if s.clusterBusy cl then s.hub.clpart else v).toNat / 2 ^ (4 * cl) % 16) ∧
  (∀ (s : State) (rank : Nat), (∀ c ∈ s.cuts, c.rank ≠ rank) →
    ((tabGet s.ranks rank).isSome = true → exec (.consistentCut rank) s = .next { s with cuts := s.cuts ++ [⟨rank, .hypervisor, none⟩] }) ∧
    (tabGet s.ranks rank = none → exec (.consistentCut rank) s = .next s) ∧ exec (.cutAbandon rank) s = .next s) ∧
  (∀ (s : State) (before : List Cut) (c : Cut) (after : List Cut), CutIs s before c after →
    (s.allParked c.rank = true → c.target = none → ∃ n,
      exec (.consistentCut c.rank) s = .next { s with cuts := before ++ { c with target := some n } :: after } ∧
      (∀ k ∈ s.liveOf c.rank, (s.ctx k).cutcount.toNat ≤ n) ∧ (n = 0 ∨ ∃ k ∈ s.liveOf c.rank, (s.ctx k).cutcount.toNat = n)) ∧
    (s.allParked c.rank = true → c.target ≠ none →
      (c.why = .hypervisor → exec (.consistentCut c.rank) s = .next { s with cuts := before ++ after }) ∧
      (c.why ≠ .hypervisor → exec (.consistentCut c.rank) s = .next s) ∧ exec (.cutAbandon c.rank) s = .next s) ∧
    (s.allParked c.rank = false → exec (.consistentCut c.rank) s = .next s ∧
      (∀ vf, c.why = .hold vf → exec (.cutAbandon c.rank) s = .next { s with cuts := before ++ after }) ∧
      (c.why = .hypervisor → ∃ t r, exec (.cutAbandon c.rank) s = .next t ∧ t = { s with cuts := before ++ after, hub := t.hub } ∧
        t.hub.hvwait = s.hub.hvwait ++ [r] ∧ opnd r 0 2 = 7 ∧ r.length = 32) ∧
      (∀ order was, c.why = .migration order was → ∃ t, exec (.cutAbandon c.rank) s = .next t ∧ t.cuts = before ++ after ∧ (t.rankOf c.rank).stopped = false ∧
        ∀ st, StatusAt s order st → s.mem.wf = true → t.mem.readLE st 8 = 3)))

/-- R376 to R378: a migration order stops the starts of its rank and cuts it; a bad one is answered 5; with the cut complete the rank is migrating; a destination that is not attested, does not accept or is not reached gives 1, 2 or 4 and the rank is as it was; else the rank is gone from here, packets of at most 64 flits take it to the device, the location map names that and the answer is 0. Such a packet that is not the whole is kept; with the whole of a rank, that for an enabled virtual function with room becomes known there, with the fields of its record, its contexts, groups, windows and launches under numbers of this device. That an order names the first rank of its VK and its status a physical address (log 41), and how a rank is laid out in the packets (log 75), are the model's choices. -/
def Obligations.MigrationMovesTheRank : Prop :=
  ∀ (s : State) (order : Nat) (att acc link : Bool), s.hub.devstat ≠ 0xE → s.bad = [] →
    let l := s.mem.read order 32
    let dev := opnd l 4 2
    ((∀ c ∈ s.cuts, ∀ w, c.why ≠ .migration order w) →
      (∀ rank r, s.ranks.find? (fun e => e.2.vk == opnd l 0 2) = some (rank, r) → tabGet s.ranks rank = some r → orderOk l = true → (∀ c ∈ s.cuts, c.rank ≠ rank) →
        exec (.migration order att acc link) s = .next { s with ranks := tabSet s.ranks rank { r with stopped := true }, cuts := s.cuts ++ [⟨rank, .migration order r.state, none⟩] }) ∧
      (orderOk l = false ∨ (∀ e ∈ s.ranks, e.2.vk ≠ opnd l 0 2) → ∃ t, exec (.migration order att acc link) s = .next t ∧ t.ctxs = s.ctxs ∧ t.cuts = s.cuts ∧
        ∀ st, StatusAt s order st → s.mem.wf = true → t.mem.readLE st 8 = 5)) ∧
    (∀ c was, OrderAt s order c was → ∀ r, tabGet s.ranks c.rank = some r →
      (r.state ≠ 3 → ∃ t, exec (.migration order att acc link) s = .next t ∧ (t.rankOf c.rank).state = 3 ∧ t.cuts = s.cuts ∧ t.mem = s.mem ∧ t.ctxs = s.ctxs) ∧
      (r.state = 3 → ∀ n, (att = false ∧ n = 1) ∨ (att = true ∧ acc = false ∧ n = 2) ∨ (att = true ∧ acc = true ∧ link = false ∧ n = 4) →
        ∃ t, exec (.migration order att acc link) s = .next t ∧ (t.rankOf c.rank).state = was ∧ (t.rankOf c.rank).stopped = false ∧ (t.cuts = s.cuts.eraseP fun x => x.rank == c.rank) ∧ t.ctxs = s.ctxs ∧
          ∀ st, StatusAt s order st → s.mem.wf = true → t.mem.readLE st 8 = n) ∧
      (r.state = 3 → att = true → acc = true → link = true → (s.portTo dev).isSome = true → dev ≠ Config.ownDevice →
        let b := rankBytes (s.rankBlock c.rank (s.leaves c.rank))
        ∃ t, exec (.migration order att acc link) s = .next t ∧ tabGet t.ranks c.rank = none ∧ tabGet t.located (r.job * 65536 + r.vk) = some dev ∧
          (∀ k, k = 0 ∨ 2016 * k < b.length → ∃ e ∈ t.outbox,
            (⟨dev, .migrant r.vf r.vk (opnd l 2 2) ((opnd l 6 1).testBit 0) b.length (2016 * k) ((b.drop (2016 * k)).take 2016)⟩ : Packet) ∈ e.2) ∧
          (∀ e ∈ t.ctxs, e.2.rank ≠ c.rank) ∧
          (∀ w ∈ t.wins, w.rank ≠ c.rank) ∧ (∀ x ∈ t.cuts, x.rank ≠ c.rank) ∧ ∀ st, StatusAt s order st → s.mem.wf = true → t.mem.readLE st 8 = 0)) ∧
    (∀ (vf vk dvf total : Nat) (compress : Bool) (bytes : List Byte), s.arriving = [] →
      let p : PktBody := .migrant vf vk dvf compress total 0 bytes
      (bytes.length < total → exec (.packetRoute ⟨Config.ownDevice, p⟩) s = .next { s with inbox := s.inbox.erase p, arriving := [p] }) ∧
      (∀ b, bytes ≠ [] → bytes.length = total → arrivingRank bytes = some b → dvf < 192 → (s.vf dvf).enable = true → s.ranks.length < 1024 →
        let rank := dvf * 65536 + b.record.vk
        tabGet s.ranks rank = none → (b.ctxs.map (·.1)).Nodup →
        ∃ t r, exec (.packetRoute ⟨Config.ownDevice, p⟩) s = .next t ∧ tabGet t.ranks rank = some r ∧ r.vf = dvf ∧ r.vk = b.record.vk ∧ r.job = b.record.job ∧ r.seed = b.record.seed ∧
          r.root = b.record.root ∧ r.stopped = false ∧ (r.state = 0 ∨ r.state = 1) ∧ tabGet t.located (b.record.job * 65536 + b.record.vk) = none ∧ t.arriving = [] ∧
          (∀ x ∈ b.groups, ∃ y ∈ t.groups, y.rank = rank ∧ y.num = x.num ∧ y.phase = x.phase ∧ y.members = x.members.map (· + s.nextId)) ∧
          (∀ x ∈ b.wins, ∃ y ∈ t.wins, y.rank = rank ∧ y.base = x.base ∧ y.count = x.count ∧ y.elems = x.elems) ∧
          (∀ x ∈ b.launches, ∃ y ∈ t.launches, y.rank = rank ∧ y.id = x.id + s.nextId ∧ y.ctxs = x.ctxs.map (· + s.nextId)) ∧
          ∀ e ∈ b.ctxs, ∃ y, tabGet t.ctxs (e.1 + s.nextId) = some y ∧ y.rank = rank ∧ y.g = e.2.g ∧ y.v = e.2.v ∧ y.pc = e.2.pc ∧ y.window = e.2.window ∧ y.phase = e.2.phase))

/-- R322, R325: a reset of a virtual function ends its work: no context, access or command of its ranks is left, its queues are not set up, its generation advances, ENABLE reads 0 and it has a fresh key. VF_ENABLE sets ENABLE and assigns the child queue to a die (R409, either one: log 70); whether it starts commands again after a Last Collection is the model's reading (log 21). The end of a budget window forgets the use of that kind of unit (R323). -/
def Sys2Proof.Spec.VirtualFunctionsAreResetAndEnabled : Prop :=
  ∀ (s : State) (vf : Nat), vf < 192 →
    (s.hub.devstat ≠ 0xE →
      (∃ t, exec (.vfReset vf) s = .next t ∧ (t.vf vf).enable = false ∧ (t.vf vf).gen = ((s.vf vf).gen + 1) % 65536 ∧ (t.vf vf).key.isSome = true ∧ (t.vf vf).childq = [] ∧
        (∀ q, (t.cmdQueue vf q).state = 4 ∧ (t.cmdQueue vf q).cons = 0 ∧ (t.cmdQueue vf q).prod = 0 ∧ (t.cmdQueue vf q).head = .idle ∧ (t.cmdQueue vf q).running = []) ∧
        (∀ e ∈ s.ranks, e.2.vf = vf → (∀ x ∈ t.ctxs, x.2.rank ≠ e.1) ∧ (∀ x ∈ t.accs, x.rank ≠ e.1) ∧ (∀ x ∈ t.cmds, x.rank ≠ e.1) ∧ (∀ x ∈ t.wins, x.rank ≠ e.1) ∧ (∀ x ∈ t.launches, x.rank ≠ e.1)) ∧
        (∀ w, w ≠ vf → (t.vf w).gen = (s.vf w).gen ∧ (t.vf w).key = (s.vf w).key)) ∧
      (∃ t, exec (.vfEnable vf) s = .next t ∧ t = { s with vfs := t.vfs, free := s.free + 1 } ∧
        t.vf vf = { s.vf vf with enable := true, halted := (s.vf vf).halted && ((s.vf vf).holding || s.collecting vf), childDie := (t.vf vf).childDie } ∧
        ((s.vf vf).enable = true → (t.vf vf).childDie = (s.vf vf).childDie) ∧ ((s.vf vf).enable = false → (t.vf vf).childDie < 2) ∧
        ∀ w, w ≠ vf → t.vf w = s.vf w)) ∧
    (s.hub.devstat = 0xE → exec (.vfReset vf) s = .next s ∧ exec (.vfEnable vf) s = .next s) ∧
    (∀ u : BudgetUnit, ∃ t, exec (.budgetWindowEnd vf u) s = .next t ∧ t = { s with vfs := t.vfs } ∧ (∀ w, w ≠ vf → t.vf w = s.vf w) ∧
      (∀ e, e ∈ (t.vf vf).used ↔ e ∈ (s.vf vf).used ∧ e.1 / 65536 ≠ (match u with | .copyEngine => 0 | .fabric => 1 | .hbm => 2 | .slice => 3)))

/-- R324: a time slice that ends for another virtual function with work marks the next one and asks every live placed context of the old one to be evicted; once none is placed and no COPY runs, the next one has the partition. -/
def Sys2Proof.Spec.TimeSlicesPassOn : Prop :=
  ∀ (s : State) (part v : Nat), tabGet s.running part = some v →
    (∀ w, tabGet s.switching part = some w →
      (s.placedOf v = [] → (∀ q ∈ (s.vf v).queues, ∀ x y n, q.2.head ≠ .copy x y n) →
        exec (.quantumExpiry part) s = .next { s with running := tabSet s.running part w, switching := s.switching.filter fun e => e.1 != part }) ∧
      (s.placedOf v ≠ [] → exec (.quantumExpiry part) s = .next s)) ∧
    (tabGet s.switching part = none →
      (s.nextVf part v = none → exec (.quantumExpiry part) s = .next s) ∧
      (∀ w, s.nextVf part v = some w → (s.vf v).quant ≠ 0 → ∃ t, exec (.quantumExpiry part) s = .next t ∧ tabGet t.switching part = some w ∧ t.mem = s.mem ∧
        (∀ k ∈ s.placedOf v, (s.ctx k).phase = .live → t.ctx k = { s.ctx k with preempt := true }) ∧ (∀ k, k ∉ s.placedOf v → t.ctx k = s.ctx k)))

/-- R326, R327: the answer to the post of a Last Collection: HEADER for a descriptor with reserved bytes set or without a target, then TOO_SOON for a deadline within the margin, then OVERLAP for a target already collected; with any of them nothing else changes. An accepted one halts each of its targets. The order of the answers is the model's reading (log 22). -/
def Sys2Proof.Spec.LastCollectionsAreAnswered : Prop :=
  ∀ (s : State) (addr : Nat), s.hub.devstat ≠ 0xE → s.bad = [] →
    let l := s.mem.read addr 64
    let reserved : Prop := ∃ x ∈ (l.drop 0x0A).take 6 ++ l.drop 0x30, x ≠ 0
    let collected : Prop := ∃ v c, Targeted s l v ∧ c ∈ s.collections ∧ v ∈ c.targets
    (reserved ∨ (∀ v, ¬Targeted s l v) → exec (.lastCollection addr) s = .next { s with hub := { s.hub with collstat := 3 } }) ∧
    (¬reserved → (∃ v, Targeted s l v) →
      (opnd l 0 8 < 40000 → exec (.lastCollection addr) s = .next { s with hub := { s.hub with collstat := 1 } }) ∧
      (40000 ≤ opnd l 0 8 → collected → exec (.lastCollection addr) s = .next { s with hub := { s.hub with collstat := 2 } }) ∧
      (40000 ≤ opnd l 0 8 → ¬collected → ∃ t, exec (.lastCollection addr) s = .next t ∧ t.hub.collstat = 0 ∧ ∀ v, Targeted s l v → (t.vf v).halted = true))

/-- R328: a queue of a collection that is vacant has its entry written to the report, number, outcome and cycles; one that is not vacant has not. A held virtual function whose cuts are complete has its segment written, and its ranks' contexts leave the device. A queue not vacant by the deadline has its virtual function reset and its entries marked as overrun. -/
def Sys2Proof.Spec.CollectionsReportAndOverrun : Prop :=
  ∀ (s : State) (vf q n i : Nat) (c : Collection) (e : CollEntry),
    s.bad = [] → s.collections = [c] → (c.entries.find? fun x => x.vf == vf && x.q == q && !x.written) = some e → (c.entries.findIdx fun x => x.vf == vf && x.q == q) = i →
      (e.outcome ≠ 2 ∨ e.overrun = true →
        (s.queueLaunches vf q = [] → (∀ x y z, (s.cmdQueue vf q).head ≠ .copy x y z) → paRange (c.report + 16 * i) 16 = true → s.mem.wf = true →
          ∃ t, exec (.queueVacancy vf q n) s = .next t ∧ t.mem.readLE (c.report + 16 * i) 1 = vf % 256 ∧ t.mem.readLE (c.report + 16 * i + 1) 1 = q % 256 ∧
            t.mem.readLE (c.report + 16 * i + 2) 1 = e.outcome % 256 ∧ t.mem.readLE (c.report + 16 * i + 3) 1 = e.overrun.toNat ∧ t.mem.readLE (c.report + 16 * i + 8) 8 = n % 2 ^ 64 ∧
            (∀ x, ¬(c.report + 16 * i ≤ x ∧ x < c.report + 16 * i + 16) → t.mem.get x = s.mem.get x) ∧
            (∀ d ∈ t.collections, ∀ x ∈ d.entries, x.vf = vf → x.q = q → x.written = true)) ∧
        (s.queueLaunches vf q ≠ [] → exec (.queueVacancy vf q n) s = .next s)) ∧
      (e.outcome = 2 → e.overrun = false → s.holdReady vf = true → ∃ t, exec (.queueVacancy vf q n) s = .next t ∧ (t.vf vf).holding = true ∧ (t.vf vf).halted = true ∧
        (t.vf vf).lastSeg = some (s.vf vf).nextSeg ∧ (∀ d ∈ s.cuts, d.why = .hold vf → ∀ x ∈ t.ctxs, x.2.rank ≠ d.rank) ∧
        ∃ seg ∈ t.segments, seg.addr = (s.vf vf).holdbase + (s.vf vf).nextSeg ∧ seg.vf = vf ∧ seg.gen = (s.vf vf).gen ∧
          seg.blocks.map (·.rank) = (s.cuts.filter fun d => d.why == .hold vf).map (·.rank)) ∧
      (s.vacant e = false → e.overrun = false → ∃ t, exec (.lastCollectionOverrun vf q) s = .next t ∧ (t.vf vf).enable = false ∧ (t.vf vf).gen = ((s.vf vf).gen + 1) % 65536 ∧
        ∀ d ∈ t.collections, ∀ x ∈ d.entries, x.vf = vf → x.written = false → x.overrun = true) ∧
      (s.vacant e = true ∨ e.overrun = true → exec (.lastCollectionOverrun vf q) s = .next s)

/-- R329: a RESTORE of a segment whose header does not check, of another generation, or whose ranks do not fit together is answered 2, 3 or 4 and changes nothing else (a segment whose virtual function has been reset is answered 3, as nothing else of it is known: log 22); and one whose virtual function is not held 2 (the model's choice, log 22); else the answer is 0, its virtual function is held no longer, its ranks are resident and its contexts are as they were at the cut; with REPLAY each queue goes on behind its last HOLDPOINT. -/
def Obligations.RestorationGivesBackTheCut : Prop :=
  ∀ (s : State) (addr : Nat), s.hub.devstat ≠ 0xE → s.bad = [] →
    let answer (n : Nat) : State := { s with hub := { s.hub with reststat := n } }
    let lost : Prop := ∃ x ∈ s.segments, x.addr = addr ∧ x.gen ≠ (s.vf x.vf).gen
    (addr % 64 = 0 → lost → exec (.restore addr) s = .next (answer 3) ∧ exec (.restoreReplay addr) s = .next (answer 3)) ∧
    (addr % 64 ≠ 0 ∨ (¬lost ∧ s.segmentAt addr = none) → exec (.restore addr) s = .next (answer 2) ∧ exec (.restoreReplay addr) s = .next (answer 2)) ∧
    (∀ seg, addr % 64 = 0 → ¬lost → s.segmentAt addr = some seg →
      ((s.vf seg.vf).gen ≠ opnd (s.mem.read addr 8) 6 2 → exec (.restore addr) s = .next (answer 3) ∧ exec (.restoreReplay addr) s = .next (answer 3)) ∧
      ((s.vf seg.vf).gen = opnd (s.mem.read addr 8) 6 2 →
        ((s.vf seg.vf).holding = false → exec (.restore addr) s = .next (answer 2) ∧ exec (.restoreReplay addr) s = .next (answer 2)) ∧
        ((s.vf seg.vf).holding = true → s.segmentFits seg = false → exec (.restore addr) s = .next (answer 4) ∧ exec (.restoreReplay addr) s = .next (answer 4)) ∧
        ((s.vf seg.vf).holding = true → s.segmentFits seg = true →
          (∃ t, exec (.restore addr) s = .next t ∧ t.hub.reststat = 0 ∧ (t.vf seg.vf).holding = false ∧ (t.vf seg.vf).queues = seg.queues ∧ (∀ b ∈ seg.blocks, (t.rankOf b.rank).state = 1) ∧
            ∀ b, seg.blocks = [b] → (b.ctxs.map (·.1)).Nodup → ∀ k c, tabGet b.ctxs k = some c → ∃ y, tabGet t.ctxs k = some y ∧ (c.eval = none → y = c) ∧ y = { c with eval := y.eval }) ∧
          (∃ t, exec (.restoreReplay addr) s = .next t ∧ t.hub.reststat = 0 ∧ (t.vf seg.vf).holding = false ∧ (∀ b ∈ seg.blocks, (t.rankOf b.rank).state = 1) ∧
            ∀ q x p, tabGet seg.queues q = some x → x.holdpoint = some p → (t.cmdQueue seg.vf q).cons = p ∧ (t.cmdQueue seg.vf q).loops = [] ∧ (t.cmdQueue seg.vf q).head = .idle))))

namespace Sys2Proof.Spec

open Sys2Proof Sys2Proof.Machine

/-- No latent cell, no open window and no bad block stands in the way of an access. -/
def PlainMemory (s : State) : Prop := s.cells = [] ∧ s.wins = [] ∧ s.bad = []

/-- The XOR of two lists of bytes. -/
def xorOf (a b : List Byte) : List Byte := (a.zip b).map fun x => x.1 ^^^ x.2

/-- `t` is `s` with a packet put at the tail of the buffer of its class at a working port of its device's entry (R338, R340); the port's link enters a flip that it has corrected in the journal (R398). -/
def Leaves (s : State) (p : Packet) (t : State) : Prop :=
  ∃ port ∈ tabGetD s.routes p.dev [], port ∉ s.failedPorts ∧ ∃ n,
    let key := 4 * port + classCode (pktClass p.body)
    t = { s.useLink 6 port with rotors := tabSet s.rotors p.dev n, outbox := tabSet s.outbox key (tabGetD s.outbox key [] ++ [p]) }

/-- The packet body `b` that was on its way here has been answered by the packet `p`; contexts and accesses are as they were. -/
def Replied (s t : State) (b : PktBody) (p : Packet) : Prop :=
  (∃ u, Leaves s p u ∧ t.outbox = u.outbox) ∧ t.inbox = s.inbox.erase b ∧ t.ctxs = s.ctxs ∧ t.accs = s.accs

/-- The collective `c` of this device's member is `id`. -/
def CollIs (s : State) (id : Nat) (c : Coll) : Prop := s.coll? id = some c ∧ c.id = id

/-- Every member lives on this device. -/
def AllHere (s : State) (job : Nat) (members : List Nat) : Prop := ∀ vk ∈ members, s.rankHere job vk = true

/-- A member's XCOLL or XSHUF has left TL (R21): its counter fell as its identity retired. -/
def TileRetired (s t : State) (ctx id : Nat) : Prop :=
  (t.ctx ctx).tl = ((s.ctx ctx).tl.map fun e => if e.1 = id then (id, true) else e).dropWhile (·.2)

/-- The fields of an order (R344). -/
def timeoutOf (order : List Byte) : Nat := opnd order 0x1C 4

end Sys2Proof.Spec

/-- R206, R226, R227, R337, R338, R340, R343, R408: a packet for another device leaves by a port of its entry, in the buffer of its class, and is dropped without one; packets of a shuffle are those of SortingOfficesPairPackets. A read, write, AMO or CAS of another device at plain local memory is answered with the bytes, writes its enabled bytes, or replaces the word in one instant, and its confirmation leaves; a reply completes the part that waits for it, or fails it at the byte it names; a piece of a contribution is kept and its acceptance leaves; the rank-location map takes its updates (R377). ROUTING_TABLE_WRITE sets or clears an entry. -/
def Sys2Proof.Spec.PacketsAreRoutedAndServed : Prop :=
  ∀ s : State,
    (∀ p : Packet, p.dev ≠ Config.ownDevice → (∀ q, p.body ≠ .shuffle q) → (∀ o, p.body ≠ .overprint o) →
      (HasRoute s p.dev → ∃ t, exec (.packetRoute p) s = .next t ∧ Leaves s p t) ∧
      (¬HasRoute s p.dev → exec (.packetRoute p) s = .next s)) ∧
    (PlainMemory s → ∀ dev tag pa, HasRoute s dev → paLocal pa = true →
      (∀ en, pa % 128 + en.length ≤ 128 → let b : PktBody := .read dev tag pa en
        ∃ t, exec (.packetRoute ⟨Config.ownDevice, b⟩) s = .next t ∧
          Leaves { s with inbox := s.inbox.erase b } ⟨dev, .reply tag ((List.range en.length).map fun i => if en.getD i false then s.mem.get (pa + i) else 0) 0 0⟩ t) ∧
      (s.mem.wf = true → ∀ many en l, pa % 128 + en.length ≤ 128 → let b : PktBody := .write dev tag many pa en l
        ∃ t, exec (.packetRoute ⟨Config.ownDevice, b⟩) s = .next t ∧ Replied s t b ⟨dev, .reply tag [] 0 0⟩ ∧ (∀ j, en.getD j false = true → t.mem.get (pa + j) = l.getD j 0) ∧
          ∀ x, (∀ j, en.getD j false = true → x ≠ pa + j) → t.mem.get x = s.mem.get x) ∧
      (s.mem.wf = true → ∀ (wide : Bool) (x y : W64), let n := if wide then 8 else 4
        let old := s.mem.readLE pa n
        (∀ op, let b : PktBody := .amo dev tag op wide pa x
          ∃ t, exec (.packetRoute ⟨Config.ownDevice, b⟩) s = .next t ∧ Replied s t b ⟨dev, .reply tag (leBytes n old) 0 0⟩ ∧ t.mem.readLE pa n = amoResult op (8 * n) old x.toNat ∧
            ∀ a, a < pa ∨ pa + n ≤ a → t.mem.get a = s.mem.get a) ∧
        (let b : PktBody := .cas dev tag wide pa x y
          ∃ t, exec (.packetRoute ⟨Config.ownDevice, b⟩) s = .next t ∧ Replied s t b ⟨dev, .reply tag (leBytes n old) 0 0⟩ ∧
            t.mem.readLE pa n = (if old = x.toNat % 2 ^ (8 * n) then y.toNat % 2 ^ (8 * n) else old) ∧ ∀ a, a < pa ∨ pa + n ≤ a → t.mem.get a = s.mem.get a))) ∧
    (∀ tag bytes cause off r a d sz, tabGet s.remote tag = some r → r.forCmd = false → r.dead = none → s.signalOf? tag = none → s.acc? r.owner = some a → a.kind = .load (.g d sz) → a.acq = none → bytes ≠ [] →
      (∀ x ∈ s.accs, x.id ≠ a.id → x.ctx = a.ctx → x.failure? = none) →
      ∃ t, exec (.packetRoute ⟨Config.ownDevice, .reply tag bytes cause off⟩) s = .next t ∧ t.mem = s.mem ∧ t.ctxs = s.ctxs ∧
        t.acc? r.owner = some { a with parts := a.parts.map fun p => if p.st = .sent tag then
          (if cause = 0 then { p with st := .done, data := bytes } else { p with st := .failed (Cause.ofCode cause) (p.va + off - paOnDevice p.pa) }) else p }) ∧
    (∀ dev job comm k pos order total off data, HasRoute s dev → s.redslots = [] → (∀ e ∈ s.ranks, e.2.state ≠ 2 ∧ e.2.state ≠ 3) → (∀ x ∈ s.moved, x / 65536 ≠ job) → (∃ e ∈ s.ranks, e.2.job = job) →
      (∀ c ∈ s.contribs, ¬(c.job = job ∧ c.comm = comm ∧ c.k = k ∧ c.pos = pos)) →
      let b : PktBody := .contribution dev job comm k pos order total off data
      ∃ t, exec (.packetRoute ⟨Config.ownDevice, b⟩) s = .next t ∧
        Leaves { s with inbox := s.inbox.erase b, contribs := s.contribs ++ [⟨job, comm, k, pos, order, total, [(off, data)]⟩] } ⟨dev, .contribAck Config.ownDevice job comm k pos off⟩ t) ∧
    (∀ job vk dev, let b : PktBody := .rankAt job vk dev
      exec (.packetRoute ⟨Config.ownDevice, b⟩) s =
        .next { s with inbox := s.inbox.erase b, located := if dev = Config.ownDevice then s.located.filter (fun e => e.1 != job * 65536 + vk) else tabSet s.located (job * 65536 + vk) dev }) ∧
    (∀ dev ports, (dev < 8192 → ports.length ≤ 4 → (∀ p ∈ ports, p < 128) →
        (ports ≠ [] → exec (.routingTableWrite dev ports) s = .next { s with routes := tabSet s.routes dev ports }) ∧
        (ports = [] → exec (.routingTableWrite dev ports) s = .next { s with routes := s.routes.filter fun e => e.1 != dev })) ∧
      (8192 ≤ dev ∨ 4 < ports.length ∨ (∃ p ∈ ports, 128 ≤ p) → exec (.routingTableWrite dev ports) s = .next s))

namespace Sys2Proof.Spec

open Sys2Proof Sys2Proof.Machine

/-- What R364 asks of a packet P and one that stands in the pairing window. -/
def Eligible (p q : ShufPkt) : Prop :=
  p.job = q.job ∧ p.shid = q.shid ∧ p.payload.length = q.payload.length ∧ p.dst ≠ q.dst ∧ q.dst ∈ p.holders ∧ p.dst ∈ q.holders

/-- A packet of a sender elsewhere, bound for a receiver on another device to which there is a way. -/
def Passing (s : State) (p : ShufPkt) : Prop := s.rankHere p.job p.vk = false ∧ p.dev ≠ Config.ownDevice ∧ HasRoute s p.dest

/-- An overprint goes on to two receivers that live elsewhere: as one packet while their routes are one, by a copy to each where they part (R365). -/
def Spreads (s : State) (o : Overprint) (t : State) : Prop :=
  let oneWay : Prop := o.p.dest = o.q.dest ∨ tabGetD s.routes o.p.dest [] = tabGetD s.routes o.q.dest []
  (oneWay → Leaves s ⟨o.p.dest, .overprint o⟩ t) ∧
    (¬oneWay → ∃ u, Leaves s ⟨o.p.dest, .overprint { o with toQ := false }⟩ u ∧ Leaves u ⟨o.q.dest, .overprint { o with toP := false }⟩ t)

end Sys2Proof.Spec

/-- R361, R364 to R366: a plain packet that comes to the sorting office waits in its window, which sends the oldest of 512 on plain to make room, unless a packet there is eligible: it pairs with the one that came first, and an overprint of both headers, both envelopes and the XOR of the payloads goes on, as one packet while their routes are one and by a copy to each receiver where they part; of receivers here it enters a decode buffer, one entry each. An overprint that comes in is passed on so and never paired again. A packet sent again, or in error, does not enter the window. The port of an overprint made here is a free value (log 1). -/
def Sys2Proof.Spec.SortingOfficesPairPackets : Prop :=
  ∀ (s : State) (dev : Nat),
    let taken (b : PktBody) : State := if dev = Config.ownDevice then { s with inbox := s.inbox.erase b } else s
    (∀ p : ShufPkt, (dev = Config.ownDevice → s.rankHere p.job p.vk = true) → p.bad = false →
      let here := taken (.shuffle p)
      (p.plainOnly = false → (∀ q ∈ s.pairing, ¬Eligible p q) →
        (s.pairing.length < 512 → exec (.packetRoute ⟨dev, .shuffle p⟩) s = .next { here with pairing := s.pairing ++ [p] }) ∧
        (∀ q l, s.pairing = q :: l → s.pairing.length = 512 →
          (s.rankHere q.job q.vk = true → exec (.packetRoute ⟨dev, .shuffle p⟩) s = .next { here with pairing := l ++ [p], inbox := here.inbox ++ [.shuffle q] }) ∧
          (Passing s q → ∃ t, exec (.packetRoute ⟨dev, .shuffle p⟩) s = .next t ∧ Leaves { here with pairing := l ++ [p] } ⟨q.dest, .shuffle q⟩ t))) ∧
      (∀ before q after, p.plainOnly = false → s.pairing = before ++ q :: after → (∀ x ∈ before, ¬Eligible p x) → Eligible p q →
        ∃ port, let o : Overprint := ⟨{ p with payload := [] }, { q with payload := [] }, xorOf p.payload q.payload, true, true, port⟩
          let u : State := { here with pairing := before ++ after, free := s.free + 1 }
          port < 128 ∧
          (s.rankHere p.job p.vk = true → s.rankHere q.job q.vk = true →
            exec (.packetRoute ⟨dev, .shuffle p⟩) s = .next { u with decoding := s.decoding ++ [⟨port / 8, false, o, []⟩, ⟨port / 8, true, o, []⟩] }) ∧
          (Passing s p → Passing s q → ∃ t, exec (.packetRoute ⟨dev, .shuffle p⟩) s = .next t ∧ Spreads u o t)) ∧
      (p.plainOnly = true →
        (s.rankHere p.job p.vk = true → exec (.packetRoute ⟨dev, .shuffle p⟩) s = .next { here with inbox := here.inbox ++ [.shuffle p] }) ∧
        (Passing s p → ∃ t, exec (.packetRoute ⟨dev, .shuffle p⟩) s = .next t ∧ Leaves here ⟨p.dest, .shuffle p⟩ t))) ∧
    (∀ o : Overprint, o.toP = true → o.toQ = true → Passing s o.p → Passing s o.q →
      ∃ t, exec (.packetRoute ⟨dev, .overprint o⟩) s = .next t ∧ Spreads (taken (.overprint o)) o t)

/-- R382: a failed port is fenced; a request that it left unconfirmed, and that may be applied twice, is sent again by another port, packets of shuffles and contributions among them; an atomic add or exclusive or, and a compare-and-swap, fails instead with an INTEGRITY report of DETAIL 1. Requests by other ports are untouched. -/
def Sys2Proof.Spec.FailedLinksAreFenced : Prop :=
  ∀ (s : State) (port : Nat),
    ((∀ e ∈ s.remote, e.2.port ≠ some port) → (∀ u ∈ s.unconfirmed, u.port ≠ port) →
      exec (.linkFailure port) s = .next { s with failedPorts := if port ∈ s.failedPorts then s.failedPorts else s.failedPorts ++ [port] }) ∧
    (∀ u, s.remote = [] → s.unconfirmed = [u] → u.port = port → (∃ p ∈ tabGetD s.routes u.pkt.dev [], p ≠ port ∧ p ∉ s.failedPorts) →
      ∃ t p, exec (.linkFailure port) s = .next t ∧ port ∈ t.failedPorts ∧ p ≠ port ∧ t.unconfirmed = [⟨p, u.pkt⟩] ∧ t.outbox = (s.enqueue p u.pkt).outbox ∧ t.mem = s.mem ∧ t.ctxs = s.ctxs) ∧
    (∀ tag r, s.remote = [(tag, r)] → r.port = some port → (∀ u ∈ s.unconfirmed, u.port ≠ port) →
      ((∀ dev t op wide pa x, r.pkt.body ≠ .cas dev t wide pa x op ∧ r.pkt.body ≠ .amo dev t .add wide pa x ∧ r.pkt.body ≠ .amo dev t .xor wide pa x) →
        (∃ p ∈ tabGetD s.routes r.pkt.dev [], p ≠ port ∧ p ∉ s.failedPorts) →
        ∃ t p, exec (.linkFailure port) s = .next t ∧ port ∈ t.failedPorts ∧ t.outbox = (s.enqueue p r.pkt).outbox ∧ tabGet t.remote tag = some { r with port := some p } ∧ p ≠ port ∧ t.mem = s.mem ∧ t.ctxs = s.ctxs) ∧
      (∀ dev tg wide pa x a y d, (∃ op, (op = .add ∨ op = .xor) ∧ r.pkt.body = .amo dev tg op wide pa x ∧ a.kind = .amo op wide y d) ∨ (∃ z w, r.pkt.body = .cas dev tg wide pa x z ∧ a.kind = .cas wide y w d) →
        r.dead = none → s.signalOf? tag = none → s.acc? r.owner = some a → (s.ctx a.ctx).alive = true → (s.ctx a.ctx).waiting = [] → (s.ctx a.ctx).reports.length < 8 →
        ∃ t, exec (.linkFailure port) s = .next t ∧ port ∈ t.failedPorts ∧ t.remote = [] ∧ t.mem = s.mem ∧ ∃ rep ∈ (t.ctx a.ctx).reports, rep.cause = 0x11 ∧ rep.detail = 1 ∧ rep.kind = 1))

/-- R343, R346, R353: XCOLL faults MISALIGNED, then TRANSLATION, at its slot for an order address that is not a multiple of 64 or not below 2^48; accepted, it is the next collective of its communicator, counts on TL and reads and writes nothing yet; one that the others have aborted takes the abort, and one whose peers hold has its timer held. That the job's number is that of the virtual function, and that aborts and holds are remembered for members that issue later, is the model's choice (log 35). -/
def Sys2Proof.Spec.CollectivesAreAccepted : Prop :=
  ∀ (a : GR) (s : State),
    ((s.rg a).toNat % 64 ≠ 0 → exec (.xcoll a) s = .next (s.slotFault .misaligned (s.rg a))) ∧
    ((s.rg a).toNat % 64 = 0 → 2 ^ 48 ≤ (s.rg a).toNat → exec (.xcoll a) s = .next (s.slotFault .translation (s.rg a))) ∧
    (∀ o b ms p r, s.xcollCheck (s.rg a) = .ok o b ms p → tabGet s.ranks s.cx.rank = some r →
      let k := tabGetD r.collNum o.comm 0
      ∃ t c, exec (.xcoll a) s = .next t ∧ t.colls = s.colls ++ [c] ∧ c.id = s.nextId + 1 ∧ c.rank = s.cx.rank ∧ c.ctx = s.cur ∧ c.job = r.job ∧ c.comm = o.comm ∧ c.k = k ∧
        c.addr = (s.rg a).toNat ∧ c.order = b ∧ c.members = ms ∧ c.pos = p ∧ c.begun = false ∧ c.sent = false ∧ c.unacked = [] ∧
        (∀ q, q ∈ c.held ↔ q < ms.length ∧ ((r.job, o.comm, q) ∈ s.holds ∨ ∃ vk n, ms[q]? = some vk ∧ s.jobRank? r.job vk = some n ∧ ((s.rankOf n).state = 2 ∨ (s.rankOf n).state = 3))) ∧
        ((∀ e ∈ s.collAborts, ¬(e.1 = r.job ∧ e.2.1 = o.comm ∧ e.2.2.1 = k)) → c.outcome = .open) ∧
        (∀ m, (r.job, o.comm, k, m) ∈ s.collAborts → (∀ e ∈ s.collAborts, e.1 = r.job ∧ e.2.1 = o.comm ∧ e.2.2.1 = k → e.2.2.2 = m) → c.outcome = if m then .mismatch else .abort) ∧ tabGetD (t.rankOf s.cx.rank).collNum o.comm 0 = k + 1 ∧
        t.cx.tl = s.cx.tl ++ [(s.nextId + 1, false)] ∧ t.cx.g = s.cx.g ∧ t.cx.ld = s.cx.ld ∧ t.mem = s.mem)

/-- R338, R343, R345, R346, R352: a member's endpoint begins to read its source, then sends order and shard as its contribution, whole to the members here, in pieces of at most 63 flits to another device, which it awaits the acceptance of; once every contribution is there, orders that differ but in SRC and TGT have position 0 abort the collective with nothing written, a non-finite value halts it at its culprit, and else the target's bytes are on their way to be written. A collective that has been decided does nothing more. -/
def Sys2Proof.Spec.CollectivesExchangeAndDecide : Prop :=
  ∀ (s : State) (id : Nat) (c : Coll), CollIs s id c →
    (c.outcome ≠ .open → ∀ p, exec (.collectivePacket id p) s = .next s) ∧
    (c.outcome = .open →
      (∀ a, c.begun = false → s.acc? c.rd = some a → a.acq = none → ∃ t b, exec (.collectivePacket id c.pos) s = .next t ∧ t.coll? id = some { c with begun := true } ∧
        t.contribs = s.contribs ∧ t.ctxs = s.ctxs ∧ t.acc? c.rd = some b ∧ ∀ q ∈ b.parts, q.st = .waiting ∨ ∃ e x, q.st = .failed e x) ∧
      (∀ a, c.begun = true → c.sent = false → s.acc? c.rd = some a → (∀ q ∈ a.parts, q.st = .done) → s.redslots = [] →
        (∀ x ∈ s.contribs, ¬(x.job = c.job ∧ x.comm = c.comm ∧ x.k = c.k ∧ x.pos = c.pos)) →
        let mine : Contribution := ⟨c.job, c.comm, c.k, c.pos, c.order, a.bytes.length, [(0, a.bytes)]⟩
        (AllHere s c.job c.members →
          ∃ t, exec (.collectivePacket id c.pos) s = .next t ∧ t.coll? id = some { c with sent := true, unacked := [] } ∧ t.acc? c.rd = none ∧ t.mem = s.mem ∧ t.ctxs = s.ctxs ∧ t.contribs = s.contribs ++ [mine]) ∧
        (∀ d, s.devicesOf c.job c.members = [d] → HasRoute s d → s.portHeld (s.rankOf c.rank).vf d = false →
          ∃ t, exec (.collectivePacket id c.pos) s = .next t ∧ t.coll? id = some { c with sent := true, unacked := (pieceOffsets a.bytes.length).map fun o => (d, o) } ∧ t.mem = s.mem ∧ t.ctxs = s.ctxs ∧
            t.contribs = s.contribs ++ [mine] ∧ ∀ o ∈ pieceOffsets a.bytes.length, ∃ u ∈ t.unconfirmed,
              u.pkt = ⟨d, .contribution Config.ownDevice c.job c.comm c.k c.pos c.order a.bytes.length o ((a.bytes.drop o).take 1952)⟩)) ∧
      (c.begun = true → c.sent = true →
        ((∃ p, p < c.members.length ∧ s.contribution? c p = none) → exec (.collectivePacket id c.pos) s = .next s) ∧
        (∀ got : Nat → Contribution, (∀ p, p < c.members.length → s.contribution? c p = some (got p)) →
          let same : Prop := ∀ p q, p < c.members.length → q < c.members.length → orderDigest (got p).order = orderDigest (got q).order
          let o := xorder c.order
          let data (p : Nat) : List Byte := ((s.contribution? c p).map Contribution.data).getD []
          let culprit := if o.exact = false ∧ o.ty.isFloat = true ∧ o.kind ≠ .none then o.culprit c.members.length data else none
          (¬same → c.pos ≠ 0 → exec (.collectivePacket id c.pos) s = .next s) ∧
          (¬same → c.pos = 0 → ∃ t, exec (.collectivePacket id c.pos) s = .next t ∧ t.mem = s.mem ∧ t.ctxs = s.ctxs ∧ ∀ d ∈ t.colls, d.job = c.job → d.comm = c.comm → d.k = c.k → d.outcome = .mismatch) ∧
          (same → ∀ p, culprit = some p → ∃ t, exec (.collectivePacket id c.pos) s = .next t ∧ t.coll? id = some { c with outcome := .halt (p == c.pos) } ∧ t.mem = s.mem) ∧
          (same → culprit = none → ∀ a, s.acc? c.id = some a → ∃ t b, exec (.collectivePacket id c.pos) s = .next t ∧ t.coll? id = some { c with outcome := .writing } ∧ t.acc? c.id = some b ∧
            b.bytes = (o.targetBytes c.members.length data c.pos).take ((a.parts.map fun q => q.en.length).sum)))))

/-- R347: a collective with an operation, but for an exact sum, combines the values of an element along the canonical tree over its positions: neighbours level by level, an absent partner passed over; a non-finite source value is found. -/
def Sys2Proof.Spec.CollectivesCombineAlongTheTree : Prop :=
  ∀ (o : XOrder) (l : List (Nat × Nat)) (d : Nat), l ≠ [] → l.length ≤ 2 ^ d → o.kind ≠ .none → ¬(o.exact = true ∧ o.kind = .sum) →
    treeNode o.combine (fun i => (l[i]?).map (·.2)) d 0 = some (o.value l).1 ∧
    (o.exact = false → ((o.value l).2.1 = none ↔ ∀ e ∈ l, nonFinite o.ty e.2 = false))

/-- R348, R200, R201: EXACT mode's SUM of floating-point values is the exact sum of all of them, rounded once by RNE into ELEM, whatever their order; a NaN, or both infinities, give NaN, and one infinity itself. -/
def Sys2Proof.Spec.ExactSumsAreRoundedOnce : Prop :=
  ∀ (o : XOrder) (l : List (Nat × Nat)), o.exact = true → o.kind = .sum → o.ty.isFloat = true → l.length ≤ 2 ^ 24 →
    let has (v : XVal) : Prop := ∃ e ∈ l, o.ty.elem.decode e.2 = v
    let rounded (v : XVal) : Nat := (convert o.ty.elem .rne 0 v).1
    (has .nan ∨ (has (.inf false) ∧ has (.inf true)) → (o.value l).1 = rounded .nan) ∧
    (∀ neg, ¬has .nan → has (.inf neg) → ¬has (.inf !neg) → (o.value l).1 = rounded (.inf neg)) ∧
    (∀ xs : List ℚ, l.map (fun e => ratOf (o.ty.elem.decode e.2)) = xs.map some →
      ∃ k : Int, (k : ℚ) * (2 : ℚ) ^ (-149 : ℤ) = xs.sum ∧ (o.value l).1 = rounded (.ofScaled k (-149))) ∧
    (∀ r, l.Perm r → (o.value r).1 = (o.value l).1)

/-- Position q holds the source element that lies at `x` in the global tensor, at the coordinates of p on the axes of TPART (R342, R345). -/
def Sys2Proof.Spec.Holds (o : XOrder) (p : Nat) (x : Nat → Nat) (q : Nat) : Prop :=
  (∀ a, a < 4 → o.tpart.testBit a = true → o.coord q a = o.coord p a) ∧ ∀ d, d < 4 → x d / (o.extents o.slay).getD d 1 = o.block (o.slay.getD d 0) q

/-- R342, R345: an element of a position's target is the value that its contributions come to, in ascending position; for every choice of coordinates on the source's partial axes, those of TPART being the position's own, there is one: the copy of the element that the lowest position holds. -/
def Sys2Proof.Spec.TargetsTakeTheirContributions : Prop :=
  ∀ (b : List Byte) (n p : Nat) (data : Nat → List Byte), let o := xorder b
    o.okIn n = true → p < n → (∀ a, o.tpart.testBit a = true → o.spart.testBit a = true) →
    let text := o.extents o.tlay
    let sext := o.extents o.slay
    let w := o.ty.width
    ∀ idx : List Nat, idx.length = 4 → (∀ d, d < 4 → idx.getD d 0 < text.getD d 1) →
      let x (d : Nat) : Nat := o.block (o.tlay.getD d 0) p * text.getD d 1 + idx.getD d 0
      let l := o.inputs n data p idx
      ((o.targetBytes n data p).drop (w * rowMajor text idx)).take w = leBytes w (o.value l).1 ∧
      l.Pairwise (fun e f => e.1 < f.1) ∧
      ∀ q v, (q, v) ∈ l ↔ q < n ∧ Holds o p x q ∧ (∀ r, r < q → Holds o p x r → ∃ a, a < 4 ∧ o.spart.testBit a = true ∧ o.coord r a ≠ o.coord q a) ∧
        v = leNat (((data q).drop (w * rowMajor sext ((List.range 4).map fun d => x d % sext.getD d 1))).take w)

/-- Position r lies beneath a node of level m with a non-finite value, in the tree of some element of some target; the nodes of level 0 are the source elements (R352). -/
def Sys2Proof.Spec.BeneathNonFinite (o : XOrder) (n : Nat) (data : Nat → List Byte) (m r : Nat) : Prop :=
  ∃ p i j v k, p < n ∧ i < (o.extents o.tlay).foldl (· * ·) 1 ∧
    let l := o.inputs n data p (unRowMajor (o.extents o.tlay) i)
    treeNode o.combine (fun e => (l[e]?).map (·.2)) m j = some v ∧ nonFinite o.ty v = true ∧ 2 ^ m * j ≤ k ∧ k < 2 ^ m * (j + 1) ∧ (l[k]?).map (·.1) = some r

/-- R352: the culprit of a floating-point collective that is ordered and has an operation is the lowest position beneath the non-finite nodes of the lowest level that has one, the source elements first; without one it does not halt. -/
def Sys2Proof.Spec.TheCulpritIsTheLowest : Prop :=
  ∀ (o : XOrder) (n : Nat) (data : Nat → List Byte), o.exact = false → o.ty.isFloat = true → o.kind ≠ .none →
    (∀ m r, BeneathNonFinite o n data m r → (∀ k, k < m → ∀ q, ¬BeneathNonFinite o n data k q) → (∀ q, q < r → ¬BeneathNonFinite o n data m q) → o.culprit n data = some r) ∧
    ((∀ m r, ¬BeneathNonFinite o n data m r) → o.culprit n data = none)

/-- R21, R343, R346, R350 to R353: a collective retires once its target is written and what its member sent is accepted, or with COLL_NONFINITE at its culprit, COLL_ABORTED at the others and after an abort, waiting for its context's boundary with the order's address; its TL count falls and its slots are free; where the orders differed nothing is written. A timer that reaches TIMEOUT aborts every member; a HOLD of another position stops it until RESUME. A reduction node that reduces across devices asks for a slot; requests that stand at the allocation port together are served in turn from the rotating pointer on, each with the first free slot of 64, and are refused when none is free; a lease that ends frees its slot and gives what it holds to the endpoints. Which requests stand together, that a grant takes the first free slot, and that a slot holds the contributions that came from beneath its node are the model's choices (log 36). -/
def Obligations.CollectivesRetireAndTimeOut : Prop :=
  (∀ (s : State) (id : Nat) (c : Coll), CollIs s id c →
    (∀ p, p ≠ c.pos → exec (.collectiveRetire id p) s = .next s) ∧ (c.outcome = .open → exec (.collectiveRetire id c.pos) s = .next s) ∧
    (∀ a, c.outcome = .writing → s.acc? c.id = some a → (∀ q ∈ a.parts, q.st = .done) →
      (c.unacked ≠ [] → exec (.collectiveRetire id c.pos) s = .next s) ∧
      (c.unacked = [] → ∃ t, exec (.collectiveRetire id c.pos) s = .next t ∧ (∀ d ∈ t.colls, d.id ≠ id) ∧ TileRetired s t c.ctx c.id ∧ (∀ r ∈ t.redslots, r.coll ≠ id) ∧ t.mem = s.mem ∧
        (t.ctx c.ctx).failures = (s.ctx c.ctx).failures ∧ (t.ctx c.ctx).g = (s.ctx c.ctx).g)) ∧
    (∀ cause, (c.outcome = .halt true ∧ cause = .collNonfinite) ∨ (c.outcome = .halt false ∧ cause = .collAborted) ∨ ((c.outcome = .abort ∨ c.outcome = .mismatch) ∧ cause = .collAborted) →
      (s.ctx c.ctx).alive = true → ∃ t f, exec (.collectiveRetire id c.pos) s = .next t ∧ (∀ d ∈ t.colls, d.id ≠ id) ∧ TileRetired s t c.ctx c.id ∧ (∀ r ∈ t.redslots, r.coll ≠ id) ∧
        (t.ctx c.ctx).failures = (s.ctx c.ctx).failures ++ [f] ∧ f.cause = cause ∧ f.addr = c.addr ∧ (t.ctx c.ctx).g = (s.ctx c.ctx).g ∧ (c.outcome = .mismatch → t.mem = s.mem)) ∧
    (∀ p, (∀ d ∈ s.colls, ¬(d.job = c.job ∧ d.comm = c.comm ∧ d.k = c.k ∧ d.pos = p)) → exec (.collTimeout id p) s = .next s) ∧
    (∀ p d, (s.colls.find? fun x => x.job == c.job && x.comm == c.comm && x.k == c.k && x.pos == p) = some d →
      (timeoutOf d.order = 0 ∨ (∃ q ∈ d.held, q ≠ p) → exec (.collTimeout id p) s = .next s) ∧
      (timeoutOf d.order ≠ 0 → (∀ q ∈ d.held, q = p) → ∃ t, exec (.collTimeout id p) s = .next t ∧ t.mem = s.mem ∧ t.ctxs = s.ctxs ∧
        (∃ m, (c.job, c.comm, c.k, m) ∈ t.collAborts) ∧ t.colls = s.colls.map fun x => if x.job = c.job ∧ x.comm = c.comm ∧ x.k = c.k ∧ x.outcome ≠ .mismatch then { x with outcome := .abort } else x)) ∧
    (∀ job comm p, (∃ t, exec (.holdNotice job comm p) s = .next t ∧ t.mem = s.mem ∧ t.ctxs = s.ctxs ∧ (∀ h, h ∈ t.holds ↔ h ∈ s.holds ∨ h = (job, comm, p)) ∧
        t.coll? id = some { c with held := if c.job = job ∧ c.comm = comm ∧ p ∉ c.held then c.held ++ [p] else c.held }) ∧
      (∃ t, exec (.resumeNotice job comm p) s = .next t ∧ t.mem = s.mem ∧ t.ctxs = s.ctxs ∧ (∀ h, h ∈ t.holds ↔ h ∈ s.holds ∧ h ≠ (job, comm, p)) ∧
        t.coll? id = some { c with held := if c.job = job ∧ c.comm = comm then c.held.filter (fun q => q != p) else c.held })) ∧
    (∀ node port, ¬((id, node, port) ∈ s.slotReqs) →
      (s.mayAsk c node = true → port < 128 → exec (.slotRequest id node port) s = .next { s with slotReqs := s.slotReqs ++ [(id, node, port)] }) ∧
      (s.mayAsk c node = false ∨ 128 ≤ port → exec (.slotRequest id node port) s = .next s)) ∧
    (∀ node, (xorder c.order).kind = .none ∨ (∃ d ∈ s.colls, d.job = c.job ∧ d.comm = c.comm ∧ d.k = c.k ∧ d.sent = true) ∨ AllHere s c.job c.members ∨ (∃ r ∈ s.redslots, r.coll = id ∧ r.node = node) → s.mayAsk c node = false) ∧
    (∀ node port, s.slotReqs = [(id, node, port)] →
      (∀ n, n < 64 → (∀ r ∈ s.redslots, r.slot ≠ n) → (∀ m, m < n → ∃ r ∈ s.redslots, r.slot = m) →
        exec (.slotRequest id node port) s = .next { s with slotReqs := [], redslots := s.redslots ++ [⟨n, id, node, []⟩], slotPtr := (port + 1) % 128 }) ∧
      ((∀ n, n < 64 → ∃ r ∈ s.redslots, r.slot = n) → exec (.slotRequest id node port) s = .next { s with slotReqs := [] })) ∧
    (∀ node port e f, (s.slotReqs = [e, f] ∨ s.slotReqs = [f, e]) → ((id, node, port) = e ∨ (id, node, port) = f) → s.redslots = [] →
      (e.2.2 + 128 - s.slotPtr % 128) % 128 < (f.2.2 + 128 - s.slotPtr % 128) % 128 →
      exec (.slotRequest id node port) s = .next { s with slotReqs := [], redslots := [⟨0, e.1, e.2.1, []⟩, ⟨1, f.1, f.2.1, []⟩], slotPtr := (f.2.2 + 1) % 128 })) ∧
  (∀ (s : State) (n : Nat), exec (.slotLeaseExpiry n) s =
    .next { s with redslots := s.redslots.filter fun r => !(r.slot == n), contribs := ((s.redslots.filter fun r => r.slot == n).flatMap (·.partials)).foldl mergePiece s.contribs })

namespace Sys2Proof.Spec

open Sys2Proof Sys2Proof.Machine

/-- Nothing but memory's A and D bits, the packets on their way and the record of an access part differs: the contexts are as they were. -/
def SameContexts (s t : State) : Prop := t.ctxs = s.ctxs

/-- A rank of this device is resident and has shuffle h open, past its entries, not aborted. -/
def OpenAt (s : State) (rank : Nat) (h : Shuf) : Prop :=
  (s.rankOf rank).state = 1 ∧ s.shuf? rank h.shid = some h ∧ h.rank = rank ∧ h.stage ≠ 0 ∧ h.abort = none

/-- Receive entry e of h stands for block blk, and its block has not come. -/
def Awaits (h : Shuf) (blk : Nat) (e : RecvEntry) : Prop := h.recvs.find? (fun x => x.blk == blk) = some e ∧ e.came = .no

/-- In `t` the block of entry e of the shuffle with access `acc` has come as `how`, and its bytes are on their way to its target. -/
def BlockOnItsWay (t : State) (rank : Nat) (h : Shuf) (e : RecvEntry) (a : Acc) (bytes : List Byte) (how : Came) : Prop :=
  (∃ g, t.shuf? rank h.shid = some g ∧ ∀ x ∈ g.recvs, x.first = e.first → x.blk = e.blk → x.came = how) ∧
    ∃ b, t.acc? h.acc = some b ∧
      ((b.parts.drop e.first).take e.count).flatMap (·.data) = bytes.take ((((a.parts.drop e.first).take e.count).map fun p => p.en.length).sum)

/-- The blocks of a shuffle's status area (R369): plain, decoded, fallbacks, zero. -/
def statusOf (h : Shuf) : List Byte :=
  leBytes 8 (h.recvs.filter fun e => e.came == .plain).length ++ leBytes 8 (h.recvs.filter fun e => e.came == .decoded).length ++ leBytes 8 h.fallback ++ leBytes 8 0

end Sys2Proof.Spec

/-- R355, R362: XSHUF faults MISALIGNED, then TRANSLATION, at its slot for a plan address that is not a multiple of 64 or not below 2^48; accepted, it has the next generation of its rank, which is not 0, counts on TL, and has sent and received nothing yet. -/
def Sys2Proof.Spec.ShufflesAreAccepted : Prop :=
  ∀ (a : GR) (s : State),
    ((s.rg a).toNat % 64 ≠ 0 → exec (.xshuf a) s = .next (s.slotFault .misaligned (s.rg a))) ∧
    ((s.rg a).toNat % 64 = 0 → 2 ^ 48 ≤ (s.rg a).toNat → exec (.xshuf a) s = .next (s.slotFault .translation (s.rg a))) ∧
    (∀ b ms p r, s.xshufCheck (s.rg a) = .ok b ms p → tabGet s.ranks s.cx.rank = some r →
      ∃ t h, exec (.xshuf a) s = .next t ∧ t.shufs = s.shufs ++ [h] ∧ h.acc = s.nextId + 1 ∧ h.rank = s.cx.rank ∧ h.ctx = s.cur ∧ h.job = r.job ∧ h.comm = opnd b 4 2 ∧ h.shid = opnd b 0 4 ∧
        h.blen = opnd b 6 1 ∧ h.header = b ∧ h.members = ms ∧ h.pos = p ∧ h.stage = 0 ∧ h.sends = [] ∧ h.recvs = [] ∧ h.fallback = 0 ∧ h.abort = none ∧
        h.gen = (if (r.shufGen + 1) % 65536 = 0 then 1 else (r.shufGen + 1) % 65536) ∧ (t.rankOf s.cx.rank).shufGen = h.gen ∧
        t.cx.tl = s.cx.tl ++ [(s.nextId + 1, false)] ∧ t.cx.g = s.cx.g ∧ t.cx.st = s.cx.st)

/-- R360, R368, R379: a plain packet that arrives at an open endpoint puts its block on the way to its target, once; a second one for the block is dropped; one for a block that no entry names aborts the shuffle; a packet in error, or whose envelopes do not check, leaves its target undefined and its entry forsaken. An endpoint that is not resident, or has not opened the shuffle, spills it, and when its spill area is full it refuses it with RETRY: the sender keeps it, here or on its device. That a packet takes its flits of the spill area (log 17), and that a first packet in error counts as a failed fallback (log 37), is the model's choice. -/
def Sys2Proof.Spec.ShufflePacketsArrive : Prop :=
  ∀ (s : State) (p : ShufPkt) (rank : Nat), s.arrives p = true → s.jobRank? p.job p.vk = some rank →
    let here (s : State) : State := { s with inbox := s.inbox.erase (.shuffle p) }
    (∀ h, OpenAt s rank h → h.shid = p.shid →
      (∀ e a, Awaits h p.blk e → p.bad = false → envelopes p.payload = p.crc → s.acc? h.acc = some a → ∃ t, exec (.shufflePacket p) s = .next t ∧ SameContexts s t ∧ BlockOnItsWay t rank h e a p.payload .plain) ∧
      (∀ e a, Awaits h p.blk e → p.bad = true ∨ envelopes p.payload ≠ p.crc → s.acc? h.acc = some a → ∃ t g, exec (.shufflePacket p) s = .next t ∧ SameContexts s t ∧ t.shuf? rank h.shid = some g ∧
        ∀ x ∈ g.recvs, x.first = e.first → x.blk = e.blk → x.came = .failed ∧ x.written = true) ∧
      (∀ e, h.recvs.find? (fun x => x.blk == p.blk) = some e → e.came ≠ .no → exec (.shufflePacket p) s = .next (here s)) ∧
      ((∀ e ∈ h.recvs, e.blk ≠ p.blk) → ∃ t g, exec (.shufflePacket p) s = .next t ∧ t.shuf? rank h.shid = some g ∧ g.abort = some none)) ∧
    (∀ r, tabGet s.ranks rank = some r → (r.state ≠ 1 ∨ (∀ h ∈ s.shufs, ¬(h.rank = rank ∧ h.shid = p.shid ∧ h.stage ≠ 0))) →
      ((r.spilled.map packetBytes).sum + (32 + p.payload.length) ≤ 65536 * r.spillsz →
        exec (.shufflePacket p) s = .next { here s with ranks := tabSet s.ranks rank { r with spilled := r.spilled ++ [.shuffle p] } }) ∧
      (65536 * r.spillsz < (r.spilled.map packetBytes).sum + (32 + p.payload.length) →
        (p.dev = Config.ownDevice → exec (.shufflePacket p) s = .next { here s with retries := s.retries ++ [.shuffle p] }) ∧
        (HasRoute s p.dev → ∃ t, exec (.shufflePacket p) s = .next t ∧ Leaves (here s) ⟨p.dev, .retry (.shuffle p)⟩ t)))

/-- R206, R364 to R367: an overprint gives each receiver's block back from the other's; the endpoint reads the other block, where the receiver holds it, line by line; with the last line the block is decoded if it is whole by its envelopes, and goes to its target, its entry of the decode buffer staying until it is written; where the other block is not held or cannot be read, or the envelopes differ, the sender is asked for the block plain, and the FALLBACK count rises. A packet that waits too long leaves the pairing window plain, to the endpoint here or to its receiver's device; a block sent again leaves as a packet that is not paired. The order of the lines is the model's choice (log 37). -/
def Sys2Proof.Spec.OverprintsAreDecodedOrFallBack : Prop :=
  (∀ p q : ShufPkt, p.payload.length = q.payload.length → xorOf (overprintOf p q).payload q.payload = p.payload ∧ xorOf (overprintOf p q).payload p.payload = q.payload) ∧
  (∀ (s : State) (group : Nat), (∀ d ∈ s.decoding, d.group ≠ group) → exec (.overprintDecode group) s = .next s) ∧
  (∀ (s : State) (d : Decoding) (rest : List Decoding) (rank : Nat) (h : Shuf) (e : RecvEntry) (a : Acc), s.decoding = d :: rest → d.op.payload.length ≤ 2016 → (d.read = [] ∨ d.read.length < d.op.payload.length) →
    let mine := if d.second then d.op.q else d.op.p
    let other := if d.second then d.op.p else d.op.q
    s.jobRank? mine.job mine.vk = some rank → OpenAt s rank h → h.shid = mine.shid → Awaits h mine.blk e → s.acc? h.acc = some a →
    let fellBack (u : State) : Prop := u.decoding = rest ∧ (∃ g, u.shuf? rank h.shid = some g ∧ g.fallback = h.fallback + 1 ∧ g.recvs = h.recvs) ∧
      u.inbox = s.inbox ++ [.reissue h.job h.shid e.blk e.sender h.pos]
    (∀ x, s.heldBlock h other.blk = some x →
      let at' := x + d.read.length
      let n := min (128 - at' % 128) (32 * h.blen - d.read.length)
      (∀ b t, s.hubGet h.rank at' n = .ok b t →
        ((d.read ++ b).length < 32 * h.blen → ∃ u, exec (.overprintDecode d.group) s = .next u ∧ SameContexts s u ∧ u.decoding.head? = some { d with read := d.read ++ b } ∧ u.shufs = s.shufs ∧ u.accs = s.accs) ∧
        (32 * h.blen ≤ (d.read ++ b).length →
          (envelopes (xorOf d.op.payload (d.read ++ b)) = mine.crc →
            ∃ u, exec (.overprintDecode d.group) s = .next u ∧ BlockOnItsWay u rank h e a (xorOf d.op.payload (d.read ++ b)) .decoded ∧ u.decoding.head? = some { d with read := d.read ++ b }) ∧
          (envelopes (xorOf d.op.payload (d.read ++ b)) ≠ mine.crc → s.rankHere h.job (h.members.getD e.sender 0) = true → ∃ u, exec (.overprintDecode d.group) s = .next u ∧ fellBack u))) ∧
      (∀ c y, s.hubGet h.rank at' n = .fail c y → s.rankHere h.job (h.members.getD e.sender 0) = true → ∃ u, exec (.overprintDecode d.group) s = .next u ∧ fellBack u)) ∧
    (s.heldBlock h other.blk = none → s.rankHere h.job (h.members.getD e.sender 0) = true → ∃ u, exec (.overprintDecode d.group) s = .next u ∧ fellBack u)) ∧
  (∀ (s : State) (i : Nat), s.pairing.length ≤ i → exec (.pairingTimeout i) s = .next s) ∧
  (∀ (s : State) (i : Nat) (p : ShufPkt), s.pairing[i]? = some p →
    (s.rankHere p.job p.vk = true → exec (.pairingTimeout i) s = .next { s with pairing := s.pairing.eraseIdx i, inbox := s.inbox ++ [.shuffle p] }) ∧
    (∀ d, s.rankHere p.job p.vk = false → (if p.dest = Config.ownDevice then tabGet s.located (p.job * 65536 + p.vk) = some d else d = p.dest) → HasRoute s d → p.dev ≠ Config.ownDevice →
      ∃ t, exec (.pairingTimeout i) s = .next t ∧ Leaves { s with pairing := s.pairing.eraseIdx i } ⟨d, .shuffle { p with dest := d }⟩ t)) ∧
  (∀ (s : State) (rank shid blk dst : Nat) (h : Shuf) (e : SendEntry) (b : List Byte) (u : State), s.shuf? rank shid = some h →
    let msg : PktBody := .reissue h.job h.shid blk h.pos dst
    shid = h.shid → msg ∈ s.inbox → h.sends.find? (fun x => x.blk == blk && x.dest == dst) = some e → State.hubGet { s with inbox := s.inbox.erase msg } rank e.src (32 * h.blen) = .ok b u →
    s.rankHere h.job (h.members.getD e.dest 0) = true →
    ∃ t q, exec (.reissuePlain rank shid blk dst) s = .next t ∧ t = { u with inbox := u.inbox ++ [.shuffle q] } ∧ q.payload = b ∧ q.crc = envelopes b ∧ q.plainOnly = true ∧ q.bad = false ∧
      q.job = h.job ∧ q.shid = h.shid ∧ q.blk = e.blk ∧ q.src = h.pos ∧ q.dst = e.dest ∧ q.vk = h.members.getD e.dest 0)

/-- R356, R359, R364, R369, R370: an abort retires a member's XSHUF with COLL_ABORTED and its plan's address, or with the cause that the member found, and leaves targets that are written; a timer that reaches TIMEOUT aborts the shuffle, but not while a HOLD of another position stops it; with every target written and every block acknowledged the XSHUF retires, its status area written first; an endpoint that has read its blocks sends them: a block enters the pairing window. Which part of an abort comes for a shuffle that is not open, and that an unreadable source aborts, is the model's (log 37). -/
def Sys2Proof.Spec.ShufflesRetireAndAbort : Prop :=
  ∀ (s : State) (rank shid : Nat) (h : Shuf), s.shuf? rank shid = some h → h.rank = rank → h.shid = shid →
    let notice : PktBody := .shufAbort h.job (h.members.getD h.pos 0) shid h.pos h.num
    (∀ found, (h.abort = some found ∨ (h.abort = none ∧ found = none ∧ notice ∈ s.inbox)) → (s.ctx h.ctx).alive = true → (s.ctx h.ctx).waiting = [] → (s.ctx h.ctx).reports.length < 8 →
      ∃ t, exec (.shuffleAbort rank shid) s = .next t ∧ (∀ g ∈ t.shufs, g.acc ≠ h.acc) ∧ TileRetired s t h.ctx h.acc ∧ (t.ctx h.ctx).g = (s.ctx h.ctx).g ∧ (h.stage ≠ 0 → (∀ e ∈ h.recvs, e.written = true) → t.mem = s.mem) ∧
        ∃ rep ∈ (t.ctx h.ctx).reports, rep.kind = 1 ∧ (found = none → rep.cause = 0x14 ∧ rep.faddr = h.addr) ∧ (∀ c x, found = some (c, x) → rep.cause = c.code ∧ rep.faddr = x)) ∧
    (h.abort = none → notice ∉ s.inbox → AllHere s h.job h.members → exec (.shuffleAbort rank shid) s = .next s) ∧
    (opnd h.header 0x14 4 = 0 ∨ (∃ q ∈ h.held, q ≠ h.pos) ∨ h.abort ≠ none → exec (.shuffleTimeout rank shid) s = .next s) ∧
    (opnd h.header 0x14 4 ≠ 0 → (∀ q ∈ h.held, q = h.pos) → h.abort = none → ∃ t g, exec (.shuffleTimeout rank shid) s = .next t ∧ t.shuf? rank shid = some g ∧ g.abort = some none ∧ SameContexts s t) ∧
    (h.stage = 2 → h.abort = none → (∀ e ∈ h.recvs, e.written = true ∧ e.came ≠ .failed) → (∀ e ∈ h.sends, e.acked = true) →
      ∀ x u, s.hubPut rank (opnd h.header 0x30 8) (statusOf h) = .ok x u →
        ∃ t, exec (.shuffleRetire rank shid) s = .next t ∧ t.mem = u.mem ∧ (∀ g ∈ t.shufs, g.acc ≠ h.acc) ∧ TileRetired s t h.ctx h.acc ∧ (t.ctx h.ctx).failures = (s.ctx h.ctx).failures) ∧
    (∀ a b, h.stage = 1 → h.abort = none → s.acc? h.acc = some a → s.acc? h.rd = some b → (∀ q ∈ b.parts, q.st = .done) → (∀ e ∈ h.recvs, e.came = .no) →
      (h.sends = [] → ∃ t, exec (.shuffleRetire rank shid) s = .next t ∧ t.shuf? rank shid = some { h with stage := 2 } ∧ t.acc? h.rd = none ∧ t.mem = s.mem) ∧
      (∀ e, h.sends = [e] → s.rankHere h.job (h.members.getD e.dest 0) = true → s.pairing = [] →
        ∃ t q, exec (.shuffleRetire rank shid) s = .next t ∧ t.shuf? rank shid = some { h with stage := 2 } ∧ t.acc? h.rd = none ∧ t.mem = s.mem ∧ t.pairing = [q] ∧ t.inbox = s.inbox ∧
          q.payload = b.bytes.take (32 * h.blen) ∧ q.crc = envelopes q.payload ∧ q.job = h.job ∧ q.shid = h.shid ∧ q.blk = e.blk ∧ q.src = h.pos ∧ q.dst = e.dest ∧ q.vk = h.members.getD e.dest 0 ∧ q.holders = e.holders))

/-- R379: a packet for a rank that is descheduled or migrating is spilled while its spill area has room, and a request packet that finds it full goes back to its sender; a sender here keeps a packet that was refused, and the one kept longest is sent again first. That packets of the other classes are kept in any case is the model's (log 17). -/
def Sys2Proof.Spec.SpilledPacketsAreKept : Prop :=
  ∀ s : State,
    (∀ rank r b, tabGet s.ranks rank = some r →
      (r.state = 2 ∨ r.state = 3 →
        ((r.spilled.map packetBytes).sum + packetBytes b ≤ 65536 * r.spillsz ∨ pktClass b ≠ .request →
          exec (.spill rank b) s = .next { s with inbox := s.inbox.erase b, ranks := tabSet s.ranks rank { r with spilled := r.spilled ++ [b] } }) ∧
        (65536 * r.spillsz < (r.spilled.map packetBytes).sum + packetBytes b → pktClass b = .request →
          (senderOf b = Config.ownDevice → exec (.spill rank b) s = .next { s with inbox := s.inbox.erase b, retries := s.retries ++ [b] }) ∧
          (HasRoute s (senderOf b) → ∃ t, exec (.spill rank b) s = .next t ∧ Leaves { s with inbox := s.inbox.erase b } ⟨senderOf b, .retry b⟩ t))) ∧
      (r.state = 0 ∨ r.state = 1 → exec (.spill rank b) s = .next s)) ∧
    (∀ rank b, tabGet s.ranks rank = none → exec (.spill rank b) s = .next s) ∧
    (∀ p : ShufPkt, (∃ h ∈ s.shufs, h.job = p.job ∧ h.shid = p.shid ∧ h.pos = p.src) → p.dev = Config.ownDevice → exec (.retry (.shuffle p)) s = .next { s with retries := s.retries ++ [.shuffle p] }) ∧
    (∀ p : ShufPkt, (∀ h ∈ s.shufs, ¬(h.job = p.job ∧ h.shid = p.shid ∧ h.pos = p.src)) → exec (.retry (.shuffle p)) s = .next s) ∧
    (∀ p l, s.retries = .shuffle p :: l → s.rankHere p.job p.vk = true → exec .retryResend s = .next { s with retries := l, inbox := s.inbox ++ [.shuffle p] }) ∧
    (s.retries = [] → exec .retryResend s = .next s)

namespace Sys2Proof.Spec

open Sys2Proof Sys2Proof.Machine

/-- `exec` of i at s answers a next state, of which e holds. -/
def Completes (i : Instr) (s : State) (e : State → Prop) : Prop := ∃ t, exec i s = .next t ∧ e t

/-- More results of the present context are in flight; the issue has not trapped and memory keeps its bytes. -/
def PutsInFlight (s t : State) : Prop := t.issue = s.issue ∧ SameMemory s t ∧ ∃ l, l ≠ [] ∧ t.cx.inflight = s.cx.inflight ++ l

end Sys2Proof.Spec

/-- The operations of the S, C and L slots that wait, hint, group and order, complete under their conditions for normal execution: snop, cnop, lnop, vnop, mnop, xnop, yield, wait and drain change nothing (R67, R100, R101, R216); pref, prefd and clean touch the caches only (R102, R234, R235); fence, expose and fix become outstanding or act (R232, R240, R245); waitm and ldrec put their word in flight (R233, R244); gjoin, gleave, gbar and gcnt act on their group (R156 to R159). -/
def Sys2Proof.Spec.WaitsHintsAndGroupsComplete : Prop :=
  ∀ s : State,
    Completes .snop s (· = s) ∧ Completes .cnop s (· = s) ∧ Completes .lnop s (· = s) ∧ Completes .vnop s (· = s) ∧ Completes .mnop s (· = s) ∧ Completes .xnop s (· = s) ∧
    Completes .yield s (· = s) ∧ (∀ ld st cp tl : BitVec 4, Completes (.wait ld st cp tl) s (· = s)) ∧ Completes .drain s (· = s) ∧
    (∀ x a o, Completes (.pref x a o) s fun t => t.ctxs = s.ctxs ∧ SameMemory s t) ∧
    (∀ x a l2 o, Completes (.prefd x a l2 o) s fun t => t = { s with cores := t.cores, tlb2 := t.tlb2, free := t.free, bad := t.bad, hub := t.hub }) ∧
    (∀ x n a o, Completes (.clean x n a o) s fun t => t = { s with cores := t.cores, tlb2 := t.tlb2, free := t.free, bad := t.bad, hub := t.hub }) ∧
    (∀ sc k, Completes (.fence sc k) s (· = withAccess s
      ⟨16, .read, 0, 0, 1, fun _ => false, fun _ => 0, .fence k, .none, if k = .release then none else some sc, k != .acquire⟩ [⟨0, 0, false, [], [], .waiting⟩])) ∧
    (∀ (a : GR) (g : BitVec 10), let n := groupNumOf s a g
      (s.group? s.cx.rank n = none → groupsJoined s < 8 → s.groups.length < 1024 →
        Completes (.gjoin a g) s fun t => OnlyGroup s t n ∧ t.group? s.cx.rank n = some ⟨s.cx.rank, n, 0, [s.cur], [], none, [], []⟩) ∧
      (∀ x, s.group? s.cx.rank n = some x →
        (∀ d, Completes (.gcnt d a g) s (· = pending s 1 (.g d (BitVec.ofNat 64 (x.members.length + x.next.length))))) ∧
        (MemberOf s x → Completes (.gleave a g) s fun t => OnlyGroup s t n ∧ ∀ y, t.group? s.cx.rank n = some y → ¬MemberOf s y) ∧
        (tabGet s.cx.held s.issue.slot = none → Quiet s → s.cur ∈ x.members → s.cur ∉ x.next →
          Completes (.gbar a g) s fun t => tabGet t.cx.held s.issue.slot = some (.barrier n x.phase) ∧
            t.group? s.cx.rank n = some { x with required := some (x.required.getD x.members), arrived := x.arrived ++ [s.cur] }) ∧
        (tabGet s.cx.held s.issue.slot = some .released → Completes (.gbar a g) s fun t => tabGet t.cx.held s.issue.slot = none ∧
          t = { s with cores := t.cores, ctxs := tabSet s.ctxs s.cur { s.cx with held := t.cx.held } }))) ∧
    (∀ (g a b : GR) (sc : Scope) (e : TlbEntry), let A := (s.rg a).toNat
      let pa := e.pa + (A - e.va)
      A + 8 ≤ 2 ^ 48 → A % 8 = 0 → Mapped s .read e A 8 → paRemote pa = false → (∀ w ∈ s.wins, w.rank ≠ s.cx.rank) → s.cells = [] → s.bad = [] → Quiet s →
      tabGet s.cx.held s.issue.slot = none → (s.rg b).toNat ≤ s.mem.readLE pa 8 →
      Completes (.waitm g a b sc) s fun t => t.cx.inflight = s.cx.inflight ++ [⟨s.cx.step + 1, .g g (BitVec.ofNat 64 (s.mem.readLE pa 8))⟩] ∧ t.issue = s.issue) ∧
    (∀ (a b : GR) (e f : TlbEntry), let A := (s.rg a).toNat
      let B := (s.rg b).toNat
      A % 64 = 0 → B % 64 = 0 → A < 2 ^ 48 → B < 2 ^ 48 → Mapped s .write e A 64 → Mapped s .read f B 64 → paRemote (e.pa + (A - e.va)) = false → e.bits.testBit bitLC = true →
      Completes (.expose a b) s fun t => t.nextId = s.nextId + 1 ∧ t.cx.st = s.cx.st ++ [(s.nextId, false)] ∧ t.accs.length = s.accs.length + 1 ∧ t.issue = s.issue ∧ SameMemory s t) ∧
    (∀ (a b : GR) (p q : Part) (t : State) (l : List Byte) (id : Nat) (x : Cell), s.cellCheck (s.rg a) (s.rg b) false = .ok p q t → SameButOwned s t → p.pa % 64 = 0 → s.mem.wf = true →
      s.heldBytes? = some (l, id) → l.length = 64 → s.mustWait .store none true [p] = false → tabGet s.cells (p.pa / 64) = some x → p.lc = true → x.tag = .developing → x.eval = some s.cur →
      x.readers = [] → x.cmds = [] → Completes (.fix a b) s fun u => tabGet u.cells (p.pa / 64) = none ∧ ∀ j, j < 64 → u.mem.get (p.pa + j) = l.getD j 0) ∧
    (∀ (g a b : GR) (e : TlbEntry) (x : Cell), let A := (s.rg a).toNat
      let pa := e.pa + (A - e.va)
      A % 64 = 0 → A < 2 ^ 48 → Mapped s .read e A 64 → tabGet s.cells (pa / 64) = some x → e.bits.testBit bitLC = true → x.tag = .developing → x.eval = some s.cur → Quiet s → s.bad = [] →
      Completes (.ldrec g a b) s (· = pending s 1 (.g g (BitVec.ofNat 64 (s.mem.readLE (pa + 8 * ((s.rg b).toNat % 8)) 8)))))

/-- The V slot: every legal operation whose streams are ready puts results in flight (R20, R106): vadd, vsub, vmul, vfma, vmin, vmax, vabs, vneg, vadds, vsubs, vand, vor, vxor, vshl, vshr, vsar, vclamp, vdiv, vsqrt, vrcp, vrsq, vexp, vexp2, vlog2, vtanh, vrint, vcmp, vsel, vcvt, vred, vscan, vpart, vgath, vscat, vperm, vzip, vunzip, vbcast, vext, vins, viota, vrand, plog, pcnt and vmov. The M slot, without a shadow field, for the owner of the matrix state: mpush, mpushz, mdrain, mdrainz, mdrains, mdrainw, mzero, mswap, mmodeWrap, mmodeSat, mmodeClrovf, mlds, mldst and mldss under the conditions of R128 to R140; mstsave and mstload in S mode (R142, R143). -/
def Sys2Proof.Spec.LaneAndMatrixOperationsComplete : Prop :=
  ∀ s : State,
    (∀ i : Instr, i.slot = some .v → i ≠ .vnop → i.wf = true → StreamsReady s (usesOf s.cx i).q → Completes i s (PutsInFlight s)) ∧
    (OwnsMatrix s → ∀ (a w : AR) (am sm : Bool), let r := walkerOf s w / 256
      let f := rowFmt s r
      let m := (s.core s.cx.coreNum).mat
      let inWindow : Prop := r < 256 * s.cx.kernel.banks ∧ ¬HoldsScales s r
      (∀ qs k, PushRow s w qs k → ¬HoldsScales s k → Pairs (rowFmt s k) m.activeFmt →
        Completes (.mpush a am w sm qs none) s (PutsInFlight s) ∧ Completes (.mpushz a am w sm qs none) s (PutsInFlight s)) ∧
      (∀ d, Completes (.mdrain a am d none) s (PutsInFlight s) ∧ Completes (.mdrainz a am d none) s (PutsInFlight s)) ∧
      (r + (if f = .raw ∨ f = .f32 then 2 else 1) ≤ 256 * s.cx.kernel.banks → ¬HoldsScales s r → f.isAq = false → (∀ c ∈ s.cmds, c.ctx ≠ s.cur) →
        Completes (.mdrains a am w sm none) s (PutsInFlight s)) ∧
      (∀ g, (s.rg g).toNat % 4 = 0 → Completes (.mdrainw a am g none) s fun t => t.accs.length = s.accs.length + 1 ∧ t.cx.tl = s.cx.tl ++ [(s.nextId, false)] ∧ t.issue = s.issue) ∧
      Completes (.mzero a am none) s (PutsInFlight s) ∧
      Completes .mswap s (· = withDirty (pending s 1 .swap)) ∧ Completes (.mmodeWrap none) s (· = withDirty (pending s 1 (.sat false))) ∧
      Completes (.mmodeSat none) s (· = withDirty (pending s 1 (.sat true))) ∧ Completes (.mmodeClrovf none) s (· = withDirty (pending s 1 .clrOvf)) ∧
      (inWindow → Completes (.mldss w sm) s (PutsInFlight s)) ∧
      (inWindow → f ≠ .raw → ¬RecordDiffers s m r → ¬(f.isAq = true ∧ s.cx.kernel.banks ≤ sideOf s r) →
        Completes (.mlds w sm) s (PutsInFlight s) ∧ Completes (.mldst w sm) s (PutsInFlight s))) ∧
    (∀ (g : GR), let A := (s.rg g).toNat
      (∀ a ∈ s.accs, a.core = s.cx.coreNum → ∀ n, a.kind ≠ .load (.image n)) → s.cx.mode = true → A % 4096 = 0 → A + 147456 ≤ 2 ^ 48 →
      (∀ e, Mapped s .write e A 147456 → Completes (.mstsave g none) s fun t => t.cx.st = s.cx.st ++ [(s.nextId, false)] ∧ t.accs.length = s.accs.length + 1 ∧
        (t.core s.cx.coreNum).mdirty = false) ∧
      (∀ e, Mapped s .read e A 147456 → Completes (.mstload g none) s fun t => t.cx.ld = s.cx.ld ++ [(s.nextId, false)] ∧ t.accs.length = s.accs.length + 1 ∧
        (t.core s.cx.coreNum).mdirty = false))

/-- The X slot under the conditions of normal execution (R256, R272, R275 to R282, R161 to R166, R343, R355): the copy commands cpLd, cpSt, cpMv, cpm, cpg, cps, cpw, cpfScratch and cpfGlobal are taken; xshape, spdef, sbind, sbindNone, spadvP, spadvC, xfmt, xstat, rngsetAdd and rngsetSub put their register in flight; qpost becomes outstanding, qtake takes the oldest record, launch enters its child queue, xcoll and xshuf are accepted. -/
def Sys2Proof.Spec.EngineOperationsComplete : Prop :=
  ∀ s : State,
    (∀ (i : Instr) f, copyForm i s = some f → s.commandFault? (commandTaken s f) = none → ¬engineIsFull s →
      Completes i s (· = withCommand s (commandTaken s f) f.2.2.2.2.2.2.2.2)) ∧
    (∀ a b x h, Completes (.xshape a b x h) s (· = pending s 1 (.x x h (pairOf s a b)))) ∧
    (∀ (a : GR) (n : SpR) (size : BitVec 8) (elem : BitVec 2), let base := (s.rg a).toNat / 256
      let rows := size.toNat + 1
      rows % 2 ^ elem.toNat = 0 → base % 256 + rows ≤ 256 → base + rows ≤ 256 * s.cx.kernel.banks → (∀ c ∈ s.cmds, c.ctx = s.cur → ¬n.toNat ∈ c.spools) →
      Completes (.spdef a n size elem) s (· = pending s 1 (.spoolDef n.toNat ⟨base, rows, 2 ^ elem.toNat, 0, 0, none⟩))) ∧
    (∀ q n, Completes (.sbind q n) s (· = pending s 1 (.bind q (some n))) ∧ Completes (.sbindNone q) s (· = pending s 1 (.bind q none))) ∧
    (∀ (a : GR) (n : SpR) sp, tabGet s.cx.spools n.toNat = some sp → let k := (s.rg a).toNat
      k % sp.elem = 0 → k ≤ sp.size → (k ≤ sp.room → Completes (.spadvP a n) s (· = pending s 1 (.spoolP n.toNat k))) ∧
        (k ≤ sp.held → Completes (.spadvC a n) s (· = pending s 1 (.spoolC n.toNat k)))) ∧
    (∀ (a b : GR), let x : W32 := BitVec.ofNat 32 ((s.rg b).toNat % 2 ^ 32)
      (s.rg a).toNat < s.cx.kernel.banks → EmulsionOk x →
      Completes (.xfmt a b) s (· = withAccess (pending s 1 (.emulsion (s.rg a).toNat x)) ⟨11, .read, 0, 0, 1, fun _ => false, fun _ => 0, .marker, .cp, none, false⟩ [])) ∧
    (∀ (d : GR) (n : SpR), s.cx.cp = [] → Completes (.xstat d 0 n) s (· = pending s 1 (.g d (BitVec.ofNat 64 s.cx.cflags.toNat)))) ∧
    (∀ a b, Completes (.rngsetAdd a b) s (· = pending s 1 (.rngctr (s.cx.rngctr + pairOf s a b))) ∧
      Completes (.rngsetSub a b) s (· = pending s 1 (.rngctr (BitVec.ofNat 128 (s.cx.ctxid.toNat % 2 ^ 32 * 2 ^ 96) + pairOf s a b)))) ∧
    (∀ (a : GR) (k : QR) (e : TlbEntry), (s.rg a).toNat % 64 = 0 → (s.rg a).toNat < 2 ^ 48 → Mapped s .read e (s.rg a).toNat 64 → (queueOf s k.toNat).recs.length < 4096 →
      Completes (.qpost a k) s (· = withAccess s (recordForm s a .read (.post k.toNat)) (partsThrough e (recordForm s a .read (.post k.toNat)) ++ [⟨0, 0, false, [], [], .waiting⟩]))) ∧
    (∀ (a d : GR) (k : QR) (e : TlbEntry) r rest, let A := (s.rg a).toNat
      let q := queueOf s k.toNat
      A % 64 = 0 → A < 2 ^ 48 → Mapped s .write e A 64 → tabGet s.cx.held s.issue.slot = none → (tabGet s.ranks s.cx.rank).isSome = true → q.recs = r :: rest → q.taking = none →
      r.length = 64 → Quiet s → paRemote (e.pa + (A - e.va)) = false → (∀ w ∈ s.wins, w.rank ≠ s.cx.rank) → s.cells = [] → s.bad = [] → s.mem.wf = true →
      Completes (.qtake a d k) s fun t => t.cx.inflight = s.cx.inflight ++ [⟨s.cx.step + 1, .g d 0⟩] ∧ (queueOf t k.toNat).recs = rest) ∧
    (∀ (a : GR) (e : TlbEntry) l id, let A := (s.rg a).toNat
      let v := (s.rankOf s.cx.rank).vf
      A % 32 = 0 → A < 2 ^ 48 → Mapped s .read e A 32 → s.heldBytes? = some (l, id) → s.mustWait (.fence .release) none true [] = false → (s.vf v).childq.length < 64 →
      (s.vf v).halted = false → (∀ x ∈ s.ranks, x.2.vf = v → x.2.parked = []) →
      Completes (.launch a) s fun t => ∃ r, IsChild s l r ∧ (t.vf v).childq = (s.vf v).childq ++ [r] ∧ SameMemory s t) ∧
    (∀ (a : GR) o b ms p, s.xcollCheck (s.rg a) = .ok o b ms p → (tabGet s.ranks s.cx.rank).isSome = true →
      Completes (.xcoll a) s fun t => t.colls.length = s.colls.length + 1 ∧ t.cx.tl = s.cx.tl ++ [(s.nextId + 1, false)] ∧ t.mem = s.mem) ∧
    (∀ (a : GR) b ms p, s.xshufCheck (s.rg a) = .ok b ms p → (tabGet s.ranks s.cx.rank).isSome = true →
      Completes (.xshuf a) s fun t => t.shufs.length = s.shufs.length + 1 ∧ t.cx.tl = s.cx.tl ++ [(s.nextId + 1, false)])

/-- The events of the contexts and of memory, under the conditions that the rules give them: loadRetire, accessPerform, windowCloseWrite, windowAdd, walkComplete, latentCellRead, evaluatorStart; bundleIssue, fixedLatencyLanding, beatLanding; boundaryFailureTrap, asyncTrap, preempt, budgetExceeded, cutOverrun, matrixSwitch, restoration, consistentCut, cutAbandon; copyCommandStart, spoolElementFire, copyCommandRetire, commandFailure; barrierComplete, queueTermination. -/
def Sys2Proof.Spec.ContextEventsComplete : Prop :=
  ∀ s : State,
    (∀ id a d sz, s.acc? id = some a → a.cls = .ld → (∀ p ∈ a.parts, p.st = .done) → (s.ctx a.ctx).alive = true → a.kind = .load (.g d sz) →
      Completes (.loadRetire id) s fun t => SameMemory s t ∧ gOf t a.ctx d = (if d = 0 then 0 else szExtend sz (leNat a.bytes))) ∧
    (∀ id i a p, MayPerform s id i a p → a.kind = .store → PlainPart s a.rank p → NoneFailed s a → s.mem.wf = true →
      Completes (.accessPerform id i) s fun t => SameRegisters s t ∧ ∀ j, p.en.getD j false = true → t.mem.get (p.pa + j) = p.data.getD j 0) ∧
    (∀ id a w pa leaf u, s.acc? id = some a → a.kind = .wclose w.base w.count → s.blocked a ⟨0, 0, false, [], [], .waiting⟩ = false → s.wins = [w] → w.rank = a.rank → w.closing = true →
      w.written + 32 = w.count → w.base % 128 = 0 →
      (let t : State := { s with wins := [{ w with written := w.written + 32 }] }
       t.translate a.core a.rank (w.base + 4 * w.written) .write = .ok pa leaf u ∧ SameButOwned t u) → paRemote pa = false → pa % 128 = 0 → s.cells = [] → s.bad = [] → (∀ x, s.hbmHeld (s.rankOf a.rank).vf x = false) → s.mem.wf = true →
      Completes (.windowCloseWrite id) s fun t => t.wins = [] ∧ ∀ n, n < 32 → t.mem.readLE (pa + 4 * n) 4 = (tabGetD w.elems (w.written + n) WinElem.zero).result % 2 ^ 32) ∧
    (∀ id a p w, MayPerform s id 0 a p → a.kind = .winAdd false → a.parts = [p] → p.st = .waiting → p.pa ≠ 0 → p.remote = false → a.acq = none → p.en = [true, true, true, true] →
      p.va % 4 = 0 → s.wins = [w] → s.cells = [] → (s.ctx a.ctx).alive = true → w.rank = a.rank → w.base + 4 * w.written ≤ p.va → p.va < w.base + 4 * w.cleared → w.base % 4 = 0 →
      Completes (.windowAdd id) s fun t => t.wins =
        [{ w with elems := tabSet w.elems ((p.va - w.base) / 4) (addedTo (tabGetD w.elems ((p.va - w.base) / 4) WinElem.zero) (F32.decode (leNat (p.data.take 4)))) }]) ∧
    (∀ core rank va e, s.walk rank va = some e → s.walkSound rank va = true → Completes (.walkComplete core rank va) s fun t => (t.core core).tlb.head? = some e) ∧
    (∀ id i a p x, MayPerform s id i a p → (∃ d, a.kind = .load d ∧ d ≠ .none) → a.acq = none → p.remote = false → p.st = .waiting → p.lc = true → NothingKept a → NoneFailed s a →
      (∀ c ∈ s.cmds, c.id ≠ id) → (s.ctx a.ctx).eval = none → s.l1Line a.core p.pa = none → p.pa % 64 + p.en.length ≤ 64 → (∃ j, j < p.en.length ∧ p.en.getD j false = true) → tabGet s.cells (p.pa / 64) = some x →
      x.tag = .latent → Completes (.latentCellRead id i) s fun t => ∃ y, tabGet t.cells (p.pa / 64) = some y ∧ y.tag = .developing ∧ id ∈ y.readers) ∧
    (∀ c x pl h t0, tabGet s.cells c = some x → x.tag = .developing → x.placed = false → x.packed = none → x.vacated = none → let r := s.mem.read (64 * c) 64
      recordBad r = false → s.evalHeader (dieOf x.first.2.1) x.rank (leNat (r.take 8)) = .ok h t0 → let t := t0.dropFar (evalOwner (t0.rankOf x.rank).vf)
      t.mayRun (t.rankOf x.rank).vf x.rank = true →
      inScope (t.evalScope x r) pl.1 x.first.2.1 = true → t.placesOk (t.vf (t.rankOf x.rank).vf).part x.rank h.kernel.banks h.kernel.fused [pl] = true →
      PlacesWell (if h.kernel.fused then t.fuse (clusterOf pl.1) x.rank else t) x.rank h.kernel pl (BitVec.ofNat 64 (leNat ((r.drop 8).take 8))) (leNat ((r.drop 16).take 4)) →
      Completes (.evaluatorStart c (some pl)) s fun u => (u.ctx t.nextId).phase = .live ∧ (u.ctx t.nextId).place = some pl ∧ (u.ctx t.nextId).pc = h.kernel.code + h.kernel.entry) ∧
    (∀ k j i b ws u d lat P, s.matesOf k = [] → let t := s.atIssue k
      (s.ctx k).placed = true → (s.ctx k).fw = none → t.passing = false → t.waitsForMates k = false → t.cx.arming.bind (·.rest) = none → t.bundleAt t.cx.pc = .ok b ws u →
      t.boundary (some b.hdr.quiet) = none → b.words = [⟨j, some i⟩] → j ≤ 6 → (b.hdr.quiet = true → u.cx.mode = true ∨ u.cutViolated [(j, i)] = false) →
      u.cx.sres = 0 → u.cx.rpos = 0 → u.cx.sticky = Sticky.none → u.held [(j, i)] = false → u.illegalMask b (u.cx.acts b) = 0 → u.asks [(j, i)] = none → u.cx.corr = [] →
      (atSlotOf u b j).spoiltBy i = none → u.issue.trapped = false → u.issue.xfer = none → registerOp i u.rg = some (d, lat, P) ∨ (i.wf = true ∧ immediateOp i u.rg = some (d, lat, P)) →
      ∃ x, P x ∧ let w := pending (atSlotOf u b j) lat (.g d x)
        Completes (.bundleIssue k) s (· = State.noteIssued { (w.modCx fun c => { c with sticky := stickyPut c.sticky j i }).finish b [] (!u.cx.mode) with free := w.free + 1 })) ∧
    (∀ k n d x, (s.ctx k).phase = .live → (s.ctx k).step = n → (s.ctx k).inflight = [⟨n, .g d x⟩] →
      Completes (.fixedLatencyLanding k) s fun t => (t.ctx k).inflight = [] ∧ gOf t k d = if d = 0 then 0 else x) ∧
    (∀ k n row core hw, (s.ctx k).phase = .live → (s.ctx k).step = n → (s.ctx k).inflight = [⟨n, .accZero row⟩] → (s.ctx k).place = some (core, hw) → (s.core core).mowner ≠ 0xFFFF →
      (s.core core).mhwc.toNat = hw → Completes (.beatLanding k) s fun t => (t.ctx k).inflight = [] ∧ (t.core core).mdirty = true) ∧
    (∀ k, AtBoundary s k → NothingPassed s k → let c := s.ctx k
      (∀ f rest, c.failures = f :: rest → f.cause ≠ .async → f.cause ≠ .preempt → f.cause ≠ .budgetExceeded → f.cause ≠ .cutOverrun → f.cause ≠ .matrixSwitch →
        Completes (.boundaryFailureTrap k) s fun u => TrappedAt s u k f.cause.code (f.addr % 2 ^ 64) ∧ (u.ctx k).failures = rest) ∧
      (∀ f rest x w, c.failures = f :: rest → f.cause = .async → ((s.atIssue k).asyncTaken rest).hubPut c.rank (c.msave.toNat + 0x24000) (recordArea c.reports) = .ok x w →
        Completes (.asyncTrap k) s fun u => u.mem = w.mem ∧ (u.ctx k).phase = .live ∧ (u.ctx k).mode = true ∧ Recorded (u.ctx k).status 0x12 0 c.rpos c.sres ∧
          (u.ctx k).fw = some (.async (c.reports.map fun r => (r, none, none)) false)) ∧
      (c.failures = [] → c.preempt = true → Completes (.preempt k) s fun u => TrappedAt s u k 0x17 0 ∧ (u.ctx k).fw = some .preempt) ∧
      (c.failures = [] → NoPreempt s k → c.sres ≠ 7 →
        (c.kernel.budget ≤ c.issues → Completes (.budgetExceeded k) s fun u => TrappedAt s u k 0x0F 0 ∧ (u.ctx k).fw = some (.terminate 0)) ∧
        (c.issues < c.kernel.budget → c.kernel.cutbound ≤ c.sinceQuiet → NextIsOrdinary s k → Completes (.cutOverrun k) s fun u => TrappedAt s u k 0x0D 0 ∧ (u.ctx k).fw = some (.terminate 0)) ∧
        (c.issues < c.kernel.budget → c.sinceQuiet < c.kernel.cutbound → c.mwait = true ∨ (∃ l ∈ c.inflight, l.eff.onMatrix = true ∧ l.due ≤ c.step) →
          ((s.core c.coreNum).mowner = 0xFFFF ∨ (s.core c.coreNum).mhwc.toNat ≠ c.hw) → Completes (.matrixSwitch k) s fun u => TrappedAt s u k 0x07 0 ∧ (u.ctx k).fw = some .matrixSwitch))) ∧
    (∀ k core hw u, s.mayRestore k core hw = true → (s.takePlace k core hw).readImage k = .ok () u →
      Completes (.restoration k core hw) s fun t => (t.ctx k).phase = .live ∧ (t.ctx k).place = some (core, hw) ∧ t.mem = u.mem) ∧
    (∀ rank, (∀ c ∈ s.cuts, c.rank ≠ rank) → (tabGet s.ranks rank).isSome = true → Completes (.consistentCut rank) s (· = { s with cuts := s.cuts ++ [⟨rank, .hypervisor, none⟩] })) ∧
    (∀ before c after vf, CutIs s before c after → s.allParked c.rank = false → c.why = .hold vf → Completes (.cutAbandon c.rank) s (· = { s with cuts := before ++ after })) ∧
    (∀ id c, s.cmd? id = some c → c.id = id →
      (c.started = false → (s.ctx c.ctx).phase = .live → (∀ x ∈ s.cmds, x.ctx = c.ctx → x.id < id → x.started = true) → (s.cmds.filter fun x => x.ctx == c.ctx && x.started).length < 8 →
        c.acq = false → shRuns c.shape ≠ 0 → Completes (.copyCommandStart id) s (· = withCmd s id fun _ => { c with started := true })) ∧
      (∀ (x : W64) (a : Nat), s.cmdReady c = true → c.elem = 0 → c.index = none → c.src = .pattern x → c.dst = .spad a → (∀ y ∈ s.cmds, y.id = id) → (∀ y ∈ s.accs, y.ctx ≠ c.ctx) →
        c.order.rel = false → c.out = [] → let at' := c.spadAt true a c.run
        let w := (c.bankFmt at').bits
        (c.bankFmt at').isBlock = false → 8 ≤ w → (s.ctx c.ctx).window.wf = true →
        Completes (.spoolElementFire id 0) s fun t => SameMemory s t ∧ ∀ y, at' ≤ y → y < at' + shN0 c.shape * w / 8 →
          (t.ctx c.ctx).window.get y = byteAt (x.toNat % 2 ^ (elemOf (c.bankFmt at')).width) ((y - at') % (w / 8))) ∧
      (∀ cause a k, c.stopped = some (cause, a, k) → c.reported = false → c.out = [] → (s.ctx c.ctx).alive = true → s.cmds = [c] →
        Completes (.commandFailure id) s fun t => SameMemory s t ∧ t.cmds = [{ c with reported := true }]) ∧
      (c.started = true → c.stopped = none → shRuns c.shape ≤ c.run → c.out = [] → c.acq = false → (s.ctx c.ctx).phase ≠ .ended →
        Completes (.copyCommandRetire id) s (· = { s with
          cmds := s.cmds.filter (fun x => x.id != id)
          ctxs := tabSet s.ctxs c.ctx { (s.ctx c.ctx).countDown c.cls id with cflags := (s.ctx c.ctx).cflags ||| c.flags } }))) ∧
    (∀ rank n x req, s.group? rank n = some x → x.required = some req → (∀ k ∈ req, k ∈ x.arrived) → x.members ++ x.next ≠ [] →
      Completes (.barrierComplete rank n) s fun t => t.group? rank n = some { x with phase := x.phase + 1, members := x.members ++ x.next, next := [], arrived := x.nextArrived, nextArrived := [], required := if x.nextArrived = [] then none else some (x.members ++ x.next) }) ∧
    (∀ rank k q, tabGet (s.rankOf rank).queues k = some q → q.recs = [] → q.takers ≠ [] → q.terminated = false → (∀ a ∈ s.accs, a.rank = rank → a.kind ≠ .post k) →
      (∀ c ∈ q.takers, ∃ e ∈ (s.ctx c).held, e.2 = .taker k) → Completes (.queueTermination rank k) s fun t => tabGet (t.rankOf rank).queues k = some { q with terminated := true })

/-- The events of the queues, of the host and of tenancy, under the conditions that the rules give them: launchPlacement, parkedLaunchDrain, childQueueStart, launchComplete; cmdLaunch, cmdLaunchIndirect, waitev, waitevSatisfied, signal, cmdLoop, cmdIf, cmdCopy, tlbinv, holdpoint; doorbell, qctlRestart, qctlRestartAfter, qctlDiscard, queueEnable, queueDisable, fractResume, fractEnd; quantumExpiry, queueVacancy, budgetWindowEnd, lastCollection, lastCollectionOverrun, restore, restoreReplay, vfReset, vfEnable, clpart; makeResident, deschedule, tierMove, migration, rankCreate, rankForget; interruptRecord, mbox, hvmbox, jhlRetrain, dlqcons, sealcons, jcons, cap, registerWrite, hostWindowRead, hostWindowWrite, seal, sealreq, attreq, powerOn, thermalLimit, temperatureLimitCleared, thermalShutdown, deviceReset. -/
def Sys2Proof.Spec.HostEventsComplete : Prop :=
  ∀ s : State,
    (∀ id vf q places r t, s.launchHead? id = some (vf, q, r) → s.turn vf q = true → s.startLaunch r places = .placed t →
      Completes (.launchPlacement id places) s fun u => u.ctxs = t.ctxs ∧ (u.cmdQueue vf q).head = .idle ∧ r.id ∈ (u.cmdQueue vf q).running) ∧
    (∀ rank r l, (s.rankOf rank).parked = r :: l → (s.vf r.vf).childq.length < 64 → (s.vf r.vf).halted = false →
      Completes (.parkedLaunchDrain rank) s fun t => (t.vf r.vf).childq = (s.vf r.vf).childq ++ [r] ∧ (t.rankOf rank).parked = l) ∧
    (∀ vf r l t, (s.vf vf).childq = r :: l → s.childTurn vf = true → s.served? vf = true → s.startLaunch r [] = .placed t →
      Completes (.childQueueStart vf) s fun u => u.ctxs = t.ctxs ∧ u.launches = t.launches ∧ (u.vf vf).childq = l) ∧
    (∀ id L, s.launch? id = some L → (∀ k ∈ L.ctxs, (s.ctx k).alive = false ∧ s.outstanding k = false) → L.event = 0 →
      Completes (.launchComplete id) s fun t => (∀ M ∈ t.launches, M.id ≠ id) ∧ (∀ k ∈ L.ctxs, tabGet t.ctxs k = none) ∧ t.mem = s.mem) ∧
    (∀ vf q l t,
      (CommandServed s vf q 1 l t → Completes (.cmdLaunch vf q) s fun u => ∃ r, (u.cmdQueue vf q).head = .launch r ∧ r.code = opnd l 8 8) ∧
      (CommandServed s vf q 2 l t → Completes (.cmdLaunchIndirect vf q) s fun u => ∃ r, (u.cmdQueue vf q).head = .launch r ∧ r.nptr = some (opnd l 0x30 8)) ∧
      (∀ w v, CommandServed s vf q 3 l t → t.cpGet (vf * 16 + q) (homeOf s vf q) (opnd l 8 8) 8 = .ok w v →
        Completes (.waitev vf q) s fun u => (u.cmdQueue vf q).head = .waitev (opnd l 8 8) (BitVec.ofNat 64 (opnd l 0x10 8)) (opnd l 0x18 1)) ∧
      ((s.cmdQueue vf q).loops.length ≤ 4 →
        (∀ x v, CommandServed s vf q 4 l t → opnd l 0x18 1 = 0 → t.hubPut (homeOf s vf q) (opnd l 8 8) (leBytes 8 (opnd l 0x10 8)) = .ok x v →
          Completes (.signal vf q) s fun u => u.mem = v.mem ∧ GoneOn s u vf q 1) ∧
        (∀ w v, CommandServed s vf q 5 l t → t.cpGet (vf * 16 + q) (homeOf s vf q) (opnd l 8 8) 4 = .ok w v → leNat w = 0 → Completes (.cmdLoop vf q) s fun u => GoneOn s u vf q (1 + opnd l 0x10 1)) ∧
        (∀ w v, CommandServed s vf q 6 l t → t.cpGet (vf * 16 + q) (homeOf s vf q) (opnd l 8 8) 8 = .ok w v → ¬CmpHolds (opnd l 0x18 1) (leNat w) (opnd l 0x10 8) →
          Completes (.cmdIf vf q) s fun u => GoneOn s u vf q (1 + opnd l 0x19 1)) ∧
        (CommandServed s vf q 8 l t → (tabGet t.ranks (vf * 65536 + opnd l 2 2)).isSome = true → Completes (.tlbinv vf q) s fun u => GoneOn s u vf q 1) ∧
        (CommandServed s vf q 9 l t → Completes (.holdpoint vf q) s fun u => GoneOn s u vf q 1) ∧
        (∀ addr value cmp w v, (s.cmdQueue vf q).head = .waitev addr value cmp → s.served? vf = true → s.cpGet (vf * 16 + q) (homeOf s vf q) addr 8 = .ok w v → CmpHolds cmp (leNat w) value.toNat →
          Completes (.waitevSatisfied vf q) s fun u => GoneOn s u vf q 1) ∧
        (∀ src dst, (s.cmdQueue vf q).head = .copy src dst 0 → Completes (.cmdCopy vf q) s fun u => GoneOn s u vf q 1))) ∧
    (∀ vf q, q < 8 → PageUp s vf → let x := s.cmdQueue vf q
      (∀ v : W64, let ahead := (v.toNat % 2 ^ 32 + 2 ^ 32 - x.released) % 2 ^ 32
        x.state ≠ 4 → 1 ≤ ahead → ahead ≤ x.cfg.toNat % 2 ^ 20 → Completes (.doorbell vf q v) s fun u => (u.cmdQueue vf q).prod = v.toNat % 2 ^ 32) ∧
      (x.state = 2 ∨ x.state = 3 → Completes (.qctlRestart vf q) s (fun u => (u.cmdQueue vf q).state ≤ 1) ∧ Completes (.qctlDiscard vf q) s (fun u => (u.cmdQueue vf q).head = .idle) ∧
        (x.loops.length ≤ 4 → Completes (.qctlRestartAfter vf q) s fun u => GoneOn s u vf q 1)) ∧
      (∀ cfg : W64, x.cfg.getLsbD 63 = false → cfg.getLsbD 63 = true → s.queueOk vf { x with cfg := cfg &&& 0x8000FFFF003FFFFF } = true →
        Completes (.queueEnable vf q cfg) s fun u => (u.cmdQueue vf q).state = 0 ∧ (u.cmdQueue vf q).cfg = cfg &&& 0x8000FFFF003FFFFF) ∧
      (x.cfg.getLsbD 63 = true → x.state ≠ 1 → Completes (.queueDisable vf q) s fun u => (u.cmdQueue vf q).state = 4) ∧
      (∀ k n c, tabGet s.ctxs k = some c → (s.rankOf c.rank).vf = vf → (s.vf vf).frseq = n → c.fw = some (.awaitHost n none) →
        Completes (.fractResume vf) s (fun u => tabGet u.ctxs k = some { c with fw := some (.awaitHost n (some true)) }) ∧
        Completes (.fractEnd vf) s fun u => tabGet u.ctxs k = some { c with fw := some (.awaitHost n (some false)) })) ∧
    (∀ part v w, tabGet s.running part = some v → tabGet s.switching part = none → s.nextVf part v = some w → (s.vf v).quant ≠ 0 →
      Completes (.quantumExpiry part) s fun t => tabGet t.switching part = some w) ∧
    (∀ vf q n i c e, s.bad = [] → s.collections = [c] → (c.entries.find? fun x => x.vf == vf && x.q == q && !x.written) = some e → (c.entries.findIdx fun x => x.vf == vf && x.q == q) = i →
      (e.outcome ≠ 2 → s.queueLaunches vf q = [] → (∀ x y z, (s.cmdQueue vf q).head ≠ .copy x y z) → paRange (c.report + 16 * i) 16 = true → s.mem.wf = true →
        Completes (.queueVacancy vf q n) s fun t => t.mem.readLE (c.report + 16 * i) 1 = vf % 256 ∧ t.mem.readLE (c.report + 16 * i + 8) 8 = n % 2 ^ 64) ∧
      (s.vacant e = false → e.overrun = false → Completes (.lastCollectionOverrun vf q) s fun t => (t.vf vf).enable = false)) ∧
    (∀ vf u, vf < 192 → Completes (.budgetWindowEnd vf u) s fun t => t = { s with vfs := t.vfs } ∧
      ∀ e, e ∈ (t.vf vf).used ↔ e ∈ (s.vf vf).used ∧ e.1 / 65536 ≠ (match u with | .copyEngine => 0 | .fabric => 1 | .hbm => 2 | .slice => 3)) ∧
    (∀ rank r, tabGet s.ranks rank = some r →
      (r.state = 0 ∨ r.state = 2 → RoomFor s rank → Completes (.makeResident rank) s fun t => (t.rankOf rank).state = 1 ∧ t.mem = s.mem) ∧
      (RankQuiet s rank r → Completes (.deschedule rank) s fun t => (t.rankOf rank).state = 2) ∧
      (∀ v, Completes (.dlqcons rank v) s (· = { s with ranks := tabSet s.ranks rank { r with dlqcons := v.toNat } }))) ∧
    (∀ rank va pa e, s.walk rank va = some e → s.tierMoveOk e pa = true → s.mem.wf = true →
      (∀ i, i < e.size → ¬(e.entry ≤ pa + i ∧ pa + i < e.entry + 8) ∧ ¬(e.entry ≤ e.pa + i ∧ e.pa + i < e.entry + 8)) →
      Completes (.tierMove rank va pa) s fun t => ∀ i, i < e.size → t.mem.get (pa + i) = s.mem.get (e.pa + i)) ∧
    (s.hub.devstat ≠ 0xE →
      (∀ addr, s.bad = [] → let l := s.mem.read addr 64
        (∀ x ∈ (l.drop 0x0A).take 6 ++ l.drop 0x30, x = 0) → (∃ v, Targeted s l v) → 40000 ≤ opnd l 0 8 → (∀ v c, Targeted s l v → c ∈ s.collections → v ∉ c.targets) →
        Completes (.lastCollection addr) s fun t => t.hub.collstat = 0 ∧ ∀ v, Targeted s l v → (t.vf v).halted = true) ∧
      (∀ addr seg, s.bad = [] → addr % 64 = 0 → (∀ x ∈ s.segments, x.addr = addr → x.gen = (s.vf x.vf).gen) → s.segmentAt addr = some seg → (s.vf seg.vf).gen = opnd (s.mem.read addr 8) 6 2 →
        (s.vf seg.vf).holding = true → s.segmentFits seg = true →
        Completes (.restore addr) s (fun t => t.hub.reststat = 0 ∧ (t.vf seg.vf).holding = false) ∧ Completes (.restoreReplay addr) s fun t => t.hub.reststat = 0 ∧ (t.vf seg.vf).holding = false) ∧
      (∀ vf, vf < 192 → Completes (.vfReset vf) s (fun t => (t.vf vf).enable = false ∧ (t.vf vf).gen = ((s.vf vf).gen + 1) % 65536) ∧
        Completes (.vfEnable vf) s fun t => (t.vf vf).enable = true) ∧
      (∀ v, Completes (.clpart v) s fun t => t = { s with hub := { s.hub with clpart := t.hub.clpart } }) ∧
      (∀ order att acc link, s.bad = [] → let l := s.mem.read order 32
        (∀ c ∈ s.cuts, ∀ w, c.why ≠ .migration order w) → ∀ rank r, s.ranks.find? (fun e => e.2.vk == opnd l 0 2) = some (rank, r) → tabGet s.ranks rank = some r → orderOk l = true →
        (∀ c ∈ s.cuts, c.rank ≠ rank) →
        Completes (.migration order att acc link) s (· = { s with ranks := tabSet s.ranks rank { r with stopped := true }, cuts := s.cuts ++ [⟨rank, .migration order r.state, none⟩] })) ∧
      (∀ (v : W64) rank r, v.toNat % 4 = 2 → rank = v.toNat / 2 ^ 32 % 2 ^ 16 * 65536 + v.toNat / 2 ^ 16 % 2 ^ 16 → RankFree s rank r → s.hub.rkcmd = some v →
        Completes (.rankForget v) s fun t => t.ranks = s.ranks.filter (fun e => e.1 != rank) ∧ t.hub.rkstat = 0) ∧
      (∀ a, Completes (.hvmbox a) s fun t => t.hub.hvmbox.toNat = a.toNat / 32 * 32) ∧
      (∀ v : W64, Completes (.jcons v) s (· = { s with hub := { s.hub with jcons := v.toNat } }) ∧ Completes (.sealcons v) s (· = { s with hub := { s.hub with sealcons := v.toNat } }) ∧
        Completes (.cap v) s (· = { s with hub := { s.hub with cap := v } }) ∧ Completes (.registerWrite .rkaddr v.toNat) s (· = { s with hub := { s.hub with rkaddr := v } })) ∧
      (s.hub.jprod ≠ 0 → Completes .sealreq s fun t => t.hub.sealreq = some (s.hub.jprod - 1) ∧ t.hub.sealwait.getLast? = some (s.hub.jprod - 1))) ∧
    (s.hub.devstat = 7 → s.hub.rkcmd = some 1 → s.bad = [] → s.ranks.length < 1024 → RecordTaken s s.hub.rkaddr.toNat (s.mem.read s.hub.rkaddr.toNat 256) →
      Completes .rankCreate s fun t => t.hub.rkstat = 0 ∧ (tabGet t.ranks (opnd (s.mem.read s.hub.rkaddr.toNat 256) 2 2 * 65536 + opnd (s.mem.read s.hub.rkaddr.toNat 256) 0 2)).isSome = true) ∧
    (∀ vf r l, (s.vf vf).mwait = r :: l → r.length = 32 → s.mem.wf = true → s.bad = [] → s.flips = [] → HasRoom s (s.vf vf).mbox.toNat → leNat ((r.drop 2).take 2) = (s.vf vf).gen →
      Completes (.interruptRecord (some vf)) s fun t => Posted s t (s.vf vf).mbox.toNat vf r ∧ (t.vf vf).mwait = l) ∧
    (∀ vf a, PageUp s vf → Completes (.mbox vf a) s fun t => (t.vf vf).mbox.toNat = a.toNat / 32 * 32) ∧
    (∀ vf n before after, s.messages = before ++ (vf, n) :: after → (∀ m ∈ before, m.1 ≠ vf) → Completes (.jhlRetrain vf) s (· = { s with messages := (vf, n) :: s.messages })) ∧
    (∀ vf w off n rank va l t, HostReaches s vf w off n false rank va → (s.useLink 7 0).hubGet rank va n = .ok l t →
      Completes (.hostWindowRead vf w off n) s (· = { t with hostReplies := some l :: t.hostReplies })) ∧
    (∀ vf w off bytes rank va x t, HostReaches s vf w off bytes.length true rank va → (s.useLink 7 0).hubPutWith false rank va bytes = .ok x t →
      Completes (.hostWindowWrite vf w off bytes) s (· = { t with hostReplies := some [] :: t.hostReplies })) ∧
    (∀ last l, s.hub.sealwait = last :: l → 1 ≤ s.hub.sealn.toNat → s.hub.sealn.toNat ≤ 1024 → s.hub.sealprod - s.hub.sealcons < s.hub.sealn.toNat →
      s.hub.sealbase.toNat % 65536 = 0 → paRange (s.hub.sealbase.toNat + 65536 * (s.hub.sealprod % s.hub.sealn.toNat)) 65536 = true →
      Completes .seal s fun t => t.hub.sealprod = s.hub.sealprod + 1 ∧ t.hub.sealwait = l) ∧
    (s.hub.attreq = false → Completes .attreq s (· = { s with hub := { s.hub with attreq := true } })) ∧
    (s.hub.devstat = 1 → Completes (.powerOn true) s fun t => t.hub.devstat = 2 ∧ t.hub.boot = s.hub.boot + 1) ∧
    Completes .thermalLimit s (· = { s with hub := { s.hub with lowered := true } }) ∧ Completes .temperatureLimitCleared s (· = { s with hub := { s.hub with lowered := false } }) ∧
    Completes .thermalShutdown s (· = { s with hub := { s.hub with shutdown := true } }) ∧ Completes .deviceReset s (fun t => t.hub.devstat = 1 ∧ t.ranks = [] ∧ t.ctxs = [])

/-- The events of the fabric, of collectives and of shuffles, under the conditions that the rules give them: packetRoute, routingTableWrite, linkFailure; collectivePacket, slotRequest, collectiveRetire, holdNotice, resumeNotice, slotLeaseExpiry, collTimeout; shufflePacket, pairingTimeout, overprintDecode, reissuePlain, shuffleAbort, shuffleRetire, shuffleTimeout; spill, retry, retryResend. -/
def Sys2Proof.Spec.FabricEventsComplete : Prop :=
  ∀ s : State,
    (∀ p : Packet, p.dev ≠ Config.ownDevice → (∀ q, p.body ≠ .shuffle q) → (∀ o, p.body ≠ .overprint o) → HasRoute s p.dev → Completes (.packetRoute p) s (Leaves s p)) ∧
    (∀ dev ports, dev < 8192 → ports.length ≤ 4 → (∀ p ∈ ports, p < 128) → ports ≠ [] → Completes (.routingTableWrite dev ports) s (· = { s with routes := tabSet s.routes dev ports })) ∧
    (∀ port, (∀ e ∈ s.remote, e.2.port ≠ some port) → (∀ u ∈ s.unconfirmed, u.port ≠ port) →
      Completes (.linkFailure port) s (· = { s with failedPorts := if port ∈ s.failedPorts then s.failedPorts else s.failedPorts ++ [port] })) ∧
    (∀ id c, CollIs s id c →
      (∀ a, c.outcome = .open → c.begun = false → s.acc? c.rd = some a → a.acq = none → Completes (.collectivePacket id c.pos) s fun t => t.coll? id = some { c with begun := true }) ∧
      (∀ node port, ¬((id, node, port) ∈ s.slotReqs) → s.mayAsk c node = true → port < 128 →
        Completes (.slotRequest id node port) s (· = { s with slotReqs := s.slotReqs ++ [(id, node, port)] })) ∧
      (∀ a, c.outcome = .writing → s.acc? c.id = some a → (∀ q ∈ a.parts, q.st = .done) → c.unacked = [] →
        Completes (.collectiveRetire id c.pos) s fun t => (∀ d ∈ t.colls, d.id ≠ id) ∧ TileRetired s t c.ctx c.id) ∧
      (∀ job comm p, Completes (.holdNotice job comm p) s (fun t => t.coll? id = some { c with held := if c.job = job ∧ c.comm = comm ∧ p ∉ c.held then c.held ++ [p] else c.held }) ∧
        Completes (.resumeNotice job comm p) s fun t => t.coll? id = some { c with held := if c.job = job ∧ c.comm = comm then c.held.filter (fun q => q != p) else c.held }) ∧
      (∀ p d, (s.colls.find? fun x => x.job == c.job && x.comm == c.comm && x.k == c.k && x.pos == p) = some d → timeoutOf d.order ≠ 0 → (∀ q ∈ d.held, q = p) →
        Completes (.collTimeout id p) s fun t => ∃ m, (c.job, c.comm, c.k, m) ∈ t.collAborts)) ∧
    (∀ n, Completes (.slotLeaseExpiry n) s fun t => t.redslots = s.redslots.filter fun r => !(r.slot == n)) ∧
    (∀ (p : ShufPkt) rank h e a, s.arrives p = true → s.jobRank? p.job p.vk = some rank → OpenAt s rank h → h.shid = p.shid → Awaits h p.blk e → p.bad = false → envelopes p.payload = p.crc →
      s.acc? h.acc = some a → Completes (.shufflePacket p) s fun t => SameContexts s t ∧ BlockOnItsWay t rank h e a p.payload .plain) ∧
    (∀ i p, s.pairing[i]? = some p → s.rankHere p.job p.vk = true → Completes (.pairingTimeout i) s (· = { s with pairing := s.pairing.eraseIdx i, inbox := s.inbox ++ [.shuffle p] })) ∧
    (∀ (d : Decoding) rest rank h e a x b t, s.decoding = d :: rest → d.op.payload.length ≤ 2016 → (d.read = [] ∨ d.read.length < d.op.payload.length) → let mine := if d.second then d.op.q else d.op.p
      let other := if d.second then d.op.p else d.op.q
      s.jobRank? mine.job mine.vk = some rank → OpenAt s rank h → h.shid = mine.shid → Awaits h mine.blk e → s.acc? h.acc = some a → s.heldBlock h other.blk = some x →
      let at' := x + d.read.length
      s.hubGet h.rank at' (min (128 - at' % 128) (32 * h.blen - d.read.length)) = .ok b t → 32 * h.blen ≤ (d.read ++ b).length → envelopes (xorOf d.op.payload (d.read ++ b)) = mine.crc →
      Completes (.overprintDecode d.group) s fun u => BlockOnItsWay u rank h e a (xorOf d.op.payload (d.read ++ b)) .decoded) ∧
    (∀ rank shid blk dst h e b u, s.shuf? rank shid = some h → let msg : PktBody := .reissue h.job h.shid blk h.pos dst
      shid = h.shid → msg ∈ s.inbox → h.sends.find? (fun x => x.blk == blk && x.dest == dst) = some e →
      State.hubGet { s with inbox := s.inbox.erase msg } rank e.src (32 * h.blen) = .ok b u → s.rankHere h.job (h.members.getD e.dest 0) = true →
      Completes (.reissuePlain rank shid blk dst) s fun t => ∃ q, t = { u with inbox := u.inbox ++ [.shuffle q] } ∧ q.payload = b ∧ q.plainOnly = true) ∧
    (∀ rank shid h, s.shuf? rank shid = some h → h.rank = rank → h.shid = shid →
      (∀ found, h.abort = some found → (s.ctx h.ctx).alive = true → (s.ctx h.ctx).waiting = [] → (s.ctx h.ctx).reports.length < 8 →
        Completes (.shuffleAbort rank shid) s fun t => (∀ g ∈ t.shufs, g.acc ≠ h.acc) ∧ TileRetired s t h.ctx h.acc) ∧
      (∀ x u, h.stage = 2 → h.abort = none → (∀ e ∈ h.recvs, e.written = true ∧ e.came ≠ .failed) → (∀ e ∈ h.sends, e.acked = true) →
        s.hubPut rank (opnd h.header 0x30 8) (statusOf h) = .ok x u →
        Completes (.shuffleRetire rank shid) s fun t => t.mem = u.mem ∧ (∀ g ∈ t.shufs, g.acc ≠ h.acc) ∧ TileRetired s t h.ctx h.acc) ∧
      (opnd h.header 0x14 4 ≠ 0 → (∀ q ∈ h.held, q = h.pos) → h.abort = none →
        Completes (.shuffleTimeout rank shid) s fun t => ∃ g, t.shuf? rank shid = some g ∧ g.abort = some none)) ∧
    (∀ rank r b, tabGet s.ranks rank = some r → r.state = 2 ∨ r.state = 3 → (r.spilled.map packetBytes).sum + packetBytes b ≤ 65536 * r.spillsz →
      Completes (.spill rank b) s (· = { s with inbox := s.inbox.erase b, ranks := tabSet s.ranks rank { r with spilled := r.spilled ++ [b] } })) ∧
    (∀ p : ShufPkt, (∃ h ∈ s.shufs, h.job = p.job ∧ h.shid = p.shid ∧ h.pos = p.src) → p.dev = Config.ownDevice →
      Completes (.retry (.shuffle p)) s (· = { s with retries := s.retries ++ [.shuffle p] })) ∧
    (∀ p l, s.retries = .shuffle p :: l → s.rankHere p.job p.vk = true → Completes .retryResend s (· = { s with retries := l, inbox := s.inbox ++ [.shuffle p] }))

/-- R24, R321, R322, R407, R391: the machine right after reset is in start state 1 with no rank, no key, no context and no work; no virtual function is enabled, its queues are not set up, CLPART is 0, and no core's matrix state is owned; a context's registers start at zero, sys.ord at 1, its counters at 0. Its memory is in canonical form. Where the spec gives no value, zero is the model's choice (logs 2 and 3). -/
def Obligations.ResetLeavesTheStartState : Prop :=
  let s := State.reset
  s.hub.devstat = 1 ∧ s.ranks = [] ∧ s.ctxs = [] ∧ s.launches = [] ∧ s.accs = [] ∧ s.cmds = [] ∧ s.hub.clpart = 0 ∧ s.hub.shutdown = false ∧
    (∀ v, (s.vf v).enable = false ∧ (s.vf v).key = none ∧ (s.vf v).gen = 0 ∧ ∀ q, (s.cmdQueue v q).state = 4) ∧
    (∀ n, (s.core n).mowner = 0xFFFF ∧ (s.core n).mdirty = false) ∧
    (∀ k, (∀ r : GR, (s.ctx k).rg r = 0) ∧ (∀ r : VR, (s.ctx k).rv r = 0) ∧ (∀ r : AR, ((s.ctx k).ra r).value = 0) ∧ (s.ctx k).ord = 1 ∧ (s.ctx k).status = 0 ∧ (s.ctx k).flags = 0 ∧
      (s.ctx k).ld = [] ∧ (s.ctx k).st = [] ∧ (s.ctx k).cp = [] ∧ (s.ctx k).tl = [] ∧ (s.ctx k).step = 0) ∧
    s.mem.wf = true ∧ ∃ t, step s = .next t ∧ t.hub.devstat = 2

/-- Every step keeps the memory in canonical form: addresses strictly rising, no byte listed that an unlisted address reads as (the model's form of memory, log 2), so that equal memories are equal data. -/
def Obligations.EveryStepKeepsMemoryCanonical : Prop :=
  ∀ s t : State, s.mem.wf = true → step s = .next t → t.mem.wf = true

/-- R53 to R66: words written out from the spec's encodings decode to the operations they stand for. -/
def Obligations.WordsOfTheSpecDecode : Prop :=
  decodeSlot .s 0x80738001 none = some (.addi none 7 7 1) ∧
  decodeSlot .l 0x0440E000 none = some (.ld none 4 1 .b64 0) ∧
  decodeSlot .l 0x2C521844 none = some (.amo 5 4 6 .add false .core true) ∧
  decodeSlot .l 0x30621D1A none = some (.cas 6 4 7 8 true .device true) ∧
  decodeSlot .v 0x6C443280 none = some (.vcmp none 1 2 3 .i32 .gt 0) ∧
  decodeSlot .v 0x744115E0 none = some (.vcvt none 4 2 .e4m3 .bf16 .sr false) ∧
  decodeSlot .m 0x04538029 none = some (.mpush 2 true 3 true false (some ⟨.mlds, 4, true⟩)) ∧
  decodeSlot .m 0x0C720000 none = some (.mdrain 3 true 4 none) ∧
  decodeSlot .x 0x0440134C none = some (.cpLd 4 0 1 (.spool 3) ⟨false, true, .device⟩) ∧
  decodeSlot .x 0x22600003 (some 1) = some (.spdef 6 3 1 0) ∧
  decodeSlot .x 0x34438020 none = some (.qtake 4 7 2) ∧
  decodeSlot .c 0x0C327FFD none = some (.blt none 3 4 0x7FFD) ∧
  decodeSlot .c 0x2C1FFE00 none = some (.wait 0 15 15 15) ∧
  decodeSlot .c 0x50000000 none = some .tret

/-- Immediate, bit-field and walker operations give their result and change nothing else. -/
def Obligations.ImmediatesBitFieldsAndWalkers : Prop :=
  Sys2Proof.Spec.ImmediateOperationsGiveTheirResult ∧ Sys2Proof.Spec.WalkerInstructionsSetTheirField

/-- SYSRD, SYSWR and ORDSET read, write or fault as their table and the mode say. -/
def Obligations.SystemRegistersAreReadAndWritten : Prop :=
  Sys2Proof.Spec.SysrdReadsTheRegister ∧ Sys2Proof.Spec.SyswrWritesOrFaults ∧ Sys2Proof.Spec.SyswrChangesTheBitsOfTheRegister ∧ Sys2Proof.Spec.OrdsetIsPrivileged

/-- Branches, JMP and JMPG transfer to their target and leave the loop bodies it is outside. -/
def Obligations.BranchesTransfer : Prop :=
  Sys2Proof.Spec.BranchesTransferToTheirTarget ∧ Sys2Proof.Spec.TakenTransferLeavesTheBodiesItIsOutside

/-- LOOP arms a level, the last bundle of its body ends an iteration, LOOPBRK leaves it. -/
def Obligations.LoopLevelsAreArmedIteratedAndLeft : Prop :=
  Sys2Proof.Spec.LoopArmsItsLevel ∧ Sys2Proof.Spec.LoopbrkLeavesTheLevel ∧ Sys2Proof.Spec.IterationEndsAtTheLastBundle

/-- NOPs and hints change no state a program reads; waits and empty streams hold the bundle. -/
def Obligations.WaitsHintsAndHolds : Prop :=
  Sys2Proof.Spec.WaitsHoldAndNopsChangeNothing ∧ Sys2Proof.Spec.PrefTouchesOnlyTheCaches ∧ Sys2Proof.Spec.CacheHintsTouchOnlyTheCaches ∧ Sys2Proof.Spec.StreamReadsFaultOrHold ∧ Sys2Proof.Spec.WalkInstallsTheLeaf

/-- A fault at a slot saves cause, address, bundle and slot and enters its handler. -/
def Obligations.FaultsAreTaken : Prop :=
  Sys2Proof.Spec.SlotTrapEntersItsHandler ∧ Sys2Proof.Spec.FaultInSModeTerminates

/-- TRAP takes SOFTWARE after its bundle; TRET resumes the held bundle with what was set aside. -/
def Obligations.TrapAndReturn : Prop :=
  Sys2Proof.Spec.TrapRaisesSoftware ∧ Sys2Proof.Spec.TretResumesTheHeldBundle

/-- Results in flight land at their step: registers, flags, walkers, matrix rows, window bytes. -/
def Obligations.ResultsLand : Prop :=
  Sys2Proof.Spec.ResultsLandAtTheirStep ∧ Sys2Proof.Spec.WrittenFlagsKeepWhatIsRaised ∧ Sys2Proof.Spec.EveryKindOfResultLands ∧ Sys2Proof.Spec.LandingEventsLandWhatIsDue ∧ Sys2Proof.Spec.WindowWritesLand

/-- The bundle at the program counter is fetched and decoded, and its issue is exec of its operation. -/
def Obligations.BundlesAreFetchedAndIssued : Prop :=
  Sys2Proof.Spec.FetchReadsTheBundleAtThePc ∧ Sys2Proof.Spec.IssueRunsTheDecodedOperation ∧ Sys2Proof.Spec.IssueTakesOneStep

/-- Loads, stores and atomics become outstanding accesses, or fault at their slot. -/
def Obligations.AccessesBecomeOutstandingOrFault : Prop :=
  Sys2Proof.Spec.AccessesBecomeOutstanding ∧ Sys2Proof.Spec.AccessesFaultAtTheirSlot

/-- A store writes its enabled bytes, a load reads memory, an atomic does both in one instant. -/
def Obligations.AccessesPerform : Prop :=
  Sys2Proof.Spec.StorePerformsItsEnabledBytes ∧ Sys2Proof.Spec.LoadPerformsWithTheBytesOfMemory ∧ Sys2Proof.Spec.AtomicsReadAndWriteInOneInstant

/-- A load or atomic that has performed retires into its register and its counter falls. -/
def Obligations.LoadsRetire : Prop :=
  Sys2Proof.Spec.LoadRetiresIntoItsRegister ∧ Sys2Proof.Spec.VectorLoadRetiresItsEnabledBytes

/-- VLDS, VSTS, SPLD and SPST move rows and words of the window. -/
def Obligations.WindowRowsMove : Prop :=
  Sys2Proof.Spec.RowMovesBetweenWindowAndVectorRegister ∧ Sys2Proof.Spec.ScratchpadScalarsMove

/-- A window opens zeroed, adds exactly, and at its close writes each result rounded once. -/
def Obligations.ExactWindows : Prop :=
  Sys2Proof.Spec.WopenOpensAZeroedWindow ∧ Sys2Proof.Spec.WcloseMarksTheWindowClosing ∧ Sys2Proof.Spec.WindowAddIsExact ∧ Sys2Proof.Spec.WindowCloseWritesResults

/-- FENCE is outstanding until what it follows has performed; DRAIN and WAITM hold their bundle; a WAITM delivers the word that satisfied it. -/
def Obligations.FencesAndWaits : Prop :=
  Sys2Proof.Spec.FenceIsOutstandingAndDrainWaits ∧ Sys2Proof.Spec.WaitmWaitsForItsWord ∧ Sys2Proof.Spec.WaitmDeliversWhatSatisfiedIt

/-- EXPOSE stores a record and tags its cell; a read of a latent cell develops it, parks or fails. -/
def Obligations.LatentCellsAreExposedAndRead : Prop :=
  Sys2Proof.Spec.ExposeBecomesOutstanding ∧ Sys2Proof.Spec.ExposePerformsRecordAndTag ∧ Sys2Proof.Spec.LatentReadsDevelopParkOrFail

/-- An evaluator starts as its record says, reads it by LDREC and writes its value by FIX. -/
def Obligations.EvaluatorsDevelopCells : Prop :=
  Sys2Proof.Spec.EvaluatorStartsAsTheRecordSays ∧ Sys2Proof.Spec.LdrecReadsTheRecord ∧ Sys2Proof.Spec.FixWritesTheValue

/-- Floating lane operations round their exact result once, to the nearest, with the special cases of the functions; of the four transcendental ones the computation is the model's (log 6). -/
def Obligations.FloatLanesAreRounded : Prop :=
  Sys2Proof.Spec.FloatLanesAreRoundedOnce ∧ Sys2Proof.Spec.SpecialCasesOfTheFunctions ∧ Sys2Proof.Spec.ConversionIsToTheNearest

/-- Lane moves, gathers and scatters deliver or write the lanes that their rules name. -/
def Obligations.LanesAreMoved : Prop :=
  Sys2Proof.Spec.LaneMovesDeliverTheNamedLane ∧ Sys2Proof.Spec.VscatWritesTheNamedLanes

/-- Compares, selects, predicate logic and counts, and lanes to and from scalar registers. -/
def Obligations.PredicatesAndScalarsMeetLanes : Prop :=
  Sys2Proof.Spec.PredicatesAreComparedSelectedAndCounted ∧ Sys2Proof.Spec.LanesMeetScalarRegisters

/-- VPART sorts lanes by a predicate; VRAND draws its words of the random stream. -/
def Obligations.LanesAreSortedAndDrawn : Prop :=
  Sys2Proof.Spec.VpartSortsTheLanes ∧ Sys2Proof.Spec.VrandDrawsItsWords

/-- VCVT converts element by element, from and to block-scaled formats too. -/
def Obligations.VcvtConverts : Prop :=
  Sys2Proof.Spec.VcvtConvertsElementByElement ∧ Sys2Proof.Spec.VcvtFormsBlocks

/-- Pushes send exact column sums and beats add them to their accumulator row. -/
def Obligations.PushesAndBeatsAccumulate : Prop :=
  Sys2Proof.Spec.PushesSendExactColumnSums ∧ Sys2Proof.Spec.BeatsAccumulateInTheirRow

/-- An M word acts as one unit, and MSTSAVE and MSTLOAD store and load the matrix image. -/
def Obligations.MatrixWordsAndImages : Prop :=
  Sys2Proof.Spec.MatrixWordIsOneUnit ∧ Sys2Proof.Spec.ImagesAreStoredAndLoaded

/-- Copy commands are taken with their shape and order, or fault in the order of the checks. -/
def Obligations.CopyCommandsAreTakenOrFault : Prop :=
  Sys2Proof.Spec.CopyCommandsAreTaken ∧ Sys2Proof.Spec.CopyCommandsFaultInOrder

/-- Copy commands run and retire; XSHAPE, SPDEF, SBIND, SPADV, XFMT, XSTAT and RNGSET act. -/
def Obligations.CopyEngineRunsAndIsSet : Prop :=
  Sys2Proof.Spec.CopyCommandsRunAndRetire ∧ Sys2Proof.Spec.EngineRegistersAreSet

/-- Contexts join, leave and count groups, and a barrier releases exactly its set. -/
def Obligations.GroupsAndBarriers : Prop :=
  Sys2Proof.Spec.GroupsAndArrivals ∧ Sys2Proof.Spec.BarrierReleasesItsSet

/-- Queues post, take and end; EXIT ends its context. -/
def Obligations.QueuesAndEndings : Prop :=
  Sys2Proof.Spec.QueuesPostAndTake ∧ Sys2Proof.Spec.EmptyQueueTerminates ∧ Sys2Proof.Spec.ExitEndsTheContext

/-- Launches are accepted or refused, placed, started and completed. -/
def Obligations.LaunchesRunTheirCourse : Prop :=
  Sys2Proof.Spec.LaunchIsAcceptedOrRefused ∧ Sys2Proof.Spec.LaunchesStartAndComplete

/-- MATRIX_SWITCH gives the matrix state; PREEMPT evicts a context and RESTORATION returns it. -/
def Obligations.ContextsGiveWayAndReturn : Prop :=
  Sys2Proof.Spec.MatrixSwitchGivesTheState ∧ Sys2Proof.Spec.EvictionAndRestoration

/-- Host windows reach memory; register pages control the command queues. -/
def Obligations.HostReachesMemoryAndQueues : Prop :=
  Sys2Proof.Spec.HostWindowsReachMemory ∧ Sys2Proof.Spec.RegisterPagesControlQueues

/-- Ranks become known and are forgotten, become resident and leave, and their pages move. -/
def Obligations.RanksAreKnownResidentAndMoved : Prop :=
  Sys2Proof.Spec.RanksBecomeKnownAndAreForgotten ∧ Sys2Proof.Spec.ResidencyFollowsItsRules ∧ Sys2Proof.Spec.TierMovesKeepThePage

/-- Virtual functions are reset and enabled; time slices and budget windows pass on. -/
def Obligations.VirtualFunctionsAndSlices : Prop :=
  Sys2Proof.Spec.VirtualFunctionsAreResetAndEnabled ∧ Sys2Proof.Spec.TimeSlicesPassOn

/-- Last Collections are answered, report their queues and reset what overruns. -/
def Obligations.LastCollections : Prop :=
  Sys2Proof.Spec.LastCollectionsAreAnswered ∧ Sys2Proof.Spec.CollectionsReportAndOverrun

/-- Packets are routed and served, those of shuffles pair in the sorting office's window; failed links are fenced and their requests resent or failed. -/
def Obligations.FabricRoutesServesAndFails : Prop :=
  Sys2Proof.Spec.PacketsAreRoutedAndServed ∧ Sys2Proof.Spec.SortingOfficesPairPackets ∧ Sys2Proof.Spec.FailedLinksAreFenced

/-- XCOLL and XSHUF are accepted or fault at their slot. -/
def Obligations.TileOrdersAreAccepted : Prop :=
  Sys2Proof.Spec.CollectivesAreAccepted ∧ Sys2Proof.Spec.ShufflesAreAccepted

/-- Collectives exchange contributions and decide together; an element combines, along the canonical tree or exactly, what the layouts say, and a halt has its culprit. -/
def Obligations.CollectivesExchangeAndCombine : Prop :=
  Sys2Proof.Spec.CollectivesExchangeAndDecide ∧ Sys2Proof.Spec.TargetsTakeTheirContributions ∧ Sys2Proof.Spec.CollectivesCombineAlongTheTree ∧ Sys2Proof.Spec.ExactSumsAreRoundedOnce ∧
    Sys2Proof.Spec.TheCulpritIsTheLowest

/-- Shuffle packets arrive or are spilled; overprints are decoded or fall back. -/
def Obligations.ShufflePacketsAreTakenAndDecoded : Prop :=
  Sys2Proof.Spec.ShufflePacketsArrive ∧ Sys2Proof.Spec.OverprintsAreDecodedOrFallBack

/-- Shuffles retire, abort and time out; refused and spilled packets are kept. -/
def Obligations.ShufflesEndAndPacketsWait : Prop :=
  Sys2Proof.Spec.ShufflesRetireAndAbort ∧ Sys2Proof.Spec.SpilledPacketsAreKept

/-- Every operation of the slots and every event from the waits and hints on completes: under the conditions that the spec gives its normal execution, on the state and the operands alone, exec answers a next state with its own effect. The clauses name every constructor of Instr that no result statement above names alone. -/
def Obligations.OperationsAndEventsComplete : Prop :=
  Sys2Proof.Spec.WaitsHintsAndGroupsComplete ∧ Sys2Proof.Spec.LaneAndMatrixOperationsComplete ∧ Sys2Proof.Spec.EngineOperationsComplete ∧ Sys2Proof.Spec.ContextEventsComplete ∧
  Sys2Proof.Spec.HostEventsComplete ∧ Sys2Proof.Spec.FabricEventsComplete
end

