-- ==== Sys2Proof/Laws/State.lean ====
section
/-! SUPPORT. Laws/State.lean: for every update of the state, what each field is afterwards; all but the field it writes are as they were. -/

namespace Sys2Proof.Machine

/-! ### State.setCtx -/

@[simp] theorem State.setCtx_free (s : State) (k : Nat) (c : Ctx) : (s.setCtx k c).free = s.free := rfl
@[simp] theorem State.setCtx_agenda (s : State) (k : Nat) (c : Ctx) : (s.setCtx k c).agenda = s.agenda := rfl
@[simp] theorem State.setCtx_cur (s : State) (k : Nat) (c : Ctx) : (s.setCtx k c).cur = s.cur := rfl
@[simp] theorem State.setCtx_issue (s : State) (k : Nat) (c : Ctx) : (s.setCtx k c).issue = s.issue := rfl
@[simp] theorem State.setCtx_nextId (s : State) (k : Nat) (c : Ctx) : (s.setCtx k c).nextId = s.nextId := rfl
@[simp] theorem State.setCtx_ctxs (s : State) (k : Nat) (c : Ctx) : (s.setCtx k c).ctxs = tabSet s.ctxs k c := rfl
@[simp] theorem State.setCtx_cores (s : State) (k : Nat) (c : Ctx) : (s.setCtx k c).cores = s.cores := rfl
@[simp] theorem State.setCtx_tlb2 (s : State) (k : Nat) (c : Ctx) : (s.setCtx k c).tlb2 = s.tlb2 := rfl
@[simp] theorem State.setCtx_mem (s : State) (k : Nat) (c : Ctx) : (s.setCtx k c).mem = s.mem := rfl
@[simp] theorem State.setCtx_cells (s : State) (k : Nat) (c : Ctx) : (s.setCtx k c).cells = s.cells := rfl
@[simp] theorem State.setCtx_bad (s : State) (k : Nat) (c : Ctx) : (s.setCtx k c).bad = s.bad := rfl
@[simp] theorem State.setCtx_flips (s : State) (k : Nat) (c : Ctx) : (s.setCtx k c).flips = s.flips := rfl
@[simp] theorem State.setCtx_accs (s : State) (k : Nat) (c : Ctx) : (s.setCtx k c).accs = s.accs := rfl
@[simp] theorem State.setCtx_withdrawn (s : State) (k : Nat) (c : Ctx) : (s.setCtx k c).withdrawn = s.withdrawn := rfl
@[simp] theorem State.setCtx_watches (s : State) (k : Nat) (c : Ctx) : (s.setCtx k c).watches = s.watches := rfl
@[simp] theorem State.setCtx_cmds (s : State) (k : Nat) (c : Ctx) : (s.setCtx k c).cmds = s.cmds := rfl
@[simp] theorem State.setCtx_wins (s : State) (k : Nat) (c : Ctx) : (s.setCtx k c).wins = s.wins := rfl
@[simp] theorem State.setCtx_groups (s : State) (k : Nat) (c : Ctx) : (s.setCtx k c).groups = s.groups := rfl
@[simp] theorem State.setCtx_ranks (s : State) (k : Nat) (c : Ctx) : (s.setCtx k c).ranks = s.ranks := rfl
@[simp] theorem State.setCtx_vfs (s : State) (k : Nat) (c : Ctx) : (s.setCtx k c).vfs = s.vfs := rfl
@[simp] theorem State.setCtx_launches (s : State) (k : Nat) (c : Ctx) : (s.setCtx k c).launches = s.launches := rfl
@[simp] theorem State.setCtx_owned (s : State) (k : Nat) (c : Ctx) : (s.setCtx k c).owned = s.owned := rfl
@[simp] theorem State.setCtx_verified (s : State) (k : Nat) (c : Ctx) : (s.setCtx k c).verified = s.verified := rfl
@[simp] theorem State.setCtx_fused (s : State) (k : Nat) (c : Ctx) : (s.setCtx k c).fused = s.fused := rfl
@[simp] theorem State.setCtx_running (s : State) (k : Nat) (c : Ctx) : (s.setCtx k c).running = s.running := rfl
@[simp] theorem State.setCtx_cuts (s : State) (k : Nat) (c : Ctx) : (s.setCtx k c).cuts = s.cuts := rfl
@[simp] theorem State.setCtx_collections (s : State) (k : Nat) (c : Ctx) : (s.setCtx k c).collections = s.collections := rfl
@[simp] theorem State.setCtx_segments (s : State) (k : Nat) (c : Ctx) : (s.setCtx k c).segments = s.segments := rfl
@[simp] theorem State.setCtx_served (s : State) (k : Nat) (c : Ctx) : (s.setCtx k c).served = s.served := rfl
@[simp] theorem State.setCtx_switching (s : State) (k : Nat) (c : Ctx) : (s.setCtx k c).switching = s.switching := rfl
@[simp] theorem State.setCtx_colls (s : State) (k : Nat) (c : Ctx) : (s.setCtx k c).colls = s.colls := rfl
@[simp] theorem State.setCtx_contribs (s : State) (k : Nat) (c : Ctx) : (s.setCtx k c).contribs = s.contribs := rfl
@[simp] theorem State.setCtx_collAborts (s : State) (k : Nat) (c : Ctx) : (s.setCtx k c).collAborts = s.collAborts := rfl
@[simp] theorem State.setCtx_holds (s : State) (k : Nat) (c : Ctx) : (s.setCtx k c).holds = s.holds := rfl
@[simp] theorem State.setCtx_redslots (s : State) (k : Nat) (c : Ctx) : (s.setCtx k c).redslots = s.redslots := rfl
@[simp] theorem State.setCtx_rotors (s : State) (k : Nat) (c : Ctx) : (s.setCtx k c).rotors = s.rotors := rfl
@[simp] theorem State.setCtx_slotPtr (s : State) (k : Nat) (c : Ctx) : (s.setCtx k c).slotPtr = s.slotPtr := rfl
@[simp] theorem State.setCtx_slotReqs (s : State) (k : Nat) (c : Ctx) : (s.setCtx k c).slotReqs = s.slotReqs := rfl
@[simp] theorem State.setCtx_routes (s : State) (k : Nat) (c : Ctx) : (s.setCtx k c).routes = s.routes := rfl
@[simp] theorem State.setCtx_failedPorts (s : State) (k : Nat) (c : Ctx) : (s.setCtx k c).failedPorts = s.failedPorts := rfl
@[simp] theorem State.setCtx_shufs (s : State) (k : Nat) (c : Ctx) : (s.setCtx k c).shufs = s.shufs := rfl
@[simp] theorem State.setCtx_pairing (s : State) (k : Nat) (c : Ctx) : (s.setCtx k c).pairing = s.pairing := rfl
@[simp] theorem State.setCtx_decoding (s : State) (k : Nat) (c : Ctx) : (s.setCtx k c).decoding = s.decoding := rfl
@[simp] theorem State.setCtx_retries (s : State) (k : Nat) (c : Ctx) : (s.setCtx k c).retries = s.retries := rfl
@[simp] theorem State.setCtx_inbox (s : State) (k : Nat) (c : Ctx) : (s.setCtx k c).inbox = s.inbox := rfl
@[simp] theorem State.setCtx_outbox (s : State) (k : Nat) (c : Ctx) : (s.setCtx k c).outbox = s.outbox := rfl
@[simp] theorem State.setCtx_unconfirmed (s : State) (k : Nat) (c : Ctx) : (s.setCtx k c).unconfirmed = s.unconfirmed := rfl
@[simp] theorem State.setCtx_remoteReads (s : State) (k : Nat) (c : Ctx) : (s.setCtx k c).remoteReads = s.remoteReads := rfl
@[simp] theorem State.setCtx_remote (s : State) (k : Nat) (c : Ctx) : (s.setCtx k c).remote = s.remote := rfl
@[simp] theorem State.setCtx_far (s : State) (k : Nat) (c : Ctx) : (s.setCtx k c).far = s.far := rfl
@[simp] theorem State.setCtx_located (s : State) (k : Nat) (c : Ctx) : (s.setCtx k c).located = s.located := rfl
@[simp] theorem State.setCtx_moved (s : State) (k : Nat) (c : Ctx) : (s.setCtx k c).moved = s.moved := rfl
@[simp] theorem State.setCtx_arriving (s : State) (k : Nat) (c : Ctx) : (s.setCtx k c).arriving = s.arriving := rfl
@[simp] theorem State.setCtx_hostReplies (s : State) (k : Nat) (c : Ctx) : (s.setCtx k c).hostReplies = s.hostReplies := rfl
@[simp] theorem State.setCtx_messages (s : State) (k : Nat) (c : Ctx) : (s.setCtx k c).messages = s.messages := rfl
@[simp] theorem State.setCtx_hub (s : State) (k : Nat) (c : Ctx) : (s.setCtx k c).hub = s.hub := rfl

/-! ### State.setCx -/

@[simp] theorem State.setCx_free (s : State) (c : Ctx) : (s.setCx c).free = s.free := rfl
@[simp] theorem State.setCx_agenda (s : State) (c : Ctx) : (s.setCx c).agenda = s.agenda := rfl
@[simp] theorem State.setCx_cur (s : State) (c : Ctx) : (s.setCx c).cur = s.cur := rfl
@[simp] theorem State.setCx_issue (s : State) (c : Ctx) : (s.setCx c).issue = s.issue := rfl
@[simp] theorem State.setCx_nextId (s : State) (c : Ctx) : (s.setCx c).nextId = s.nextId := rfl
@[simp] theorem State.setCx_ctxs (s : State) (c : Ctx) : (s.setCx c).ctxs = tabSet s.ctxs s.cur c := rfl
@[simp] theorem State.setCx_cores (s : State) (c : Ctx) : (s.setCx c).cores = s.cores := rfl
@[simp] theorem State.setCx_tlb2 (s : State) (c : Ctx) : (s.setCx c).tlb2 = s.tlb2 := rfl
@[simp] theorem State.setCx_mem (s : State) (c : Ctx) : (s.setCx c).mem = s.mem := rfl
@[simp] theorem State.setCx_cells (s : State) (c : Ctx) : (s.setCx c).cells = s.cells := rfl
@[simp] theorem State.setCx_bad (s : State) (c : Ctx) : (s.setCx c).bad = s.bad := rfl
@[simp] theorem State.setCx_flips (s : State) (c : Ctx) : (s.setCx c).flips = s.flips := rfl
@[simp] theorem State.setCx_accs (s : State) (c : Ctx) : (s.setCx c).accs = s.accs := rfl
@[simp] theorem State.setCx_withdrawn (s : State) (c : Ctx) : (s.setCx c).withdrawn = s.withdrawn := rfl
@[simp] theorem State.setCx_watches (s : State) (c : Ctx) : (s.setCx c).watches = s.watches := rfl
@[simp] theorem State.setCx_cmds (s : State) (c : Ctx) : (s.setCx c).cmds = s.cmds := rfl
@[simp] theorem State.setCx_wins (s : State) (c : Ctx) : (s.setCx c).wins = s.wins := rfl
@[simp] theorem State.setCx_groups (s : State) (c : Ctx) : (s.setCx c).groups = s.groups := rfl
@[simp] theorem State.setCx_ranks (s : State) (c : Ctx) : (s.setCx c).ranks = s.ranks := rfl
@[simp] theorem State.setCx_vfs (s : State) (c : Ctx) : (s.setCx c).vfs = s.vfs := rfl
@[simp] theorem State.setCx_launches (s : State) (c : Ctx) : (s.setCx c).launches = s.launches := rfl
@[simp] theorem State.setCx_owned (s : State) (c : Ctx) : (s.setCx c).owned = s.owned := rfl
@[simp] theorem State.setCx_verified (s : State) (c : Ctx) : (s.setCx c).verified = s.verified := rfl
@[simp] theorem State.setCx_fused (s : State) (c : Ctx) : (s.setCx c).fused = s.fused := rfl
@[simp] theorem State.setCx_running (s : State) (c : Ctx) : (s.setCx c).running = s.running := rfl
@[simp] theorem State.setCx_cuts (s : State) (c : Ctx) : (s.setCx c).cuts = s.cuts := rfl
@[simp] theorem State.setCx_collections (s : State) (c : Ctx) : (s.setCx c).collections = s.collections := rfl
@[simp] theorem State.setCx_segments (s : State) (c : Ctx) : (s.setCx c).segments = s.segments := rfl
@[simp] theorem State.setCx_served (s : State) (c : Ctx) : (s.setCx c).served = s.served := rfl
@[simp] theorem State.setCx_switching (s : State) (c : Ctx) : (s.setCx c).switching = s.switching := rfl
@[simp] theorem State.setCx_colls (s : State) (c : Ctx) : (s.setCx c).colls = s.colls := rfl
@[simp] theorem State.setCx_contribs (s : State) (c : Ctx) : (s.setCx c).contribs = s.contribs := rfl
@[simp] theorem State.setCx_collAborts (s : State) (c : Ctx) : (s.setCx c).collAborts = s.collAborts := rfl
@[simp] theorem State.setCx_holds (s : State) (c : Ctx) : (s.setCx c).holds = s.holds := rfl
@[simp] theorem State.setCx_redslots (s : State) (c : Ctx) : (s.setCx c).redslots = s.redslots := rfl
@[simp] theorem State.setCx_rotors (s : State) (c : Ctx) : (s.setCx c).rotors = s.rotors := rfl
@[simp] theorem State.setCx_slotPtr (s : State) (c : Ctx) : (s.setCx c).slotPtr = s.slotPtr := rfl
@[simp] theorem State.setCx_slotReqs (s : State) (c : Ctx) : (s.setCx c).slotReqs = s.slotReqs := rfl
@[simp] theorem State.setCx_routes (s : State) (c : Ctx) : (s.setCx c).routes = s.routes := rfl
@[simp] theorem State.setCx_failedPorts (s : State) (c : Ctx) : (s.setCx c).failedPorts = s.failedPorts := rfl
@[simp] theorem State.setCx_shufs (s : State) (c : Ctx) : (s.setCx c).shufs = s.shufs := rfl
@[simp] theorem State.setCx_pairing (s : State) (c : Ctx) : (s.setCx c).pairing = s.pairing := rfl
@[simp] theorem State.setCx_decoding (s : State) (c : Ctx) : (s.setCx c).decoding = s.decoding := rfl
@[simp] theorem State.setCx_retries (s : State) (c : Ctx) : (s.setCx c).retries = s.retries := rfl
@[simp] theorem State.setCx_inbox (s : State) (c : Ctx) : (s.setCx c).inbox = s.inbox := rfl
@[simp] theorem State.setCx_outbox (s : State) (c : Ctx) : (s.setCx c).outbox = s.outbox := rfl
@[simp] theorem State.setCx_unconfirmed (s : State) (c : Ctx) : (s.setCx c).unconfirmed = s.unconfirmed := rfl
@[simp] theorem State.setCx_remoteReads (s : State) (c : Ctx) : (s.setCx c).remoteReads = s.remoteReads := rfl
@[simp] theorem State.setCx_remote (s : State) (c : Ctx) : (s.setCx c).remote = s.remote := rfl
@[simp] theorem State.setCx_far (s : State) (c : Ctx) : (s.setCx c).far = s.far := rfl
@[simp] theorem State.setCx_located (s : State) (c : Ctx) : (s.setCx c).located = s.located := rfl
@[simp] theorem State.setCx_moved (s : State) (c : Ctx) : (s.setCx c).moved = s.moved := rfl
@[simp] theorem State.setCx_arriving (s : State) (c : Ctx) : (s.setCx c).arriving = s.arriving := rfl
@[simp] theorem State.setCx_hostReplies (s : State) (c : Ctx) : (s.setCx c).hostReplies = s.hostReplies := rfl
@[simp] theorem State.setCx_messages (s : State) (c : Ctx) : (s.setCx c).messages = s.messages := rfl
@[simp] theorem State.setCx_hub (s : State) (c : Ctx) : (s.setCx c).hub = s.hub := rfl

/-! ### State.modCx -/

@[simp] theorem State.modCx_free (s : State) (f : Ctx → Ctx) : (s.modCx f).free = s.free := rfl
@[simp] theorem State.modCx_agenda (s : State) (f : Ctx → Ctx) : (s.modCx f).agenda = s.agenda := rfl
@[simp] theorem State.modCx_cur (s : State) (f : Ctx → Ctx) : (s.modCx f).cur = s.cur := rfl
@[simp] theorem State.modCx_issue (s : State) (f : Ctx → Ctx) : (s.modCx f).issue = s.issue := rfl
@[simp] theorem State.modCx_nextId (s : State) (f : Ctx → Ctx) : (s.modCx f).nextId = s.nextId := rfl
@[simp] theorem State.modCx_ctxs (s : State) (f : Ctx → Ctx) : (s.modCx f).ctxs = tabSet s.ctxs s.cur (f s.cx) := rfl
@[simp] theorem State.modCx_cores (s : State) (f : Ctx → Ctx) : (s.modCx f).cores = s.cores := rfl
@[simp] theorem State.modCx_tlb2 (s : State) (f : Ctx → Ctx) : (s.modCx f).tlb2 = s.tlb2 := rfl
@[simp] theorem State.modCx_mem (s : State) (f : Ctx → Ctx) : (s.modCx f).mem = s.mem := rfl
@[simp] theorem State.modCx_cells (s : State) (f : Ctx → Ctx) : (s.modCx f).cells = s.cells := rfl
@[simp] theorem State.modCx_bad (s : State) (f : Ctx → Ctx) : (s.modCx f).bad = s.bad := rfl
@[simp] theorem State.modCx_flips (s : State) (f : Ctx → Ctx) : (s.modCx f).flips = s.flips := rfl
@[simp] theorem State.modCx_accs (s : State) (f : Ctx → Ctx) : (s.modCx f).accs = s.accs := rfl
@[simp] theorem State.modCx_withdrawn (s : State) (f : Ctx → Ctx) : (s.modCx f).withdrawn = s.withdrawn := rfl
@[simp] theorem State.modCx_watches (s : State) (f : Ctx → Ctx) : (s.modCx f).watches = s.watches := rfl
@[simp] theorem State.modCx_cmds (s : State) (f : Ctx → Ctx) : (s.modCx f).cmds = s.cmds := rfl
@[simp] theorem State.modCx_wins (s : State) (f : Ctx → Ctx) : (s.modCx f).wins = s.wins := rfl
@[simp] theorem State.modCx_groups (s : State) (f : Ctx → Ctx) : (s.modCx f).groups = s.groups := rfl
@[simp] theorem State.modCx_ranks (s : State) (f : Ctx → Ctx) : (s.modCx f).ranks = s.ranks := rfl
@[simp] theorem State.modCx_vfs (s : State) (f : Ctx → Ctx) : (s.modCx f).vfs = s.vfs := rfl
@[simp] theorem State.modCx_launches (s : State) (f : Ctx → Ctx) : (s.modCx f).launches = s.launches := rfl
@[simp] theorem State.modCx_owned (s : State) (f : Ctx → Ctx) : (s.modCx f).owned = s.owned := rfl
@[simp] theorem State.modCx_verified (s : State) (f : Ctx → Ctx) : (s.modCx f).verified = s.verified := rfl
@[simp] theorem State.modCx_fused (s : State) (f : Ctx → Ctx) : (s.modCx f).fused = s.fused := rfl
@[simp] theorem State.modCx_running (s : State) (f : Ctx → Ctx) : (s.modCx f).running = s.running := rfl
@[simp] theorem State.modCx_cuts (s : State) (f : Ctx → Ctx) : (s.modCx f).cuts = s.cuts := rfl
@[simp] theorem State.modCx_collections (s : State) (f : Ctx → Ctx) : (s.modCx f).collections = s.collections := rfl
@[simp] theorem State.modCx_segments (s : State) (f : Ctx → Ctx) : (s.modCx f).segments = s.segments := rfl
@[simp] theorem State.modCx_served (s : State) (f : Ctx → Ctx) : (s.modCx f).served = s.served := rfl
@[simp] theorem State.modCx_switching (s : State) (f : Ctx → Ctx) : (s.modCx f).switching = s.switching := rfl
@[simp] theorem State.modCx_colls (s : State) (f : Ctx → Ctx) : (s.modCx f).colls = s.colls := rfl
@[simp] theorem State.modCx_contribs (s : State) (f : Ctx → Ctx) : (s.modCx f).contribs = s.contribs := rfl
@[simp] theorem State.modCx_collAborts (s : State) (f : Ctx → Ctx) : (s.modCx f).collAborts = s.collAborts := rfl
@[simp] theorem State.modCx_holds (s : State) (f : Ctx → Ctx) : (s.modCx f).holds = s.holds := rfl
@[simp] theorem State.modCx_redslots (s : State) (f : Ctx → Ctx) : (s.modCx f).redslots = s.redslots := rfl
@[simp] theorem State.modCx_rotors (s : State) (f : Ctx → Ctx) : (s.modCx f).rotors = s.rotors := rfl
@[simp] theorem State.modCx_slotPtr (s : State) (f : Ctx → Ctx) : (s.modCx f).slotPtr = s.slotPtr := rfl
@[simp] theorem State.modCx_slotReqs (s : State) (f : Ctx → Ctx) : (s.modCx f).slotReqs = s.slotReqs := rfl
@[simp] theorem State.modCx_routes (s : State) (f : Ctx → Ctx) : (s.modCx f).routes = s.routes := rfl
@[simp] theorem State.modCx_failedPorts (s : State) (f : Ctx → Ctx) : (s.modCx f).failedPorts = s.failedPorts := rfl
@[simp] theorem State.modCx_shufs (s : State) (f : Ctx → Ctx) : (s.modCx f).shufs = s.shufs := rfl
@[simp] theorem State.modCx_pairing (s : State) (f : Ctx → Ctx) : (s.modCx f).pairing = s.pairing := rfl
@[simp] theorem State.modCx_decoding (s : State) (f : Ctx → Ctx) : (s.modCx f).decoding = s.decoding := rfl
@[simp] theorem State.modCx_retries (s : State) (f : Ctx → Ctx) : (s.modCx f).retries = s.retries := rfl
@[simp] theorem State.modCx_inbox (s : State) (f : Ctx → Ctx) : (s.modCx f).inbox = s.inbox := rfl
@[simp] theorem State.modCx_outbox (s : State) (f : Ctx → Ctx) : (s.modCx f).outbox = s.outbox := rfl
@[simp] theorem State.modCx_unconfirmed (s : State) (f : Ctx → Ctx) : (s.modCx f).unconfirmed = s.unconfirmed := rfl
@[simp] theorem State.modCx_remoteReads (s : State) (f : Ctx → Ctx) : (s.modCx f).remoteReads = s.remoteReads := rfl
@[simp] theorem State.modCx_remote (s : State) (f : Ctx → Ctx) : (s.modCx f).remote = s.remote := rfl
@[simp] theorem State.modCx_far (s : State) (f : Ctx → Ctx) : (s.modCx f).far = s.far := rfl
@[simp] theorem State.modCx_located (s : State) (f : Ctx → Ctx) : (s.modCx f).located = s.located := rfl
@[simp] theorem State.modCx_moved (s : State) (f : Ctx → Ctx) : (s.modCx f).moved = s.moved := rfl
@[simp] theorem State.modCx_arriving (s : State) (f : Ctx → Ctx) : (s.modCx f).arriving = s.arriving := rfl
@[simp] theorem State.modCx_hostReplies (s : State) (f : Ctx → Ctx) : (s.modCx f).hostReplies = s.hostReplies := rfl
@[simp] theorem State.modCx_messages (s : State) (f : Ctx → Ctx) : (s.modCx f).messages = s.messages := rfl
@[simp] theorem State.modCx_hub (s : State) (f : Ctx → Ctx) : (s.modCx f).hub = s.hub := rfl

/-! ### State.modCtx -/

@[simp] theorem State.modCtx_free (s : State) (k : Nat) (f : Ctx → Ctx) : (s.modCtx k f).free = s.free := rfl
@[simp] theorem State.modCtx_agenda (s : State) (k : Nat) (f : Ctx → Ctx) : (s.modCtx k f).agenda = s.agenda := rfl
@[simp] theorem State.modCtx_cur (s : State) (k : Nat) (f : Ctx → Ctx) : (s.modCtx k f).cur = s.cur := rfl
@[simp] theorem State.modCtx_issue (s : State) (k : Nat) (f : Ctx → Ctx) : (s.modCtx k f).issue = s.issue := rfl
@[simp] theorem State.modCtx_nextId (s : State) (k : Nat) (f : Ctx → Ctx) : (s.modCtx k f).nextId = s.nextId := rfl
@[simp] theorem State.modCtx_ctxs (s : State) (k : Nat) (f : Ctx → Ctx) : (s.modCtx k f).ctxs = tabSet s.ctxs k (f (s.ctx k)) := rfl
@[simp] theorem State.modCtx_cores (s : State) (k : Nat) (f : Ctx → Ctx) : (s.modCtx k f).cores = s.cores := rfl
@[simp] theorem State.modCtx_tlb2 (s : State) (k : Nat) (f : Ctx → Ctx) : (s.modCtx k f).tlb2 = s.tlb2 := rfl
@[simp] theorem State.modCtx_mem (s : State) (k : Nat) (f : Ctx → Ctx) : (s.modCtx k f).mem = s.mem := rfl
@[simp] theorem State.modCtx_cells (s : State) (k : Nat) (f : Ctx → Ctx) : (s.modCtx k f).cells = s.cells := rfl
@[simp] theorem State.modCtx_bad (s : State) (k : Nat) (f : Ctx → Ctx) : (s.modCtx k f).bad = s.bad := rfl
@[simp] theorem State.modCtx_flips (s : State) (k : Nat) (f : Ctx → Ctx) : (s.modCtx k f).flips = s.flips := rfl
@[simp] theorem State.modCtx_accs (s : State) (k : Nat) (f : Ctx → Ctx) : (s.modCtx k f).accs = s.accs := rfl
@[simp] theorem State.modCtx_withdrawn (s : State) (k : Nat) (f : Ctx → Ctx) : (s.modCtx k f).withdrawn = s.withdrawn := rfl
@[simp] theorem State.modCtx_watches (s : State) (k : Nat) (f : Ctx → Ctx) : (s.modCtx k f).watches = s.watches := rfl
@[simp] theorem State.modCtx_cmds (s : State) (k : Nat) (f : Ctx → Ctx) : (s.modCtx k f).cmds = s.cmds := rfl
@[simp] theorem State.modCtx_wins (s : State) (k : Nat) (f : Ctx → Ctx) : (s.modCtx k f).wins = s.wins := rfl
@[simp] theorem State.modCtx_groups (s : State) (k : Nat) (f : Ctx → Ctx) : (s.modCtx k f).groups = s.groups := rfl
@[simp] theorem State.modCtx_ranks (s : State) (k : Nat) (f : Ctx → Ctx) : (s.modCtx k f).ranks = s.ranks := rfl
@[simp] theorem State.modCtx_vfs (s : State) (k : Nat) (f : Ctx → Ctx) : (s.modCtx k f).vfs = s.vfs := rfl
@[simp] theorem State.modCtx_launches (s : State) (k : Nat) (f : Ctx → Ctx) : (s.modCtx k f).launches = s.launches := rfl
@[simp] theorem State.modCtx_owned (s : State) (k : Nat) (f : Ctx → Ctx) : (s.modCtx k f).owned = s.owned := rfl
@[simp] theorem State.modCtx_verified (s : State) (k : Nat) (f : Ctx → Ctx) : (s.modCtx k f).verified = s.verified := rfl
@[simp] theorem State.modCtx_fused (s : State) (k : Nat) (f : Ctx → Ctx) : (s.modCtx k f).fused = s.fused := rfl
@[simp] theorem State.modCtx_running (s : State) (k : Nat) (f : Ctx → Ctx) : (s.modCtx k f).running = s.running := rfl
@[simp] theorem State.modCtx_cuts (s : State) (k : Nat) (f : Ctx → Ctx) : (s.modCtx k f).cuts = s.cuts := rfl
@[simp] theorem State.modCtx_collections (s : State) (k : Nat) (f : Ctx → Ctx) : (s.modCtx k f).collections = s.collections := rfl
@[simp] theorem State.modCtx_segments (s : State) (k : Nat) (f : Ctx → Ctx) : (s.modCtx k f).segments = s.segments := rfl
@[simp] theorem State.modCtx_served (s : State) (k : Nat) (f : Ctx → Ctx) : (s.modCtx k f).served = s.served := rfl
@[simp] theorem State.modCtx_switching (s : State) (k : Nat) (f : Ctx → Ctx) : (s.modCtx k f).switching = s.switching := rfl
@[simp] theorem State.modCtx_colls (s : State) (k : Nat) (f : Ctx → Ctx) : (s.modCtx k f).colls = s.colls := rfl
@[simp] theorem State.modCtx_contribs (s : State) (k : Nat) (f : Ctx → Ctx) : (s.modCtx k f).contribs = s.contribs := rfl
@[simp] theorem State.modCtx_collAborts (s : State) (k : Nat) (f : Ctx → Ctx) : (s.modCtx k f).collAborts = s.collAborts := rfl
@[simp] theorem State.modCtx_holds (s : State) (k : Nat) (f : Ctx → Ctx) : (s.modCtx k f).holds = s.holds := rfl
@[simp] theorem State.modCtx_redslots (s : State) (k : Nat) (f : Ctx → Ctx) : (s.modCtx k f).redslots = s.redslots := rfl
@[simp] theorem State.modCtx_rotors (s : State) (k : Nat) (f : Ctx → Ctx) : (s.modCtx k f).rotors = s.rotors := rfl
@[simp] theorem State.modCtx_slotPtr (s : State) (k : Nat) (f : Ctx → Ctx) : (s.modCtx k f).slotPtr = s.slotPtr := rfl
@[simp] theorem State.modCtx_slotReqs (s : State) (k : Nat) (f : Ctx → Ctx) : (s.modCtx k f).slotReqs = s.slotReqs := rfl
@[simp] theorem State.modCtx_routes (s : State) (k : Nat) (f : Ctx → Ctx) : (s.modCtx k f).routes = s.routes := rfl
@[simp] theorem State.modCtx_failedPorts (s : State) (k : Nat) (f : Ctx → Ctx) : (s.modCtx k f).failedPorts = s.failedPorts := rfl
@[simp] theorem State.modCtx_shufs (s : State) (k : Nat) (f : Ctx → Ctx) : (s.modCtx k f).shufs = s.shufs := rfl
@[simp] theorem State.modCtx_pairing (s : State) (k : Nat) (f : Ctx → Ctx) : (s.modCtx k f).pairing = s.pairing := rfl
@[simp] theorem State.modCtx_decoding (s : State) (k : Nat) (f : Ctx → Ctx) : (s.modCtx k f).decoding = s.decoding := rfl
@[simp] theorem State.modCtx_retries (s : State) (k : Nat) (f : Ctx → Ctx) : (s.modCtx k f).retries = s.retries := rfl
@[simp] theorem State.modCtx_inbox (s : State) (k : Nat) (f : Ctx → Ctx) : (s.modCtx k f).inbox = s.inbox := rfl
@[simp] theorem State.modCtx_outbox (s : State) (k : Nat) (f : Ctx → Ctx) : (s.modCtx k f).outbox = s.outbox := rfl
@[simp] theorem State.modCtx_unconfirmed (s : State) (k : Nat) (f : Ctx → Ctx) : (s.modCtx k f).unconfirmed = s.unconfirmed := rfl
@[simp] theorem State.modCtx_remoteReads (s : State) (k : Nat) (f : Ctx → Ctx) : (s.modCtx k f).remoteReads = s.remoteReads := rfl
@[simp] theorem State.modCtx_remote (s : State) (k : Nat) (f : Ctx → Ctx) : (s.modCtx k f).remote = s.remote := rfl
@[simp] theorem State.modCtx_far (s : State) (k : Nat) (f : Ctx → Ctx) : (s.modCtx k f).far = s.far := rfl
@[simp] theorem State.modCtx_located (s : State) (k : Nat) (f : Ctx → Ctx) : (s.modCtx k f).located = s.located := rfl
@[simp] theorem State.modCtx_moved (s : State) (k : Nat) (f : Ctx → Ctx) : (s.modCtx k f).moved = s.moved := rfl
@[simp] theorem State.modCtx_arriving (s : State) (k : Nat) (f : Ctx → Ctx) : (s.modCtx k f).arriving = s.arriving := rfl
@[simp] theorem State.modCtx_hostReplies (s : State) (k : Nat) (f : Ctx → Ctx) : (s.modCtx k f).hostReplies = s.hostReplies := rfl
@[simp] theorem State.modCtx_messages (s : State) (k : Nat) (f : Ctx → Ctx) : (s.modCtx k f).messages = s.messages := rfl
@[simp] theorem State.modCtx_hub (s : State) (k : Nat) (f : Ctx → Ctx) : (s.modCtx k f).hub = s.hub := rfl

/-! ### State.emit -/

@[simp] theorem State.emit_free (s : State) (n : Nat) (e : Eff) : (s.emit n e).free = s.free := rfl
@[simp] theorem State.emit_agenda (s : State) (n : Nat) (e : Eff) : (s.emit n e).agenda = s.agenda := rfl
@[simp] theorem State.emit_cur (s : State) (n : Nat) (e : Eff) : (s.emit n e).cur = s.cur := rfl
@[simp] theorem State.emit_issue (s : State) (n : Nat) (e : Eff) : (s.emit n e).issue = s.issue := rfl
@[simp] theorem State.emit_nextId (s : State) (n : Nat) (e : Eff) : (s.emit n e).nextId = s.nextId := rfl
@[simp] theorem State.emit_ctxs (s : State) (n : Nat) (e : Eff) : (s.emit n e).ctxs = tabSet s.ctxs s.cur { s.cx with inflight := s.cx.inflight ++ [⟨s.cx.step + n, e⟩] } := rfl
@[simp] theorem State.emit_cores (s : State) (n : Nat) (e : Eff) : (s.emit n e).cores = s.cores := rfl
@[simp] theorem State.emit_tlb2 (s : State) (n : Nat) (e : Eff) : (s.emit n e).tlb2 = s.tlb2 := rfl
@[simp] theorem State.emit_mem (s : State) (n : Nat) (e : Eff) : (s.emit n e).mem = s.mem := rfl
@[simp] theorem State.emit_cells (s : State) (n : Nat) (e : Eff) : (s.emit n e).cells = s.cells := rfl
@[simp] theorem State.emit_bad (s : State) (n : Nat) (e : Eff) : (s.emit n e).bad = s.bad := rfl
@[simp] theorem State.emit_flips (s : State) (n : Nat) (e : Eff) : (s.emit n e).flips = s.flips := rfl
@[simp] theorem State.emit_accs (s : State) (n : Nat) (e : Eff) : (s.emit n e).accs = s.accs := rfl
@[simp] theorem State.emit_withdrawn (s : State) (n : Nat) (e : Eff) : (s.emit n e).withdrawn = s.withdrawn := rfl
@[simp] theorem State.emit_watches (s : State) (n : Nat) (e : Eff) : (s.emit n e).watches = s.watches := rfl
@[simp] theorem State.emit_cmds (s : State) (n : Nat) (e : Eff) : (s.emit n e).cmds = s.cmds := rfl
@[simp] theorem State.emit_wins (s : State) (n : Nat) (e : Eff) : (s.emit n e).wins = s.wins := rfl
@[simp] theorem State.emit_groups (s : State) (n : Nat) (e : Eff) : (s.emit n e).groups = s.groups := rfl
@[simp] theorem State.emit_ranks (s : State) (n : Nat) (e : Eff) : (s.emit n e).ranks = s.ranks := rfl
@[simp] theorem State.emit_vfs (s : State) (n : Nat) (e : Eff) : (s.emit n e).vfs = s.vfs := rfl
@[simp] theorem State.emit_launches (s : State) (n : Nat) (e : Eff) : (s.emit n e).launches = s.launches := rfl
@[simp] theorem State.emit_owned (s : State) (n : Nat) (e : Eff) : (s.emit n e).owned = s.owned := rfl
@[simp] theorem State.emit_verified (s : State) (n : Nat) (e : Eff) : (s.emit n e).verified = s.verified := rfl
@[simp] theorem State.emit_fused (s : State) (n : Nat) (e : Eff) : (s.emit n e).fused = s.fused := rfl
@[simp] theorem State.emit_running (s : State) (n : Nat) (e : Eff) : (s.emit n e).running = s.running := rfl
@[simp] theorem State.emit_cuts (s : State) (n : Nat) (e : Eff) : (s.emit n e).cuts = s.cuts := rfl
@[simp] theorem State.emit_collections (s : State) (n : Nat) (e : Eff) : (s.emit n e).collections = s.collections := rfl
@[simp] theorem State.emit_segments (s : State) (n : Nat) (e : Eff) : (s.emit n e).segments = s.segments := rfl
@[simp] theorem State.emit_served (s : State) (n : Nat) (e : Eff) : (s.emit n e).served = s.served := rfl
@[simp] theorem State.emit_switching (s : State) (n : Nat) (e : Eff) : (s.emit n e).switching = s.switching := rfl
@[simp] theorem State.emit_colls (s : State) (n : Nat) (e : Eff) : (s.emit n e).colls = s.colls := rfl
@[simp] theorem State.emit_contribs (s : State) (n : Nat) (e : Eff) : (s.emit n e).contribs = s.contribs := rfl
@[simp] theorem State.emit_collAborts (s : State) (n : Nat) (e : Eff) : (s.emit n e).collAborts = s.collAborts := rfl
@[simp] theorem State.emit_holds (s : State) (n : Nat) (e : Eff) : (s.emit n e).holds = s.holds := rfl
@[simp] theorem State.emit_redslots (s : State) (n : Nat) (e : Eff) : (s.emit n e).redslots = s.redslots := rfl
@[simp] theorem State.emit_rotors (s : State) (n : Nat) (e : Eff) : (s.emit n e).rotors = s.rotors := rfl
@[simp] theorem State.emit_slotPtr (s : State) (n : Nat) (e : Eff) : (s.emit n e).slotPtr = s.slotPtr := rfl
@[simp] theorem State.emit_slotReqs (s : State) (n : Nat) (e : Eff) : (s.emit n e).slotReqs = s.slotReqs := rfl
@[simp] theorem State.emit_routes (s : State) (n : Nat) (e : Eff) : (s.emit n e).routes = s.routes := rfl
@[simp] theorem State.emit_failedPorts (s : State) (n : Nat) (e : Eff) : (s.emit n e).failedPorts = s.failedPorts := rfl
@[simp] theorem State.emit_shufs (s : State) (n : Nat) (e : Eff) : (s.emit n e).shufs = s.shufs := rfl
@[simp] theorem State.emit_pairing (s : State) (n : Nat) (e : Eff) : (s.emit n e).pairing = s.pairing := rfl
@[simp] theorem State.emit_decoding (s : State) (n : Nat) (e : Eff) : (s.emit n e).decoding = s.decoding := rfl
@[simp] theorem State.emit_retries (s : State) (n : Nat) (e : Eff) : (s.emit n e).retries = s.retries := rfl
@[simp] theorem State.emit_inbox (s : State) (n : Nat) (e : Eff) : (s.emit n e).inbox = s.inbox := rfl
@[simp] theorem State.emit_outbox (s : State) (n : Nat) (e : Eff) : (s.emit n e).outbox = s.outbox := rfl
@[simp] theorem State.emit_unconfirmed (s : State) (n : Nat) (e : Eff) : (s.emit n e).unconfirmed = s.unconfirmed := rfl
@[simp] theorem State.emit_remoteReads (s : State) (n : Nat) (e : Eff) : (s.emit n e).remoteReads = s.remoteReads := rfl
@[simp] theorem State.emit_remote (s : State) (n : Nat) (e : Eff) : (s.emit n e).remote = s.remote := rfl
@[simp] theorem State.emit_far (s : State) (n : Nat) (e : Eff) : (s.emit n e).far = s.far := rfl
@[simp] theorem State.emit_located (s : State) (n : Nat) (e : Eff) : (s.emit n e).located = s.located := rfl
@[simp] theorem State.emit_moved (s : State) (n : Nat) (e : Eff) : (s.emit n e).moved = s.moved := rfl
@[simp] theorem State.emit_arriving (s : State) (n : Nat) (e : Eff) : (s.emit n e).arriving = s.arriving := rfl
@[simp] theorem State.emit_hostReplies (s : State) (n : Nat) (e : Eff) : (s.emit n e).hostReplies = s.hostReplies := rfl
@[simp] theorem State.emit_messages (s : State) (n : Nat) (e : Eff) : (s.emit n e).messages = s.messages := rfl
@[simp] theorem State.emit_hub (s : State) (n : Nat) (e : Eff) : (s.emit n e).hub = s.hub := rfl

/-! ### State.setCore -/

@[simp] theorem State.setCore_free (s : State) (n : Nat) (c : Core) : (s.setCore n c).free = s.free := rfl
@[simp] theorem State.setCore_agenda (s : State) (n : Nat) (c : Core) : (s.setCore n c).agenda = s.agenda := rfl
@[simp] theorem State.setCore_cur (s : State) (n : Nat) (c : Core) : (s.setCore n c).cur = s.cur := rfl
@[simp] theorem State.setCore_issue (s : State) (n : Nat) (c : Core) : (s.setCore n c).issue = s.issue := rfl
@[simp] theorem State.setCore_nextId (s : State) (n : Nat) (c : Core) : (s.setCore n c).nextId = s.nextId := rfl
@[simp] theorem State.setCore_ctxs (s : State) (n : Nat) (c : Core) : (s.setCore n c).ctxs = s.ctxs := rfl
@[simp] theorem State.setCore_cores (s : State) (n : Nat) (c : Core) : (s.setCore n c).cores = tabSet s.cores n c := rfl
@[simp] theorem State.setCore_tlb2 (s : State) (n : Nat) (c : Core) : (s.setCore n c).tlb2 = s.tlb2 := rfl
@[simp] theorem State.setCore_mem (s : State) (n : Nat) (c : Core) : (s.setCore n c).mem = s.mem := rfl
@[simp] theorem State.setCore_cells (s : State) (n : Nat) (c : Core) : (s.setCore n c).cells = s.cells := rfl
@[simp] theorem State.setCore_bad (s : State) (n : Nat) (c : Core) : (s.setCore n c).bad = s.bad := rfl
@[simp] theorem State.setCore_flips (s : State) (n : Nat) (c : Core) : (s.setCore n c).flips = s.flips := rfl
@[simp] theorem State.setCore_accs (s : State) (n : Nat) (c : Core) : (s.setCore n c).accs = s.accs := rfl
@[simp] theorem State.setCore_withdrawn (s : State) (n : Nat) (c : Core) : (s.setCore n c).withdrawn = s.withdrawn := rfl
@[simp] theorem State.setCore_watches (s : State) (n : Nat) (c : Core) : (s.setCore n c).watches = s.watches := rfl
@[simp] theorem State.setCore_cmds (s : State) (n : Nat) (c : Core) : (s.setCore n c).cmds = s.cmds := rfl
@[simp] theorem State.setCore_wins (s : State) (n : Nat) (c : Core) : (s.setCore n c).wins = s.wins := rfl
@[simp] theorem State.setCore_groups (s : State) (n : Nat) (c : Core) : (s.setCore n c).groups = s.groups := rfl
@[simp] theorem State.setCore_ranks (s : State) (n : Nat) (c : Core) : (s.setCore n c).ranks = s.ranks := rfl
@[simp] theorem State.setCore_vfs (s : State) (n : Nat) (c : Core) : (s.setCore n c).vfs = s.vfs := rfl
@[simp] theorem State.setCore_launches (s : State) (n : Nat) (c : Core) : (s.setCore n c).launches = s.launches := rfl
@[simp] theorem State.setCore_owned (s : State) (n : Nat) (c : Core) : (s.setCore n c).owned = s.owned := rfl
@[simp] theorem State.setCore_verified (s : State) (n : Nat) (c : Core) : (s.setCore n c).verified = s.verified := rfl
@[simp] theorem State.setCore_fused (s : State) (n : Nat) (c : Core) : (s.setCore n c).fused = s.fused := rfl
@[simp] theorem State.setCore_running (s : State) (n : Nat) (c : Core) : (s.setCore n c).running = s.running := rfl
@[simp] theorem State.setCore_cuts (s : State) (n : Nat) (c : Core) : (s.setCore n c).cuts = s.cuts := rfl
@[simp] theorem State.setCore_collections (s : State) (n : Nat) (c : Core) : (s.setCore n c).collections = s.collections := rfl
@[simp] theorem State.setCore_segments (s : State) (n : Nat) (c : Core) : (s.setCore n c).segments = s.segments := rfl
@[simp] theorem State.setCore_served (s : State) (n : Nat) (c : Core) : (s.setCore n c).served = s.served := rfl
@[simp] theorem State.setCore_switching (s : State) (n : Nat) (c : Core) : (s.setCore n c).switching = s.switching := rfl
@[simp] theorem State.setCore_colls (s : State) (n : Nat) (c : Core) : (s.setCore n c).colls = s.colls := rfl
@[simp] theorem State.setCore_contribs (s : State) (n : Nat) (c : Core) : (s.setCore n c).contribs = s.contribs := rfl
@[simp] theorem State.setCore_collAborts (s : State) (n : Nat) (c : Core) : (s.setCore n c).collAborts = s.collAborts := rfl
@[simp] theorem State.setCore_holds (s : State) (n : Nat) (c : Core) : (s.setCore n c).holds = s.holds := rfl
@[simp] theorem State.setCore_redslots (s : State) (n : Nat) (c : Core) : (s.setCore n c).redslots = s.redslots := rfl
@[simp] theorem State.setCore_rotors (s : State) (n : Nat) (c : Core) : (s.setCore n c).rotors = s.rotors := rfl
@[simp] theorem State.setCore_slotPtr (s : State) (n : Nat) (c : Core) : (s.setCore n c).slotPtr = s.slotPtr := rfl
@[simp] theorem State.setCore_slotReqs (s : State) (n : Nat) (c : Core) : (s.setCore n c).slotReqs = s.slotReqs := rfl
@[simp] theorem State.setCore_routes (s : State) (n : Nat) (c : Core) : (s.setCore n c).routes = s.routes := rfl
@[simp] theorem State.setCore_failedPorts (s : State) (n : Nat) (c : Core) : (s.setCore n c).failedPorts = s.failedPorts := rfl
@[simp] theorem State.setCore_shufs (s : State) (n : Nat) (c : Core) : (s.setCore n c).shufs = s.shufs := rfl
@[simp] theorem State.setCore_pairing (s : State) (n : Nat) (c : Core) : (s.setCore n c).pairing = s.pairing := rfl
@[simp] theorem State.setCore_decoding (s : State) (n : Nat) (c : Core) : (s.setCore n c).decoding = s.decoding := rfl
@[simp] theorem State.setCore_retries (s : State) (n : Nat) (c : Core) : (s.setCore n c).retries = s.retries := rfl
@[simp] theorem State.setCore_inbox (s : State) (n : Nat) (c : Core) : (s.setCore n c).inbox = s.inbox := rfl
@[simp] theorem State.setCore_outbox (s : State) (n : Nat) (c : Core) : (s.setCore n c).outbox = s.outbox := rfl
@[simp] theorem State.setCore_unconfirmed (s : State) (n : Nat) (c : Core) : (s.setCore n c).unconfirmed = s.unconfirmed := rfl
@[simp] theorem State.setCore_remoteReads (s : State) (n : Nat) (c : Core) : (s.setCore n c).remoteReads = s.remoteReads := rfl
@[simp] theorem State.setCore_remote (s : State) (n : Nat) (c : Core) : (s.setCore n c).remote = s.remote := rfl
@[simp] theorem State.setCore_far (s : State) (n : Nat) (c : Core) : (s.setCore n c).far = s.far := rfl
@[simp] theorem State.setCore_located (s : State) (n : Nat) (c : Core) : (s.setCore n c).located = s.located := rfl
@[simp] theorem State.setCore_moved (s : State) (n : Nat) (c : Core) : (s.setCore n c).moved = s.moved := rfl
@[simp] theorem State.setCore_arriving (s : State) (n : Nat) (c : Core) : (s.setCore n c).arriving = s.arriving := rfl
@[simp] theorem State.setCore_hostReplies (s : State) (n : Nat) (c : Core) : (s.setCore n c).hostReplies = s.hostReplies := rfl
@[simp] theorem State.setCore_messages (s : State) (n : Nat) (c : Core) : (s.setCore n c).messages = s.messages := rfl
@[simp] theorem State.setCore_hub (s : State) (n : Nat) (c : Core) : (s.setCore n c).hub = s.hub := rfl

/-! ### State.modCore -/

@[simp] theorem State.modCore_free (s : State) (n : Nat) (f : Core → Core) : (s.modCore n f).free = s.free := rfl
@[simp] theorem State.modCore_agenda (s : State) (n : Nat) (f : Core → Core) : (s.modCore n f).agenda = s.agenda := rfl
@[simp] theorem State.modCore_cur (s : State) (n : Nat) (f : Core → Core) : (s.modCore n f).cur = s.cur := rfl
@[simp] theorem State.modCore_issue (s : State) (n : Nat) (f : Core → Core) : (s.modCore n f).issue = s.issue := rfl
@[simp] theorem State.modCore_nextId (s : State) (n : Nat) (f : Core → Core) : (s.modCore n f).nextId = s.nextId := rfl
@[simp] theorem State.modCore_ctxs (s : State) (n : Nat) (f : Core → Core) : (s.modCore n f).ctxs = s.ctxs := rfl
@[simp] theorem State.modCore_cores (s : State) (n : Nat) (f : Core → Core) : (s.modCore n f).cores = tabSet s.cores n (f (s.core n)) := rfl
@[simp] theorem State.modCore_tlb2 (s : State) (n : Nat) (f : Core → Core) : (s.modCore n f).tlb2 = s.tlb2 := rfl
@[simp] theorem State.modCore_mem (s : State) (n : Nat) (f : Core → Core) : (s.modCore n f).mem = s.mem := rfl
@[simp] theorem State.modCore_cells (s : State) (n : Nat) (f : Core → Core) : (s.modCore n f).cells = s.cells := rfl
@[simp] theorem State.modCore_bad (s : State) (n : Nat) (f : Core → Core) : (s.modCore n f).bad = s.bad := rfl
@[simp] theorem State.modCore_flips (s : State) (n : Nat) (f : Core → Core) : (s.modCore n f).flips = s.flips := rfl
@[simp] theorem State.modCore_accs (s : State) (n : Nat) (f : Core → Core) : (s.modCore n f).accs = s.accs := rfl
@[simp] theorem State.modCore_withdrawn (s : State) (n : Nat) (f : Core → Core) : (s.modCore n f).withdrawn = s.withdrawn := rfl
@[simp] theorem State.modCore_watches (s : State) (n : Nat) (f : Core → Core) : (s.modCore n f).watches = s.watches := rfl
@[simp] theorem State.modCore_cmds (s : State) (n : Nat) (f : Core → Core) : (s.modCore n f).cmds = s.cmds := rfl
@[simp] theorem State.modCore_wins (s : State) (n : Nat) (f : Core → Core) : (s.modCore n f).wins = s.wins := rfl
@[simp] theorem State.modCore_groups (s : State) (n : Nat) (f : Core → Core) : (s.modCore n f).groups = s.groups := rfl
@[simp] theorem State.modCore_ranks (s : State) (n : Nat) (f : Core → Core) : (s.modCore n f).ranks = s.ranks := rfl
@[simp] theorem State.modCore_vfs (s : State) (n : Nat) (f : Core → Core) : (s.modCore n f).vfs = s.vfs := rfl
@[simp] theorem State.modCore_launches (s : State) (n : Nat) (f : Core → Core) : (s.modCore n f).launches = s.launches := rfl
@[simp] theorem State.modCore_owned (s : State) (n : Nat) (f : Core → Core) : (s.modCore n f).owned = s.owned := rfl
@[simp] theorem State.modCore_verified (s : State) (n : Nat) (f : Core → Core) : (s.modCore n f).verified = s.verified := rfl
@[simp] theorem State.modCore_fused (s : State) (n : Nat) (f : Core → Core) : (s.modCore n f).fused = s.fused := rfl
@[simp] theorem State.modCore_running (s : State) (n : Nat) (f : Core → Core) : (s.modCore n f).running = s.running := rfl
@[simp] theorem State.modCore_cuts (s : State) (n : Nat) (f : Core → Core) : (s.modCore n f).cuts = s.cuts := rfl
@[simp] theorem State.modCore_collections (s : State) (n : Nat) (f : Core → Core) : (s.modCore n f).collections = s.collections := rfl
@[simp] theorem State.modCore_segments (s : State) (n : Nat) (f : Core → Core) : (s.modCore n f).segments = s.segments := rfl
@[simp] theorem State.modCore_served (s : State) (n : Nat) (f : Core → Core) : (s.modCore n f).served = s.served := rfl
@[simp] theorem State.modCore_switching (s : State) (n : Nat) (f : Core → Core) : (s.modCore n f).switching = s.switching := rfl
@[simp] theorem State.modCore_colls (s : State) (n : Nat) (f : Core → Core) : (s.modCore n f).colls = s.colls := rfl
@[simp] theorem State.modCore_contribs (s : State) (n : Nat) (f : Core → Core) : (s.modCore n f).contribs = s.contribs := rfl
@[simp] theorem State.modCore_collAborts (s : State) (n : Nat) (f : Core → Core) : (s.modCore n f).collAborts = s.collAborts := rfl
@[simp] theorem State.modCore_holds (s : State) (n : Nat) (f : Core → Core) : (s.modCore n f).holds = s.holds := rfl
@[simp] theorem State.modCore_redslots (s : State) (n : Nat) (f : Core → Core) : (s.modCore n f).redslots = s.redslots := rfl
@[simp] theorem State.modCore_rotors (s : State) (n : Nat) (f : Core → Core) : (s.modCore n f).rotors = s.rotors := rfl
@[simp] theorem State.modCore_slotPtr (s : State) (n : Nat) (f : Core → Core) : (s.modCore n f).slotPtr = s.slotPtr := rfl
@[simp] theorem State.modCore_slotReqs (s : State) (n : Nat) (f : Core → Core) : (s.modCore n f).slotReqs = s.slotReqs := rfl
@[simp] theorem State.modCore_routes (s : State) (n : Nat) (f : Core → Core) : (s.modCore n f).routes = s.routes := rfl
@[simp] theorem State.modCore_failedPorts (s : State) (n : Nat) (f : Core → Core) : (s.modCore n f).failedPorts = s.failedPorts := rfl
@[simp] theorem State.modCore_shufs (s : State) (n : Nat) (f : Core → Core) : (s.modCore n f).shufs = s.shufs := rfl
@[simp] theorem State.modCore_pairing (s : State) (n : Nat) (f : Core → Core) : (s.modCore n f).pairing = s.pairing := rfl
@[simp] theorem State.modCore_decoding (s : State) (n : Nat) (f : Core → Core) : (s.modCore n f).decoding = s.decoding := rfl
@[simp] theorem State.modCore_retries (s : State) (n : Nat) (f : Core → Core) : (s.modCore n f).retries = s.retries := rfl
@[simp] theorem State.modCore_inbox (s : State) (n : Nat) (f : Core → Core) : (s.modCore n f).inbox = s.inbox := rfl
@[simp] theorem State.modCore_outbox (s : State) (n : Nat) (f : Core → Core) : (s.modCore n f).outbox = s.outbox := rfl
@[simp] theorem State.modCore_unconfirmed (s : State) (n : Nat) (f : Core → Core) : (s.modCore n f).unconfirmed = s.unconfirmed := rfl
@[simp] theorem State.modCore_remoteReads (s : State) (n : Nat) (f : Core → Core) : (s.modCore n f).remoteReads = s.remoteReads := rfl
@[simp] theorem State.modCore_remote (s : State) (n : Nat) (f : Core → Core) : (s.modCore n f).remote = s.remote := rfl
@[simp] theorem State.modCore_far (s : State) (n : Nat) (f : Core → Core) : (s.modCore n f).far = s.far := rfl
@[simp] theorem State.modCore_located (s : State) (n : Nat) (f : Core → Core) : (s.modCore n f).located = s.located := rfl
@[simp] theorem State.modCore_moved (s : State) (n : Nat) (f : Core → Core) : (s.modCore n f).moved = s.moved := rfl
@[simp] theorem State.modCore_arriving (s : State) (n : Nat) (f : Core → Core) : (s.modCore n f).arriving = s.arriving := rfl
@[simp] theorem State.modCore_hostReplies (s : State) (n : Nat) (f : Core → Core) : (s.modCore n f).hostReplies = s.hostReplies := rfl
@[simp] theorem State.modCore_messages (s : State) (n : Nat) (f : Core → Core) : (s.modCore n f).messages = s.messages := rfl
@[simp] theorem State.modCore_hub (s : State) (n : Nat) (f : Core → Core) : (s.modCore n f).hub = s.hub := rfl

/-! ### State.modRank -/

@[simp] theorem State.modRank_free (s : State) (r : Nat) (f : RankRec → RankRec) : (s.modRank r f).free = s.free := rfl
@[simp] theorem State.modRank_agenda (s : State) (r : Nat) (f : RankRec → RankRec) : (s.modRank r f).agenda = s.agenda := rfl
@[simp] theorem State.modRank_cur (s : State) (r : Nat) (f : RankRec → RankRec) : (s.modRank r f).cur = s.cur := rfl
@[simp] theorem State.modRank_issue (s : State) (r : Nat) (f : RankRec → RankRec) : (s.modRank r f).issue = s.issue := rfl
@[simp] theorem State.modRank_nextId (s : State) (r : Nat) (f : RankRec → RankRec) : (s.modRank r f).nextId = s.nextId := rfl
@[simp] theorem State.modRank_ctxs (s : State) (r : Nat) (f : RankRec → RankRec) : (s.modRank r f).ctxs = s.ctxs := rfl
@[simp] theorem State.modRank_cores (s : State) (r : Nat) (f : RankRec → RankRec) : (s.modRank r f).cores = s.cores := rfl
@[simp] theorem State.modRank_tlb2 (s : State) (r : Nat) (f : RankRec → RankRec) : (s.modRank r f).tlb2 = s.tlb2 := rfl
@[simp] theorem State.modRank_mem (s : State) (r : Nat) (f : RankRec → RankRec) : (s.modRank r f).mem = s.mem := rfl
@[simp] theorem State.modRank_cells (s : State) (r : Nat) (f : RankRec → RankRec) : (s.modRank r f).cells = s.cells := rfl
@[simp] theorem State.modRank_bad (s : State) (r : Nat) (f : RankRec → RankRec) : (s.modRank r f).bad = s.bad := rfl
@[simp] theorem State.modRank_flips (s : State) (r : Nat) (f : RankRec → RankRec) : (s.modRank r f).flips = s.flips := rfl
@[simp] theorem State.modRank_accs (s : State) (r : Nat) (f : RankRec → RankRec) : (s.modRank r f).accs = s.accs := rfl
@[simp] theorem State.modRank_withdrawn (s : State) (r : Nat) (f : RankRec → RankRec) : (s.modRank r f).withdrawn = s.withdrawn := rfl
@[simp] theorem State.modRank_watches (s : State) (r : Nat) (f : RankRec → RankRec) : (s.modRank r f).watches = s.watches := rfl
@[simp] theorem State.modRank_cmds (s : State) (r : Nat) (f : RankRec → RankRec) : (s.modRank r f).cmds = s.cmds := rfl
@[simp] theorem State.modRank_wins (s : State) (r : Nat) (f : RankRec → RankRec) : (s.modRank r f).wins = s.wins := rfl
@[simp] theorem State.modRank_groups (s : State) (r : Nat) (f : RankRec → RankRec) : (s.modRank r f).groups = s.groups := rfl
@[simp] theorem State.modRank_ranks (s : State) (r : Nat) (f : RankRec → RankRec) : (s.modRank r f).ranks = tabModify s.ranks r f := rfl
@[simp] theorem State.modRank_vfs (s : State) (r : Nat) (f : RankRec → RankRec) : (s.modRank r f).vfs = s.vfs := rfl
@[simp] theorem State.modRank_launches (s : State) (r : Nat) (f : RankRec → RankRec) : (s.modRank r f).launches = s.launches := rfl
@[simp] theorem State.modRank_owned (s : State) (r : Nat) (f : RankRec → RankRec) : (s.modRank r f).owned = s.owned := rfl
@[simp] theorem State.modRank_verified (s : State) (r : Nat) (f : RankRec → RankRec) : (s.modRank r f).verified = s.verified := rfl
@[simp] theorem State.modRank_fused (s : State) (r : Nat) (f : RankRec → RankRec) : (s.modRank r f).fused = s.fused := rfl
@[simp] theorem State.modRank_running (s : State) (r : Nat) (f : RankRec → RankRec) : (s.modRank r f).running = s.running := rfl
@[simp] theorem State.modRank_cuts (s : State) (r : Nat) (f : RankRec → RankRec) : (s.modRank r f).cuts = s.cuts := rfl
@[simp] theorem State.modRank_collections (s : State) (r : Nat) (f : RankRec → RankRec) : (s.modRank r f).collections = s.collections := rfl
@[simp] theorem State.modRank_segments (s : State) (r : Nat) (f : RankRec → RankRec) : (s.modRank r f).segments = s.segments := rfl
@[simp] theorem State.modRank_served (s : State) (r : Nat) (f : RankRec → RankRec) : (s.modRank r f).served = s.served := rfl
@[simp] theorem State.modRank_switching (s : State) (r : Nat) (f : RankRec → RankRec) : (s.modRank r f).switching = s.switching := rfl
@[simp] theorem State.modRank_colls (s : State) (r : Nat) (f : RankRec → RankRec) : (s.modRank r f).colls = s.colls := rfl
@[simp] theorem State.modRank_contribs (s : State) (r : Nat) (f : RankRec → RankRec) : (s.modRank r f).contribs = s.contribs := rfl
@[simp] theorem State.modRank_collAborts (s : State) (r : Nat) (f : RankRec → RankRec) : (s.modRank r f).collAborts = s.collAborts := rfl
@[simp] theorem State.modRank_holds (s : State) (r : Nat) (f : RankRec → RankRec) : (s.modRank r f).holds = s.holds := rfl
@[simp] theorem State.modRank_redslots (s : State) (r : Nat) (f : RankRec → RankRec) : (s.modRank r f).redslots = s.redslots := rfl
@[simp] theorem State.modRank_rotors (s : State) (r : Nat) (f : RankRec → RankRec) : (s.modRank r f).rotors = s.rotors := rfl
@[simp] theorem State.modRank_slotPtr (s : State) (r : Nat) (f : RankRec → RankRec) : (s.modRank r f).slotPtr = s.slotPtr := rfl
@[simp] theorem State.modRank_slotReqs (s : State) (r : Nat) (f : RankRec → RankRec) : (s.modRank r f).slotReqs = s.slotReqs := rfl
@[simp] theorem State.modRank_routes (s : State) (r : Nat) (f : RankRec → RankRec) : (s.modRank r f).routes = s.routes := rfl
@[simp] theorem State.modRank_failedPorts (s : State) (r : Nat) (f : RankRec → RankRec) : (s.modRank r f).failedPorts = s.failedPorts := rfl
@[simp] theorem State.modRank_shufs (s : State) (r : Nat) (f : RankRec → RankRec) : (s.modRank r f).shufs = s.shufs := rfl
@[simp] theorem State.modRank_pairing (s : State) (r : Nat) (f : RankRec → RankRec) : (s.modRank r f).pairing = s.pairing := rfl
@[simp] theorem State.modRank_decoding (s : State) (r : Nat) (f : RankRec → RankRec) : (s.modRank r f).decoding = s.decoding := rfl
@[simp] theorem State.modRank_retries (s : State) (r : Nat) (f : RankRec → RankRec) : (s.modRank r f).retries = s.retries := rfl
@[simp] theorem State.modRank_inbox (s : State) (r : Nat) (f : RankRec → RankRec) : (s.modRank r f).inbox = s.inbox := rfl
@[simp] theorem State.modRank_outbox (s : State) (r : Nat) (f : RankRec → RankRec) : (s.modRank r f).outbox = s.outbox := rfl
@[simp] theorem State.modRank_unconfirmed (s : State) (r : Nat) (f : RankRec → RankRec) : (s.modRank r f).unconfirmed = s.unconfirmed := rfl
@[simp] theorem State.modRank_remoteReads (s : State) (r : Nat) (f : RankRec → RankRec) : (s.modRank r f).remoteReads = s.remoteReads := rfl
@[simp] theorem State.modRank_remote (s : State) (r : Nat) (f : RankRec → RankRec) : (s.modRank r f).remote = s.remote := rfl
@[simp] theorem State.modRank_far (s : State) (r : Nat) (f : RankRec → RankRec) : (s.modRank r f).far = s.far := rfl
@[simp] theorem State.modRank_located (s : State) (r : Nat) (f : RankRec → RankRec) : (s.modRank r f).located = s.located := rfl
@[simp] theorem State.modRank_moved (s : State) (r : Nat) (f : RankRec → RankRec) : (s.modRank r f).moved = s.moved := rfl
@[simp] theorem State.modRank_arriving (s : State) (r : Nat) (f : RankRec → RankRec) : (s.modRank r f).arriving = s.arriving := rfl
@[simp] theorem State.modRank_hostReplies (s : State) (r : Nat) (f : RankRec → RankRec) : (s.modRank r f).hostReplies = s.hostReplies := rfl
@[simp] theorem State.modRank_messages (s : State) (r : Nat) (f : RankRec → RankRec) : (s.modRank r f).messages = s.messages := rfl
@[simp] theorem State.modRank_hub (s : State) (r : Nat) (f : RankRec → RankRec) : (s.modRank r f).hub = s.hub := rfl

/-! ### State.setVf -/

@[simp] theorem State.setVf_free (s : State) (v : Nat) (x : VF) : (s.setVf v x).free = s.free := rfl
@[simp] theorem State.setVf_agenda (s : State) (v : Nat) (x : VF) : (s.setVf v x).agenda = s.agenda := rfl
@[simp] theorem State.setVf_cur (s : State) (v : Nat) (x : VF) : (s.setVf v x).cur = s.cur := rfl
@[simp] theorem State.setVf_issue (s : State) (v : Nat) (x : VF) : (s.setVf v x).issue = s.issue := rfl
@[simp] theorem State.setVf_nextId (s : State) (v : Nat) (x : VF) : (s.setVf v x).nextId = s.nextId := rfl
@[simp] theorem State.setVf_ctxs (s : State) (v : Nat) (x : VF) : (s.setVf v x).ctxs = s.ctxs := rfl
@[simp] theorem State.setVf_cores (s : State) (v : Nat) (x : VF) : (s.setVf v x).cores = s.cores := rfl
@[simp] theorem State.setVf_tlb2 (s : State) (v : Nat) (x : VF) : (s.setVf v x).tlb2 = s.tlb2 := rfl
@[simp] theorem State.setVf_mem (s : State) (v : Nat) (x : VF) : (s.setVf v x).mem = s.mem := rfl
@[simp] theorem State.setVf_cells (s : State) (v : Nat) (x : VF) : (s.setVf v x).cells = s.cells := rfl
@[simp] theorem State.setVf_bad (s : State) (v : Nat) (x : VF) : (s.setVf v x).bad = s.bad := rfl
@[simp] theorem State.setVf_flips (s : State) (v : Nat) (x : VF) : (s.setVf v x).flips = s.flips := rfl
@[simp] theorem State.setVf_accs (s : State) (v : Nat) (x : VF) : (s.setVf v x).accs = s.accs := rfl
@[simp] theorem State.setVf_withdrawn (s : State) (v : Nat) (x : VF) : (s.setVf v x).withdrawn = s.withdrawn := rfl
@[simp] theorem State.setVf_watches (s : State) (v : Nat) (x : VF) : (s.setVf v x).watches = s.watches := rfl
@[simp] theorem State.setVf_cmds (s : State) (v : Nat) (x : VF) : (s.setVf v x).cmds = s.cmds := rfl
@[simp] theorem State.setVf_wins (s : State) (v : Nat) (x : VF) : (s.setVf v x).wins = s.wins := rfl
@[simp] theorem State.setVf_groups (s : State) (v : Nat) (x : VF) : (s.setVf v x).groups = s.groups := rfl
@[simp] theorem State.setVf_ranks (s : State) (v : Nat) (x : VF) : (s.setVf v x).ranks = s.ranks := rfl
@[simp] theorem State.setVf_vfs (s : State) (v : Nat) (x : VF) : (s.setVf v x).vfs = tabSet s.vfs v x := rfl
@[simp] theorem State.setVf_launches (s : State) (v : Nat) (x : VF) : (s.setVf v x).launches = s.launches := rfl
@[simp] theorem State.setVf_owned (s : State) (v : Nat) (x : VF) : (s.setVf v x).owned = s.owned := rfl
@[simp] theorem State.setVf_verified (s : State) (v : Nat) (x : VF) : (s.setVf v x).verified = s.verified := rfl
@[simp] theorem State.setVf_fused (s : State) (v : Nat) (x : VF) : (s.setVf v x).fused = s.fused := rfl
@[simp] theorem State.setVf_running (s : State) (v : Nat) (x : VF) : (s.setVf v x).running = s.running := rfl
@[simp] theorem State.setVf_cuts (s : State) (v : Nat) (x : VF) : (s.setVf v x).cuts = s.cuts := rfl
@[simp] theorem State.setVf_collections (s : State) (v : Nat) (x : VF) : (s.setVf v x).collections = s.collections := rfl
@[simp] theorem State.setVf_segments (s : State) (v : Nat) (x : VF) : (s.setVf v x).segments = s.segments := rfl
@[simp] theorem State.setVf_served (s : State) (v : Nat) (x : VF) : (s.setVf v x).served = s.served := rfl
@[simp] theorem State.setVf_switching (s : State) (v : Nat) (x : VF) : (s.setVf v x).switching = s.switching := rfl
@[simp] theorem State.setVf_colls (s : State) (v : Nat) (x : VF) : (s.setVf v x).colls = s.colls := rfl
@[simp] theorem State.setVf_contribs (s : State) (v : Nat) (x : VF) : (s.setVf v x).contribs = s.contribs := rfl
@[simp] theorem State.setVf_collAborts (s : State) (v : Nat) (x : VF) : (s.setVf v x).collAborts = s.collAborts := rfl
@[simp] theorem State.setVf_holds (s : State) (v : Nat) (x : VF) : (s.setVf v x).holds = s.holds := rfl
@[simp] theorem State.setVf_redslots (s : State) (v : Nat) (x : VF) : (s.setVf v x).redslots = s.redslots := rfl
@[simp] theorem State.setVf_rotors (s : State) (v : Nat) (x : VF) : (s.setVf v x).rotors = s.rotors := rfl
@[simp] theorem State.setVf_slotPtr (s : State) (v : Nat) (x : VF) : (s.setVf v x).slotPtr = s.slotPtr := rfl
@[simp] theorem State.setVf_slotReqs (s : State) (v : Nat) (x : VF) : (s.setVf v x).slotReqs = s.slotReqs := rfl
@[simp] theorem State.setVf_routes (s : State) (v : Nat) (x : VF) : (s.setVf v x).routes = s.routes := rfl
@[simp] theorem State.setVf_failedPorts (s : State) (v : Nat) (x : VF) : (s.setVf v x).failedPorts = s.failedPorts := rfl
@[simp] theorem State.setVf_shufs (s : State) (v : Nat) (x : VF) : (s.setVf v x).shufs = s.shufs := rfl
@[simp] theorem State.setVf_pairing (s : State) (v : Nat) (x : VF) : (s.setVf v x).pairing = s.pairing := rfl
@[simp] theorem State.setVf_decoding (s : State) (v : Nat) (x : VF) : (s.setVf v x).decoding = s.decoding := rfl
@[simp] theorem State.setVf_retries (s : State) (v : Nat) (x : VF) : (s.setVf v x).retries = s.retries := rfl
@[simp] theorem State.setVf_inbox (s : State) (v : Nat) (x : VF) : (s.setVf v x).inbox = s.inbox := rfl
@[simp] theorem State.setVf_outbox (s : State) (v : Nat) (x : VF) : (s.setVf v x).outbox = s.outbox := rfl
@[simp] theorem State.setVf_unconfirmed (s : State) (v : Nat) (x : VF) : (s.setVf v x).unconfirmed = s.unconfirmed := rfl
@[simp] theorem State.setVf_remoteReads (s : State) (v : Nat) (x : VF) : (s.setVf v x).remoteReads = s.remoteReads := rfl
@[simp] theorem State.setVf_remote (s : State) (v : Nat) (x : VF) : (s.setVf v x).remote = s.remote := rfl
@[simp] theorem State.setVf_far (s : State) (v : Nat) (x : VF) : (s.setVf v x).far = s.far := rfl
@[simp] theorem State.setVf_located (s : State) (v : Nat) (x : VF) : (s.setVf v x).located = s.located := rfl
@[simp] theorem State.setVf_moved (s : State) (v : Nat) (x : VF) : (s.setVf v x).moved = s.moved := rfl
@[simp] theorem State.setVf_arriving (s : State) (v : Nat) (x : VF) : (s.setVf v x).arriving = s.arriving := rfl
@[simp] theorem State.setVf_hostReplies (s : State) (v : Nat) (x : VF) : (s.setVf v x).hostReplies = s.hostReplies := rfl
@[simp] theorem State.setVf_messages (s : State) (v : Nat) (x : VF) : (s.setVf v x).messages = s.messages := rfl
@[simp] theorem State.setVf_hub (s : State) (v : Nat) (x : VF) : (s.setVf v x).hub = s.hub := rfl

/-! ### State.modVf -/

@[simp] theorem State.modVf_free (s : State) (v : Nat) (f : VF → VF) : (s.modVf v f).free = s.free := rfl
@[simp] theorem State.modVf_agenda (s : State) (v : Nat) (f : VF → VF) : (s.modVf v f).agenda = s.agenda := rfl
@[simp] theorem State.modVf_cur (s : State) (v : Nat) (f : VF → VF) : (s.modVf v f).cur = s.cur := rfl
@[simp] theorem State.modVf_issue (s : State) (v : Nat) (f : VF → VF) : (s.modVf v f).issue = s.issue := rfl
@[simp] theorem State.modVf_nextId (s : State) (v : Nat) (f : VF → VF) : (s.modVf v f).nextId = s.nextId := rfl
@[simp] theorem State.modVf_ctxs (s : State) (v : Nat) (f : VF → VF) : (s.modVf v f).ctxs = s.ctxs := rfl
@[simp] theorem State.modVf_cores (s : State) (v : Nat) (f : VF → VF) : (s.modVf v f).cores = s.cores := rfl
@[simp] theorem State.modVf_tlb2 (s : State) (v : Nat) (f : VF → VF) : (s.modVf v f).tlb2 = s.tlb2 := rfl
@[simp] theorem State.modVf_mem (s : State) (v : Nat) (f : VF → VF) : (s.modVf v f).mem = s.mem := rfl
@[simp] theorem State.modVf_cells (s : State) (v : Nat) (f : VF → VF) : (s.modVf v f).cells = s.cells := rfl
@[simp] theorem State.modVf_bad (s : State) (v : Nat) (f : VF → VF) : (s.modVf v f).bad = s.bad := rfl
@[simp] theorem State.modVf_flips (s : State) (v : Nat) (f : VF → VF) : (s.modVf v f).flips = s.flips := rfl
@[simp] theorem State.modVf_accs (s : State) (v : Nat) (f : VF → VF) : (s.modVf v f).accs = s.accs := rfl
@[simp] theorem State.modVf_withdrawn (s : State) (v : Nat) (f : VF → VF) : (s.modVf v f).withdrawn = s.withdrawn := rfl
@[simp] theorem State.modVf_watches (s : State) (v : Nat) (f : VF → VF) : (s.modVf v f).watches = s.watches := rfl
@[simp] theorem State.modVf_cmds (s : State) (v : Nat) (f : VF → VF) : (s.modVf v f).cmds = s.cmds := rfl
@[simp] theorem State.modVf_wins (s : State) (v : Nat) (f : VF → VF) : (s.modVf v f).wins = s.wins := rfl
@[simp] theorem State.modVf_groups (s : State) (v : Nat) (f : VF → VF) : (s.modVf v f).groups = s.groups := rfl
@[simp] theorem State.modVf_ranks (s : State) (v : Nat) (f : VF → VF) : (s.modVf v f).ranks = s.ranks := rfl
@[simp] theorem State.modVf_vfs (s : State) (v : Nat) (f : VF → VF) : (s.modVf v f).vfs = tabSet s.vfs v (f (s.vf v)) := rfl
@[simp] theorem State.modVf_launches (s : State) (v : Nat) (f : VF → VF) : (s.modVf v f).launches = s.launches := rfl
@[simp] theorem State.modVf_owned (s : State) (v : Nat) (f : VF → VF) : (s.modVf v f).owned = s.owned := rfl
@[simp] theorem State.modVf_verified (s : State) (v : Nat) (f : VF → VF) : (s.modVf v f).verified = s.verified := rfl
@[simp] theorem State.modVf_fused (s : State) (v : Nat) (f : VF → VF) : (s.modVf v f).fused = s.fused := rfl
@[simp] theorem State.modVf_running (s : State) (v : Nat) (f : VF → VF) : (s.modVf v f).running = s.running := rfl
@[simp] theorem State.modVf_cuts (s : State) (v : Nat) (f : VF → VF) : (s.modVf v f).cuts = s.cuts := rfl
@[simp] theorem State.modVf_collections (s : State) (v : Nat) (f : VF → VF) : (s.modVf v f).collections = s.collections := rfl
@[simp] theorem State.modVf_segments (s : State) (v : Nat) (f : VF → VF) : (s.modVf v f).segments = s.segments := rfl
@[simp] theorem State.modVf_served (s : State) (v : Nat) (f : VF → VF) : (s.modVf v f).served = s.served := rfl
@[simp] theorem State.modVf_switching (s : State) (v : Nat) (f : VF → VF) : (s.modVf v f).switching = s.switching := rfl
@[simp] theorem State.modVf_colls (s : State) (v : Nat) (f : VF → VF) : (s.modVf v f).colls = s.colls := rfl
@[simp] theorem State.modVf_contribs (s : State) (v : Nat) (f : VF → VF) : (s.modVf v f).contribs = s.contribs := rfl
@[simp] theorem State.modVf_collAborts (s : State) (v : Nat) (f : VF → VF) : (s.modVf v f).collAborts = s.collAborts := rfl
@[simp] theorem State.modVf_holds (s : State) (v : Nat) (f : VF → VF) : (s.modVf v f).holds = s.holds := rfl
@[simp] theorem State.modVf_redslots (s : State) (v : Nat) (f : VF → VF) : (s.modVf v f).redslots = s.redslots := rfl
@[simp] theorem State.modVf_rotors (s : State) (v : Nat) (f : VF → VF) : (s.modVf v f).rotors = s.rotors := rfl
@[simp] theorem State.modVf_slotPtr (s : State) (v : Nat) (f : VF → VF) : (s.modVf v f).slotPtr = s.slotPtr := rfl
@[simp] theorem State.modVf_slotReqs (s : State) (v : Nat) (f : VF → VF) : (s.modVf v f).slotReqs = s.slotReqs := rfl
@[simp] theorem State.modVf_routes (s : State) (v : Nat) (f : VF → VF) : (s.modVf v f).routes = s.routes := rfl
@[simp] theorem State.modVf_failedPorts (s : State) (v : Nat) (f : VF → VF) : (s.modVf v f).failedPorts = s.failedPorts := rfl
@[simp] theorem State.modVf_shufs (s : State) (v : Nat) (f : VF → VF) : (s.modVf v f).shufs = s.shufs := rfl
@[simp] theorem State.modVf_pairing (s : State) (v : Nat) (f : VF → VF) : (s.modVf v f).pairing = s.pairing := rfl
@[simp] theorem State.modVf_decoding (s : State) (v : Nat) (f : VF → VF) : (s.modVf v f).decoding = s.decoding := rfl
@[simp] theorem State.modVf_retries (s : State) (v : Nat) (f : VF → VF) : (s.modVf v f).retries = s.retries := rfl
@[simp] theorem State.modVf_inbox (s : State) (v : Nat) (f : VF → VF) : (s.modVf v f).inbox = s.inbox := rfl
@[simp] theorem State.modVf_outbox (s : State) (v : Nat) (f : VF → VF) : (s.modVf v f).outbox = s.outbox := rfl
@[simp] theorem State.modVf_unconfirmed (s : State) (v : Nat) (f : VF → VF) : (s.modVf v f).unconfirmed = s.unconfirmed := rfl
@[simp] theorem State.modVf_remoteReads (s : State) (v : Nat) (f : VF → VF) : (s.modVf v f).remoteReads = s.remoteReads := rfl
@[simp] theorem State.modVf_remote (s : State) (v : Nat) (f : VF → VF) : (s.modVf v f).remote = s.remote := rfl
@[simp] theorem State.modVf_far (s : State) (v : Nat) (f : VF → VF) : (s.modVf v f).far = s.far := rfl
@[simp] theorem State.modVf_located (s : State) (v : Nat) (f : VF → VF) : (s.modVf v f).located = s.located := rfl
@[simp] theorem State.modVf_moved (s : State) (v : Nat) (f : VF → VF) : (s.modVf v f).moved = s.moved := rfl
@[simp] theorem State.modVf_arriving (s : State) (v : Nat) (f : VF → VF) : (s.modVf v f).arriving = s.arriving := rfl
@[simp] theorem State.modVf_hostReplies (s : State) (v : Nat) (f : VF → VF) : (s.modVf v f).hostReplies = s.hostReplies := rfl
@[simp] theorem State.modVf_messages (s : State) (v : Nat) (f : VF → VF) : (s.modVf v f).messages = s.messages := rfl
@[simp] theorem State.modVf_hub (s : State) (v : Nat) (f : VF → VF) : (s.modVf v f).hub = s.hub := rfl

/-! ### State.modHub -/

@[simp] theorem State.modHub_free (s : State) (f : Hub → Hub) : (s.modHub f).free = s.free := rfl
@[simp] theorem State.modHub_agenda (s : State) (f : Hub → Hub) : (s.modHub f).agenda = s.agenda := rfl
@[simp] theorem State.modHub_cur (s : State) (f : Hub → Hub) : (s.modHub f).cur = s.cur := rfl
@[simp] theorem State.modHub_issue (s : State) (f : Hub → Hub) : (s.modHub f).issue = s.issue := rfl
@[simp] theorem State.modHub_nextId (s : State) (f : Hub → Hub) : (s.modHub f).nextId = s.nextId := rfl
@[simp] theorem State.modHub_ctxs (s : State) (f : Hub → Hub) : (s.modHub f).ctxs = s.ctxs := rfl
@[simp] theorem State.modHub_cores (s : State) (f : Hub → Hub) : (s.modHub f).cores = s.cores := rfl
@[simp] theorem State.modHub_tlb2 (s : State) (f : Hub → Hub) : (s.modHub f).tlb2 = s.tlb2 := rfl
@[simp] theorem State.modHub_mem (s : State) (f : Hub → Hub) : (s.modHub f).mem = s.mem := rfl
@[simp] theorem State.modHub_cells (s : State) (f : Hub → Hub) : (s.modHub f).cells = s.cells := rfl
@[simp] theorem State.modHub_bad (s : State) (f : Hub → Hub) : (s.modHub f).bad = s.bad := rfl
@[simp] theorem State.modHub_flips (s : State) (f : Hub → Hub) : (s.modHub f).flips = s.flips := rfl
@[simp] theorem State.modHub_accs (s : State) (f : Hub → Hub) : (s.modHub f).accs = s.accs := rfl
@[simp] theorem State.modHub_withdrawn (s : State) (f : Hub → Hub) : (s.modHub f).withdrawn = s.withdrawn := rfl
@[simp] theorem State.modHub_watches (s : State) (f : Hub → Hub) : (s.modHub f).watches = s.watches := rfl
@[simp] theorem State.modHub_cmds (s : State) (f : Hub → Hub) : (s.modHub f).cmds = s.cmds := rfl
@[simp] theorem State.modHub_wins (s : State) (f : Hub → Hub) : (s.modHub f).wins = s.wins := rfl
@[simp] theorem State.modHub_groups (s : State) (f : Hub → Hub) : (s.modHub f).groups = s.groups := rfl
@[simp] theorem State.modHub_ranks (s : State) (f : Hub → Hub) : (s.modHub f).ranks = s.ranks := rfl
@[simp] theorem State.modHub_vfs (s : State) (f : Hub → Hub) : (s.modHub f).vfs = s.vfs := rfl
@[simp] theorem State.modHub_launches (s : State) (f : Hub → Hub) : (s.modHub f).launches = s.launches := rfl
@[simp] theorem State.modHub_owned (s : State) (f : Hub → Hub) : (s.modHub f).owned = s.owned := rfl
@[simp] theorem State.modHub_verified (s : State) (f : Hub → Hub) : (s.modHub f).verified = s.verified := rfl
@[simp] theorem State.modHub_fused (s : State) (f : Hub → Hub) : (s.modHub f).fused = s.fused := rfl
@[simp] theorem State.modHub_running (s : State) (f : Hub → Hub) : (s.modHub f).running = s.running := rfl
@[simp] theorem State.modHub_cuts (s : State) (f : Hub → Hub) : (s.modHub f).cuts = s.cuts := rfl
@[simp] theorem State.modHub_collections (s : State) (f : Hub → Hub) : (s.modHub f).collections = s.collections := rfl
@[simp] theorem State.modHub_segments (s : State) (f : Hub → Hub) : (s.modHub f).segments = s.segments := rfl
@[simp] theorem State.modHub_served (s : State) (f : Hub → Hub) : (s.modHub f).served = s.served := rfl
@[simp] theorem State.modHub_switching (s : State) (f : Hub → Hub) : (s.modHub f).switching = s.switching := rfl
@[simp] theorem State.modHub_colls (s : State) (f : Hub → Hub) : (s.modHub f).colls = s.colls := rfl
@[simp] theorem State.modHub_contribs (s : State) (f : Hub → Hub) : (s.modHub f).contribs = s.contribs := rfl
@[simp] theorem State.modHub_collAborts (s : State) (f : Hub → Hub) : (s.modHub f).collAborts = s.collAborts := rfl
@[simp] theorem State.modHub_holds (s : State) (f : Hub → Hub) : (s.modHub f).holds = s.holds := rfl
@[simp] theorem State.modHub_redslots (s : State) (f : Hub → Hub) : (s.modHub f).redslots = s.redslots := rfl
@[simp] theorem State.modHub_rotors (s : State) (f : Hub → Hub) : (s.modHub f).rotors = s.rotors := rfl
@[simp] theorem State.modHub_slotPtr (s : State) (f : Hub → Hub) : (s.modHub f).slotPtr = s.slotPtr := rfl
@[simp] theorem State.modHub_slotReqs (s : State) (f : Hub → Hub) : (s.modHub f).slotReqs = s.slotReqs := rfl
@[simp] theorem State.modHub_routes (s : State) (f : Hub → Hub) : (s.modHub f).routes = s.routes := rfl
@[simp] theorem State.modHub_failedPorts (s : State) (f : Hub → Hub) : (s.modHub f).failedPorts = s.failedPorts := rfl
@[simp] theorem State.modHub_shufs (s : State) (f : Hub → Hub) : (s.modHub f).shufs = s.shufs := rfl
@[simp] theorem State.modHub_pairing (s : State) (f : Hub → Hub) : (s.modHub f).pairing = s.pairing := rfl
@[simp] theorem State.modHub_decoding (s : State) (f : Hub → Hub) : (s.modHub f).decoding = s.decoding := rfl
@[simp] theorem State.modHub_retries (s : State) (f : Hub → Hub) : (s.modHub f).retries = s.retries := rfl
@[simp] theorem State.modHub_inbox (s : State) (f : Hub → Hub) : (s.modHub f).inbox = s.inbox := rfl
@[simp] theorem State.modHub_outbox (s : State) (f : Hub → Hub) : (s.modHub f).outbox = s.outbox := rfl
@[simp] theorem State.modHub_unconfirmed (s : State) (f : Hub → Hub) : (s.modHub f).unconfirmed = s.unconfirmed := rfl
@[simp] theorem State.modHub_remoteReads (s : State) (f : Hub → Hub) : (s.modHub f).remoteReads = s.remoteReads := rfl
@[simp] theorem State.modHub_remote (s : State) (f : Hub → Hub) : (s.modHub f).remote = s.remote := rfl
@[simp] theorem State.modHub_far (s : State) (f : Hub → Hub) : (s.modHub f).far = s.far := rfl
@[simp] theorem State.modHub_located (s : State) (f : Hub → Hub) : (s.modHub f).located = s.located := rfl
@[simp] theorem State.modHub_moved (s : State) (f : Hub → Hub) : (s.modHub f).moved = s.moved := rfl
@[simp] theorem State.modHub_arriving (s : State) (f : Hub → Hub) : (s.modHub f).arriving = s.arriving := rfl
@[simp] theorem State.modHub_hostReplies (s : State) (f : Hub → Hub) : (s.modHub f).hostReplies = s.hostReplies := rfl
@[simp] theorem State.modHub_messages (s : State) (f : Hub → Hub) : (s.modHub f).messages = s.messages := rfl
@[simp] theorem State.modHub_hub (s : State) (f : Hub → Hub) : (s.modHub f).hub = f s.hub := rfl

/-! ### State.draw -/

@[simp] theorem State.draw_free (s : State) : s.draw.2.free = s.free + 1 := rfl
@[simp] theorem State.draw_agenda (s : State) : s.draw.2.agenda = s.agenda := rfl
@[simp] theorem State.draw_cur (s : State) : s.draw.2.cur = s.cur := rfl
@[simp] theorem State.draw_issue (s : State) : s.draw.2.issue = s.issue := rfl
@[simp] theorem State.draw_nextId (s : State) : s.draw.2.nextId = s.nextId := rfl
@[simp] theorem State.draw_ctxs (s : State) : s.draw.2.ctxs = s.ctxs := rfl
@[simp] theorem State.draw_cores (s : State) : s.draw.2.cores = s.cores := rfl
@[simp] theorem State.draw_tlb2 (s : State) : s.draw.2.tlb2 = s.tlb2 := rfl
@[simp] theorem State.draw_mem (s : State) : s.draw.2.mem = s.mem := rfl
@[simp] theorem State.draw_cells (s : State) : s.draw.2.cells = s.cells := rfl
@[simp] theorem State.draw_bad (s : State) : s.draw.2.bad = s.bad := rfl
@[simp] theorem State.draw_flips (s : State) : s.draw.2.flips = s.flips := rfl
@[simp] theorem State.draw_accs (s : State) : s.draw.2.accs = s.accs := rfl
@[simp] theorem State.draw_withdrawn (s : State) : s.draw.2.withdrawn = s.withdrawn := rfl
@[simp] theorem State.draw_watches (s : State) : s.draw.2.watches = s.watches := rfl
@[simp] theorem State.draw_cmds (s : State) : s.draw.2.cmds = s.cmds := rfl
@[simp] theorem State.draw_wins (s : State) : s.draw.2.wins = s.wins := rfl
@[simp] theorem State.draw_groups (s : State) : s.draw.2.groups = s.groups := rfl
@[simp] theorem State.draw_ranks (s : State) : s.draw.2.ranks = s.ranks := rfl
@[simp] theorem State.draw_vfs (s : State) : s.draw.2.vfs = s.vfs := rfl
@[simp] theorem State.draw_launches (s : State) : s.draw.2.launches = s.launches := rfl
@[simp] theorem State.draw_owned (s : State) : s.draw.2.owned = s.owned := rfl
@[simp] theorem State.draw_verified (s : State) : s.draw.2.verified = s.verified := rfl
@[simp] theorem State.draw_fused (s : State) : s.draw.2.fused = s.fused := rfl
@[simp] theorem State.draw_running (s : State) : s.draw.2.running = s.running := rfl
@[simp] theorem State.draw_cuts (s : State) : s.draw.2.cuts = s.cuts := rfl
@[simp] theorem State.draw_collections (s : State) : s.draw.2.collections = s.collections := rfl
@[simp] theorem State.draw_segments (s : State) : s.draw.2.segments = s.segments := rfl
@[simp] theorem State.draw_served (s : State) : s.draw.2.served = s.served := rfl
@[simp] theorem State.draw_switching (s : State) : s.draw.2.switching = s.switching := rfl
@[simp] theorem State.draw_colls (s : State) : s.draw.2.colls = s.colls := rfl
@[simp] theorem State.draw_contribs (s : State) : s.draw.2.contribs = s.contribs := rfl
@[simp] theorem State.draw_collAborts (s : State) : s.draw.2.collAborts = s.collAborts := rfl
@[simp] theorem State.draw_holds (s : State) : s.draw.2.holds = s.holds := rfl
@[simp] theorem State.draw_redslots (s : State) : s.draw.2.redslots = s.redslots := rfl
@[simp] theorem State.draw_rotors (s : State) : s.draw.2.rotors = s.rotors := rfl
@[simp] theorem State.draw_slotPtr (s : State) : s.draw.2.slotPtr = s.slotPtr := rfl
@[simp] theorem State.draw_slotReqs (s : State) : s.draw.2.slotReqs = s.slotReqs := rfl
@[simp] theorem State.draw_routes (s : State) : s.draw.2.routes = s.routes := rfl
@[simp] theorem State.draw_failedPorts (s : State) : s.draw.2.failedPorts = s.failedPorts := rfl
@[simp] theorem State.draw_shufs (s : State) : s.draw.2.shufs = s.shufs := rfl
@[simp] theorem State.draw_pairing (s : State) : s.draw.2.pairing = s.pairing := rfl
@[simp] theorem State.draw_decoding (s : State) : s.draw.2.decoding = s.decoding := rfl
@[simp] theorem State.draw_retries (s : State) : s.draw.2.retries = s.retries := rfl
@[simp] theorem State.draw_inbox (s : State) : s.draw.2.inbox = s.inbox := rfl
@[simp] theorem State.draw_outbox (s : State) : s.draw.2.outbox = s.outbox := rfl
@[simp] theorem State.draw_unconfirmed (s : State) : s.draw.2.unconfirmed = s.unconfirmed := rfl
@[simp] theorem State.draw_remoteReads (s : State) : s.draw.2.remoteReads = s.remoteReads := rfl
@[simp] theorem State.draw_remote (s : State) : s.draw.2.remote = s.remote := rfl
@[simp] theorem State.draw_far (s : State) : s.draw.2.far = s.far := rfl
@[simp] theorem State.draw_located (s : State) : s.draw.2.located = s.located := rfl
@[simp] theorem State.draw_moved (s : State) : s.draw.2.moved = s.moved := rfl
@[simp] theorem State.draw_arriving (s : State) : s.draw.2.arriving = s.arriving := rfl
@[simp] theorem State.draw_hostReplies (s : State) : s.draw.2.hostReplies = s.hostReplies := rfl
@[simp] theorem State.draw_messages (s : State) : s.draw.2.messages = s.messages := rfl
@[simp] theorem State.draw_hub (s : State) : s.draw.2.hub = s.hub := rfl

/-! ### State.takeId -/

@[simp] theorem State.takeId_free (s : State) : s.takeId.2.free = s.free := rfl
@[simp] theorem State.takeId_agenda (s : State) : s.takeId.2.agenda = s.agenda := rfl
@[simp] theorem State.takeId_cur (s : State) : s.takeId.2.cur = s.cur := rfl
@[simp] theorem State.takeId_issue (s : State) : s.takeId.2.issue = s.issue := rfl
@[simp] theorem State.takeId_nextId (s : State) : s.takeId.2.nextId = s.nextId + 1 := rfl
@[simp] theorem State.takeId_ctxs (s : State) : s.takeId.2.ctxs = s.ctxs := rfl
@[simp] theorem State.takeId_cores (s : State) : s.takeId.2.cores = s.cores := rfl
@[simp] theorem State.takeId_tlb2 (s : State) : s.takeId.2.tlb2 = s.tlb2 := rfl
@[simp] theorem State.takeId_mem (s : State) : s.takeId.2.mem = s.mem := rfl
@[simp] theorem State.takeId_cells (s : State) : s.takeId.2.cells = s.cells := rfl
@[simp] theorem State.takeId_bad (s : State) : s.takeId.2.bad = s.bad := rfl
@[simp] theorem State.takeId_flips (s : State) : s.takeId.2.flips = s.flips := rfl
@[simp] theorem State.takeId_accs (s : State) : s.takeId.2.accs = s.accs := rfl
@[simp] theorem State.takeId_withdrawn (s : State) : s.takeId.2.withdrawn = s.withdrawn := rfl
@[simp] theorem State.takeId_watches (s : State) : s.takeId.2.watches = s.watches := rfl
@[simp] theorem State.takeId_cmds (s : State) : s.takeId.2.cmds = s.cmds := rfl
@[simp] theorem State.takeId_wins (s : State) : s.takeId.2.wins = s.wins := rfl
@[simp] theorem State.takeId_groups (s : State) : s.takeId.2.groups = s.groups := rfl
@[simp] theorem State.takeId_ranks (s : State) : s.takeId.2.ranks = s.ranks := rfl
@[simp] theorem State.takeId_vfs (s : State) : s.takeId.2.vfs = s.vfs := rfl
@[simp] theorem State.takeId_launches (s : State) : s.takeId.2.launches = s.launches := rfl
@[simp] theorem State.takeId_owned (s : State) : s.takeId.2.owned = s.owned := rfl
@[simp] theorem State.takeId_verified (s : State) : s.takeId.2.verified = s.verified := rfl
@[simp] theorem State.takeId_fused (s : State) : s.takeId.2.fused = s.fused := rfl
@[simp] theorem State.takeId_running (s : State) : s.takeId.2.running = s.running := rfl
@[simp] theorem State.takeId_cuts (s : State) : s.takeId.2.cuts = s.cuts := rfl
@[simp] theorem State.takeId_collections (s : State) : s.takeId.2.collections = s.collections := rfl
@[simp] theorem State.takeId_segments (s : State) : s.takeId.2.segments = s.segments := rfl
@[simp] theorem State.takeId_served (s : State) : s.takeId.2.served = s.served := rfl
@[simp] theorem State.takeId_switching (s : State) : s.takeId.2.switching = s.switching := rfl
@[simp] theorem State.takeId_colls (s : State) : s.takeId.2.colls = s.colls := rfl
@[simp] theorem State.takeId_contribs (s : State) : s.takeId.2.contribs = s.contribs := rfl
@[simp] theorem State.takeId_collAborts (s : State) : s.takeId.2.collAborts = s.collAborts := rfl
@[simp] theorem State.takeId_holds (s : State) : s.takeId.2.holds = s.holds := rfl
@[simp] theorem State.takeId_redslots (s : State) : s.takeId.2.redslots = s.redslots := rfl
@[simp] theorem State.takeId_rotors (s : State) : s.takeId.2.rotors = s.rotors := rfl
@[simp] theorem State.takeId_slotPtr (s : State) : s.takeId.2.slotPtr = s.slotPtr := rfl
@[simp] theorem State.takeId_slotReqs (s : State) : s.takeId.2.slotReqs = s.slotReqs := rfl
@[simp] theorem State.takeId_routes (s : State) : s.takeId.2.routes = s.routes := rfl
@[simp] theorem State.takeId_failedPorts (s : State) : s.takeId.2.failedPorts = s.failedPorts := rfl
@[simp] theorem State.takeId_shufs (s : State) : s.takeId.2.shufs = s.shufs := rfl
@[simp] theorem State.takeId_pairing (s : State) : s.takeId.2.pairing = s.pairing := rfl
@[simp] theorem State.takeId_decoding (s : State) : s.takeId.2.decoding = s.decoding := rfl
@[simp] theorem State.takeId_retries (s : State) : s.takeId.2.retries = s.retries := rfl
@[simp] theorem State.takeId_inbox (s : State) : s.takeId.2.inbox = s.inbox := rfl
@[simp] theorem State.takeId_outbox (s : State) : s.takeId.2.outbox = s.outbox := rfl
@[simp] theorem State.takeId_unconfirmed (s : State) : s.takeId.2.unconfirmed = s.unconfirmed := rfl
@[simp] theorem State.takeId_remoteReads (s : State) : s.takeId.2.remoteReads = s.remoteReads := rfl
@[simp] theorem State.takeId_remote (s : State) : s.takeId.2.remote = s.remote := rfl
@[simp] theorem State.takeId_far (s : State) : s.takeId.2.far = s.far := rfl
@[simp] theorem State.takeId_located (s : State) : s.takeId.2.located = s.located := rfl
@[simp] theorem State.takeId_moved (s : State) : s.takeId.2.moved = s.moved := rfl
@[simp] theorem State.takeId_arriving (s : State) : s.takeId.2.arriving = s.arriving := rfl
@[simp] theorem State.takeId_hostReplies (s : State) : s.takeId.2.hostReplies = s.hostReplies := rfl
@[simp] theorem State.takeId_messages (s : State) : s.takeId.2.messages = s.messages := rfl
@[simp] theorem State.takeId_hub (s : State) : s.takeId.2.hub = s.hub := rfl

/-! ### State.takeTrap -/

@[simp] theorem State.takeTrap_free (s : State) (q : Cause) (a : W64) (m r n : Nat) (t : FwTask) : (s.takeTrap q a m r n t).free = s.free := rfl
@[simp] theorem State.takeTrap_agenda (s : State) (q : Cause) (a : W64) (m r n : Nat) (t : FwTask) : (s.takeTrap q a m r n t).agenda = s.agenda := rfl
@[simp] theorem State.takeTrap_cur (s : State) (q : Cause) (a : W64) (m r n : Nat) (t : FwTask) : (s.takeTrap q a m r n t).cur = s.cur := rfl
@[simp] theorem State.takeTrap_issue (s : State) (q : Cause) (a : W64) (m r n : Nat) (t : FwTask) : (s.takeTrap q a m r n t).issue = { s.issue with trapped := true } := rfl
@[simp] theorem State.takeTrap_nextId (s : State) (q : Cause) (a : W64) (m r n : Nat) (t : FwTask) : (s.takeTrap q a m r n t).nextId = s.nextId := rfl
@[simp] theorem State.takeTrap_ctxs (s : State) (q : Cause) (a : W64) (m r n : Nat) (t : FwTask) : (s.takeTrap q a m r n t).ctxs = tabSet s.ctxs s.cur (s.cx.trapped q a m r n t) := rfl
@[simp] theorem State.takeTrap_cores (s : State) (q : Cause) (a : W64) (m r n : Nat) (t : FwTask) : (s.takeTrap q a m r n t).cores = s.cores := rfl
@[simp] theorem State.takeTrap_tlb2 (s : State) (q : Cause) (a : W64) (m r n : Nat) (t : FwTask) : (s.takeTrap q a m r n t).tlb2 = s.tlb2 := rfl
@[simp] theorem State.takeTrap_mem (s : State) (q : Cause) (a : W64) (m r n : Nat) (t : FwTask) : (s.takeTrap q a m r n t).mem = s.mem := rfl
@[simp] theorem State.takeTrap_cells (s : State) (q : Cause) (a : W64) (m r n : Nat) (t : FwTask) : (s.takeTrap q a m r n t).cells = s.cells := rfl
@[simp] theorem State.takeTrap_bad (s : State) (q : Cause) (a : W64) (m r n : Nat) (t : FwTask) : (s.takeTrap q a m r n t).bad = s.bad := rfl
@[simp] theorem State.takeTrap_flips (s : State) (q : Cause) (a : W64) (m r n : Nat) (t : FwTask) : (s.takeTrap q a m r n t).flips = s.flips := rfl
@[simp] theorem State.takeTrap_accs (s : State) (q : Cause) (a : W64) (m r n : Nat) (t : FwTask) : (s.takeTrap q a m r n t).accs = s.accs := rfl
@[simp] theorem State.takeTrap_withdrawn (s : State) (q : Cause) (a : W64) (m r n : Nat) (t : FwTask) : (s.takeTrap q a m r n t).withdrawn = s.withdrawn := rfl
@[simp] theorem State.takeTrap_watches (s : State) (q : Cause) (a : W64) (m r n : Nat) (t : FwTask) : (s.takeTrap q a m r n t).watches = s.watches := rfl
@[simp] theorem State.takeTrap_cmds (s : State) (q : Cause) (a : W64) (m r n : Nat) (t : FwTask) : (s.takeTrap q a m r n t).cmds = s.cmds := rfl
@[simp] theorem State.takeTrap_wins (s : State) (q : Cause) (a : W64) (m r n : Nat) (t : FwTask) : (s.takeTrap q a m r n t).wins = s.wins := rfl
@[simp] theorem State.takeTrap_groups (s : State) (q : Cause) (a : W64) (m r n : Nat) (t : FwTask) : (s.takeTrap q a m r n t).groups = s.groups := rfl
@[simp] theorem State.takeTrap_ranks (s : State) (q : Cause) (a : W64) (m r n : Nat) (t : FwTask) : (s.takeTrap q a m r n t).ranks = s.ranks := rfl
@[simp] theorem State.takeTrap_vfs (s : State) (q : Cause) (a : W64) (m r n : Nat) (t : FwTask) : (s.takeTrap q a m r n t).vfs = s.vfs := rfl
@[simp] theorem State.takeTrap_launches (s : State) (q : Cause) (a : W64) (m r n : Nat) (t : FwTask) : (s.takeTrap q a m r n t).launches = s.launches := rfl
@[simp] theorem State.takeTrap_owned (s : State) (q : Cause) (a : W64) (m r n : Nat) (t : FwTask) : (s.takeTrap q a m r n t).owned = s.owned := rfl
@[simp] theorem State.takeTrap_verified (s : State) (q : Cause) (a : W64) (m r n : Nat) (t : FwTask) : (s.takeTrap q a m r n t).verified = s.verified := rfl
@[simp] theorem State.takeTrap_fused (s : State) (q : Cause) (a : W64) (m r n : Nat) (t : FwTask) : (s.takeTrap q a m r n t).fused = s.fused := rfl
@[simp] theorem State.takeTrap_running (s : State) (q : Cause) (a : W64) (m r n : Nat) (t : FwTask) : (s.takeTrap q a m r n t).running = s.running := rfl
@[simp] theorem State.takeTrap_cuts (s : State) (q : Cause) (a : W64) (m r n : Nat) (t : FwTask) : (s.takeTrap q a m r n t).cuts = s.cuts := rfl
@[simp] theorem State.takeTrap_collections (s : State) (q : Cause) (a : W64) (m r n : Nat) (t : FwTask) : (s.takeTrap q a m r n t).collections = s.collections := rfl
@[simp] theorem State.takeTrap_segments (s : State) (q : Cause) (a : W64) (m r n : Nat) (t : FwTask) : (s.takeTrap q a m r n t).segments = s.segments := rfl
@[simp] theorem State.takeTrap_served (s : State) (q : Cause) (a : W64) (m r n : Nat) (t : FwTask) : (s.takeTrap q a m r n t).served = s.served := rfl
@[simp] theorem State.takeTrap_switching (s : State) (q : Cause) (a : W64) (m r n : Nat) (t : FwTask) : (s.takeTrap q a m r n t).switching = s.switching := rfl
@[simp] theorem State.takeTrap_colls (s : State) (q : Cause) (a : W64) (m r n : Nat) (t : FwTask) : (s.takeTrap q a m r n t).colls = s.colls := rfl
@[simp] theorem State.takeTrap_contribs (s : State) (q : Cause) (a : W64) (m r n : Nat) (t : FwTask) : (s.takeTrap q a m r n t).contribs = s.contribs := rfl
@[simp] theorem State.takeTrap_collAborts (s : State) (q : Cause) (a : W64) (m r n : Nat) (t : FwTask) : (s.takeTrap q a m r n t).collAborts = s.collAborts := rfl
@[simp] theorem State.takeTrap_holds (s : State) (q : Cause) (a : W64) (m r n : Nat) (t : FwTask) : (s.takeTrap q a m r n t).holds = s.holds := rfl
@[simp] theorem State.takeTrap_redslots (s : State) (q : Cause) (a : W64) (m r n : Nat) (t : FwTask) : (s.takeTrap q a m r n t).redslots = s.redslots := rfl
@[simp] theorem State.takeTrap_rotors (s : State) (q : Cause) (a : W64) (m r n : Nat) (t : FwTask) : (s.takeTrap q a m r n t).rotors = s.rotors := rfl
@[simp] theorem State.takeTrap_slotPtr (s : State) (q : Cause) (a : W64) (m r n : Nat) (t : FwTask) : (s.takeTrap q a m r n t).slotPtr = s.slotPtr := rfl
@[simp] theorem State.takeTrap_slotReqs (s : State) (q : Cause) (a : W64) (m r n : Nat) (t : FwTask) : (s.takeTrap q a m r n t).slotReqs = s.slotReqs := rfl
@[simp] theorem State.takeTrap_routes (s : State) (q : Cause) (a : W64) (m r n : Nat) (t : FwTask) : (s.takeTrap q a m r n t).routes = s.routes := rfl
@[simp] theorem State.takeTrap_failedPorts (s : State) (q : Cause) (a : W64) (m r n : Nat) (t : FwTask) : (s.takeTrap q a m r n t).failedPorts = s.failedPorts := rfl
@[simp] theorem State.takeTrap_shufs (s : State) (q : Cause) (a : W64) (m r n : Nat) (t : FwTask) : (s.takeTrap q a m r n t).shufs = s.shufs := rfl
@[simp] theorem State.takeTrap_pairing (s : State) (q : Cause) (a : W64) (m r n : Nat) (t : FwTask) : (s.takeTrap q a m r n t).pairing = s.pairing := rfl
@[simp] theorem State.takeTrap_decoding (s : State) (q : Cause) (a : W64) (m r n : Nat) (t : FwTask) : (s.takeTrap q a m r n t).decoding = s.decoding := rfl
@[simp] theorem State.takeTrap_retries (s : State) (q : Cause) (a : W64) (m r n : Nat) (t : FwTask) : (s.takeTrap q a m r n t).retries = s.retries := rfl
@[simp] theorem State.takeTrap_inbox (s : State) (q : Cause) (a : W64) (m r n : Nat) (t : FwTask) : (s.takeTrap q a m r n t).inbox = s.inbox := rfl
@[simp] theorem State.takeTrap_outbox (s : State) (q : Cause) (a : W64) (m r n : Nat) (t : FwTask) : (s.takeTrap q a m r n t).outbox = s.outbox := rfl
@[simp] theorem State.takeTrap_unconfirmed (s : State) (q : Cause) (a : W64) (m r n : Nat) (t : FwTask) : (s.takeTrap q a m r n t).unconfirmed = s.unconfirmed := rfl
@[simp] theorem State.takeTrap_remoteReads (s : State) (q : Cause) (a : W64) (m r n : Nat) (t : FwTask) : (s.takeTrap q a m r n t).remoteReads = s.remoteReads := rfl
@[simp] theorem State.takeTrap_remote (s : State) (q : Cause) (a : W64) (m r n : Nat) (t : FwTask) : (s.takeTrap q a m r n t).remote = s.remote := rfl
@[simp] theorem State.takeTrap_far (s : State) (q : Cause) (a : W64) (m r n : Nat) (t : FwTask) : (s.takeTrap q a m r n t).far = s.far := rfl
@[simp] theorem State.takeTrap_located (s : State) (q : Cause) (a : W64) (m r n : Nat) (t : FwTask) : (s.takeTrap q a m r n t).located = s.located := rfl
@[simp] theorem State.takeTrap_moved (s : State) (q : Cause) (a : W64) (m r n : Nat) (t : FwTask) : (s.takeTrap q a m r n t).moved = s.moved := rfl
@[simp] theorem State.takeTrap_arriving (s : State) (q : Cause) (a : W64) (m r n : Nat) (t : FwTask) : (s.takeTrap q a m r n t).arriving = s.arriving := rfl
@[simp] theorem State.takeTrap_hostReplies (s : State) (q : Cause) (a : W64) (m r n : Nat) (t : FwTask) : (s.takeTrap q a m r n t).hostReplies = s.hostReplies := rfl
@[simp] theorem State.takeTrap_messages (s : State) (q : Cause) (a : W64) (m r n : Nat) (t : FwTask) : (s.takeTrap q a m r n t).messages = s.messages := rfl
@[simp] theorem State.takeTrap_hub (s : State) (q : Cause) (a : W64) (m r n : Nat) (t : FwTask) : (s.takeTrap q a m r n t).hub = s.hub := rfl

/-! ### State.slotTrap -/

@[simp] theorem State.slotTrap_free (s : State) (q : Cause) (a : W64) (t : FwTask) : (s.slotTrap q a t).free = s.free := rfl
@[simp] theorem State.slotTrap_agenda (s : State) (q : Cause) (a : W64) (t : FwTask) : (s.slotTrap q a t).agenda = s.agenda := rfl
@[simp] theorem State.slotTrap_cur (s : State) (q : Cause) (a : W64) (t : FwTask) : (s.slotTrap q a t).cur = s.cur := rfl
@[simp] theorem State.slotTrap_issue (s : State) (q : Cause) (a : W64) (t : FwTask) : (s.slotTrap q a t).issue = { s.issue with trapped := true } := rfl
@[simp] theorem State.slotTrap_nextId (s : State) (q : Cause) (a : W64) (t : FwTask) : (s.slotTrap q a t).nextId = s.nextId := rfl
@[simp] theorem State.slotTrap_ctxs (s : State) (q : Cause) (a : W64) (t : FwTask) : (s.slotTrap q a t).ctxs = tabSet s.ctxs s.cur (s.cx.trapped q a 0 s.cx.rpos s.issue.slot t) := rfl
@[simp] theorem State.slotTrap_cores (s : State) (q : Cause) (a : W64) (t : FwTask) : (s.slotTrap q a t).cores = s.cores := rfl
@[simp] theorem State.slotTrap_tlb2 (s : State) (q : Cause) (a : W64) (t : FwTask) : (s.slotTrap q a t).tlb2 = s.tlb2 := rfl
@[simp] theorem State.slotTrap_mem (s : State) (q : Cause) (a : W64) (t : FwTask) : (s.slotTrap q a t).mem = s.mem := rfl
@[simp] theorem State.slotTrap_cells (s : State) (q : Cause) (a : W64) (t : FwTask) : (s.slotTrap q a t).cells = s.cells := rfl
@[simp] theorem State.slotTrap_bad (s : State) (q : Cause) (a : W64) (t : FwTask) : (s.slotTrap q a t).bad = s.bad := rfl
@[simp] theorem State.slotTrap_flips (s : State) (q : Cause) (a : W64) (t : FwTask) : (s.slotTrap q a t).flips = s.flips := rfl
@[simp] theorem State.slotTrap_accs (s : State) (q : Cause) (a : W64) (t : FwTask) : (s.slotTrap q a t).accs = s.accs := rfl
@[simp] theorem State.slotTrap_withdrawn (s : State) (q : Cause) (a : W64) (t : FwTask) : (s.slotTrap q a t).withdrawn = s.withdrawn := rfl
@[simp] theorem State.slotTrap_watches (s : State) (q : Cause) (a : W64) (t : FwTask) : (s.slotTrap q a t).watches = s.watches := rfl
@[simp] theorem State.slotTrap_cmds (s : State) (q : Cause) (a : W64) (t : FwTask) : (s.slotTrap q a t).cmds = s.cmds := rfl
@[simp] theorem State.slotTrap_wins (s : State) (q : Cause) (a : W64) (t : FwTask) : (s.slotTrap q a t).wins = s.wins := rfl
@[simp] theorem State.slotTrap_groups (s : State) (q : Cause) (a : W64) (t : FwTask) : (s.slotTrap q a t).groups = s.groups := rfl
@[simp] theorem State.slotTrap_ranks (s : State) (q : Cause) (a : W64) (t : FwTask) : (s.slotTrap q a t).ranks = s.ranks := rfl
@[simp] theorem State.slotTrap_vfs (s : State) (q : Cause) (a : W64) (t : FwTask) : (s.slotTrap q a t).vfs = s.vfs := rfl
@[simp] theorem State.slotTrap_launches (s : State) (q : Cause) (a : W64) (t : FwTask) : (s.slotTrap q a t).launches = s.launches := rfl
@[simp] theorem State.slotTrap_owned (s : State) (q : Cause) (a : W64) (t : FwTask) : (s.slotTrap q a t).owned = s.owned := rfl
@[simp] theorem State.slotTrap_verified (s : State) (q : Cause) (a : W64) (t : FwTask) : (s.slotTrap q a t).verified = s.verified := rfl
@[simp] theorem State.slotTrap_fused (s : State) (q : Cause) (a : W64) (t : FwTask) : (s.slotTrap q a t).fused = s.fused := rfl
@[simp] theorem State.slotTrap_running (s : State) (q : Cause) (a : W64) (t : FwTask) : (s.slotTrap q a t).running = s.running := rfl
@[simp] theorem State.slotTrap_cuts (s : State) (q : Cause) (a : W64) (t : FwTask) : (s.slotTrap q a t).cuts = s.cuts := rfl
@[simp] theorem State.slotTrap_collections (s : State) (q : Cause) (a : W64) (t : FwTask) : (s.slotTrap q a t).collections = s.collections := rfl
@[simp] theorem State.slotTrap_segments (s : State) (q : Cause) (a : W64) (t : FwTask) : (s.slotTrap q a t).segments = s.segments := rfl
@[simp] theorem State.slotTrap_served (s : State) (q : Cause) (a : W64) (t : FwTask) : (s.slotTrap q a t).served = s.served := rfl
@[simp] theorem State.slotTrap_switching (s : State) (q : Cause) (a : W64) (t : FwTask) : (s.slotTrap q a t).switching = s.switching := rfl
@[simp] theorem State.slotTrap_colls (s : State) (q : Cause) (a : W64) (t : FwTask) : (s.slotTrap q a t).colls = s.colls := rfl
@[simp] theorem State.slotTrap_contribs (s : State) (q : Cause) (a : W64) (t : FwTask) : (s.slotTrap q a t).contribs = s.contribs := rfl
@[simp] theorem State.slotTrap_collAborts (s : State) (q : Cause) (a : W64) (t : FwTask) : (s.slotTrap q a t).collAborts = s.collAborts := rfl
@[simp] theorem State.slotTrap_holds (s : State) (q : Cause) (a : W64) (t : FwTask) : (s.slotTrap q a t).holds = s.holds := rfl
@[simp] theorem State.slotTrap_redslots (s : State) (q : Cause) (a : W64) (t : FwTask) : (s.slotTrap q a t).redslots = s.redslots := rfl
@[simp] theorem State.slotTrap_rotors (s : State) (q : Cause) (a : W64) (t : FwTask) : (s.slotTrap q a t).rotors = s.rotors := rfl
@[simp] theorem State.slotTrap_slotPtr (s : State) (q : Cause) (a : W64) (t : FwTask) : (s.slotTrap q a t).slotPtr = s.slotPtr := rfl
@[simp] theorem State.slotTrap_slotReqs (s : State) (q : Cause) (a : W64) (t : FwTask) : (s.slotTrap q a t).slotReqs = s.slotReqs := rfl
@[simp] theorem State.slotTrap_routes (s : State) (q : Cause) (a : W64) (t : FwTask) : (s.slotTrap q a t).routes = s.routes := rfl
@[simp] theorem State.slotTrap_failedPorts (s : State) (q : Cause) (a : W64) (t : FwTask) : (s.slotTrap q a t).failedPorts = s.failedPorts := rfl
@[simp] theorem State.slotTrap_shufs (s : State) (q : Cause) (a : W64) (t : FwTask) : (s.slotTrap q a t).shufs = s.shufs := rfl
@[simp] theorem State.slotTrap_pairing (s : State) (q : Cause) (a : W64) (t : FwTask) : (s.slotTrap q a t).pairing = s.pairing := rfl
@[simp] theorem State.slotTrap_decoding (s : State) (q : Cause) (a : W64) (t : FwTask) : (s.slotTrap q a t).decoding = s.decoding := rfl
@[simp] theorem State.slotTrap_retries (s : State) (q : Cause) (a : W64) (t : FwTask) : (s.slotTrap q a t).retries = s.retries := rfl
@[simp] theorem State.slotTrap_inbox (s : State) (q : Cause) (a : W64) (t : FwTask) : (s.slotTrap q a t).inbox = s.inbox := rfl
@[simp] theorem State.slotTrap_outbox (s : State) (q : Cause) (a : W64) (t : FwTask) : (s.slotTrap q a t).outbox = s.outbox := rfl
@[simp] theorem State.slotTrap_unconfirmed (s : State) (q : Cause) (a : W64) (t : FwTask) : (s.slotTrap q a t).unconfirmed = s.unconfirmed := rfl
@[simp] theorem State.slotTrap_remoteReads (s : State) (q : Cause) (a : W64) (t : FwTask) : (s.slotTrap q a t).remoteReads = s.remoteReads := rfl
@[simp] theorem State.slotTrap_remote (s : State) (q : Cause) (a : W64) (t : FwTask) : (s.slotTrap q a t).remote = s.remote := rfl
@[simp] theorem State.slotTrap_far (s : State) (q : Cause) (a : W64) (t : FwTask) : (s.slotTrap q a t).far = s.far := rfl
@[simp] theorem State.slotTrap_located (s : State) (q : Cause) (a : W64) (t : FwTask) : (s.slotTrap q a t).located = s.located := rfl
@[simp] theorem State.slotTrap_moved (s : State) (q : Cause) (a : W64) (t : FwTask) : (s.slotTrap q a t).moved = s.moved := rfl
@[simp] theorem State.slotTrap_arriving (s : State) (q : Cause) (a : W64) (t : FwTask) : (s.slotTrap q a t).arriving = s.arriving := rfl
@[simp] theorem State.slotTrap_hostReplies (s : State) (q : Cause) (a : W64) (t : FwTask) : (s.slotTrap q a t).hostReplies = s.hostReplies := rfl
@[simp] theorem State.slotTrap_messages (s : State) (q : Cause) (a : W64) (t : FwTask) : (s.slotTrap q a t).messages = s.messages := rfl
@[simp] theorem State.slotTrap_hub (s : State) (q : Cause) (a : W64) (t : FwTask) : (s.slotTrap q a t).hub = s.hub := rfl

/-! ### State.slotFault -/

@[simp] theorem State.slotFault_free (s : State) (q : Cause) (a : W64) : (s.slotFault q a).free = s.free := rfl
@[simp] theorem State.slotFault_agenda (s : State) (q : Cause) (a : W64) : (s.slotFault q a).agenda = s.agenda := rfl
@[simp] theorem State.slotFault_cur (s : State) (q : Cause) (a : W64) : (s.slotFault q a).cur = s.cur := rfl
@[simp] theorem State.slotFault_issue (s : State) (q : Cause) (a : W64) : (s.slotFault q a).issue = { s.issue with trapped := true } := rfl
@[simp] theorem State.slotFault_nextId (s : State) (q : Cause) (a : W64) : (s.slotFault q a).nextId = s.nextId := rfl
@[simp] theorem State.slotFault_ctxs (s : State) (q : Cause) (a : W64) : (s.slotFault q a).ctxs = tabSet s.ctxs s.cur (s.cx.trapped q a 0 s.cx.rpos s.issue.slot (.terminate 0)) := rfl
@[simp] theorem State.slotFault_cores (s : State) (q : Cause) (a : W64) : (s.slotFault q a).cores = s.cores := rfl
@[simp] theorem State.slotFault_tlb2 (s : State) (q : Cause) (a : W64) : (s.slotFault q a).tlb2 = s.tlb2 := rfl
@[simp] theorem State.slotFault_mem (s : State) (q : Cause) (a : W64) : (s.slotFault q a).mem = s.mem := rfl
@[simp] theorem State.slotFault_cells (s : State) (q : Cause) (a : W64) : (s.slotFault q a).cells = s.cells := rfl
@[simp] theorem State.slotFault_bad (s : State) (q : Cause) (a : W64) : (s.slotFault q a).bad = s.bad := rfl
@[simp] theorem State.slotFault_flips (s : State) (q : Cause) (a : W64) : (s.slotFault q a).flips = s.flips := rfl
@[simp] theorem State.slotFault_accs (s : State) (q : Cause) (a : W64) : (s.slotFault q a).accs = s.accs := rfl
@[simp] theorem State.slotFault_withdrawn (s : State) (q : Cause) (a : W64) : (s.slotFault q a).withdrawn = s.withdrawn := rfl
@[simp] theorem State.slotFault_watches (s : State) (q : Cause) (a : W64) : (s.slotFault q a).watches = s.watches := rfl
@[simp] theorem State.slotFault_cmds (s : State) (q : Cause) (a : W64) : (s.slotFault q a).cmds = s.cmds := rfl
@[simp] theorem State.slotFault_wins (s : State) (q : Cause) (a : W64) : (s.slotFault q a).wins = s.wins := rfl
@[simp] theorem State.slotFault_groups (s : State) (q : Cause) (a : W64) : (s.slotFault q a).groups = s.groups := rfl
@[simp] theorem State.slotFault_ranks (s : State) (q : Cause) (a : W64) : (s.slotFault q a).ranks = s.ranks := rfl
@[simp] theorem State.slotFault_vfs (s : State) (q : Cause) (a : W64) : (s.slotFault q a).vfs = s.vfs := rfl
@[simp] theorem State.slotFault_launches (s : State) (q : Cause) (a : W64) : (s.slotFault q a).launches = s.launches := rfl
@[simp] theorem State.slotFault_owned (s : State) (q : Cause) (a : W64) : (s.slotFault q a).owned = s.owned := rfl
@[simp] theorem State.slotFault_verified (s : State) (q : Cause) (a : W64) : (s.slotFault q a).verified = s.verified := rfl
@[simp] theorem State.slotFault_fused (s : State) (q : Cause) (a : W64) : (s.slotFault q a).fused = s.fused := rfl
@[simp] theorem State.slotFault_running (s : State) (q : Cause) (a : W64) : (s.slotFault q a).running = s.running := rfl
@[simp] theorem State.slotFault_cuts (s : State) (q : Cause) (a : W64) : (s.slotFault q a).cuts = s.cuts := rfl
@[simp] theorem State.slotFault_collections (s : State) (q : Cause) (a : W64) : (s.slotFault q a).collections = s.collections := rfl
@[simp] theorem State.slotFault_segments (s : State) (q : Cause) (a : W64) : (s.slotFault q a).segments = s.segments := rfl
@[simp] theorem State.slotFault_served (s : State) (q : Cause) (a : W64) : (s.slotFault q a).served = s.served := rfl
@[simp] theorem State.slotFault_switching (s : State) (q : Cause) (a : W64) : (s.slotFault q a).switching = s.switching := rfl
@[simp] theorem State.slotFault_colls (s : State) (q : Cause) (a : W64) : (s.slotFault q a).colls = s.colls := rfl
@[simp] theorem State.slotFault_contribs (s : State) (q : Cause) (a : W64) : (s.slotFault q a).contribs = s.contribs := rfl
@[simp] theorem State.slotFault_collAborts (s : State) (q : Cause) (a : W64) : (s.slotFault q a).collAborts = s.collAborts := rfl
@[simp] theorem State.slotFault_holds (s : State) (q : Cause) (a : W64) : (s.slotFault q a).holds = s.holds := rfl
@[simp] theorem State.slotFault_redslots (s : State) (q : Cause) (a : W64) : (s.slotFault q a).redslots = s.redslots := rfl
@[simp] theorem State.slotFault_rotors (s : State) (q : Cause) (a : W64) : (s.slotFault q a).rotors = s.rotors := rfl
@[simp] theorem State.slotFault_slotPtr (s : State) (q : Cause) (a : W64) : (s.slotFault q a).slotPtr = s.slotPtr := rfl
@[simp] theorem State.slotFault_slotReqs (s : State) (q : Cause) (a : W64) : (s.slotFault q a).slotReqs = s.slotReqs := rfl
@[simp] theorem State.slotFault_routes (s : State) (q : Cause) (a : W64) : (s.slotFault q a).routes = s.routes := rfl
@[simp] theorem State.slotFault_failedPorts (s : State) (q : Cause) (a : W64) : (s.slotFault q a).failedPorts = s.failedPorts := rfl
@[simp] theorem State.slotFault_shufs (s : State) (q : Cause) (a : W64) : (s.slotFault q a).shufs = s.shufs := rfl
@[simp] theorem State.slotFault_pairing (s : State) (q : Cause) (a : W64) : (s.slotFault q a).pairing = s.pairing := rfl
@[simp] theorem State.slotFault_decoding (s : State) (q : Cause) (a : W64) : (s.slotFault q a).decoding = s.decoding := rfl
@[simp] theorem State.slotFault_retries (s : State) (q : Cause) (a : W64) : (s.slotFault q a).retries = s.retries := rfl
@[simp] theorem State.slotFault_inbox (s : State) (q : Cause) (a : W64) : (s.slotFault q a).inbox = s.inbox := rfl
@[simp] theorem State.slotFault_outbox (s : State) (q : Cause) (a : W64) : (s.slotFault q a).outbox = s.outbox := rfl
@[simp] theorem State.slotFault_unconfirmed (s : State) (q : Cause) (a : W64) : (s.slotFault q a).unconfirmed = s.unconfirmed := rfl
@[simp] theorem State.slotFault_remoteReads (s : State) (q : Cause) (a : W64) : (s.slotFault q a).remoteReads = s.remoteReads := rfl
@[simp] theorem State.slotFault_remote (s : State) (q : Cause) (a : W64) : (s.slotFault q a).remote = s.remote := rfl
@[simp] theorem State.slotFault_far (s : State) (q : Cause) (a : W64) : (s.slotFault q a).far = s.far := rfl
@[simp] theorem State.slotFault_located (s : State) (q : Cause) (a : W64) : (s.slotFault q a).located = s.located := rfl
@[simp] theorem State.slotFault_moved (s : State) (q : Cause) (a : W64) : (s.slotFault q a).moved = s.moved := rfl
@[simp] theorem State.slotFault_arriving (s : State) (q : Cause) (a : W64) : (s.slotFault q a).arriving = s.arriving := rfl
@[simp] theorem State.slotFault_hostReplies (s : State) (q : Cause) (a : W64) : (s.slotFault q a).hostReplies = s.hostReplies := rfl
@[simp] theorem State.slotFault_messages (s : State) (q : Cause) (a : W64) : (s.slotFault q a).messages = s.messages := rfl
@[simp] theorem State.slotFault_hub (s : State) (q : Cause) (a : W64) : (s.slotFault q a).hub = s.hub := rfl

/-! ### State.mark -/

@[simp] theorem State.mark_free (s : State) (w : AR) (m : Bool) : (s.mark w m).free = s.free := by unfold State.mark; split <;> rfl
@[simp] theorem State.mark_agenda (s : State) (w : AR) (m : Bool) : (s.mark w m).agenda = s.agenda := by unfold State.mark; split <;> rfl
@[simp] theorem State.mark_cur (s : State) (w : AR) (m : Bool) : (s.mark w m).cur = s.cur := by unfold State.mark; split <;> rfl
@[simp] theorem State.mark_issue (s : State) (w : AR) (m : Bool) : (s.mark w m).issue = s.issue := by unfold State.mark; split <;> rfl
@[simp] theorem State.mark_nextId (s : State) (w : AR) (m : Bool) : (s.mark w m).nextId = s.nextId := by unfold State.mark; split <;> rfl
@[simp] theorem State.mark_cores (s : State) (w : AR) (m : Bool) : (s.mark w m).cores = s.cores := by unfold State.mark; split <;> rfl
@[simp] theorem State.mark_tlb2 (s : State) (w : AR) (m : Bool) : (s.mark w m).tlb2 = s.tlb2 := by unfold State.mark; split <;> rfl
@[simp] theorem State.mark_mem (s : State) (w : AR) (m : Bool) : (s.mark w m).mem = s.mem := by unfold State.mark; split <;> rfl
@[simp] theorem State.mark_cells (s : State) (w : AR) (m : Bool) : (s.mark w m).cells = s.cells := by unfold State.mark; split <;> rfl
@[simp] theorem State.mark_bad (s : State) (w : AR) (m : Bool) : (s.mark w m).bad = s.bad := by unfold State.mark; split <;> rfl
@[simp] theorem State.mark_flips (s : State) (w : AR) (m : Bool) : (s.mark w m).flips = s.flips := by unfold State.mark; split <;> rfl
@[simp] theorem State.mark_accs (s : State) (w : AR) (m : Bool) : (s.mark w m).accs = s.accs := by unfold State.mark; split <;> rfl
@[simp] theorem State.mark_withdrawn (s : State) (w : AR) (m : Bool) : (s.mark w m).withdrawn = s.withdrawn := by unfold State.mark; split <;> rfl
@[simp] theorem State.mark_watches (s : State) (w : AR) (m : Bool) : (s.mark w m).watches = s.watches := by unfold State.mark; split <;> rfl
@[simp] theorem State.mark_cmds (s : State) (w : AR) (m : Bool) : (s.mark w m).cmds = s.cmds := by unfold State.mark; split <;> rfl
@[simp] theorem State.mark_wins (s : State) (w : AR) (m : Bool) : (s.mark w m).wins = s.wins := by unfold State.mark; split <;> rfl
@[simp] theorem State.mark_groups (s : State) (w : AR) (m : Bool) : (s.mark w m).groups = s.groups := by unfold State.mark; split <;> rfl
@[simp] theorem State.mark_ranks (s : State) (w : AR) (m : Bool) : (s.mark w m).ranks = s.ranks := by unfold State.mark; split <;> rfl
@[simp] theorem State.mark_vfs (s : State) (w : AR) (m : Bool) : (s.mark w m).vfs = s.vfs := by unfold State.mark; split <;> rfl
@[simp] theorem State.mark_launches (s : State) (w : AR) (m : Bool) : (s.mark w m).launches = s.launches := by unfold State.mark; split <;> rfl
@[simp] theorem State.mark_owned (s : State) (w : AR) (m : Bool) : (s.mark w m).owned = s.owned := by unfold State.mark; split <;> rfl
@[simp] theorem State.mark_verified (s : State) (w : AR) (m : Bool) : (s.mark w m).verified = s.verified := by unfold State.mark; split <;> rfl
@[simp] theorem State.mark_fused (s : State) (w : AR) (m : Bool) : (s.mark w m).fused = s.fused := by unfold State.mark; split <;> rfl
@[simp] theorem State.mark_running (s : State) (w : AR) (m : Bool) : (s.mark w m).running = s.running := by unfold State.mark; split <;> rfl
@[simp] theorem State.mark_cuts (s : State) (w : AR) (m : Bool) : (s.mark w m).cuts = s.cuts := by unfold State.mark; split <;> rfl
@[simp] theorem State.mark_collections (s : State) (w : AR) (m : Bool) : (s.mark w m).collections = s.collections := by unfold State.mark; split <;> rfl
@[simp] theorem State.mark_segments (s : State) (w : AR) (m : Bool) : (s.mark w m).segments = s.segments := by unfold State.mark; split <;> rfl
@[simp] theorem State.mark_served (s : State) (w : AR) (m : Bool) : (s.mark w m).served = s.served := by unfold State.mark; split <;> rfl
@[simp] theorem State.mark_switching (s : State) (w : AR) (m : Bool) : (s.mark w m).switching = s.switching := by unfold State.mark; split <;> rfl
@[simp] theorem State.mark_colls (s : State) (w : AR) (m : Bool) : (s.mark w m).colls = s.colls := by unfold State.mark; split <;> rfl
@[simp] theorem State.mark_contribs (s : State) (w : AR) (m : Bool) : (s.mark w m).contribs = s.contribs := by unfold State.mark; split <;> rfl
@[simp] theorem State.mark_collAborts (s : State) (w : AR) (m : Bool) : (s.mark w m).collAborts = s.collAborts := by unfold State.mark; split <;> rfl
@[simp] theorem State.mark_holds (s : State) (w : AR) (m : Bool) : (s.mark w m).holds = s.holds := by unfold State.mark; split <;> rfl
@[simp] theorem State.mark_redslots (s : State) (w : AR) (m : Bool) : (s.mark w m).redslots = s.redslots := by unfold State.mark; split <;> rfl
@[simp] theorem State.mark_rotors (s : State) (w : AR) (m : Bool) : (s.mark w m).rotors = s.rotors := by unfold State.mark; split <;> rfl
@[simp] theorem State.mark_slotPtr (s : State) (w : AR) (m : Bool) : (s.mark w m).slotPtr = s.slotPtr := by unfold State.mark; split <;> rfl
@[simp] theorem State.mark_slotReqs (s : State) (w : AR) (m : Bool) : (s.mark w m).slotReqs = s.slotReqs := by unfold State.mark; split <;> rfl
@[simp] theorem State.mark_routes (s : State) (w : AR) (m : Bool) : (s.mark w m).routes = s.routes := by unfold State.mark; split <;> rfl
@[simp] theorem State.mark_failedPorts (s : State) (w : AR) (m : Bool) : (s.mark w m).failedPorts = s.failedPorts := by unfold State.mark; split <;> rfl
@[simp] theorem State.mark_shufs (s : State) (w : AR) (m : Bool) : (s.mark w m).shufs = s.shufs := by unfold State.mark; split <;> rfl
@[simp] theorem State.mark_pairing (s : State) (w : AR) (m : Bool) : (s.mark w m).pairing = s.pairing := by unfold State.mark; split <;> rfl
@[simp] theorem State.mark_decoding (s : State) (w : AR) (m : Bool) : (s.mark w m).decoding = s.decoding := by unfold State.mark; split <;> rfl
@[simp] theorem State.mark_retries (s : State) (w : AR) (m : Bool) : (s.mark w m).retries = s.retries := by unfold State.mark; split <;> rfl
@[simp] theorem State.mark_inbox (s : State) (w : AR) (m : Bool) : (s.mark w m).inbox = s.inbox := by unfold State.mark; split <;> rfl
@[simp] theorem State.mark_outbox (s : State) (w : AR) (m : Bool) : (s.mark w m).outbox = s.outbox := by unfold State.mark; split <;> rfl
@[simp] theorem State.mark_unconfirmed (s : State) (w : AR) (m : Bool) : (s.mark w m).unconfirmed = s.unconfirmed := by unfold State.mark; split <;> rfl
@[simp] theorem State.mark_remoteReads (s : State) (w : AR) (m : Bool) : (s.mark w m).remoteReads = s.remoteReads := by unfold State.mark; split <;> rfl
@[simp] theorem State.mark_remote (s : State) (w : AR) (m : Bool) : (s.mark w m).remote = s.remote := by unfold State.mark; split <;> rfl
@[simp] theorem State.mark_far (s : State) (w : AR) (m : Bool) : (s.mark w m).far = s.far := by unfold State.mark; split <;> rfl
@[simp] theorem State.mark_located (s : State) (w : AR) (m : Bool) : (s.mark w m).located = s.located := by unfold State.mark; split <;> rfl
@[simp] theorem State.mark_moved (s : State) (w : AR) (m : Bool) : (s.mark w m).moved = s.moved := by unfold State.mark; split <;> rfl
@[simp] theorem State.mark_arriving (s : State) (w : AR) (m : Bool) : (s.mark w m).arriving = s.arriving := by unfold State.mark; split <;> rfl
@[simp] theorem State.mark_hostReplies (s : State) (w : AR) (m : Bool) : (s.mark w m).hostReplies = s.hostReplies := by unfold State.mark; split <;> rfl
@[simp] theorem State.mark_messages (s : State) (w : AR) (m : Bool) : (s.mark w m).messages = s.messages := by unfold State.mark; split <;> rfl
@[simp] theorem State.mark_hub (s : State) (w : AR) (m : Bool) : (s.mark w m).hub = s.hub := by unfold State.mark; split <;> rfl

/-! ### State.setAcc -/

@[simp] theorem State.setAcc_free (s : State) (a : Acc) : (s.setAcc a).free = s.free := rfl
@[simp] theorem State.setAcc_agenda (s : State) (a : Acc) : (s.setAcc a).agenda = s.agenda := rfl
@[simp] theorem State.setAcc_cur (s : State) (a : Acc) : (s.setAcc a).cur = s.cur := rfl
@[simp] theorem State.setAcc_issue (s : State) (a : Acc) : (s.setAcc a).issue = s.issue := rfl
@[simp] theorem State.setAcc_nextId (s : State) (a : Acc) : (s.setAcc a).nextId = s.nextId := rfl
@[simp] theorem State.setAcc_ctxs (s : State) (a : Acc) : (s.setAcc a).ctxs = s.ctxs := rfl
@[simp] theorem State.setAcc_cores (s : State) (a : Acc) : (s.setAcc a).cores = s.cores := rfl
@[simp] theorem State.setAcc_tlb2 (s : State) (a : Acc) : (s.setAcc a).tlb2 = s.tlb2 := rfl
@[simp] theorem State.setAcc_mem (s : State) (a : Acc) : (s.setAcc a).mem = s.mem := rfl
@[simp] theorem State.setAcc_cells (s : State) (a : Acc) : (s.setAcc a).cells = s.cells := rfl
@[simp] theorem State.setAcc_bad (s : State) (a : Acc) : (s.setAcc a).bad = s.bad := rfl
@[simp] theorem State.setAcc_flips (s : State) (a : Acc) : (s.setAcc a).flips = s.flips := rfl
@[simp] theorem State.setAcc_accs (s : State) (a : Acc) : (s.setAcc a).accs = s.accs.map fun x => if x.id = a.id then a else x := rfl
@[simp] theorem State.setAcc_withdrawn (s : State) (a : Acc) : (s.setAcc a).withdrawn = s.withdrawn := rfl
@[simp] theorem State.setAcc_watches (s : State) (a : Acc) : (s.setAcc a).watches = s.watches := rfl
@[simp] theorem State.setAcc_cmds (s : State) (a : Acc) : (s.setAcc a).cmds = s.cmds := rfl
@[simp] theorem State.setAcc_wins (s : State) (a : Acc) : (s.setAcc a).wins = s.wins := rfl
@[simp] theorem State.setAcc_groups (s : State) (a : Acc) : (s.setAcc a).groups = s.groups := rfl
@[simp] theorem State.setAcc_ranks (s : State) (a : Acc) : (s.setAcc a).ranks = s.ranks := rfl
@[simp] theorem State.setAcc_vfs (s : State) (a : Acc) : (s.setAcc a).vfs = s.vfs := rfl
@[simp] theorem State.setAcc_launches (s : State) (a : Acc) : (s.setAcc a).launches = s.launches := rfl
@[simp] theorem State.setAcc_owned (s : State) (a : Acc) : (s.setAcc a).owned = s.owned := rfl
@[simp] theorem State.setAcc_verified (s : State) (a : Acc) : (s.setAcc a).verified = s.verified := rfl
@[simp] theorem State.setAcc_fused (s : State) (a : Acc) : (s.setAcc a).fused = s.fused := rfl
@[simp] theorem State.setAcc_running (s : State) (a : Acc) : (s.setAcc a).running = s.running := rfl
@[simp] theorem State.setAcc_cuts (s : State) (a : Acc) : (s.setAcc a).cuts = s.cuts := rfl
@[simp] theorem State.setAcc_collections (s : State) (a : Acc) : (s.setAcc a).collections = s.collections := rfl
@[simp] theorem State.setAcc_segments (s : State) (a : Acc) : (s.setAcc a).segments = s.segments := rfl
@[simp] theorem State.setAcc_served (s : State) (a : Acc) : (s.setAcc a).served = s.served := rfl
@[simp] theorem State.setAcc_switching (s : State) (a : Acc) : (s.setAcc a).switching = s.switching := rfl
@[simp] theorem State.setAcc_colls (s : State) (a : Acc) : (s.setAcc a).colls = s.colls := rfl
@[simp] theorem State.setAcc_contribs (s : State) (a : Acc) : (s.setAcc a).contribs = s.contribs := rfl
@[simp] theorem State.setAcc_collAborts (s : State) (a : Acc) : (s.setAcc a).collAborts = s.collAborts := rfl
@[simp] theorem State.setAcc_holds (s : State) (a : Acc) : (s.setAcc a).holds = s.holds := rfl
@[simp] theorem State.setAcc_redslots (s : State) (a : Acc) : (s.setAcc a).redslots = s.redslots := rfl
@[simp] theorem State.setAcc_rotors (s : State) (a : Acc) : (s.setAcc a).rotors = s.rotors := rfl
@[simp] theorem State.setAcc_slotPtr (s : State) (a : Acc) : (s.setAcc a).slotPtr = s.slotPtr := rfl
@[simp] theorem State.setAcc_slotReqs (s : State) (a : Acc) : (s.setAcc a).slotReqs = s.slotReqs := rfl
@[simp] theorem State.setAcc_routes (s : State) (a : Acc) : (s.setAcc a).routes = s.routes := rfl
@[simp] theorem State.setAcc_failedPorts (s : State) (a : Acc) : (s.setAcc a).failedPorts = s.failedPorts := rfl
@[simp] theorem State.setAcc_shufs (s : State) (a : Acc) : (s.setAcc a).shufs = s.shufs := rfl
@[simp] theorem State.setAcc_pairing (s : State) (a : Acc) : (s.setAcc a).pairing = s.pairing := rfl
@[simp] theorem State.setAcc_decoding (s : State) (a : Acc) : (s.setAcc a).decoding = s.decoding := rfl
@[simp] theorem State.setAcc_retries (s : State) (a : Acc) : (s.setAcc a).retries = s.retries := rfl
@[simp] theorem State.setAcc_inbox (s : State) (a : Acc) : (s.setAcc a).inbox = s.inbox := rfl
@[simp] theorem State.setAcc_outbox (s : State) (a : Acc) : (s.setAcc a).outbox = s.outbox := rfl
@[simp] theorem State.setAcc_unconfirmed (s : State) (a : Acc) : (s.setAcc a).unconfirmed = s.unconfirmed := rfl
@[simp] theorem State.setAcc_remoteReads (s : State) (a : Acc) : (s.setAcc a).remoteReads = s.remoteReads := rfl
@[simp] theorem State.setAcc_remote (s : State) (a : Acc) : (s.setAcc a).remote = s.remote := rfl
@[simp] theorem State.setAcc_far (s : State) (a : Acc) : (s.setAcc a).far = s.far := rfl
@[simp] theorem State.setAcc_located (s : State) (a : Acc) : (s.setAcc a).located = s.located := rfl
@[simp] theorem State.setAcc_moved (s : State) (a : Acc) : (s.setAcc a).moved = s.moved := rfl
@[simp] theorem State.setAcc_arriving (s : State) (a : Acc) : (s.setAcc a).arriving = s.arriving := rfl
@[simp] theorem State.setAcc_hostReplies (s : State) (a : Acc) : (s.setAcc a).hostReplies = s.hostReplies := rfl
@[simp] theorem State.setAcc_messages (s : State) (a : Acc) : (s.setAcc a).messages = s.messages := rfl
@[simp] theorem State.setAcc_hub (s : State) (a : Acc) : (s.setAcc a).hub = s.hub := rfl

/-! ### State.dropAcc -/

@[simp] theorem State.dropAcc_free (s : State) (i : Nat) : (s.dropAcc i).free = s.free := rfl
@[simp] theorem State.dropAcc_agenda (s : State) (i : Nat) : (s.dropAcc i).agenda = s.agenda := rfl
@[simp] theorem State.dropAcc_cur (s : State) (i : Nat) : (s.dropAcc i).cur = s.cur := rfl
@[simp] theorem State.dropAcc_issue (s : State) (i : Nat) : (s.dropAcc i).issue = s.issue := rfl
@[simp] theorem State.dropAcc_nextId (s : State) (i : Nat) : (s.dropAcc i).nextId = s.nextId := rfl
@[simp] theorem State.dropAcc_ctxs (s : State) (i : Nat) : (s.dropAcc i).ctxs = s.ctxs := rfl
@[simp] theorem State.dropAcc_cores (s : State) (i : Nat) : (s.dropAcc i).cores = s.cores := rfl
@[simp] theorem State.dropAcc_tlb2 (s : State) (i : Nat) : (s.dropAcc i).tlb2 = s.tlb2 := rfl
@[simp] theorem State.dropAcc_mem (s : State) (i : Nat) : (s.dropAcc i).mem = s.mem := rfl
@[simp] theorem State.dropAcc_cells (s : State) (i : Nat) : (s.dropAcc i).cells = s.cells := rfl
@[simp] theorem State.dropAcc_bad (s : State) (i : Nat) : (s.dropAcc i).bad = s.bad := rfl
@[simp] theorem State.dropAcc_flips (s : State) (i : Nat) : (s.dropAcc i).flips = s.flips := rfl
@[simp] theorem State.dropAcc_accs (s : State) (i : Nat) : (s.dropAcc i).accs = s.accs.filter fun a => a.id != i := rfl
@[simp] theorem State.dropAcc_withdrawn (s : State) (i : Nat) : (s.dropAcc i).withdrawn = s.withdrawn := rfl
@[simp] theorem State.dropAcc_watches (s : State) (i : Nat) : (s.dropAcc i).watches = s.watches := rfl
@[simp] theorem State.dropAcc_cmds (s : State) (i : Nat) : (s.dropAcc i).cmds = s.cmds := rfl
@[simp] theorem State.dropAcc_wins (s : State) (i : Nat) : (s.dropAcc i).wins = s.wins := rfl
@[simp] theorem State.dropAcc_groups (s : State) (i : Nat) : (s.dropAcc i).groups = s.groups := rfl
@[simp] theorem State.dropAcc_ranks (s : State) (i : Nat) : (s.dropAcc i).ranks = s.ranks := rfl
@[simp] theorem State.dropAcc_vfs (s : State) (i : Nat) : (s.dropAcc i).vfs = s.vfs := rfl
@[simp] theorem State.dropAcc_launches (s : State) (i : Nat) : (s.dropAcc i).launches = s.launches := rfl
@[simp] theorem State.dropAcc_owned (s : State) (i : Nat) : (s.dropAcc i).owned = s.owned := rfl
@[simp] theorem State.dropAcc_verified (s : State) (i : Nat) : (s.dropAcc i).verified = s.verified := rfl
@[simp] theorem State.dropAcc_fused (s : State) (i : Nat) : (s.dropAcc i).fused = s.fused := rfl
@[simp] theorem State.dropAcc_running (s : State) (i : Nat) : (s.dropAcc i).running = s.running := rfl
@[simp] theorem State.dropAcc_cuts (s : State) (i : Nat) : (s.dropAcc i).cuts = s.cuts := rfl
@[simp] theorem State.dropAcc_collections (s : State) (i : Nat) : (s.dropAcc i).collections = s.collections := rfl
@[simp] theorem State.dropAcc_segments (s : State) (i : Nat) : (s.dropAcc i).segments = s.segments := rfl
@[simp] theorem State.dropAcc_served (s : State) (i : Nat) : (s.dropAcc i).served = s.served := rfl
@[simp] theorem State.dropAcc_switching (s : State) (i : Nat) : (s.dropAcc i).switching = s.switching := rfl
@[simp] theorem State.dropAcc_colls (s : State) (i : Nat) : (s.dropAcc i).colls = s.colls := rfl
@[simp] theorem State.dropAcc_contribs (s : State) (i : Nat) : (s.dropAcc i).contribs = s.contribs := rfl
@[simp] theorem State.dropAcc_collAborts (s : State) (i : Nat) : (s.dropAcc i).collAborts = s.collAborts := rfl
@[simp] theorem State.dropAcc_holds (s : State) (i : Nat) : (s.dropAcc i).holds = s.holds := rfl
@[simp] theorem State.dropAcc_redslots (s : State) (i : Nat) : (s.dropAcc i).redslots = s.redslots := rfl
@[simp] theorem State.dropAcc_rotors (s : State) (i : Nat) : (s.dropAcc i).rotors = s.rotors := rfl
@[simp] theorem State.dropAcc_slotPtr (s : State) (i : Nat) : (s.dropAcc i).slotPtr = s.slotPtr := rfl
@[simp] theorem State.dropAcc_slotReqs (s : State) (i : Nat) : (s.dropAcc i).slotReqs = s.slotReqs := rfl
@[simp] theorem State.dropAcc_routes (s : State) (i : Nat) : (s.dropAcc i).routes = s.routes := rfl
@[simp] theorem State.dropAcc_failedPorts (s : State) (i : Nat) : (s.dropAcc i).failedPorts = s.failedPorts := rfl
@[simp] theorem State.dropAcc_shufs (s : State) (i : Nat) : (s.dropAcc i).shufs = s.shufs := rfl
@[simp] theorem State.dropAcc_pairing (s : State) (i : Nat) : (s.dropAcc i).pairing = s.pairing := rfl
@[simp] theorem State.dropAcc_decoding (s : State) (i : Nat) : (s.dropAcc i).decoding = s.decoding := rfl
@[simp] theorem State.dropAcc_retries (s : State) (i : Nat) : (s.dropAcc i).retries = s.retries := rfl
@[simp] theorem State.dropAcc_inbox (s : State) (i : Nat) : (s.dropAcc i).inbox = s.inbox := rfl
@[simp] theorem State.dropAcc_outbox (s : State) (i : Nat) : (s.dropAcc i).outbox = s.outbox := rfl
@[simp] theorem State.dropAcc_unconfirmed (s : State) (i : Nat) : (s.dropAcc i).unconfirmed = s.unconfirmed := rfl
@[simp] theorem State.dropAcc_remoteReads (s : State) (i : Nat) : (s.dropAcc i).remoteReads = s.remoteReads := rfl
@[simp] theorem State.dropAcc_remote (s : State) (i : Nat) : (s.dropAcc i).remote = s.remote := rfl
@[simp] theorem State.dropAcc_far (s : State) (i : Nat) : (s.dropAcc i).far = s.far := rfl
@[simp] theorem State.dropAcc_located (s : State) (i : Nat) : (s.dropAcc i).located = s.located := rfl
@[simp] theorem State.dropAcc_moved (s : State) (i : Nat) : (s.dropAcc i).moved = s.moved := rfl
@[simp] theorem State.dropAcc_arriving (s : State) (i : Nat) : (s.dropAcc i).arriving = s.arriving := rfl
@[simp] theorem State.dropAcc_hostReplies (s : State) (i : Nat) : (s.dropAcc i).hostReplies = s.hostReplies := rfl
@[simp] theorem State.dropAcc_messages (s : State) (i : Nat) : (s.dropAcc i).messages = s.messages := rfl
@[simp] theorem State.dropAcc_hub (s : State) (i : Nat) : (s.dropAcc i).hub = s.hub := rfl

/-! ### Writes of a context's registers and counters -/

@[simp] theorem Ctx.wg_phase (c : Ctx) (r : GR) (x : W64) : (c.wg r x).phase = c.phase := by unfold Ctx.wg; split <;> rfl
@[simp] theorem Ctx.wg_rank (c : Ctx) (r : GR) (x : W64) : (c.wg r x).rank = c.rank := by unfold Ctx.wg; split <;> rfl
@[simp] theorem Ctx.wg_launch (c : Ctx) (r : GR) (x : W64) : (c.wg r x).launch = c.launch := by unfold Ctx.wg; split <;> rfl
@[simp] theorem Ctx.wg_place (c : Ctx) (r : GR) (x : W64) : (c.wg r x).place = c.place := by unfold Ctx.wg; split <;> rfl
@[simp] theorem Ctx.wg_kernel (c : Ctx) (r : GR) (x : W64) : (c.wg r x).kernel = c.kernel := by unfold Ctx.wg; split <;> rfl
@[simp] theorem Ctx.wg_a (c : Ctx) (r : GR) (x : W64) : (c.wg r x).a = c.a := by unfold Ctx.wg; split <;> rfl
@[simp] theorem Ctx.wg_v (c : Ctx) (r : GR) (x : W64) : (c.wg r x).v = c.v := by unfold Ctx.wg; split <;> rfl
@[simp] theorem Ctx.wg_p (c : Ctx) (r : GR) (x : W64) : (c.wg r x).p = c.p := by unfold Ctx.wg; split <;> rfl
@[simp] theorem Ctx.wg_q (c : Ctx) (r : GR) (x : W64) : (c.wg r x).q = c.q := by unfold Ctx.wg; split <;> rfl
@[simp] theorem Ctx.wg_x (c : Ctx) (r : GR) (x : W64) : (c.wg r x).x = c.x := by unfold Ctx.wg; split <;> rfl
@[simp] theorem Ctx.wg_pc (c : Ctx) (r : GR) (x : W64) : (c.wg r x).pc = c.pc := by unfold Ctx.wg; split <;> rfl
@[simp] theorem Ctx.wg_step (c : Ctx) (r : GR) (x : W64) : (c.wg r x).step = c.step := by unfold Ctx.wg; split <;> rfl
@[simp] theorem Ctx.wg_rpos (c : Ctx) (r : GR) (x : W64) : (c.wg r x).rpos = c.rpos := by unfold Ctx.wg; split <;> rfl
@[simp] theorem Ctx.wg_sres (c : Ctx) (r : GR) (x : W64) : (c.wg r x).sres = c.sres := by unfold Ctx.wg; split <;> rfl
@[simp] theorem Ctx.wg_status (c : Ctx) (r : GR) (x : W64) : (c.wg r x).status = c.status := by unfold Ctx.wg; split <;> rfl
@[simp] theorem Ctx.wg_faddr (c : Ctx) (r : GR) (x : W64) : (c.wg r x).faddr = c.faddr := by unfold Ctx.wg; split <;> rfl
@[simp] theorem Ctx.wg_epc (c : Ctx) (r : GR) (x : W64) : (c.wg r x).epc = c.epc := by unfold Ctx.wg; split <;> rfl
@[simp] theorem Ctx.wg_flags (c : Ctx) (r : GR) (x : W64) : (c.wg r x).flags = c.flags := by unfold Ctx.wg; split <;> rfl
@[simp] theorem Ctx.wg_ord (c : Ctx) (r : GR) (x : W64) : (c.wg r x).ord = c.ord := by unfold Ctx.wg; split <;> rfl
@[simp] theorem Ctx.wg_ctxid (c : Ctx) (r : GR) (x : W64) : (c.wg r x).ctxid = c.ctxid := by unfold Ctx.wg; split <;> rfl
@[simp] theorem Ctx.wg_nctx (c : Ctx) (r : GR) (x : W64) : (c.wg r x).nctx = c.nctx := by unfold Ctx.wg; split <;> rfl
@[simp] theorem Ctx.wg_cutcount (c : Ctx) (r : GR) (x : W64) : (c.wg r x).cutcount = c.cutcount := by unfold Ctx.wg; split <;> rfl
@[simp] theorem Ctx.wg_msave (c : Ctx) (r : GR) (x : W64) : (c.wg r x).msave = c.msave := by unfold Ctx.wg; split <;> rfl
@[simp] theorem Ctx.wg_rngkey (c : Ctx) (r : GR) (x : W64) : (c.wg r x).rngkey = c.rngkey := by unfold Ctx.wg; split <;> rfl
@[simp] theorem Ctx.wg_rngctr (c : Ctx) (r : GR) (x : W64) : (c.wg r x).rngctr = c.rngctr := by unfold Ctx.wg; split <;> rfl
@[simp] theorem Ctx.wg_inflight (c : Ctx) (r : GR) (x : W64) : (c.wg r x).inflight = c.inflight := by unfold Ctx.wg; split <;> rfl
@[simp] theorem Ctx.wg_sticky (c : Ctx) (r : GR) (x : W64) : (c.wg r x).sticky = c.sticky := by unfold Ctx.wg; split <;> rfl
@[simp] theorem Ctx.wg_loops (c : Ctx) (r : GR) (x : W64) : (c.wg r x).loops = c.loops := by unfold Ctx.wg; split <;> rfl
@[simp] theorem Ctx.wg_loopbuf (c : Ctx) (r : GR) (x : W64) : (c.wg r x).loopbuf = c.loopbuf := by unfold Ctx.wg; split <;> rfl
@[simp] theorem Ctx.wg_arming (c : Ctx) (r : GR) (x : W64) : (c.wg r x).arming = c.arming := by unfold Ctx.wg; split <;> rfl
@[simp] theorem Ctx.wg_strides (c : Ctx) (r : GR) (x : W64) : (c.wg r x).strides = c.strides := by unfold Ctx.wg; split <;> rfl
@[simp] theorem Ctx.wg_ld (c : Ctx) (r : GR) (x : W64) : (c.wg r x).ld = c.ld := by unfold Ctx.wg; split <;> rfl
@[simp] theorem Ctx.wg_st (c : Ctx) (r : GR) (x : W64) : (c.wg r x).st = c.st := by unfold Ctx.wg; split <;> rfl
@[simp] theorem Ctx.wg_cp (c : Ctx) (r : GR) (x : W64) : (c.wg r x).cp = c.cp := by unfold Ctx.wg; split <;> rfl
@[simp] theorem Ctx.wg_tl (c : Ctx) (r : GR) (x : W64) : (c.wg r x).tl = c.tl := by unfold Ctx.wg; split <;> rfl
@[simp] theorem Ctx.wg_window (c : Ctx) (r : GR) (x : W64) : (c.wg r x).window = c.window := by unfold Ctx.wg; split <;> rfl
@[simp] theorem Ctx.wg_emulsion (c : Ctx) (r : GR) (x : W64) : (c.wg r x).emulsion = c.emulsion := by unfold Ctx.wg; split <;> rfl
@[simp] theorem Ctx.wg_spools (c : Ctx) (r : GR) (x : W64) : (c.wg r x).spools = c.spools := by unfold Ctx.wg; split <;> rfl
@[simp] theorem Ctx.wg_cflags (c : Ctx) (r : GR) (x : W64) : (c.wg r x).cflags = c.cflags := by unfold Ctx.wg; split <;> rfl
@[simp] theorem Ctx.wg_issues (c : Ctx) (r : GR) (x : W64) : (c.wg r x).issues = c.issues := by unfold Ctx.wg; split <;> rfl
@[simp] theorem Ctx.wg_sinceQuiet (c : Ctx) (r : GR) (x : W64) : (c.wg r x).sinceQuiet = c.sinceQuiet := by unfold Ctx.wg; split <;> rfl
@[simp] theorem Ctx.wg_quiet (c : Ctx) (r : GR) (x : W64) : (c.wg r x).quiet = c.quiet := by unfold Ctx.wg; split <;> rfl
@[simp] theorem Ctx.wg_saveU (c : Ctx) (r : GR) (x : W64) : (c.wg r x).saveU = c.saveU := by unfold Ctx.wg; split <;> rfl
@[simp] theorem Ctx.wg_saveS (c : Ctx) (r : GR) (x : W64) : (c.wg r x).saveS = c.saveS := by unfold Ctx.wg; split <;> rfl
@[simp] theorem Ctx.wg_failures (c : Ctx) (r : GR) (x : W64) : (c.wg r x).failures = c.failures := by unfold Ctx.wg; split <;> rfl
@[simp] theorem Ctx.wg_reports (c : Ctx) (r : GR) (x : W64) : (c.wg r x).reports = c.reports := by unfold Ctx.wg; split <;> rfl
@[simp] theorem Ctx.wg_waiting (c : Ctx) (r : GR) (x : W64) : (c.wg r x).waiting = c.waiting := by unfold Ctx.wg; split <;> rfl
@[simp] theorem Ctx.wg_held (c : Ctx) (r : GR) (x : W64) : (c.wg r x).held = c.held := by unfold Ctx.wg; split <;> rfl
@[simp] theorem Ctx.wg_yielded (c : Ctx) (r : GR) (x : W64) : (c.wg r x).yielded = c.yielded := by unfold Ctx.wg; split <;> rfl
@[simp] theorem Ctx.wg_eval (c : Ctx) (r : GR) (x : W64) : (c.wg r x).eval = c.eval := by unfold Ctx.wg; split <;> rfl
@[simp] theorem Ctx.wg_preempt (c : Ctx) (r : GR) (x : W64) : (c.wg r x).preempt = c.preempt := by unfold Ctx.wg; split <;> rfl
@[simp] theorem Ctx.wg_fw (c : Ctx) (r : GR) (x : W64) : (c.wg r x).fw = c.fw := by unfold Ctx.wg; split <;> rfl
@[simp] theorem Ctx.wg_mwait (c : Ctx) (r : GR) (x : W64) : (c.wg r x).mwait = c.mwait := by unfold Ctx.wg; split <;> rfl
@[simp] theorem Ctx.wg_mact (c : Ctx) (r : GR) (x : W64) : (c.wg r x).mact = c.mact := by unfold Ctx.wg; split <;> rfl
@[simp] theorem Ctx.wg_bad (c : Ctx) (r : GR) (x : W64) : (c.wg r x).bad = c.bad := by unfold Ctx.wg; split <;> rfl
@[simp] theorem Ctx.wg_corr (c : Ctx) (r : GR) (x : W64) : (c.wg r x).corr = c.corr := by unfold Ctx.wg; split <;> rfl

@[simp] theorem Ctx.wp_phase (c : Ctx) (r : PR) (x : PReg) : (c.wp r x).phase = c.phase := by unfold Ctx.wp; split <;> rfl
@[simp] theorem Ctx.wp_rank (c : Ctx) (r : PR) (x : PReg) : (c.wp r x).rank = c.rank := by unfold Ctx.wp; split <;> rfl
@[simp] theorem Ctx.wp_launch (c : Ctx) (r : PR) (x : PReg) : (c.wp r x).launch = c.launch := by unfold Ctx.wp; split <;> rfl
@[simp] theorem Ctx.wp_place (c : Ctx) (r : PR) (x : PReg) : (c.wp r x).place = c.place := by unfold Ctx.wp; split <;> rfl
@[simp] theorem Ctx.wp_kernel (c : Ctx) (r : PR) (x : PReg) : (c.wp r x).kernel = c.kernel := by unfold Ctx.wp; split <;> rfl
@[simp] theorem Ctx.wp_g (c : Ctx) (r : PR) (x : PReg) : (c.wp r x).g = c.g := by unfold Ctx.wp; split <;> rfl
@[simp] theorem Ctx.wp_a (c : Ctx) (r : PR) (x : PReg) : (c.wp r x).a = c.a := by unfold Ctx.wp; split <;> rfl
@[simp] theorem Ctx.wp_v (c : Ctx) (r : PR) (x : PReg) : (c.wp r x).v = c.v := by unfold Ctx.wp; split <;> rfl
@[simp] theorem Ctx.wp_q (c : Ctx) (r : PR) (x : PReg) : (c.wp r x).q = c.q := by unfold Ctx.wp; split <;> rfl
@[simp] theorem Ctx.wp_x (c : Ctx) (r : PR) (x : PReg) : (c.wp r x).x = c.x := by unfold Ctx.wp; split <;> rfl
@[simp] theorem Ctx.wp_pc (c : Ctx) (r : PR) (x : PReg) : (c.wp r x).pc = c.pc := by unfold Ctx.wp; split <;> rfl
@[simp] theorem Ctx.wp_step (c : Ctx) (r : PR) (x : PReg) : (c.wp r x).step = c.step := by unfold Ctx.wp; split <;> rfl
@[simp] theorem Ctx.wp_rpos (c : Ctx) (r : PR) (x : PReg) : (c.wp r x).rpos = c.rpos := by unfold Ctx.wp; split <;> rfl
@[simp] theorem Ctx.wp_sres (c : Ctx) (r : PR) (x : PReg) : (c.wp r x).sres = c.sres := by unfold Ctx.wp; split <;> rfl
@[simp] theorem Ctx.wp_status (c : Ctx) (r : PR) (x : PReg) : (c.wp r x).status = c.status := by unfold Ctx.wp; split <;> rfl
@[simp] theorem Ctx.wp_faddr (c : Ctx) (r : PR) (x : PReg) : (c.wp r x).faddr = c.faddr := by unfold Ctx.wp; split <;> rfl
@[simp] theorem Ctx.wp_epc (c : Ctx) (r : PR) (x : PReg) : (c.wp r x).epc = c.epc := by unfold Ctx.wp; split <;> rfl
@[simp] theorem Ctx.wp_flags (c : Ctx) (r : PR) (x : PReg) : (c.wp r x).flags = c.flags := by unfold Ctx.wp; split <;> rfl
@[simp] theorem Ctx.wp_ord (c : Ctx) (r : PR) (x : PReg) : (c.wp r x).ord = c.ord := by unfold Ctx.wp; split <;> rfl
@[simp] theorem Ctx.wp_ctxid (c : Ctx) (r : PR) (x : PReg) : (c.wp r x).ctxid = c.ctxid := by unfold Ctx.wp; split <;> rfl
@[simp] theorem Ctx.wp_nctx (c : Ctx) (r : PR) (x : PReg) : (c.wp r x).nctx = c.nctx := by unfold Ctx.wp; split <;> rfl
@[simp] theorem Ctx.wp_cutcount (c : Ctx) (r : PR) (x : PReg) : (c.wp r x).cutcount = c.cutcount := by unfold Ctx.wp; split <;> rfl
@[simp] theorem Ctx.wp_msave (c : Ctx) (r : PR) (x : PReg) : (c.wp r x).msave = c.msave := by unfold Ctx.wp; split <;> rfl
@[simp] theorem Ctx.wp_rngkey (c : Ctx) (r : PR) (x : PReg) : (c.wp r x).rngkey = c.rngkey := by unfold Ctx.wp; split <;> rfl
@[simp] theorem Ctx.wp_rngctr (c : Ctx) (r : PR) (x : PReg) : (c.wp r x).rngctr = c.rngctr := by unfold Ctx.wp; split <;> rfl
@[simp] theorem Ctx.wp_inflight (c : Ctx) (r : PR) (x : PReg) : (c.wp r x).inflight = c.inflight := by unfold Ctx.wp; split <;> rfl
@[simp] theorem Ctx.wp_sticky (c : Ctx) (r : PR) (x : PReg) : (c.wp r x).sticky = c.sticky := by unfold Ctx.wp; split <;> rfl
@[simp] theorem Ctx.wp_loops (c : Ctx) (r : PR) (x : PReg) : (c.wp r x).loops = c.loops := by unfold Ctx.wp; split <;> rfl
@[simp] theorem Ctx.wp_loopbuf (c : Ctx) (r : PR) (x : PReg) : (c.wp r x).loopbuf = c.loopbuf := by unfold Ctx.wp; split <;> rfl
@[simp] theorem Ctx.wp_arming (c : Ctx) (r : PR) (x : PReg) : (c.wp r x).arming = c.arming := by unfold Ctx.wp; split <;> rfl
@[simp] theorem Ctx.wp_strides (c : Ctx) (r : PR) (x : PReg) : (c.wp r x).strides = c.strides := by unfold Ctx.wp; split <;> rfl
@[simp] theorem Ctx.wp_ld (c : Ctx) (r : PR) (x : PReg) : (c.wp r x).ld = c.ld := by unfold Ctx.wp; split <;> rfl
@[simp] theorem Ctx.wp_st (c : Ctx) (r : PR) (x : PReg) : (c.wp r x).st = c.st := by unfold Ctx.wp; split <;> rfl
@[simp] theorem Ctx.wp_cp (c : Ctx) (r : PR) (x : PReg) : (c.wp r x).cp = c.cp := by unfold Ctx.wp; split <;> rfl
@[simp] theorem Ctx.wp_tl (c : Ctx) (r : PR) (x : PReg) : (c.wp r x).tl = c.tl := by unfold Ctx.wp; split <;> rfl
@[simp] theorem Ctx.wp_window (c : Ctx) (r : PR) (x : PReg) : (c.wp r x).window = c.window := by unfold Ctx.wp; split <;> rfl
@[simp] theorem Ctx.wp_emulsion (c : Ctx) (r : PR) (x : PReg) : (c.wp r x).emulsion = c.emulsion := by unfold Ctx.wp; split <;> rfl
@[simp] theorem Ctx.wp_spools (c : Ctx) (r : PR) (x : PReg) : (c.wp r x).spools = c.spools := by unfold Ctx.wp; split <;> rfl
@[simp] theorem Ctx.wp_cflags (c : Ctx) (r : PR) (x : PReg) : (c.wp r x).cflags = c.cflags := by unfold Ctx.wp; split <;> rfl
@[simp] theorem Ctx.wp_issues (c : Ctx) (r : PR) (x : PReg) : (c.wp r x).issues = c.issues := by unfold Ctx.wp; split <;> rfl
@[simp] theorem Ctx.wp_sinceQuiet (c : Ctx) (r : PR) (x : PReg) : (c.wp r x).sinceQuiet = c.sinceQuiet := by unfold Ctx.wp; split <;> rfl
@[simp] theorem Ctx.wp_quiet (c : Ctx) (r : PR) (x : PReg) : (c.wp r x).quiet = c.quiet := by unfold Ctx.wp; split <;> rfl
@[simp] theorem Ctx.wp_saveU (c : Ctx) (r : PR) (x : PReg) : (c.wp r x).saveU = c.saveU := by unfold Ctx.wp; split <;> rfl
@[simp] theorem Ctx.wp_saveS (c : Ctx) (r : PR) (x : PReg) : (c.wp r x).saveS = c.saveS := by unfold Ctx.wp; split <;> rfl
@[simp] theorem Ctx.wp_failures (c : Ctx) (r : PR) (x : PReg) : (c.wp r x).failures = c.failures := by unfold Ctx.wp; split <;> rfl
@[simp] theorem Ctx.wp_reports (c : Ctx) (r : PR) (x : PReg) : (c.wp r x).reports = c.reports := by unfold Ctx.wp; split <;> rfl
@[simp] theorem Ctx.wp_waiting (c : Ctx) (r : PR) (x : PReg) : (c.wp r x).waiting = c.waiting := by unfold Ctx.wp; split <;> rfl
@[simp] theorem Ctx.wp_held (c : Ctx) (r : PR) (x : PReg) : (c.wp r x).held = c.held := by unfold Ctx.wp; split <;> rfl
@[simp] theorem Ctx.wp_yielded (c : Ctx) (r : PR) (x : PReg) : (c.wp r x).yielded = c.yielded := by unfold Ctx.wp; split <;> rfl
@[simp] theorem Ctx.wp_eval (c : Ctx) (r : PR) (x : PReg) : (c.wp r x).eval = c.eval := by unfold Ctx.wp; split <;> rfl
@[simp] theorem Ctx.wp_preempt (c : Ctx) (r : PR) (x : PReg) : (c.wp r x).preempt = c.preempt := by unfold Ctx.wp; split <;> rfl
@[simp] theorem Ctx.wp_fw (c : Ctx) (r : PR) (x : PReg) : (c.wp r x).fw = c.fw := by unfold Ctx.wp; split <;> rfl
@[simp] theorem Ctx.wp_mwait (c : Ctx) (r : PR) (x : PReg) : (c.wp r x).mwait = c.mwait := by unfold Ctx.wp; split <;> rfl
@[simp] theorem Ctx.wp_mact (c : Ctx) (r : PR) (x : PReg) : (c.wp r x).mact = c.mact := by unfold Ctx.wp; split <;> rfl
@[simp] theorem Ctx.wp_bad (c : Ctx) (r : PR) (x : PReg) : (c.wp r x).bad = c.bad := by unfold Ctx.wp; split <;> rfl
@[simp] theorem Ctx.wp_corr (c : Ctx) (r : PR) (x : PReg) : (c.wp r x).corr = c.corr := by unfold Ctx.wp; split <;> rfl

@[simp] theorem Ctx.wv_phase (c : Ctx) (r : VR) (x : VReg) : (c.wv r x).phase = c.phase := rfl
@[simp] theorem Ctx.wv_rank (c : Ctx) (r : VR) (x : VReg) : (c.wv r x).rank = c.rank := rfl
@[simp] theorem Ctx.wv_launch (c : Ctx) (r : VR) (x : VReg) : (c.wv r x).launch = c.launch := rfl
@[simp] theorem Ctx.wv_place (c : Ctx) (r : VR) (x : VReg) : (c.wv r x).place = c.place := rfl
@[simp] theorem Ctx.wv_kernel (c : Ctx) (r : VR) (x : VReg) : (c.wv r x).kernel = c.kernel := rfl
@[simp] theorem Ctx.wv_g (c : Ctx) (r : VR) (x : VReg) : (c.wv r x).g = c.g := rfl
@[simp] theorem Ctx.wv_a (c : Ctx) (r : VR) (x : VReg) : (c.wv r x).a = c.a := rfl
@[simp] theorem Ctx.wv_p (c : Ctx) (r : VR) (x : VReg) : (c.wv r x).p = c.p := rfl
@[simp] theorem Ctx.wv_q (c : Ctx) (r : VR) (x : VReg) : (c.wv r x).q = c.q := rfl
@[simp] theorem Ctx.wv_x (c : Ctx) (r : VR) (x : VReg) : (c.wv r x).x = c.x := rfl
@[simp] theorem Ctx.wv_pc (c : Ctx) (r : VR) (x : VReg) : (c.wv r x).pc = c.pc := rfl
@[simp] theorem Ctx.wv_step (c : Ctx) (r : VR) (x : VReg) : (c.wv r x).step = c.step := rfl
@[simp] theorem Ctx.wv_rpos (c : Ctx) (r : VR) (x : VReg) : (c.wv r x).rpos = c.rpos := rfl
@[simp] theorem Ctx.wv_sres (c : Ctx) (r : VR) (x : VReg) : (c.wv r x).sres = c.sres := rfl
@[simp] theorem Ctx.wv_status (c : Ctx) (r : VR) (x : VReg) : (c.wv r x).status = c.status := rfl
@[simp] theorem Ctx.wv_faddr (c : Ctx) (r : VR) (x : VReg) : (c.wv r x).faddr = c.faddr := rfl
@[simp] theorem Ctx.wv_epc (c : Ctx) (r : VR) (x : VReg) : (c.wv r x).epc = c.epc := rfl
@[simp] theorem Ctx.wv_flags (c : Ctx) (r : VR) (x : VReg) : (c.wv r x).flags = c.flags := rfl
@[simp] theorem Ctx.wv_ord (c : Ctx) (r : VR) (x : VReg) : (c.wv r x).ord = c.ord := rfl
@[simp] theorem Ctx.wv_ctxid (c : Ctx) (r : VR) (x : VReg) : (c.wv r x).ctxid = c.ctxid := rfl
@[simp] theorem Ctx.wv_nctx (c : Ctx) (r : VR) (x : VReg) : (c.wv r x).nctx = c.nctx := rfl
@[simp] theorem Ctx.wv_cutcount (c : Ctx) (r : VR) (x : VReg) : (c.wv r x).cutcount = c.cutcount := rfl
@[simp] theorem Ctx.wv_msave (c : Ctx) (r : VR) (x : VReg) : (c.wv r x).msave = c.msave := rfl
@[simp] theorem Ctx.wv_rngkey (c : Ctx) (r : VR) (x : VReg) : (c.wv r x).rngkey = c.rngkey := rfl
@[simp] theorem Ctx.wv_rngctr (c : Ctx) (r : VR) (x : VReg) : (c.wv r x).rngctr = c.rngctr := rfl
@[simp] theorem Ctx.wv_inflight (c : Ctx) (r : VR) (x : VReg) : (c.wv r x).inflight = c.inflight := rfl
@[simp] theorem Ctx.wv_sticky (c : Ctx) (r : VR) (x : VReg) : (c.wv r x).sticky = c.sticky := rfl
@[simp] theorem Ctx.wv_loops (c : Ctx) (r : VR) (x : VReg) : (c.wv r x).loops = c.loops := rfl
@[simp] theorem Ctx.wv_loopbuf (c : Ctx) (r : VR) (x : VReg) : (c.wv r x).loopbuf = c.loopbuf := rfl
@[simp] theorem Ctx.wv_arming (c : Ctx) (r : VR) (x : VReg) : (c.wv r x).arming = c.arming := rfl
@[simp] theorem Ctx.wv_strides (c : Ctx) (r : VR) (x : VReg) : (c.wv r x).strides = c.strides := rfl
@[simp] theorem Ctx.wv_ld (c : Ctx) (r : VR) (x : VReg) : (c.wv r x).ld = c.ld := rfl
@[simp] theorem Ctx.wv_st (c : Ctx) (r : VR) (x : VReg) : (c.wv r x).st = c.st := rfl
@[simp] theorem Ctx.wv_cp (c : Ctx) (r : VR) (x : VReg) : (c.wv r x).cp = c.cp := rfl
@[simp] theorem Ctx.wv_tl (c : Ctx) (r : VR) (x : VReg) : (c.wv r x).tl = c.tl := rfl
@[simp] theorem Ctx.wv_window (c : Ctx) (r : VR) (x : VReg) : (c.wv r x).window = c.window := rfl
@[simp] theorem Ctx.wv_emulsion (c : Ctx) (r : VR) (x : VReg) : (c.wv r x).emulsion = c.emulsion := rfl
@[simp] theorem Ctx.wv_spools (c : Ctx) (r : VR) (x : VReg) : (c.wv r x).spools = c.spools := rfl
@[simp] theorem Ctx.wv_cflags (c : Ctx) (r : VR) (x : VReg) : (c.wv r x).cflags = c.cflags := rfl
@[simp] theorem Ctx.wv_issues (c : Ctx) (r : VR) (x : VReg) : (c.wv r x).issues = c.issues := rfl
@[simp] theorem Ctx.wv_sinceQuiet (c : Ctx) (r : VR) (x : VReg) : (c.wv r x).sinceQuiet = c.sinceQuiet := rfl
@[simp] theorem Ctx.wv_quiet (c : Ctx) (r : VR) (x : VReg) : (c.wv r x).quiet = c.quiet := rfl
@[simp] theorem Ctx.wv_saveU (c : Ctx) (r : VR) (x : VReg) : (c.wv r x).saveU = c.saveU := rfl
@[simp] theorem Ctx.wv_saveS (c : Ctx) (r : VR) (x : VReg) : (c.wv r x).saveS = c.saveS := rfl
@[simp] theorem Ctx.wv_failures (c : Ctx) (r : VR) (x : VReg) : (c.wv r x).failures = c.failures := rfl
@[simp] theorem Ctx.wv_reports (c : Ctx) (r : VR) (x : VReg) : (c.wv r x).reports = c.reports := rfl
@[simp] theorem Ctx.wv_waiting (c : Ctx) (r : VR) (x : VReg) : (c.wv r x).waiting = c.waiting := rfl
@[simp] theorem Ctx.wv_held (c : Ctx) (r : VR) (x : VReg) : (c.wv r x).held = c.held := rfl
@[simp] theorem Ctx.wv_yielded (c : Ctx) (r : VR) (x : VReg) : (c.wv r x).yielded = c.yielded := rfl
@[simp] theorem Ctx.wv_eval (c : Ctx) (r : VR) (x : VReg) : (c.wv r x).eval = c.eval := rfl
@[simp] theorem Ctx.wv_preempt (c : Ctx) (r : VR) (x : VReg) : (c.wv r x).preempt = c.preempt := rfl
@[simp] theorem Ctx.wv_fw (c : Ctx) (r : VR) (x : VReg) : (c.wv r x).fw = c.fw := rfl
@[simp] theorem Ctx.wv_mwait (c : Ctx) (r : VR) (x : VReg) : (c.wv r x).mwait = c.mwait := rfl
@[simp] theorem Ctx.wv_mact (c : Ctx) (r : VR) (x : VReg) : (c.wv r x).mact = c.mact := rfl
@[simp] theorem Ctx.wv_bad (c : Ctx) (r : VR) (x : VReg) : (c.wv r x).bad = c.bad := rfl
@[simp] theorem Ctx.wv_corr (c : Ctx) (r : VR) (x : VReg) : (c.wv r x).corr = c.corr := rfl

@[simp] theorem Ctx.wa_phase (c : Ctx) (r : AR) (x : Walker) : (c.wa r x).phase = c.phase := rfl
@[simp] theorem Ctx.wa_rank (c : Ctx) (r : AR) (x : Walker) : (c.wa r x).rank = c.rank := rfl
@[simp] theorem Ctx.wa_launch (c : Ctx) (r : AR) (x : Walker) : (c.wa r x).launch = c.launch := rfl
@[simp] theorem Ctx.wa_place (c : Ctx) (r : AR) (x : Walker) : (c.wa r x).place = c.place := rfl
@[simp] theorem Ctx.wa_kernel (c : Ctx) (r : AR) (x : Walker) : (c.wa r x).kernel = c.kernel := rfl
@[simp] theorem Ctx.wa_g (c : Ctx) (r : AR) (x : Walker) : (c.wa r x).g = c.g := rfl
@[simp] theorem Ctx.wa_v (c : Ctx) (r : AR) (x : Walker) : (c.wa r x).v = c.v := rfl
@[simp] theorem Ctx.wa_p (c : Ctx) (r : AR) (x : Walker) : (c.wa r x).p = c.p := rfl
@[simp] theorem Ctx.wa_q (c : Ctx) (r : AR) (x : Walker) : (c.wa r x).q = c.q := rfl
@[simp] theorem Ctx.wa_x (c : Ctx) (r : AR) (x : Walker) : (c.wa r x).x = c.x := rfl
@[simp] theorem Ctx.wa_pc (c : Ctx) (r : AR) (x : Walker) : (c.wa r x).pc = c.pc := rfl
@[simp] theorem Ctx.wa_step (c : Ctx) (r : AR) (x : Walker) : (c.wa r x).step = c.step := rfl
@[simp] theorem Ctx.wa_rpos (c : Ctx) (r : AR) (x : Walker) : (c.wa r x).rpos = c.rpos := rfl
@[simp] theorem Ctx.wa_sres (c : Ctx) (r : AR) (x : Walker) : (c.wa r x).sres = c.sres := rfl
@[simp] theorem Ctx.wa_status (c : Ctx) (r : AR) (x : Walker) : (c.wa r x).status = c.status := rfl
@[simp] theorem Ctx.wa_faddr (c : Ctx) (r : AR) (x : Walker) : (c.wa r x).faddr = c.faddr := rfl
@[simp] theorem Ctx.wa_epc (c : Ctx) (r : AR) (x : Walker) : (c.wa r x).epc = c.epc := rfl
@[simp] theorem Ctx.wa_flags (c : Ctx) (r : AR) (x : Walker) : (c.wa r x).flags = c.flags := rfl
@[simp] theorem Ctx.wa_ord (c : Ctx) (r : AR) (x : Walker) : (c.wa r x).ord = c.ord := rfl
@[simp] theorem Ctx.wa_ctxid (c : Ctx) (r : AR) (x : Walker) : (c.wa r x).ctxid = c.ctxid := rfl
@[simp] theorem Ctx.wa_nctx (c : Ctx) (r : AR) (x : Walker) : (c.wa r x).nctx = c.nctx := rfl
@[simp] theorem Ctx.wa_cutcount (c : Ctx) (r : AR) (x : Walker) : (c.wa r x).cutcount = c.cutcount := rfl
@[simp] theorem Ctx.wa_msave (c : Ctx) (r : AR) (x : Walker) : (c.wa r x).msave = c.msave := rfl
@[simp] theorem Ctx.wa_rngkey (c : Ctx) (r : AR) (x : Walker) : (c.wa r x).rngkey = c.rngkey := rfl
@[simp] theorem Ctx.wa_rngctr (c : Ctx) (r : AR) (x : Walker) : (c.wa r x).rngctr = c.rngctr := rfl
@[simp] theorem Ctx.wa_inflight (c : Ctx) (r : AR) (x : Walker) : (c.wa r x).inflight = c.inflight := rfl
@[simp] theorem Ctx.wa_sticky (c : Ctx) (r : AR) (x : Walker) : (c.wa r x).sticky = c.sticky := rfl
@[simp] theorem Ctx.wa_loops (c : Ctx) (r : AR) (x : Walker) : (c.wa r x).loops = c.loops := rfl
@[simp] theorem Ctx.wa_loopbuf (c : Ctx) (r : AR) (x : Walker) : (c.wa r x).loopbuf = c.loopbuf := rfl
@[simp] theorem Ctx.wa_arming (c : Ctx) (r : AR) (x : Walker) : (c.wa r x).arming = c.arming := rfl
@[simp] theorem Ctx.wa_strides (c : Ctx) (r : AR) (x : Walker) : (c.wa r x).strides = c.strides := rfl
@[simp] theorem Ctx.wa_ld (c : Ctx) (r : AR) (x : Walker) : (c.wa r x).ld = c.ld := rfl
@[simp] theorem Ctx.wa_st (c : Ctx) (r : AR) (x : Walker) : (c.wa r x).st = c.st := rfl
@[simp] theorem Ctx.wa_cp (c : Ctx) (r : AR) (x : Walker) : (c.wa r x).cp = c.cp := rfl
@[simp] theorem Ctx.wa_tl (c : Ctx) (r : AR) (x : Walker) : (c.wa r x).tl = c.tl := rfl
@[simp] theorem Ctx.wa_window (c : Ctx) (r : AR) (x : Walker) : (c.wa r x).window = c.window := rfl
@[simp] theorem Ctx.wa_emulsion (c : Ctx) (r : AR) (x : Walker) : (c.wa r x).emulsion = c.emulsion := rfl
@[simp] theorem Ctx.wa_spools (c : Ctx) (r : AR) (x : Walker) : (c.wa r x).spools = c.spools := rfl
@[simp] theorem Ctx.wa_cflags (c : Ctx) (r : AR) (x : Walker) : (c.wa r x).cflags = c.cflags := rfl
@[simp] theorem Ctx.wa_issues (c : Ctx) (r : AR) (x : Walker) : (c.wa r x).issues = c.issues := rfl
@[simp] theorem Ctx.wa_sinceQuiet (c : Ctx) (r : AR) (x : Walker) : (c.wa r x).sinceQuiet = c.sinceQuiet := rfl
@[simp] theorem Ctx.wa_quiet (c : Ctx) (r : AR) (x : Walker) : (c.wa r x).quiet = c.quiet := rfl
@[simp] theorem Ctx.wa_saveU (c : Ctx) (r : AR) (x : Walker) : (c.wa r x).saveU = c.saveU := rfl
@[simp] theorem Ctx.wa_saveS (c : Ctx) (r : AR) (x : Walker) : (c.wa r x).saveS = c.saveS := rfl
@[simp] theorem Ctx.wa_failures (c : Ctx) (r : AR) (x : Walker) : (c.wa r x).failures = c.failures := rfl
@[simp] theorem Ctx.wa_reports (c : Ctx) (r : AR) (x : Walker) : (c.wa r x).reports = c.reports := rfl
@[simp] theorem Ctx.wa_waiting (c : Ctx) (r : AR) (x : Walker) : (c.wa r x).waiting = c.waiting := rfl
@[simp] theorem Ctx.wa_held (c : Ctx) (r : AR) (x : Walker) : (c.wa r x).held = c.held := rfl
@[simp] theorem Ctx.wa_yielded (c : Ctx) (r : AR) (x : Walker) : (c.wa r x).yielded = c.yielded := rfl
@[simp] theorem Ctx.wa_eval (c : Ctx) (r : AR) (x : Walker) : (c.wa r x).eval = c.eval := rfl
@[simp] theorem Ctx.wa_preempt (c : Ctx) (r : AR) (x : Walker) : (c.wa r x).preempt = c.preempt := rfl
@[simp] theorem Ctx.wa_fw (c : Ctx) (r : AR) (x : Walker) : (c.wa r x).fw = c.fw := rfl
@[simp] theorem Ctx.wa_mwait (c : Ctx) (r : AR) (x : Walker) : (c.wa r x).mwait = c.mwait := rfl
@[simp] theorem Ctx.wa_mact (c : Ctx) (r : AR) (x : Walker) : (c.wa r x).mact = c.mact := rfl
@[simp] theorem Ctx.wa_bad (c : Ctx) (r : AR) (x : Walker) : (c.wa r x).bad = c.bad := rfl
@[simp] theorem Ctx.wa_corr (c : Ctx) (r : AR) (x : Walker) : (c.wa r x).corr = c.corr := rfl

@[simp] theorem Ctx.wx_phase (c : Ctx) (r : XR) (x : XReg) : (c.wx r x).phase = c.phase := rfl
@[simp] theorem Ctx.wx_rank (c : Ctx) (r : XR) (x : XReg) : (c.wx r x).rank = c.rank := rfl
@[simp] theorem Ctx.wx_launch (c : Ctx) (r : XR) (x : XReg) : (c.wx r x).launch = c.launch := rfl
@[simp] theorem Ctx.wx_place (c : Ctx) (r : XR) (x : XReg) : (c.wx r x).place = c.place := rfl
@[simp] theorem Ctx.wx_kernel (c : Ctx) (r : XR) (x : XReg) : (c.wx r x).kernel = c.kernel := rfl
@[simp] theorem Ctx.wx_g (c : Ctx) (r : XR) (x : XReg) : (c.wx r x).g = c.g := rfl
@[simp] theorem Ctx.wx_a (c : Ctx) (r : XR) (x : XReg) : (c.wx r x).a = c.a := rfl
@[simp] theorem Ctx.wx_v (c : Ctx) (r : XR) (x : XReg) : (c.wx r x).v = c.v := rfl
@[simp] theorem Ctx.wx_p (c : Ctx) (r : XR) (x : XReg) : (c.wx r x).p = c.p := rfl
@[simp] theorem Ctx.wx_q (c : Ctx) (r : XR) (x : XReg) : (c.wx r x).q = c.q := rfl
@[simp] theorem Ctx.wx_pc (c : Ctx) (r : XR) (x : XReg) : (c.wx r x).pc = c.pc := rfl
@[simp] theorem Ctx.wx_step (c : Ctx) (r : XR) (x : XReg) : (c.wx r x).step = c.step := rfl
@[simp] theorem Ctx.wx_rpos (c : Ctx) (r : XR) (x : XReg) : (c.wx r x).rpos = c.rpos := rfl
@[simp] theorem Ctx.wx_sres (c : Ctx) (r : XR) (x : XReg) : (c.wx r x).sres = c.sres := rfl
@[simp] theorem Ctx.wx_status (c : Ctx) (r : XR) (x : XReg) : (c.wx r x).status = c.status := rfl
@[simp] theorem Ctx.wx_faddr (c : Ctx) (r : XR) (x : XReg) : (c.wx r x).faddr = c.faddr := rfl
@[simp] theorem Ctx.wx_epc (c : Ctx) (r : XR) (x : XReg) : (c.wx r x).epc = c.epc := rfl
@[simp] theorem Ctx.wx_flags (c : Ctx) (r : XR) (x : XReg) : (c.wx r x).flags = c.flags := rfl
@[simp] theorem Ctx.wx_ord (c : Ctx) (r : XR) (x : XReg) : (c.wx r x).ord = c.ord := rfl
@[simp] theorem Ctx.wx_ctxid (c : Ctx) (r : XR) (x : XReg) : (c.wx r x).ctxid = c.ctxid := rfl
@[simp] theorem Ctx.wx_nctx (c : Ctx) (r : XR) (x : XReg) : (c.wx r x).nctx = c.nctx := rfl
@[simp] theorem Ctx.wx_cutcount (c : Ctx) (r : XR) (x : XReg) : (c.wx r x).cutcount = c.cutcount := rfl
@[simp] theorem Ctx.wx_msave (c : Ctx) (r : XR) (x : XReg) : (c.wx r x).msave = c.msave := rfl
@[simp] theorem Ctx.wx_rngkey (c : Ctx) (r : XR) (x : XReg) : (c.wx r x).rngkey = c.rngkey := rfl
@[simp] theorem Ctx.wx_rngctr (c : Ctx) (r : XR) (x : XReg) : (c.wx r x).rngctr = c.rngctr := rfl
@[simp] theorem Ctx.wx_inflight (c : Ctx) (r : XR) (x : XReg) : (c.wx r x).inflight = c.inflight := rfl
@[simp] theorem Ctx.wx_sticky (c : Ctx) (r : XR) (x : XReg) : (c.wx r x).sticky = c.sticky := rfl
@[simp] theorem Ctx.wx_loops (c : Ctx) (r : XR) (x : XReg) : (c.wx r x).loops = c.loops := rfl
@[simp] theorem Ctx.wx_loopbuf (c : Ctx) (r : XR) (x : XReg) : (c.wx r x).loopbuf = c.loopbuf := rfl
@[simp] theorem Ctx.wx_arming (c : Ctx) (r : XR) (x : XReg) : (c.wx r x).arming = c.arming := rfl
@[simp] theorem Ctx.wx_strides (c : Ctx) (r : XR) (x : XReg) : (c.wx r x).strides = c.strides := rfl
@[simp] theorem Ctx.wx_ld (c : Ctx) (r : XR) (x : XReg) : (c.wx r x).ld = c.ld := rfl
@[simp] theorem Ctx.wx_st (c : Ctx) (r : XR) (x : XReg) : (c.wx r x).st = c.st := rfl
@[simp] theorem Ctx.wx_cp (c : Ctx) (r : XR) (x : XReg) : (c.wx r x).cp = c.cp := rfl
@[simp] theorem Ctx.wx_tl (c : Ctx) (r : XR) (x : XReg) : (c.wx r x).tl = c.tl := rfl
@[simp] theorem Ctx.wx_window (c : Ctx) (r : XR) (x : XReg) : (c.wx r x).window = c.window := rfl
@[simp] theorem Ctx.wx_emulsion (c : Ctx) (r : XR) (x : XReg) : (c.wx r x).emulsion = c.emulsion := rfl
@[simp] theorem Ctx.wx_spools (c : Ctx) (r : XR) (x : XReg) : (c.wx r x).spools = c.spools := rfl
@[simp] theorem Ctx.wx_cflags (c : Ctx) (r : XR) (x : XReg) : (c.wx r x).cflags = c.cflags := rfl
@[simp] theorem Ctx.wx_issues (c : Ctx) (r : XR) (x : XReg) : (c.wx r x).issues = c.issues := rfl
@[simp] theorem Ctx.wx_sinceQuiet (c : Ctx) (r : XR) (x : XReg) : (c.wx r x).sinceQuiet = c.sinceQuiet := rfl
@[simp] theorem Ctx.wx_quiet (c : Ctx) (r : XR) (x : XReg) : (c.wx r x).quiet = c.quiet := rfl
@[simp] theorem Ctx.wx_saveU (c : Ctx) (r : XR) (x : XReg) : (c.wx r x).saveU = c.saveU := rfl
@[simp] theorem Ctx.wx_saveS (c : Ctx) (r : XR) (x : XReg) : (c.wx r x).saveS = c.saveS := rfl
@[simp] theorem Ctx.wx_failures (c : Ctx) (r : XR) (x : XReg) : (c.wx r x).failures = c.failures := rfl
@[simp] theorem Ctx.wx_reports (c : Ctx) (r : XR) (x : XReg) : (c.wx r x).reports = c.reports := rfl
@[simp] theorem Ctx.wx_waiting (c : Ctx) (r : XR) (x : XReg) : (c.wx r x).waiting = c.waiting := rfl
@[simp] theorem Ctx.wx_held (c : Ctx) (r : XR) (x : XReg) : (c.wx r x).held = c.held := rfl
@[simp] theorem Ctx.wx_yielded (c : Ctx) (r : XR) (x : XReg) : (c.wx r x).yielded = c.yielded := rfl
@[simp] theorem Ctx.wx_eval (c : Ctx) (r : XR) (x : XReg) : (c.wx r x).eval = c.eval := rfl
@[simp] theorem Ctx.wx_preempt (c : Ctx) (r : XR) (x : XReg) : (c.wx r x).preempt = c.preempt := rfl
@[simp] theorem Ctx.wx_fw (c : Ctx) (r : XR) (x : XReg) : (c.wx r x).fw = c.fw := rfl
@[simp] theorem Ctx.wx_mwait (c : Ctx) (r : XR) (x : XReg) : (c.wx r x).mwait = c.mwait := rfl
@[simp] theorem Ctx.wx_mact (c : Ctx) (r : XR) (x : XReg) : (c.wx r x).mact = c.mact := rfl
@[simp] theorem Ctx.wx_bad (c : Ctx) (r : XR) (x : XReg) : (c.wx r x).bad = c.bad := rfl
@[simp] theorem Ctx.wx_corr (c : Ctx) (r : XR) (x : XReg) : (c.wx r x).corr = c.corr := rfl

@[simp] theorem Ctx.countUp_phase (c : Ctx) (k : Cls) (i : Nat) : (c.countUp k i).phase = c.phase := by cases k <;> rfl
@[simp] theorem Ctx.countUp_rank (c : Ctx) (k : Cls) (i : Nat) : (c.countUp k i).rank = c.rank := by cases k <;> rfl
@[simp] theorem Ctx.countUp_launch (c : Ctx) (k : Cls) (i : Nat) : (c.countUp k i).launch = c.launch := by cases k <;> rfl
@[simp] theorem Ctx.countUp_place (c : Ctx) (k : Cls) (i : Nat) : (c.countUp k i).place = c.place := by cases k <;> rfl
@[simp] theorem Ctx.countUp_kernel (c : Ctx) (k : Cls) (i : Nat) : (c.countUp k i).kernel = c.kernel := by cases k <;> rfl
@[simp] theorem Ctx.countUp_g (c : Ctx) (k : Cls) (i : Nat) : (c.countUp k i).g = c.g := by cases k <;> rfl
@[simp] theorem Ctx.countUp_a (c : Ctx) (k : Cls) (i : Nat) : (c.countUp k i).a = c.a := by cases k <;> rfl
@[simp] theorem Ctx.countUp_v (c : Ctx) (k : Cls) (i : Nat) : (c.countUp k i).v = c.v := by cases k <;> rfl
@[simp] theorem Ctx.countUp_p (c : Ctx) (k : Cls) (i : Nat) : (c.countUp k i).p = c.p := by cases k <;> rfl
@[simp] theorem Ctx.countUp_q (c : Ctx) (k : Cls) (i : Nat) : (c.countUp k i).q = c.q := by cases k <;> rfl
@[simp] theorem Ctx.countUp_x (c : Ctx) (k : Cls) (i : Nat) : (c.countUp k i).x = c.x := by cases k <;> rfl
@[simp] theorem Ctx.countUp_pc (c : Ctx) (k : Cls) (i : Nat) : (c.countUp k i).pc = c.pc := by cases k <;> rfl
@[simp] theorem Ctx.countUp_step (c : Ctx) (k : Cls) (i : Nat) : (c.countUp k i).step = c.step := by cases k <;> rfl
@[simp] theorem Ctx.countUp_rpos (c : Ctx) (k : Cls) (i : Nat) : (c.countUp k i).rpos = c.rpos := by cases k <;> rfl
@[simp] theorem Ctx.countUp_sres (c : Ctx) (k : Cls) (i : Nat) : (c.countUp k i).sres = c.sres := by cases k <;> rfl
@[simp] theorem Ctx.countUp_status (c : Ctx) (k : Cls) (i : Nat) : (c.countUp k i).status = c.status := by cases k <;> rfl
@[simp] theorem Ctx.countUp_faddr (c : Ctx) (k : Cls) (i : Nat) : (c.countUp k i).faddr = c.faddr := by cases k <;> rfl
@[simp] theorem Ctx.countUp_epc (c : Ctx) (k : Cls) (i : Nat) : (c.countUp k i).epc = c.epc := by cases k <;> rfl
@[simp] theorem Ctx.countUp_flags (c : Ctx) (k : Cls) (i : Nat) : (c.countUp k i).flags = c.flags := by cases k <;> rfl
@[simp] theorem Ctx.countUp_ord (c : Ctx) (k : Cls) (i : Nat) : (c.countUp k i).ord = c.ord := by cases k <;> rfl
@[simp] theorem Ctx.countUp_ctxid (c : Ctx) (k : Cls) (i : Nat) : (c.countUp k i).ctxid = c.ctxid := by cases k <;> rfl
@[simp] theorem Ctx.countUp_nctx (c : Ctx) (k : Cls) (i : Nat) : (c.countUp k i).nctx = c.nctx := by cases k <;> rfl
@[simp] theorem Ctx.countUp_cutcount (c : Ctx) (k : Cls) (i : Nat) : (c.countUp k i).cutcount = c.cutcount := by cases k <;> rfl
@[simp] theorem Ctx.countUp_msave (c : Ctx) (k : Cls) (i : Nat) : (c.countUp k i).msave = c.msave := by cases k <;> rfl
@[simp] theorem Ctx.countUp_rngkey (c : Ctx) (k : Cls) (i : Nat) : (c.countUp k i).rngkey = c.rngkey := by cases k <;> rfl
@[simp] theorem Ctx.countUp_rngctr (c : Ctx) (k : Cls) (i : Nat) : (c.countUp k i).rngctr = c.rngctr := by cases k <;> rfl
@[simp] theorem Ctx.countUp_inflight (c : Ctx) (k : Cls) (i : Nat) : (c.countUp k i).inflight = c.inflight := by cases k <;> rfl
@[simp] theorem Ctx.countUp_sticky (c : Ctx) (k : Cls) (i : Nat) : (c.countUp k i).sticky = c.sticky := by cases k <;> rfl
@[simp] theorem Ctx.countUp_loops (c : Ctx) (k : Cls) (i : Nat) : (c.countUp k i).loops = c.loops := by cases k <;> rfl
@[simp] theorem Ctx.countUp_loopbuf (c : Ctx) (k : Cls) (i : Nat) : (c.countUp k i).loopbuf = c.loopbuf := by cases k <;> rfl
@[simp] theorem Ctx.countUp_arming (c : Ctx) (k : Cls) (i : Nat) : (c.countUp k i).arming = c.arming := by cases k <;> rfl
@[simp] theorem Ctx.countUp_strides (c : Ctx) (k : Cls) (i : Nat) : (c.countUp k i).strides = c.strides := by cases k <;> rfl
@[simp] theorem Ctx.countUp_window (c : Ctx) (k : Cls) (i : Nat) : (c.countUp k i).window = c.window := by cases k <;> rfl
@[simp] theorem Ctx.countUp_emulsion (c : Ctx) (k : Cls) (i : Nat) : (c.countUp k i).emulsion = c.emulsion := by cases k <;> rfl
@[simp] theorem Ctx.countUp_spools (c : Ctx) (k : Cls) (i : Nat) : (c.countUp k i).spools = c.spools := by cases k <;> rfl
@[simp] theorem Ctx.countUp_cflags (c : Ctx) (k : Cls) (i : Nat) : (c.countUp k i).cflags = c.cflags := by cases k <;> rfl
@[simp] theorem Ctx.countUp_issues (c : Ctx) (k : Cls) (i : Nat) : (c.countUp k i).issues = c.issues := by cases k <;> rfl
@[simp] theorem Ctx.countUp_sinceQuiet (c : Ctx) (k : Cls) (i : Nat) : (c.countUp k i).sinceQuiet = c.sinceQuiet := by cases k <;> rfl
@[simp] theorem Ctx.countUp_quiet (c : Ctx) (k : Cls) (i : Nat) : (c.countUp k i).quiet = c.quiet := by cases k <;> rfl
@[simp] theorem Ctx.countUp_saveU (c : Ctx) (k : Cls) (i : Nat) : (c.countUp k i).saveU = c.saveU := by cases k <;> rfl
@[simp] theorem Ctx.countUp_saveS (c : Ctx) (k : Cls) (i : Nat) : (c.countUp k i).saveS = c.saveS := by cases k <;> rfl
@[simp] theorem Ctx.countUp_failures (c : Ctx) (k : Cls) (i : Nat) : (c.countUp k i).failures = c.failures := by cases k <;> rfl
@[simp] theorem Ctx.countUp_reports (c : Ctx) (k : Cls) (i : Nat) : (c.countUp k i).reports = c.reports := by cases k <;> rfl
@[simp] theorem Ctx.countUp_waiting (c : Ctx) (k : Cls) (i : Nat) : (c.countUp k i).waiting = c.waiting := by cases k <;> rfl
@[simp] theorem Ctx.countUp_held (c : Ctx) (k : Cls) (i : Nat) : (c.countUp k i).held = c.held := by cases k <;> rfl
@[simp] theorem Ctx.countUp_yielded (c : Ctx) (k : Cls) (i : Nat) : (c.countUp k i).yielded = c.yielded := by cases k <;> rfl
@[simp] theorem Ctx.countUp_eval (c : Ctx) (k : Cls) (i : Nat) : (c.countUp k i).eval = c.eval := by cases k <;> rfl
@[simp] theorem Ctx.countUp_preempt (c : Ctx) (k : Cls) (i : Nat) : (c.countUp k i).preempt = c.preempt := by cases k <;> rfl
@[simp] theorem Ctx.countUp_fw (c : Ctx) (k : Cls) (i : Nat) : (c.countUp k i).fw = c.fw := by cases k <;> rfl
@[simp] theorem Ctx.countUp_mwait (c : Ctx) (k : Cls) (i : Nat) : (c.countUp k i).mwait = c.mwait := by cases k <;> rfl
@[simp] theorem Ctx.countUp_mact (c : Ctx) (k : Cls) (i : Nat) : (c.countUp k i).mact = c.mact := by cases k <;> rfl
@[simp] theorem Ctx.countUp_bad (c : Ctx) (k : Cls) (i : Nat) : (c.countUp k i).bad = c.bad := by cases k <;> rfl
@[simp] theorem Ctx.countUp_corr (c : Ctx) (k : Cls) (i : Nat) : (c.countUp k i).corr = c.corr := by cases k <;> rfl

@[simp] theorem Ctx.countDown_phase (c : Ctx) (k : Cls) (i : Nat) : (c.countDown k i).phase = c.phase := by cases k <;> rfl
@[simp] theorem Ctx.countDown_rank (c : Ctx) (k : Cls) (i : Nat) : (c.countDown k i).rank = c.rank := by cases k <;> rfl
@[simp] theorem Ctx.countDown_launch (c : Ctx) (k : Cls) (i : Nat) : (c.countDown k i).launch = c.launch := by cases k <;> rfl
@[simp] theorem Ctx.countDown_place (c : Ctx) (k : Cls) (i : Nat) : (c.countDown k i).place = c.place := by cases k <;> rfl
@[simp] theorem Ctx.countDown_kernel (c : Ctx) (k : Cls) (i : Nat) : (c.countDown k i).kernel = c.kernel := by cases k <;> rfl
@[simp] theorem Ctx.countDown_g (c : Ctx) (k : Cls) (i : Nat) : (c.countDown k i).g = c.g := by cases k <;> rfl
@[simp] theorem Ctx.countDown_a (c : Ctx) (k : Cls) (i : Nat) : (c.countDown k i).a = c.a := by cases k <;> rfl
@[simp] theorem Ctx.countDown_v (c : Ctx) (k : Cls) (i : Nat) : (c.countDown k i).v = c.v := by cases k <;> rfl
@[simp] theorem Ctx.countDown_p (c : Ctx) (k : Cls) (i : Nat) : (c.countDown k i).p = c.p := by cases k <;> rfl
@[simp] theorem Ctx.countDown_q (c : Ctx) (k : Cls) (i : Nat) : (c.countDown k i).q = c.q := by cases k <;> rfl
@[simp] theorem Ctx.countDown_x (c : Ctx) (k : Cls) (i : Nat) : (c.countDown k i).x = c.x := by cases k <;> rfl
@[simp] theorem Ctx.countDown_pc (c : Ctx) (k : Cls) (i : Nat) : (c.countDown k i).pc = c.pc := by cases k <;> rfl
@[simp] theorem Ctx.countDown_step (c : Ctx) (k : Cls) (i : Nat) : (c.countDown k i).step = c.step := by cases k <;> rfl
@[simp] theorem Ctx.countDown_rpos (c : Ctx) (k : Cls) (i : Nat) : (c.countDown k i).rpos = c.rpos := by cases k <;> rfl
@[simp] theorem Ctx.countDown_sres (c : Ctx) (k : Cls) (i : Nat) : (c.countDown k i).sres = c.sres := by cases k <;> rfl
@[simp] theorem Ctx.countDown_status (c : Ctx) (k : Cls) (i : Nat) : (c.countDown k i).status = c.status := by cases k <;> rfl
@[simp] theorem Ctx.countDown_faddr (c : Ctx) (k : Cls) (i : Nat) : (c.countDown k i).faddr = c.faddr := by cases k <;> rfl
@[simp] theorem Ctx.countDown_epc (c : Ctx) (k : Cls) (i : Nat) : (c.countDown k i).epc = c.epc := by cases k <;> rfl
@[simp] theorem Ctx.countDown_flags (c : Ctx) (k : Cls) (i : Nat) : (c.countDown k i).flags = c.flags := by cases k <;> rfl
@[simp] theorem Ctx.countDown_ord (c : Ctx) (k : Cls) (i : Nat) : (c.countDown k i).ord = c.ord := by cases k <;> rfl
@[simp] theorem Ctx.countDown_ctxid (c : Ctx) (k : Cls) (i : Nat) : (c.countDown k i).ctxid = c.ctxid := by cases k <;> rfl
@[simp] theorem Ctx.countDown_nctx (c : Ctx) (k : Cls) (i : Nat) : (c.countDown k i).nctx = c.nctx := by cases k <;> rfl
@[simp] theorem Ctx.countDown_cutcount (c : Ctx) (k : Cls) (i : Nat) : (c.countDown k i).cutcount = c.cutcount := by cases k <;> rfl
@[simp] theorem Ctx.countDown_msave (c : Ctx) (k : Cls) (i : Nat) : (c.countDown k i).msave = c.msave := by cases k <;> rfl
@[simp] theorem Ctx.countDown_rngkey (c : Ctx) (k : Cls) (i : Nat) : (c.countDown k i).rngkey = c.rngkey := by cases k <;> rfl
@[simp] theorem Ctx.countDown_rngctr (c : Ctx) (k : Cls) (i : Nat) : (c.countDown k i).rngctr = c.rngctr := by cases k <;> rfl
@[simp] theorem Ctx.countDown_inflight (c : Ctx) (k : Cls) (i : Nat) : (c.countDown k i).inflight = c.inflight := by cases k <;> rfl
@[simp] theorem Ctx.countDown_sticky (c : Ctx) (k : Cls) (i : Nat) : (c.countDown k i).sticky = c.sticky := by cases k <;> rfl
@[simp] theorem Ctx.countDown_loops (c : Ctx) (k : Cls) (i : Nat) : (c.countDown k i).loops = c.loops := by cases k <;> rfl
@[simp] theorem Ctx.countDown_loopbuf (c : Ctx) (k : Cls) (i : Nat) : (c.countDown k i).loopbuf = c.loopbuf := by cases k <;> rfl
@[simp] theorem Ctx.countDown_arming (c : Ctx) (k : Cls) (i : Nat) : (c.countDown k i).arming = c.arming := by cases k <;> rfl
@[simp] theorem Ctx.countDown_strides (c : Ctx) (k : Cls) (i : Nat) : (c.countDown k i).strides = c.strides := by cases k <;> rfl
@[simp] theorem Ctx.countDown_window (c : Ctx) (k : Cls) (i : Nat) : (c.countDown k i).window = c.window := by cases k <;> rfl
@[simp] theorem Ctx.countDown_emulsion (c : Ctx) (k : Cls) (i : Nat) : (c.countDown k i).emulsion = c.emulsion := by cases k <;> rfl
@[simp] theorem Ctx.countDown_spools (c : Ctx) (k : Cls) (i : Nat) : (c.countDown k i).spools = c.spools := by cases k <;> rfl
@[simp] theorem Ctx.countDown_cflags (c : Ctx) (k : Cls) (i : Nat) : (c.countDown k i).cflags = c.cflags := by cases k <;> rfl
@[simp] theorem Ctx.countDown_issues (c : Ctx) (k : Cls) (i : Nat) : (c.countDown k i).issues = c.issues := by cases k <;> rfl
@[simp] theorem Ctx.countDown_sinceQuiet (c : Ctx) (k : Cls) (i : Nat) : (c.countDown k i).sinceQuiet = c.sinceQuiet := by cases k <;> rfl
@[simp] theorem Ctx.countDown_quiet (c : Ctx) (k : Cls) (i : Nat) : (c.countDown k i).quiet = c.quiet := by cases k <;> rfl
@[simp] theorem Ctx.countDown_saveU (c : Ctx) (k : Cls) (i : Nat) : (c.countDown k i).saveU = c.saveU := by cases k <;> rfl
@[simp] theorem Ctx.countDown_saveS (c : Ctx) (k : Cls) (i : Nat) : (c.countDown k i).saveS = c.saveS := by cases k <;> rfl
@[simp] theorem Ctx.countDown_failures (c : Ctx) (k : Cls) (i : Nat) : (c.countDown k i).failures = c.failures := by cases k <;> rfl
@[simp] theorem Ctx.countDown_reports (c : Ctx) (k : Cls) (i : Nat) : (c.countDown k i).reports = c.reports := by cases k <;> rfl
@[simp] theorem Ctx.countDown_waiting (c : Ctx) (k : Cls) (i : Nat) : (c.countDown k i).waiting = c.waiting := by cases k <;> rfl
@[simp] theorem Ctx.countDown_held (c : Ctx) (k : Cls) (i : Nat) : (c.countDown k i).held = c.held := by cases k <;> rfl
@[simp] theorem Ctx.countDown_yielded (c : Ctx) (k : Cls) (i : Nat) : (c.countDown k i).yielded = c.yielded := by cases k <;> rfl
@[simp] theorem Ctx.countDown_eval (c : Ctx) (k : Cls) (i : Nat) : (c.countDown k i).eval = c.eval := by cases k <;> rfl
@[simp] theorem Ctx.countDown_preempt (c : Ctx) (k : Cls) (i : Nat) : (c.countDown k i).preempt = c.preempt := by cases k <;> rfl
@[simp] theorem Ctx.countDown_fw (c : Ctx) (k : Cls) (i : Nat) : (c.countDown k i).fw = c.fw := by cases k <;> rfl
@[simp] theorem Ctx.countDown_mwait (c : Ctx) (k : Cls) (i : Nat) : (c.countDown k i).mwait = c.mwait := by cases k <;> rfl
@[simp] theorem Ctx.countDown_mact (c : Ctx) (k : Cls) (i : Nat) : (c.countDown k i).mact = c.mact := by cases k <;> rfl
@[simp] theorem Ctx.countDown_bad (c : Ctx) (k : Cls) (i : Nat) : (c.countDown k i).bad = c.bad := by cases k <;> rfl
@[simp] theorem Ctx.countDown_corr (c : Ctx) (k : Cls) (i : Nat) : (c.countDown k i).corr = c.corr := by cases k <;> rfl

end Sys2Proof.Machine
end

