-- ==== Sys2Proof/Laws/Tables.lean ====
section
/-! SUPPORT. Laws/Tables.lean: reading a table after a write, and what that says of contexts, cores, ranks, virtual functions and registers. -/

namespace Sys2Proof.Machine

/-! ### Tables -/

@[simp] theorem tabGet_nil {α : Type} (k : Nat) : tabGet ([] : Tab α) k = none := rfl

theorem tabGet_cons {α : Type} (j : Nat) (x : α) (l : Tab α) (k : Nat) : tabGet ((j, x) :: l) k = if j = k then some x else tabGet l k := rfl

@[simp] theorem tabGet_tabSet_self {α : Type} (t : Tab α) (k : Nat) (x : α) : tabGet (tabSet t k x) k = some x := by
  induction t with
  | nil => simp [tabSet, tabGet_cons]
  | cons e l ih =>
    obtain ⟨j, y⟩ := e
    unfold tabSet
    split
    · simp [tabGet_cons]
    · split
      · simp [tabGet_cons]
      · next h => simp [tabGet_cons, ih, Ne.symm h]

theorem tabGet_tabSet_other {α : Type} (t : Tab α) (k j : Nat) (x : α) (h : j ≠ k) : tabGet (tabSet t k x) j = tabGet t j := by
  induction t with
  | nil => simp [tabSet, tabGet_cons, Ne.symm h]
  | cons e l ih =>
    obtain ⟨i, y⟩ := e
    unfold tabSet
    split
    · simp [tabGet_cons, Ne.symm h]
    · split
      · next hk => subst hk; simp [tabGet_cons, Ne.symm h]
      · simp [tabGet_cons, ih]

/-- Reading a table after a write: the entry written at its key, the old entries elsewhere. -/
theorem tabGet_tabSet {α : Type} (t : Tab α) (k j : Nat) (x : α) : tabGet (tabSet t k x) j = if j = k then some x else tabGet t j := by
  by_cases h : j = k
  · subst h; simp
  · simp [tabGet_tabSet_other t k j x h, h]

/-- A later write of a key hides the earlier one. -/
@[simp] theorem tabSet_tabSet {α : Type} (t : Tab α) (k : Nat) (x y : α) : tabSet (tabSet t k x) k y = tabSet t k y := by
  induction t with
  | nil => simp [tabSet]
  | cons e l ih =>
    obtain ⟨j, z⟩ := e
    by_cases h : k < j
    · simp [tabSet, h]
    · by_cases e : k = j
      · subst e; simp [tabSet]
      · simp [tabSet, h, e, ih]

theorem tabGetD_tabSet {α : Type} (t : Tab α) (k j : Nat) (x d : α) : tabGetD (tabSet t k x) j d = if j = k then x else tabGetD t j d := by
  simp only [tabGetD, tabGet_tabSet]; split <;> rfl

@[simp] theorem tabGetD_tabSet_self {α : Type} (t : Tab α) (k : Nat) (x d : α) : tabGetD (tabSet t k x) k d = x := by simp [tabGetD_tabSet]

theorem tabGet_tabDel {α : Type} (t : Tab α) (k j : Nat) : tabGet (tabDel t k) j = if j = k then none else tabGet t j := by
  induction t with
  | nil => simp [tabDel]
  | cons e l ih =>
    obtain ⟨i, y⟩ := e
    simp only [tabDel, List.filter_cons] at ih ⊢
    by_cases h : i = k
    · simp only [h, bne_self_eq_false, Bool.false_eq_true, if_false, ih, tabGet_cons]
      by_cases hj : j = k
      · simp [hj]
      · simp [hj, Ne.symm hj]
    · simp only [bne_iff_ne, ne_eq, h, not_false_eq_true, if_true, tabGet_cons, ih]
      by_cases hj : j = k
      · simp [hj, h]
      · simp [hj]

theorem tabGet_tabModify {α : Type} (t : Tab α) (k j : Nat) (f : α → α) :
    tabGet (tabModify t k f) j = if j = k then (tabGet t k).map f else tabGet t j := by
  unfold tabModify
  cases h : tabGet t k with
  | none =>
    by_cases hj : j = k
    · simp [hj, h]
    · simp [hj]
  | some x => simp only [tabGet_tabSet, Option.map_some]

/-- An entry that a table answers is one of its entries. -/
theorem mem_of_tabGet {α : Type} (t : Tab α) (k : Nat) (x : α) (h : tabGet t k = some x) : (k, x) ∈ t := by
  induction t with
  | nil => simp at h
  | cons e l ih =>
    obtain ⟨j, y⟩ := e
    rw [tabGet_cons] at h
    split at h
    · next hj => cases h; subst hj; exact List.mem_cons_self
    · exact List.mem_cons_of_mem _ (ih h)

theorem mem_tabSet {α : Type} (t : Tab α) (k : Nat) (x : α) (e : Nat × α) (h : e ∈ tabSet t k x) : e = (k, x) ∨ e ∈ t := by
  induction t with
  | nil => simpa [tabSet] using h
  | cons d l ih =>
    obtain ⟨j, y⟩ := d
    unfold tabSet at h
    split at h
    · simpa using h
    · split at h
      · rcases List.mem_cons.1 h with h | h
        · exact .inl h
        · exact .inr (List.mem_cons_of_mem _ h)
      · rcases List.mem_cons.1 h with h | h
        · exact .inr (h ▸ List.mem_cons_self)
        · exact (ih h).imp id (List.mem_cons_of_mem _)

/-! ### Contexts, cores, ranks and virtual functions after an update -/

theorem State.ctx_eq (s : State) (k : Nat) : s.ctx k = tabGetD s.ctxs k Ctx.vacant := rfl

theorem State.ctx_setCtx (s : State) (k j : Nat) (c : Ctx) : (s.setCtx k c).ctx j = if j = k then c else s.ctx j := tabGetD_tabSet ..
theorem State.ctx_modCtx (s : State) (k j : Nat) (f : Ctx → Ctx) : (s.modCtx k f).ctx j = if j = k then f (s.ctx k) else s.ctx j := tabGetD_tabSet ..
theorem State.ctx_setCx (s : State) (j : Nat) (c : Ctx) : (s.setCx c).ctx j = if j = s.cur then c else s.ctx j := tabGetD_tabSet ..
theorem State.ctx_modCx (s : State) (j : Nat) (f : Ctx → Ctx) : (s.modCx f).ctx j = if j = s.cur then f s.cx else s.ctx j := tabGetD_tabSet ..

@[simp] theorem State.cx_setCx (s : State) (c : Ctx) : (s.setCx c).cx = c := by simp [State.cx, State.ctx_setCx]
@[simp] theorem State.cx_modCx (s : State) (f : Ctx → Ctx) : (s.modCx f).cx = f s.cx := by simp [State.cx, State.ctx_modCx]
@[simp] theorem State.cx_setCtx_cur (s : State) (c : Ctx) : (s.setCtx s.cur c).cx = c := by simp [State.cx, State.ctx_setCtx]

@[simp] theorem State.setCtx_setCtx (s : State) (k : Nat) (c d : Ctx) : (s.setCtx k c).setCtx k d = s.setCtx k d := by simp [State.setCtx]
@[simp] theorem State.setCx_setCx (s : State) (c d : Ctx) : (s.setCx c).setCx d = s.setCx d := by simp [State.setCx, State.setCtx]
@[simp] theorem State.modCx_modCx (s : State) (f g : Ctx → Ctx) : (s.modCx f).modCx g = s.modCx (g ∘ f) := by
  unfold State.modCx; rw [State.cx_setCx, State.setCx_setCx]; rfl

/-- What a free number or a fresh identity does not change. -/
@[simp] theorem State.cx_draw (s : State) : s.draw.2.cx = s.cx := rfl
@[simp] theorem State.cx_takeId (s : State) : s.takeId.2.cx = s.cx := rfl
@[simp] theorem State.draw_fst (s : State) : s.draw.1 = s.free := rfl
@[simp] theorem State.takeId_fst (s : State) : s.takeId.1 = s.nextId := rfl

theorem State.core_setCore (s : State) (n m : Nat) (c : Core) : (s.setCore n c).core m = if m = n then c else s.core m := tabGetD_tabSet ..
theorem State.core_modCore (s : State) (n m : Nat) (f : Core → Core) : (s.modCore n f).core m = if m = n then f (s.core n) else s.core m := tabGetD_tabSet ..
@[simp] theorem State.core_setCore_self (s : State) (n : Nat) (c : Core) : (s.setCore n c).core n = c := by simp [State.core_setCore]
@[simp] theorem State.core_modCore_self (s : State) (n : Nat) (f : Core → Core) : (s.modCore n f).core n = f (s.core n) := by simp [State.core_modCore]

theorem State.vf_setVf (s : State) (v w : Nat) (x : VF) : (s.setVf v x).vf w = if w = v then x else s.vf w := tabGetD_tabSet ..
theorem State.vf_modVf (s : State) (v w : Nat) (f : VF → VF) : (s.modVf v f).vf w = if w = v then f (s.vf v) else s.vf w := tabGetD_tabSet ..
@[simp] theorem State.vf_setVf_self (s : State) (v : Nat) (x : VF) : (s.setVf v x).vf v = x := by simp [State.vf_setVf]
@[simp] theorem State.vf_modVf_self (s : State) (v : Nat) (f : VF → VF) : (s.modVf v f).vf v = f (s.vf v) := by simp [State.vf_modVf]

/-- A change of a rank's record reaches it when the rank is known, and no other rank. -/
theorem State.rankOf_modRank (s : State) (r q : Nat) (f : RankRec → RankRec) :
    (s.modRank r f).rankOf q = if q = r then ((tabGet s.ranks r).map f).getD RankRec.blank else s.rankOf q := by
  simp only [State.rankOf, tabGetD, State.modRank_ranks, tabGet_tabModify]; split <;> rfl

theorem State.rankOf_modRank_known (s : State) (r : Nat) (f : RankRec → RankRec) (x : RankRec) (h : tabGet s.ranks r = some x) :
    (s.modRank r f).rankOf r = f x := by
  simp [State.rankOf_modRank, h]

theorem State.modRank_unknown (s : State) (r : Nat) (f : RankRec → RankRec) (h : tabGet s.ranks r = none) : s.modRank r f = s := by
  simp [State.modRank, tabModify, h]

/-! ### Registers (R10) -/

theorem Ctx.rg_wg (c : Ctx) (r d : GR) (x : W64) : (c.wg d x).rg r = if r = 0 then 0 else if r = d then x else c.rg r := by
  unfold Ctx.wg Ctx.rg
  by_cases hr : r = 0
  · simp [hr]
  · by_cases hd : d = 0
    · simp only [hr, hd, if_true, if_false]
    · simp only [hr, hd, if_false]
      by_cases e : r = d
      · subst e; simp
      · have : d.toNat ≠ r.toNat := fun h => e (BitVec.eq_of_toNat_eq h.symm)
        simp [e, this]

@[simp] theorem Ctx.rg_zero (c : Ctx) : c.rg 0 = 0 := by simp [Ctx.rg]
@[simp] theorem Ctx.wg_zero (c : Ctx) (x : W64) : c.wg 0 x = c := by simp [Ctx.wg]
@[simp] theorem Ctx.rp_zero (c : Ctx) : c.rp 0 = BitVec.allOnes 256 := by simp [Ctx.rp]
@[simp] theorem Ctx.wp_zero (c : Ctx) (x : PReg) : c.wp 0 x = c := by simp [Ctx.wp]

theorem Ctx.rp_wp (c : Ctx) (r d : PR) (x : PReg) : (c.wp d x).rp r = if r = 0 then BitVec.allOnes 256 else if r = d then x else c.rp r := by
  unfold Ctx.wp Ctx.rp
  by_cases hr : r = 0
  · simp [hr]
  · by_cases hd : d = 0
    · simp only [hr, hd, if_true, if_false]
    · simp only [hr, hd, if_false]
      by_cases e : r = d
      · subst e; simp
      · have : d.toNat ≠ r.toNat := fun h => e (BitVec.eq_of_toNat_eq h.symm)
        simp [e, this]

theorem Ctx.rv_wv (c : Ctx) (r d : VR) (x : VReg) : (c.wv d x).rv r = if r = d then x else c.rv r := by
  unfold Ctx.wv Ctx.rv
  by_cases e : r = d
  · subst e; simp
  · have : d.toNat ≠ r.toNat := fun h => e (BitVec.eq_of_toNat_eq h.symm)
    simp [e, this]

theorem Ctx.ra_wa (c : Ctx) (r d : AR) (x : Walker) : (c.wa d x).ra r = if r = d then x else c.ra r := by
  unfold Ctx.wa Ctx.ra
  by_cases e : r = d
  · subst e; simp
  · have : d.toNat ≠ r.toNat := fun h => e (BitVec.eq_of_toNat_eq h.symm)
    simp [e, this]

theorem Ctx.rx_wx (c : Ctx) (r d : XR) (x : XReg) : (c.wx d x).rx r = if r = d then x else c.rx r := by
  unfold Ctx.wx Ctx.rx
  by_cases e : r = d
  · subst e; simp
  · have : d.toNat ≠ r.toNat := fun h => e (BitVec.eq_of_toNat_eq h.symm)
    simp [e, this]

/-- A write of a g register leaves what p, v, walker, shape and stream registers read. -/
@[simp] theorem Ctx.rp_wg (c : Ctx) (d : GR) (x : W64) (r : PR) : (c.wg d x).rp r = c.rp r := by simp [Ctx.rp]
@[simp] theorem Ctx.rv_wg (c : Ctx) (d : GR) (x : W64) (r : VR) : (c.wg d x).rv r = c.rv r := by simp [Ctx.rv]
@[simp] theorem Ctx.ra_wg (c : Ctx) (d : GR) (x : W64) (r : AR) : (c.wg d x).ra r = c.ra r := by simp [Ctx.ra]
@[simp] theorem Ctx.rg_wp (c : Ctx) (d : PR) (x : PReg) (r : GR) : (c.wp d x).rg r = c.rg r := by simp [Ctx.rg]
@[simp] theorem Ctx.rv_wp (c : Ctx) (d : PR) (x : PReg) (r : VR) : (c.wp d x).rv r = c.rv r := by simp [Ctx.rv]
@[simp] theorem Ctx.ra_wp (c : Ctx) (d : PR) (x : PReg) (r : AR) : (c.wp d x).ra r = c.ra r := by simp [Ctx.ra]
@[simp] theorem Ctx.rg_wv (c : Ctx) (d : VR) (x : VReg) (r : GR) : (c.wv d x).rg r = c.rg r := by simp [Ctx.rg]
@[simp] theorem Ctx.rp_wv (c : Ctx) (d : VR) (x : VReg) (r : PR) : (c.wv d x).rp r = c.rp r := by simp [Ctx.rp]
@[simp] theorem Ctx.ra_wv (c : Ctx) (d : VR) (x : VReg) (r : AR) : (c.wv d x).ra r = c.ra r := by simp [Ctx.ra]
@[simp] theorem Ctx.rg_wa (c : Ctx) (d : AR) (x : Walker) (r : GR) : (c.wa d x).rg r = c.rg r := by simp [Ctx.rg]
@[simp] theorem Ctx.rp_wa (c : Ctx) (d : AR) (x : Walker) (r : PR) : (c.wa d x).rp r = c.rp r := by simp [Ctx.rp]
@[simp] theorem Ctx.rv_wa (c : Ctx) (d : AR) (x : Walker) (r : VR) : (c.wa d x).rv r = c.rv r := by simp [Ctx.rv]

end Sys2Proof.Machine
end

