-- ==== Sys2Proof/Laws/Memory.lean ====
section
/-! SUPPORT. Laws/Memory.lean: memory is a canonical list of bytes: a write is read back and moves nothing else, and every operation keeps the form. -/

namespace Sys2Proof.Machine

/-- Every address listed is above a. -/
def Memory.Above (m : Memory) (a : Nat) : Prop := ∀ e ∈ m, a < e.1

theorem Memory.wf_cons (a : Nat) (b : Byte) (l : Memory) : Memory.wf ((a, b) :: l) = true ↔ b ≠ Memory.dflt ∧ Memory.Above l a ∧ Memory.wf l = true := by
  induction l generalizing a b with
  | nil => simp [Memory.wf, Memory.Above]
  | cons e l ih =>
    obtain ⟨c, d⟩ := e
    simp only [Memory.wf, Bool.and_eq_true, bne_iff_ne, ne_eq, decide_eq_true_eq, Memory.Above, List.mem_cons, forall_eq_or_imp]
    constructor
    · rintro ⟨⟨hb, ha⟩, hl⟩
      exact ⟨hb, ⟨ha, fun e he => Nat.lt_trans ha (((ih c d).1 hl).2.1 e he)⟩, hl⟩
    · rintro ⟨hb, ⟨ha, -⟩, hl⟩
      exact ⟨⟨hb, ha⟩, hl⟩

@[simp] theorem Memory.wf_nil : Memory.wf [] = true := rfl

@[simp] theorem Memory.get_nil (k : Nat) : Memory.get [] k = Memory.dflt := rfl

theorem Memory.get_cons (a : Nat) (b : Byte) (l : Memory) (k : Nat) : Memory.get ((a, b) :: l) k = if a = k then b else Memory.get l k := rfl

/-- Below everything listed, nothing is listed. -/
theorem Memory.get_below (m : Memory) (k : Nat) (h : ∀ e ∈ m, k ≠ e.1) : m.get k = Memory.dflt := by
  induction m with
  | nil => rfl
  | cons e l ih =>
    obtain ⟨a, b⟩ := e
    rw [Memory.get_cons, if_neg (Ne.symm (h _ List.mem_cons_self))]
    exact ih fun e he => h e (List.mem_cons_of_mem _ he)

theorem Memory.Above.get {m : Memory} {a : Nat} (h : m.Above a) : m.get a = Memory.dflt :=
  Memory.get_below m a fun e he => Nat.ne_of_lt (h e he)

theorem Memory.Above.mono {m : Memory} {a b : Nat} (h : m.Above a) (hb : b ≤ a) : m.Above b := fun e he => Nat.lt_of_le_of_lt hb (h e he)

theorem Memory.Above.set {m : Memory} {a k : Nat} (h : m.Above a) (hk : a < k) (x : Byte) : (m.set k x).Above a := by
  induction m with
  | nil =>
    unfold Memory.set; split
    · exact h
    · intro e he; simp only [List.mem_singleton] at he; subst he; exact hk
  | cons e l ih =>
    obtain ⟨c, d⟩ := e
    have hl : Memory.Above l a := fun e he => h e (List.mem_cons_of_mem _ he)
    have hc : a < c := h _ List.mem_cons_self
    have hcons : ∀ (p : Nat) (y : Byte) (t : Memory), a < p → Memory.Above t a → Memory.Above ((p, y) :: t) a := by
      intro p y t hp ht e he
      rcases List.mem_cons.1 he with rfl | he
      · exact hp
      · exact ht e he
    unfold Memory.set
    split
    · split
      · exact h
      · exact hcons k x _ hk h
    · split
      · split
        · exact hl
        · exact hcons k x l hk hl
      · exact hcons c d _ hc (ih hl)

/-- A write keeps the canonical form. -/
theorem Memory.wf_set (m : Memory) (k : Nat) (x : Byte) (h : m.wf = true) : (m.set k x).wf = true := by
  induction m with
  | nil =>
    unfold Memory.set; split
    · rfl
    · next hx => exact (Memory.wf_cons k x []).2 ⟨hx, (by intro e he; cases he), rfl⟩
  | cons e l ih =>
    obtain ⟨a, b⟩ := e
    obtain ⟨hb, ha, hl⟩ := (Memory.wf_cons a b l).1 h
    unfold Memory.set
    split
    · next hk =>
      split
      · exact h
      · next hx =>
        refine (Memory.wf_cons _ _ _).2 ⟨hx, ?_, h⟩
        intro e he
        rcases List.mem_cons.1 he with rfl | he
        · exact hk
        · exact Nat.lt_trans hk (ha e he)
    · split
      · next hk =>
        subst hk
        split
        · exact hl
        · next hx => exact (Memory.wf_cons _ _ _).2 ⟨hx, ha, hl⟩
      · next h1 h2 => exact (Memory.wf_cons _ _ _).2 ⟨hb, ha.set (by omega) x, ih hl⟩

/-- Reading after a write: the byte written at its address, the old bytes elsewhere. -/
theorem Memory.get_set (m : Memory) (k j : Nat) (x : Byte) (h : m.wf = true) : (m.set k x).get j = if j = k then x else m.get j := by
  induction m with
  | nil =>
    unfold Memory.set; split
    · next hx => simp [hx]
    · rw [Memory.get_cons]; by_cases e : j = k
      · simp [e]
      · simp [e, Ne.symm e]
  | cons e l ih =>
    obtain ⟨a, b⟩ := e
    obtain ⟨hb, ha, hl⟩ := (Memory.wf_cons a b l).1 h
    unfold Memory.set
    split
    · next hk =>
      have hnew : Memory.get ((a, b) :: l) k = Memory.dflt := by
        refine Memory.get_below _ k fun e he => ?_
        rcases List.mem_cons.1 he with rfl | he
        · exact Nat.ne_of_lt hk
        · exact Nat.ne_of_lt (Nat.lt_trans hk (ha e he))
      split
      · next hx =>
        split
        · next e => subst e; rw [hnew, hx]
        · rfl
      · rw [Memory.get_cons k x]
        by_cases e : j = k
        · simp [e]
        · simp [e, Ne.symm e]
    · split
      · next hk =>
        subst hk
        split
        · next hx =>
          by_cases e : j = k
          · subst e; simp [ha.get, hx]
          · simp [e, Memory.get_cons, Ne.symm e]
        · by_cases e : j = k
          · simp [e, Memory.get_cons]
          · simp [e, Memory.get_cons, Ne.symm e]
      · next h1 h2 =>
        simp only [Memory.get_cons, ih hl]
        by_cases ej : a = j
        · subst ej; simp [Ne.symm h2]
        · simp [ej]

theorem Memory.wf_write (m : Memory) (a : Nat) (l : List Byte) (h : m.wf = true) : (m.write a l).wf = true := by
  induction l generalizing m a with
  | nil => exact h
  | cons b l ih => exact ih _ _ (m.wf_set a b h)

/-- Reading after a write of several bytes. -/
theorem Memory.get_write (m : Memory) (a j : Nat) (l : List Byte) (h : m.wf = true) :
    (m.write a l).get j = if a ≤ j ∧ j < a + l.length then l.getD (j - a) 0 else m.get j := by
  induction l generalizing m a with
  | nil => simp only [Memory.write, List.length_nil]; rw [if_neg (by omega)]
  | cons b l ih =>
    rw [Memory.write, ih _ _ (m.wf_set a b h), Memory.get_set m a j b h]
    simp only [List.length_cons]
    by_cases e : j = a
    · subst e; simp
    · by_cases r : a + 1 ≤ j ∧ j < a + 1 + l.length
      · rw [if_pos r, if_pos (by omega), show j - a = (j - (a + 1)) + 1 by omega, List.getD_cons_succ]
      · rw [if_neg r, if_neg e, if_neg (by omega)]

theorem Memory.wf_writeCells (m : Memory) (l : List (Nat × Byte)) (h : m.wf = true) : (m.writeCells l).wf = true := by
  induction l generalizing m with
  | nil => exact h
  | cons e l ih => exact ih _ (m.wf_set e.1 e.2 h)

/-- Reading after a list of writes: the last write of the address, else what was there. -/
theorem Memory.get_writeCells (m : Memory) (l : List (Nat × Byte)) (j : Nat) (h : m.wf = true) :
    (m.writeCells l).get j = l.foldl (fun b c => if c.1 = j then c.2 else b) (m.get j) := by
  induction l generalizing m with
  | nil => rfl
  | cons e l ih =>
    rw [Memory.writeCells, ih _ (m.wf_set e.1 e.2 h), Memory.get_set m e.1 j e.2 h, List.foldl_cons]
    by_cases c : j = e.1
    · simp [c]
    · simp [c, Ne.symm c]

/-- Leaving entries out keeps the form. -/
theorem Memory.wf_filter (m : Memory) (p : Host.Cell → Bool) (h : m.wf = true) : Memory.wf (m.filter p) = true := by
  induction m with
  | nil => rfl
  | cons e l ih =>
    obtain ⟨a, b⟩ := e
    obtain ⟨hb, ha, hl⟩ := (Memory.wf_cons a b l).1 h
    rw [List.filter_cons]; split
    · exact (Memory.wf_cons _ _ _).2 ⟨hb, fun e he => ha e (List.mem_filter.1 he).1, ih hl⟩
    · exact ih hl

/-- Two canonical memories that read alike are equal. -/
theorem Memory.ext_get (m n : Memory) (hm : m.wf = true) (hn : n.wf = true) (h : ∀ a, m.get a = n.get a) : m = n := by
  induction m generalizing n with
  | nil =>
    cases n with
    | nil => rfl
    | cons e l =>
      obtain ⟨a, b⟩ := e
      have := h a
      rw [Memory.get_cons, if_pos rfl] at this
      exact absurd this.symm ((Memory.wf_cons a b l).1 hn).1
  | cons e l ih =>
    obtain ⟨a, b⟩ := e
    obtain ⟨hb, ha, hl⟩ := (Memory.wf_cons a b l).1 hm
    cases n with
    | nil => exact absurd ((h a).symm.trans (by rw [Memory.get_cons, if_pos rfl])).symm hb
    | cons f k =>
      obtain ⟨c, d⟩ := f
      obtain ⟨hd, hc, hk⟩ := (Memory.wf_cons c d k).1 hn
      have hac : a = c := by
        rcases Nat.lt_trichotomy a c with hlt | heq | hgt
        · have := h a
          rw [Memory.get_cons, if_pos rfl, Memory.get_cons, if_neg (Nat.ne_of_gt hlt), (hc.mono (Nat.le_of_lt hlt)).get] at this
          exact absurd this hb
        · exact heq
        · have := h c
          rw [Memory.get_cons, if_neg (Nat.ne_of_gt hgt), Memory.get_cons, if_pos rfl, (ha.mono (Nat.le_of_lt hgt)).get] at this
          exact absurd this.symm hd
      subst hac
      have hbd : b = d := by simpa [Memory.get_cons] using h a
      subst hbd
      have : l = k := ih k hl hk fun x => by
        have := h x
        rw [Memory.get_cons, Memory.get_cons] at this
        by_cases e : a = x
        · subst e; rw [ha.get, hc.get]
        · simpa [e] using this
      rw [this]

@[simp] theorem Memory.length_read (m : Memory) (a n : Nat) : (m.read a n).length = n := by simp [Memory.read]

theorem Memory.getD_read (m : Memory) (a n i : Nat) (h : i < n) : (m.read a n).getD i 0 = m.get (a + i) := by
  simp [Memory.read, List.getD_eq_getElem?_getD, h]

/-- Reading a range depends on its bytes alone. -/
theorem Memory.read_congr (m k : Memory) (a n : Nat) (h : ∀ i, i < n → m.get (a + i) = k.get (a + i)) : m.read a n = k.read a n := by
  unfold Memory.read
  exact List.map_congr_left fun i hi => h i (List.mem_range.1 hi)

/-- Memory at reset has the form. -/
theorem State.reset_memory_wf : State.reset.mem.wf = true := rfl

end Sys2Proof.Machine
end

