-- ==== Sys2Proof/Laws/Operations.lean ====
section
/-! SUPPORT. Laws/Operations.lean: for each shared operation, once, everything it can do to the state. -/

namespace Sys2Proof.Machine

/-! ### Checks of memory's blocks (R397 to R399) -/

/-- A correction changes which blocks are unsound, the journal, and the counter of free values. -/
theorem State.correctBlock_frame (s : State) (b : Nat) :
    s.correctBlock b = { s with bad := (s.correctBlock b).bad, hub := (s.correctBlock b).hub, free := (s.correctBlock b).free } := by
  unfold State.correctBlock; split <;> rfl

theorem State.correctList_frame (l : List Nat) (s : State) :
    l.foldl State.correctBlock s = { s with bad := (l.foldl State.correctBlock s).bad, hub := (l.foldl State.correctBlock s).hub, free := (l.foldl State.correctBlock s).free } := by
  induction l generalizing s with
  | nil => rfl
  | cons b l ih => rw [List.foldl_cons, ih, State.correctBlock_frame]

theorem State.correctBlocks_frame (s : State) (l : List Nat) :
    s.correctBlocks l = { s with bad := (s.correctBlocks l).bad, hub := (s.correctBlocks l).hub, free := (s.correctBlocks l).free } := by
  unfold State.correctBlocks; split
  · rfl
  · exact State.correctList_frame _ s

/-- Where every block is sound a check changes nothing. -/
theorem State.correctBlocks_sound {s : State} (h : s.bad = []) (l : List Nat) : s.correctBlocks l = s := by
  unfold State.correctBlocks; rw [h]; rfl

theorem State.blockLost_sound {s : State} (h : s.bad = []) (b : Nat) : s.blockLost b = false := by
  unfold State.blockLost; rw [h]; rfl

theorem State.checkBlocks_sound {s : State} (h : s.bad = []) (l : List Nat) : s.checkBlocks l = some s := by
  have g : l.any s.blockLost = false := List.any_eq_false.2 fun b _ => by rw [State.blockLost_sound h]; exact Bool.false_ne_true
  unfold State.checkBlocks; rw [g, State.correctBlocks_sound h]; rfl

theorem State.checkBlocks_frame {s t : State} {l : List Nat} (h : s.checkBlocks l = some t) : t = { s with bad := t.bad, hub := t.hub, free := t.free } := by
  unfold State.checkBlocks at h
  split at h
  · cases h
  · cases h; exact State.correctBlocks_frame s l

theorem State.walkSound_sound {s : State} (h : s.bad = []) (rank va : Nat) : s.walkSound rank va = true := by
  unfold State.walkSound; rw [h]; rfl

/-- A link on which no check fails only transfers. -/
theorem State.useLink_quiet {s : State} (h : s.flips = []) (kind unit : Nat) : s.useLink kind unit = s := by
  unfold State.useLink; rw [h]; rfl

/-- A unit of a context none of whose registers is to be corrected is as it was. -/
theorem State.correctUnits_sound {s : State} {k : Nat} (h : (s.ctx k).corr = []) (hit : Spoilt → Bool) : s.correctUnits k hit = s := by
  unfold State.correctUnits; rw [h]; rfl

/-! ### Translation (R193 to R197) -/

/-- A lookup changes at most the translation caches, what its walk's entries had to be corrected of, and the counter of free values. -/
theorem State.lookup_frame {s t : State} {core rank va : Nat} {e : TlbEntry} (h : s.lookup core rank va = some (e, t)) :
    t = { s with cores := t.cores, tlb2 := t.tlb2, free := t.free, bad := t.bad, hub := t.hub } := by
  unfold State.lookup at h
  split at h
  · cases h; rfl
  · split at h
    · cases h; rfl
    · split at h
      · cases hw : s.walk rank va with
        | none => rw [hw] at h; cases h
        | some e' =>
          rw [hw, Option.map_some] at h
          generalize hc : s.correctBlocks (s.walkBlocks rank va) = u at h
          have hf := State.correctBlocks_frame s (s.walkBlocks rank va)
          rw [hc] at hf
          cases h
          rw [hf]; rfl
      · cases h

/-- Marking a leaf changes memory at its entry, what that entry's block had to be corrected of, and the cached copies of it. -/
theorem State.markLeaf_frame (s : State) (core : Nat) (e : TlbEntry) (w : Bool) :
    s.markLeaf core e w = { s with
      mem := (s.markLeaf core e w).mem, cores := (s.markLeaf core e w).cores, tlb2 := (s.markLeaf core e w).tlb2,
      bad := (s.markLeaf core e w).bad, hub := (s.markLeaf core e w).hub, free := (s.markLeaf core e w).free } := by
  have hf := State.correctBlocks_frame s [e.entry / 64]
  by_cases h : (e.bits ||| (2 ^ bitA ||| (if w then 2 ^ bitD else 0))) = e.bits
  · unfold State.markLeaf; dsimp only; rw [if_pos h]
  · unfold State.markLeaf; dsimp only; rw [if_neg h]
    generalize s.correctBlocks [e.entry / 64] = u at hf
    rw [hf]; rfl

theorem State.markLeaf_memory (s : State) (core : Nat) (e : TlbEntry) (w : Bool) :
    (s.markLeaf core e w).mem = s.mem ∨ ∃ x, (s.markLeaf core e w).mem = s.mem.set e.entry x := by
  have hf := State.correctBlocks_frame s [e.entry / 64]
  by_cases h : (e.bits ||| (2 ^ bitA ||| (if w then 2 ^ bitD else 0))) = e.bits
  · unfold State.markLeaf; dsimp only; rw [if_pos h]; exact .inl rfl
  · unfold State.markLeaf; dsimp only; rw [if_neg h]
    generalize s.correctBlocks [e.entry / 64] = u at hf
    rw [hf]; exact .inr ⟨_, rfl⟩

theorem State.markLeaf_wf (s : State) (core : Nat) (e : TlbEntry) (w : Bool) (h : s.mem.wf = true) : (s.markLeaf core e w).mem.wf = true := by
  rcases s.markLeaf_memory core e w with m | ⟨x, m⟩
  · rw [m]; exact h
  · rw [m]; exact Memory.wf_set _ _ _ h

/-- Noting a page's owner changes nothing else. -/
theorem State.noteWrite_frame (s : State) (rank : Nat) (e : TlbEntry) (need : Need) : s.noteWrite rank e need = { s with owned := (s.noteWrite rank e need).owned } := by
  unfold State.noteWrite State.noteOwner; split
  · dsimp only; split <;> rfl
  · rfl

theorem State.noteWrite_mem (s : State) (rank : Nat) (e : TlbEntry) (need : Need) : (s.noteWrite rank e need).mem = s.mem := by rw [State.noteWrite_frame]

/-- A translation that succeeds changes the caches, the A and D bits of its leaf and what the table's blocks had to be corrected of, and keeps memory canonical. -/
theorem State.translate_frame {s t : State} {core rank va pa : Nat} {need : Need} {e : TlbEntry} (h : s.translate core rank va need = .ok pa e t) :
    t = { s with mem := t.mem, cores := t.cores, tlb2 := t.tlb2, free := t.free, owned := t.owned, bad := t.bad, hub := t.hub } ∧
      (s.mem.wf = true → t.mem.wf = true) ∧ va < 2 ^ 48 ∧ pa = e.paOf va ∧ e.bit need.bit = true := by
  unfold State.translate at h
  split at h
  · cases h
  · next hva =>
    split at h
    · cases h
    · next e' u hl =>
      split at h
      · cases h
      · next hb =>
        split at h
        · cases h
        · cases h
          have hf := State.lookup_frame hl
          refine ⟨?_, fun hw => by rw [State.noteWrite_mem]; exact State.markLeaf_wf _ _ _ _ (by rw [hf]; exact hw), by omega, rfl, by simpa using hb⟩
          rw [State.noteWrite_frame, State.markLeaf_frame, hf]

/-- A translation by the hub changes only the A and D bits of its leaf, and corrects blocks of the table. -/
theorem State.hubTranslate_frame {s t : State} {rank va pa : Nat} {need : Need} (h : s.hubTranslate rank va need = some (pa, t)) :
    t = { s with mem := t.mem, owned := t.owned, bad := t.bad, hub := t.hub, free := t.free } ∧ (s.mem.wf = true → t.mem.wf = true) := by
  unfold State.hubTranslate at h
  split at h
  · cases h
  · split at h
    · have hf := State.correctBlocks_frame s (s.walkBlocks rank va)
      generalize s.correctBlocks (s.walkBlocks rank va) = u at hf h
      cases h
      exact ⟨by rw [State.noteWrite_frame, hf], fun hw => by rw [State.noteWrite_mem]; exact Memory.wf_set _ _ _ (by rw [hf]; exact hw)⟩
    · cases h

/-! ### Writing memory (R363, R233) -/

@[simp] theorem State.unguard_mem (s : State) (pa n : Nat) : (s.unguard pa n).mem = s.mem := by
  unfold State.unguard; dsimp only; split <;> rfl

theorem State.unguard_frame (s : State) (pa n : Nat) : s.unguard pa n = { s with ranks := (s.unguard pa n).ranks } := by
  unfold State.unguard; dsimp only; split <;> rfl

theorem State.writeBytes_mem (s : State) (l : List (Nat × Byte)) : (s.writeBytes l).mem = s.mem.writeCells l := by
  induction l generalizing s with
  | nil => rfl
  | cons e l ih => rw [State.writeBytes, ih, State.unguard_mem, Memory.writeCells]

theorem State.writeBytes_frame (s : State) (l : List (Nat × Byte)) : s.writeBytes l = { s with mem := (s.writeBytes l).mem, ranks := (s.writeBytes l).ranks } := by
  induction l generalizing s with
  | nil => rfl
  | cons e l ih =>
    rw [State.writeBytes, ih, State.unguard_frame]

theorem State.testWatches_frame (s : State) (l : List (Nat × Byte)) : s.testWatches l = { s with watches := (s.testWatches l).watches } := by
  unfold State.testWatches; split <;> rfl

/-- A write of bytes changes memory as its cells say, the guards of contact sheets and what waits for one of the bytes, nothing else. -/
theorem State.writeMem_mem (s : State) (l : List (Nat × Byte)) : (s.writeMem l).mem = s.mem.writeCells l := by
  unfold State.writeMem; rw [State.testWatches_frame]; exact State.writeBytes_mem s l

theorem State.writeMem_frame (s : State) (l : List (Nat × Byte)) :
    s.writeMem l = { s with mem := (s.writeMem l).mem, ranks := (s.writeMem l).ranks, watches := (s.writeMem l).watches } := by
  unfold State.writeMem; rw [State.testWatches_frame, State.writeBytes_frame]

theorem State.writeMem_wf (s : State) (l : List (Nat × Byte)) (h : s.mem.wf = true) : (s.writeMem l).mem.wf = true := by
  rw [State.writeMem_mem]; exact Memory.wf_writeCells _ _ h

/-- A write at the home slices changes memory, guards and watches, and which blocks are unsound. -/
theorem State.putMem_frame {s t : State} {l : List (Nat × Byte)} (h : s.putMem l = some t) :
    t = { s with mem := t.mem, ranks := t.ranks, watches := t.watches, bad := t.bad, hub := t.hub, free := t.free } ∧ (s.mem.wf = true → t.mem.wf = true) := by
  unfold State.putMem at h
  obtain ⟨u, hu, rfl⟩ := Option.map_eq_some_iff.1 h
  have hf := State.checkBlocks_frame hu
  refine ⟨?_, fun hw => State.writeMem_wf _ _ (by rw [hf]; exact hw)⟩
  rw [State.writeMem_frame, hf]

/-- Where every block is sound such a write is the write of its bytes. -/
theorem State.putMem_sound {s : State} (h : s.bad = []) (l : List (Nat × Byte)) : s.putMem l = some (s.writeMem l) := by
  unfold State.putMem
  dsimp only
  rw [State.checkBlocks_sound h, Option.map_some]
  congr 2
  rw [h]
  exact congrArg (fun b => { s with bad := b }) h.symm

/-- The places of a range change A and D bits of leaves. -/
theorem State.hubPlaces_frame {s t : State} {rank va n : Nat} {l : List Nat} (h : s.hubPlaces rank va n = some (l, t)) :
    t = { s with mem := t.mem, owned := t.owned, bad := t.bad, hub := t.hub, free := t.free } ∧ (s.mem.wf = true → t.mem.wf = true) ∧ l.length = n := by
  induction n generalizing s va l with
  | zero => cases h; exact ⟨rfl, id, rfl⟩
  | succ n ih =>
    unfold State.hubPlaces at h
    obtain ⟨⟨pa, u⟩, hu, h⟩ := Option.bind_eq_some_iff.1 h
    obtain ⟨⟨l', t'⟩, hr, h⟩ := Option.map_eq_some_iff.1 h
    cases h
    obtain ⟨hf, hw⟩ := State.hubTranslate_frame hu
    obtain ⟨hf', hw', hl⟩ := ih hr
    exact ⟨by rw [hf', hf], fun x => hw' (hw x), by simp [hl]⟩

/-- A write of a rank's memory by the hub changes memory, the guards of contact sheets, what waits for one of the bytes, and which blocks are unsound. -/
theorem State.hubWrite_frame {s t : State} {rank va : Nat} {l : List Byte} (h : s.hubWrite rank va l = some t) :
    t = { s with mem := t.mem, ranks := t.ranks, owned := t.owned, watches := t.watches, bad := t.bad, hub := t.hub, free := t.free } ∧
      (s.mem.wf = true → t.mem.wf = true) := by
  unfold State.hubWrite at h
  obtain ⟨⟨pas, u⟩, hu, h⟩ := Option.bind_eq_some_iff.1 h
  obtain ⟨hf, hw, -⟩ := State.hubPlaces_frame hu
  obtain ⟨hf', hw'⟩ := State.putMem_frame h
  exact ⟨by rw [hf', hf], hw' ∘ hw⟩

/-- Where every block is sound, so it stays, and neither the journal nor the counter of free values moves. -/
theorem State.hubTranslate_sound {s t : State} {rank va pa : Nat} {need : Need} (b : s.bad = []) (h : s.hubTranslate rank va need = some (pa, t)) :
    t.bad = [] ∧ t.hub = s.hub ∧ t.free = s.free := by
  unfold State.hubTranslate at h
  split at h
  · cases h
  · split at h
    · rw [State.correctBlocks_sound b] at h
      cases h
      rw [State.noteWrite_frame]
      exact ⟨b, rfl, rfl⟩
    · cases h

theorem State.hubPlaces_sound {s t : State} {rank va n : Nat} {l : List Nat} (b : s.bad = []) (h : s.hubPlaces rank va n = some (l, t)) :
    t.bad = [] ∧ t.hub = s.hub ∧ t.free = s.free := by
  induction n generalizing s va l with
  | zero => cases h; exact ⟨b, rfl, rfl⟩
  | succ n ih =>
    unfold State.hubPlaces at h
    obtain ⟨⟨pa, u⟩, hu, h⟩ := Option.bind_eq_some_iff.1 h
    obtain ⟨⟨l', t'⟩, hr, h⟩ := Option.map_eq_some_iff.1 h
    cases h
    obtain ⟨x, y, z⟩ := State.hubTranslate_sound b hu
    obtain ⟨x', y', z'⟩ := ih x hr
    exact ⟨x', y'.trans y, z'.trans z⟩

theorem State.hubWrite_sound {s t : State} {rank va : Nat} {l : List Byte} (b : s.bad = []) (h : s.hubWrite rank va l = some t) :
    t.bad = [] ∧ t.hub = s.hub ∧ t.free = s.free := by
  unfold State.hubWrite at h
  obtain ⟨⟨pas, u⟩, hu, h⟩ := Option.bind_eq_some_iff.1 h
  obtain ⟨x, y, z⟩ := State.hubPlaces_sound b hu
  have g := State.putMem_sound x (pas.zip l)
  rw [show u.putMem (pas.zip l) = some t from h] at g
  cases g
  rw [State.writeMem_frame]
  exact ⟨x, y, z⟩

/-! ### Accesses (R218, R220, R221) -/

/-- The parts of a range, once translated, leave the state but for memory's A and D bits and the translation caches as it was. -/
theorem State.partsOf_frame {s t : State} {core rank va0 : Nat} {need : Need} {en : Nat → Bool} {data : Nat → Byte} {l : List (Nat × Nat)} {ps : List Part}
    (h : s.partsOf core rank need en data va0 l = .ok ps t) :
    t = { s with mem := t.mem, cores := t.cores, tlb2 := t.tlb2, free := t.free, owned := t.owned, bad := t.bad, hub := t.hub } ∧ (s.mem.wf = true → t.mem.wf = true) := by
  induction l generalizing s ps with
  | nil => cases h; exact ⟨rfl, id⟩
  | cons e l ih =>
    obtain ⟨va, n⟩ := e
    unfold State.partsOf at h
    dsimp only at h
    split at h
    · split at h
      · cases h
      · next hx =>
        obtain ⟨hf, hw, -⟩ := State.translate_frame hx
        split at h
        · cases h
        · next hr =>
          cases h
          obtain ⟨hf', hw'⟩ := ih hr
          exact ⟨by rw [hf', hf], fun x => hw' (hw x)⟩
    · exact ih h

/-- What the checks of an address answer: nothing when it is in range and aligned, else the fault with that address. -/
theorem State.checkAddr_cases (s : State) (a : W64) (align : Nat) :
    (2 ^ 48 ≤ a.toNat ∧ s.checkAddr a align = some (s.slotFault .translation a)) ∨
    (a.toNat < 2 ^ 48 ∧ a.toNat % align ≠ 0 ∧ s.checkAddr a align = some (s.slotFault .misaligned a)) ∨
    (a.toNat < 2 ^ 48 ∧ a.toNat % align = 0 ∧ s.checkAddr a align = none) := by
  unfold State.checkAddr
  by_cases h : 2 ^ 48 ≤ a.toNat
  · exact .inl ⟨h, if_pos h⟩
  · by_cases g : a.toNat % align = 0
    · exact .inr (.inr ⟨by omega, g, by rw [if_neg h, if_neg (not_not.2 g)]⟩)
    · exact .inr (.inl ⟨by omega, g, by rw [if_neg h, if_pos g]⟩)

/-- An access answers a next state: a fault of its address, a fault of its translation, or itself outstanding. -/
theorem State.access_cases (s : State) (op : Nat) (need : Need) (a : W64) (n align : Nat) (en : Nat → Bool) (data : Nat → Byte) (kind : AccKind) (cls : Cls)
    (acq : Option Scope) (rel : Bool) :
    (∃ t, s.checkAddr a align = some t ∧ s.access op need a n align en data kind cls acq rel = .next t) ∨
    (s.checkAddr a align = none ∧
      ((∃ f, s.rangeParts need a.toNat n en data = .fail f ∧ s.access op need a n align en data kind cls acq rel = .next (s.accTrap f)) ∨
        ∃ ps t, s.rangeParts need a.toNat n en data = .ok ps t ∧
          s.access op need a n align en data kind cls acq rel = .next ((t.addAcc op kind cls acq rel ps).settle t.nextId))) := by
  unfold State.access
  cases hc : s.checkAddr a align with
  | some t => exact .inl ⟨t, rfl, rfl⟩
  | none =>
    refine .inr ⟨rfl, ?_⟩
    cases hr : s.rangeParts need a.toNat n en data with
    | fail f => exact .inl ⟨f, rfl, rfl⟩
    | ok ps t => exact .inr ⟨ps, t, rfl, rfl⟩

/-- A new outstanding access: one more in the list, one identity used, its counter up. -/
theorem State.addAcc_eq (s : State) (op : Nat) (kind : AccKind) (cls : Cls) (acq : Option Scope) (rel : Bool) (ps : List Part) :
    s.addAcc op kind cls acq rel ps =
      { s with
        nextId := s.nextId + 1
        accs := s.accs ++ [⟨s.nextId, s.cur, s.cx.rank, s.cx.coreNum, s.issue.slot, op, s.cx.pc, kind, cls, acq, rel, ps, false, s.issue.first, [], s.issue.fixed⟩]
        ctxs := tabSet s.ctxs s.cur (s.cx.countUp cls s.nextId) } := rfl

/-! ### Results in flight (R18, R68) -/

/-- Steps marks and flags put results in flight for the present context and change nothing else. -/
theorem State.mark_frame (s : State) (w : AR) (m : Bool) : s.mark w m = { s with ctxs := (s.mark w m).ctxs } := by
  unfold State.mark; split <;> rfl

theorem State.emitFlags_frame (s : State) (n : Nat) (f : FlagSet) : s.emitFlags n f = { s with ctxs := (s.emitFlags n f).ctxs } := by
  unfold State.emitFlags; split <;> rfl

@[simp] theorem State.mark_false (s : State) (w : AR) : s.mark w false = s := rfl
@[simp] theorem State.emitFlags_zero (s : State) (n : Nat) : s.emitFlags n 0 = s := rfl

/-- A landing changes the present context and its core, no other context. -/
theorem State.applyEff_frame (s : State) (e : Eff) :
    s.applyEff e = { s with ctxs := (s.applyEff e).ctxs, cores := (s.applyEff e).cores } ∧ ∀ k, k ≠ s.cur → (s.applyEff e).ctx k = s.ctx k := by
  unfold State.applyEff
  split
  · exact ⟨rfl, fun _ _ => rfl⟩
  · split
    · exact ⟨rfl, fun _ _ => rfl⟩
    · exact ⟨rfl, fun k hk => by rw [State.ctx_setCx, if_neg hk]⟩

theorem State.applyEffs_frame (s : State) (l : List Eff) :
    s.applyEffs l = { s with ctxs := (s.applyEffs l).ctxs, cores := (s.applyEffs l).cores } ∧ ∀ k, k ≠ s.cur → (s.applyEffs l).ctx k = s.ctx k := by
  induction l generalizing s with
  | nil => exact ⟨rfl, fun _ _ => rfl⟩
  | cons e l ih =>
    obtain ⟨hf, hk⟩ := s.applyEff_frame e
    obtain ⟨hf', hk'⟩ := ih (s.applyEff e)
    refine ⟨?_, fun k h => ?_⟩
    · rw [State.applyEffs, hf', hf]
    · rw [State.applyEffs, hk' k (by rw [hf]; exact h), hk k h]

/-- What lands changes the present context and its core, no other context, and no byte of memory. -/
theorem State.landDue_frame (s : State) :
    s.landDue = { s with ctxs := s.landDue.ctxs, cores := s.landDue.cores } ∧ ∀ k, k ≠ s.cur → s.landDue.ctx k = s.ctx k := by
  unfold State.landDue
  dsimp only
  obtain ⟨hf, hk⟩ := State.applyEffs_frame _ _
  refine ⟨?_, fun k h => ?_⟩
  · rw [hf]; rfl
  · rw [hk k h, State.ctx_setCx, if_neg h]

/-! ### Stream operands (R20, R277) -/

/-- An operation with stream operands answers the fault of one of them, its state unchanged while one has not arrived, or itself with an element taken from each. -/
theorem State.withStreams_cases (s : State) (l : List QR) (k : State → State) :
    (∃ q ∈ l, ∃ t, s.streamFault? q = some t ∧ s.withStreams l k = t) ∨
    ((∀ q ∈ l, s.streamFault? q = none) ∧
      ((∃ q ∈ l, s.cx.streamEmpty q = true) ∧ s.withStreams l k = s ∨ (∀ q ∈ l, s.cx.streamEmpty q = false) ∧ s.withStreams l k = (k s).streamsTake l)) := by
  unfold State.withStreams
  cases h : s.streamsFault? l with
  | some t =>
    obtain ⟨q, hq, ht⟩ := List.exists_of_findSome?_eq_some h
    exact .inl ⟨q, hq, t, ht, rfl⟩
  | none =>
    refine .inr ⟨List.findSome?_eq_none_iff.1 h, ?_⟩
    by_cases e : l.any s.cx.streamEmpty = true
    · exact .inl ⟨List.any_eq_true.1 e, if_pos e⟩
    · refine .inr ⟨fun q hq => ?_, if_neg e⟩
      by_contra c
      exact e (List.any_eq_true.2 ⟨q, hq, by simpa using c⟩)

@[simp] theorem State.withStreams_nil (s : State) (k : State → State) : s.withStreams [] k = k s := rfl

/-! ### Traps (R290, R291) -/

/-- A trap changes the present context and the record of the issue, and of that context what a trap sets. -/
theorem Ctx.trapped_frame (c : Ctx) (q : Cause) (a : W64) (m r n : Nat) (t : FwTask) :
    let d := c.trapped q a m r n t
    d = { c with
      status := d.status, faddr := d.faddr, epc := d.epc, pc := d.pc, rpos := d.rpos, sres := d.sres, step := d.step, sticky := d.sticky, loops := d.loops,
      loopbuf := d.loopbuf, inflight := d.inflight, arming := d.arming, strides := d.strides, held := d.held, saveU := d.saveU, saveS := d.saveS, fw := d.fw } := by
  dsimp only
  unfold Ctx.trapped
  dsimp only
  split
  · rfl
  · split
    · rfl
    · split <;> rfl

theorem Ctx.trapped_faddr (c : Ctx) (q : Cause) (a : W64) (m r n : Nat) (t : FwTask) : (c.trapped q a m r n t).faddr = a := by
  unfold Ctx.trapped; dsimp only; split
  · rfl
  · split
    · rfl
    · split <;> rfl

theorem Ctx.trapped_epc (c : Ctx) (q : Cause) (a : W64) (m r n : Nat) (t : FwTask) : (c.trapped q a m r n t).epc = BitVec.ofNat 64 c.pc := by
  unfold Ctx.trapped; dsimp only; split
  · rfl
  · split
    · rfl
    · split <;> rfl

@[simp] theorem State.slotTrap_cx (s : State) (q : Cause) (a : W64) (t : FwTask) : (s.slotTrap q a t).cx = s.cx.trapped q a 0 s.cx.rpos s.issue.slot t := by
  simp [State.cx, State.ctx]

theorem State.slotFault_eq (s : State) (q : Cause) (a : W64) : s.slotFault q a = s.slotTrap q a (.terminate 0) := rfl

end Sys2Proof.Machine
end

