-- ==== Sys2Proof/Laws/PerInstr.lean ====
section
/-! SUPPORT. Laws/PerInstr.lean: of every instruction, by constructor: it has an encoding exactly when it stands in a slot, and its opcode and its fields fit theirs (R51). -/

namespace Sys2Proof.Laws.FieldsFit

open Sys2Proof

/-- Opcode and fields of an instruction that stands in a slot fit bits [31:26] and [24:0] of its word; an event has no word. -/
def Statement (i : Instr) : Prop := i.fields.isSome = i.slot.isSome ∧ ∀ op x f, i.fields = some (op, x, f) → op < 2 ^ 6 ∧ f < 2 ^ 25

theorem of_fields {i : Instr} {op : Nat} {x : Ext} {f : Nat} (h : i.fields = some (op, x, f)) (hs : i.slot.isSome = true) (ho : op < 2 ^ 6) (hf : f < 2 ^ 25) : Statement i := by
  refine ⟨by rw [h, hs]; rfl, fun op' x' f' h' => ?_⟩
  rw [h] at h'; cases h'; exact ⟨ho, hf⟩

theorem of_event {i : Instr} (h : i.fields = none) (hs : i.slot = none) : Statement i :=
  ⟨by rw [h, hs]; rfl, fun op x f e => by rw [h] at e; cases e⟩

/-! ### Codes and packed fields fit -/

theorem ty_lt (t : Ty) : t.code < 16 := by cases t <;> decide
theorem rmode_lt (m : RMode) : m.code < 8 := by cases m <;> decide
theorem scope_lt (s : Scope) : s.code < 4 := by cases s <;> decide
theorem sz_lt (s : Sz) : s.code < 8 := by cases s <;> decide
theorem fenceKind_lt (k : FenceKind) : k.code < 4 := by cases k <;> decide
theorem aop_lt (a : Aop) : a.code < 16 := by cases a <;> decide
theorem cnd_lt (c : Cnd) : c.code < 8 := by cases c <;> decide
theorem fmt_lt (f : Fmt) : f.code < 32 := by cases f <;> decide
theorem redOp_lt (r : RedOp) : r.code < 32 := by cases r <;> decide
theorem sysReg_lt (r : SysReg) : r.code < 64 := by cases r <;> decide
theorem bool_lt (b : Bool) : b.toNat < 2 := by cases b <;> decide

theorem p3_lt (a b c : BitVec 5) : p20 a + p15 b + p10 c < 2 ^ 25 := by
  have := a.isLt; have := b.isLt; have := c.isLt; simp only [p20, p15, p10]; omega

theorem pV3_lt (d a b : BitVec 5) (t : Ty) (m : RMode) (p : PR) : pV3 d a b t m p < 2 ^ 25 := by
  have := d.isLt; have := a.isLt; have := b.isLt; have := ty_lt t; have := rmode_lt m; have := p.isLt
  simp only [pV3, p20, p15, p10]; omega

theorem shadow_lt (h : Option Shadow) : Shadow.bits h < 2 ^ 14 := by
  cases h with
  | none => decide
  | some s =>
    obtain ⟨op, w, m⟩ := s
    have := w.isLt; have := bool_lt m
    cases op <;> simp only [Shadow.bits, ShadowOp.code] <;> omega

theorem side_lt (s : CopySide) : s.bits ≤ 3968 := by
  cases s with
  | walker w m => have := w.isLt; have := bool_lt m; simp only [CopySide.bits]; omega
  | spool n => have := n.isLt; simp only [CopySide.bits]; omega

theorem order_lt (o : CmdOrder) : o.bits ≤ 120 := by
  have := scope_lt o.scope; have := bool_lt o.acq; have := bool_lt o.rel; simp only [CmdOrder.bits]; omega

theorem pXE_lt (a b : GR) (x : XR) (s : CopySide) (o : CmdOrder) (v : Nat) (hv : v < 4) : pXE a b x s o v < 2 ^ 25 := by
  have := a.isLt; have := b.isLt; have := x.isLt; have := side_lt s; have := order_lt o
  simp only [pXE, p20, p15]; omega

end Sys2Proof.Laws.FieldsFit

namespace Sys2Proof.Laws

open Sys2Proof FieldsFit

theorem FieldsFit.snop : Statement .snop := of_fields rfl rfl (by decide) (by decide)
theorem FieldsFit.add (d : GR) (a : GR) (b : GR) : Statement (.add d a b) := of_fields rfl rfl (by decide) (by have := d.isLt; have := a.isLt; have := b.isLt; simp only [p20, p15, p10]; omega)
theorem FieldsFit.sub (d : GR) (a : GR) (b : GR) : Statement (.sub d a b) := of_fields rfl rfl (by decide) (by have := d.isLt; have := a.isLt; have := b.isLt; simp only [p20, p15, p10]; omega)
theorem FieldsFit.mul (d : GR) (a : GR) (b : GR) : Statement (.mul d a b) := of_fields rfl rfl (by decide) (by have := d.isLt; have := a.isLt; have := b.isLt; simp only [p20, p15, p10]; omega)
theorem FieldsFit.mulh (d : GR) (a : GR) (b : GR) : Statement (.mulh d a b) := of_fields rfl rfl (by decide) (by have := d.isLt; have := a.isLt; have := b.isLt; simp only [p20, p15, p10]; omega)
theorem FieldsFit.mulhn (d : GR) (a : GR) (b : GR) : Statement (.mulhn d a b) := of_fields rfl rfl (by decide) (by have := d.isLt; have := a.isLt; have := b.isLt; simp only [p20, p15, p10]; omega)
theorem FieldsFit.div (d : GR) (a : GR) (b : GR) : Statement (.div d a b) := of_fields rfl rfl (by decide) (by have := d.isLt; have := a.isLt; have := b.isLt; simp only [p20, p15, p10]; omega)
theorem FieldsFit.divn (d : GR) (a : GR) (b : GR) : Statement (.divn d a b) := of_fields rfl rfl (by decide) (by have := d.isLt; have := a.isLt; have := b.isLt; simp only [p20, p15, p10]; omega)
theorem FieldsFit.rem (d : GR) (a : GR) (b : GR) : Statement (.rem d a b) := of_fields rfl rfl (by decide) (by have := d.isLt; have := a.isLt; have := b.isLt; simp only [p20, p15, p10]; omega)
theorem FieldsFit.remn (d : GR) (a : GR) (b : GR) : Statement (.remn d a b) := of_fields rfl rfl (by decide) (by have := d.isLt; have := a.isLt; have := b.isLt; simp only [p20, p15, p10]; omega)
theorem FieldsFit.and (d : GR) (a : GR) (b : GR) : Statement (.and d a b) := of_fields rfl rfl (by decide) (by have := d.isLt; have := a.isLt; have := b.isLt; simp only [p20, p15, p10]; omega)
theorem FieldsFit.or (d : GR) (a : GR) (b : GR) : Statement (.or d a b) := of_fields rfl rfl (by decide) (by have := d.isLt; have := a.isLt; have := b.isLt; simp only [p20, p15, p10]; omega)
theorem FieldsFit.xor (d : GR) (a : GR) (b : GR) : Statement (.xor d a b) := of_fields rfl rfl (by decide) (by have := d.isLt; have := a.isLt; have := b.isLt; simp only [p20, p15, p10]; omega)
theorem FieldsFit.andn (d : GR) (a : GR) (b : GR) : Statement (.andn d a b) := of_fields rfl rfl (by decide) (by have := d.isLt; have := a.isLt; have := b.isLt; simp only [p20, p15, p10]; omega)
theorem FieldsFit.shl (d : GR) (a : GR) (b : GR) : Statement (.shl d a b) := of_fields rfl rfl (by decide) (by have := d.isLt; have := a.isLt; have := b.isLt; simp only [p20, p15, p10]; omega)
theorem FieldsFit.shr (d : GR) (a : GR) (b : GR) : Statement (.shr d a b) := of_fields rfl rfl (by decide) (by have := d.isLt; have := a.isLt; have := b.isLt; simp only [p20, p15, p10]; omega)
theorem FieldsFit.sar (d : GR) (a : GR) (b : GR) : Statement (.sar d a b) := of_fields rfl rfl (by decide) (by have := d.isLt; have := a.isLt; have := b.isLt; simp only [p20, p15, p10]; omega)
theorem FieldsFit.rol (d : GR) (a : GR) (b : GR) : Statement (.rol d a b) := of_fields rfl rfl (by decide) (by have := d.isLt; have := a.isLt; have := b.isLt; simp only [p20, p15, p10]; omega)
theorem FieldsFit.min (d : GR) (a : GR) (b : GR) : Statement (.min d a b) := of_fields rfl rfl (by decide) (by have := d.isLt; have := a.isLt; have := b.isLt; simp only [p20, p15, p10]; omega)
theorem FieldsFit.max (d : GR) (a : GR) (b : GR) : Statement (.max d a b) := of_fields rfl rfl (by decide) (by have := d.isLt; have := a.isLt; have := b.isLt; simp only [p20, p15, p10]; omega)
theorem FieldsFit.minn (d : GR) (a : GR) (b : GR) : Statement (.minn d a b) := of_fields rfl rfl (by decide) (by have := d.isLt; have := a.isLt; have := b.isLt; simp only [p20, p15, p10]; omega)
theorem FieldsFit.maxn (d : GR) (a : GR) (b : GR) : Statement (.maxn d a b) := of_fields rfl rfl (by decide) (by have := d.isLt; have := a.isLt; have := b.isLt; simp only [p20, p15, p10]; omega)
theorem FieldsFit.seq (d : GR) (a : GR) (b : GR) : Statement (.seq d a b) := of_fields rfl rfl (by decide) (by have := d.isLt; have := a.isLt; have := b.isLt; simp only [p20, p15, p10]; omega)
theorem FieldsFit.sne (d : GR) (a : GR) (b : GR) : Statement (.sne d a b) := of_fields rfl rfl (by decide) (by have := d.isLt; have := a.isLt; have := b.isLt; simp only [p20, p15, p10]; omega)
theorem FieldsFit.slt (d : GR) (a : GR) (b : GR) : Statement (.slt d a b) := of_fields rfl rfl (by decide) (by have := d.isLt; have := a.isLt; have := b.isLt; simp only [p20, p15, p10]; omega)
theorem FieldsFit.sltn (d : GR) (a : GR) (b : GR) : Statement (.sltn d a b) := of_fields rfl rfl (by decide) (by have := d.isLt; have := a.isLt; have := b.isLt; simp only [p20, p15, p10]; omega)
theorem FieldsFit.sle (d : GR) (a : GR) (b : GR) : Statement (.sle d a b) := of_fields rfl rfl (by decide) (by have := d.isLt; have := a.isLt; have := b.isLt; simp only [p20, p15, p10]; omega)
theorem FieldsFit.slen (d : GR) (a : GR) (b : GR) : Statement (.slen d a b) := of_fields rfl rfl (by decide) (by have := d.isLt; have := a.isLt; have := b.isLt; simp only [p20, p15, p10]; omega)
theorem FieldsFit.clz (d : GR) (a : GR) : Statement (.clz d a) := of_fields rfl rfl (by decide) (by have := d.isLt; have := a.isLt; simp only [p20, p15]; omega)
theorem FieldsFit.ctz (d : GR) (a : GR) : Statement (.ctz d a) := of_fields rfl rfl (by decide) (by have := d.isLt; have := a.isLt; simp only [p20, p15]; omega)
theorem FieldsFit.popc (d : GR) (a : GR) : Statement (.popc d a) := of_fields rfl rfl (by decide) (by have := d.isLt; have := a.isLt; simp only [p20, p15]; omega)
theorem FieldsFit.brev (d : GR) (a : GR) : Statement (.brev d a) := of_fields rfl rfl (by decide) (by have := d.isLt; have := a.isLt; simp only [p20, p15]; omega)
theorem FieldsFit.addi (x : Ext) (d : GR) (a : GR) (i : BitVec 15) : Statement (.addi x d a i) := of_fields rfl rfl (by decide) (by have := d.isLt; have := a.isLt; have := i.isLt; simp only [p20, p15]; omega)
theorem FieldsFit.andi (x : Ext) (d : GR) (a : GR) (i : BitVec 15) : Statement (.andi x d a i) := of_fields rfl rfl (by decide) (by have := d.isLt; have := a.isLt; have := i.isLt; simp only [p20, p15]; omega)
theorem FieldsFit.ori (x : Ext) (d : GR) (a : GR) (i : BitVec 15) : Statement (.ori x d a i) := of_fields rfl rfl (by decide) (by have := d.isLt; have := a.isLt; have := i.isLt; simp only [p20, p15]; omega)
theorem FieldsFit.xori (x : Ext) (d : GR) (a : GR) (i : BitVec 15) : Statement (.xori x d a i) := of_fields rfl rfl (by decide) (by have := d.isLt; have := a.isLt; have := i.isLt; simp only [p20, p15]; omega)
theorem FieldsFit.shli (d : GR) (a : GR) (i : BitVec 15) : Statement (.shli d a i) := of_fields rfl rfl (by decide) (by have := d.isLt; have := a.isLt; have := i.isLt; simp only [p20, p15]; omega)
theorem FieldsFit.shri (d : GR) (a : GR) (i : BitVec 15) : Statement (.shri d a i) := of_fields rfl rfl (by decide) (by have := d.isLt; have := a.isLt; have := i.isLt; simp only [p20, p15]; omega)
theorem FieldsFit.sari (d : GR) (a : GR) (i : BitVec 15) : Statement (.sari d a i) := of_fields rfl rfl (by decide) (by have := d.isLt; have := a.isLt; have := i.isLt; simp only [p20, p15]; omega)
theorem FieldsFit.slti (x : Ext) (d : GR) (a : GR) (i : BitVec 15) : Statement (.slti x d a i) := of_fields rfl rfl (by decide) (by have := d.isLt; have := a.isLt; have := i.isLt; simp only [p20, p15]; omega)
theorem FieldsFit.li (x : Ext) (d : GR) (i : BitVec 15) : Statement (.li x d i) := of_fields rfl rfl (by decide) (by have := d.isLt; have := i.isLt; simp only [p20]; omega)
theorem FieldsFit.lih (x : Ext) (d : GR) (a : GR) (i : BitVec 15) : Statement (.lih x d a i) := of_fields rfl rfl (by decide) (by have := d.isLt; have := a.isLt; have := i.isLt; simp only [p20, p15]; omega)
theorem FieldsFit.bfx (d : GR) (a : GR) (pos : BitVec 6) (wid : BitVec 6) : Statement (.bfx d a pos wid) := of_fields rfl rfl (by decide) (by have := d.isLt; have := a.isLt; have := pos.isLt; have := wid.isLt; simp only [p20, p15]; omega)
theorem FieldsFit.bfxn (d : GR) (a : GR) (pos : BitVec 6) (wid : BitVec 6) : Statement (.bfxn d a pos wid) := of_fields rfl rfl (by decide) (by have := d.isLt; have := a.isLt; have := pos.isLt; have := wid.isLt; simp only [p20, p15]; omega)
theorem FieldsFit.bfi (d : GR) (a : GR) (pos : BitVec 6) (wid : BitVec 6) : Statement (.bfi d a pos wid) := of_fields rfl rfl (by decide) (by have := d.isLt; have := a.isLt; have := pos.isLt; have := wid.isLt; simp only [p20, p15]; omega)
theorem FieldsFit.sext (d : GR) (a : GR) (wid : BitVec 6) : Statement (.sext d a wid) := of_fields rfl rfl (by decide) (by have := d.isLt; have := a.isLt; have := wid.isLt; simp only [p20, p15]; omega)
theorem FieldsFit.zext (d : GR) (a : GR) (wid : BitVec 6) : Statement (.zext d a wid) := of_fields rfl rfl (by decide) (by have := d.isLt; have := a.isLt; have := wid.isLt; simp only [p20, p15]; omega)
theorem FieldsFit.sel (d : GR) (a : GR) (b : GR) (c : GR) : Statement (.sel d a b c) := of_fields rfl rfl (by decide) (by have := d.isLt; have := a.isLt; have := b.isLt; have := c.isLt; simp only [p20, p15, p10]; omega)
theorem FieldsFit.mova (g : GR) (w : AR) : Statement (.mova g w) := of_fields rfl rfl (by decide) (by have := g.isLt; have := w.isLt; simp only [p20]; omega)
theorem FieldsFit.wset (x : Ext) (g : GR) (w : AR) (i : BitVec 13) : Statement (.wset x g w i) := of_fields rfl rfl (by decide) (by have := g.isLt; have := w.isLt; have := i.isLt; simp only [p20]; omega)
theorem FieldsFit.wstep (x : Ext) (g : GR) (w : AR) (i : BitVec 13) : Statement (.wstep x g w i) := of_fields rfl rfl (by decide) (by have := g.isLt; have := w.isLt; have := i.isLt; simp only [p20]; omega)
theorem FieldsFit.wstride (x : Ext) (g : GR) (w : AR) (l : BitVec 3) (i : BitVec 13) : Statement (.wstride x g w l i) := of_fields rfl rfl (by decide) (by have := g.isLt; have := w.isLt; have := l.isLt; have := i.isLt; simp only [p20]; omega)
theorem FieldsFit.sysrd (g : GR) (s : SysReg) : Statement (.sysrd g s) := of_fields rfl rfl (by decide) (by have := g.isLt; have := sysReg_lt s; simp only [p20]; omega)
theorem FieldsFit.syswr (g : GR) (s : SysReg) : Statement (.syswr g s) := of_fields rfl rfl (by decide) (by have := g.isLt; have := sysReg_lt s; simp only [p20]; omega)
theorem FieldsFit.cnop : Statement .cnop := of_fields rfl rfl (by decide) (by decide)
theorem FieldsFit.beq (x : Ext) (a : GR) (b : GR) (o : BitVec 15) : Statement (.beq x a b o) := of_fields rfl rfl (by decide) (by have := a.isLt; have := b.isLt; have := o.isLt; simp only [p20, p15]; omega)
theorem FieldsFit.bne (x : Ext) (a : GR) (b : GR) (o : BitVec 15) : Statement (.bne x a b o) := of_fields rfl rfl (by decide) (by have := a.isLt; have := b.isLt; have := o.isLt; simp only [p20, p15]; omega)
theorem FieldsFit.blt (x : Ext) (a : GR) (b : GR) (o : BitVec 15) : Statement (.blt x a b o) := of_fields rfl rfl (by decide) (by have := a.isLt; have := b.isLt; have := o.isLt; simp only [p20, p15]; omega)
theorem FieldsFit.bge (x : Ext) (a : GR) (b : GR) (o : BitVec 15) : Statement (.bge x a b o) := of_fields rfl rfl (by decide) (by have := a.isLt; have := b.isLt; have := o.isLt; simp only [p20, p15]; omega)
theorem FieldsFit.bltn (x : Ext) (a : GR) (b : GR) (o : BitVec 15) : Statement (.bltn x a b o) := of_fields rfl rfl (by decide) (by have := a.isLt; have := b.isLt; have := o.isLt; simp only [p20, p15]; omega)
theorem FieldsFit.bgen (x : Ext) (a : GR) (b : GR) (o : BitVec 15) : Statement (.bgen x a b o) := of_fields rfl rfl (by decide) (by have := a.isLt; have := b.isLt; have := o.isLt; simp only [p20, p15]; omega)
theorem FieldsFit.jmp (x : Ext) (o : BitVec 15) : Statement (.jmp x o) := of_fields rfl rfl (by decide) (by have := o.isLt; omega)
theorem FieldsFit.jmpg (a : GR) : Statement (.jmpg a) := of_fields rfl rfl (by decide) (by have := a.isLt; simp only [p20]; omega)
theorem FieldsFit.loop (x : Ext) (l : BitVec 3) (n : BitVec 8) (r : Bool) (c : BitVec 13) : Statement (.loop x l n r c) := of_fields rfl rfl (by decide) (by have := l.isLt; have := n.isLt; have := bool_lt r; have := c.isLt; omega)
theorem FieldsFit.loopbrk (l : BitVec 3) : Statement (.loopbrk l) := of_fields rfl rfl (by decide) (by have := l.isLt; omega)
theorem FieldsFit.wait (wl : BitVec 4) (ws : BitVec 4) (wc : BitVec 4) (wt : BitVec 4) : Statement (.wait wl ws wc wt) := of_fields rfl rfl (by decide) (by have := wl.isLt; have := ws.isLt; have := wc.isLt; have := wt.isLt; omega)
theorem FieldsFit.yield : Statement .yield := of_fields rfl rfl (by decide) (by decide)
theorem FieldsFit.exit : Statement .exit := of_fields rfl rfl (by decide) (by decide)
theorem FieldsFit.gjoin (a : GR) (g : BitVec 10) : Statement (.gjoin a g) := of_fields rfl rfl (by decide) (by have := a.isLt; have := g.isLt; simp only [p15]; omega)
theorem FieldsFit.gleave (a : GR) (g : BitVec 10) : Statement (.gleave a g) := of_fields rfl rfl (by decide) (by have := a.isLt; have := g.isLt; simp only [p15]; omega)
theorem FieldsFit.gbar (a : GR) (g : BitVec 10) : Statement (.gbar a g) := of_fields rfl rfl (by decide) (by have := a.isLt; have := g.isLt; simp only [p15]; omega)
theorem FieldsFit.gcnt (d : GR) (a : GR) (g : BitVec 10) : Statement (.gcnt d a g) := of_fields rfl rfl (by decide) (by have := d.isLt; have := a.isLt; have := g.isLt; simp only [p20, p15]; omega)
theorem FieldsFit.pref (x : Ext) (a : GR) (o : BitVec 20) : Statement (.pref x a o) := of_fields rfl rfl (by decide) (by have := a.isLt; have := o.isLt; simp only [p20]; omega)
theorem FieldsFit.trap (c : BitVec 16) : Statement (.trap c) := of_fields rfl rfl (by decide) (by have := c.isLt; omega)
theorem FieldsFit.tret : Statement .tret := of_fields rfl rfl (by decide) (by decide)
theorem FieldsFit.ordset (o : BitVec 4) : Statement (.ordset o) := of_fields rfl rfl (by decide) (by have := o.isLt; omega)
theorem FieldsFit.lnop : Statement .lnop := of_fields rfl rfl (by decide) (by decide)
theorem FieldsFit.ld (x : Ext) (g : GR) (a : GR) (sz : Sz) (o : BitVec 12) : Statement (.ld x g a sz o) := of_fields rfl rfl (by decide) (by have := g.isLt; have := a.isLt; have := sz_lt sz; have := o.isLt; simp only [p20, p15]; omega)
theorem FieldsFit.st (x : Ext) (g : GR) (a : GR) (sz : Sz) (o : BitVec 12) : Statement (.st x g a sz o) := of_fields rfl rfl (by decide) (by have := g.isLt; have := a.isLt; have := sz_lt sz; have := o.isLt; simp only [p20, p15]; omega)
theorem FieldsFit.vld (x : Ext) (v : VR) (a : GR) (p : PR) (o : BitVec 12) : Statement (.vld x v a p o) := of_fields rfl rfl (by decide) (by have := v.isLt; have := a.isLt; have := p.isLt; have := o.isLt; simp only [p20, p15]; omega)
theorem FieldsFit.vst (x : Ext) (v : VR) (a : GR) (p : PR) (o : BitVec 12) : Statement (.vst x v a p o) := of_fields rfl rfl (by decide) (by have := v.isLt; have := a.isLt; have := p.isLt; have := o.isLt; simp only [p20, p15]; omega)
theorem FieldsFit.vlds (v : VR) (w : AR) (m : Bool) (p : PR) : Statement (.vlds v w m p) := of_fields rfl rfl (by decide) (by have := v.isLt; have := w.isLt; have := bool_lt m; have := p.isLt; simp only [p20]; omega)
theorem FieldsFit.vsts (v : VR) (w : AR) (m : Bool) (p : PR) : Statement (.vsts v w m p) := of_fields rfl rfl (by decide) (by have := v.isLt; have := w.isLt; have := bool_lt m; have := p.isLt; simp only [p20]; omega)
theorem FieldsFit.spld (g : GR) (w : AR) (m : Bool) (sz : Sz) : Statement (.spld g w m sz) := of_fields rfl rfl (by decide) (by have := g.isLt; have := w.isLt; have := bool_lt m; have := sz_lt sz; simp only [p20]; omega)
theorem FieldsFit.spst (g : GR) (w : AR) (m : Bool) (sz : Sz) : Statement (.spst g w m sz) := of_fields rfl rfl (by decide) (by have := g.isLt; have := w.isLt; have := bool_lt m; have := sz_lt sz; simp only [p20]; omega)
theorem FieldsFit.lda (x : Ext) (g : GR) (a : GR) (sz : Sz) (sc : Scope) (o : BitVec 10) : Statement (.lda x g a sz sc o) := of_fields rfl rfl (by decide) (by have := g.isLt; have := a.isLt; have := sz_lt sz; have := scope_lt sc; have := o.isLt; simp only [p20, p15]; omega)
theorem FieldsFit.stl (x : Ext) (g : GR) (a : GR) (sz : Sz) (sc : Scope) (o : BitVec 10) : Statement (.stl x g a sz sc o) := of_fields rfl rfl (by decide) (by have := g.isLt; have := a.isLt; have := sz_lt sz; have := scope_lt sc; have := o.isLt; simp only [p20, p15]; omega)
theorem FieldsFit.amo (g : GR) (a : GR) (b : GR) (op : Aop) (sc : Bool) (scope : Scope) (wide : Bool) : Statement (.amo g a b op sc scope wide) := of_fields rfl rfl (by decide) (by have := g.isLt; have := a.isLt; have := b.isLt; have := aop_lt op; have := bool_lt sc; have := scope_lt scope; have := bool_lt wide; simp only [p20, p15, p10]; omega)
theorem FieldsFit.cas (g : GR) (a : GR) (b : GR) (c : GR) (sc : Bool) (scope : Scope) (wide : Bool) : Statement (.cas g a b c sc scope wide) := of_fields rfl rfl (by decide) (by have := g.isLt; have := a.isLt; have := b.isLt; have := c.isLt; have := bool_lt sc; have := scope_lt scope; have := bool_lt wide; simp only [p20, p15, p10]; omega)
theorem FieldsFit.amow (a : GR) (b : GR) : Statement (.amow a b) := of_fields rfl rfl (by decide) (by have := a.isLt; have := b.isLt; simp only [p15, p10]; omega)
theorem FieldsFit.wopen (a : GR) (b : GR) : Statement (.wopen a b) := of_fields rfl rfl (by decide) (by have := a.isLt; have := b.isLt; simp only [p15, p10]; omega)
theorem FieldsFit.wclose (a : GR) : Statement (.wclose a) := of_fields rfl rfl (by decide) (by have := a.isLt; simp only [p15]; omega)
theorem FieldsFit.fence (sc : Scope) (k : FenceKind) : Statement (.fence sc k) := of_fields rfl rfl (by decide) (by have := scope_lt sc; have := fenceKind_lt k; omega)
theorem FieldsFit.drain : Statement .drain := of_fields rfl rfl (by decide) (by decide)
theorem FieldsFit.waitm (g : GR) (a : GR) (b : GR) (sc : Scope) : Statement (.waitm g a b sc) := of_fields rfl rfl (by decide) (by have := g.isLt; have := a.isLt; have := b.isLt; have := scope_lt sc; simp only [p20, p15, p10]; omega)
theorem FieldsFit.prefd (x : Ext) (a : GR) (l2 : Bool) (o : BitVec 12) : Statement (.prefd x a l2 o) := of_fields rfl rfl (by decide) (by have := a.isLt; have := bool_lt l2; have := o.isLt; simp only [p15]; omega)
theorem FieldsFit.expose (a : GR) (b : GR) : Statement (.expose a b) := of_fields rfl rfl (by decide) (by have := a.isLt; have := b.isLt; simp only [p15, p10]; omega)
theorem FieldsFit.fix (a : GR) (b : GR) : Statement (.fix a b) := of_fields rfl rfl (by decide) (by have := a.isLt; have := b.isLt; simp only [p15, p10]; omega)
theorem FieldsFit.ldrec (g : GR) (a : GR) (b : GR) : Statement (.ldrec g a b) := of_fields rfl rfl (by decide) (by have := g.isLt; have := a.isLt; have := b.isLt; simp only [p20, p15, p10]; omega)
theorem FieldsFit.clean (x : Ext) (n : GR) (a : GR) (o : BitVec 12) : Statement (.clean x n a o) := of_fields rfl rfl (by decide) (by have := n.isLt; have := a.isLt; have := o.isLt; simp only [p20, p15]; omega)
theorem FieldsFit.vnop : Statement .vnop := of_fields rfl rfl (by decide) (by decide)
theorem FieldsFit.vadd (x : Option VExt) (d : VR) (a : VR) (b : VR) (t : Ty) (m : RMode) (p : PR) : Statement (.vadd x d a b t m p) := of_fields rfl rfl (by decide) (pV3_lt ..)
theorem FieldsFit.vsub (x : Option VExt) (d : VR) (a : VR) (b : VR) (t : Ty) (m : RMode) (p : PR) : Statement (.vsub x d a b t m p) := of_fields rfl rfl (by decide) (pV3_lt ..)
theorem FieldsFit.vmul (x : Option VExt) (d : VR) (a : VR) (b : VR) (t : Ty) (m : RMode) (p : PR) : Statement (.vmul x d a b t m p) := of_fields rfl rfl (by decide) (pV3_lt ..)
theorem FieldsFit.vfma (x : Option VExt) (d : VR) (a : VR) (b : VR) (t : Ty) (m : RMode) (p : PR) : Statement (.vfma x d a b t m p) := of_fields rfl rfl (by decide) (pV3_lt ..)
theorem FieldsFit.vmin (x : Option VExt) (d : VR) (a : VR) (b : VR) (t : Ty) (p : PR) : Statement (.vmin x d a b t p) := of_fields rfl rfl (by decide) (pV3_lt ..)
theorem FieldsFit.vmax (x : Option VExt) (d : VR) (a : VR) (b : VR) (t : Ty) (p : PR) : Statement (.vmax x d a b t p) := of_fields rfl rfl (by decide) (pV3_lt ..)
theorem FieldsFit.vabs (x : Option VExt) (d : VR) (a : VR) (t : Ty) (p : PR) : Statement (.vabs x d a t p) := of_fields rfl rfl (by decide) (pV3_lt ..)
theorem FieldsFit.vneg (x : Option VExt) (d : VR) (a : VR) (t : Ty) (p : PR) : Statement (.vneg x d a t p) := of_fields rfl rfl (by decide) (pV3_lt ..)
theorem FieldsFit.vadds (x : Option VExt) (d : VR) (a : VR) (b : VR) (t : Ty) (p : PR) : Statement (.vadds x d a b t p) := of_fields rfl rfl (by decide) (pV3_lt ..)
theorem FieldsFit.vsubs (x : Option VExt) (d : VR) (a : VR) (b : VR) (t : Ty) (p : PR) : Statement (.vsubs x d a b t p) := of_fields rfl rfl (by decide) (pV3_lt ..)
theorem FieldsFit.vand (x : Option VExt) (d : VR) (a : VR) (b : VR) (t : Ty) (p : PR) : Statement (.vand x d a b t p) := of_fields rfl rfl (by decide) (pV3_lt ..)
theorem FieldsFit.vor (x : Option VExt) (d : VR) (a : VR) (b : VR) (t : Ty) (p : PR) : Statement (.vor x d a b t p) := of_fields rfl rfl (by decide) (pV3_lt ..)
theorem FieldsFit.vxor (x : Option VExt) (d : VR) (a : VR) (b : VR) (t : Ty) (p : PR) : Statement (.vxor x d a b t p) := of_fields rfl rfl (by decide) (pV3_lt ..)
theorem FieldsFit.vshl (x : Option VExt) (d : VR) (a : VR) (b : VR) (t : Ty) (p : PR) : Statement (.vshl x d a b t p) := of_fields rfl rfl (by decide) (pV3_lt ..)
theorem FieldsFit.vshr (x : Option VExt) (d : VR) (a : VR) (b : VR) (t : Ty) (p : PR) : Statement (.vshr x d a b t p) := of_fields rfl rfl (by decide) (pV3_lt ..)
theorem FieldsFit.vsar (x : Option VExt) (d : VR) (a : VR) (b : VR) (t : Ty) (p : PR) : Statement (.vsar x d a b t p) := of_fields rfl rfl (by decide) (pV3_lt ..)
theorem FieldsFit.vclamp (x : Option VExt) (d : VR) (a : VR) (b : VR) (t : Ty) (p : PR) : Statement (.vclamp x d a b t p) := of_fields rfl rfl (by decide) (pV3_lt ..)
theorem FieldsFit.vdiv (x : Option VExt) (d : VR) (a : VR) (b : VR) (t : Ty) (m : RMode) (p : PR) : Statement (.vdiv x d a b t m p) := of_fields rfl rfl (by decide) (pV3_lt ..)
theorem FieldsFit.vsqrt (x : Option VExt) (d : VR) (a : VR) (t : Ty) (m : RMode) (p : PR) : Statement (.vsqrt x d a t m p) := of_fields rfl rfl (by decide) (pV3_lt ..)
theorem FieldsFit.vrcp (x : Option VExt) (d : VR) (a : VR) (t : Ty) (m : RMode) (p : PR) : Statement (.vrcp x d a t m p) := of_fields rfl rfl (by decide) (pV3_lt ..)
theorem FieldsFit.vrsq (x : Option VExt) (d : VR) (a : VR) (t : Ty) (m : RMode) (p : PR) : Statement (.vrsq x d a t m p) := of_fields rfl rfl (by decide) (pV3_lt ..)
theorem FieldsFit.vexp (x : Option VExt) (d : VR) (a : VR) (t : Ty) (m : RMode) (p : PR) : Statement (.vexp x d a t m p) := of_fields rfl rfl (by decide) (pV3_lt ..)
theorem FieldsFit.vexp2 (x : Option VExt) (d : VR) (a : VR) (t : Ty) (m : RMode) (p : PR) : Statement (.vexp2 x d a t m p) := of_fields rfl rfl (by decide) (pV3_lt ..)
theorem FieldsFit.vlog2 (x : Option VExt) (d : VR) (a : VR) (t : Ty) (m : RMode) (p : PR) : Statement (.vlog2 x d a t m p) := of_fields rfl rfl (by decide) (pV3_lt ..)
theorem FieldsFit.vtanh (x : Option VExt) (d : VR) (a : VR) (t : Ty) (m : RMode) (p : PR) : Statement (.vtanh x d a t m p) := of_fields rfl rfl (by decide) (pV3_lt ..)
theorem FieldsFit.vrint (x : Option VExt) (d : VR) (a : VR) (t : Ty) (m : RMode) (p : PR) : Statement (.vrint x d a t m p) := of_fields rfl rfl (by decide) (pV3_lt ..)
theorem FieldsFit.vcmp (x : Option VExt) (pd : PR) (a : VR) (b : VR) (t : Ty) (c : Cnd) (p : PR) : Statement (.vcmp x pd a b t c p) := of_fields rfl rfl (by decide) (by have := pd.isLt; have := a.isLt; have := b.isLt; have := ty_lt t; have := cnd_lt c; have := p.isLt; omega)
theorem FieldsFit.vsel (x : Option VExt) (d : VR) (a : VR) (b : VR) (t : Ty) (p : PR) : Statement (.vsel x d a b t p) := of_fields rfl rfl (by decide) (pV3_lt ..)
theorem FieldsFit.vcvt (x : Option VExt) (d : VR) (a : VR) (nf : Fmt) (t : Ty) (m : RMode) (r : Bool) : Statement (.vcvt x d a nf t m r) := of_fields rfl rfl (by decide) (by have := d.isLt; have := a.isLt; have := fmt_lt nf; have := ty_lt t; have := rmode_lt m; have := bool_lt r; simp only [p20, p15]; omega)
theorem FieldsFit.vred (x : Option VExt) (d : VR) (a : VR) (op : RedOp) (t : Ty) (m : RMode) (p : PR) : Statement (.vred x d a op t m p) := of_fields rfl rfl (by decide) (by have := d.isLt; have := a.isLt; have := redOp_lt op; have := ty_lt t; have := rmode_lt m; have := p.isLt; simp only [p20, p15]; omega)
theorem FieldsFit.vscan (x : Option VExt) (d : VR) (a : VR) (op : RedOp) (t : Ty) (m : RMode) (p : PR) : Statement (.vscan x d a op t m p) := of_fields rfl rfl (by decide) (by have := d.isLt; have := a.isLt; have := redOp_lt op; have := ty_lt t; have := rmode_lt m; have := p.isLt; simp only [p20, p15]; omega)
theorem FieldsFit.vpart (x : Option VExt) (d : VR) (g : GR) (t : Ty) (p : PR) : Statement (.vpart x d g t p) := of_fields rfl rfl (by decide) (pV3_lt ..)
theorem FieldsFit.vgath (x : Option VExt) (d : VR) (a : VR) (b : VR) (t : Ty) (p : PR) : Statement (.vgath x d a b t p) := of_fields rfl rfl (by decide) (pV3_lt ..)
theorem FieldsFit.vscat (x : Option VExt) (d : VR) (a : VR) (b : VR) (t : Ty) (p : PR) : Statement (.vscat x d a b t p) := of_fields rfl rfl (by decide) (pV3_lt ..)
theorem FieldsFit.vperm (x : Option VExt) (d : VR) (a : VR) (b : VR) (t : Ty) (p : PR) : Statement (.vperm x d a b t p) := of_fields rfl rfl (by decide) (pV3_lt ..)
theorem FieldsFit.vzip (x : Option VExt) (d : VR) (a : VR) (b : VR) (t : Ty) (p : PR) : Statement (.vzip x d a b t p) := of_fields rfl rfl (by decide) (pV3_lt ..)
theorem FieldsFit.vunzip (x : Option VExt) (d : VR) (a : VR) (b : VR) (t : Ty) (p : PR) : Statement (.vunzip x d a b t p) := of_fields rfl rfl (by decide) (pV3_lt ..)
theorem FieldsFit.vbcast (x : Option VExt) (d : VR) (g : GR) (t : Ty) (p : PR) : Statement (.vbcast x d g t p) := of_fields rfl rfl (by decide) (pV3_lt ..)
theorem FieldsFit.vext (x : Option VExt) (d : GR) (a : VR) (g : GR) (t : Ty) : Statement (.vext x d a g t) := of_fields rfl rfl (by decide) (pV3_lt ..)
theorem FieldsFit.vins (x : Option VExt) (d : VR) (a : GR) (g : GR) (t : Ty) : Statement (.vins x d a g t) := of_fields rfl rfl (by decide) (pV3_lt ..)
theorem FieldsFit.viota (x : Option VExt) (d : VR) (g : GR) (t : Ty) (p : PR) : Statement (.viota x d g t p) := of_fields rfl rfl (by decide) (pV3_lt ..)
theorem FieldsFit.vrand (x : Option VExt) (d : VR) (t : Ty) (p : PR) : Statement (.vrand x d t p) := of_fields rfl rfl (by decide) (pV3_lt ..)
theorem FieldsFit.plog (d : PR) (a : PR) (b : PR) (lop : BitVec 4) : Statement (.plog d a b lop) := of_fields rfl rfl (by decide) (by have := d.isLt; have := a.isLt; have := b.isLt; have := lop.isLt; omega)
theorem FieldsFit.pcnt (a : PR) (b : PR) (g : GR) : Statement (.pcnt a b g) := of_fields rfl rfl (by decide) (by have := a.isLt; have := b.isLt; have := g.isLt; omega)
theorem FieldsFit.vmov (x : Option VExt) (d : VR) (a : VR) (t : Ty) (p : PR) : Statement (.vmov x d a t p) := of_fields rfl rfl (by decide) (pV3_lt ..)
theorem FieldsFit.mnop : Statement .mnop := of_fields rfl rfl (by decide) (by decide)
theorem FieldsFit.mpush (a : AR) (am : Bool) (s : AR) (sm : Bool) (qs : Bool) (h : Option Shadow) : Statement (.mpush a am s sm qs h) := of_fields rfl rfl (by decide) (by have := a.isLt; have := bool_lt am; have := s.isLt; have := bool_lt sm; have := bool_lt qs; have := shadow_lt h; simp only [pMA]; omega)
theorem FieldsFit.mpushz (a : AR) (am : Bool) (s : AR) (sm : Bool) (qs : Bool) (h : Option Shadow) : Statement (.mpushz a am s sm qs h) := of_fields rfl rfl (by decide) (by have := a.isLt; have := bool_lt am; have := s.isLt; have := bool_lt sm; have := bool_lt qs; have := shadow_lt h; simp only [pMA]; omega)
theorem FieldsFit.mdrain (a : AR) (am : Bool) (d : VR) (h : Option Shadow) : Statement (.mdrain a am d h) := of_fields rfl rfl (by decide) (by have := a.isLt; have := bool_lt am; have := d.isLt; have := shadow_lt h; simp only [p15, pMA]; omega)
theorem FieldsFit.mdrainz (a : AR) (am : Bool) (d : VR) (h : Option Shadow) : Statement (.mdrainz a am d h) := of_fields rfl rfl (by decide) (by have := a.isLt; have := bool_lt am; have := d.isLt; have := shadow_lt h; simp only [p15, pMA]; omega)
theorem FieldsFit.mdrains (a : AR) (am : Bool) (s : AR) (sm : Bool) (h : Option Shadow) : Statement (.mdrains a am s sm h) := of_fields rfl rfl (by decide) (by have := a.isLt; have := bool_lt am; have := s.isLt; have := bool_lt sm; have := shadow_lt h; simp only [pMA]; omega)
theorem FieldsFit.mdrainw (a : AR) (am : Bool) (g : GR) (h : Option Shadow) : Statement (.mdrainw a am g h) := of_fields rfl rfl (by decide) (by have := a.isLt; have := bool_lt am; have := g.isLt; have := shadow_lt h; simp only [p15, pMA]; omega)
theorem FieldsFit.mzero (a : AR) (am : Bool) (h : Option Shadow) : Statement (.mzero a am h) := of_fields rfl rfl (by decide) (by have := a.isLt; have := bool_lt am; have := shadow_lt h; simp only [pMA]; omega)
theorem FieldsFit.mswap : Statement .mswap := of_fields rfl rfl (by decide) (by decide)
theorem FieldsFit.mmodeWrap (h : Option Shadow) : Statement (.mmodeWrap h) := of_fields rfl rfl (by decide) (by have := shadow_lt h; omega)
theorem FieldsFit.mmodeSat (h : Option Shadow) : Statement (.mmodeSat h) := of_fields rfl rfl (by decide) (by have := shadow_lt h; omega)
theorem FieldsFit.mmodeClrovf (h : Option Shadow) : Statement (.mmodeClrovf h) := of_fields rfl rfl (by decide) (by have := shadow_lt h; omega)
theorem FieldsFit.mstsave (a : GR) (h : Option Shadow) : Statement (.mstsave a h) := of_fields rfl rfl (by decide) (by have := a.isLt; have := shadow_lt h; simp only [p20]; omega)
theorem FieldsFit.mstload (a : GR) (h : Option Shadow) : Statement (.mstload a h) := of_fields rfl rfl (by decide) (by have := a.isLt; have := shadow_lt h; simp only [p20]; omega)
theorem FieldsFit.mlds (w : AR) (k : Bool) : Statement (.mlds w k) := of_fields rfl rfl (by decide) (by have := w.isLt; have := bool_lt k; exact (shadow_lt _).trans (by decide))
theorem FieldsFit.mldst (w : AR) (k : Bool) : Statement (.mldst w k) := of_fields rfl rfl (by decide) (by have := w.isLt; have := bool_lt k; exact (shadow_lt _).trans (by decide))
theorem FieldsFit.mldss (w : AR) (k : Bool) : Statement (.mldss w k) := of_fields rfl rfl (by decide) (by have := w.isLt; have := bool_lt k; exact (shadow_lt _).trans (by decide))
theorem FieldsFit.xnop : Statement .xnop := of_fields rfl rfl (by decide) (by decide)
theorem FieldsFit.cpLd (a : GR) (b : GR) (x : XR) (s : CopySide) (o : CmdOrder) : Statement (.cpLd a b x s o) := of_fields rfl rfl (by decide) (pXE_lt _ _ _ _ _ _ (by decide))
theorem FieldsFit.cpSt (a : GR) (b : GR) (x : XR) (s : CopySide) (o : CmdOrder) : Statement (.cpSt a b x s o) := of_fields rfl rfl (by decide) (pXE_lt _ _ _ _ _ _ (by decide))
theorem FieldsFit.cpMv (b : GR) (x : XR) (s : CopySide) (o : CmdOrder) : Statement (.cpMv b x s o) := of_fields rfl rfl (by decide) (pXE_lt _ _ _ _ _ _ (by decide))
theorem FieldsFit.cpm (a : GR) (b : GR) (x : XR) (n : SpR) (o : CmdOrder) : Statement (.cpm a b x n o) := of_fields rfl rfl (by decide) (pXE_lt _ _ _ _ _ _ (by decide))
theorem FieldsFit.cpg (a : GR) (b : GR) (x : XR) (s : CopySide) (o : CmdOrder) : Statement (.cpg a b x s o) := of_fields rfl rfl (by decide) (pXE_lt _ _ _ _ _ _ (by decide))
theorem FieldsFit.cps (a : GR) (b : GR) (x : XR) (s : CopySide) (o : CmdOrder) : Statement (.cps a b x s o) := of_fields rfl rfl (by decide) (pXE_lt _ _ _ _ _ _ (by decide))
theorem FieldsFit.cpw (a : GR) (x : XR) (s : CopySide) (o : CmdOrder) : Statement (.cpw a x s o) := of_fields rfl rfl (by decide) (pXE_lt _ _ _ _ _ _ (by decide))
theorem FieldsFit.cpfScratch (b : GR) (x : XR) (s : CopySide) (o : CmdOrder) : Statement (.cpfScratch b x s o) := of_fields rfl rfl (by decide) (pXE_lt _ _ _ _ _ _ (by decide))
theorem FieldsFit.cpfGlobal (a : GR) (b : GR) (x : XR) (o : CmdOrder) : Statement (.cpfGlobal a b x o) := of_fields rfl rfl (by decide) (pXE_lt _ _ _ _ _ _ (by decide))
theorem FieldsFit.xshape (a : GR) (b : GR) (x : XR) (h : Bool) : Statement (.xshape a b x h) := of_fields rfl rfl (by decide) (by have := a.isLt; have := b.isLt; have := x.isLt; have := bool_lt h; simp only [p20, p15]; omega)
theorem FieldsFit.spdef (a : GR) (n : SpR) (size : BitVec 8) (elem : BitVec 2) : Statement (.spdef a n size elem) := of_fields rfl rfl (by decide) (by have := a.isLt; have := n.isLt; have := size.isLt; have := elem.isLt; simp only [p20]; omega)
theorem FieldsFit.sbind (q : QR) (n : SpR) : Statement (.sbind q n) := of_fields rfl rfl (by decide) (by have := q.isLt; have := n.isLt; omega)
theorem FieldsFit.sbindNone (q : QR) : Statement (.sbindNone q) := of_fields rfl rfl (by decide) (by have := q.isLt; omega)
theorem FieldsFit.spadvP (a : GR) (n : SpR) : Statement (.spadvP a n) := of_fields rfl rfl (by decide) (by have := a.isLt; have := n.isLt; simp only [p20]; omega)
theorem FieldsFit.spadvC (a : GR) (n : SpR) : Statement (.spadvC a n) := of_fields rfl rfl (by decide) (by have := a.isLt; have := n.isLt; simp only [p20]; omega)
theorem FieldsFit.xfmt (a : GR) (b : GR) : Statement (.xfmt a b) := of_fields rfl rfl (by decide) (by have := a.isLt; have := b.isLt; simp only [p20, p15]; omega)
theorem FieldsFit.qpost (a : GR) (k : QR) : Statement (.qpost a k) := of_fields rfl rfl (by decide) (by have := a.isLt; have := k.isLt; simp only [p20]; omega)
theorem FieldsFit.qtake (a : GR) (d : GR) (k : QR) : Statement (.qtake a d k) := of_fields rfl rfl (by decide) (by have := a.isLt; have := d.isLt; have := k.isLt; simp only [p20, p15]; omega)
theorem FieldsFit.launch (a : GR) : Statement (.launch a) := of_fields rfl rfl (by decide) (by have := a.isLt; simp only [p20]; omega)
theorem FieldsFit.xcoll (a : GR) : Statement (.xcoll a) := of_fields rfl rfl (by decide) (by have := a.isLt; simp only [p20]; omega)
theorem FieldsFit.xshuf (a : GR) : Statement (.xshuf a) := of_fields rfl rfl (by decide) (by have := a.isLt; simp only [p20]; omega)
theorem FieldsFit.xstat (d : GR) (what : BitVec 3) (n : SpR) : Statement (.xstat d what n) := of_fields rfl rfl (by decide) (by have := d.isLt; have := what.isLt; have := n.isLt; simp only [p20]; omega)
theorem FieldsFit.rngsetAdd (a : GR) (b : GR) : Statement (.rngsetAdd a b) := of_fields rfl rfl (by decide) (by have := a.isLt; have := b.isLt; simp only [p20, p15]; omega)
theorem FieldsFit.rngsetSub (a : GR) (b : GR) : Statement (.rngsetSub a b) := of_fields rfl rfl (by decide) (by have := a.isLt; have := b.isLt; simp only [p20, p15]; omega)
theorem FieldsFit.loadRetire (id : Nat) : Statement (.loadRetire id) := of_event rfl rfl
theorem FieldsFit.accessPerform (id : Nat) (part : Nat) : Statement (.accessPerform id part) := of_event rfl rfl
theorem FieldsFit.windowCloseWrite (id : Nat) : Statement (.windowCloseWrite id) := of_event rfl rfl
theorem FieldsFit.restoration (k : Nat) (core : Nat) (hw : Nat) : Statement (.restoration k core hw) := of_event rfl rfl
theorem FieldsFit.copyCommandStart (id : Nat) : Statement (.copyCommandStart id) := of_event rfl rfl
theorem FieldsFit.spoolElementFire (id : Nat) (n : Nat) : Statement (.spoolElementFire id n) := of_event rfl rfl
theorem FieldsFit.copyCommandRetire (id : Nat) : Statement (.copyCommandRetire id) := of_event rfl rfl
theorem FieldsFit.commandFailure (id : Nat) : Statement (.commandFailure id) := of_event rfl rfl
theorem FieldsFit.evaluatorStart (cell : Nat) (place : Option (Nat × Nat)) : Statement (.evaluatorStart cell place) := of_event rfl rfl
theorem FieldsFit.barrierComplete (rank : Nat) (g : Nat) : Statement (.barrierComplete rank g) := of_event rfl rfl
theorem FieldsFit.queueTermination (rank : Nat) (q : Nat) : Statement (.queueTermination rank q) := of_event rfl rfl
theorem FieldsFit.launchPlacement (id : Nat) (places : List (Nat × Nat)) : Statement (.launchPlacement id places) := of_event rfl rfl
theorem FieldsFit.parkedLaunchDrain (rank : Nat) : Statement (.parkedLaunchDrain rank) := of_event rfl rfl
theorem FieldsFit.childQueueStart (vf : Nat) : Statement (.childQueueStart vf) := of_event rfl rfl
theorem FieldsFit.launchComplete (id : Nat) : Statement (.launchComplete id) := of_event rfl rfl
theorem FieldsFit.cmdLaunch (vf : Nat) (q : Nat) : Statement (.cmdLaunch vf q) := of_event rfl rfl
theorem FieldsFit.cmdLaunchIndirect (vf : Nat) (q : Nat) : Statement (.cmdLaunchIndirect vf q) := of_event rfl rfl
theorem FieldsFit.waitev (vf : Nat) (q : Nat) : Statement (.waitev vf q) := of_event rfl rfl
theorem FieldsFit.waitevSatisfied (vf : Nat) (q : Nat) : Statement (.waitevSatisfied vf q) := of_event rfl rfl
theorem FieldsFit.signal (vf : Nat) (q : Nat) : Statement (.signal vf q) := of_event rfl rfl
theorem FieldsFit.cmdLoop (vf : Nat) (q : Nat) : Statement (.cmdLoop vf q) := of_event rfl rfl
theorem FieldsFit.cmdIf (vf : Nat) (q : Nat) : Statement (.cmdIf vf q) := of_event rfl rfl
theorem FieldsFit.cmdCopy (vf : Nat) (q : Nat) : Statement (.cmdCopy vf q) := of_event rfl rfl
theorem FieldsFit.tlbinv (vf : Nat) (q : Nat) : Statement (.tlbinv vf q) := of_event rfl rfl
theorem FieldsFit.holdpoint (vf : Nat) (q : Nat) : Statement (.holdpoint vf q) := of_event rfl rfl
theorem FieldsFit.makeResident (rank : Nat) : Statement (.makeResident rank) := of_event rfl rfl
theorem FieldsFit.consistentCut (rank : Nat) : Statement (.consistentCut rank) := of_event rfl rfl
theorem FieldsFit.quantumExpiry (part : Nat) : Statement (.quantumExpiry part) := of_event rfl rfl
theorem FieldsFit.queueVacancy (vf : Nat) (q : Nat) (cycles : Nat) : Statement (.queueVacancy vf q cycles) := of_event rfl rfl
theorem FieldsFit.packetRoute (p : Packet) : Statement (.packetRoute p) := of_event rfl rfl
theorem FieldsFit.collectivePacket (coll : Nat) (pos : Nat) : Statement (.collectivePacket coll pos) := of_event rfl rfl
theorem FieldsFit.collectiveRetire (coll : Nat) (pos : Nat) : Statement (.collectiveRetire coll pos) := of_event rfl rfl
theorem FieldsFit.holdNotice (job : Nat) (comm : Nat) (pos : Nat) : Statement (.holdNotice job comm pos) := of_event rfl rfl
theorem FieldsFit.resumeNotice (job : Nat) (comm : Nat) (pos : Nat) : Statement (.resumeNotice job comm pos) := of_event rfl rfl
theorem FieldsFit.shufflePacket (p : ShufPkt) : Statement (.shufflePacket p) := of_event rfl rfl
theorem FieldsFit.pairingTimeout (index : Nat) : Statement (.pairingTimeout index) := of_event rfl rfl
theorem FieldsFit.overprintDecode (group : Nat) : Statement (.overprintDecode group) := of_event rfl rfl
theorem FieldsFit.reissuePlain (rank : Nat) (shid : Nat) (blk : Nat) (dst : Nat) : Statement (.reissuePlain rank shid blk dst) := of_event rfl rfl
theorem FieldsFit.shuffleAbort (rank : Nat) (shid : Nat) : Statement (.shuffleAbort rank shid) := of_event rfl rfl
theorem FieldsFit.shuffleRetire (rank : Nat) (shid : Nat) : Statement (.shuffleRetire rank shid) := of_event rfl rfl
theorem FieldsFit.interruptRecord (box : Option Nat) : Statement (.interruptRecord box) := of_event rfl rfl
theorem FieldsFit.powerOn (verified : Bool) : Statement (.powerOn verified) := of_event rfl rfl
theorem FieldsFit.bundleIssue (k : Nat) : Statement (.bundleIssue k) := of_event rfl rfl
theorem FieldsFit.fixedLatencyLanding (k : Nat) : Statement (.fixedLatencyLanding k) := of_event rfl rfl
theorem FieldsFit.beatLanding (k : Nat) : Statement (.beatLanding k) := of_event rfl rfl
theorem FieldsFit.walkComplete (core : Nat) (rank : Nat) (va : Nat) : Statement (.walkComplete core rank va) := of_event rfl rfl
theorem FieldsFit.windowAdd (id : Nat) : Statement (.windowAdd id) := of_event rfl rfl
theorem FieldsFit.boundaryFailureTrap (k : Nat) : Statement (.boundaryFailureTrap k) := of_event rfl rfl
theorem FieldsFit.asyncTrap (k : Nat) : Statement (.asyncTrap k) := of_event rfl rfl
theorem FieldsFit.preempt (k : Nat) : Statement (.preempt k) := of_event rfl rfl
theorem FieldsFit.budgetExceeded (k : Nat) : Statement (.budgetExceeded k) := of_event rfl rfl
theorem FieldsFit.cutOverrun (k : Nat) : Statement (.cutOverrun k) := of_event rfl rfl
theorem FieldsFit.matrixSwitch (k : Nat) : Statement (.matrixSwitch k) := of_event rfl rfl
theorem FieldsFit.latentCellRead (id : Nat) (part : Nat) : Statement (.latentCellRead id part) := of_event rfl rfl
theorem FieldsFit.tierMove (rank : Nat) (va : Nat) (pa : Nat) : Statement (.tierMove rank va pa) := of_event rfl rfl
theorem FieldsFit.deschedule (rank : Nat) : Statement (.deschedule rank) := of_event rfl rfl
theorem FieldsFit.cutAbandon (rank : Nat) : Statement (.cutAbandon rank) := of_event rfl rfl
theorem FieldsFit.budgetWindowEnd (vf : Nat) (u : BudgetUnit) : Statement (.budgetWindowEnd vf u) := of_event rfl rfl
theorem FieldsFit.lastCollection (addr : Nat) : Statement (.lastCollection addr) := of_event rfl rfl
theorem FieldsFit.lastCollectionOverrun (vf : Nat) (q : Nat) : Statement (.lastCollectionOverrun vf q) := of_event rfl rfl
theorem FieldsFit.restore (addr : Nat) : Statement (.restore addr) := of_event rfl rfl
theorem FieldsFit.restoreReplay (addr : Nat) : Statement (.restoreReplay addr) := of_event rfl rfl
theorem FieldsFit.vfReset (vf : Nat) : Statement (.vfReset vf) := of_event rfl rfl
theorem FieldsFit.vfEnable (vf : Nat) : Statement (.vfEnable vf) := of_event rfl rfl
theorem FieldsFit.migration (order : Nat) (attested : Bool) (accepted : Bool) (linkOk : Bool) : Statement (.migration order attested accepted linkOk) := of_event rfl rfl
theorem FieldsFit.rankForget (value : W64) : Statement (.rankForget value) := of_event rfl rfl
theorem FieldsFit.clpart (value : W64) : Statement (.clpart value) := of_event rfl rfl
theorem FieldsFit.linkFailure (port : Nat) : Statement (.linkFailure port) := of_event rfl rfl
theorem FieldsFit.slotRequest (coll : Nat) (node : Nat) (port : Nat) : Statement (.slotRequest coll node port) := of_event rfl rfl
theorem FieldsFit.slotLeaseExpiry (slot : Nat) : Statement (.slotLeaseExpiry slot) := of_event rfl rfl
theorem FieldsFit.collTimeout (coll : Nat) (pos : Nat) : Statement (.collTimeout coll pos) := of_event rfl rfl
theorem FieldsFit.shuffleTimeout (rank : Nat) (shid : Nat) : Statement (.shuffleTimeout rank shid) := of_event rfl rfl
theorem FieldsFit.spill (rank : Nat) (b : PktBody) : Statement (.spill rank b) := of_event rfl rfl
theorem FieldsFit.retry (b : PktBody) : Statement (.retry b) := of_event rfl rfl
theorem FieldsFit.sealcons (value : W64) : Statement (.sealcons value) := of_event rfl rfl
theorem FieldsFit.jcons (value : W64) : Statement (.jcons value) := of_event rfl rfl
theorem FieldsFit.mbox (vf : Nat) (addr : W64) : Statement (.mbox vf addr) := of_event rfl rfl
theorem FieldsFit.hvmbox (addr : W64) : Statement (.hvmbox addr) := of_event rfl rfl
theorem FieldsFit.doorbell (vf : Nat) (q : Nat) (value : W64) : Statement (.doorbell vf q value) := of_event rfl rfl
theorem FieldsFit.qctlRestart (vf : Nat) (q : Nat) : Statement (.qctlRestart vf q) := of_event rfl rfl
theorem FieldsFit.qctlRestartAfter (vf : Nat) (q : Nat) : Statement (.qctlRestartAfter vf q) := of_event rfl rfl
theorem FieldsFit.qctlDiscard (vf : Nat) (q : Nat) : Statement (.qctlDiscard vf q) := of_event rfl rfl
theorem FieldsFit.fractResume (vf : Nat) : Statement (.fractResume vf) := of_event rfl rfl
theorem FieldsFit.fractEnd (vf : Nat) : Statement (.fractEnd vf) := of_event rfl rfl
theorem FieldsFit.queueEnable (vf : Nat) (q : Nat) (cfg : W64) : Statement (.queueEnable vf q cfg) := of_event rfl rfl
theorem FieldsFit.queueDisable (vf : Nat) (q : Nat) : Statement (.queueDisable vf q) := of_event rfl rfl
theorem FieldsFit.cap (value : W64) : Statement (.cap value) := of_event rfl rfl
theorem FieldsFit.registerWrite (r : HostReg) (value : Nat) : Statement (.registerWrite r value) := of_event rfl rfl
theorem FieldsFit.hostWindowRead (vf : Nat) (w : Nat) (off : Nat) (len : Nat) : Statement (.hostWindowRead vf w off len) := of_event rfl rfl
theorem FieldsFit.hostWindowWrite (vf : Nat) (w : Nat) (off : Nat) (bytes : List Byte) : Statement (.hostWindowWrite vf w off bytes) := of_event rfl rfl
theorem FieldsFit.jhlRetrain (vf : Nat) : Statement (.jhlRetrain vf) := of_event rfl rfl
theorem FieldsFit.routingTableWrite (dev : Nat) (ports : List Nat) : Statement (.routingTableWrite dev ports) := of_event rfl rfl
theorem FieldsFit.dlqcons (rank : Nat) (value : W32) : Statement (.dlqcons rank value) := of_event rfl rfl
theorem FieldsFit.rankCreate : Statement .rankCreate := of_event rfl rfl
theorem FieldsFit.retryResend : Statement .retryResend := of_event rfl rfl
theorem FieldsFit.seal : Statement .seal := of_event rfl rfl
theorem FieldsFit.sealreq : Statement .sealreq := of_event rfl rfl
theorem FieldsFit.attreq : Statement .attreq := of_event rfl rfl
theorem FieldsFit.thermalLimit : Statement .thermalLimit := of_event rfl rfl
theorem FieldsFit.thermalShutdown : Statement .thermalShutdown := of_event rfl rfl
theorem FieldsFit.deviceReset : Statement .deviceReset := of_event rfl rfl
theorem FieldsFit.temperatureLimitCleared : Statement .temperatureLimitCleared := of_event rfl rfl


end Sys2Proof.Laws
end

