-- ==== Sys2Proof/Laws/Services.lean ====
section
/-! SUPPORT. Laws/Services.lean: everything that reports, dead letters, settlements and the hub's reads of a rank can change. -/

namespace Sys2Proof.Machine

/-- What records of failures and the end of an operation may change: memory, which stays canonical, what waits for one of its bytes, the tables of ranks, virtual functions, contexts, commands and accesses, and the owner of a core's matrix state; never a core's caches or the matrix state itself; and, where memory's blocks are not all sound, which of them are, the journal and the counter of free values. -/
structure OnlyRecords (s t : State) : Prop where
  frame : t = { s with
    mem := t.mem, owned := t.owned, ranks := t.ranks, vfs := t.vfs, ctxs := t.ctxs, cmds := t.cmds, accs := t.accs, cores := t.cores, watches := t.watches
    bad := t.bad, hub := t.hub, free := t.free }
  sound : s.bad = [] → t.bad = [] ∧ t.hub = s.hub ∧ t.free = s.free
  canonical : s.mem.wf = true → t.mem.wf = true
  owner : ∀ n, ∃ o, t.core n = { s.core n with mowner := o }

/-- A change that leaves every core as it was. -/
theorem OnlyRecords.of {s t : State} (h : t = { s with mem := t.mem, owned := t.owned, ranks := t.ranks, vfs := t.vfs, ctxs := t.ctxs, cmds := t.cmds, accs := t.accs })
    (w : s.mem.wf = true → t.mem.wf = true) : OnlyRecords s t :=
  ⟨by rw [h], fun e => by rw [h]; exact ⟨e, rfl, rfl⟩, w, fun n => ⟨(s.core n).mowner, by rw [h]; rfl⟩⟩

theorem OnlyRecords.refl (s : State) : OnlyRecords s s := .of rfl id

theorem OnlyRecords.trans {s t u : State} (h : OnlyRecords s t) (g : OnlyRecords t u) : OnlyRecords s u :=
  ⟨by rw [g.frame, h.frame], fun e => by
    obtain ⟨a, b, c⟩ := h.sound e
    obtain ⟨x, y, z⟩ := g.sound a
    exact ⟨x, y.trans b, z.trans c⟩, g.canonical ∘ h.canonical, fun n => by
    obtain ⟨o, ho⟩ := h.owner n
    obtain ⟨q, hq⟩ := g.owner n
    exact ⟨q, by rw [hq, ho]⟩⟩

theorem OnlyRecords.free {s t : State} (h : OnlyRecords s t) (b : s.bad = []) : t.free = s.free := (h.sound b).2.2
theorem OnlyRecords.agenda {s t : State} (h : OnlyRecords s t) : t.agenda = s.agenda := by rw [h.frame]
theorem OnlyRecords.cur {s t : State} (h : OnlyRecords s t) : t.cur = s.cur := by rw [h.frame]
theorem OnlyRecords.issue {s t : State} (h : OnlyRecords s t) : t.issue = s.issue := by rw [h.frame]
theorem OnlyRecords.nextId {s t : State} (h : OnlyRecords s t) : t.nextId = s.nextId := by rw [h.frame]
theorem OnlyRecords.tlb2 {s t : State} (h : OnlyRecords s t) : t.tlb2 = s.tlb2 := by rw [h.frame]
theorem OnlyRecords.cells {s t : State} (h : OnlyRecords s t) : t.cells = s.cells := by rw [h.frame]
theorem OnlyRecords.bad {s t : State} (h : OnlyRecords s t) (b : s.bad = []) : t.bad = [] := (h.sound b).1
theorem OnlyRecords.withdrawn {s t : State} (h : OnlyRecords s t) : t.withdrawn = s.withdrawn := by rw [h.frame]
theorem OnlyRecords.wins {s t : State} (h : OnlyRecords s t) : t.wins = s.wins := by rw [h.frame]
theorem OnlyRecords.groups {s t : State} (h : OnlyRecords s t) : t.groups = s.groups := by rw [h.frame]
theorem OnlyRecords.launches {s t : State} (h : OnlyRecords s t) : t.launches = s.launches := by rw [h.frame]
theorem OnlyRecords.verified {s t : State} (h : OnlyRecords s t) : t.verified = s.verified := by rw [h.frame]
theorem OnlyRecords.fused {s t : State} (h : OnlyRecords s t) : t.fused = s.fused := by rw [h.frame]
theorem OnlyRecords.running {s t : State} (h : OnlyRecords s t) : t.running = s.running := by rw [h.frame]
theorem OnlyRecords.cuts {s t : State} (h : OnlyRecords s t) : t.cuts = s.cuts := by rw [h.frame]
theorem OnlyRecords.collections {s t : State} (h : OnlyRecords s t) : t.collections = s.collections := by rw [h.frame]
theorem OnlyRecords.segments {s t : State} (h : OnlyRecords s t) : t.segments = s.segments := by rw [h.frame]
theorem OnlyRecords.served {s t : State} (h : OnlyRecords s t) : t.served = s.served := by rw [h.frame]
theorem OnlyRecords.switching {s t : State} (h : OnlyRecords s t) : t.switching = s.switching := by rw [h.frame]
theorem OnlyRecords.colls {s t : State} (h : OnlyRecords s t) : t.colls = s.colls := by rw [h.frame]
theorem OnlyRecords.contribs {s t : State} (h : OnlyRecords s t) : t.contribs = s.contribs := by rw [h.frame]
theorem OnlyRecords.collAborts {s t : State} (h : OnlyRecords s t) : t.collAborts = s.collAborts := by rw [h.frame]
theorem OnlyRecords.redslots {s t : State} (h : OnlyRecords s t) : t.redslots = s.redslots := by rw [h.frame]
theorem OnlyRecords.rotors {s t : State} (h : OnlyRecords s t) : t.rotors = s.rotors := by rw [h.frame]
theorem OnlyRecords.slotPtr {s t : State} (h : OnlyRecords s t) : t.slotPtr = s.slotPtr := by rw [h.frame]
theorem OnlyRecords.slotReqs {s t : State} (h : OnlyRecords s t) : t.slotReqs = s.slotReqs := by rw [h.frame]
theorem OnlyRecords.unconfirmed {s t : State} (h : OnlyRecords s t) : t.unconfirmed = s.unconfirmed := by rw [h.frame]
theorem OnlyRecords.remoteReads {s t : State} (h : OnlyRecords s t) : t.remoteReads = s.remoteReads := by rw [h.frame]
theorem OnlyRecords.routes {s t : State} (h : OnlyRecords s t) : t.routes = s.routes := by rw [h.frame]
theorem OnlyRecords.failedPorts {s t : State} (h : OnlyRecords s t) : t.failedPorts = s.failedPorts := by rw [h.frame]
theorem OnlyRecords.shufs {s t : State} (h : OnlyRecords s t) : t.shufs = s.shufs := by rw [h.frame]
theorem OnlyRecords.pairing {s t : State} (h : OnlyRecords s t) : t.pairing = s.pairing := by rw [h.frame]
theorem OnlyRecords.decoding {s t : State} (h : OnlyRecords s t) : t.decoding = s.decoding := by rw [h.frame]
theorem OnlyRecords.retries {s t : State} (h : OnlyRecords s t) : t.retries = s.retries := by rw [h.frame]
theorem OnlyRecords.inbox {s t : State} (h : OnlyRecords s t) : t.inbox = s.inbox := by rw [h.frame]
theorem OnlyRecords.outbox {s t : State} (h : OnlyRecords s t) : t.outbox = s.outbox := by rw [h.frame]
theorem OnlyRecords.remote {s t : State} (h : OnlyRecords s t) : t.remote = s.remote := by rw [h.frame]
theorem OnlyRecords.located {s t : State} (h : OnlyRecords s t) : t.located = s.located := by rw [h.frame]
theorem OnlyRecords.hostReplies {s t : State} (h : OnlyRecords s t) : t.hostReplies = s.hostReplies := by rw [h.frame]
theorem OnlyRecords.messages {s t : State} (h : OnlyRecords s t) : t.messages = s.messages := by rw [h.frame]
theorem OnlyRecords.hub {s t : State} (h : OnlyRecords s t) (b : s.bad = []) : t.hub = s.hub := (h.sound b).2.1
theorem OnlyRecords.flips {s t : State} (h : OnlyRecords s t) : t.flips = s.flips := by rw [h.frame]
theorem OnlyRecords.holds {s t : State} (h : OnlyRecords s t) : t.holds = s.holds := by rw [h.frame]
theorem OnlyRecords.far {s t : State} (h : OnlyRecords s t) : t.far = s.far := by rw [h.frame]
theorem OnlyRecords.moved {s t : State} (h : OnlyRecords s t) : t.moved = s.moved := by rw [h.frame]
theorem OnlyRecords.arriving {s t : State} (h : OnlyRecords s t) : t.arriving = s.arriving := by rw [h.frame]

/-! ### Records (R299, R304, R380) -/

theorem State.interrupt_frame (s : State) (v kind vk data q : Nat) : s.interrupt v kind vk data q = { s with vfs := (s.interrupt v kind vk data q).vfs } := rfl
theorem State.hvInterrupt_frame (s : State) (kind vf vk data : Nat) : s.hvInterrupt kind vf vk data = { s with hub := (s.hvInterrupt kind vf vk data).hub } := rfl

theorem OnlyRecords.modCtx (s : State) (k : Nat) (f : Ctx → Ctx) : OnlyRecords s (s.modCtx k f) := .of rfl id
theorem OnlyRecords.modRank (s : State) (k : Nat) (f : RankRec → RankRec) : OnlyRecords s (s.modRank k f) := .of rfl id
theorem OnlyRecords.dropAcc (s : State) (id : Nat) : OnlyRecords s (s.dropAcc id) := .of rfl fun h => h
theorem OnlyRecords.interrupt (s : State) (v kind vk data q : Nat) : OnlyRecords s (s.interrupt v kind vk data q) := .of rfl id
theorem OnlyRecords.numbered (s : State) (rank : Nat) (r : Report) : OnlyRecords s (s.numbered rank r).2 := OnlyRecords.modRank ..

theorem OnlyRecords.hubWrite {s t : State} {rank va : Nat} {l : List Byte} (h : s.hubWrite rank va l = some t) : OnlyRecords s t := by
  obtain ⟨hf, hw⟩ := State.hubWrite_frame h
  exact ⟨by rw [hf], fun e => State.hubWrite_sound e h, hw, fun n => ⟨(s.core n).mowner, by rw [hf]; rfl⟩⟩

theorem OnlyRecords.hubWriteD (s : State) (rank va : Nat) (l : List Byte) : OnlyRecords s ((s.hubWrite rank va l).getD s) := by
  cases h : s.hubWrite rank va l with
  | none => exact OnlyRecords.refl s
  | some t => exact OnlyRecords.hubWrite h

/-- A dead letter changes memory, the rank's record and at most its virtual function's mailbox. -/
theorem OnlyRecords.deadLetter (s : State) (rank : Nat) (r : Report) : OnlyRecords s (s.deadLetter rank r) := by
  unfold State.deadLetter
  dsimp only
  split
  · exact OnlyRecords.modRank ..
  · split
    · exact (OnlyRecords.hubWriteD ..).trans ((OnlyRecords.modRank ..).trans (OnlyRecords.interrupt ..))
    · exact (OnlyRecords.hubWriteD ..).trans (OnlyRecords.modRank ..)

theorem OnlyRecords.deadLetterNew (s : State) (rank : Nat) (r : Report) : OnlyRecords s (s.deadLetterNew rank r) :=
  (OnlyRecords.numbered s rank r).trans (OnlyRecords.deadLetter ..)

/-- Reports that take their places change contexts and the numbering of ranks. -/
theorem OnlyRecords.fillReports (s : State) (k n : Nat) : OnlyRecords s (s.fillReports k n) := by
  induction n generalizing s with
  | zero => exact OnlyRecords.refl s
  | succ n ih =>
    unfold State.fillReports
    dsimp only
    split
    · exact OnlyRecords.refl s
    · split
      · exact (OnlyRecords.numbered ..).trans ((OnlyRecords.modCtx ..).trans (ih _))
      · exact OnlyRecords.refl s

/-- A context that gives up the matrix state changes its owner. -/
theorem OnlyRecords.disown (s : State) (k : Nat) : OnlyRecords s (s.disown k) := by
  unfold State.disown
  dsimp only
  split
  · exact OnlyRecords.refl s
  · next n hw _ =>
    split
    · refine ⟨rfl, fun e => ⟨e, rfl, rfl⟩, id, fun m => ?_⟩
      rw [State.core_setCore]
      by_cases e : m = n
      · exact ⟨0xFFFF, by rw [if_pos e, e]⟩
      · exact ⟨(s.core m).mowner, by rw [if_neg e]⟩
    · exact OnlyRecords.refl s

theorem OnlyRecords.releaseEnded (s : State) (k : Nat) : OnlyRecords s (s.releaseEnded k) := by
  unfold State.releaseEnded
  split
  · exact (OnlyRecords.disown ..).trans (OnlyRecords.modCtx ..)
  · exact OnlyRecords.refl s

theorem OnlyRecords.retireCmd (s : State) (id : Nat) : OnlyRecords s (s.retireCmd id) := by
  unfold State.retireCmd
  split
  · exact OnlyRecords.refl s
  · next c _ =>
    have h : OnlyRecords s { s with cmds := s.cmds.filter fun x => x.id != id } := .of rfl fun h => h
    exact h.trans ((OnlyRecords.modCtx ..).trans (OnlyRecords.releaseEnded ..))

/-- A report changes contexts and numbering; for a context that has ended, what a dead letter changes, and the command it cancels. -/
theorem OnlyRecords.report (s : State) (k rank : Nat) (r : Report) : OnlyRecords s (s.report k rank r) := by
  unfold State.report
  split
  · exact (OnlyRecords.modCtx ..).trans (OnlyRecords.fillReports ..)
  · dsimp only
    split
    · exact (OnlyRecords.deadLetterNew ..).trans (OnlyRecords.retireCmd ..)
    · exact OnlyRecords.deadLetterNew ..

theorem OnlyRecords.boundaryFailure (s : State) (k : Nat) (q : Cause) (a : Nat) : OnlyRecords s (s.boundaryFailure k q a) := by
  unfold State.boundaryFailure
  split
  · exact OnlyRecords.modCtx ..
  · exact OnlyRecords.refl s

theorem OnlyRecords.collFailure (s : State) (k rank : Nat) (q : Cause) (a opc epc : Nat) : OnlyRecords s (s.collFailure k rank q a opc epc) := by
  unfold State.collFailure
  split
  · exact OnlyRecords.modCtx ..
  · exact OnlyRecords.deadLetterNew ..

/-- A failure of an operation found after issue changes what a report or a boundary failure changes. -/
theorem OnlyRecords.accFailed (s : State) (a : Acc) (q : Cause) (x : Nat) : OnlyRecords s (s.accFailed a q x) := by
  unfold State.accFailed
  dsimp only
  have both : ∀ b : Bool, OnlyRecords s (if b = true then s.boundaryFailure a.ctx q x
      else s.report a.ctx a.rank (failedOp q (opcOf a.slot a.opc) (s.ctx a.ctx) x a.epc 0 none)) := by
    intro b
    split
    · exact OnlyRecords.boundaryFailure ..
    · exact OnlyRecords.report ..
  exact both _

theorem OnlyRecords.accFailures (s : State) (a : Acc) (l : List (Cause × Nat)) : OnlyRecords s (s.accFailures a l) := by
  induction l generalizing s with
  | nil => exact OnlyRecords.refl s
  | cons e l ih => exact (OnlyRecords.accFailed ..).trans (ih _)

/-- The settling of an operation does nothing, or it removes the operation, whose parts are all answered, lets its counter fall and reports its failures. -/
theorem State.settleOne_cases (s : State) (id : Nat) :
    s.settleOne id = s ∨ ∃ a, s.acc? id = some a ∧ a.parts.all Part.answered = true ∧
      s.settleOne id = ((s.dropAcc id).modCtx a.ctx fun c => c.countDown a.cls id).accFailures a a.failures := by
  unfold State.settleOne
  cases h : s.acc? id with
  | none => exact .inl rfl
  | some a =>
    dsimp only
    cases hp : a.parts.all Part.answered with
    | false => exact .inl rfl
    | true =>
      cases hw : s.reportWaits a with
      | true => exact .inl rfl
      | false =>
        refine Or.imp (fun e => e) (fun e => ⟨a, rfl, hp, e⟩) ?_
        generalize State.accFailures _ a a.failures = u
        clear hp hw h
        obtain ⟨i, ct, rk, co, sl, op, ep, kind, cls, rest⟩ := a
        cases kind with
        | load d => cases d <;> cases cls <;> first | exact .inl rfl | exact .inr rfl
        | _ => cases cls <;> first | exact .inl rfl | exact .inr rfl

/-- What a settlement may change. -/
theorem OnlyRecords.settleOne (s : State) (id : Nat) : OnlyRecords s (s.settleOne id) := by
  rcases s.settleOne_cases id with h | ⟨a, -, -, h⟩
  · rw [h]; exact OnlyRecords.refl s
  · rw [h]
    exact (OnlyRecords.dropAcc s id).trans ((OnlyRecords.modCtx _ a.ctx fun c => c.countDown a.cls id).trans (OnlyRecords.accFailures _ a a.failures))

theorem OnlyRecords.settleList (l : List Nat) (s : State) : OnlyRecords s (l.foldl State.settleOne s) := by
  induction l generalizing s with
  | nil => exact OnlyRecords.refl s
  | cons id l ih => exact (OnlyRecords.settleOne s id).trans (ih _)

theorem OnlyRecords.settle (s : State) (id : Nat) : OnlyRecords s (s.settle id) :=
  (OnlyRecords.settleOne s id).trans (OnlyRecords.settleList ..)

/-! ### The hub's accesses to a rank (R193, R390) -/

theorem State.hubPart_frame {s t : State} {rank va : Nat} {need : Need} {l : List Byte} {p : Part} (h : s.hubPart rank need va l = .ok p t) :
    t = { s with mem := t.mem, owned := t.owned, bad := t.bad, hub := t.hub, free := t.free } ∧ (s.mem.wf = true → t.mem.wf = true) := by
  unfold State.hubPart at h
  split at h
  · cases h
  · next hx => (repeat' split at h) <;> cases h <;> exact State.hubTranslate_frame hx

/-- The pieces of a range, once translated, leave everything but A and D bits as it was. -/
theorem State.hubParts_frame {s t : State} {rank va : Nat} {need : Need} {d : List Byte} {l : List (Nat × Nat)} {ps : List Part}
    (h : s.hubParts rank need va d l = .ok ps t) : t = { s with mem := t.mem, owned := t.owned, bad := t.bad, hub := t.hub, free := t.free } ∧ (s.mem.wf = true → t.mem.wf = true) := by
  induction l generalizing s ps with
  | nil => cases h; exact ⟨rfl, id⟩
  | cons e l ih =>
    obtain ⟨a, n⟩ := e
    unfold State.hubParts at h
    split at h
    · cases h
    · next hp =>
      obtain ⟨hf, hw⟩ := State.hubPart_frame hp
      split at h
      · cases h
      · next hr => cases h; obtain ⟨hf', hw'⟩ := ih hr; exact ⟨by rw [hf', hf], hw' ∘ hw⟩

end Sys2Proof.Machine
end

