-- ==== Sys2Proof/Laws/Physical.lean ====
section
/-! SUPPORT. Laws/Physical.lean: what the hub's physical accesses do where every block of memory is sound. -/

namespace Sys2Proof.Machine

theorem State.physGet_sound {s : State} (h : s.bad = []) (pa n : Nat) : s.physGet pa n = (s.mem.read pa n, s) := by
  have g : (physBlocks pa n).any s.blockLost = false := List.any_eq_false.2 fun b _ => by rw [State.blockLost_sound h]; exact Bool.false_ne_true
  unfold State.physGet
  dsimp only
  rw [State.correctBlocks_sound h, g]
  rfl

theorem State.physPut?_sound {s : State} (h : s.bad = []) (pa : Nat) (l : List Byte) :
    s.physPut? pa l = if paRange pa l.length then some (s.writeMem (l.zipIdx.map fun (b, i) => (pa + i, b))) else none := by
  unfold State.physPut?
  split
  · dsimp only
    rw [State.checkBlocks_sound h]
    dsimp only
    congr 2
    rw [h]
    exact congrArg (fun b => { s with bad := b }) h.symm
  · rfl

/-- The hub's write of bytes: those bytes, where there is memory. -/
theorem State.physPut_sound {s : State} (h : s.bad = []) (pa : Nat) (l : List Byte) :
    s.physPut pa l = if paRange pa l.length then s.writeMem (l.zipIdx.map fun (b, i) => (pa + i, b)) else s := by
  unfold State.physPut
  rw [State.physPut?_sound h]
  split <;> rfl

theorem State.physPut_mem {s : State} (h : s.bad = []) {pa : Nat} {l : List Byte} (r : paRange pa l.length = true) :
    (s.physPut pa l).mem = s.mem.writeCells (l.zipIdx.map fun (b, i) => (pa + i, b)) := by
  rw [State.physPut_sound h, if_pos r, State.writeMem_mem]

end Sys2Proof.Machine
end

