-- ==== Sys2Proof/Safety.lean ====
section
/-! DEFINITION. Safety.lean: what counts as a run without a stop. -/

namespace Sys2Proof

/-- A state from which the next step answers a next state. -/
def Safe (s : Machine.State) : Prop := ∃ t, core.step s = .next t

/-- A run of n steps that never stops. -/
def SafeRun (s : Machine.State) (n : Nat) : Prop := ∃ t, core.run n s = .next t

end Sys2Proof
end

