-- ==== Sys2Proof/Tests/Slice0.lean ====
section
/-! SUPPORT. Tests/Slice0.lean: words of every format decode as the encoding tables of the spec have them, ill-formed terms are refused, single steps give results computed by hand from the spec, and every statement's hypotheses are met by a state. -/

namespace Sys2Proof.Tests

open Sys2Proof Sys2Proof.Machine Sys2Proof.Spec

/-- Format SI, R53. -/
theorem test_decode_addi : decodeSlot .s 0b100000_0_00111_00111_000000000000001 none = some (.addi none 7 7 1) := by decide
/-- Format CB, R55. -/
theorem test_decode_blt : decodeSlot .c 0b000011_0_00011_00100_111111111111101 none = some (.blt none 3 4 0x7FFD) := by decide
/-- Format CW, R55. -/
theorem test_decode_wait : decodeSlot .c 0b001011_0_0000_1111_1111_1111_000000000 none = some (.wait 0 15 15 15) := by decide
/-- Format CN, R55. -/
theorem test_decode_tret : decodeSlot .c 0b010100_0_0000000000000000000000000 none = some .tret := by decide
/-- Format CG, R55. -/
theorem test_decode_gbar : decodeSlot .c 0b010000_0_00000_00000_0000000101_00000 none = some (.gbar 0 5) := by decide
/-- Format CG, R55. -/
theorem test_decode_gcnt : decodeSlot .c 0b010001_0_01001_00000_0000000101_00000 none = some (.gcnt 9 0 5) := by decide
/-- Format LG, R56. -/
theorem test_decode_ld : decodeSlot .l 0b000001_0_00100_00001_110_000000000000 none = some (.ld none 4 1 .b64 0) := by decide
/-- Format LM, R56. -/
theorem test_decode_amo : decodeSlot .l 0b001011_0_00101_00100_00110_0001_0_00_1_00 none = some (.amo 5 4 6 .add false .core true) := by decide
/-- Format LC, R56. -/
theorem test_decode_cas : decodeSlot .l 0b001100_0_00110_00100_00111_01000_1_10_1_0 none = some (.cas 6 4 7 8 true .device true) := by decide
/-- Format LR, R56. -/
theorem test_decode_waitm : decodeSlot .l 0b010010_0_01001_00100_00101_10_00000000 none = some (.waitm 9 4 5 .device) := by decide
/-- Format LF, R56. -/
theorem test_decode_fence : decodeSlot .l 0b010000_0_10_10_000000000000000000000 none = some (.fence .device .full) := by decide
/-- Format LR, R56. -/
theorem test_decode_expose : decodeSlot .l 0b010100_0_00000_00100_00101_0000000000 none = some (.expose 4 5) := by decide
/-- Format LR, R56. -/
theorem test_decode_ldrec : decodeSlot .l 0b010110_0_00111_00010_01000_0000000000 none = some (.ldrec 7 2 8) := by decide
/-- Format VK, R57. -/
theorem test_decode_vcmp : decodeSlot .v 0b011011_0_001_00010_00011_0010_100_000_00 none = some (.vcmp none 1 2 3 .i32 .gt 0) := by decide
/-- Format VC, R57. -/
theorem test_decode_vcvt : decodeSlot .v 0b011101_0_00100_00010_00101_0111_100_0_00 none = some (.vcvt none 4 2 .e4m3 .bf16 .sr false) := by decide
/-- Format V3, R57. -/
theorem test_decode_vgath : decodeSlot .v 0b100001_0_01100_00010_01000_0010_000_000 none = some (.vgath none 12 2 8 .i32 0) := by decide
/-- M, R58. -/
theorem test_decode_mpush : decodeSlot .m 0b000001_0_0010_0_0011_1_0_000000_000_0000_0 none = some (.mpush 2 false 3 true false none) := by decide
/-- M, R58. -/
theorem test_decode_mpush_shadow : decodeSlot .m 0b000001_0_0010_1_0011_1_0_000000_001_0100_1 none = some (.mpush 2 true 3 true false (some ⟨.mlds, 4, true⟩)) := by decide
/-- M, R58. -/
theorem test_decode_mdrain : decodeSlot .m 0b000011_0_0011_1_00100_0000000_000_0000_0 none = some (.mdrain 3 true 4 none) := by decide
/-- M with BOP 0 and a shadow field, R58. -/
theorem test_decode_mldst : decodeSlot .m 0b000000_0_00000000000000000_010_0000_1 none = some (.mldst 0 true) := by decide
/-- Format XE, R59. -/
theorem test_decode_cpLd : decodeSlot .x 0b000001_0_00100_00000_001_0011_0_10_0_1_100 none = some (.cpLd 4 0 1 (.spool 3) ⟨false, true, .device⟩) := by decide
/-- Format XR, R59. -/
theorem test_decode_xshape : decodeSlot .x 0b000111_0_00111_01000_00000_001_000_0000 none = some (.xshape 7 8 1 false) := by decide
/-- Format XR, R59, R275: E set, SIZE and ELEM in the extension word. -/
theorem test_decode_spdef : decodeSlot .x 0b001000_1_00110_0000000000000000_0011 (some 1) = some (.spdef 6 3 1 0) := by decide
/-- Format XR, R59. -/
theorem test_decode_qtake : decodeSlot .x 0b001101_0_00100_00111_00000000_010_0000 none = some (.qtake 4 7 2) := by decide
/-- Format XR, R59. -/
theorem test_decode_xstat : decodeSlot .x 0b010001_0_01001_0000000000_001_000_0000 none = some (.xstat 9 1 0) := by decide

/-! ### Reserved encodings are refused (R52, R75) -/

/-- Reserved bits of an SR word; the reserved opcode 0x3F; E set in a format without an extension; a reserved SEL. -/
theorem test_decode_refuses_s : decodeSlot .s 0b000001_0_00001_00010_00011_00001_00000 none = none ∧ decodeSlot .s 0b000001_0_00001_00010_00011_00000_00001 none = none ∧
    decodeSlot .s 0b111111_0_0000000000000000000000000 none = none ∧ decodeSlot .s 0b000001_1_00001_00010_00011_00000_00000 (some 0) = none ∧
    decodeSlot .s 0b110100_0_00001_010000_00000000000000 none = none := by decide

/-- LVL 6 of a LOOP; a reserved field of JMPG; OMODE 2. -/
theorem test_decode_refuses_c : decodeSlot .c 0b001001_0_110_00000000_0_0000000000001 none = none ∧ decodeSlot .c 0b001000_0_00001_00000000000000000001 none = none ∧
    decodeSlot .c 0b010101_0_000000000000000000000_0010 none = none := by decide

/-- SZ 7 of a load; SZ 3 of a store; FENCE of KIND 3; AOP 15; SCOPE without SC. -/
theorem test_decode_refuses_l : decodeSlot .l 0b000001_0_00100_00001_111_000000000000 none = none ∧ decodeSlot .l 0b000010_0_00100_00001_011_000000000000 none = none ∧
    decodeSlot .l 0b010000_0_00_11_000000000000000000000 none = none ∧ decodeSlot .l 0b001011_0_00101_00100_00110_1111_0_00_1_00 none = none ∧
    decodeSlot .l 0b001011_0_00101_00100_00110_0001_0_01_1_00 none = none := by decide

/-- TY 15; MODE SR of a VDIV; RAW as NFMT of VCVT; QS with a walker above 7; SW without SOP; VPART to an odd register; an extension word with a reserved bit. -/
theorem test_decode_refuses_v_and_m : decodeSlot .v 0b000001_0_00001_00010_00011_1111_000_000 none = none ∧ decodeSlot .v 0b010010_0_00001_00010_00011_1000_100_000 none = none ∧
    decodeSlot .v 0b011101_0_00100_00010_00000_0111_000_0_00 none = none ∧ decodeSlot .m 0b000001_0_0010_0_1011_0_1_000000_000_0000_0 none = none ∧
    decodeSlot .m 0b000001_0_0010_0_0011_0_0_000000_000_0001_0 none = none ∧ decodeSlot .v 0b100000_0_00001_00010_00000_0010_000_000 none = none ∧
    decodeSlot .v 0b000001_1_00001_00010_00011_0010_000_000 (some 1) = none := by decide

/-- SCOPE without ACQ or REL; SM with a spool; XSTAT of a reserved selector. -/
theorem test_decode_refuses_x : decodeSlot .x 0b000001_0_00100_00000_001_0011_0_10_0_0_100 none = none ∧ decodeSlot .x 0b000001_0_00100_00000_001_0011_1_00_0_0_100 none = none ∧
    decodeSlot .x 0b010001_0_01001_0000000000_101_000_0000 none = none := by decide

/-! ### Ill-formed terms are refused: one for each check of WellFormed -/

theorem test_wf_shift_and_field_bounds : (Instr.shli 1 2 64).wf = false ∧ (Instr.shri 1 2 64).wf = false ∧ (Instr.sari 1 2 64).wf = false ∧ (Instr.shli 1 2 63).wf = true ∧
    (Instr.bfx 1 2 63 1).wf = false ∧ (Instr.bfxn 1 2 1 63).wf = false ∧ (Instr.bfi 1 2 32 32).wf = false ∧ (Instr.bfi 1 2 32 31).wf = true ∧
    (Instr.wstride none 1 2 6 0).wf = false := by decide

theorem test_wf_loops_and_orders : (Instr.loop none 6 0 false 1).wf = false ∧ (Instr.loop (some 1) 0 0 true 1).wf = false ∧ (Instr.loop none 0 0 true 32).wf = false ∧
    (Instr.loop (some 1) 0 0 false 1).wf = false ∧ (Instr.loop (some 1) 5 255 false 0).wf = true ∧ (Instr.loopbrk 7).wf = false ∧ (Instr.ordset 0).wf = false := by decide

theorem test_wf_memory : (Instr.st none 1 2 .n8 0).wf = false ∧ (Instr.spst 1 2 false .n16).wf = false ∧ (Instr.stl none 1 2 .n32 .core 0).wf = false ∧
    (Instr.amo 1 2 3 .add false .device true).wf = false ∧ (Instr.cas 1 2 3 4 false .system true).wf = false ∧ (Instr.ld none 1 2 .n8 0).wf = true := by decide

theorem test_wf_modes_and_types : (Instr.vadd none 1 2 3 .i32 .rtz 0).wf = false ∧ (Instr.vsub none 1 2 3 .f32 .sr 0).wf = false ∧ (Instr.vmul none 1 2 3 .n8 .sr 0).wf = false ∧
    (Instr.vfma none 1 2 3 .i8 .rtz 0).wf = false ∧ (Instr.vadds none 1 2 3 .f32 0).wf = false ∧ (Instr.vsubs none 1 2 3 .f16 0).wf = false ∧ (Instr.vshl none 1 2 3 .f32 0).wf = false ∧
    (Instr.vshr none 1 2 3 .bf16 0).wf = false ∧ (Instr.vsar none 1 2 3 .f32 0).wf = false ∧ (Instr.vdiv none 1 2 3 .i32 .rne 0).wf = false ∧ (Instr.vsqrt none 1 2 .f32 .sr 0).wf = false ∧
    (Instr.vrcp none 1 2 .i8 .rne 0).wf = false ∧ (Instr.vrsq none 1 2 .n16 .rne 0).wf = false ∧ (Instr.vexp none 1 2 .i32 .rne 0).wf = false ∧ (Instr.vexp2 none 1 2 .f32 .sr 0).wf = false ∧
    (Instr.vlog2 none 1 2 .i32 .rne 0).wf = false ∧ (Instr.vtanh none 1 2 .f16 .sr 0).wf = false ∧ (Instr.vrint none 1 2 .i32 .rne 0).wf = false ∧ (Instr.viota none 1 2 .f32 0).wf = false := by
  decide

theorem test_wf_streams : (Instr.vmin (some ⟨true, false, 0⟩) 1 8 3 .i32 0).wf = false ∧ (Instr.vmax (some ⟨false, true, 0⟩) 1 2 8 .i32 0).wf = false ∧
    (Instr.vabs (some ⟨false, true, 0⟩) 1 2 .i32 0).wf = false ∧ (Instr.vneg (some ⟨true, false, 1⟩) 1 2 .i32 0).wf = false ∧ (Instr.vand (some ⟨true, true, 0⟩) 1 7 7 .i32 0).wf = true ∧
    (Instr.vor (some ⟨true, false, 0⟩) 1 31 7 .i32 0).wf = false ∧ (Instr.vxor (some ⟨false, false, 1⟩) 1 2 3 .i32 0).wf = false ∧ (Instr.vclamp (some ⟨true, false, 0⟩) 1 9 3 .i32 0).wf = false ∧
    (Instr.vcmp (some ⟨true, false, 0⟩) 1 8 3 .i32 .eq 0).wf = false ∧ (Instr.vsel (some ⟨false, true, 0⟩) 1 2 9 .i32 0).wf = false ∧ (Instr.vperm (some ⟨true, false, 0⟩) 1 8 3 .i8 0).wf = false ∧
    (Instr.vzip (some ⟨true, false, 0⟩) 1 8 3 .i8 0).wf = false ∧ (Instr.vunzip (some ⟨true, false, 0⟩) 1 8 3 .i8 0).wf = false ∧ (Instr.vmov (some ⟨false, true, 0⟩) 1 2 .i8 0).wf = false ∧
    (Instr.vbcast (some ⟨true, false, 0⟩) 1 2 .i8 0).wf = false ∧ (Instr.vext (some ⟨true, false, 0⟩) 1 8 2 .i8).wf = false ∧ (Instr.vins (some ⟨true, false, 0⟩) 1 2 2 .i8).wf = false ∧
    (Instr.vrand (some ⟨true, false, 0⟩) 1 .i8 0).wf = false := by decide

theorem test_wf_conversions_reductions_and_lists : (Instr.vcvt none 1 2 .raw .f32 .rne false).wf = false ∧ (Instr.vcvt none 1 2 .b32e4m3 .f32 .rne false).wf = false ∧
    (Instr.vcvt none 2 1 .e4m3 .f32 .rne false).wf = false ∧ (Instr.vred none 1 2 .and .f32 .rne 0).wf = false ∧ (Instr.vscan none 1 2 .min .f32 .rtz 0).wf = false ∧
    (Instr.vpart none 1 2 .i32 0).wf = false ∧ (Instr.vpart none 2 3 .i32 0).wf = false ∧ (Instr.vpart none 2 0 .i32 0).wf = false ∧ (Instr.vpart none 2 2 .i8 0).wf = false ∧
    (Instr.vgath none 1 2 3 .i8 0).wf = false ∧ (Instr.vscat none 1 2 3 .n8 0).wf = false := by decide

theorem test_wf_matrix_and_engine : (Instr.mpush 1 false 8 false true none).wf = false ∧ (Instr.mpushz 1 false 3 true true none).wf = false ∧ (Instr.mdrain 1 false 3 none).wf = false ∧
    (Instr.mdrainz 1 false 31 none).wf = false ∧ (Instr.cpLd 1 2 3 (.spool 1) ⟨false, false, .device⟩).wf = false ∧ (Instr.cpSt 1 2 3 (.spool 1) ⟨false, false, .cluster⟩).wf = false ∧
    (Instr.cpMv 2 3 (.spool 1) ⟨false, false, .system⟩).wf = false ∧ (Instr.cpm 1 2 3 4 ⟨false, false, .device⟩).wf = false ∧ (Instr.cpg 1 2 3 (.spool 1) ⟨false, false, .device⟩).wf = false ∧
    (Instr.cps 1 2 3 (.spool 1) ⟨false, false, .device⟩).wf = false ∧ (Instr.cpw 1 3 (.spool 1) ⟨false, false, .device⟩).wf = false ∧
    (Instr.cpfScratch 2 3 (.spool 1) ⟨false, false, .device⟩).wf = false ∧ (Instr.cpfGlobal 1 2 3 ⟨false, false, .device⟩).wf = false ∧ (Instr.xstat 1 5 0).wf = false := by decide

/-- RPT of a header (R49); SPDEF needs its extension word (R275); MSWAP (R58). -/
theorem test_header : (decodeHeader 0b00001001_11111100_00000000_00000000).rpt = 127 ∧ (decodeHeader 0b01000000_00000000_00000000_00000000).rpt = 0 ∧
    decodeSlot .x 0b001000_0_00110_0000000000000000_0011 none = none ∧ decodeSlot .m 0b001000_0_0000000000000000000000000 none = some .mswap := by decide

/-! ## A small machine -/

/-- A kernel of one bank whose code begins at 0x10060. -/
def kernel : Kernel := { Kernel.none with header := 0x10000, code := 0x10060, size := 0x1000, banks := 1, depth := 5, budget := 100, cutbound := 100, maxchild := 1, nctx := 1 }

/-- A running context of rank 0 with values in some g registers. -/
def ctxWith (l : List (GR × W64)) : Ctx :=
  l.foldl (fun c e => c.wg e.1 e.2) { Ctx.vacant with phase := .live, place := some (0, 0), kernel := kernel, pc := 0x10060 }

/-- The page of 64 KiB at 0x10000, mapped to itself: readable, writable, code, latent-capable, accessed and dirty. -/
def page : TlbEntry := ⟨0, 0x10000, 65536, 0x10000, 0xFF, 0x4000⟩

/-- The device in operation with context 1 running on core 0, which has the page's translation and owns the matrix state. -/
def machine (c : Ctx) : State :=
  { State.reset with
    cur := 1, ctxs := [(1, c)], cores := [(0, { Core.reset with tlb := [page], mowner := 0 })]
    ranks := [(0, { RankRec.blank with nvk := 1, wallow := 8, state := 1, root := 0x4000, spillsz := 1 })], vfs := [(0, { VF.reset with enable := true })]
    hub := { Hub.reset with devstat := 7 } }

/-- The results that an instruction puts in flight for the present context. -/
def results (o : Out) : List (Nat × Eff) :=
  match o with
  | .next t => t.cx.inflight.map fun l => (l.due, l.eff)
  | _ => []

/-- What an instruction puts in flight with two operands in g1 and g2. -/
def run2 (i : Instr) (a b : W64) : List (Nat × Eff) := results (exec i (machine (ctxWith [(1, a), (2, b)])))

/-! ### Scalar arithmetic (R83 to R88) -/

theorem test_add_wraps : run2 (.add 3 1 2) 0xFFFFFFFFFFFFFFFF 2 = [(1, .g 3 1)] := by decide
theorem test_mulh_is_signed : run2 (.mulh 3 1 2) 0xFFFFFFFFFFFFFFFF 2 = [(3, .g 3 0xFFFFFFFFFFFFFFFF)] := by decide
theorem test_mulhn_is_unsigned : run2 (.mulhn 3 1 2) 0xFFFFFFFFFFFFFFFF 2 = [(3, .g 3 1)] := by decide
theorem test_div_truncates_and_overflow_wraps : run2 (.div 3 1 2) 0xFFFFFFFFFFFFFFF9 2 = [(18, .g 3 0xFFFFFFFFFFFFFFFD)] ∧
    run2 (.div 3 1 2) 0x8000000000000000 0xFFFFFFFFFFFFFFFF = [(18, .g 3 0x8000000000000000)] := by decide
theorem test_rem_takes_the_dividends_sign : run2 (.rem 3 1 2) 0xFFFFFFFFFFFFFFF9 2 = [(18, .g 3 0xFFFFFFFFFFFFFFFF)] ∧ run2 (.remn 3 1 2) 7 0 = [(18, .g 3 7)] := by decide
theorem test_sar_takes_six_bits : run2 (.sar 3 1 2) 0x8000000000000000 65 = [(1, .g 3 0xC000000000000000)] := by decide
theorem test_clz_of_zero_and_one : run2 (.clz 3 1) 0 0 = [(1, .g 3 64)] ∧ run2 (.clz 3 1) 1 0 = [(1, .g 3 63)] := by decide
theorem test_addi_with_extension : run2 (.addi (some 0xFFFFFFFF) 3 1 0x7FFF) 1 0 = [(1, .g 3 0)] ∧ run2 (.addi none 3 1 0x4000) 0 0 = [(1, .g 3 0xFFFFFFFFFFFFC000)] := by decide
theorem test_bfi_keeps_the_rest : run2 (.bfi 2 1 4 3) 0xFF 0xABC = [(1, .g 2 0xAFC)] := by decide
theorem test_sext_of_a_field : run2 (.sext 3 1 7) 0x180 0 = [(1, .g 3 0xFFFFFFFFFFFFFF80)] := by decide

/-! ### Landing (R10, R18) -/

theorem test_g0_discards_its_landing : ((match exec (.add 0 1 1) (machine (ctxWith [(1, 5)])) with | .next t => (t.modCx fun c => { c with step := 1 }).landDue.cx.rg 0 | _ => 9) = 0) := by decide
theorem test_a_result_lands_at_its_step :
    ((match exec (.mul 3 1 1) (machine (ctxWith [(1, 5)])) with | .next t => ((t.modCx fun c => { c with step := 2 }).landDue.cx.rg 3, (t.modCx fun c => { c with step := 3 }).landDue.cx.rg 3) | _ => (9, 9)) = (0, 25)) := by
  decide

/-! ### Traps (R290, R291, R293) -/

/-- PRIVILEGE of an ORDSET in U mode: cause 0x02, SRES the slot, S mode. -/
theorem test_ordset_in_u_mode_traps :
    (match exec (.ordset 1) { machine (ctxWith []) with issue := ⟨6, false, none, 0, 1, false, none⟩ } with
      | .next t => (t.cx.causeField, t.cx.sresField, t.cx.mode, t.cx.epc) | _ => (0, 0, false, 0)) = (2, 6, true, 0x10060) := by decide

/-- A load at 2^48 faults TRANSLATION with its address; one at an odd address MISALIGNED. -/
theorem test_load_faults :
    (match exec (.ld none 3 1 .b64 0) (machine (ctxWith [(1, 0x1000000000000)])) with | .next t => (t.cx.causeField, t.cx.faddr) | _ => (0, 0)) = (3, 0x1000000000000) ∧
    (match exec (.ld none 3 1 .b64 1) (machine (ctxWith [(1, 0x10100)])) with | .next t => (t.cx.causeField, t.cx.faddr) | _ => (0, 0)) = (5, 0x10101) := by decide

/-! ### Accesses (R21, R206, R222, R226) -/

/-- The machine after the present context's access has performed every part and retired. -/
def completed (i : Instr) (c : Ctx) (m : Memory) : State :=
  match exec i { machine c with mem := m } with
  | .next t => (t.accessPerform 1 0).retireLoad 1
  | _ => State.reset

theorem test_loads_extend_as_sz_says : szExtend .i16 0xFFFE = 0xFFFFFFFFFFFFFFFE ∧ szExtend .n16 0xFFFE = 0xFFFE ∧ szExtend .i32 0x80000000 = 0xFFFFFFFF80000000 := by decide
theorem test_store_is_little_endian : (completed (.st none 2 1 .i32 0) (ctxWith [(1, 0x10100), (2, 0x11223344)]) []).mem =
    [(0x10100, 0x44), (0x10101, 0x33), (0x10102, 0x22), (0x10103, 0x11)] := by decide +kernel
theorem test_amo_swaps_and_brings_the_old_word : (let t := completed (.amo 3 1 2 .swap false .core false) (ctxWith [(1, 0x10100), (2, 7)]) [(0x10100, 9)]; (t.cx.rg 3, t.mem)) =
    (9, [(0x10100, 7)]) := by decide +kernel
theorem test_cas_leaves_a_different_word : (let t := completed (.cas 3 1 2 4 false .core false) (ctxWith [(1, 0x10100), (2, 7), (4, 8)]) [(0x10100, 9)]; (t.cx.rg 3, t.mem)) =
    (9, [(0x10100, 9)]) := by decide +kernel

/-! ### Control flow (R70, R93) -/

theorem test_branch_backwards : (match exec (.blt none 1 2 0x7FFD) (machine (ctxWith [(1, 0xFFFFFFFFFFFFFFFF), (2, 0)])) with | .next t => t.issue.xfer | _ => none) = some (.to 0x10054) := by decide
theorem test_bltn_is_unsigned : (match exec (.bltn none 1 2 4) (machine (ctxWith [(1, 0xFFFFFFFFFFFFFFFF), (2, 0)])) with | .next t => t.issue.xfer | _ => some .exit) = none := by decide

/-! ### Vector lanes (R106, R110, R111) -/

/-- The data that one lane operation puts in flight, lane n of w bits, for operands in v1 and v2. -/
def lane (i : Instr) (a b : VReg) (w n : Nat) : Nat :=
  match results (exec i (machine (((ctxWith []).wv 1 a).wv 2 b))) with
  | (_, .v _ _ x) :: _ => laneOf w x n
  | _ => 0

theorem test_vadds_saturates : lane (.vadds none 3 1 2 .i8 0) 0x7F 0x01 8 0 = 0x7F ∧ lane (.vadds none 3 1 2 .n8 0) 0xFF 0x01 8 0 = 0xFF := by decide +kernel
theorem test_vshl_by_the_width_is_zero : lane (.vshl none 3 1 2 .i8 0) 0x01 0x08 8 0 = 0 := by decide +kernel
theorem test_vadd_float_rounds_to_even : lane (.vadd none 3 1 2 .f32 .rne 0) 0x4B800000 0x3F800000 32 0 = 0x4B800000 := by decide +kernel
theorem test_vdiv_by_zero_is_infinite : lane (.vdiv none 3 1 2 .f32 .rne 0) 0x3F800000 0x80000000 32 0 = 0xFF800000 := by decide +kernel

/-! ### The machine as a whole (R405 to R407) -/

theorem test_start_leads_to_operation : (match step State.reset with | .next t => t.hub.devstat | _ => 0) = 2 := by decide
theorem test_a_stopped_device_stops : (match exec .thermalShutdown State.reset with | .next t => (match step t with | .fault f => some f | _ => none) | _ => none) = some .deviceStopped := by decide
theorem test_a_placed_word_is_fetched_and_run :
    (match step (State.reset.withFetchWord 32 0b100000_0_00111_00000_000000000000101) with | .next t => (t.ctx 0).rg 7 | _ => 0) = 5 := by decide +kernel

/-! ## Every statement's hypotheses are met

One theorem for each statement of Sys2Proof.Spec or Obligations that has hypotheses, one conjunct for each of its clauses. -/

/-- The page's entry covers every byte of a range inside it. -/
theorem mapped_page (c : Ctx) (need : Need) (va n : Nat) (hr : c.rank = 0) (hp : c.coreNum = 0) (h1 : 0x10000 ≤ va) (h2 : va + n ≤ 0x20000) (hn : need.bit ≤ 7) :
    Mapped (machine c) need page va n := by
  have hcx : (machine c).cx = c := rfl
  refine ⟨fun x hx hy => ?_, ?_, by decide, fun _ => by decide⟩
  · rw [hcx, hr, hp]
    show List.find? _ [page] = _
    rw [List.find?_cons_of_pos]
    simp only [TlbEntry.covers, page, Bool.and_eq_true, beq_self_eq_true, true_and]
    exact ⟨decide_eq_true (by omega), decide_eq_true (by omega)⟩
  · generalize need.bit = b at hn
    interval_cases b <;> decide

theorem witness_DecodeOfEncodeIsTheOperation : (Instr.addi (some 1) 1 2 3).slot = some .s ∧ (Instr.addi (some 1) 1 2 3).wf = true := by decide
theorem witness_EncodeOfDecodeIsTheWord : decodeSlot .s 0b100000_1_00111_00111_000000000000001 (some 5) = some (.addi (some 5) 7 7 1) := by decide

theorem witness_RegisterOperationsGiveTheirResult : ∃ P, registerOp (.add 3 1 2) (machine (ctxWith [])).rg = some (3, 1, P) := ⟨_, rfl⟩
theorem witness_ImmediateOperationsGiveTheirResult : (Instr.shli 3 1 63).wf = true ∧ ∃ P, immediateOp (.shli 3 1 63) (machine (ctxWith [])).rg = some (3, 1, P) := ⟨by decide, _, rfl⟩
theorem witness_WalkerInstructionsSetTheirField : (Instr.wstride none 1 2 5 0).wf = true ∧ ∃ e, walkerOp (.wstride none 1 2 5 0) (machine (ctxWith [])) = some e := ⟨by decide, _, rfl⟩

/-- A context in S mode. -/
def sMode (c : Ctx) : Ctx := { c with status := statusMode c.status true }

theorem witness_SysrdReadsTheRegister : (¬(SysReg.status = .msave ∧ (machine (ctxWith [])).cx.mode = false) ∧ (machine (sMode (ctxWith []))).cx.mode = true) ∧
    (SysReg.msave = .msave ∧ (machine (ctxWith [])).cx.mode = false) := by decide

/-- flags in U mode; status and mowner in S mode; status in U mode, and ctxid in either, fault. -/
theorem witness_SyswrWritesOrFaults : (machine (ctxWith [])).cx.mode = false ∧ (machine (sMode (ctxWith []))).cx.mode = true ∧ SysReg.ctxid ≠ .flags ∧ SysReg.ctxid ≠ .status := by decide

theorem witness_BranchesTransferToTheirTarget :
    (∃ p, branchTaken (.beq none 1 2 4) (machine (ctxWith [])).rg = some (none, 4, p) ∧ p) ∧ (∃ p, branchTaken (.bne none 1 2 4) (machine (ctxWith [])).rg = some (none, 4, p) ∧ ¬p) ∧
    ((machine (ctxWith [(1, 8)])).rg 1).toNat % 4 = 0 ∧ ((machine (ctxWith [(1, 3)])).rg 1).toNat % 4 ≠ 0 :=
  ⟨⟨_, rfl, by decide⟩, ⟨_, rfl, by decide⟩, by decide, by decide⟩

/-- A context in the body of a level 0 whose last bundle is at the pc, with `left` iterations left, inside a level 1. -/
def looping (left : Nat) : Ctx := { ctxWith [] with loops := [(0, ⟨0x10060, 0x10060, 0x10064, left, true⟩), (1, ⟨0x10060, 0x10070, 0x10074, 3, true⟩)] }

theorem witness_TakenTransferLeavesTheBodiesItIsOutside : ((looping 2).afterSlots (some (.to 0x10070)) ⟨decodeHeader 0, [], 4⟩).1.loops = [(1, ⟨0x10060, 0x10070, 0x10074, 3, true⟩)] := by decide
theorem witness_IterationEndsAtTheLastBundle : (looping 2).arming = none ∧ (looping 2).loops = (0, ⟨0x10060, 0x10060, 0x10064, 2, true⟩) :: [(1, ⟨0x10060, 0x10070, 0x10074, 3, true⟩)] ∧
    (0x10060 : Nat) = (looping 2).pc ∧ 1 < 2 ∧ (∀ e ∈ [((1 : Nat), (⟨0x10060, 0x10070, 0x10074, 3, true⟩ : LoopLevel))], e.2.last ≠ (looping 1).pc) := by decide

/-- A context whose next bundle stands in its loop buffer: a header alone; and eight of them behind it. -/
def buffered (l : List (Nat × LoopLevel)) : Ctx := { ctxWith [] with loops := l, loopbuf := (List.range 9).map fun i => (0x10060 + 4 * i, [0]) }

theorem witness_LoopArmsItsLevel :
    (∃ e ∈ (machine (looping 2)).cx.loops, e.1 = (0 : BitVec 3).toNat) ∧
    (∃ b ws s1, (machine (buffered [])).bundleAt 0x10060 = .ok b ws s1 ∧ (∀ e ∈ (machine (buffered [])).cx.loops, e.1 ≠ (0 : BitVec 3).toNat) ∧
      ((0 : BitVec 3).toNat ≤ (machine (buffered [])).cx.kernel.depth ∧ (machine (buffered [])).cx.kernel.depth ≠ 0xFF) ∧
      ∃ last after words s2, State.bodyFrom none (2 + 1) 0 (0x10060 + b.len) [] s1 = .ok last after words s2 ∧ (machine (buffered [])).cx.bufferWith words ≤ 256) ∧
    (∃ b ws s1, (machine (buffered [(1, ⟨0x10060, 0x10060, 0x10064, 2, true⟩)])).bundleAt 0x10060 = .ok b ws s1 ∧
      State.bodyFrom (some 0x10064) (2 + 1) 0 (0x10060 + b.len) [] s1 = .past) ∧
    ((machine (buffered [])).cx.mode = false ∧ (machine (buffered [])).cx.kernel.depth < (6 : BitVec 3).toNat) ∧
    (let s : State := { machine (buffered []) with cores := [(0, { Core.reset with tlb := [{ page with bits := 0xFF - 2 ^ Need.fetch.bit }] })] }
     ∃ b ws s1 f a m words s2, s.bundleAt 0x10060 = .ok b ws s1 ∧ State.bodyFrom none (9 + 1) 0 (0x10060 + b.len) [] s1 = .fail f a m words s2 ∧ f.outside = false) ∧
    (let s : State := machine { buffered [] with kernel := { kernel with size := 4 * 9 } }
     ∃ b ws s1 f a m words s2, s.bundleAt 0x10060 = .ok b ws s1 ∧ State.bodyFrom none (9 + 1) 0 (0x10060 + b.len) [] s1 = .fail f a m words s2 ∧ f.outside = true) ∧
    (let s : State := machine { buffered [] with loopbuf := (buffered []).loopbuf ++ List.replicate 248 (0x20000, []) }
     ∃ b ws s1 last after words s2, s.bundleAt 0x10060 = .ok b ws s1 ∧ State.bodyFrom none (2 + 1) 0 (0x10060 + b.len) [] s1 = .ok last after words s2 ∧ 256 < s.cx.bufferWith words) :=
  ⟨by decide, ⟨_, _, _, rfl, by decide, by decide, _, _, _, _, rfl, by decide⟩, ⟨_, _, _, rfl, rfl⟩, by decide, ⟨_, _, _, _, _, _, _, _, rfl, rfl, rfl⟩,
    ⟨_, _, _, _, _, _, _, _, rfl, rfl, rfl⟩, ⟨_, _, _, _, _, _, _, rfl, rfl, by decide +kernel⟩⟩

theorem witness_LoopbrkLeavesTheLevel : (∀ e ∈ (machine (ctxWith [])).cx.loops, e.1 ≠ (0 : BitVec 3).toNat) ∧
    (machine (looping 2)).cx.loops = [(0, ⟨0x10060, 0x10060, 0x10064, 2, true⟩)] ++ ((1 : BitVec 3).toNat, ⟨0x10060, 0x10070, 0x10074, 3, true⟩) :: [] ∧
    (∀ e ∈ [((0 : Nat), (⟨0x10060, 0x10060, 0x10064, 2, true⟩ : LoopLevel))], e.1 ≠ (1 : BitVec 3).toNat) := by decide

/-- A bundle with a WAIT for no load outstanding, while one is. -/
theorem witness_WaitsHoldAndNopsChangeNothing :
    (machine { ctxWith [] with ld := [(1, false)] }).held (opsOf ((ctxWith []).acts ⟨decodeHeader 0x02000000, [⟨6, some (.wait 0 15 15 15)⟩], 8⟩)) = true := by decide

theorem witness_OrdsetIsPrivileged : (machine (sMode (ctxWith []))).cx.mode = true ∧ (machine (ctxWith [])).cx.mode = false := by decide

/-- A context of a kernel with a U handler; the same in the handler. -/
def handled : Ctx := { ctxWith [] with kernel := { kernel with handler := 0x40 } }
def inHandler : Ctx := { handled with status := statusUH 0 true, saveU := some (handled.saveSet none) }

/-- Handled; not handled for want of a handler, for another cause, or in the handler. -/
theorem witness_SlotTrapEntersItsHandler :
    ((machine handled).cx.mode = false ∧ (machine handled).cx.rpos < 128 ∧ (machine handled).issue.slot < 8 ∧ Cause.software.isU = true ∧ (machine handled).cx.uh = false ∧
      (machine handled).cx.kernel.handler ≠ 0) ∧
    ((machine (ctxWith [])).cx.mode = false ∧ (machine (ctxWith [])).cx.kernel.handler = 0) ∧ Cause.privilege.isU = false ∧
    ((machine inHandler).cx.mode = false ∧ (machine inHandler).cx.uh = true) := by decide

theorem witness_FaultInSModeTerminates : (machine (sMode (ctxWith []))).cx.mode = true ∧ (machine (sMode (ctxWith []))).cx.rpos < 128 ∧ (machine (sMode (ctxWith []))).issue.slot < 8 := by decide

theorem witness_TrapRaisesSoftware :
    let u (c : Ctx) : State := State.landDue { machine c with ctxs := tabSet (machine c).ctxs 1 { c with step := c.step + 1, strides := some (c.a.toList.map fun w => w.strides.toList) } }
    ((machine handled).cx.mode = false ∧ (machine handled).issue.quiet = false ∧ (u handled).cx.kernel.handler ≠ 0 ∧ (u handled).cx.uh = false) ∧ (u (ctxWith [])).cx.kernel.handler = 0 ∧ (u inHandler).cx.uh = true := by decide

/-- Outside a handler; in the U handler; in S mode with what the trap set aside. -/
theorem witness_TretResumesTheHeldBundle :
    ((machine (ctxWith [])).cx.mode = false ∧ (machine (ctxWith [])).cx.uh = false) ∧
    ((machine inHandler).cx.uh = true ∧ (machine inHandler).issue.quiet = false ∧ (State.landAll 64 (machine inHandler)).cx.mode = false ∧
      (State.landAll 64 (machine inHandler)).cx.saveU = some (handled.saveSet none) ∧ dueNow (returned (State.landAll 64 (machine inHandler)) (handled.saveSet none)) = []) ∧
    ((machine { sMode (ctxWith []) with saveS := some ((ctxWith []).saveSet none) }).cx.mode = true ∧
      (State.landAll 64 (machine { sMode (ctxWith []) with saveS := some ((ctxWith []).saveSet none) })).cx.saveS = some ((ctxWith []).saveSet none)) := by decide

/-! ### Landing -/

theorem witness_WrittenFlagsKeepWhatIsRaised : ∃ s : State, s.cx.step = 7 ∧ s.cx.inflight = [⟨7, .flags 1⟩, ⟨7, .sys .flags 0x12⟩, ⟨7, .flags 4⟩] :=
  ⟨machine { ctxWith [] with step := 7, inflight := [⟨7, .flags 1⟩, ⟨7, .sys .flags 0x12⟩, ⟨7, .flags 4⟩] }, rfl, rfl⟩

/-- Results for registers alone, with a write of sys.mowner; sums and zeros of the matrix state, for its owner; a column of a plane and of its scales. -/
theorem witness_EveryKindOfResultLands :
    (let l : List Eff := [.x 0 true 5, .walkStep 1 2, .rngctr 7, .cutcount, .mownerWrite 3 1]
     dueNow (machine { ctxWith [] with inflight := l.map fun e => ⟨0, e⟩ }) = l ∧ ∀ e ∈ l, e.onMatrix = false) ∧
    (let l : List Eff := [.accZero 3]
     dueNow (machine { ctxWith [] with inflight := l.map fun e => ⟨0, e⟩ }) = l ∧ ∀ e ∈ l, ∀ y hw, e ≠ .mownerWrite y hw) ∧ 127 < 128 :=
  ⟨⟨by decide, by decide⟩, ⟨by decide, fun e he y hw h => by rw [List.mem_singleton.1 he] at h; cases h⟩, by decide⟩

/-- A vacant context; a context with nothing due; one g result due; a zero of an accumulator row due to the owner. -/
theorem witness_LandingEventsLandWhatIsDue :
    ((machine (ctxWith [])).ctx 9).phase ≠ .live ∧
    (∀ l ∈ ((machine { ctxWith [] with inflight := [⟨1, .g 3 4⟩] }).ctx 1).inflight, ((machine { ctxWith [] with inflight := [⟨1, .g 3 4⟩] }).ctx 1).step < l.due) ∧
    (((machine { ctxWith [] with inflight := [⟨0, .g 0 4⟩] }).ctx 1).phase = .live ∧ ((machine { ctxWith [] with inflight := [⟨0, .g 0 4⟩] }).ctx 1).step = 0 ∧
      ((machine { ctxWith [] with inflight := [⟨0, .g 0 4⟩] }).ctx 1).inflight = [⟨0, .g 0 4⟩]) ∧
    (let s := machine { ctxWith [] with inflight := [⟨0, .accZero 127⟩] }
     (s.ctx 1).phase = .live ∧ (s.ctx 1).inflight = [⟨0, .accZero 127⟩] ∧ (s.ctx 1).place = some (0, 0) ∧ (s.core 0).mowner ≠ 0xFFFF ∧ (s.core 0).mhwc.toNat = 0) := by decide

theorem witness_WindowWritesLand : (machine { ctxWith [] with inflight := [⟨0, .window [(0, 1), (65535, 2)]⟩] }).cx.window.wf = true ∧
    (machine { ctxWith [] with inflight := [⟨0, .window [(0, 1), (65535, 2)]⟩] }).cx.inflight =
      [⟨(machine { ctxWith [] with inflight := [⟨0, .window [(0, 1), (65535, 2)]⟩] }).cx.step, .window [(0, 1), (65535, 2)]⟩] := by decide

/-! ### Steps, fetch and issue -/

/-- Stopped by heat; a reset then; an agenda; something the device does of itself; nothing to do. -/
theorem witness_StepRunsTheOperationThatIsNext :
    (({ State.reset with hub := { Hub.reset with shutdown := true } } : State).hub.shutdown = true ∧ State.reset.agenda.head? ≠ some .deviceReset) ∧ State.reset.hub.shutdown = false ∧
    ({ State.reset with agenda := [.deviceReset], hub := { Hub.reset with shutdown := true } } : State).agenda = .deviceReset :: [] ∧
    ({ State.reset with agenda := [.snop] } : State).agenda = .snop :: [] ∧ (State.reset.agenda = [] ∧ State.reset.nextAuto = some (.powerOn true)) ∧
    ({ State.reset with hub := { Hub.reset with devstat := 7 } } : State).nextAuto = none := by decide +kernel

/-- The machine whose code begins with ADDI g7, g7, 1 in slot S0. -/
def withCode : State := { machine (ctxWith []) with mem := (Memory.write [] 0x10060 [0x00, 0x00, 0x00, 0x80, 0x01, 0x80, 0x73, 0x80]) }

theorem witness_FetchReadsTheBundleAtThePc :
    tabGet withCode.cx.loopbuf withCode.cx.pc = none ∧ withCode.cells = [] ∧ withCode.cx.mode = false ∧ withCode.cx.kernel.code ≤ withCode.cx.pc ∧
    withCode.cx.pc + 4 * 2 ≤ withCode.cx.kernel.code + withCode.cx.kernel.size ∧ withCode.cx.pc % 4 = 0 ∧ Mapped withCode .fetch page 0x10060 8 ∧ paRemote page.pa = false ∧
    page.pa % 65536 = 0 ∧ page.va % 65536 = 0 ∧ page.pa + page.size ≤ 2 ^ 55 ∧ withCode.bad = [] ∧ (∀ w ∈ withCode.wins, w.rank ≠ withCode.cx.rank) ∧ (withCode.core withCode.cx.coreNum).icache = [] ∧
    ∃ b, decodeBundle (fun i => if i < 2 then some (codeWordAt withCode page 0x10060 i) else none) = some b :=
  ⟨by decide, rfl, by decide, by decide, by decide, by decide, mapped_page (ctxWith []) .fetch 0x10060 8 rfl rfl (by decide) (by decide) (by decide), by decide, by decide, by decide, by decide,
    by decide, by decide, by decide, _, rfl⟩

/-- The bundle of one CNOP, held in the loop buffer. -/
def cnopCode : State := machine { ctxWith [] with loopbuf := [(0x10060, [0x02000000, 0])] }

theorem witness_IssueRunsTheDecodedOperation :
    let t := cnopCode.atIssue 1
    ∃ b ws u w, (cnopCode.ctx 1).placed = true ∧ (cnopCode.ctx 1).fw = none ∧ cnopCode.matesOf 1 = [] ∧ t.passing = false ∧ t.waitsForMates 1 = false ∧ t.cx.arming.bind (·.rest) = none ∧ t.bundleAt t.cx.pc = .ok b ws u ∧ t.boundary (some b.hdr.quiet) = none ∧ b.words = [⟨6, some .cnop⟩] ∧
      b.hdr.quiet = false ∧ u.cx.sres = 0 ∧ u.cx.rpos = 0 ∧ u.cx.sticky = Sticky.none ∧ u.held [(6, .cnop)] = false ∧ u.illegalMask b (u.cx.acts b) = 0 ∧ u.asks [(6, .cnop)] = none ∧ u.cx.corr = [] ∧ Instr.cnop.slot.isSome = true ∧
      (atSlotOf u b 6).spoiltBy .cnop = none ∧ exec .cnop (atSlotOf u b 6) = .next w ∧ w.issue.trapped = false ∧ w.issue.xfer = none :=
  ⟨_, _, _, _, by decide, by decide, by decide, by decide, by decide, by decide, rfl, by decide, by decide, by decide, by decide, by decide, by decide, by decide, by decide, by decide, by decide, by decide, by decide, rfl, by decide, by decide⟩

/-- With no repeat left, and with one. -/
theorem witness_IssueTakesOneStep : (machine (ctxWith [])).issue.xfer = none ∧ (machine (ctxWith [])).cx.loops = [] ∧ (machine (ctxWith [])).cx.arming = none ∧
    (machine (ctxWith [])).cx.loopbuf = [] ∧ (machine (ctxWith [])).cx.rpos < (decodeHeader 0b00001001_11111100_00000000_00000000).rpt ∧ (decodeHeader 0).rpt ≤ (machine (ctxWith [])).cx.rpos := by
  decide

/-! ### Accesses -/

/-- A load of the last eight bytes of the page, and a masked vector store over two lines. -/
theorem witness_AccessesBecomeOutstanding :
    (∃ f, accessOp (.ld none 3 1 .b64 0) (machine (ctxWith [(1, 0x1FFF8)])) = some f ∧ f.addr.toNat + f.n ≤ 2 ^ 48 ∧ f.addr.toNat % f.align = 0 ∧
      Mapped (machine (ctxWith [(1, 0x1FFF8)])) f.need page f.addr.toNat f.n) ∧
    (∃ f, accessOp (.vst none 3 1 0 0) (machine (ctxWith [(1, 0x10001)])) = some f ∧ f.addr.toNat + f.n ≤ 2 ^ 48 ∧ f.addr.toNat % f.align = 0 ∧
      Mapped (machine (ctxWith [(1, 0x10001)])) f.need page f.addr.toNat f.n) :=
  ⟨⟨_, rfl, by decide, by decide, mapped_page _ .read 0x1FFF8 8 (by decide) (by decide) (by decide) (by decide) (by decide)⟩,
   ⟨_, rfl, by decide, by decide, mapped_page _ .write 0x10001 256 (by decide) (by decide) (by decide) (by decide) (by decide)⟩⟩

/-- Address 2^48; an odd address below it; an address without a mapping; a page without W. -/
theorem witness_AccessesFaultAtTheirSlot :
    (∃ f, accessOp (.ld none 3 1 .b64 0) (machine (ctxWith [(1, 0x1000000000000)])) = some f ∧ 2 ^ 48 ≤ f.addr.toNat) ∧
    (∃ f, accessOp (.ld none 3 1 .b64 0) (machine (ctxWith [(1, 0xFFFFFFFFFFFF)])) = some f ∧ f.addr.toNat < 2 ^ 48 ∧ f.addr.toNat % f.align ≠ 0) ∧
    (∃ f, accessOp (.ld none 3 1 .b64 0) (machine (ctxWith [(1, 0x20078)])) = some f ∧ f.addr.toNat < 2 ^ 48 ∧ f.addr.toNat % f.align = 0 ∧ f.addr.toNat % 128 + f.n ≤ 128 ∧ (∀ j < f.n, f.en j = true) ∧
      (machine (ctxWith [(1, 0x20078)])).lookup 0 0 f.addr.toNat = none ∧ (machine (ctxWith [(1, 0x20078)])).walkSound 0 f.addr.toNat = true ∧
      (let s : State := { machine (ctxWith [(1, 0x20078)]) with bad := [(0x100, false)] }
       s.lookup 0 0 f.addr.toNat = none ∧ s.walkSound 0 f.addr.toNat = false)) ∧
    (let s : State := { machine (ctxWith [(1, 0x10000)]) with cores := [(0, { Core.reset with tlb := [{ page with bits := 0xF7 }] })] }
     ∃ f e t, accessOp (.st none 3 1 .i8 0) s = some f ∧ f.addr.toNat % 128 + f.n ≤ 128 ∧ s.lookup 0 0 f.addr.toNat = some (e, t) ∧ e.bits.testBit f.need.bit = false) :=
  ⟨⟨_, rfl, by decide⟩, ⟨_, rfl, by decide, by decide⟩, ⟨_, rfl, by decide, by decide, by decide, by decide, by decide, by decide, by decide⟩, ⟨_, _, _, rfl, by decide, rfl, by decide⟩⟩

/-- An outstanding access of context 1 with identity 1. -/
def access (k : AccKind) (cls : Cls) (parts : List Part) : Acc := ⟨1, 1, 0, 0, 2, 0, 0x10060, k, cls, none, false, parts, false, 1, [], none⟩
/-- n bytes at an address of the page, waiting. -/
def part (a n : Nat) (st : PartSt) : Part := ⟨a, a, true, List.replicate n true, List.replicate n 7, st⟩
def withAcc (a : Acc) : State := { machine (ctxWith []) with accs := [a], nextId := 2 }

theorem none_failed (s : State) (a : Acc) (hs : s.accs = [a]) (h : (a.parts.all fun p => match p.st with | .failed .. => false | _ => true) = true) : NoneFailed s a := by
  intro x hx _ q hq c y e
  rw [hs, List.mem_singleton] at hx
  subst hx
  have := List.all_eq_true.1 h q hq
  rw [e] at this
  exact Bool.noConfusion this

theorem witness_StorePerformsItsEnabledBytes :
    let a := access .store .st [part 0x10100 4 .waiting]
    let w : Watch := ⟨9, 2, 0x10100, 5, none⟩
    let s : State := { withAcc a with watches := [w] }
    MayPerform s 1 0 a (part 0x10100 4 .waiting) ∧ a.kind = .store ∧ PlainPart s a.rank (part 0x10100 4 .waiting) ∧ NoneFailed s a ∧ s.mem.wf = true ∧
      (w.got = none ∧ ∃ j, (part 0x10100 4 .waiting).en.getD j false = true ∧ w.pa ≤ 0x10100 + j ∧ 0x10100 + j < w.pa + 8) :=
  ⟨⟨rfl, rfl, rfl, by decide⟩, rfl, ⟨rfl, by decide, by decide, rfl, rfl⟩, none_failed _ _ rfl rfl, rfl, rfl, 0, by decide⟩

theorem witness_LoadPerformsWithTheBytesOfMemory :
    let a := access (.load (.g 3 .i32)) .ld [part 0x10100 4 .waiting]
    MayPerform (withAcc a) 1 0 a (part 0x10100 4 .waiting) ∧ (∃ d, a.kind = .load d ∧ d ≠ .none) ∧ a.acq = none ∧ PlainPart (withAcc a) a.rank (part 0x10100 4 .waiting) ∧
      NothingKept a ∧ NoneFailed (withAcc a) a ∧ (withAcc a).l1Line a.core 0x10100 = none :=
  ⟨⟨rfl, rfl, rfl, by decide⟩, ⟨_, rfl, by decide⟩, rfl, ⟨rfl, by decide, by decide, rfl, rfl⟩, ⟨rfl, rfl⟩, none_failed _ _ rfl rfl, by decide⟩

theorem witness_AtomicsReadAndWriteInOneInstant :
    let m := access (.amo .add true 5 3) .ld [part 0x1FFF8 8 .waiting]
    let c := access (.cas false 5 6 3) .ld [part 0x10100 4 .waiting]
    (MayPerform (withAcc m) 1 0 m (part 0x1FFF8 8 .waiting) ∧ PlainPart (withAcc m) m.rank (part 0x1FFF8 8 .waiting) ∧ NoneFailed (withAcc m) m ∧ (part 0x1FFF8 8 .waiting).en = List.replicate 8 true) ∧
    (MayPerform (withAcc c) 1 0 c (part 0x10100 4 .waiting) ∧ PlainPart (withAcc c) c.rank (part 0x10100 4 .waiting) ∧ NoneFailed (withAcc c) c ∧ (part 0x10100 4 .waiting).en = List.replicate 4 true) :=
  ⟨⟨⟨rfl, rfl, rfl, by decide⟩, ⟨rfl, by decide, by decide, rfl, rfl⟩, none_failed _ _ rfl rfl, rfl⟩,
   ⟨⟨rfl, rfl, rfl, by decide⟩, ⟨rfl, by decide, by decide, rfl, rfl⟩, none_failed _ _ rfl rfl, rfl⟩⟩

/-- A load into g31, an AMO and a CAS that have performed. -/
theorem witness_LoadRetiresIntoItsRegister :
    (let a := access (.load (.g 31 .i32)) .ld [part 0x10100 4 .done]
     (withAcc a).acc? 1 = some a ∧ a.cls = .ld ∧ (∀ p ∈ a.parts, p.st = .done) ∧ ((withAcc a).ctx a.ctx).alive = true) ∧
    (let a := access (.amo .add true 5 0) .ld [part 0x10100 8 .done]
     (withAcc a).acc? 1 = some a ∧ a.cls = .ld ∧ (∀ p ∈ a.parts, p.st = .done)) ∧
    (let a := access (.cas false 5 6 3) .ld [part 0x10100 4 .done]
     (withAcc a).acc? 1 = some a ∧ a.cls = .ld ∧ (∀ p ∈ a.parts, p.st = .done)) := by decide

theorem witness_VectorLoadRetiresItsEnabledBytes :
    let mask : PReg := (BitVec.allOnes 65).setWidth 256 <<< 63
    let a := access (.load (.v 31 mask)) .ld [{ part 0x10100 128 .done with en := List.replicate 63 false ++ List.replicate 65 true }]
    (withAcc a).acc? 1 = some a ∧ a.cls = .ld ∧ (∀ p ∈ a.parts, p.st = .done) ∧ VectorParts a mask 0x10100 ∧ ((withAcc a).ctx a.ctx).alive = true :=
  ⟨rfl, rfl, by decide, by unfold VectorParts; decide +kernel, rfl⟩


/-! ### Window rows, scratchpad, exact windows, fences, waits -/

/-- A context whose walker a0 has a value. -/
def walking (x : W32) : Ctx := (ctxWith []).wa 0 ⟨x, 1, Vector.replicate 6 0⟩

/-- The last row of the window's one bank, and the first one past it. -/
theorem witness_RowMovesBetweenWindowAndVectorRegister :
    (256 * (machine (walking 0x10000)).cx.kernel.banks ≤ ((machine (walking 0x10000)).cx.ra 0).value.toNat / 256) ∧
    ((((machine (walking 0xFFFF)).cx.ra 0).value.toNat / 256 < 256 * (machine (walking 0xFFFF)).cx.kernel.banks) ∧ (machine (walking 0xFFFF)).cmds = []) := by decide

/-- The first address past the window; an odd one; the last aligned word. -/
theorem witness_ScratchpadScalarsMove :
    (65536 * (machine (walking 0x10000)).cx.kernel.banks ≤ ((machine (walking 0x10000)).cx.ra 0).value.toNat) ∧
    ((((machine (walking 0xFFFF)).cx.ra 0).value.toNat < 65536 * (machine (walking 0xFFFF)).cx.kernel.banks) ∧ ((machine (walking 0xFFFF)).cx.ra 0).value.toNat % sizeOf' .i32 ≠ 0) ∧
    ((((machine (walking 0xFFF8)).cx.ra 0).value.toNat < 65536 * (machine (walking 0xFFF8)).cx.kernel.banks) ∧ ((machine (walking 0xFFF8)).cx.ra 0).value.toNat % sizeOf' .b64 = 0 ∧
      (machine (walking 0xFFF8)).cmds = []) := by decide

/-- A machine in which nothing is outstanding. -/
theorem quiet_machine (c : Ctx) : Quiet (machine c) := ⟨fun _ h => (List.not_mem_nil h).elim, rfl, rfl⟩

/-- The address 2^48; a misaligned base; a bad count; an open window in the way; room for one. -/
theorem witness_WopenOpensAZeroedWindow :
    (2 ^ 48 ≤ ((machine (ctxWith [(1, 0x1000000000000)])).rg 1).toNat) ∧
    (((machine (ctxWith [(1, 0x10040)])).rg 1).toNat < 2 ^ 48 ∧ ((machine (ctxWith [(1, 0x10040)])).rg 1).toNat % 128 ≠ 0) ∧
    (let s := machine (ctxWith [(1, 0x10080), (2, 31)])
     (s.rg 1).toNat % 128 = 0 ∧ ((s.rg 2).toNat % 32 ≠ 0 ∨ (s.rg 2).toNat < 32 ∨ 524288 < (s.rg 2).toNat)) ∧
    (let s : State := { machine (ctxWith [(1, 0x10080), (2, 32)]) with wins := [⟨0, 0x10000, 64, false, (1, 0), 64, 0, [], []⟩] }
     ∃ l t, s.windowPages (pagePieces ((s.rg 2).toNat / 16384 + 3) (s.rg 1).toNat (4 * (s.rg 2).toNat)) = .ok l t ∧ SameButOwned s t ∧ WindowFull s (s.rg 1).toNat (s.rg 2).toNat) ∧
    (let s := machine (ctxWith [(1, 0x10080), (2, 32)])
     (∃ l t, s.windowPages (pagePieces ((s.rg 2).toNat / 16384 + 3) (s.rg 1).toNat (4 * (s.rg 2).toNat)) = .ok l t ∧ SameButOwned s t ∧ s.slicesHeld (s.vfOf s.cur) l = false) ∧
      ¬WindowFull s (s.rg 1).toNat (s.rg 2).toNat ∧ Quiet s ∧ ∀ w ∈ s.wins, w.opener.1 ≠ s.cur ∨ w.count ≤ w.cleared) ∧
    (let w : Win := ⟨0, 0x10080, 96, false, (1, 0), 32, 0, [], []⟩
     let s : State := { machine (ctxWith [(1, 0x10080), (2, 96)]) with wins := [w] }
     (∃ l t, s.windowPages (pagePieces ((s.rg 2).toNat / 16384 + 3) (s.rg 1).toNat (4 * (s.rg 2).toNat)) = .ok l t ∧ SameButOwned s t) ∧ s.wins = [] ++ w :: [] ∧ w.opener.1 = s.cur ∧
      w.rank = s.cx.rank ∧ w.base = (s.rg 1).toNat ∧ w.count = (s.rg 2).toNat ∧ w.cleared < (s.rg 2).toNat ∧ w.cleared % 32 = 0 ∧
      ¬WindowFull { s with wins := [] ++ [] } (s.rg 1).toNat (s.rg 2).toNat ∧ Quiet s) := by
  have full (c : Ctx) (base n : Nat) (hc : (machine c).ranks = (machine (ctxWith [])).ranks) (hr : c.rank = 0) (h : blocksOf base n ≤ 8) : ¬WindowFull (machine c) base n := by
    rintro (h1 | h1 | ⟨w, h1, -⟩)
    · rw [show (machine c).cx = c from rfl, hr] at h1
      exact absurd h1 (by show ¬8 < 0 + blocksOf base n; omega)
    · exact absurd h1 (by show ¬64 ≤ 0; decide)
    · exact List.not_mem_nil h1
  exact ⟨by decide, by decide, by decide, ⟨_, _, rfl, rfl, Or.inr (Or.inr ⟨_, List.mem_singleton.2 rfl, by decide, by decide⟩)⟩,
    ⟨⟨_, _, rfl, rfl, rfl⟩, full _ _ _ rfl rfl (by decide), quiet_machine _, fun _ h => (List.not_mem_nil h).elim⟩,
    ⟨_, _, rfl, rfl⟩, rfl, rfl, rfl, by decide, by decide, by decide, by decide, full (ctxWith [(1, 0x10080), (2, 96)]) _ _ rfl rfl (by decide), fun _ h => (List.not_mem_nil h).elim, rfl, rfl⟩

/-- No window at the base; one that is open there. -/
theorem witness_WcloseMarksTheWindowClosing :
    (∀ w ∈ (machine (ctxWith [(1, 0x10080)])).wins, ¬(w.rank = (machine (ctxWith [(1, 0x10080)])).cx.rank ∧ w.base = ((machine (ctxWith [(1, 0x10080)])).rg 1).toNat ∧ w.closing = false ∧ w.count ≤ w.cleared)) ∧
    (let s : State := { machine (ctxWith [(1, 0x10080)]) with wins := [⟨0, 0x10080, 32, true, (1, 0), 32, 0, [], []⟩, ⟨0, 0x10080, 32, false, (1, 0), 32, 0, [], []⟩] }
     s.wins = [⟨0, 0x10080, 32, true, (1, 0), 32, 0, [], []⟩] ++ (⟨0, 0x10080, 32, false, (1, 0), 32, 0, [], []⟩ : Win) :: [] ∧ (0 : Nat) = s.cx.rank ∧ 0x10080 = (s.rg 1).toNat ∧ 32 ≤ 32) := by decide

/-- Nothing outstanding; and a request to another device not yet answered. -/
theorem witness_FenceIsOutstandingAndDrainWaits : Quiet (machine (ctxWith [])) ∧
    (let p : Part := ⟨0x10100, 2 ^ 55, false, [true], [0], .sent 4⟩
     access .store .st [p] ∈ (withAcc (access .store .st [p])).accs ∧ (access .store .st [p]).ctx = (withAcc (access .store .st [p])).cur ∧ p.remote = true ∧ p.answered = false) :=
  ⟨quiet_machine _, by decide⟩

/-- The word at 0x10100 is 5: WAITM for 5 delivers it, WAITM for 6 waits. -/
theorem witness_WaitmWaitsForItsWord :
    let s : State := { machine (ctxWith [(1, 0x10100), (2, 5), (4, 6)]) with mem := [(0x10100, 5)] }
    (s.rg 1).toNat + 8 ≤ 2 ^ 48 ∧ (s.rg 1).toNat % 8 = 0 ∧ Mapped s .read page (s.rg 1).toNat 8 ∧ paRemote (page.pa + ((s.rg 1).toNat - page.va)) = false ∧
      (∀ w ∈ s.wins, w.rank ≠ s.cx.rank) ∧ s.cells = [] ∧ s.bad = [] ∧ Quiet s ∧ tabGet s.cx.held s.issue.slot = none ∧
      (s.rg 2).toNat ≤ s.mem.readLE (page.pa + ((s.rg 1).toNat - page.va)) 8 ∧ s.mem.readLE (page.pa + ((s.rg 1).toNat - page.va)) 8 < (s.rg 4).toNat :=
  ⟨by decide, by decide, mapped_page (ctxWith [(1, 0x10100), (2, 5), (4, 6)]) .read 0x10100 8 (by decide) (by decide) (by decide) (by decide) (by decide), by decide, by decide, rfl, rfl,
    ⟨fun _ h => (List.not_mem_nil h).elim, rfl, rfl⟩, rfl, by decide, by decide⟩

/-- The same with a watch that a write has satisfied. -/
theorem witness_WaitmDeliversWhatSatisfiedIt :
    let c : Ctx := { ctxWith [(1, 0x10100), (2, 5)] with held := [(0, .waitm 5 (some 7))] }
    let w : Watch := ⟨7, 1, 0x10100, 5, some 6⟩
    let s : State := { machine c with watches := [w] }
    (s.rg 1).toNat + 8 ≤ 2 ^ 48 ∧ (s.rg 1).toNat % 8 = 0 ∧ Mapped s .read page (s.rg 1).toNat 8 ∧ paRemote (page.pa + ((s.rg 1).toNat - page.va)) = false ∧ (∀ w ∈ s.wins, w.rank ≠ s.cx.rank) ∧
      s.bad = [] ∧ tabGet s.cx.held s.issue.slot = some (.waitm 5 (some 7)) ∧ s.watches.find? (fun w => w.id == 7) = some w ∧ w.got = some 6 :=
  ⟨by decide, by decide, mapped_page { ctxWith [(1, 0x10100), (2, 5)] with held := [(0, .waitm 5 (some 7))] } .read 0x10100 8 (by decide) (by decide) (by decide) (by decide) (by decide), by decide, by decide,
    rfl, rfl, rfl, rfl⟩

theorem witness_CacheHintsTouchOnlyTheCaches : 1048576 < ((machine (ctxWith [(1, 0x100001)])).rg 1).toNat ∧
    tabGet (machine (ctxWith [(1, 0x100001)])).fused ((machine (ctxWith [(1, 0x100001)])).cx.coreNum / 8) = none := by decide

/-! ### Latent cells -/

/-- The page without the latent-capable bit. -/
def plainPage : TlbEntry := { page with bits := 0xFF - 2 ^ bitLC }
def withPage (e : TlbEntry) (c : Ctx) : State := { machine c with cores := [(0, { Core.reset with tlb := [e] })] }

/-- An entry that stands alone in the first-level cache maps what it covers. -/
theorem mapped_alone (e : TlbEntry) (c : Ctx) (need : Need) (va n : Nat) (hr : c.rank = e.rank) (hp : c.coreNum = 0) (h1 : e.va ≤ va) (h2 : va + n ≤ e.va + e.size)
    (hb : e.bits.testBit need.bit = true) (ha : e.bits.testBit bitA = true) (hd : e.bits.testBit bitD = true) : Mapped (withPage e c) need e va n := by
  have hcx : (withPage e c).cx = c := rfl
  refine ⟨fun x hx hy => ?_, hb, ha, fun _ => hd⟩
  rw [hcx, hr, hp]
  show List.find? _ [e] = _
  rw [List.find?_cons_of_pos]
  simp only [TlbEntry.covers, Bool.and_eq_true, beq_self_eq_true, true_and]
  exact ⟨decide_eq_true (by omega), decide_eq_true (by omega)⟩

/-- A misaligned; B misaligned; a page that cannot hold latent cells; one that can. -/
theorem witness_ExposeBecomesOutstanding :
    (((machine (ctxWith [(1, 0x10120)])).rg 1).toNat % 64 ≠ 0) ∧
    (((machine (ctxWith [(1, 0x10140), (2, 0x10001)])).rg 1).toNat % 64 = 0 ∧ ((machine (ctxWith [(1, 0x10140), (2, 0x10001)])).rg 2).toNat % 64 ≠ 0) ∧
    (let s := withPage plainPage (ctxWith [(1, 0x10140), (2, 0x10180)])
     Mapped s .write plainPage (s.rg 1).toNat 64 ∧ Mapped s .read plainPage (s.rg 2).toNat 64 ∧ paRemote (plainPage.pa + ((s.rg 1).toNat - plainPage.va)) = false ∧
      plainPage.bits.testBit bitLC = false) ∧
    (let s := withPage page (ctxWith [(1, 0x1FFC0), (2, 0x10180)])
     Mapped s .write page (s.rg 1).toNat 64 ∧ Mapped s .read page (s.rg 2).toNat 64 ∧ paRemote (page.pa + ((s.rg 1).toNat - page.va)) = false ∧ page.bits.testBit bitLC = true) :=
  ⟨by decide, by decide,
   ⟨mapped_alone plainPage _ .write 0x10140 64 (by decide) (by decide) (by decide) (by decide) (by decide) (by decide) (by decide),
    mapped_alone plainPage _ .read 0x10180 64 (by decide) (by decide) (by decide) (by decide) (by decide) (by decide) (by decide), by decide, by decide⟩,
   mapped_alone page _ .write 0x1FFC0 64 (by decide) (by decide) (by decide) (by decide) (by decide) (by decide) (by decide),
   mapped_alone page _ .read 0x10180 64 (by decide) (by decide) (by decide) (by decide) (by decide) (by decide) (by decide), by decide, by decide⟩

theorem witness_ExposePerformsRecordAndTag :
    let r := part 0x10180 64 .done
    let p := part 0x10140 64 .waiting
    let a := access .expose .st [r, p]
    MayPerform (withAcc a) 1 1 a p ∧ a.kind = .expose ∧ a.parts = [r, p] ∧ r.st = .done ∧ r.data.length = 64 ∧ PlainPart (withAcc a) a.rank p ∧ NoneFailed (withAcc a) a ∧
      p.en = List.replicate 64 true ∧ p.pa % 64 = 0 ∧ (withAcc a).mem.wf = true :=
  ⟨⟨rfl, rfl, rfl, by decide⟩, rfl, rfl, rfl, rfl, ⟨rfl, by decide, by decide, rfl, rfl⟩, none_failed _ _ rfl rfl, rfl, by decide, rfl⟩

/-- A cell of rank 0 at 0x10140. -/
def cellOf (t : Tag) (ev : Option Nat) : Cell := ⟨t, 0, 0x10140, ev, ev.isSome, [], [], (1, 0, []), none, none, none⟩
def withCell (a : Acc) (t : Tag) : State := { withAcc a with cells := [(0x10140 / 64, cellOf t none)] }

theorem witness_LatentReadsDevelopParkOrFail :
    let p := part 0x10148 8 .waiting
    let a := access (.load (.g 3 .b64)) .ld [p]
    ∀ t ∈ [Tag.latent, .developing, .faulted],
      MayPerform (withCell a t) 1 0 a p ∧ (∃ d, a.kind = .load d ∧ d ≠ .none) ∧ a.acq = none ∧ p.remote = false ∧ p.st = .waiting ∧ p.lc = true ∧ NothingKept a ∧ NoneFailed (withCell a t) a ∧ (∀ c ∈ (withCell a t).cmds, c.id ≠ 1) ∧ ((withCell a t).ctx a.ctx).eval = none ∧
        (withCell a t).l1Line a.core p.pa = none ∧ p.pa % 64 + p.en.length ≤ 64 ∧ (∃ j, j < p.en.length ∧ p.en.getD j false = true) ∧
        tabGet (withCell a t).cells (p.pa / 64) = some (cellOf t none) := by
  intro p a t ht
  fin_cases ht <;> exact ⟨⟨rfl, rfl, rfl, by decide⟩, ⟨_, rfl, by decide⟩, rfl, by decide, rfl, rfl, ⟨rfl, rfl⟩, none_failed _ _ rfl rfl, fun _ h => (List.not_mem_nil h).elim, rfl, by decide, by decide, ⟨0, by decide, by decide⟩, by decide⟩

/-- The context as the evaluator of the cell at 0x10140, whose held bundle has read 64 bytes at 0x10180. -/
def fixing (own : Bool) : State :=
  { machine { ctxWith [(1, 0x10140), (2, 0x10180)] with held := [(0, .read 7)] } with
    accs := [⟨7, 1, 0, 0, 0, 0x15, 0x10060, .load .none, .none, none, false, [part 0x10180 64 .done], false, 7, [], none⟩], nextId := 8
    cells := if own then [(0x10140 / 64, cellOf .developing (some 1))] else [] }

/-- By its evaluator; by another context; before its read is made. -/
theorem witness_FixWritesTheValue :
    let s := machine (ctxWith [(1, 0x10140), (2, 0x10180)])
    (∀ own, ∃ p q t, (fixing own).cellCheck ((fixing own).rg 1) ((fixing own).rg 2) false = .ok p q t ∧ SameButOwned (fixing own) t ∧ p.pa % 64 = 0 ∧ (fixing own).mem.wf = true ∧
      ∃ l, (fixing own).heldBytes? = some (l, 7) ∧ l.length = 64 ∧ (fixing own).mustWait .store none true [p] = false ∧
        (own = true → tabGet (fixing own).cells (p.pa / 64) = some (cellOf .developing (some (fixing own).cur))) ∧ (own = false → (fixing own).ownsCell p = false)) ∧
    ∃ p q t, s.cellCheck (s.rg 1) (s.rg 2) false = .ok p q t ∧ SameButOwned s t ∧ p.pa % 64 = 0 ∧ s.mem.wf = true ∧ tabGet s.cx.held s.issue.slot = none := by
  refine ⟨fun own => ?_, ⟨_, _, _, rfl, rfl, by decide, rfl, rfl⟩⟩
  cases own <;> exact ⟨_, _, _, rfl, rfl, by decide, rfl, _, rfl, by decide, by decide, by decide, by decide⟩

/-- A misaligned; another's cell; the context's own. -/
theorem witness_LdrecReadsTheRecord :
    (((machine (ctxWith [(1, 0x10120)])).rg 1).toNat % 64 ≠ 0) ∧
    (let s := withPage page (ctxWith [(1, 0x10140)])
     (s.rg 1).toNat % 64 = 0 ∧ (s.rg 1).toNat < 2 ^ 48 ∧ Mapped s .read page (s.rg 1).toNat 64 ∧
      ∀ x, tabGet s.cells ((page.pa + ((s.rg 1).toNat - page.va)) / 64) = some x → ¬(x.tag = .developing ∧ x.eval = some s.cur)) ∧
    (let s : State := { withPage page (ctxWith [(1, 0x10140)]) with cells := [(0x10140 / 64, cellOf .developing (some 1))] }
     Mapped s .read page (s.rg 1).toNat 64 ∧ tabGet s.cells ((page.pa + ((s.rg 1).toNat - page.va)) / 64) = some (cellOf .developing (some s.cur)) ∧ Quiet s ∧ s.bad = [] ∧ page.bits.testBit bitLC = true) :=
  ⟨by decide, ⟨by decide, by decide, mapped_alone page _ .read 0x10140 64 (by decide) (by decide) (by decide) (by decide) (by decide) (by decide) (by decide), fun _ h => by revert h; simp [withPage, machine, State.reset]⟩,
   mapped_alone page (ctxWith [(1, 0x10140)]) .read 0x10140 64 (by decide) (by decide) (by decide) (by decide) (by decide) (by decide) (by decide), rfl, ⟨fun _ h => (List.not_mem_nil h).elim, rfl, rfl⟩, rfl, by decide⟩

/-! ### Exact windows -/

/-- The last element of an open window; an address past it. -/
theorem witness_WindowAddIsExact :
    let w : Win := ⟨0, 0x10080, 32, false, (1, 0), 32, 0, [], []⟩
    let st (va : Nat) : State := { withAcc (access (.winAdd false) .tl [part va 4 .waiting]) with wins := [w] }
    (∀ va ∈ [0x100FC, 0x10100], let p := part va 4 .waiting; let a := access (.winAdd false) .tl [p]
      MayPerform (st va) 1 0 a p ∧ a.kind = .winAdd false ∧ a.parts = [p] ∧ p.st = .waiting ∧ p.pa ≠ 0 ∧ p.remote = false ∧ a.acq = none ∧ p.en = [true, true, true, true] ∧ p.va % 4 = 0 ∧
        (st va).wins = [w] ∧ (st va).cells = [] ∧ ((st va).ctx a.ctx).alive = true ∧ w.rank = a.rank) ∧
    (w.base + 4 * w.written ≤ 0x100FC ∧ 0x100FC < w.base + 4 * w.cleared ∧ w.base % 4 = 0) ∧ w.base + 4 * w.cleared ≤ 0x10100 := by
  refine ⟨fun va hv => ?_, by decide, by decide⟩
  fin_cases hv <;> exact ⟨⟨rfl, rfl, rfl, by decide⟩, rfl, rfl, rfl, by decide, by decide, rfl, rfl, by decide, rfl, rfl, by decide, rfl⟩

theorem witness_WindowCloseWritesResults :
    let w : Win := ⟨0, 0x10080, 32, true, (1, 0), 32, 0, [(0x10080, 0x10080, 128)], [(0, ⟨5, 1, false, false, false, false⟩)]⟩
    let a := access (.wclose 0x10080 32) .tl [⟨0, 0, false, [], [], .waiting⟩]
    let s : State := { withAcc a with wins := [w] }
    let t : State := { s with wins := [{ w with written := w.written + 32 }] }
    s.acc? 1 = some a ∧ a.kind = .wclose w.base w.count ∧ s.blocked a ⟨0, 0, false, [], [], .waiting⟩ = false ∧ s.wins = [w] ∧ w.rank = a.rank ∧ w.closing = true ∧ w.written + 32 = w.count ∧
      w.base % 128 = 0 ∧ (∃ leaf u, t.translate a.core a.rank (w.base + 4 * w.written) .write = .ok 0x10080 leaf u ∧ SameButOwned t u) ∧ paRemote 0x10080 = false ∧ s.cells = [] ∧ s.bad = [] ∧
      (∀ x, s.hbmHeld (s.rankOf a.rank).vf x = false) ∧ s.mem.wf = true :=
  ⟨rfl, rfl, by decide, rfl, rfl, rfl, rfl, by decide, ⟨_, _, rfl, rfl⟩, by decide, rfl, rfl, fun x => by cases h : paHbm x <;> simp only [State.hbmHeld, h] <;> rfl, rfl⟩

/-! ### Evaluators and walks -/

/-- What the hub's processor gives satisfies P. -/
def cpAnd {α : Type} (x : CpRes α) (P : α → State → Bool) : Bool := match x with | .ok u v => P u v | _ => false

theorem cp_ok {α : Type} {x : CpRes α} {P : α → State → Bool} (h : cpAnd x P = true) : ∃ u v, x = .ok u v ∧ P u v = true := by
  cases x with
  | ok u v => exact ⟨u, v, rfl, h⟩
  | _ => exact Bool.noConfusion h

theorem exists_some {α : Type} {P : α → Bool} : {o : Option α} → o.elim false P = true → ∃ x, o = some x ∧ P x = true
  | some x, h => ⟨x, rfl, h⟩

/-- Little-endian bytes. -/
def le (n x : Nat) : List Byte := (List.range n).map (byteAt x)

/-- Tables at 0x4000 that map the first 2^34 bytes to themselves, with every permission. -/
def tables : Memory := Memory.write (Memory.write [] 0x4000 (le 8 0x5001)) 0x5000 (le 8 0xFF)

/-- A kernel header at 0x10000 with one CEXIT as code, and a record at 0x10140 that names it. -/
def headerBytes : List Byte :=
  le 4 0x4F4B564A ++ le 2 1 ++ le 1 1 ++ le 1 0 ++ le 2 1 ++ le 2 0 ++ le 4 8 ++ le 4 0 ++ le 4 0 ++ le 2 1 ++ le 2 1 ++ le 1 0 ++ le 1 0 ++ le 2 0 ++ le 8 100 ++ le 4 100 ++ le 4 0 ++ le 48 0
def evalMemory (hint : Nat) : Memory := ((tables.write 0x10000 headerBytes).write 0x10060 (le 8 0)).write 0x10140 (le 8 0x10000 ++ le 8 77 ++ le 4 5 ++ le 1 hint ++ le 43 0)
def developing (hint : Nat) : State :=
  { machine (ctxWith []) with mem := evalMemory hint, cells := [(0x10140 / 64, cellOf .developing none)], verified := [(0, [(0, 0x10000, 0x68)])], vfs := [(0, { VF.reset with enable := true })] }

/-- A good record, whose evaluator fits beside the reader; a record with a reserved HINT. -/
theorem witness_EvaluatorStartsAsTheRecordSays :
    (let s := developing 0
     let x := cellOf .developing none
     let r := s.mem.read (64 * 0x405) 64
     tabGet s.cells 0x405 = some x ∧ x.packed = none ∧ x.vacated = none ∧ recordBad r = false ∧
      ∃ h t0, s.evalHeader (dieOf x.first.2.1) x.rank (leNat (r.take 8)) = .ok h t0 ∧ (let t := t0.dropFar (evalOwner (t0.rankOf x.rank).vf)
        t.mayRun (t.rankOf x.rank).vf x.rank && inScope (t.evalScope x r) 0 x.first.2.1 &&
        t.placesOk (t.vf (t.rankOf x.rank).vf).part x.rank h.kernel.banks h.kernel.fused [((0 : Nat), (1 : Nat))] &&
        (let q := (if h.kernel.fused then t.fuse (clusterOf 0) x.rank else t).placeCtx x.rank none h.kernel (0, 1) (BitVec.ofNat 64 (leNat ((r.drop 8).take 8))) (leNat ((r.drop 16).take 4)) 1
         (q.2.ctx q.1).alive)) = true) ∧
    (tabGet (developing 3).cells 0x405 = some (cellOf .developing none) ∧ recordBad ((developing 3).mem.read (64 * 0x405) 64) = true ∧
      (cellOf .developing none).readers = [] ∧ (cellOf .developing none).cmds = []) :=
  ⟨⟨by decide, rfl, rfl, by decide +kernel, cp_ok (by decide +kernel)⟩, by decide +kernel⟩

/-- An address that has a leaf, and one above 2^48. -/
theorem witness_WalkInstallsTheLeaf : (∃ e, (developing 0).walk 0 0x12345 = some e) ∧ (developing 0).walkSound 0 0x12345 = true ∧ (developing 0).walk 0 (2 ^ 48) = none ∧
    ({ developing 0 with bad := [(0x100, false)] } : State).walkSound 0 0x12345 = false :=
  ⟨(exists_some (P := fun _ => true) (by decide +kernel)).imp fun _ h => h.1, by decide, by decide, by decide +kernel⟩

/-! ### Vector lanes -/

/-- A context whose q1 is bound to spool 3 of one row; `n` elements have arrived. -/
def streaming (n : Nat) : Ctx := { ctxWith [] with q := (Vector.replicate 8 none).set 1 (some 3), spools := [(3, ⟨255, 1, 1, n, 0, none⟩)] }
def viaQ : Option VExt := some ⟨true, false, 0⟩

theorem streams_ready : StreamsReady (machine (streaming 1)) (streamsOf viaQ 1 0) := by
  intro q hq
  obtain rfl : q = 1 := by simpa [streamsOf, viaQ] using hq
  exact ⟨3, ⟨255, 1, 1, 1, 0, none⟩, by decide, by decide, by decide⟩

/-- With registers; with a stream operand in the window's last row. -/
theorem witness_IntegerLanesAreComputed :
    ((Instr.vclamp none 1 2 3 .i8 7).wf = true ∧ (∃ L, integerLanes (.vclamp none 1 2 3 .i8 7) = some L ∧ StreamsReady (machine (ctxWith [])) (streamsOf L.x L.a L.b))) ∧
    ((Instr.vadd viaQ 1 1 0 .i32 .rne 0).wf = true ∧ (∃ L, integerLanes (.vadd viaQ 1 1 0 .i32 .rne 0) = some L ∧ StreamsReady (machine (streaming 1)) (streamsOf L.x L.a L.b))) :=
  ⟨⟨by decide, _, rfl, fun _ h => (List.not_mem_nil h).elim⟩, by decide, _, rfl, streams_ready⟩

/-- 1, which F32 holds. -/
theorem witness_ConversionIsToTheNearest : Ty.isFloat .f32 = true ∧ (∃ x, ratOf (.fin false 1 0 false) = some x) ∧
    (∃ y, ratOf ((Ty.elem .f32).decode (convert (Ty.elem .f32) .rne 0 (.fin false 1 0 false)).1) = some y) ∧ 0x3F800000 < 2 ^ Ty.bits .f32 ∧ ∃ z, ratOf ((Ty.elem .f32).decode 0x3F800000) = some z :=
  ⟨rfl, ⟨_, rfl⟩, Option.isSome_iff_exists.1 (by decide +kernel), by decide, Option.isSome_iff_exists.1 (by decide +kernel)⟩

theorem witness_FloatLanesAreRoundedOnce :
    (Instr.vfma viaQ 1 1 0 .f32 .rne 0).wf = true ∧ ∃ L, floatLanes (.vfma viaQ 1 1 0 .f32 .rne 0) = some L ∧ L.t.isFloat = true ∧ StreamsReady (machine (streaming 1)) (streamsOf L.x L.a L.b) :=
  ⟨by decide, _, rfl, rfl, streams_ready⟩

theorem witness_SpecialCasesOfTheFunctions : ∀ t ∈ [Ty.f16, .bf16, .f32], t.isFloat = true ∧ RMode.rne ≠ .sr := by decide

theorem witness_LaneMovesDeliverTheNamedLane :
    (Instr.vmov viaQ 4 1 .n16 0).wf = true ∧ ∃ L, movedLanes (.vmov viaQ 4 1 .n16 0) = some L ∧ StreamsReady (machine (streaming 1)) (streamsOf L.x L.a L.b) :=
  ⟨by decide, _, rfl, streams_ready⟩

/-- Lane 1 of an INT32 move is named by no index but that of lane 0, and lane 9 by none: VB holds 1 in its first index and 200 in the others. -/
def indices : VReg := BitVec.ofNat 2048 ((List.range 127).foldl (fun x i => x + 200 * 2 ^ (16 * (i + 1))) 1)
def scattering : Ctx := { streaming 1 with p := Vector.replicate 8 (BitVec.allOnes 256), v := Vector.replicate 32 indices }
theorem indices_are : ∀ i, i < 64 → laneOf 16 indices i = if i = 0 then 1 else 200 := by decide +kernel

theorem witness_VscatWritesTheNamedLanes :
    let s := machine scattering
    let names (i j : Nat) : Prop := i < Ty.lanes .i32 ∧ Enabled s .i32 0 i ∧ laneOf 16 (sourceOf s false 0 16) i = j
    StreamsReady s (streamsOf viaQ 1 0) ∧ (names 0 1 ∧ ∀ k, names k 1 → k ≤ 0) ∧ ∀ i, ¬names i 9 := by
  have h (i : Nat) (hi : i < 64) : laneOf 16 (sourceOf (machine scattering) false 0 16) i = if i = 0 then 1 else 200 := indices_are i hi
  refine ⟨fun q hq => ?_, ⟨⟨by decide, of_decide_eq_true (p := (machine scattering).cx.p[(0 : Fin 8)].getLsbD 0 = true) (by decide +kernel), h 0 (by decide)⟩, fun k hk => ?_⟩, fun i hi => ?_⟩
  · obtain rfl : q = 1 := by simpa [streamsOf, viaQ] using hq
    exact ⟨3, ⟨255, 1, 1, 1, 0, none⟩, by decide, by decide, by decide⟩
  · have h1 := hk.2.2
    rw [h k hk.1] at h1
    split at h1 <;> omega
  · have h9 := hi.2.2
    rw [h i hi.1] at h9
    split at h9 <;> omega

theorem witness_PredicatesAreComparedSelectedAndCounted : StreamsReady (machine (streaming 1)) (streamsOf viaQ 1 0) ∧ StreamsReady (machine (ctxWith [])) (streamsOf none 1 2) :=
  ⟨streams_ready, fun _ h => (List.not_mem_nil h).elim⟩
theorem witness_LanesMeetScalarRegisters : StreamsReady (machine (streaming 1)) (streamsOf viaQ 1 0) := streams_ready
theorem witness_ReductionsFollowTheirFixedOrder : redOk .add .f32 .rne = true ∧ redOk .and .i8 .rne = true ∧ StreamsReady (machine (streaming 1)) (streamsOf viaQ 1 0) :=
  ⟨by decide, by decide, streams_ready⟩
theorem witness_VpartSortsTheLanes : Ty.width .i32 ≠ 1 := by decide
theorem witness_VrandDrawsItsWords : Ty.isInt .n8 = true := by decide

/-- From a plain format, from a block-scaled one, and with stochastic rounding. -/
theorem witness_VcvtConvertsElementByElement :
    ((Instr.vcvt none 1 4 .e4m3 .f32 .sr false).wf = true ∧ (Fmt.isBlock .e4m3 && !false) = false ∧ qaOf none = false) ∧
    ((Instr.vcvt none 2 4 .b32e2m1 .f32 .rne true).wf = true ∧ (Fmt.isBlock .b32e2m1 && !true) = false) := by decide

theorem witness_VcvtFormsBlocks : (Instr.vcvt none 2 4 .b32e4m3 .f32 .rne false).wf = true ∧ Fmt.isBlock .b32e4m3 = true ∧ (∃ e, Fmt.elem .b32e4m3 = some (.float e)) ∧ RMode.rne ≠ .sr :=
  ⟨by decide, by decide, ⟨_, rfl⟩, by decide⟩

/-- q1 unbound; bound to a spool whose next element has not arrived. -/
theorem witness_StreamReadsFaultOrHold : (1 : VR).toNat < 8 ∧ (machine (ctxWith [])).cx.rq 1 = none ∧
    ((machine (streaming 0)).cx.spoolOf 1 = some (3, ⟨255, 1, 1, 0, 0, none⟩) ∧ (machine (streaming 0)).cx.spoolRowsOk ⟨255, 1, 1, 0, 0, none⟩ = true ∧
      (machine (streaming 0)).cx.bad = [] ∧ (⟨255, 1, 1, 0, 0, none⟩ : Spool).mark = none ∧ (⟨255, 1, 1, 0, 0, none⟩ : Spool).held = 0) := by decide

/-! ### The matrix state -/

/-- The context's bank 0 in a format; the core's active plane in another. -/
def emulsified (f : W32) (c : Ctx) : Ctx := { c with emulsion := Vector.replicate 32 f }
def withPlane (f : BitVec 5) (c : Ctx) : State :=
  { machine c with cores := [(0, { Core.reset with tlb := [page], mowner := 0, mat := { Machine.Matrix.zero with recs := Vector.replicate 2 (true, 0, f) } })] }

theorem owns_machine (c : Ctx) (h : c.place = some (0, 0)) : OwnsMatrix (machine c) := by
  refine ⟨fun _ h => (List.not_mem_nil h).elim, ?_, ?_⟩ <;> simp [machine, State.cx, State.ctx, State.core, tabGetD, tabGet, Ctx.coreNum, Ctx.hw, Core.reset, h]
theorem owns_plane (f : BitVec 5) (c : Ctx) (h : c.place = some (0, 0)) : OwnsMatrix (withPlane f c) := by
  refine ⟨fun x (h : x ∈ []) => (List.not_mem_nil h).elim, ?_, ?_⟩ <;>
    simp [withPlane, machine, State.cx, State.ctx, State.core, tabGetD, tabGet, Ctx.coreNum, Ctx.hw, Core.reset, h]

/-- A row past the window; an F16 row on a BF16 plane, on an INT8 plane, and a row of scales; a stream. -/
theorem witness_PushesSendExactColumnSums :
    (OwnsMatrix (machine (walking 0x10000)) ∧ 256 * (machine (walking 0x10000)).cx.kernel.banks ≤ walkerOf (machine (walking 0x10000)) 0 / 256) ∧
    (let s := withPlane 3 (emulsified 2 (walking 0xFF00))
     OwnsMatrix s ∧ PushRow s 0 false 255 ∧ ¬HoldsScales s 255 ∧ Pairs (rowFmt s 255) (s.core s.cx.coreNum).mat.activeFmt) ∧
    (let s := withPlane 10 (emulsified 2 (walking 0xFF00))
     OwnsMatrix s ∧ PushRow s 0 false 255 ∧ ¬Pairs (rowFmt s 255) (s.core s.cx.coreNum).mat.activeFmt) ∧
    (let s := withPlane 5 (emulsified 15 (walking 0xF000))
     OwnsMatrix s ∧ PushRow s 0 false 240 ∧ HoldsScales s 240) ∧
    (let s := withPlane 2 (emulsified 2 (streaming 1))
     OwnsMatrix s ∧ PushRow s 1 true 255 ∧ Pairs (rowFmt s 255) (s.core s.cx.coreNum).mat.activeFmt) := by
  refine ⟨⟨owns_machine _ rfl, by decide⟩, ⟨owns_plane _ _ rfl, ⟨by decide, by decide⟩, by unfold HoldsScales; decide, by unfold Pairs wholeFmt; decide +kernel⟩,
    ⟨owns_plane _ _ rfl, ⟨by decide, by decide⟩, by unfold Pairs wholeFmt; decide +kernel⟩, ⟨owns_plane _ _ rfl, ⟨by decide, by decide⟩, by unfold HoldsScales; decide⟩,
    ⟨owns_plane _ _ rfl, ?_, by unfold Pairs wholeFmt; decide +kernel⟩⟩
  refine ⟨fun q hq => ?_, 3, ⟨255, 1, 1, 1, 0, none⟩, by decide, by decide⟩
  obtain rfl : q = 1 := by simpa using hq
  exact ⟨3, ⟨255, 1, 1, 1, 0, none⟩, by decide, by decide, by decide⟩

theorem witness_BeatsAccumulateInTheirRow : (List.replicate 128 (5 : Int)).length = 128 ∧ (List.replicate 128 XVal.nan).length = 128 := ⟨rfl, rfl⟩

/-- For MDRAINS: rows past the window; a row of scales; data rows of F16, RAW and a block-scaled format. For MDRAINW: a misaligned address and an aligned one. -/
theorem witness_DrainsDeliverTheRow :
    (OwnsMatrix (machine (emulsified 1 (walking 0xFF00))) ∧ 256 * (machine (emulsified 1 (walking 0xFF00))).cx.kernel.banks < walkerOf (machine (emulsified 1 (walking 0xFF00))) 0 / 256 + 2) ∧
    (let s := machine (emulsified 15 (walking 0xF000)); OwnsMatrix s ∧ walkerOf s 0 / 256 + 1 ≤ 256 * s.cx.kernel.banks ∧ HoldsScales s 240) ∧
    (let s := machine (emulsified 2 (walking 0xFF00)); OwnsMatrix s ∧ rowFmt s 255 = .f16 ∧ 255 + 1 ≤ 256 * s.cx.kernel.banks ∧ ¬HoldsScales s 255 ∧ ∀ c ∈ s.cmds, c.ctx ≠ s.cur) ∧
    (let s := machine (walking 0xFE00); OwnsMatrix s ∧ rowFmt s 254 = .raw ∧ 254 + 2 ≤ 256 * s.cx.kernel.banks ∧ ¬HoldsScales s 254) ∧
    (let s := machine (emulsified 15 (walking 0xEF00)); OwnsMatrix s ∧ (rowFmt s 239).isBlock = true ∧ ¬HoldsScales s 239 ∧ ∃ e, (rowFmt s 239).elem = some (.float e)) ∧
    (((machine (ctxWith [(1, 0x10102)])).rg 1).toNat % 4 ≠ 0 ∧ ((machine (ctxWith [(1, 0x10104)])).rg 1).toNat % 4 = 0) :=
  ⟨⟨owns_machine _ rfl, by decide⟩, ⟨owns_machine _ rfl, by decide, by unfold HoldsScales; decide⟩, ⟨owns_machine _ rfl, by decide, by decide, by unfold HoldsScales; decide, by decide⟩,
    ⟨owns_machine _ rfl, by decide, by decide, by unfold HoldsScales; decide⟩, ⟨owns_machine _ rfl, by decide, by unfold HoldsScales; decide, _, rfl⟩, by decide⟩

/-- A row past the window; a row of scales; a RAW row; a row of another bank than the open record; one that opens it; a row of AQ whose side table lies outside, and inside. -/
theorem witness_SwapModesAndShadowLoads :
    let ok (f : W32) (x : W32) (p : Bool × BitVec 2 × BitVec 5) : State :=
      { machine (emulsified f (walking x)) with cores := [(0, { Core.reset with tlb := [page], mowner := 0, mat := { Machine.Matrix.zero with recs := Vector.replicate 2 p } })] }
    (256 * (ok 0 0x10000 (false, 0, 0)).cx.kernel.banks ≤ walkerOf (ok 0 0x10000 (false, 0, 0)) 0 / 256) ∧ HoldsScales (ok 15 0xF000 (false, 0, 0)) 240 ∧
    (rowFmt (ok 0 0 (false, 0, 0)) 0 = .raw ∧ ¬HoldsScales (ok 0 0 (false, 0, 0)) 0) ∧ RecordDiffers (ok 2 0 (true, 0, 3)) ((ok 2 0 (true, 0, 3)).core 0).mat 0 ∧
    (rowFmt (ok 2 0 (true, 0, 2)) 0 ≠ .raw ∧ ¬RecordDiffers (ok 2 0 (true, 0, 2)) ((ok 2 0 (true, 0, 2)).core 0).mat 0) ∧
    ((rowFmt (ok 0x113 0 (false, 0, 0)) 0).isAq = true ∧ (ok 0x113 0 (false, 0, 0)).cx.kernel.banks ≤ sideOf (ok 0x113 0 (false, 0, 0)) 0) ∧
    ((rowFmt (ok 0x13 0 (false, 0, 0)) 0).isAq = true ∧ ¬((ok 0x13 0 (false, 0, 0)).cx.kernel.banks ≤ sideOf (ok 0x13 0 (false, 0, 0)) 0)) ∧ OwnsMatrix (machine (walking 0)) := by
  refine ⟨by decide, by unfold HoldsScales; decide, ⟨by decide, by unfold HoldsScales; decide⟩, by unfold RecordDiffers; decide, ⟨by decide, by unfold RecordDiffers; decide⟩,
    by decide, by decide, owns_machine _ rfl⟩

/-- A MSAT beside an MLDS, by the owner and by a context that is not. -/
theorem witness_MatrixWordIsOneUnit :
    let h : Shadow := ⟨.mlds, 0, true⟩
    let s : State := { machine (walking 0) with issue := ⟨4, false, none, 0, 1, false, none⟩ }
    let u : State := { s with cores := [(0, { Core.reset with tlb := [page] })] }
    besideShadow (.mmodeSat none) h = some (.mmodeSat (some h)) ∧ s.cx.spoiltReg (.mmodeSat none) = false ∧ s.issue.slot = 4 ∧ s.issue.trapped = false ∧ s.slotHolds [] (4, .mmodeSat none) = false ∧
      u.slotHolds [] (4, .mmodeSat none) = false ∧ ¬OwnsMatrix u := by
  refine ⟨rfl, by decide, rfl, rfl, by decide, by decide, fun h => absurd h.2.1 (by decide)⟩

/-- A page of 32 MiB. -/
def bigPage : TlbEntry := ⟨0, 0, 2 ^ 25, 0, 0xFF, 0x4000⟩

/-- In U mode; and in S mode, at an address whose image the page covers. -/
theorem witness_ImagesAreStoredAndLoaded :
    (∀ a ∈ (machine (ctxWith [])).accs, a.core = (machine (ctxWith [])).cx.coreNum → ∀ n, a.kind ≠ .load (.image n)) ∧ (machine (ctxWith [])).cx.mode = false ∧
    (let s := withPage bigPage (sMode (ctxWith [(1, 0x1FDC000)]))
     s.cx.mode = true ∧ (s.rg 1).toNat % 4096 = 0 ∧ Mapped s .write bigPage (s.rg 1).toNat 147456 ∧ Mapped s .read bigPage (s.rg 1).toNat 147456) :=
  ⟨fun _ h => (List.not_mem_nil h).elim, by decide, by decide, by decide,
    mapped_alone bigPage (sMode (ctxWith [(1, 0x1FDC000)])) .write 0x1FDC000 147456 (by decide) (by decide) (by decide) (by decide) (by decide) (by decide) (by decide),
    mapped_alone bigPage (sMode (ctxWith [(1, 0x1FDC000)])) .read 0x1FDC000 147456 (by decide) (by decide) (by decide) (by decide) (by decide) (by decide) (by decide)⟩

/-! ### The copy engine -/

/-- Four F32 elements in one run; the bank of the window is F32. -/
def shape4 : XReg := 4 + 2 ^ 20 + 2 ^ 32 + 2 ^ 44 + 2 ^ 56
def copying (x : XReg) (l : List (GR × W64)) : Ctx := { emulsified 1 (ctxWith l) with x := Vector.replicate 8 x }
def noOrder : CmdOrder := ⟨false, false, .core⟩
/-- A fill of window byte 256 on. -/
def fillCmd (started : Bool) : Cmd where
  id := 5
  ctx := 1
  rank := 0
  core := 0
  opc := 6
  epc := 0x10060
  shape := shape4
  src := .pattern 0x3F800000
  dst := .spad 256
  scaleBase := 0
  index := none
  indices := []
  adds := false
  emulsion := Vector.replicate 32 1
  order := noOrder
  ctr := 0
  key := 0
  started := started
  acq := false
  run := 0
  elem := 0
  flags := 0
  stopped := none
  reported := false
  keep := []
  keepG := []
  shut := none
  first := 5
  fetched := []
  refused := []
  parked := []
  out := []
  cls := .cp
def engine (l : List Cmd) : State := { machine (copying shape4 []) with cmds := l, nextId := 40 }

/-- With an empty engine, and with sixteen waiting. -/
theorem witness_CopyCommandsAreTaken :
    (∃ f, copyForm (.cpfScratch 1 0 (.walker 0 true) noOrder) (engine []) = some f ∧ (engine []).commandFault? (commandTaken (engine []) f) = none ∧ ¬engineIsFull (engine [])) ∧
    (let s := engine (List.replicate 16 (fillCmd false))
     ∃ f, copyForm (.cpfScratch 1 0 (.walker 0 true) noOrder) s = some f ∧ s.commandFault? (commandTaken s f) = none ∧ engineIsFull s) :=
  ⟨⟨_, rfl, by decide, by unfold engineIsFull; decide⟩, ⟨_, rfl, by decide, by unfold engineIsFull; decide⟩⟩

/-- Rows of 65 F32 elements; a spool with elements of one row. -/
def shape65 : XReg := 65 + 2 ^ 20 + 2 ^ 32 + 2 ^ 44 + 2 ^ 56
theorem one_run {c : Cmd} {P : Nat → Prop} (h : shRuns c.shape = 1) (h0 : P 0) : ∀ r, r < shRuns c.shape → P r := fun r hr => by
  obtain rfl : r = 0 := by omega
  exact h0

/-- MODE 5; an undefined format; an undefined spool; a spool whose elements are too small; a mask that names no core; a row past the window; a source at an odd address; an index list at an odd address. -/
theorem witness_CopyCommandsFaultInOrder :
    (∃ f, copyForm (.cpfScratch 1 0 (.spool 3) noOrder) (machine (copying (shape4 + 5 * 2 ^ 61) [])) = some f ∧ 5 ≤ ((machine (copying (shape4 + 5 * 2 ^ 61) [])).cx.rx f.2.1).toNat / 2 ^ 61 % 8) ∧
    Fmt.ofCode (((machine (copying (shape4 + 30 * 2 ^ 56) [])).cx.rx 0).toNat / 2 ^ 56 % 32) = none ∧
    (∃ f, copyForm (.cpfScratch 1 0 (.spool 3) noOrder) (engine []) = some f ∧ (commandTaken (engine []) f).formatBad (engine []).cx = false ∧ f.2.2.2.1 = .spool 3 ∧
      tabGet (engine []).cx.spools 3 = none) ∧
    (let s := machine { copying shape65 [] with spools := [(3, ⟨0, 1, 1, 0, 0, none⟩)] }
     ∃ f, copyForm (.cpfScratch 1 0 (.spool 3) noOrder) s = some f ∧ (commandTaken s f).formatBad s.cx = false ∧ SideInside s (commandTaken s f) false ∧ sideOfCmd (commandTaken s f) true = .spool 3 ∧
      tabGet s.cx.spools 3 = some ⟨0, 1, 1, 0, 0, none⟩ ∧ 256 * 1 < (shN0 shape65 * ((commandTaken s f).bankFmt 0).bits + 7) / 8) ∧
    (let s := machine (copying shape4 [(1, 0x10000), (2, 0x500000000)])
     ∃ f, copyForm (.cpm 1 2 0 4 noOrder) s = some f ∧ (commandTaken s f).formatBad s.cx = false ∧ SideInside s (commandTaken s f) false ∧ sideOfCmd (commandTaken s f) true = .targets 4 5 0) ∧
    (let s := machine ((copying shape4 []).wa 0 ⟨0x10000, 1, Vector.replicate 6 0⟩)
     ∃ f, copyForm (.cpfScratch 1 0 (.walker 0 true) noOrder) s = some f ∧ (commandTaken s f).formatBad s.cx = false ∧ SideInside s (commandTaken s f) false ∧ sideOfCmd (commandTaken s f) true = .spad 0x10000 ∧
      0 < shRuns shape4 ∧ ¬RunInside s (commandTaken s f) true 0x10000 0) ∧
    (let s := machine (copying shape4 [(2, 0x101)])
     ∃ f, copyForm (.cpMv 2 0 (.walker 0 true) noOrder) s = some f ∧ (commandTaken s f).formatBad s.cx = false ∧ SideInside s (commandTaken s f) false ∧ SideInside s (commandTaken s f) true ∧
      ∃ p, sideBase s (commandTaken s f) false = some (0x101, p) ∧ ¬p) ∧
    (let s := machine (copying shape4 [(1, 0x10000), (2, 0x10102)])
     ∃ f, copyForm (.cpg 1 2 0 (.walker 0 true) noOrder) s = some f ∧ (commandTaken s f).formatBad s.cx = false ∧ SideInside s (commandTaken s f) false ∧ SideInside s (commandTaken s f) true ∧
      SideAligned s (commandTaken s f) false ∧ SideAligned s (commandTaken s f) true ∧ f.2.2.2.2.2.1 = some (0x10102, false) ∧ 0x10102 % 4 ≠ 0) := by
  refine ⟨⟨_, rfl, by decide⟩, by decide, ⟨_, rfl, by decide, rfl, by decide⟩, ⟨_, rfl, by decide, trivial, rfl, by decide, by decide⟩, ⟨_, rfl, by decide, trivial, rfl⟩,
    ⟨_, rfl, by decide, trivial, rfl, by decide, ?_⟩, ⟨_, rfl, by decide, one_run (by decide) ?_, one_run (by decide) ?_, _, rfl, fun h => absurd ((h 0 (by decide)).2 (by decide)) (by decide)⟩,
    ⟨_, rfl, by decide, trivial, one_run (by decide) ?_, ?_, ?_, rfl, by decide⟩⟩
  · unfold RunInside; decide
  · unfold RunInside; decide
  · unfold RunInside; decide
  · unfold RunInside; decide
  · rintro _ ⟨rfl⟩
    exact one_run (by decide) ⟨by decide, fun _ => by decide⟩
  · rintro _ ⟨rfl⟩
    exact one_run (by decide) ⟨by decide, fun _ => by decide⟩

/-- Not started; started; a fill about to move; stopped and feeding a spool; finished. -/
theorem witness_CopyCommandsRunAndRetire :
    ((engine [fillCmd false]).cmd? 5 = some (fillCmd false) ∧ ((engine [fillCmd false]).ctx 1).phase = .live ∧ ((engine [fillCmd false]).cmds.filter fun x => x.ctx == 1 && x.started).length < 8 ∧ (fillCmd false).acq = false ∧ shRuns shape4 ≠ 0) ∧
    ((engine [fillCmd true]).cmd? 5 = some (fillCmd true) ∧ (engine [fillCmd true]).cmdReady (fillCmd true) = true ∧ (fillCmd true).elem = 0 ∧ (fillCmd true).index = none ∧ (∀ y ∈ (engine [fillCmd true]).cmds, y.id = 5) ∧ (fillCmd true).order.rel = false ∧ (fillCmd true).out = [] ∧
      ((fillCmd true).bankFmt ((fillCmd true).spadAt true 256 0)).isBlock = false ∧ 8 ≤ ((fillCmd true).bankFmt ((fillCmd true).spadAt true 256 0)).bits ∧
      ((engine [fillCmd true]).ctx 1).window.wf = true) ∧
    (let c : Cmd := { fillCmd true with dst := .spool 3, stopped := some (.permission, 0x20000, false) }
     let s : State := { engine [c] with ctxs := [(1, streaming 1)] }
     s.cmd? 5 = some c ∧ c.reported = false ∧ c.out = [] ∧ (s.ctx c.ctx).alive = true ∧ s.cmds = [c] ∧ tabGet (s.ctx c.ctx).spools 3 = some ⟨255, 1, 1, 1, 0, none⟩ ∧
      (s.ctx c.ctx).waiting = [] ∧ (s.ctx c.ctx).reports.length < 8 ∧ (tabGet s.ranks (s.ctx c.ctx).rank).isSome = true ∧
      8 ≤ (({ s with ctxs := [(1, { streaming 1 with reports := List.replicate 8 ⟨1, 2, 3, 4, 5, 6, 7, 8, 9, 10, none⟩ })] } : State).ctx c.ctx).reports.length) ∧
    (let c : Cmd := { fillCmd true with run := 1 }
     (engine [c]).cmd? 5 = some c ∧ c.started = true ∧ c.stopped = none ∧ shRuns c.shape ≤ c.run ∧ c.out = [] ∧ c.acq = false ∧ ((engine [c]).ctx c.ctx).phase ≠ .ended ∧
      (({ engine [c] with ctxs := [(1, { ctxWith [] with phase := .ended })] } : State).ctx c.ctx).phase = .ended) := by decide

/-- A spool that fits, and one whose rows run past its bank; an undefined spool, a pointer moved by no whole element, room for one and a row held; a bank past the window, a reserved bit of an emulsion, a good one. -/
theorem witness_EngineRegistersAreSet :
    ((7 : BitVec 8).toNat + 1) % 2 ^ (0 : BitVec 2).toNat = 0 ∧ ((machine (ctxWith [(1, 0xF800)])).rg 1).toNat / 256 % 256 + 8 ≤ 256 ∧ ¬(((machine (ctxWith [(1, 0xF900)])).rg 1).toNat / 256 % 256 + 8 ≤ 256) ∧
    tabGet (machine (ctxWith [])).cx.spools 3 = none ∧
    (let sp : Spool := ⟨0, 8, 2, 4, 2, none⟩
     let s := machine { ctxWith [(1, 3), (2, 10), (4, 6), (5, 2)] with spools := [(3, sp)] }
     tabGet s.cx.spools 3 = some sp ∧ s.cx.bad = [] ∧ (8 % sp.elem = 0 ∧ 8 ≤ sp.size ∧ sp.room < 8) ∧ (4 % sp.elem = 0 ∧ 4 ≤ sp.size ∧ sp.held < 4) ∧ (s.rg 1).toNat % sp.elem ≠ 0 ∧ sp.size < (s.rg 2).toNat ∧ ((s.rg 4).toNat % sp.elem = 0 ∧ (s.rg 4).toNat ≤ sp.room) ∧
      ((s.rg 5).toNat % sp.elem = 0 ∧ (s.rg 5).toNat ≤ sp.held)) ∧
    (machine (ctxWith [(1, 1)])).cx.kernel.banks ≤ ((machine (ctxWith [(1, 1)])).rg 1).toNat ∧ ((machine (ctxWith [])).rg 1).toNat < (machine (ctxWith [])).cx.kernel.banks ∧
    ¬EmulsionOk 0x80 ∧ EmulsionOk 2 ∧ (machine (ctxWith [])).cx.cp = [] ∧ OwnsMatrix (machine (ctxWith [])) := by
  refine ⟨by decide, by decide, by decide, by decide, by decide, by decide, by decide, ?_, ⟨.f16, by decide, by decide, by decide, by decide⟩, rfl, owns_machine _ rfl⟩
  rintro ⟨f, -, -, h, -⟩
  exact absurd h (by decide)

/-! ### Groups, queues, launches -/

/-- With no command at work, and with one that uses the window; the evaluator of a cell, and of one that is no longer its own. -/
theorem witness_ExitEndsTheContext :
    (let s := machine (ctxWith [])
     s.cx.eval = none ∧ s.cx.reports = [] ∧ s.cx.waiting = [] ∧ s.cx.failures = [] ∧ s.cx.fw = none ∧ (∀ c ∈ s.cmds, c.usesWindow s.cur = false) ∧ s.cx.place = some (0, 0) ∧ (s.core 0).mhwc.toNat = 0) ∧
    (let s := engine [fillCmd true]
     s.cx.eval = none ∧ s.cx.reports = [] ∧ s.cx.waiting = [] ∧ s.cx.failures = [] ∧ s.cx.fw = none ∧ ∃ c ∈ s.cmds, c.usesWindow s.cur = true) ∧
    (∀ e : EvalInfo, e.cell = 0x405 →
      let s (k : Nat) : State := { machine { ctxWith [] with eval := some e } with cells := [(0x405, cellOf .developing (some k))] }
      (∀ k, (s k).cx.eval = some e ∧ (s k).cx.reports = [] ∧ (s k).cx.waiting = [] ∧ (s k).cx.failures = [] ∧ (s k).cx.fw = none) ∧
      (∃ x, tabGet (s 1).cells e.cell = some x ∧ x.eval = some (s 1).cur ∧ x.tag = .developing ∧ x.readers = [] ∧ x.cmds = []) ∧ ∀ x, tabGet (s 2).cells e.cell = some x → x.eval ≠ some (s 2).cur) := by
  refine ⟨by decide, by decide, fun e he => ⟨fun _ => ⟨rfl, rfl, rfl, rfl, rfl⟩, ⟨_, by rw [he]; rfl, rfl, rfl, rfl, rfl⟩, fun x h => ?_⟩⟩
  rw [he] at h
  cases h
  exact fun h => absurd h (by decide : (some 2 : Option Nat) ≠ some 1)

def grouped (l : List Group) (h : Tab Held) : State := { machine { ctxWith [] with held := h } with groups := l }
/-- Group 1023 of rank 0. -/
def group (members next : List Nat) (req : Option (List Nat)) : Group := ⟨0, 1023, 0, members, next, req, [], []⟩

theorem full_length (l : List Nat) (n : Nat) (hl : n ≤ l.length) : n ≤ (group l [] none).members.length + (group l [] none).next.length := Nat.le_trans hl (Nat.le_add_right _ _)
theorem full_group (l : List Nat) (h : 1 ∉ l) (hl : 512 ≤ l.length) :
    let x := { group l [] none with num := 7 }
    let s := grouped [x] []
    s.group? s.cx.rank (groupNumOf s 0 7) = some x ∧ ¬MemberOf s x ∧ 512 ≤ x.members.length + x.next.length := by
  intro x s
  exact ⟨rfl, fun m => m.elim h List.not_mem_nil, full_length l 512 hl⟩

/-- No group: with eight joined and with room. A group: full, with room, with a barrier pending; its member's barrier, not arrived and released. -/
theorem witness_GroupsAndArrivals :
    (let s := grouped ((List.range 8).map fun n => ⟨0, n, 0, [1], [], none, [], []⟩) []
     s.group? s.cx.rank (groupNumOf s 0 1023) = none ∧ 8 ≤ groupsJoined s) ∧
    (let s := grouped [] []
     s.group? s.cx.rank (groupNumOf s 0 1023) = none ∧ groupsJoined s < 8 ∧ s.groups.length < 1024 ∧ tabGet s.cx.held s.issue.slot = none) ∧
    (∃ l, let x := { group l [] none with num := 7 }
     let s := grouped [x] []
     s.group? s.cx.rank (groupNumOf s 0 7) = some x ∧ ¬MemberOf s x ∧ 512 ≤ x.members.length + x.next.length) ∧
    (let x := group [2] [] (some [2])
     let s := grouped [x] []
     s.group? s.cx.rank (groupNumOf s 0 1023) = some x ∧ ¬MemberOf s x ∧ x.members.length + x.next.length < 512 ∧ groupsJoined s < 8) ∧
    (let x := group [1, 2] [] (some [1, 2])
     let s := grouped [x] []
     s.group? s.cx.rank (groupNumOf s 0 1023) = some x ∧ MemberOf s x ∧ tabGet s.cx.held s.issue.slot = none ∧ Quiet s ∧ s.cur ∈ x.members ∧ s.cur ∉ x.next) ∧
    (let x := group [1, 2] [] none
     let s := grouped [x] [(0, .released)]
     s.group? s.cx.rank (groupNumOf s 0 1023) = some x ∧ tabGet s.cx.held s.issue.slot = some .released) := by
  exact ⟨by decide, by decide, ⟨(List.range 512).map (· + 2), full_group _ (by simp) (by simp)⟩, ⟨rfl, by unfold MemberOf; decide, by decide, by decide⟩,
    ⟨rfl, by unfold MemberOf; decide, by decide, ⟨fun _ h => (List.not_mem_nil h).elim, rfl, rfl⟩, by decide, by decide⟩, ⟨rfl, by decide⟩⟩

theorem witness_BarrierReleasesItsSet :
    let x : Group := ⟨0, 7, 4, [1, 2], [3], some [1], [1], []⟩
    (grouped [x] [(0, .barrier 7 4)]).group? 0 7 = some x ∧ x.required = some [1] ∧ (∀ k ∈ [1], k ∈ x.arrived) ∧ x.members ++ x.next ≠ [] := by decide

/-- Rank 0 with a continuation queue 2; the page's translation alone in the cache. -/
def queued (q : Queue) (c : Ctx) : State := { withPage page c with ranks := [(0, { RankRec.blank with nvk := 1, wallow := 8, state := 1, root := 0x4000, spillsz := 1, queues := [(2, q)] })] }

theorem mapped_queued (q : Queue) (need : Need) (va n : Nat) (c : Ctx) (hr : c.rank = 0) (hp : c.coreNum = 0) (h1 : 0x10000 ≤ va) (h2 : va + n ≤ 0x20000) (hn : page.bits.testBit need.bit = true) :
    Mapped (queued q c) need page va n := by
  have h := mapped_alone page c need va n hr hp h1 h2 hn (by decide) (by decide)
  exact ⟨h.1, h.2.1, h.2.2.1, h.2.2.2⟩

/-- A misaligned address; a queue with room; a full one; an empty one, not terminated and terminated; one with a record. -/
theorem witness_QueuesPostAndTake :
    (((queued ⟨[], [], false, none⟩ (ctxWith [(1, 0x10120)])).rg 1).toNat % 64 ≠ 0) ∧
    (let s := queued ⟨[], [], false, none⟩ (ctxWith [(1, 0x1FFC0)])
     (s.rg 1).toNat % 64 = 0 ∧ Mapped s .read page (s.rg 1).toNat 64 ∧ Mapped s .write page (s.rg 1).toNat 64 ∧ (queueOf s 2).recs.length < 4096 ∧
      tabGet s.cx.held s.issue.slot = none ∧ (tabGet s.ranks s.cx.rank).isSome = true ∧ (queueOf s 2).recs = [] ∧ (queueOf s 2).terminated = false) ∧
    4096 ≤ (queueOf (queued ⟨List.replicate 4096 [], [], false, none⟩ (ctxWith [(1, 0x1FFC0)])) 2).recs.length ∧
    (queueOf (queued ⟨[], [1], true, none⟩ (ctxWith [(1, 0x1FFC0)])) 2).terminated = true ∧
    (let s := queued ⟨[List.replicate 64 9], [], false, none⟩ (ctxWith [(1, 0x1FFC0)])
     (queueOf s 2).recs = List.replicate 64 9 :: [] ∧ (queueOf s 2).taking = none ∧ (List.replicate 64 (9 : Byte)).length = 64 ∧ Quiet s ∧ paRemote (page.pa + ((s.rg 1).toNat - page.va)) = false ∧
      (∀ w ∈ s.wins, w.rank ≠ s.cx.rank) ∧ s.cells = [] ∧ s.bad = [] ∧ s.mem.wf = true) := by
  refine ⟨by decide, ⟨by decide, mapped_queued _ .read 0x1FFC0 64 _ (by decide) (by decide) (by decide) (by decide) (by decide),
    mapped_queued _ .write 0x1FFC0 64 _ (by decide) (by decide) (by decide) (by decide) (by decide), by decide, by decide, by decide, by decide, by decide⟩, ?_, by decide,
    ⟨rfl, rfl, rfl, ⟨fun _ h => (List.not_mem_nil h).elim, rfl, rfl⟩, by decide, by decide, rfl, rfl, rfl⟩⟩
  show 4096 ≤ (List.replicate 4096 ([] : List Byte)).length
  rw [List.length_replicate]

theorem witness_EmptyQueueTerminates :
    let q : Queue := ⟨[], [1], false, none⟩
    let s := queued q { ctxWith [] with held := [(5, .taker 2)] }
    tabGet (s.rankOf 0).queues 2 = some q ∧ q.recs = [] ∧ q.takers ≠ [] ∧ q.terminated = false ∧ (∀ a ∈ s.accs, a.rank = 0 → a.kind ≠ .post 2) ∧
      ∀ c ∈ q.takers, ∃ e ∈ (s.ctx c).held, e.2 = .taker 2 :=
  ⟨rfl, rfl, by decide, rfl, fun _ h => (List.not_mem_nil h).elim, by decide⟩

/-- A launch record of the kernel at 0x10000. -/
def launchRec (src : LaunchSrc) (ev : Nat) : LaunchRec := ⟨9, 0, 0, src, 0x10000, 77, ev, 0, 1, none, 5⟩
/-- A context of launch 3 whose LAUNCH has read its descriptor; the child queue holds n records. -/
def launching (n parked : Nat) : State :=
  { withPage page { ctxWith [(1, 0x10140)] with launch := some 3, held := [(0, .read 7)] } with
    accs := [⟨7, 1, 0, 0, 0, 0x15, 0x10060, .load .none, .none, none, false, [part 0x10140 32 .done], false, 7, [], none⟩], nextId := 8
    vfs := [(0, { VF.reset with enable := true, childq := List.replicate n (launchRec (.child 1 none ⟨0, 0, 0, 0, 0, 0, 0, 0, 0, 0, none⟩) 0) })]
    launches := [⟨3, 0, 0, .queue 0 0, 0x10000, 0, 0, [1], 1, parked, false⟩] }

/-- A misaligned descriptor; the read not yet made; room in the child queue, with nothing parked and behind a parked record; a full one, with a place reserved and without. A parked record with room. -/
theorem witness_LaunchIsAcceptedOrRefused :
    (((machine (ctxWith [(1, 0x10130)])).rg 1).toNat % 32 ≠ 0) ∧
    (let s := withPage page (ctxWith [(1, 0x10140)])
     (s.rg 1).toNat % 32 = 0 ∧ Mapped s .read page (s.rg 1).toNat 32 ∧ tabGet s.cx.held s.issue.slot = none) ∧
    (∀ n p, Mapped (launching n p) .read page ((launching n p).rg 1).toNat 32 ∧ (∃ l, (launching n p).heldBytes? = some (l, 7)) ∧ (launching n p).mustWait (.fence .release) none true [] = false ∧
      (launching n p).cx.launch = some 3 ∧ ∃ L, (launching n p).launch? 3 = some L ∧ L.parked = p ∧ L.maxchild = 1) ∧
    (((launching 63 0).vf 0).childq.length < 64 ∧ ((launching 63 0).vf 0).halted = false ∧ ∀ x ∈ (launching 63 0).ranks, x.2.vf = 0 → x.2.parked = []) ∧
    (∃ x ∈ ({ launching 63 0 with ranks := [(0, { RankRec.blank with parked := [launchRec (.queue 0 0) 0] })] } : State).ranks, x.2.vf = 0 ∧ x.2.parked ≠ []) ∧ ¬(((launching 64 0).vf 0).childq.length < 64) ∧ (0 < 1 ∧ 1 ≤ 1) ∧
    (let r := launchRec (.child 1 none ⟨0, 0, 0, 0, 0, 0, 0, 0, 0, 0, none⟩) 0
     let s : State := { machine (ctxWith []) with ranks := [(0, { RankRec.blank with parked := [r] })] }
     (s.rankOf 0).parked = r :: [] ∧ (s.vf r.vf).childq.length < 64 ∧ (s.vf r.vf).halted = false) := by
  refine ⟨by decide, ⟨by decide, mapped_alone page (ctxWith [(1, 0x10140)]) .read 0x10140 32 (by decide) (by decide) (by decide) (by decide) (by decide) (by decide) (by decide), by decide⟩,
    fun n p => ⟨?_, ⟨_, rfl⟩, rfl, rfl, _, rfl, rfl, rfl⟩, by decide, by decide, by decide, by decide, by decide⟩
  have h := mapped_alone page { ctxWith [(1, 0x10140)] with launch := some 3, held := [(0, .read 7)] } .read 0x10140 32 (by decide) (by decide) (by decide) (by decide) (by decide) (by decide)
    (by decide)
  exact ⟨h.1, h.2.1, h.2.2.1, h.2.2.2⟩

/-- Host queue 0 of virtual function 0, whose head waits for placement; or its child queue. -/
def headed (l : List LaunchRec) (r : Option LaunchRec) : State :=
  { developing 0 with
    ctxs := [], cells := [], ranks := [(0, { RankRec.blank with nvk := 1, wallow := 8, state := 1, root := 0x4000, spillsz := 1, parkn := 4, save := 0x100000 })]
    vfs := [(0, { VF.reset with enable := true, childq := l, queues := match r with | some r => [(0, { CmdQueue.reset with state := 1, head := .launch r })] | none => [] })] }

theorem placed_of {x : StartRes} (h : (match x with | .placed _ => true | _ => false) = true) : ∃ t, x = .placed t := by
  cases x with
  | placed t => exact ⟨t, rfl⟩
  | _ => exact Bool.noConfusion h
theorem refused_of {x : StartRes} (h : (match x with | .refused _ _ => true | _ => false) = true) : ∃ c w, x = .refused c w := by
  cases x with
  | refused c w => exact ⟨c, w, rfl⟩
  | _ => exact Bool.noConfusion h

theorem ok_of {α : Type} {x : HubRes α} (h : (match x with | .ok _ _ => true | .fail _ _ => false) = true) : ∃ u v, x = .ok u v := by
  cases x with
  | ok u v => exact ⟨u, v, rfl⟩
  | fail _ _ => exact Bool.noConfusion h

theorem fail_of {α : Type} {x : HubRes α} (h : (match x with | .ok _ _ => false | .fail _ _ => true) = true) : ∃ c a, x = .fail c a := by
  cases x with
  | ok _ _ => exact Bool.noConfusion h
  | fail c a => exact ⟨c, a, rfl⟩

/-- The access succeeds, and what it gives satisfies P. -/
def okAnd {α : Type} (x : HubRes α) (P : α → Bool) : Bool := match x with | .ok u _ => P u | .fail _ _ => false

theorem ok_of_okAnd {α : Type} {x : HubRes α} {P : α → Bool} (h : okAnd x P = true) : ∃ u v, x = .ok u v := by
  cases x with
  | ok u v => exact ⟨u, v, rfl⟩
  | fail _ _ => exact Bool.noConfusion h

/-- Whether the save area of one context can be marked. -/
def areaMarked (r : LaunchRec) (k : Kernel) (n : Nat) (s : State) (p : Nat × Nat) (i : Nat) : Bool :=
  let u := if k.fused then s.fuse (clusterOf p.1) r.rank else s
  let c := u.newCtx r.rank (some r.id) k p r.args (r.base + i) n
  okAnd (({ u with nextId := u.nextId + 1, ctxs := tabSet u.ctxs u.nextId c } : State).hubPut r.rank (c.msave.toNat + 0x24200) (List.replicate 8 0)) fun _ => true
theorem area_marked {r : LaunchRec} {k : Kernel} {n : Nat} {s : State} {p : Nat × Nat} {i : Nat} (h : areaMarked r k n s p i = true) : AreasMarked r k n s [p] i := by
  unfold areaMarked at h
  dsimp only at h
  obtain ⟨x, w, hx⟩ := ok_of_okAnd h
  unfold AreasMarked
  dsimp only
  exact ⟨x, w, hx, by unfold AreasMarked; trivial⟩

theorem check_of {x : CheckRes} {P : KHeader → Nat → State → Bool} {Q : KHeader → Nat → State → Prop} (hq : ∀ h n u, P h n u = true → Q h n u)
    (h : (match x with | .ok h n u => P h n u | _ => false) = true) : ∃ k n u, x = .ok k n u ∧ Q k n u := by
  cases x with
  | ok k n u => exact ⟨k, n, u, rfl, hq k n u h⟩
  | _ => exact Bool.noConfusion h

/-- A good kernel at the head of a host queue and of a child queue; one whose header is not there; a launch whose contexts are gone, with no event and with one. -/
theorem witness_LaunchesStartAndComplete :
    (let r := launchRec (.queue 0 0) 0
     (∃ t, (headed [] (some r)).startLaunch r [(5, 3)] = .placed t) ∧ (headed [] (some r)).launchHead? 9 = some (0, 0, r) ∧ (headed [] (some r)).turn 0 0 = true ∧ (headed [] (some r)).launch? r.id = none ∧
      ∃ h n u, (headed [] (some r)).checkLaunch r = .ok h n u ∧ AreasMarked r h.kernel n (withLaunch u r h.kernel) [(5, 3)] 0) ∧
    (let r := { launchRec (.queue 0 0) 0 with code := 0x20000 }
     (∃ c w, (headed [] (some r)).startLaunch r [(5, 3)] = .refused c w) ∧ (headed [] (some r)).launchHead? 9 = some (0, 0, r) ∧ (headed [] (some r)).turn 0 0 = true) ∧
    (let r := launchRec (.child 1 none ⟨0, 0, 0, 0, 0, 0, 0, 0, 0, 0, none⟩) 0
     ((headed [r] none).vf 0).childq = r :: [] ∧ (headed [r] none).childTurn 0 = true ∧ (headed [r] none).served? 0 = true ∧ ∃ t, (headed [r] none).startLaunch r [] = .placed t) ∧
    (let L (e : Nat) : Launch := ⟨9, 0, 0, .queue 0 0, 0x10000, 0, e, [1], 1, 0, false⟩
     let s (e : Nat) : State := { headed [] none with launches := [L e] }
     (∀ e, (s e).launch? 9 = some (L e) ∧ ∀ k ∈ (L e).ctxs, ((s e).ctx k).alive = false ∧ (s e).outstanding k = false) ∧ (L 0).event = 0 ∧ (s 0x10148).wordHeld 0 0 0x10148 = false ∧
      ((L 0x10148).event % 8 = 0 ∧ (L 0x10148).event ≠ 0 ∧ ∃ u v, (s 0x10148).hubAdd 0 0x10148 1 (some ((L 0x10148).rank, (L 0x10148).eventRecord)) = .ok u v)) := by
  refine ⟨⟨placed_of (by decide +kernel), by decide +kernel, by decide +kernel, rfl, ?_⟩, ⟨refused_of (by decide +kernel), by decide +kernel, by decide +kernel⟩,
    ⟨rfl, by decide +kernel, by decide +kernel, placed_of (by decide +kernel)⟩, fun e => ⟨rfl, fun k hk => ?_⟩, rfl, by decide +kernel, by decide, by decide, ?_⟩
  · exact check_of (P := fun h n u => areaMarked (launchRec (.queue 0 0) 0) h.kernel n (withLaunch u (launchRec (.queue 0 0) 0) h.kernel) (5, 3) 0) (fun h n u hp => area_marked hp) (by decide +kernel)
  · fin_cases hk
    exact ⟨rfl, rfl⟩
  · exact ok_of (by decide +kernel)

/-! ### Reading what the hub answers -/

/-- The tables of `tables` stand in a memory, and marking their leaf leaves it as it is. -/
def TablesIn (m : Memory) : Prop := m.readLE 0x4000 8 = 0x5001 ∧ m.readLE 0x5000 8 = 0xFF ∧ m.set 0x5000 (m.get 0x5000 ||| BitVec.ofNat 8 (2 ^ bitA ||| 0)) = m ∧
  m.set 0x5000 (m.get 0x5000 ||| BitVec.ofNat 8 (2 ^ bitA ||| 2 ^ bitD)) = m

/-- Below 2^34 the tables at 0x4000 map every address to itself. -/
theorem walk_tables (s : State) (va : Nat) (hm : TablesIn s.mem) (hr : (s.rankOf 0).root = 0x4000) (hv : va < 2 ^ 34) : s.walk 0 va = some ⟨0, 0, 2 ^ 34, 0, 0xFF, 0x5000⟩ := by
  have h1 : va < 2 ^ 48 := by omega
  have h2 : bitsOf va 43 5 = 0 := by unfold bitsOf; omega
  have h3 : bitsOf va 34 9 = 0 := by unfold bitsOf; omega
  have h4 : va / 2 ^ 34 * 2 ^ 34 = 0 := by omega
  have e1 : pteL 0x5001 = false ∧ tableOk 0x5001 = true ∧ bitsOf 0x5001 12 44 * 4096 = 0x5000 := by decide +kernel
  have e2 : pteL 0xFF = true ∧ leafOk 0xFF 34 = true ∧ bitsOf 0xFF 16 40 * 65536 = 0 := by decide +kernel
  unfold State.walk
  rw [if_pos h1, hr]
  simp only [walkLevelsBelow, walkFrom, h2, h3, h4, Nat.mul_zero, Nat.add_zero, hm.1, hm.2.1, e1.1, e1.2.1, e1.2.2, e2.1, e2.2.1, e2.2.2, Bool.and_self, if_true, if_false, Bool.false_eq_true]

/-- What such an access of the hub leaves as it is. -/
def Kept (s t : State) : Prop := t.mem = s.mem ∧ t.ranks = s.ranks ∧ t.bad = s.bad ∧ t.cells = s.cells ∧ t.wins = s.wins

/-- An access there finds its pieces in place; a read leaves the state as it is. -/
theorem hubParts_tables (need : Need) (va0 N : Nat) (data : List Byte) (hd : data.length = N) :
    ∀ (l : List (Nat × Nat)) (s : State), s.bad = [] → TablesIn s.mem → (s.rankOf 0).root = 0x4000 → (∀ p ∈ l, p.1 < 2 ^ 34 ∧ p.1 - va0 + p.2 ≤ N) →
      ∃ ps t, s.hubParts 0 need va0 data l = .ok ps t ∧ Kept s t ∧ (need = .read → t = s) ∧ (ps.map fun p => p.en.length).sum = (l.map (·.2)).sum := by
  intro l
  induction l with
  | nil => exact fun s _ _ _ _ => ⟨[], s, rfl, ⟨rfl, rfl, rfl, rfl, rfl⟩, fun _ => rfl, rfl⟩
  | cons p l ih =>
    intro s hb hm hr h
    obtain ⟨hp, hn⟩ := h p (List.mem_cons_self ..)
    have ht : ∃ u, s.hubTranslate 0 p.1 need = some (p.1, u) ∧ Kept s u ∧ (need = .read → u = s) := by
      unfold State.hubTranslate
      rw [walk_tables s p.1 hm hr hp]
      have hs : s.walkSound 0 p.1 = true := by unfold State.walkSound; rw [hb]; rfl
      have hc : s.correctBlocks (s.walkBlocks 0 p.1) = s := by unfold State.correctBlocks; rw [hb]; rfl
      cases need with
      | read =>
        simp only [TlbEntry.bit, Need.bit, Need.isWrite, State.noteWrite, TlbEntry.paOf, if_false, Bool.false_eq_true]
        rw [hs, hc, if_pos (by decide), Nat.sub_zero, Nat.zero_add, hm.2.2.1]
        exact ⟨s, rfl, ⟨rfl, rfl, rfl, rfl, rfl⟩, fun _ => rfl⟩
      | write =>
        simp only [TlbEntry.bit, Need.bit, Need.isWrite, State.noteWrite, TlbEntry.paOf, if_true]
        rw [hs, hc, if_pos (by decide), Nat.sub_zero, Nat.zero_add, hm.2.2.2]
        refine ⟨_, rfl, ?_, nofun⟩
        unfold State.noteOwner
        dsimp only
        split <;> exact ⟨rfl, rfl, rfl, rfl, rfl⟩
      | fetch =>
        simp only [TlbEntry.bit, Need.bit, Need.isWrite, State.noteWrite, TlbEntry.paOf, if_false, Bool.false_eq_true]
        rw [hs, hc, if_pos (by decide), Nat.sub_zero, Nat.zero_add, hm.2.2.1]
        exact ⟨s, rfl, ⟨rfl, rfl, rfl, rfl, rfl⟩, nofun⟩
    obtain ⟨u, hu, k, ku⟩ := ht
    have hr' : (u.rankOf 0).root = 0x4000 := by unfold State.rankOf; rw [k.2.1]; exact hr
    obtain ⟨ps, t, h1, k', kt, h2⟩ := ih u (by rw [k.2.2.1]; exact hb) (by rw [k.1]; exact hm) hr' fun q hq => h q (List.mem_cons_of_mem _ hq)
    have hf : paRemote p.1 = false := Nat.testBit_lt_two_pow (Nat.lt_trans hp (by decide))
    have hl : ((data.drop (p.1 - va0)).take p.2).length = p.2 := by
      rw [List.length_take, List.length_drop, hd]; omega
    let d := (data.drop (p.1 - va0)).take p.2
    have hq : s.hubPart 0 need p.1 d = .ok ⟨p.1, p.1, TlbEntry.bit ⟨0, 0, 2 ^ 34, 0, 0xFF, 0x5000⟩ bitLC, List.replicate d.length true, d, .waiting⟩ u := by
      unfold State.hubPart
      rw [hu, walk_tables s p.1 hm hr hp]
      simp only [hf, if_false, Bool.false_eq_true]
    refine ⟨⟨p.1, p.1, TlbEntry.bit ⟨0, 0, 2 ^ 34, 0, 0xFF, 0x5000⟩ bitLC, List.replicate d.length true, d, .waiting⟩ :: ps, t, ?_,
      ⟨k'.1.trans k.1, k'.2.1.trans k.2.1, k'.2.2.1.trans k.2.2.1, k'.2.2.2.1.trans k.2.2.2.1, k'.2.2.2.2.trans k.2.2.2.2⟩, fun e => (kt e).trans (ku e), ?_⟩
    · unfold State.hubParts
      rw [show s.hubPart 0 need p.1 ((data.drop (p.1 - va0)).take p.2) = _ from hq]
      simp only [h1]
    · simp only [List.map_cons, List.sum_cons, List.length_replicate, h2]
      rw [show d.length = p.2 from hl]

theorem readParts_plain (s : State) (hc : s.cells = []) (hb : s.bad = []) (l : List Part) : ∃ b, s.readParts 0 l = .ok b s ∧ b.length = (l.map fun p => p.en.length).sum := by
  have sound : ∀ l, s.checkBlocks l = some s := by
    intro l
    have hl : ∀ b, s.blockLost b = false := fun b => by unfold State.blockLost; rw [hb]; rfl
    unfold State.checkBlocks State.correctBlocks
    rw [hb, show l.any s.blockLost = false from List.any_eq_false.2 fun b _ => by rw [hl]; exact Bool.false_ne_true]
    rfl
  induction l with
  | nil => exact ⟨[], rfl, rfl⟩
  | cons p l ih =>
    obtain ⟨b, h1, h2⟩ := ih
    have hl : s.latentByte? p = none := by
      unfold State.latentByte?
      rw [hc]
      simp [tabGet]
    refine ⟨s.homeBytes 0 p ++ b, ?_, ?_⟩
    · unfold State.readParts
      simp only [hl, sound, h1]
    · simp only [List.length_append, h2, List.map_cons, List.sum_cons, State.homeBytes, List.length_map, List.length_range]

/-- Whole lines are cut into lines. -/
theorem linePieces_whole (n : Nat) : ∀ (fuel va : Nat), va % 128 = 0 → n ≤ fuel →
    ((linePieces (fuel + 1) va (128 * n)).map (·.2)).sum = 128 * n ∧ ∀ p ∈ linePieces (fuel + 1) va (128 * n), va ≤ p.1 ∧ p.1 + p.2 ≤ va + 128 * n := by
  induction n with
  | zero => exact fun fuel va _ _ => ⟨rfl, fun p h => by simp [linePieces] at h⟩
  | succ n ih =>
    intro fuel va hv hf
    obtain ⟨f, rfl⟩ : ∃ f, fuel = f + 1 := ⟨fuel - 1, by omega⟩
    obtain ⟨h1, h2⟩ := ih f (va + 128) (by omega) (by omega)
    have hm : min (128 * (n + 1)) (128 - va % 128) = 128 := by omega
    unfold linePieces
    simp only [if_neg (show ¬128 * (n + 1) = 0 by omega), hm, show 128 * (n + 1) - 128 = 128 * n by omega]
    refine ⟨?_, fun p hp => ?_⟩
    · rw [List.map_cons, List.sum_cons, h1]; omega
    · rcases List.mem_cons.1 hp with rfl | hp
      · exact ⟨Nat.le_refl _, by show va + 128 ≤ _; omega⟩
      · have := h2 p hp; omega

theorem linePieces_pos : ∀ (fuel va len : Nat), ∀ p ∈ linePieces fuel va len, 0 < p.2 := by
  intro fuel
  induction fuel with
  | zero => exact fun va len p h => by simp [linePieces] at h
  | succ f ih =>
    intro va len p h
    unfold linePieces at h
    split at h
    · exact absurd h (List.not_mem_nil)
    · rcases List.mem_cons.1 h with rfl | h
      · show 0 < min len (128 - va % 128); omega
      · exact ih _ _ p h

/-- The lines of a range of whole lines below 2^34. -/
theorem lines_below (va n : Nat) (ha : va % 128 = 0) (hv : va + 128 * n ≤ 2 ^ 34) :
    ((linePieces (n + 2) va (128 * n)).map (·.2)).sum = 128 * n ∧ ∀ p ∈ linePieces (n + 2) va (128 * n), p.1 < 2 ^ 34 ∧ p.1 - va + p.2 ≤ 128 * n := by
  obtain ⟨h1, h2⟩ := linePieces_whole n (n + 1) va ha (by omega)
  refine ⟨h1, fun p hp => ?_⟩
  have h3 := linePieces_pos (n + 2) va (128 * n) p hp
  have h4 := h2 p hp
  omega

/-- Whole lines below 2^34 can be read. -/
theorem image_reads (s : State) (va n : Nat) (hm : TablesIn s.mem) (hr : (s.rankOf 0).root = 0x4000) (hc : s.cells = []) (hb : s.bad = []) (ha : va % 128 = 0) (hv : va + 128 * n ≤ 2 ^ 34) :
    ∃ l, s.hubGet 0 va (128 * n) = .ok l s ∧ l.length = 128 * n := by
  obtain ⟨h1, h2⟩ := lines_below va n ha hv
  obtain ⟨ps, t, h3, -, h, h4⟩ := hubParts_tables .read va (128 * n) (List.replicate (128 * n) 0) List.length_replicate (linePieces (n + 2) va (128 * n)) s hb hm hr h2
  rw [h rfl] at h3
  obtain ⟨b, h5, h6⟩ := readParts_plain s hc hb ps
  refine ⟨b, ?_, h6.trans (h4.trans h1)⟩
  unfold State.hubGet
  rw [show 128 * n / 128 + 2 = n + 2 by omega, h3]
  exact h5

/-- Whole lines below 2^34 can be written, whatever the bytes. -/
theorem image_writes (s : State) (va n : Nat) (data : List Byte) (hd : data.length = 128 * n) (hm : TablesIn s.mem) (hr : (s.rankOf 0).root = 0x4000) (hc : s.cells = []) (hb : s.bad = [])
    (hw : s.wins = []) (ha : va % 128 = 0) (hv : va + 128 * n ≤ 2 ^ 34) : ∃ t, s.hubPut 0 va data = .ok () t := by
  obtain ⟨ps, t, h3, k, -, -⟩ := hubParts_tables .write va (128 * n) data hd (linePieces (n + 2) va (128 * n)) s hb hm hr (lines_below va n ha hv).2
  have same : ∀ l : List Part, l.foldl (State.develop · 0) t = t := by
    intro l
    induction l with
    | nil => rfl
    | cons p l ih =>
      have hp : t.develop 0 p = t := by
        unfold State.develop
        split
        · generalize p.cellKeys = ks
          induction ks with
          | nil => rfl
          | cons c ks ih' => rw [List.foldl_cons, show t.cell? c = none by unfold State.cell?; rw [k.2.2.2.1, hc]; rfl]; exact ih'
        · rfl
      rw [List.foldl_cons, hp]
      exact ih
  have none : t.partsRefusal 0 ps = none := by
    unfold State.partsRefusal
    rw [List.findSome?_eq_none_iff]
    intro p _
    have h1 : ∀ x, (t.winIx? 0 x).isSome = false := fun x => by unfold State.winIx?; rw [k.2.2.2.2, hw]; rfl
    unfold State.writeRefusal
    simp only [h1, k.2.2.2.1, hc, k.2.2.1, hb, tabGet, List.find?_eq_none.2, Bool.and_false, Bool.false_eq_true, not_false_eq_true, implies_true]
    simp
  refine ⟨t.writeParts ps, ?_⟩
  unfold State.hubPut State.hubPutWith
  rw [hd, show 128 * n / 128 + 2 = n + 2 by omega, h3]
  simp only [if_true, same, none]

/-- Where the first line cannot be reached nothing is written. -/
theorem image_fails (s : State) (va n : Nat) (data : List Byte) (hd : data.length = 128 * (n + 1)) (ha : va % 128 = 0) (h : s.hubTranslate 0 va .write = none) :
    ∃ e a, s.hubPut 0 va data = .fail e a := by
  refine ⟨s.hubCause 0 va, va, ?_⟩
  have h1 : linePieces (data.length / 128 + 2) va data.length = (va, 128) :: linePieces (n + 2) (va + 128) (128 * n) := by
    rw [hd, show 128 * (n + 1) / 128 + 2 = n + 2 + 1 by omega]
    have hm : min (128 * (n + 1)) (128 - va % 128) = 128 := by omega
    unfold linePieces
    simp only [if_neg (show ¬128 * (n + 1) = 0 by omega), hm, show 128 * (n + 1) - 128 = 128 * n by omega]
    rfl
  unfold State.hubPut State.hubPutWith
  rw [h1]
  unfold State.hubParts State.hubPart
  simp only [h]

/-! ### Boundaries and the firmware -/

theorem at_boundary (c : Ctx) (h1 : c.phase = .live) (h2 : c.place = some (0, 0)) (h3 : c.fw = none) (h4 : c.mode = false) (h5 : c.uh = false) (h6 : c.rpos < 128) (h7 : c.sres < 8) :
    AtBoundary (machine c) 1 := ⟨h1, by rw [show (machine c).ctx 1 = c from rfl, h2]; rfl, h3, h4, h5, h6, h7⟩

/-- A failure that U mode handles, with a handler and without; reports that wait; a request to give way; the budget reached; the cut bound reached; a zero of an accumulator row due to a context that does not own the matrix state. -/
theorem witness_BoundaryCausesAreTakenInOrder :
    (let f : Failure := ⟨.collNonfinite, 0x10100, 5, 0x10060⟩
     AtBoundary (machine { handled with failures := [f] }) 1 ∧ AtBoundary (machine { ctxWith [] with failures := [f] }) 1 ∧ f.cause ≠ .async ∧ f.cause ≠ .preempt ∧
      f.cause ≠ .budgetExceeded ∧ f.cause ≠ .cutOverrun ∧ f.cause ≠ .matrixSwitch ∧ f.cause.isU = true ∧ handled.kernel.handler ≠ 0 ∧ (ctxWith []).kernel.handler = 0) ∧
    (let c : Ctx := { ctxWith [] with failures := [⟨.async, 0, 0, 0⟩], reports := [⟨1, 2, 3, 4, 5, 6, 7, 8, 9, 10, none⟩] }
     AtBoundary (machine c) 1 ∧ c.failures = ⟨.async, 0, 0, 0⟩ :: [] ∧ c.waiting = [] ∧
      (∃ x w, ((State.atIssue { machine c with mem := tables } 1).asyncTaken []).hubPut 0 (c.msave.toNat + 0x24000) (recordArea c.reports) = .ok x w) ∧
      ∃ e a, (((machine c).atIssue 1).asyncTaken []).hubPut 0 (c.msave.toNat + 0x24000) (recordArea c.reports) = .fail e a) ∧
    (let c : Ctx := { ctxWith [] with preempt := true }
     AtBoundary (machine c) 1 ∧ c.failures = [] ∧ c.preempt = true) ∧
    (let c : Ctx := { ctxWith [] with issues := 100 }
     AtBoundary (machine c) 1 ∧ NoPreempt (machine c) 1 ∧ c.sres ≠ 7 ∧ c.kernel.budget ≤ c.issues) ∧
    (let c : Ctx := { ctxWith [] with sinceQuiet := 100, loopbuf := [(0x10060, [0x02000000, 0])] }
     AtBoundary (machine c) 1 ∧ NoPreempt (machine c) 1 ∧ c.issues < c.kernel.budget ∧ c.kernel.cutbound ≤ c.sinceQuiet ∧ NextIsOrdinary (machine c) 1) ∧
    (let c : Ctx := { ctxWith [] with inflight := [⟨0, .accZero 0⟩], place := some (0, 1) }
     (AtBoundary (machine c) 1 ∧ NoPreempt (machine c) 1 ∧ c.sinceQuiet < c.kernel.cutbound) ∧ (∃ l ∈ c.inflight, l.eff.onMatrix = true ∧ l.due ≤ c.step) ∧
      ((machine c).core c.coreNum).mhwc.toNat ≠ c.hw) := by
  refine ⟨⟨at_boundary _ rfl rfl rfl rfl rfl (by decide) (by decide), at_boundary _ rfl rfl rfl rfl rfl (by decide) (by decide), by decide, by decide, by decide, by decide, by decide, by decide,
      by decide, by decide⟩, ⟨at_boundary _ rfl rfl rfl rfl rfl (by decide) (by decide), rfl, rfl, ok_of (by decide +kernel), fail_of (by decide +kernel)⟩, ⟨at_boundary _ rfl rfl rfl rfl rfl (by decide) (by decide), rfl, rfl⟩,
    ⟨at_boundary _ rfl rfl rfl rfl rfl (by decide) (by decide), ⟨rfl, fun _ h => (List.not_mem_nil h).elim⟩, by decide, by decide⟩,
    ⟨at_boundary _ rfl rfl rfl rfl rfl (by decide) (by decide), ⟨rfl, fun _ h => (List.not_mem_nil h).elim⟩, by decide, by decide, rfl, _, _, _, rfl, by decide⟩,
    ⟨⟨rfl, rfl, rfl, rfl, rfl, by decide, by decide⟩, ⟨rfl, fun _ h => (List.not_mem_nil h).elim⟩, by decide⟩, by decide, by decide⟩

/-- Outside a loop nothing is passed over. -/
theorem witness_NothingPassed (c : Ctx) (h : c.loops = []) : NothingPassed (machine c) 1 := by
  unfold NothingPassed State.atIssue State.prepared Ctx.passBound
  rw [show ({ machine c with cur := 1, issue := ⟨0, false, none, 0, (machine c).nextId, false, none⟩ } : State).cx = c from rfl, h]
  split <;> rfl

theorem witness_MatrixSwitchGivesTheState :
    let c : Ctx := { sMode (ctxWith []) with fw := some .matrixSwitch, saveS := some ((ctxWith []).saveSet none), msave := 0x100000 }
    let s : State := { machine c with mem := tables }
    c.phase = .live ∧ c.place.isSome = true ∧ c.mode = true ∧ c.saveS = some ((ctxWith []).saveSet none) ∧ c.inflight = [] ∧ ((ctxWith []).saveSet none).inflight = [] ∧ c.hw < 4 ∧
      (s.core 0).mdirty = false ∧ okAnd ((State.keepAct { s with cur := 1 }).hubGet c.rank (c.msave.toNat + 0x24200) 8) (fun st => leNat st % 2 == 0) = true := by
  decide +kernel

/-- The same with a save area that says it holds an image, which can be read whole. -/
theorem witness_MatrixSwitchGivesTheStateOfTheSaveArea :
    let c : Ctx := { sMode (ctxWith []) with fw := some .matrixSwitch, saveS := some ((ctxWith []).saveSet none), msave := 0x100000 }
    let s : State := { machine c with mem := tables.write 0x124200 [1] }
    let u := State.keepAct { s with cur := 1 }
    c.fw = some .matrixSwitch ∧ (s.core 0).mdirty = false ∧ okAnd (u.hubGet c.rank (c.msave.toNat + 0x24200) 8) (fun st => leNat st % 2 == 1) = true ∧
      ∃ l, u.hubGet c.rank c.msave.toNat 147456 = .ok l u ∧ l.length = 147456 :=
  ⟨rfl, rfl, by decide +kernel, image_reads _ _ 1152 ⟨by decide +kernel, by decide +kernel, by decide +kernel, by decide +kernel⟩ rfl rfl rfl rfl (by decide)⟩

theorem read_image {s : State} {k : Nat} (hk : (s.ctx k).rank = 0 ∧ (s.ctx k).msave = 0 ∧ (s.ctx k).kernel.banks = 1) (hm : TablesIn s.mem) (hr : (s.rankOf 0).root = 0x4000) (hc : s.cells = [])
    (hb : s.bad = []) : ∃ u, s.readImage k = .ok () u := by
  obtain ⟨l, h1, -⟩ := image_reads s 151552 512 hm hr hc hb (by decide) (by decide)
  obtain ⟨r, h2, -⟩ := image_reads s 217088 512 hm hr hc hb (by decide) (by decide)
  rw [show 128 * 512 = 65536 from rfl] at h1 h2
  unfold State.readImage
  simp only [hk.1, hk.2.1, hk.2.2, show (0 : W64).toNat = 0 from rfl, Nat.zero_add, Nat.mul_one, h1, h2]
  exact ⟨_, rfl⟩

/-- A context of no bank about to be evicted, with tables or without; the machine as its image is written. -/
def yielding (mapped : Bool) (n : Nat) : State :=
  { machine { sMode (ctxWith []) with kernel := { kernel with banks := n }, fw := some .preempt, saveS := some ((ctxWith []).saveSet none) } with mem := if mapped then tables else [] }
def giving (mapped : Bool) (n : Nat) : State := (({ yielding mapped n with cur := 1 } : State).settleLaunch.withdrawLoads.giveMatrixUp).draw.2

/-- Asked to give way; having trapped for it; evicted with nothing left to do, and with an answer awaited. -/
theorem witness_EvictionAndRestoration :
    (AtBoundary (machine (ctxWith [])) 1 ∧ NoPreempt (machine (ctxWith [])) 1) ∧
    (let c : Ctx := { sMode (ctxWith []) with fw := some .preempt, saveS := some ((ctxWith []).saveSet none) }
     c.phase = .live ∧ c.place.isSome = true ∧ (∀ a ∈ (machine c).accs, a.ctx ≠ 1) ∧ ((machine c).core c.coreNum).mdirty = false) ∧
    (∃ t, (giving true 0).hubPut 0 151552 ((List.range 65536).map (Config.anyByte (yielding true 0).free)) = .ok () t ∧
      ∃ w, t.hubPut 0 217088 ((List.range (65536 * 0)).map fun i => Config.anyByte (yielding true 0).free (65536 + i)) = .ok () w) ∧
    (∃ e a, (giving false 0).hubPut 0 151552 ((List.range 65536).map (Config.anyByte (yielding false 0).free)) = .fail e a) ∧
    (∀ f ∈ [FwTask.ret, .awaitHost 4 none], let s (m : Memory) : State := { machine { sMode (ctxWith []) with phase := .evicted, place := none, fw := some f } with mem := m }
      (s tables).mayRestore 1 5 3 = true ∧ (∃ u, ((s tables).takePlace 1 5 3).readImage 1 = .ok () u) ∧ (s []).mayRestore 1 5 3 = true ∧ ∃ e a, ((s []).takePlace 1 5 3).readImage 1 = .fail e a) := by
  have good : TablesIn tables := ⟨by decide +kernel, by decide +kernel, by decide +kernel, by decide +kernel⟩
  refine ⟨⟨at_boundary _ rfl rfl rfl rfl rfl (by decide) (by decide), rfl, fun _ h => (List.not_mem_nil h).elim⟩, ⟨rfl, rfl, fun _ h => (List.not_mem_nil h).elim, rfl⟩, ?_, image_fails _ _ 511 _ (by rw [List.length_map, List.length_range]) (by decide) (by decide +kernel),
    fun f hf => ⟨?_, ?_, ?_, ?_⟩⟩
  · obtain ⟨t, h⟩ := image_writes (giving true 0) 151552 512 ((List.range 65536).map (Config.anyByte (yielding true 0).free)) (by rw [List.length_map, List.length_range]) good rfl rfl rfl rfl rfl (by decide)
    exact ⟨t, h, t, rfl⟩
  · fin_cases hf <;> decide +kernel
  · exact read_image ⟨rfl, rfl, rfl⟩ good rfl rfl rfl
  · fin_cases hf <;> decide +kernel
  · fin_cases hf <;> exact fail_of (by decide +kernel)

/-! ### Command queues -/

/-- A device other than this one. -/
theorem another_device : ∃ d, (d = 5 ∨ d = 6) ∧ d ≠ Config.ownDevice := by
  by_cases h : 5 = Config.ownDevice
  · exact ⟨6, Or.inr rfl, by rw [← h]; decide⟩
  · exact ⟨5, Or.inl rfl, h⟩

/-- Queue 0 of virtual function 0 with one command at its head. -/
def commanded (cmd : List Byte) (head : QHead) : State :=
  { machine (ctxWith []) with
    mem := (tables.write 0x5008 (le 8 (0xFF + 2 ^ 55))).write 0x10200 cmd
    vfs := [(0, { VF.reset with enable := true, queues := [(0, { CmdQueue.reset with state := 1, ring := 0x10200, cfg := 0x8000000000000004, prod := 1, head := head })] })] }
/-- A command's code, VK 0 and its operands. -/
def cmd (code : Nat) (ops : List Byte) : List Byte := let l := le 1 code ++ List.replicate 7 0 ++ ops; l ++ List.replicate (64 - l.length) 0

theorem served_of (s : State) (code : Nat) (P : List Byte → State → Bool)
    (h : (s.turn 0 0 && match s.headCmd 0 0 with
      | .cmd l u => leNat (l.take 1) == code && P l (u.noteServed (s.cmdQueue 0 0).die ((s.cmdQueue 0 0).cfg.toNat / 2 ^ 20 % 4) 0 0)
      | _ => false) = true) : ∃ l t, CommandServed s 0 0 code l t ∧ P l t = true := by
  obtain ⟨h1, h2⟩ := Bool.and_eq_true_iff.1 h
  cases hc : s.headCmd 0 0 with
  | cmd l u =>
    rw [hc] at h2
    obtain ⟨h3, h4⟩ := Bool.and_eq_true_iff.1 h2
    exact ⟨l, _, ⟨h1, u, hc, eq_of_beq h3, rfl⟩, h4⟩
  | nothing => rw [hc] at h2; exact Bool.noConfusion h2
  | bad d => rw [hc] at h2; exact Bool.noConfusion h2
  | wait t => rw [hc] at h2; exact Bool.noConfusion h2

/-- The same with a SIGNAL to the page at 2^34, which lies on device d, with routes there or none. -/
def signalling (d : Nat) (l : Tab (List Nat)) : State :=
  let s := commanded (cmd 4 (le 8 0x400000000 ++ le 8 5 ++ le 1 0)) .idle
  { s with mem := s.mem.write 0x5008 (le 8 (0xFF + 2 ^ 55 + d * 2 ^ 42)), routes := l }

/-- Every HBM controller's budget of virtual function 0 is spent. -/
def starved (s : State) : State := { s with vfs := s.vfs.map fun e => (e.1, { e.2 with beats := 1, used := (List.range 8).map fun i => (unitKey .hbm i, 1) }) }

theorem held_by_spent {s : State} {va : Nat} (hm : TablesIn s.mem) (hr : (s.rankOf 0).root = 0x4000) (hv : va < 2 ^ 34) (h : ∀ i, i < 8 → (s.vf 0).spent .hbm i = true) : s.cpHeld 0 0 va = true := by
  have h1 : paRemote va = false := Nat.testBit_lt_two_pow (Nat.lt_trans hv (by decide))
  have h2 : paHbm va = true := decide_eq_true (by omega)
  unfold State.cpHeld
  rw [walk_tables s va hm hr hv]
  simp only [TlbEntry.paOf, Nat.sub_zero, Nat.zero_add, State.hbmHeld, h _ (Nat.mod_lt _ (by decide : 0 < 8)), h1, h2]
  rfl

/-- The address of a SIGNAL that has been read lies on device d, and the routes are those given. -/
def reaches (d : Nat) (rt : Tab (List Nat)) (l : List Byte) (t : State) : Bool :=
  match t.hubTranslate 0 (opnd l 8 8) .write with
  | some (pa, v) => paRemote pa && paDevice pa == d && !t.portHeld 0 d && paLocal (paOnDevice pa) && v.routes == rt && v.failedPorts == []
  | none => false

theorem signals_go : ∃ d, d ≠ Config.ownDevice ∧ ∀ far : Bool, ∃ l t, CommandServed (signalling d (if far then [(d, [3])] else [])) 0 0 4 l t ∧ reaches d (if far then [(d, [3])] else []) l t = true := by
  obtain ⟨d, hd, hne⟩ := another_device
  refine ⟨d, hne, fun far => served_of (signalling d (if far then [(d, [3])] else [])) 4 (reaches d (if far then [(d, [3])] else [])) ?_⟩
  rcases hd with rfl | rfl <;> cases far <;> decide +kernel

/-- One command of each code, a SIGNAL also to a word of another device, with a route and without; an indirect count; a WAITEV and a COPY already at the head; a COPY that waits for beats. The event word at 0x10300 holds 0. -/
theorem witness_QueueCommandsDoTheirWork :
    (∀ h, ((commanded [] h).cmdQueue 0 0).loops.length ≤ 4) ∧ homeOf (commanded [] .idle) 0 0 = 0 ∧
    (∃ l t, CommandServed (commanded (cmd 1 (le 8 0x10000 ++ le 24 0 ++ le 4 2)) .idle) 0 0 1 l t) ∧
    (∃ l t, CommandServed (commanded (cmd 2 (le 8 0x10000 ++ le 32 0 ++ le 8 0x10300)) .idle) 0 0 2 l t) ∧
    (∀ a ∈ [0x10200, 0x10300], let r := { launchRec (.queue 0 0) 0 with nptr := some a }; ∃ w v, (commanded (cmd 1 []) .idle).cpGet r.owner r.rank a 4 = .ok w v ∧ ((leNat w == 0) == (a == 0x10300)) = true) ∧
    (∃ l t, CommandServed (commanded (cmd 3 (le 8 0x10300 ++ le 8 5 ++ le 1 3)) .idle) 0 0 3 l t ∧ cpAnd (t.cpGet 0 0 (opnd l 8 8) 8) (fun _ _ => true) = true) ∧
    (let s (v : W64) := commanded (cmd 3 []) (.waitev 0x10300 v 0)
     ((s 0).served? 0 = true ∧ (s 1).served? 0 = true) ∧
      cpAnd ((s 0).cpGet 0 (homeOf (s 0) 0 0) 0x10300 8) (fun w _ => leNat w == 0) = true ∧ cpAnd ((s 1).cpGet 0 (homeOf (s 1) 0 0) 0x10300 8) (fun w _ => leNat w == 0) = true ∧
      CmpHolds 0 0 (0 : W64).toNat ∧ ¬CmpHolds 0 0 (1 : W64).toNat) ∧
    (∃ l t, CommandServed (commanded (cmd 4 (le 8 0x10300 ++ le 8 5 ++ le 1 0)) .idle) 0 0 4 l t ∧ (opnd l 0x18 1 == 0 && okAnd (t.hubPut 0 (opnd l 8 8) (leBytes 8 (opnd l 0x10 8))) (fun _ => true)) = true) ∧
    (∃ l t, CommandServed (commanded (cmd 4 (le 8 0x10300 ++ le 8 5 ++ le 1 1)) .idle) 0 0 4 l t ∧ (opnd l 0x18 1 == 1 && okAnd (t.hubAddHere 0 (opnd l 8 8) (BitVec.ofNat 64 (opnd l 0x10 8))) (fun _ => true)) = true) ∧
    (∃ d, d ≠ Config.ownDevice ∧ ∀ far : Bool, ∃ l t, CommandServed (signalling d (if far then [(d, [3])] else [])) 0 0 4 l t ∧ reaches d (if far then [(d, [3])] else []) l t = true) ∧
    (∃ l t, CommandServed (commanded (cmd 5 (le 8 0x10300 ++ le 1 2)) .idle) 0 0 5 l t ∧ cpAnd (t.cpGet 0 0 (opnd l 8 8) 4) (fun w _ => leNat w == 0) = true) ∧
    (∃ l t, CommandServed (commanded (cmd 5 (le 8 0x10200 ++ le 1 2)) .idle) 0 0 5 l t ∧ cpAnd (t.cpGet 0 0 (opnd l 8 8) 4) (fun w _ => leNat w != 0) = true) ∧
    (∃ l t, CommandServed (commanded (cmd 6 (le 8 0x10300 ++ le 8 5 ++ le 1 1 ++ le 1 2)) .idle) 0 0 6 l t ∧ cpAnd (t.cpGet 0 0 (opnd l 8 8) 8) (fun w _ => leNat w != opnd l 0x10 8) = true) ∧
    (∃ l t, CommandServed (commanded (cmd 6 (le 8 0x10300 ++ le 8 0 ++ le 1 1 ++ le 1 2)) .idle) 0 0 6 l t ∧ cpAnd (t.cpGet 0 0 (opnd l 8 8) 8) (fun w _ => leNat w == opnd l 0x10 8) = true) ∧
    (∃ l t, CommandServed (commanded (cmd 7 (le 8 0x10200 ++ le 8 0x10300 ++ le 8 300)) .idle) 0 0 7 l t) ∧
    ((commanded (cmd 7 []) (.copy 0x10200 0x10380 0)).cmdQueue 0 0).head = .copy 0x10200 0x10380 0 ∧
    (let s := commanded (cmd 7 []) (.copy 0x10240 0x10380 300)
     (s.cmdQueue 0 0).head = .copy 0x10240 0x10380 300 ∧ s.cpHeld 0 0 0x10240 = false ∧ s.cpHeld 0 0 0x10380 = false ∧
      ∃ x v, s.cpGet 0 0 0x10240 (min 300 (min (128 - 0x10240 % 128) (128 - 0x10380 % 128))) = .ok x v ∧ cpAnd ((v.cpSpend 0 0 0x10240).cpPut 0 0 0x10380 x) (fun _ _ => true) = true) ∧
    (let s := starved (commanded (cmd 7 []) (.copy 0x10240 0x10380 300))
     (s.cmdQueue 0 0).head = .copy 0x10240 0x10380 300 ∧ s.cpHeld 0 0 0x10240 = true) ∧
    (∃ l t, CommandServed (commanded (cmd 8 (le 8 0x10000 ++ le 8 1)) .idle) 0 0 8 l t ∧ (tabGet t.ranks 0).isSome = true) ∧
    (∃ l t, CommandServed (commanded (cmd 9 []) .idle) 0 0 9 l t) := by
  have served {s : State} {code : Nat} (h : ∃ l t, CommandServed s 0 0 code l t ∧ (fun (_ : List Byte) (_ : State) => true) l t = true) : ∃ l t, CommandServed s 0 0 code l t := h.imp fun _ h => h.imp fun _ h => h.1
  refine ⟨fun _ => Nat.zero_le 4, by decide, served (served_of _ 1 (fun _ _ => true) (by decide +kernel)), served (served_of _ 2 (fun _ _ => true) (by decide +kernel)), fun a ha => ?_,
    served_of _ 3 (fun l t => cpAnd (t.cpGet 0 0 (opnd l 8 8) 8) (fun _ _ => true)) (by decide +kernel), ?_,
    served_of _ 4 (fun l t => opnd l 0x18 1 == 0 && okAnd (t.hubPut 0 (opnd l 8 8) (leBytes 8 (opnd l 0x10 8))) (fun _ => true)) (by decide +kernel),
    served_of _ 4 (fun l t => opnd l 0x18 1 == 1 && okAnd (t.hubAddHere 0 (opnd l 8 8) (BitVec.ofNat 64 (opnd l 0x10 8))) (fun _ => true)) (by decide +kernel), signals_go,
    served_of _ 5 (fun l t => cpAnd (t.cpGet 0 0 (opnd l 8 8) 4) (fun w _ => leNat w == 0)) (by decide +kernel),
    served_of _ 5 (fun l t => cpAnd (t.cpGet 0 0 (opnd l 8 8) 4) (fun w _ => leNat w != 0)) (by decide +kernel),
    served_of _ 6 (fun l t => cpAnd (t.cpGet 0 0 (opnd l 8 8) 8) (fun w _ => leNat w != opnd l 0x10 8)) (by decide +kernel),
    served_of _ 6 (fun l t => cpAnd (t.cpGet 0 0 (opnd l 8 8) 8) (fun w _ => leNat w == opnd l 0x10 8)) (by decide +kernel), served (served_of _ 7 (fun _ _ => true) (by decide +kernel)), rfl,
    ⟨rfl, by decide +kernel, by decide +kernel, cp_ok (by decide +kernel)⟩, ⟨rfl, ?_⟩, served_of _ 8 (fun _ t => (tabGet t.ranks 0).isSome) (by decide +kernel),
    served (served_of _ 9 (fun _ _ => true) (by decide +kernel))⟩
  · fin_cases ha <;> exact cp_ok (by decide +kernel)
  · exact ⟨by decide +kernel, by decide +kernel, by decide +kernel, Nat.le_refl 0, Nat.not_succ_le_zero 0⟩
  · exact held_by_spent ⟨by decide +kernel, by decide +kernel, by decide +kernel, by decide +kernel⟩ rfl (by decide) (by decide +kernel)

/-! ### Host link, mailboxes, hypervisor registers, power -/

/-- Virtual function 0 with window 0 over 2^20 pages of 64 KiB of VK 0, not for writing in window 1. -/
def hosted : State :=
  { machine (ctxWith []) with mem := tables, vfs := [(0, { VF.reset with enable := true, wins := [(0, 2 ^ 20, 0, 3), (0, 1, 0, 1)] ++ List.replicate 6 (0, 0, 0, 0) })] }

/-- The last bytes that the tables map; bytes behind them; a device not in operation; a window that may not be written; no bit in error on the link. -/
theorem witness_HostWindowsReachMemory :
    hosted.flips = [] ∧ (HostReaches hosted 0 0 (2 ^ 34 - 8) 8 false 0 (2 ^ 34 - 8) ∧ okAnd (hosted.hubGet 0 (2 ^ 34 - 8) 8) (fun _ => true) = true) ∧
    (HostReaches hosted 0 0 (2 ^ 34) 8 false 0 (2 ^ 34) ∧ ∃ c a, hosted.hubGet 0 (2 ^ 34) 8 = .fail c a) ∧ (∀ r v, ¬HostReaches State.reset 0 0 0 8 false r v) ∧
    (HostReaches hosted 0 0 (2 ^ 34 - 2) [1, 2].length true 0 (2 ^ 34 - 2) ∧ okAnd (hosted.hubPutWith false 0 (2 ^ 34 - 2) [1, 2]) (fun _ => true) = true) ∧
    (HostReaches hosted 0 0 (2 ^ 34) [1].length true 0 (2 ^ 34) ∧ ∃ c a, hosted.hubPutWith false 0 (2 ^ 34) [1] = .fail c a) ∧ (∀ r v, ¬HostReaches hosted 0 1 0 [1].length true r v) ∧
    (hosted.hub.devstat ≠ 0xE ∧ hosted.bad = [] ∧ hosted.mem.wf = true ∧ paRange 0x7FFFFFFFFF 1 = true) ∧ ({ hosted with hub := { Hub.reset with devstat := 0xE } } : State).hub.devstat = 0xE := by
  have up : PageUp hosted 0 := ⟨rfl, by decide⟩
  refine ⟨rfl, ⟨⟨up, by decide, 0, 2 ^ 20, 0, 3, rfl, by decide, by decide, by decide, by decide, by decide, by decide⟩, by decide +kernel⟩,
    ⟨⟨up, by decide, 0, 2 ^ 20, 0, 3, rfl, by decide, by decide, by decide, by decide, by decide, by decide⟩, fail_of (by decide +kernel)⟩, fun r v h => absurd h.1.1 (by decide),
    ⟨⟨up, by decide, 0, 2 ^ 20, 0, 3, rfl, by decide, by decide, by decide, by decide, by decide, by decide⟩, by decide +kernel⟩,
    ⟨⟨up, by decide, 0, 2 ^ 20, 0, 3, rfl, by decide, by decide, by decide, by decide, by decide, by decide⟩, fail_of (by decide +kernel)⟩, ?_, by decide +kernel, rfl⟩
  rintro r v ⟨-, -, vbase, size, vk, flags, h, -, -, hw, -⟩
  have h' : (hosted.vf 0).wins[1]? = some (0, 1, 0, 1) := rfl
  rw [h'] at h
  cases h
  exact absurd (hw rfl) (by decide)

/-- Queue 7 of virtual function 0 in a state, with ring and fields. -/
def ringed (x : CmdQueue) : State := { machine (ctxWith []) with vfs := [(0, { VF.reset with enable := true, frseq := 6, queues := [(7, x)] })] }

/-- A doorbell of one and one of too much; stopped queues; one that can be set up, and one whose ring is misaligned; one idle and one running; a context that awaits an answer; a device not in operation. -/
theorem witness_RegisterPagesControlQueues :
    let x (st : Nat) : CmdQueue := { CmdQueue.reset with state := st, ring := 0x10200, cfg := 0x8000000000000004, prod := 1 }
    (∀ st, PageUp (ringed (x st)) 0) ∧ ((x 1).state ≠ 4 ∧ ((1 : W64).toNat % 2 ^ 32 + 2 ^ 32 - (x 1).released) % 2 ^ 32 = 1 ∧ (x 1).cfg.toNat % 2 ^ 20 = 4) ∧
      (x 1).cfg.toNat % 2 ^ 20 < ((5 : W64).toNat % 2 ^ 32 + 2 ^ 32 - (x 1).released) % 2 ^ 32 ∧ (∀ n ∈ [2, 3], ((ringed (x n)).cmdQueue 0 7).state = n ∧ ((ringed (x n)).cmdQueue 0 7).loops.length ≤ 4) ∧
    (let y : CmdQueue := { x 4 with cfg := 0 }
     y.cfg.getLsbD 63 = false ∧ (0x8000000000000004 : W64).getLsbD 63 = true ∧ (ringed y).queueOk 0 { y with cfg := 0x8000000000000004 &&& 0x8000FFFF003FFFFF } = true ∧ (ringed { y with ring := 0x10201 }).queueOk 0 { y with ring := 0x10201, cfg := 0x8000000000000004 &&& 0x8000FFFF003FFFFF } = false) ∧
    ((x 0).cfg.getLsbD 63 = true ∧ (x 0).state ≠ 1) ∧ (x 1).state = 1 ∧
    (let c : Ctx := { sMode (ctxWith []) with fw := some (.awaitHost 6 none) }
     let s : State := { ringed (x 1) with ctxs := [(1, c)] }
     tabGet s.ctxs 1 = some c ∧ (s.rankOf c.rank).vf = 0 ∧ (s.vf 0).frseq = 6 ∧ c.fw = some (.awaitHost 6 none)) ∧ ¬PageUp State.reset 0 :=
  ⟨fun _ => ⟨rfl, by decide⟩, by decide, by decide, by decide, by decide, by decide, rfl, ⟨rfl, rfl, rfl, rfl⟩, fun h => absurd h.1 (by decide)⟩

/-- A mailbox at 0x20000, the record's generation 3. -/
def boxed (gen : Nat) (box : W64) : State :=
  { machine (ctxWith []) with vfs := [(0, { VF.reset with gen := gen, mbox := box, mwait := [le 2 0 ++ le 2 3 ++ le 28 0] })], messages := [(5, 1), (0, 9), (0, 8)]
                              hub := { Hub.reset with devstat := 7, hvmbox := 0x20000, hvwait := [le 32 7] } }

/-- A record of this generation and one of an earlier; no mailbox and a full one; and so for the hypervisor's. -/
theorem witness_MailboxesTakeRecords :
    let r : List Byte := le 2 0 ++ le 2 3 ++ le 28 0
    let full (gen : Nat) (box : W64) : State := { boxed gen box with mem := Memory.write [] 0x20000 (le 8 64) }
    (∀ gen box, (boxed gen box).bad = [] ∧ (boxed gen box).flips = [] ∧ (full gen box).bad = [] ∧ (full gen box).flips = []) ∧
    ((full 3 0x20000).mem.wf = true ∧ 64 ≤ ((full 3 0x20000).mem.readLE 0x20000 8 + 2 ^ 64 - (full 3 0x20000).mem.readLE (0x20000 + 8) 8) % 2 ^ 64) ∧
    (((boxed 3 0x20000).vf 0).mwait = r :: [] ∧ r.length = 32 ∧ (boxed 3 0x20000).mem.wf = true ∧ HasRoom (boxed 3 0x20000) 0x20000 ∧ leNat ((r.drop 2).take 2) = ((boxed 3 0x20000).vf 0).gen) ∧
    (HasRoom (boxed 4 0x20000) 0x20000 ∧ leNat ((r.drop 2).take 2) ≠ ((boxed 4 0x20000).vf 0).gen) ∧ ((boxed 3 0).vf 0).mbox.toNat = 0 ∧
    ((boxed 3 0).hub.hvwait = le 32 7 :: [] ∧ (le 32 7).length = 32 ∧ HasRoom (boxed 3 0) (boxed 3 0).hub.hvmbox.toNat) ∧ PageUp (boxed 3 0) 0 ∧ (boxed 3 0).hub.devstat ≠ 0xE ∧
    ((boxed 3 0).messages = [(5, 1)] ++ (0, 9) :: [(0, 8)] ∧ ∀ m ∈ [((5 : Nat), (1 : Nat))], m.1 ≠ 0) ∧ ∃ r, tabGet (boxed 3 0).ranks 0 = some r := by
  have room (gen : Nat) (box : W64) : HasRoom (boxed gen box) 0x20000 := by
    refine ⟨by decide, by decide, by decide, ?_⟩
    show (Memory.readLE [] 0x20000 8 + 2 ^ 64 - Memory.readLE [] (0x20000 + 8) 8) % 2 ^ 64 < 64
    decide
  exact ⟨fun _ _ => ⟨rfl, rfl, rfl, rfl⟩, by decide +kernel, ⟨rfl, rfl, rfl, room 3 _, rfl⟩, ⟨room 4 _, by decide⟩, rfl, ⟨rfl, rfl, room 3 0⟩, ⟨rfl, by decide⟩, by decide, ⟨rfl, by decide⟩, _, rfl⟩

/-- Registers that answer; queues disabled and enabled; a seal that has room, none that waits, and a full ring; an attestation not asked for and asked for. -/
theorem witness_HypervisorRegistersAreWritten :
    let s : State := { machine (ctxWith []) with hub := { Hub.reset with devstat := 7, jprod := 4, sealn := 4, sealprod := 6, sealcons := 3, sealwait := [3], journal := (List.range 4).map fun n => List.replicate 64 (BitVec.ofNat 8 n), sealbase := 0x100000 } }
    s.hub.devstat ≠ 0xE ∧ s.hub.jprod ≠ 0 ∧ PageUp s 0 ∧ (s.cmdQueue 0 7).cfg.getLsbD 63 = false ∧ (0x8000000000000004 : W64).getLsbD 63 = true ∧ (4 : W64).getLsbD 63 = false ∧
      ((ringed { CmdQueue.reset with cfg := 0x8000000000000004 }).cmdQueue 0 7).cfg.getLsbD 63 = true ∧
      (s.hub.sealwait = [3] ∧ 1 ≤ s.hub.sealn.toNat ∧ s.hub.sealn.toNat ≤ 1024 ∧ s.hub.sealprod - s.hub.sealcons < s.hub.sealn.toNat ∧
        s.hub.sealbase.toNat % 65536 = 0 ∧ paRange (s.hub.sealbase.toNat + 65536 * (s.hub.sealprod % s.hub.sealn.toNat)) 65536 = true ∧ s.hub.jprod ≤ 3 + s.hub.journal.length ∧
        ∃ e, s.hub.journal[3 + s.hub.journal.length - s.hub.jprod]? = some e) ∧
      Hub.reset.sealwait = [] ∧ (let h : Hub := { s.hub with sealn := 3 }; h.sealwait = [3] ∧ h.sealn.toNat ≤ h.sealprod - h.sealcons) ∧ (191 < 192 ∧ 4294967295 < 2 ^ 32) ∧
      s.mem.wf = true ∧ s.hub.attreq = false ∧ (let h : Hub := { s.hub with attreq := true }; h.attreq = true ∧ h.attbase.toNat % 65536 = 0 ∧ paRange h.attbase.toNat 65536 = true ∧
        (∃ e, h.journal.getLast? = some e) ∧ 1 ≤ h.jprod) :=
  ⟨by decide, by decide, ⟨rfl, by decide⟩, by decide, by decide, by decide, by decide, ⟨rfl, by decide, by decide, by decide, by decide, by decide, by decide, _, rfl⟩, rfl, by decide, by decide,
    rfl, rfl, rfl, by decide, by decide, ⟨_, rfl⟩, by decide⟩

theorem witness_PowerAndStart :
    (∀ n ∈ [1, 2, 3, 4, 5, 6, 7, 0xE], ({ State.reset with hub := { Hub.reset with devstat := n } } : State).hub.devstat = n) ∧ State.reset.hub.jprod - State.reset.hub.jcons < 8192 ∧
      (let h : Hub := { Hub.reset with jprod := 8195, jcons := 3 }; 8192 ≤ h.jprod - h.jcons) ∧ State.reset.agenda.head? ≠ some .deviceReset ∧
      ({ State.reset with agenda := [.deviceReset] } : State).agenda = .deviceReset :: [] := by
  decide

/-! ### Ranks, residency, cuts, migration, virtual functions, Last Collections -/

/-- A rank record of VK 1 of virtual function 0 at 0x20000. -/
def recordBytes (nvk : Nat) : List Byte := le 2 1 ++ le 2 0 ++ le 4 nvk ++ le 8 7 ++ le 8 0x8000 ++ le 1 8 ++ le 55 0 ++ le 8 0x30000 ++ le 4 1 ++ le 164 0
def creating (nvk : Nat) : State :=
  { machine (ctxWith []) with mem := Memory.write [] 0x20000 (recordBytes nvk), hub := { Hub.reset with devstat := 7, rkaddr := 0x20000 } }

theorem not_taken {s : State} {a : Nat} {l : List Byte} (h : opnd l 4 4 = 0) : ¬RecordTaken s a l := by
  rintro ⟨-, -, ⟨h1, -⟩, -⟩
  rw [h] at h1
  exact absurd h1 (by decide)

/-- The same with a command that the hub works on. -/
def working (n : Nat) (v : W64) : State := { creating n with hub := { (creating n).hub with rkcmd := some v, rkstat := 1 } }

/-- No command yet and one at work, which is another one; a full device; a record without members; a good one; a device that does not answer yet. FORGET of a rank that is free, of one in use, and another action. -/
theorem witness_RanksBecomeKnownAndAreForgotten :
    ((creating 1).hub.devstat = 7 ∧ (creating 1).hub.rkcmd = none) ∧ (∀ n v, (working n v).hub.devstat = 7 ∧ (working n v).hub.rkcmd = some v ∧ (working n v).bad = []) ∧
    ((2 : W64) ≠ 1 ∧ (0x10002 : W64) ≠ 2) ∧
    (∃ l : Tab RankRec, 1024 ≤ ({ working 1 1 with ranks := l } : State).ranks.length) ∧
    (let s := working 0 1
     s.ranks.length < 1024 ∧ ¬RecordTaken s s.hub.rkaddr.toNat (s.mem.read s.hub.rkaddr.toNat 256)) ∧
    (let s := working 1 1
     s.ranks.length < 1024 ∧ RecordTaken s s.hub.rkaddr.toNat (s.mem.read s.hub.rkaddr.toNat 256)) ∧ State.reset.hub.devstat ≠ 7 ∧
    (let s : State := { working 1 2 with ctxs := [] }
     (2 : W64).toNat % 4 = 2 ∧ s.hub.devstat ≠ 0xE ∧ ∃ r, RankFree s ((2 : W64).toNat / 2 ^ 32 % 2 ^ 16 * 65536 + (2 : W64).toNat / 2 ^ 16 % 2 ^ 16) r) ∧
    ((0x10002 : W64).toNat % 4 = 2 ∧ tabGet (working 1 0x10002).ranks 1 = none) ∧ (∃ e ∈ (working 1 2).ctxs, e.2.rank = 0 ∧ e.2.alive = true) ∧ (1 : W64).toNat % 4 ≠ 2 := by
  refine ⟨⟨rfl, rfl⟩, fun _ _ => ⟨rfl, rfl, rfl⟩, by decide, ⟨List.replicate 1024 (0, RankRec.blank), ?_⟩, ⟨by decide, not_taken (by decide +kernel)⟩, ⟨by decide, ?_⟩, by decide, ⟨by decide, by decide, ?_⟩, by decide, by decide,
    by decide⟩
  · show 1024 ≤ (List.replicate 1024 ((0 : Nat), RankRec.blank)).length
    rw [List.length_replicate]
  · unfold RecordTaken RecordFits
    decide +kernel
  · refine ⟨{ RankRec.blank with nvk := 1, wallow := 8, state := 1, root := 0x4000, spillsz := 1 }, ?_⟩
    unfold RankFree
    decide +kernel

/-- Ranks 0 to n of 8 window allotments each, all but rank 0 resident. -/
def residents (n st : Nat) : State :=
  { machine (ctxWith []) with ctxs := [], ranks := (List.range (n + 1)).map fun i => (i, { RankRec.blank with nvk := 1, wallow := 8, state := if i = 0 then st else 1, spillsz := 1 }) }

/-- With room and without; resident; one that nothing keeps. -/
theorem witness_ResidencyFollowsItsRules :
    let r (st : Nat) : RankRec := { RankRec.blank with nvk := 1, wallow := 8, state := st, spillsz := 1 }
    (tabGet (residents 15 0).ranks 0 = some (r 0) ∧ RoomFor (residents 15 0) 0 ∧ (r 0).spilled = [] ∧ NothingOpen (residents 15 0) (r 0).job) ∧
    (NothingOpen (residents 0 1) (r 1).job ∧ ∀ e ∈ (residents 0 1).leaves 0, (residents 0 1).tierOf e ≠ 2) ∧
    (tabGet (residents 16 2).ranks 0 = some (r 2) ∧ ¬RoomFor (residents 16 2) 0) ∧ (tabGet (residents 0 3).ranks 0 = some (r 3)) ∧ RankQuiet (residents 0 1) 0 (r 1) ∧ (r 0).state ≠ 1 := by
  refine ⟨⟨by decide, ?_, rfl, ?_⟩, ⟨?_, by decide +kernel⟩, ⟨by decide, ?_⟩, by decide, ?_, by decide⟩
  · unfold RoomFor; decide +kernel
  · unfold NothingOpen; decide
  · unfold NothingOpen; decide
  · unfold RoomFor; decide +kernel
  · unfold RankQuiet; decide +kernel

/-- Tables at 0x4000 to 0x7000 that map the 64 KiB at 0x10000 to themselves. -/
def smallTables : Memory := (((Memory.write [] 0x4000 (le 8 0x5001)).write 0x5000 (le 8 0x6001)).write 0x6000 (le 8 0x7001)).write 0x7008 (le 8 0x100FF)
def tiered : State := { machine (ctxWith []) with mem := smallTables }

/-- To the other tier, and to a place in the same one. -/
theorem witness_TierMovesKeepThePage :
    tiered.walk 0 0x10000 = some ⟨0, 0x10000, 65536, 0x10000, 0xFF, 0x7008⟩ ∧ tiered.tierMoveOk ⟨0, 0x10000, 65536, 0x10000, 0xFF, 0x7008⟩ 0x10000000000 = true ∧ tiered.mem.wf = true ∧
      (∀ i, i < 65536 → ¬(0x7008 ≤ 0x10000000000 + i ∧ 0x10000000000 + i < 0x7008 + 8) ∧ ¬(0x7008 ≤ 0x10000 + i ∧ 0x10000 + i < 0x7008 + 8)) ∧
      tiered.tierMoveOk ⟨0, 0x10000, 65536, 0x10000, 0xFF, 0x7008⟩ 0x20000 = false :=
  ⟨by decide +kernel, by decide +kernel, by decide +kernel, fun i hi => ⟨by omega, by omega⟩, by decide +kernel⟩

/-- A cut of rank 0 whose one context is parked, or still runs. -/
def cutting (parked : Bool) (c : Cut) : State :=
  { machine { ctxWith [] with phase := if parked then .evicted else .live, place := if parked then none else some (0, 0), quiet := some 3, cutcount := 4 } with cuts := [c] }

theorem cut_is (p : Bool) (c : Cut) : CutIs (cutting p c) [] c [] := ⟨rfl, fun _ h => (List.not_mem_nil h).elim⟩

/-- Of a known rank and of an unknown one; every context parked, with the count formed and not; one still running; for each reason. -/
theorem witness_PartitionsAndCuts :
    (machine (ctxWith [])).hub.devstat ≠ 0xE ∧ (∀ c ∈ (machine (ctxWith [])).cuts, c.rank ≠ 0) ∧ (tabGet (machine (ctxWith [])).ranks 0).isSome = true ∧ tabGet (machine (ctxWith [])).ranks 7 = none ∧
    (∀ p c, CutIs (cutting p c) [] c []) ∧ (cutting true ⟨0, .hypervisor, none⟩).allParked 0 = true ∧ (cutting true ⟨0, .hypervisor, some 4⟩).allParked 0 = true ∧
    (cutting true ⟨0, .hold 0, some 4⟩).allParked 0 = true ∧ (cutting false ⟨0, .hypervisor, none⟩).allParked 0 = false ∧ (cutting false ⟨0, .hold 0, none⟩).allParked 0 = false ∧
    (cutting false ⟨0, .migration 0x20000 1, none⟩).allParked 0 = false ∧ StatusAt { cutting false ⟨0, .migration 0x20000 1, none⟩ with mem := Memory.write [] 0x20008 (le 8 0x20040) } 0x20000 0x20040 :=
  ⟨by decide, by decide, by decide, by decide, cut_is, by decide, by decide, by decide, by decide, by decide, by decide, by unfold StatusAt; decide +kernel⟩

/-- An order at 0x20000 to move VK 0 to a device, its status word at 0x20040; rank 0 with its cut, or without. -/
def migrating (dev st : Nat) (parked : Bool) : State :=
  let s := cutting parked ⟨0, .migration 0x20000 1, some 4⟩
  { s with mem := Memory.write [] 0x20000 (le 2 0 ++ le 2 0 ++ le 2 dev ++ le 2 0 ++ le 8 0x20040), ranks := [(0, { RankRec.blank with nvk := 1, wallow := 8, state := st, spillsz := 1 })]
           routes := [(dev, [3])] }

/-- A good order and a bad one, before any cut; its cut complete with the rank resident, and with it migrating to another device; a packet that arrives. What rank the bytes that have arrived stand for is a free function (log 75). -/
theorem witness_MigrationMovesTheRank :
    (∀ dev st p, (migrating dev st p).bad = []) ∧ (hosted.bad = [] ∧ hosted.arriving = [] ∧ hosted.hub.devstat ≠ 0xE ∧ ([1, 2] : List Byte) ≠ [] ∧ ([1, 2] : List Byte).length < 3) ∧
    (let b : RankBlock := ⟨0, { RankRec.blank with vk := 9 }, [], [], [(4, ctxWith [])], [], [], [], [], [], [], []⟩
     tabGet hosted.ranks (0 * 65536 + b.record.vk) = none ∧ (b.ctxs.map (·.1)).Nodup) ∧
    (let s : State := { migrating 5 1 true with cuts := [] }
     s.hub.devstat ≠ 0xE ∧ (∀ c ∈ s.cuts, ∀ w, c.why ≠ .migration 0x20000 w) ∧
      (∃ rank r, s.ranks.find? (fun e => e.2.vk == opnd (s.mem.read 0x20000 32) 0 2) = some (rank, r) ∧ tabGet s.ranks rank = some r) ∧ orderOk (s.mem.read 0x20000 32) = true ∧
      StatusAt s 0x20000 0x20040 ∧ s.mem.wf = true) ∧
    orderOk (({ migrating 5 1 true with mem := Memory.write [] 0x20006 [2] } : State).mem.read 0x20000 32) = false ∧
    (∀ st, OrderAt (migrating 5 st true) 0x20000 ⟨0, .migration 0x20000 1, some 4⟩ 1 ∧ ∃ r, tabGet (migrating 5 st true).ranks 0 = some r ∧ r.state = st) ∧
    ((hosted.vf 0).enable = true ∧ hosted.ranks.length < 1024) ∧
    (∃ dev, opnd ((migrating dev 3 true).mem.read 0x20000 32) 4 2 = dev ∧ ((migrating dev 3 true).portTo dev).isSome = true ∧ dev ≠ Config.ownDevice) := by
  refine ⟨fun _ _ _ => rfl, by decide, by decide, ⟨by decide, fun _ h => (List.not_mem_nil h).elim, ⟨0, _, by decide +kernel, rfl⟩, by decide +kernel, by unfold StatusAt; decide +kernel, by decide +kernel⟩, by decide +kernel,
    fun st => ⟨⟨rfl, ⟨[], [], rfl, fun _ h => (List.not_mem_nil h).elim⟩, rfl, rfl⟩, _, rfl, rfl⟩, by decide, ?_⟩
  by_cases h : 5 = Config.ownDevice
  · exact ⟨6, by decide +kernel, by decide +kernel, by rw [← h]; decide⟩
  · exact ⟨5, by decide +kernel, by decide +kernel, h⟩

theorem witness_VirtualFunctionsAreResetAndEnabled : (191 : Nat) < 192 ∧ (machine (ctxWith [])).hub.devstat ≠ 0xE ∧
    ({ machine (ctxWith []) with hub := { Hub.reset with devstat := 0xE } } : State).hub.devstat = 0xE := by decide

/-- A partition that virtual function 0 has: about to pass on with nothing placed and with a context placed; no successor; one that has work. -/
theorem witness_TimeSlicesPassOn :
    let s (c : List (Nat × Ctx)) (sw : Tab Nat) (l : List LaunchRec) : State :=
      { machine (ctxWith []) with ctxs := c, running := [(2, 0)], switching := sw, vfs := [(0, { VF.reset with part := 2, enable := true, quant := 5 }), (1, { VF.reset with part := 2, enable := true, childq := l })] }
    (∀ c sw l, tabGet (s c sw l).running 2 = some 0) ∧ (tabGet (s [] [(2, 1)] []).switching 2 = some 1 ∧ (s [] [(2, 1)] []).placedOf 0 = [] ∧ ∀ q ∈ ((s [] [(2, 1)] []).vf 0).queues, False) ∧
    (s [(1, ctxWith [])] [(2, 1)] []).placedOf 0 ≠ [] ∧ (tabGet (s [] [] []).switching 2 = none ∧ (s [] [] []).nextVf 2 0 = none) ∧
    ((s [] [] [launchRec (.queue 1 0) 0]).nextVf 2 0 = some 1 ∧ ((s [] [] [launchRec (.queue 1 0) 0]).vf 0).quant ≠ 0) :=
  ⟨fun _ _ _ => rfl, by decide, by decide, by decide +kernel, by decide +kernel⟩

/-- A descriptor at 0x20000: its deadline and its targets' bits. -/
def collecting (deadline targets : Nat) (r : Nat) (l : List Collection) : State :=
  { machine (ctxWith []) with mem := Memory.write [] 0x20000 (le 8 deadline ++ le 2 0 ++ le 6 r ++ le 24 targets), collections := l }

theorem targeted (d r : Nat) (l : List Collection) (hd : opnd ((collecting d 1 r l).mem.read 0x20000 64) 0x10 24 = 1) : Targeted (collecting d 1 r l) ((collecting d 1 r l).mem.read 0x20000 64) 0 :=
  ⟨by decide, Or.inl (by rw [hd]; decide)⟩

/-- Reserved bytes; no target; a deadline one too early; the margin itself, with the target in a collection and with it free. -/
theorem witness_LastCollectionsAreAnswered :
    let l (d t r : Nat) : List Byte := (collecting d t r []).mem.read 0x20000 64
    (∀ d t r c, (collecting d t r c).bad = []) ∧ (collecting 0 0 0 []).hub.devstat ≠ 0xE ∧ (∃ x ∈ ((l 40000 1 1).drop 0x0A).take 6 ++ (l 40000 1 1).drop 0x30, x ≠ 0) ∧
    (∀ v, ¬Targeted (collecting 40000 0 0 []) (l 40000 0 0) v) ∧
    ((∀ x ∈ ((l 39999 1 0).drop 0x0A).take 6 ++ (l 39999 1 0).drop 0x30, x = 0) ∧ Targeted (collecting 39999 1 0 []) (l 39999 1 0) 0 ∧ opnd (l 39999 1 0) 0 8 < 40000) ∧
    ((∀ x ∈ ((l 40000 1 0).drop 0x0A).take 6 ++ (l 40000 1 0).drop 0x30, x = 0) ∧ Targeted (collecting 40000 1 0 [⟨0x30000, 5, 0x40000, [0], []⟩]) (l 40000 1 0) 0 ∧
      Targeted (collecting 40000 1 0 []) (l 40000 1 0) 0 ∧ 40000 ≤ opnd (l 40000 1 0) 0 8) := by
  refine ⟨fun _ _ _ _ => rfl, by decide, by decide +kernel, ?_, ⟨by decide +kernel, targeted _ _ _ (by decide +kernel), by decide +kernel⟩,
    ⟨by decide +kernel, targeted 40000 0 [⟨0x30000, 5, 0x40000, [0], []⟩] (by decide +kernel), targeted _ _ _ (by decide +kernel), by decide +kernel⟩⟩
  rintro v ⟨-, h⟩
  have h0 : opnd ((collecting 40000 0 0 []).mem.read 0x20000 64) 0x10 24 = 0 := by decide +kernel
  have h1 : opnd ((collecting 40000 0 0 []).mem.read 0x20000 64) 8 2 = 0 := by decide +kernel
  rw [h0, h1] at h
  simp at h

/-- A collection with an entry of queue 3 of virtual function 0. -/
def reporting (out : Nat) (overrun : Bool) (l : List Launch) : State :=
  { machine (ctxWith []) with collections := [⟨0x20000, 50000, 0x40000, [0], [⟨0, 3, out, overrun, false⟩]⟩], launches := l }

/-- Vacant; not vacant; held with its cuts complete; not vacant at the deadline; vacant at the deadline. -/
theorem witness_CollectionsReportAndOverrun :
    let L : Launch := ⟨9, 0, 0, .queue 0 3, 0x10000, 0, 0, [1], 0, 0, false⟩
    let e (o : Nat) : CollEntry := ⟨0, 3, o, false, false⟩
    (∀ o l, (reporting o false l).bad = [] ∧ (reporting o false l).collections = [⟨0x20000, 50000, 0x40000, [0], [e o]⟩] ∧ ([e o].find? fun x => x.vf == 0 && x.q == 3 && !x.written) = some (e o) ∧
      ([e o].findIdx fun x => x.vf == 0 && x.q == 3) = 0) ∧
    ((e 1).outcome ≠ 2 ∧ (reporting 1 false []).queueLaunches 0 3 = [] ∧ (∀ x y z, ((reporting 1 false []).cmdQueue 0 3).head ≠ .copy x y z) ∧ paRange (0x40000 + 16 * 0) 16 = true ∧
      (reporting 1 false []).mem.wf = true) ∧ (reporting 1 false [L]).queueLaunches 0 3 ≠ [] ∧ ((e 2).outcome = 2 ∧ (reporting 2 false []).holdReady 0 = true) ∧
    (reporting 1 false [L]).vacant (e 1) = false ∧ (reporting 1 false []).vacant (e 1) = true :=
  ⟨fun _ _ => ⟨rfl, rfl, rfl, rfl⟩, ⟨by decide, by decide, fun _ _ _ => nofun, by decide, by decide⟩, by decide, by decide, by decide, by decide⟩

/-- A hold segment at 0x20000 of virtual function 0, whose header carries its generation and the digest of no bytes. -/
def segment : Segment := ⟨0x20000, 0, 7, 64, [(1, { CmdQueue.reset with holdpoint := some 5 })], [⟨0, RankRec.blank, [], [], [(4, ctxWith [])], [], [], [], [], [], [], []⟩]⟩
def holding (gen : Nat) (held : Bool) (ranks : List (Nat × RankRec)) : State :=
  { machine (ctxWith []) with
    mem := Memory.write [] 0x20000 (le 4 0x5348564A ++ le 2 0 ++ le 2 gen ++ le 8 0 ++ le 8 64 ++ le 8 0 ++ digest32 []), segments := [segment]
    vfs := [(0, { VF.reset with gen := 7, holding := held })], ranks := ranks }

/-- A misaligned address; a header of another generation; a virtual function that is not held; a rank not known; a segment that goes back. -/
theorem witness_RestorationGivesBackTheCut :
    let rs : List (Nat × RankRec) := [(0, RankRec.blank)]
    (∀ g b l, (holding g b l).bad = []) ∧ (holding 7 true rs).hub.devstat ≠ 0xE ∧ (0x20000 % 64 = 0 ∧ 0x20020 % 64 ≠ 0) ∧
    (∀ x ∈ (holding 7 true rs).segments, ¬(x.addr = 0x20000 ∧ x.gen ≠ ((holding 7 true rs).vf x.vf).gen)) ∧ (holding 7 true rs).segmentAt 0x30000 = none ∧
    (∃ x ∈ ({ holding 7 true rs with vfs := [] } : State).segments, x.addr = 0x20000 ∧ x.gen ≠ (({ holding 7 true rs with vfs := [] } : State).vf x.vf).gen) ∧
    ((holding 8 true rs).segmentAt 0x20000 = some segment ∧ ((holding 8 true rs).vf 0).gen ≠ opnd ((holding 8 true rs).mem.read 0x20000 8) 6 2) ∧
    (∀ b ∈ [true, false], (holding 7 b rs).segmentAt 0x20000 = some segment ∧ ((holding 7 b rs).vf 0).gen = opnd ((holding 7 b rs).mem.read 0x20000 8) 6 2 ∧ ((holding 7 b rs).vf 0).holding = b) ∧
    (holding 7 true []).segmentFits segment = false ∧ (holding 7 true rs).segmentFits segment = true ∧
    (∃ b, segment.blocks = [b] ∧ (b.ctxs.map (·.1)).Nodup ∧ (∃ c, tabGet b.ctxs 4 = some c)) ∧ ∃ x, tabGet segment.queues 1 = some x ∧ x.holdpoint = some 5 :=
  ⟨fun _ _ _ => rfl, by decide, by decide, by decide, by decide +kernel, by decide, by decide +kernel, by decide +kernel, by decide, by decide, ⟨_, rfl, by decide, _, rfl⟩, _, rfl, rfl⟩

/-! ### Fabric, collectives, shuffles -/

/-- Both of two devices are reached by ports 3 and 4. -/
def routed : State := { machine (ctxWith []) with routes := [(5, [3, 4]), (6, [3, 4])] }

theorem has_route {d : Nat} (h : d = 5 ∨ d = 6) (hne : d ≠ Config.ownDevice) : HasRoute routed d := by
  rcases h with rfl | rfl <;> exact ⟨hne, 3, by decide, List.not_mem_nil⟩

/-- A request sent to another device for context 1's AMO or load. -/
def request (d : Nat) (b : PktBody) (port : Option Nat) : RemoteReq := ⟨1, 0, false, ⟨d, b⟩, port, none⟩
def requesting (d : Nat) (k : AccKind) (b : PktBody) : State :=
  { routed with accs := [access k .ld [part 0x10100 8 (.sent 9)]], remote := [(9, request d b (some 3))], nextId := 2 }

/-- Eight enabled bytes. -/
def eight : List Bool := List.replicate 8 true

/-- A packet with a route and one without; plain local memory; a reply to a load; a contribution not yet here; entries to set, clear and refuse. -/
theorem witness_PacketsAreRoutedAndServed : ∃ d, d ≠ Config.ownDevice ∧ HasRoute routed d ∧ ¬HasRoute State.reset d ∧ PlainMemory routed ∧ paLocal 0x10100 = true ∧ routed.mem.wf = true ∧
    0x10100 % 128 + eight.length ≤ 128 ∧
    (let s := requesting d (.load (.g 3 .b64)) (.read 0 9 0x10100 eight)
     let a := access (.load (.g 3 .b64)) .ld [part 0x10100 8 (.sent 9)]
     let r := request d (.read 0 9 0x10100 eight) (some 3)
     tabGet s.remote 9 = some r ∧ r.forCmd = false ∧ r.dead = none ∧ s.signalOf? 9 = none ∧ s.acc? 1 = some a ∧ a.acq = none ∧ ([1] : List Byte) ≠ [] ∧
      ∀ x ∈ s.accs, x.id ≠ a.id → x.ctx = a.ctx → x.failure? = none) ∧
    ((∀ q, (.read 0 9 0x10100 eight : PktBody) ≠ .shuffle q) ∧ ∀ o, (.read 0 9 0x10100 eight : PktBody) ≠ .overprint o) ∧
    (routed.redslots = [] ∧ (∀ x ∈ routed.moved, x / 65536 ≠ 0) ∧ (∀ e ∈ routed.ranks, e.2.state ≠ 2 ∧ e.2.state ≠ 3) ∧ ∃ e ∈ routed.ranks, e.2.job = 0) ∧
    (∀ c ∈ routed.contribs, ¬(c.job = 0 ∧ c.comm = 0 ∧ c.k = 0 ∧ c.pos = 0)) ∧ (8191 < 8192 ∧ ([127] : List Nat).length ≤ 4 ∧ ∀ p ∈ ([127] : List Nat), p < 128) ∧ 4 < ([1, 2, 3, 4, 5] : List Nat).length := by
  obtain ⟨d, hd, hne⟩ := another_device
  refine ⟨d, hne, has_route hd hne, ?_, ⟨rfl, rfl, rfl⟩, by decide, rfl, by decide, ⟨rfl, rfl, rfl, rfl, rfl, rfl, by decide, ?_⟩, ⟨fun _ => nofun, fun _ => nofun⟩,
    ⟨rfl, fun _ h => (List.not_mem_nil h).elim, by decide, by decide⟩, fun _ h => (List.not_mem_nil h).elim, by decide, by decide⟩
  · rintro ⟨-, p, hp, -⟩
    exact List.not_mem_nil hp
  · intro x hx hne
    exact absurd rfl (List.mem_singleton.1 hx ▸ hne)

/-- Block blk of shuffle 5 for position dst at VK vk, from device dev, bound for device dest; positions 1 and 2 each hold the other's block. -/
def passing (dev dest vk blk dst : Nat) : ShufPkt := ⟨dev, dest, 0, vk, 5, blk, 0, dst, [1, 2], [], [1, 2], false, false⟩

/-- A sorting office with packets in its window: VK 0 lives here, VK 7 and 8 do not. -/
def sorting (l : List ShufPkt) : State := { routed with routes := [(5, [3]), (6, [4]), (7, [5])], pairing := l }

theorem two_devices : ∃ d e, (d = 5 ∨ d = 6 ∨ d = 7) ∧ (e = 5 ∨ e = 6 ∨ e = 7) ∧ d ≠ e ∧ d ≠ Config.ownDevice ∧ e ≠ Config.ownDevice := by
  by_cases h : 5 = Config.ownDevice
  · exact ⟨6, 7, by decide, by decide, by decide, by rw [← h]; decide, by rw [← h]; decide⟩
  · by_cases h' : 6 = Config.ownDevice
    · exact ⟨5, 7, by decide, by decide, by decide, h, by rw [← h']; decide⟩
    · exact ⟨5, 6, by decide, by decide, by decide, h, h'⟩

theorem eligible_pair (a b c d : Nat) (vk wk : Nat) : Eligible (passing a b vk 9 1) (passing c d wk 8 2) := by
  exact ⟨rfl, rfl, rfl, by show (1 : Nat) ≠ 2; decide, by show 2 ∈ [1, 2]; decide, by show 1 ∈ [1, 2]; decide⟩

theorem not_eligible (a b c d : Nat) (vk wk : Nat) : ¬Eligible (passing a b vk 9 1) (passing c d wk 8 1) := fun h => h.2.2.2.1 rfl

theorem is_passing {d e : Nat} (l : List ShufPkt) (vk blk dst : Nat) (h : e = 5 ∨ e = 6 ∨ e = 7) (hd : d ≠ Config.ownDevice) (he : e ≠ Config.ownDevice) (hv : vk = 7 ∨ vk = 8) :
    Passing (sorting l) (passing d e vk blk dst) := by
  refine ⟨?_, hd, ?_⟩
  · rcases hv with rfl | rfl <;> rfl
  · rcases h with rfl | rfl | rfl
    · exact ⟨he, 3, List.mem_singleton.2 rfl, List.not_mem_nil⟩
    · exact ⟨he, 4, List.mem_singleton.2 rfl, List.not_mem_nil⟩
    · exact ⟨he, 5, List.mem_singleton.2 rfl, List.not_mem_nil⟩

/-- A window without an eligible packet, with room and full, its oldest for here and passing; the first eligible packet behind one that is not; both receivers here, both elsewhere, on one device and on two with other routes; a packet that is not to be paired. -/
theorem witness_SortingOfficesPairPackets : ∃ d e, d ≠ Config.ownDevice ∧ e ≠ Config.ownDevice ∧
    (let p := passing d e 7 9 1
     (∀ vk, let q := passing d e vk 8 1
       let s := sorting (List.replicate 512 q)
       p.bad = false ∧ p.plainOnly = false ∧ s.pairing = q :: List.replicate 511 q ∧ s.pairing.length = 512 ∧ ∀ x ∈ s.pairing, ¬Eligible p x) ∧
     ((sorting []).pairing.length < 512 ∧ ∀ x ∈ (sorting []).pairing, ¬Eligible p x) ∧
     Passing (sorting (List.replicate 512 (passing d e 8 8 1))) (passing d e 8 8 1) ∧ (sorting (List.replicate 512 (passing d e 0 8 1))).rankHere 0 0 = true) ∧
    (let n := passing d e 8 8 1
     (∀ at' vk wk, let p := passing d e vk 9 1
       let q := passing d at' wk 8 2
       let s := sorting [n, q]
       p.plainOnly = false ∧ s.pairing = [n] ++ q :: [] ∧ (∀ x ∈ [n], ¬Eligible p x) ∧ Eligible p q) ∧
     (∀ l, (sorting l).rankHere 0 0 = true ∧ Passing (sorting l) (passing d e 7 9 1) ∧ Passing (sorting l) (passing d e 8 8 2) ∧ Passing (sorting l) (passing d d 8 8 2))) ∧
    (let p : ShufPkt := { passing d e 7 9 1 with plainOnly := true }
     p.plainOnly = true ∧ p.bad = false ∧ Passing (sorting []) p) ∧
    (let o (at' : Nat) : Overprint := ⟨passing d e 7 9 1, passing d at' 8 8 2, [0, 0], true, true, 0⟩
     (o e).p.dest = (o e).q.dest ∧ ¬((o d).p.dest = (o d).q.dest ∨ tabGetD (sorting []).routes (o d).p.dest [] = tabGetD (sorting []).routes (o d).q.dest [])) := by
  obtain ⟨d, e, hd, he, hne, h1, h2⟩ := two_devices
  refine ⟨d, e, h1, h2, ⟨fun vk => ⟨rfl, rfl, rfl, List.length_replicate, fun x hx => ?_⟩, ⟨by decide, fun x hx => (List.not_mem_nil hx).elim⟩, is_passing _ _ _ _ he h1 h2 (.inr rfl), rfl⟩,
    ⟨fun at' vk wk => ⟨rfl, rfl, fun x hx => ?_, eligible_pair ..⟩, fun l => ⟨rfl, is_passing _ _ _ _ he h1 h2 (.inl rfl), is_passing _ _ _ _ he h1 h2 (.inr rfl), is_passing _ _ _ _ hd h1 h1 (.inr rfl)⟩⟩,
    ⟨rfl, rfl, is_passing [] 7 9 1 he h1 h2 (.inl rfl)⟩, rfl, ?_⟩
  · rw [List.eq_of_mem_replicate hx]
    exact not_eligible _ _ _ _ _ _
  · rw [List.mem_singleton.1 hx]
    exact not_eligible _ _ _ _ _ _
  · rcases hd with rfl | rfl | rfl <;> rcases he with rfl | rfl | rfl <;> first | exact absurd rfl hne | decide

/-- No request by the port; a piece of a contribution, and a read, by it that another port can carry; an atomic addition; a compare-and-swap. -/
theorem witness_FailedLinksAreFenced : ∃ d, d ≠ Config.ownDevice ∧ ((∀ e ∈ routed.remote, e.2.port ≠ some 3) ∧ ∀ u ∈ routed.unconfirmed, u.port ≠ 3) ∧
    (let u : Unconfirmed := ⟨3, d, .contribution 0 0 0 0 0 [] 1 0 [1]⟩
     let s : State := { routed with unconfirmed := [u] }
     s.remote = [] ∧ s.unconfirmed = [u] ∧ u.port = 3 ∧ ∃ p ∈ tabGetD s.routes u.pkt.dev [], p ≠ 3 ∧ p ∉ s.failedPorts) ∧
    (let r := request d (.read 0 9 0x10100 eight) (some 3)
     let s := requesting d (.load (.g 3 .b64)) (.read 0 9 0x10100 eight)
     s.remote = [(9, r)] ∧ r.port = some 3 ∧ (∀ u ∈ s.unconfirmed, u.port ≠ 3) ∧ (∀ dev t op wide pa x, r.pkt.body ≠ .cas dev t wide pa x op ∧ r.pkt.body ≠ .amo dev t .add wide pa x ∧ r.pkt.body ≠ .amo dev t .xor wide pa x) ∧
      ∃ p ∈ tabGetD s.routes r.pkt.dev [], p ≠ 3 ∧ p ∉ s.failedPorts) ∧
    (let r := request d (.amo 0 9 .add true 0x10100 5) (some 3)
     let a := access (.amo .add true 5 3) .ld [part 0x10100 8 (.sent 9)]
     let s := requesting d (.amo .add true 5 3) (.amo 0 9 .add true 0x10100 5)
     s.remote = [(9, r)] ∧ r.port = some 3 ∧ r.dead = none ∧ s.signalOf? 9 = none ∧ s.acc? r.owner = some a ∧ (s.ctx a.ctx).alive = true ∧ (s.ctx a.ctx).waiting = [] ∧ (s.ctx a.ctx).reports.length < 8) ∧
    (let r := request d (.cas 0 9 true 0x10100 5 6) (some 3)
     let a := access (.cas true 5 6 3) .ld [part 0x10100 8 (.sent 9)]
     let s := requesting d (.cas true 5 6 3) (.cas 0 9 true 0x10100 5 6)
     s.remote = [(9, r)] ∧ r.port = some 3 ∧ r.dead = none ∧ s.signalOf? 9 = none ∧ s.acc? r.owner = some a ∧ (s.ctx a.ctx).alive = true ∧ (s.ctx a.ctx).waiting = [] ∧ (s.ctx a.ctx).reports.length < 8) := by
  obtain ⟨d, hd, hne⟩ := another_device
  have other : ∃ p ∈ tabGetD routed.routes d [], p ≠ 3 ∧ p ∉ routed.failedPorts := by
    rcases hd with rfl | rfl <;> exact ⟨4, by decide, by decide, List.not_mem_nil⟩
  exact ⟨d, hne, ⟨fun _ h => (List.not_mem_nil h).elim, fun _ h => (List.not_mem_nil h).elim⟩, ⟨rfl, rfl, rfl, other⟩,
    ⟨rfl, rfl, fun _ h => (List.not_mem_nil h).elim, fun _ _ _ _ _ _ => ⟨nofun, nofun, nofun⟩, other⟩, ⟨rfl, rfl, rfl, rfl, rfl, rfl, rfl, Nat.succ_pos 7⟩, rfl, rfl, rfl, rfl, rfl, rfl, rfl, Nat.succ_pos 7⟩

/-- An order of one member: a copy of four elements, or a sum of them. -/
def orderBytes (op ty timeout : Nat) : List Byte :=
  le 2 0 ++ le 1 0 ++ le 1 op ++ le 1 ty ++ le 1 0 ++ le 1 1 ++ le 1 1 ++ le 2 1 ++ le 2 1 ++ le 2 1 ++ le 2 1 ++ le 8 0 ++ le 4 0 ++ le 4 timeout ++ le 4 4 ++ le 4 1 ++ le 4 1 ++ le 4 1 ++ le 8 0x10200 ++ le 8 0x10300
/-- A context whose XCOLL or XSHUF has read its 64 bytes at 0x10140. -/
def described (l : List Byte) : State :=
  { machine (ctxWith [(1, 0x10140)]) with mem := tables, accs := [⟨7, 1, 0, 0, 0, 0x15, 0x10060, .load .none, .none, none, false, [⟨0x10140, 0x10140, true, List.replicate 64 true, l, .done⟩], false, 7, [], none⟩], nextId := 8 }

theorem xcoll_of {x : XcollRes} (h : (match x with | .ok _ _ _ _ => true | _ => false) = true) : ∃ o b ms p, x = .ok o b ms p := by
  cases x with
  | ok o b ms p => exact ⟨o, b, ms, p, rfl⟩
  | _ => exact Bool.noConfusion h
theorem xshuf_of {x : XshufRes} (h : (match x with | .ok _ _ _ => true | _ => false) = true) : ∃ b ms p, x = .ok b ms p := by
  cases x with
  | ok b ms p => exact ⟨b, ms, p, rfl⟩
  | _ => exact Bool.noConfusion h

theorem witness_CollectivesAreAccepted :
    (((machine (ctxWith [(1, 0x10120)])).rg 1).toNat % 64 ≠ 0) ∧ (((machine (ctxWith [(1, 0x1000000000000)])).rg 1).toNat % 64 = 0 ∧ 2 ^ 48 ≤ ((machine (ctxWith [(1, 0x1000000000000)])).rg 1).toNat) ∧
    (∃ o b ms p, (described (orderBytes 3 0 0)).xcollCheck ((described (orderBytes 3 0 0)).rg 1) = .ok o b ms p) ∧ (∃ r, tabGet (described []).ranks (described []).cx.rank = some r) ∧
    (∀ m, let s : State := { described (orderBytes 3 0 0) with collAborts := [(0, 0, 0, m)] }
     (0, 0, 0, m) ∈ s.collAborts ∧ ∀ e ∈ s.collAborts, e.1 = 0 ∧ e.2.1 = 0 ∧ e.2.2.1 = 0 → e.2.2.2 = m) :=
  ⟨by decide, by decide, xcoll_of (by decide +kernel), ⟨_, rfl⟩, fun _ => ⟨by simp, fun _ h _ => by rw [List.mem_singleton.1 h]⟩⟩

/-- A collective of this device's one member, or of two. -/
def coll (order : List Byte) (n : Nat) (begun sent : Bool) (held : List Nat) (e : CollEnd) : Coll := ⟨2, 1, 0, 1, 0, 0, 0, 0x10140, order, List.range n, 0, begun, sent, held, [], e⟩
/-- Its read of the source and its write of the target, with what has been contributed. -/
def collMachine (c : Coll) (rd wr : PartSt) (l : List Contribution) (slots : List RedSlot) : State :=
  { machine { ctxWith [] with tl := [(2, false)] } with
    mem := tables, colls := [c], contribs := l, redslots := slots, nextId := 3
    accs := [⟨1, 1, 0, 0, 0, 0x0F, 0x10060, .source, .none, none, false, [part 0x10200 4 rd], false, 1, [], none⟩, ⟨2, 1, 0, 0, 0, 0x0F, 0x10060, .coll, .tl, none, false, [part 0x10300 4 wr], false, 1, [], none⟩] }

/-- The collective of VK 0 here and VK 1 on another device, its source read. -/
def apart (d : Nat) (order : List Byte) : State := { collMachine (coll order 2 true false [] .open) .done .waiting [] [] with located := [(1, d)], routes := [(5, [3, 4]), (6, [3, 4])] }

/-- Decided; about to read; having read, with all members here and with one on another device; with a contribution missing; with all of them, alike, unlike, and with a NaN to sum. -/
theorem witness_CollectivesExchangeAndDecide :
    let o := orderBytes 3 0 0
    let C (order : List Byte) (p : Nat) (d : List Byte) : Contribution := ⟨0, 0, 0, p, order, d.length, [(0, d)]⟩
    (∀ c rd wr l r, c.id = 2 → CollIs (collMachine c rd wr l r) 2 c) ∧ (coll o 1 true true [] .writing).outcome ≠ .open ∧
    (let c := coll o 1 false false [] .open; ∃ a, c.begun = false ∧ (collMachine c .waiting .waiting [] []).acc? c.rd = some a ∧ a.acq = none) ∧
    (let c := coll o 1 true false [] .open; ∃ a, c.begun = true ∧ c.sent = false ∧ (collMachine c .done .waiting [] []).acc? c.rd = some a ∧ (∀ q ∈ a.parts, q.st = .done) ∧ (collMachine c .done .waiting [] []).redslots = [] ∧
      (collMachine c .done .waiting [] []).contribs = [] ∧
      AllHere (collMachine c .done .waiting [] []) c.job c.members) ∧
    (∃ d, (apart d o).devicesOf 0 [0, 1] = [d] ∧ HasRoute (apart d o) d ∧ (apart d o).portHeld ((apart d o).rankOf 0).vf d = false) ∧
    (let c := coll o 2 true true [] .open; ∃ p, p < c.members.length ∧ (collMachine c .done .waiting [C o 0 [1]] []).contribution? c p = none) ∧
    (let c := coll o 2 true true [] .open
     let s := collMachine c .done .waiting [C o 0 [1, 2, 3, 4], C o 1 [5, 6, 7, 8]] []
     (∀ p, p < c.members.length → s.contribution? c p = some (if p = 0 then C o 0 [1, 2, 3, 4] else C o 1 [5, 6, 7, 8])) ∧ (xorder c.order).kind = .none ∧ ∃ a, s.acc? c.id = some a) ∧
    (let c := coll o 2 true true [] .open
     let s := collMachine c .done .waiting [C o 0 [1], C (orderBytes 3 1 0) 1 [5]] []
     (∀ p, p < c.members.length → s.contribution? c p = some (if p = 0 then C o 0 [1] else C (orderBytes 3 1 0) 1 [5])) ∧ orderDigest o ≠ orderDigest (orderBytes 3 1 0) ∧ c.pos = 0 ∧ ({ c with pos := 1 } : Coll).pos ≠ 0) ∧
    (let q := orderBytes 0 8 0
     let d : List Byte := [0, 0, 0xC0, 0x7F]
     let c := coll q 1 true true [] .open
     (∀ p, p < c.members.length → (collMachine c .done .waiting [C q 0 d] []).contribution? c p = some (C q 0 d)) ∧ (xorder q).exact = false ∧ (xorder q).ty.isFloat = true ∧ (xorder q).kind ≠ .none ∧
      (xorder q).culprit 1 (fun _ => d) = some 0) := by
  obtain ⟨d, hd, hne⟩ := another_device
  have apart_reached : (apart d (orderBytes 3 0 0)).devicesOf 0 [0, 1] = [d] ∧ HasRoute (apart d (orderBytes 3 0 0)) d ∧ (apart d (orderBytes 3 0 0)).portHeld ((apart d (orderBytes 3 0 0)).rankOf 0).vf d = false := by
    rcases hd with rfl | rfl <;> exact ⟨by decide +kernel, ⟨hne, 3, by decide, List.not_mem_nil⟩, by decide +kernel⟩
  refine ⟨fun c rd wr l r h => ⟨?_, h⟩, by decide, ⟨_, rfl, rfl, rfl⟩, ⟨_, rfl, rfl, rfl, by decide, rfl, rfl, by unfold AllHere; decide⟩, ⟨d, apart_reached⟩, ⟨1, by decide, by decide⟩, ⟨by decide, by decide +kernel, _, rfl⟩,
    ⟨by decide, by decide +kernel, rfl, by decide⟩, by decide +kernel⟩
  simp [State.coll?, collMachine, h]

theorem witness_CollectivesCombineAlongTheTree :
    let o := xorder (orderBytes 0 8 0)
    let l : List (Nat × Nat) := [(0, 0x3F800000), (1, 0x40000000), (2, 0x40400000)]
    l ≠ [] ∧ l.length ≤ 2 ^ 2 ∧ o.kind ≠ .none ∧ ¬(o.exact = true ∧ o.kind = .sum) := by decide +kernel

/-- A sum of single-precision numbers in EXACT mode. -/
def exactOrder : XOrder := { xorder (orderBytes 0 8 0) with exact := true }

/-- A NaN; both infinities; one of them; finite numbers. -/
theorem witness_ExactSumsAreRoundedOnce :
    (exactOrder.exact = true ∧ exactOrder.kind = .sum ∧ exactOrder.ty.isFloat = true ∧ (3 : Nat) ≤ 2 ^ 24) ∧
    (let v (x : Nat) : XVal := exactOrder.ty.elem.decode x
     v 0x7FC00000 = .nan ∧ v 0x7F800000 = .inf false ∧ v 0xFF800000 = .inf true ∧ v 0x3F800000 ≠ .nan ∧ v 0x3F800000 ≠ .inf true) ∧
    (∃ xs : List ℚ, ([(0, 0x3F800000), (1, 0x40000000), (2, 0x40400000)] : List (Nat × Nat)).map (fun e => ratOf (exactOrder.ty.elem.decode e.2)) = xs.map some) ∧
    ([(0, 1), (1, 2)] : List (Nat × Nat)).Perm [(1, 2), (0, 1)] :=
  ⟨by decide +kernel, by decide +kernel, ⟨[_, _, _], rfl⟩, .swap ..⟩

/-- The last element of a target of four. -/
theorem witness_TargetsTakeTheirContributions :
    let o := xorder (orderBytes 3 0 0)
    o.okIn 1 = true ∧ (∀ a, o.tpart.testBit a = true → o.spart.testBit a = true) ∧ ([3, 0, 0, 0] : List Nat).length = 4 ∧ ∀ d, d < 4 → ([3, 0, 0, 0] : List Nat).getD d 0 < (o.extents o.tlay).getD d 1 := by
  refine ⟨by decide +kernel, fun a h => ?_, rfl, by decide +kernel⟩
  have h0 : (xorder (orderBytes 3 0 0)).tpart = 0 := by decide +kernel
  rw [h0, Nat.zero_testBit] at h
  exact Bool.noConfusion h

/-- A tree with its one value at the left. -/
theorem node_right (op : Nat → Nat → Nat) (f : Nat → Option Nat) (hf : ∀ n, n ≠ 0 → f n = none) : ∀ m j, j ≠ 0 → treeNode op f m j = none
  | 0, j, h => hf j h
  | m + 1, j, h => by
    show treeLevel op (treeNode op f m) j = none
    unfold treeLevel
    rw [node_right op f hf m (2 * j) (by omega), node_right op f hf m (2 * j + 1) (by omega)]

theorem node_left (op : Nat → Nat → Nat) (f : Nat → Option Nat) (hf : ∀ n, n ≠ 0 → f n = none) : ∀ m, treeNode op f m 0 = f 0
  | 0 => rfl
  | m + 1 => by
    show treeLevel op (treeNode op f m) 0 = f 0
    unfold treeLevel
    rw [node_right op f hf m (2 * 0 + 1) (by omega), show 2 * 0 = 0 from rfl, node_left op f hf m]
    cases f 0 <;> rfl

/-- One member: a NaN among its four elements, and zeros. -/
theorem witness_TheCulpritIsTheLowest :
    let o := xorder (orderBytes 0 8 0)
    (o.exact = false ∧ o.ty.isFloat = true ∧ o.kind ≠ .none) ∧
    (BeneathNonFinite o 1 (fun _ => [0, 0, 0xC0, 0x7F]) 0 0 ∧ (∀ k, k < 0 → ∀ q, ¬BeneathNonFinite o 1 (fun _ => [0, 0, 0xC0, 0x7F]) k q) ∧ ∀ q, q < 0 → ¬BeneathNonFinite o 1 (fun _ => [0, 0, 0xC0, 0x7F]) 0 q) ∧
    ∀ m r, ¬BeneathNonFinite o 1 (fun _ => []) m r := by
  refine ⟨by decide +kernel, ⟨⟨0, 0, 0, 0x7FC00000, 0, by decide +kernel⟩, fun _ h => (Nat.not_lt_zero _ h).elim, fun _ h => (Nat.not_lt_zero _ h).elim⟩, ?_⟩
  rintro m r ⟨p, i, j, v, k, hp, hi, hv, hn, -⟩
  obtain rfl : p = 0 := by omega
  have hi' : i < 4 := hi
  have hl : ∀ i < 4, (xorder (orderBytes 0 8 0)).inputs 1 (fun _ => []) 0 (unRowMajor ((xorder (orderBytes 0 8 0)).extents (xorder (orderBytes 0 8 0)).tlay) i) = [(0, 0)] := by decide +kernel
  rw [hl i hi'] at hv
  have hf : ∀ n, n ≠ 0 → (fun e : Nat => ([((0 : Nat), (0 : Nat))][e]?).map (·.2)) n = none := by
    intro n h
    cases n with
    | zero => exact absurd rfl h
    | succ n => rfl
  by_cases hj : j = 0
  · subst hj
    rw [node_left _ _ hf m] at hv
    obtain rfl : 0 = v := Option.some.inj hv
    exact absurd hn (by decide +kernel)
  · rw [node_right _ _ hf m j hj] at hv
    cases hv

/-- With its target written; halted by itself and by another; aborted; with a timer, without one, and with it stopped; with a slot free and with none; for an operation and for none. -/
theorem witness_CollectivesRetireAndTimeOut :
    let o := orderBytes 3 0 50
    (∀ c rd wr l r, c.id = 2 → CollIs (collMachine c rd wr l r) 2 c) ∧
    (∃ a, (collMachine (coll o 1 true true [] .writing) .done .done [] []).acc? 2 = some a ∧ (∀ q ∈ a.parts, q.st = .done) ∧ (coll o 1 true true [] .writing).unacked = []) ∧
    ((collMachine (coll o 1 true true [] (.halt true)) .done .waiting [] []).ctx 1).alive = true ∧ timeoutOf (orderBytes 3 0 0) = 0 ∧ timeoutOf o ≠ 0 ∧
    ((∃ q ∈ (coll o 2 true true [1] .open).held, q ≠ 0) ∧ ∀ q ∈ (coll o 2 true true [] .open).held, q = 0) ∧
    (let c := coll o 2 true true [] .open
     let s := collMachine c .done .waiting [] []
     (s.colls.find? fun x => x.job == c.job && x.comm == c.comm && x.k == c.k && x.pos == 0) = some c ∧ ∀ d ∈ s.colls, ¬(d.job = c.job ∧ d.comm = c.comm ∧ d.k = c.k ∧ d.pos = 7)) ∧
    (let s : State := { collMachine (coll (orderBytes 0 8 0) 1 true false [] .open) .done .waiting [] [⟨0, 7, 0, []⟩] with slotReqs := [(2, 5, 127)] }
     s.slotReqs = [(2, 5, 127)] ∧ (∀ r ∈ s.redslots, r.slot ≠ 1) ∧ ∀ m, m < 1 → ∃ r ∈ s.redslots, r.slot = m) ∧
    (xorder o).kind = .none ∧
    (let s := collMachine (coll o 1 true false [] .open) .done .waiting [] ((List.range 64).map fun n => ⟨n, 7, n, []⟩)
     ∀ n, n < 64 → ∃ r ∈ s.redslots, r.slot = n) ∧
    (∃ d, (apart d (orderBytes 0 8 0)).mayAsk (coll (orderBytes 0 8 0) 2 true false [] .open) 0 = true ∧ ¬((2, 0, 127) ∈ (apart d (orderBytes 0 8 0)).slotReqs)) ∧
    (let e : Nat × Nat × Nat := (2, 0, 3)
     let f : Nat × Nat × Nat := (2, 1, 1)
     let s : State := { collMachine (coll (orderBytes 0 8 0) 1 true false [] .open) .done .waiting [] [] with slotReqs := [f, e], slotPtr := 2 }
     s.slotReqs = [f, e] ∧ s.redslots = [] ∧ (e.2.2 + 128 - s.slotPtr % 128) % 128 < (f.2.2 + 128 - s.slotPtr % 128) % 128) := by
  obtain ⟨d, hd, hne⟩ := another_device
  refine ⟨fun c rd wr l r h => ⟨?_, h⟩, ⟨_, rfl, by decide, rfl⟩, by decide, by decide +kernel, by decide +kernel, by decide, ⟨rfl, by decide⟩, ⟨rfl, by decide, by decide⟩, by decide +kernel,
    fun n hn => ⟨⟨n, 7, n, []⟩, List.mem_map.2 ⟨n, List.mem_range.2 hn, rfl⟩, rfl⟩, ⟨d, ?_, List.not_mem_nil⟩, ⟨rfl, rfl, by decide⟩⟩
  · simp [State.coll?, collMachine, h]
  · rcases hd with rfl | rfl <;> decide +kernel

/-- A plan of shuffle 5 with blocks of 32 bytes, one send and one receive entry. -/
def planBytes (timeout : Nat) : List Byte :=
  le 4 5 ++ le 2 0 ++ le 1 1 ++ le 1 0 ++ le 4 1 ++ le 4 1 ++ le 4 0 ++ le 4 timeout ++ le 8 0x10400 ++ le 8 0x10500 ++ le 8 0x10600 ++ le 8 0x10700 ++ le 8 0

theorem witness_ShufflesAreAccepted :
    (((machine (ctxWith [(1, 0x10120)])).rg 1).toNat % 64 ≠ 0) ∧ (((machine (ctxWith [(1, 0x1000000000000)])).rg 1).toNat % 64 = 0 ∧ 2 ^ 48 ≤ ((machine (ctxWith [(1, 0x1000000000000)])).rg 1).toNat) ∧
    (∃ b ms p, (described (planBytes 0)).xshufCheck ((described (planBytes 0)).rg 1) = .ok b ms p) ∧ ∃ r, tabGet (described []).ranks (described []).cx.rank = some r :=
  ⟨by decide, by decide, xshuf_of (by decide +kernel), _, rfl⟩

/-- Block 9 of 32 bytes for VK 0, from position 1 of shuffle 5. -/
def packet (blk : Nat) (l : List Byte) (bad : Bool) : ShufPkt := ⟨Config.ownDevice, Config.ownDevice, 0, 0, 5, blk, 1, 0, [], envelopes l, l, false, bad⟩
/-- Shuffle 5 of rank 0, with the entry of block 9 in a state. -/
def shuffling (timeout stage : Nat) (came : Came) (written : Bool) (held : List Nat) (ab : Option (Option (Cause × Nat))) : Shuf :=
  ⟨2, 1, 0, 1, 0, 0, 5, 0, 1, 3, [0], 0, 0x10140, planBytes timeout, stage, [], [⟨9, 0, 0x10600, 0, 1, came, written⟩], 0, held, ab⟩
/-- The rank with its packets, in a residency state, holding block 8 at 0x10800 for the shuffle. -/
def shufMachine (l : List Shuf) (box : List PktBody) (st spillsz : Nat) : State :=
  { machine { ctxWith [] with tl := [(2, false)] } with
    mem := tables, shufs := l, inbox := box, nextId := 3
    ranks := [(0, { RankRec.blank with nvk := 1, wallow := 8, state := st, root := 0x4000, spillsz := spillsz, sheet := [⟨5, 8, 0x10800, 3, []⟩] })]
    accs := [⟨1, 1, 0, 0, 0, 0x10, 0x10060, .source, .none, none, false, [part 0x10400 16 .done], false, 1, [], none⟩, ⟨2, 1, 0, 0, 0, 0x10, 0x10060, .coll, .tl, none, false, [part 0x10600 32 .waiting], false, 1, [], none⟩] }

theorem open_at (h : Shuf) (box : List PktBody) (n : Nat) (h1 : h.rank = 0) (h2 : h.stage ≠ 0) (h3 : h.abort = none) : OpenAt (shufMachine [h] box 1 n) 0 h := by
  refine ⟨rfl, ?_, h1, h2, h3⟩
  simp [State.shuf?, shufMachine, h1]

/-- Awaited, whole and in error; come already; of no entry; not resident, with room to spill and without. -/
theorem witness_ShufflePacketsArrive :
    let box (p : ShufPkt) : List PktBody := [.shuffle p]
    (∀ p l st n, (shufMachine l (box p) st n).arrives p = true) ∧ (∀ came, OpenAt (shufMachine [shuffling 0 2 came false [] none] [] 1 1) 0 (shuffling 0 2 came false [] none)) ∧
    (∃ e a, Awaits (shuffling 0 2 .no false [] none) 9 e ∧ (shufMachine [shuffling 0 2 .no false [] none] [] 1 1).acc? 2 = some a) ∧ (packet 9 [] true).bad = true ∧ (∀ l, envelopes (packet 9 l false).payload = (packet 9 l false).crc) ∧
    (∀ l st n, (shufMachine l [] st n).jobRank? 0 0 = some 0) ∧ (packet 9 [] false).dev = Config.ownDevice ∧
    (∃ e, (shuffling 0 2 .plain true [] none).recvs.find? (fun x => x.blk == 9) = some e ∧ e.came ≠ .no) ∧ (∀ e ∈ (shuffling 0 2 .no false [] none).recvs, e.blk ≠ 4) ∧
    (∃ r, tabGet (shufMachine [] [] 2 1).ranks 0 = some r ∧ r.state ≠ 1 ∧ (r.spilled.map packetBytes).sum + (32 + 32) ≤ 65536 * r.spillsz) ∧
    (∃ r, tabGet (shufMachine [] [] 2 0).ranks 0 = some r ∧ 65536 * r.spillsz < (r.spilled.map packetBytes).sum + (32 + 32)) ∧
    (∃ d, HasRoute { shufMachine [] [] 2 0 with routes := [(5, [3, 4]), (6, [3, 4])] } ({ packet 9 [] false with dev := d } : ShufPkt).dev) := by
  obtain ⟨d, hd, hne⟩ := another_device
  refine ⟨fun p l st n => ?_, fun came => open_at _ _ _ rfl (Nat.succ_ne_zero 1) rfl, ⟨_, _, ⟨rfl, rfl⟩, rfl⟩, rfl, fun _ => rfl, fun _ _ _ => rfl, rfl, ⟨_, rfl, by decide⟩, by decide, ⟨_, rfl, by decide, by decide⟩, ⟨_, rfl, by decide⟩, d, ?_⟩
  · simp [State.arrives, shufMachine]
  · rcases hd with rfl | rfl <;> exact ⟨hne, 3, by decide, List.not_mem_nil⟩

/-- The overprint of blocks 9 and 8 of 32 bytes, with the envelopes of block 9. -/
def overprint (crc : List Nat) : Overprint := ⟨{ packet 9 [] false with crc := crc }, packet 8 [] false, List.replicate 32 6, true, false, 0⟩
def decoding (crc : List Nat) (blen : Nat) (sheet : List SheetEntry) : State :=
  let s := shufMachine [{ shuffling 0 2 .no false [] none with blen := blen }] [] 1 1
  { s with decoding := [⟨0, false, overprint crc, []⟩], ranks := s.ranks.map fun e => (e.1, { e.2 with sheet := sheet }) }

/-- Two blocks of one length; nothing of a group to decode; the other block held and read, with envelopes that agree and that do not; a block longer than a line; one that cannot be read, and one not held; the pairing window, with the receiver here and on another device; a block to send again. -/
theorem witness_OverprintsAreDecodedOrFallBack :
    let h (n : Nat) : Shuf := { shuffling 0 2 .no false [] none with blen := n }
    let sh (a : Nat) : List SheetEntry := [⟨5, 8, a, 3, []⟩]
    let good := envelopes (List.replicate 32 6)
    (packet 9 [1, 2] false).payload.length = (packet 8 [3, 4] false).payload.length ∧ (∀ d ∈ (decoding [] 1 []).decoding, d.group ≠ 4) ∧
    (∀ crc n l, (decoding crc n l).jobRank? 0 0 = some 0 ∧ OpenAt (decoding crc n l) 0 (h n) ∧ (h n).shid = (packet 9 [] false).shid ∧ (∃ e, Awaits (h n) 9 e) ∧
      (∃ a, (decoding crc n l).acc? (h n).acc = some a) ∧ (overprint crc).payload.length ≤ 2016 ∧ (decoding crc n l).rankHere 0 0 = true) ∧
    ((decoding good 1 (sh 0x10800)).heldBlock (h 1) 8 = some 0x10800 ∧ (decoding good 2 (sh 0x17FC0)).heldBlock (h 2) 8 = some 0x17FC0 ∧
      okAnd ((decoding good 1 (sh 0x10800)).hubGet 0 0x10800 32) (fun b => decide (32 ≤ b.length) && envelopes (xorOf (overprint good).payload b) == good) = true) ∧
    okAnd ((decoding [1] 1 (sh 0x10800)).hubGet 0 0x10800 32) (fun b => decide (32 ≤ b.length) && envelopes (xorOf (overprint [1]).payload b) != [1]) = true ∧
    okAnd ((decoding good 8 (sh 0x10800)).hubGet 0 0x10800 128) (fun b => decide (b.length < 32 * 8)) = true ∧
    ((decoding good 1 (sh 0x400000000)).heldBlock (h 1) 8 = some 0x400000000 ∧ ∃ c y, (decoding good 1 (sh 0x400000000)).hubGet 0 0x400000000 32 = .fail c y) ∧
    (decoding good 1 []).heldBlock (h 1) 8 = none ∧
    (∃ d, let p (vk : Nat) : ShufPkt := { packet 9 [1] false with vk := vk, dev := d }
     let s (vk : Nat) : State := { shufMachine [] [] 1 1 with pairing := [p vk], located := [(1, d)], routes := [(5, [3, 4]), (6, [3, 4])] }
     (s 0).pairing.length ≤ 1 ∧ (∀ vk, (s vk).pairing[0]? = some (p vk)) ∧ (s 0).rankHere 0 0 = true ∧ (s 1).rankHere 0 1 = false ∧ (p 1).dest = Config.ownDevice ∧ tabGet (s 1).located (0 * 65536 + 1) = some d ∧ HasRoute (s 1) d ∧
      (p 1).dev ≠ Config.ownDevice ∧ ({ p 1 with dest := d } : ShufPkt).dest ≠ Config.ownDevice) ∧
    (let e : SendEntry := ⟨9, 0, 0x10800, [], false⟩
     let g : Shuf := { h 1 with sends := [e] }
     let msg : PktBody := .reissue 0 5 9 0 0
     let s := shufMachine [g] [msg] 1 1
     s.shuf? 0 5 = some g ∧ msg ∈ s.inbox ∧ g.sends.find? (fun x => x.blk == 9 && x.dest == 0) = some e ∧ okAnd (State.hubGet { s with inbox := s.inbox.erase msg } 0 e.src (32 * g.blen)) (fun _ => true) = true) := by
  obtain ⟨d, hd, hne⟩ := another_device
  refine ⟨rfl, by decide, fun crc n l => ⟨rfl, ⟨rfl, rfl, rfl, by show (2 : Nat) ≠ 0; decide, rfl⟩, rfl, ⟨_, rfl, rfl⟩, ⟨_, rfl⟩, by show (List.replicate 32 (6 : Byte)).length ≤ 2016; decide, rfl⟩,
    ⟨rfl, rfl, by decide +kernel⟩, by decide +kernel, by decide +kernel, ⟨rfl, fail_of (by decide +kernel)⟩, rfl, ⟨d, Nat.le_refl 1, fun _ => rfl, rfl, rfl, rfl, rfl, ?_, hne, hne⟩, ⟨rfl, by decide, rfl, by decide +kernel⟩⟩
  rcases hd with rfl | rfl <;> exact ⟨hne, 3, by decide, List.not_mem_nil⟩

/-- Aborted with a cause of its own and by another member; not aborted; without a timer, with one, and with it stopped; done; with its blocks read, none to send and one. -/
theorem witness_ShufflesRetireAndAbort :
    (∀ h box, h.rank = 0 → h.shid = 5 → (shufMachine [h] box 1 1).shuf? 0 5 = some h) ∧
    (let h := shuffling 0 2 .no false [] (some (some (.permission, 0x10400)))
     let s := shufMachine [h] [] 1 1
     h.abort = some (some (.permission, 0x10400)) ∧ (s.ctx h.ctx).alive = true ∧ (s.ctx h.ctx).waiting = [] ∧ (s.ctx h.ctx).reports.length < 8) ∧
    (let h := shuffling 0 2 .no false [] none
     let s := shufMachine [h] [.shufAbort 0 0 5 0 0] 1 1
     h.abort = none ∧ .shufAbort h.job (h.members.getD h.pos 0) 5 h.pos h.num ∈ s.inbox ∧ (s.ctx h.ctx).alive = true) ∧
    (let h := shuffling 0 2 .no false [] none
     .shufAbort h.job (h.members.getD h.pos 0) 5 h.pos h.num ∉ (shufMachine [h] [] 1 1).inbox ∧ AllHere (shufMachine [h] [] 1 1) h.job h.members ∧ opnd h.header 0x14 4 = 0) ∧
    (∃ q ∈ (shuffling 9 2 .no false [3] none).held, q ≠ 0) ∧ (opnd (shuffling 9 2 .no false [] none).header 0x14 4 ≠ 0 ∧ ∀ q ∈ (shuffling 9 2 .no false [0] none).held, q = 0) ∧
    (let h := shuffling 0 2 .plain true [] none
     h.stage = 2 ∧ h.abort = none ∧ (∀ e ∈ h.recvs, e.written = true ∧ e.came ≠ .failed) ∧ (∀ e ∈ h.sends, e.acked = true) ∧
      okAnd ((shufMachine [h] [] 1 1).hubPut 0 (opnd h.header 0x30 8) (statusOf h)) (fun _ => true) = true) ∧
    (∀ l : List SendEntry, let h : Shuf := { shuffling 0 1 .no false [] none with sends := l }
     ∃ a b, h.stage = 1 ∧ (shufMachine [h] [] 1 1).acc? h.acc = some a ∧ (shufMachine [h] [] 1 1).acc? h.rd = some b ∧ (∀ q ∈ b.parts, q.st = .done) ∧ (∀ e ∈ h.recvs, e.came = .no) ∧
      (shufMachine [h] [] 1 1).rankHere h.job (h.members.getD 0 0) = true ∧ (shufMachine [h] [] 1 1).pairing = []) := by
  refine ⟨fun h box h1 h2 => ?_, ⟨rfl, by decide, rfl, by decide⟩, ⟨rfl, by decide, by decide⟩, ⟨by decide, by unfold AllHere; decide, by decide +kernel⟩, by decide, ⟨by decide +kernel, by decide⟩,
    ⟨rfl, rfl, by decide, by decide, by decide +kernel⟩, fun l => ⟨_, _, rfl, rfl, rfl, ?_, ?_, rfl, rfl⟩⟩
  · simp [State.shuf?, shufMachine, h1, h2]
  · exact fun q hq => by rw [List.mem_singleton.1 hq]; rfl
  · exact fun e he => by rw [List.mem_singleton.1 he]

/-- A migrating rank with room, one without, and one that is resident; a refused packet of a sender here and of another; one to send again, and none. -/
theorem witness_SpilledPacketsAreKept :
    (∃ r, tabGet (shufMachine [] [] 3 1).ranks 0 = some r ∧ r.state = 3 ∧ (r.spilled.map packetBytes).sum + packetBytes (.shuffle (packet 9 [] false)) ≤ 65536 * r.spillsz) ∧
    (∃ r, tabGet (shufMachine [] [] 3 0).ranks 0 = some r ∧ r.state = 3 ∧ 65536 * r.spillsz < (r.spilled.map packetBytes).sum + packetBytes (.shuffle (packet 9 [] false)) ∧
      pktClass (.shuffle (packet 9 [] false)) = .request ∧ senderOf (.shuffle (packet 9 [] false)) = Config.ownDevice) ∧
    (∃ r, tabGet (shufMachine [] [] 1 1).ranks 0 = some r ∧ r.state = 1) ∧
    (let p : ShufPkt := { packet 9 [] false with vk := 7, src := 0 }
     let s := shufMachine [shuffling 0 2 .no false [] none] [] 1 1
     (∃ h ∈ s.shufs, h.job = p.job ∧ h.shid = p.shid ∧ h.pos = p.src) ∧ p.dev = Config.ownDevice) ∧
    (tabGet (shufMachine [] [] 1 1).ranks 7 = none ∧ pktClass (.rankAt 0 0 0) ≠ .request) ∧ (∃ d, HasRoute { shufMachine [] [] 3 0 with routes := [(5, [3, 4]), (6, [3, 4])] } (senderOf (.shuffle { packet 9 [] false with dev := d }))) ∧
    (∀ h ∈ (shufMachine [] [] 1 1).shufs, ¬(h.job = 0 ∧ h.shid = 5 ∧ h.pos = 1)) ∧
    (let s : State := { shufMachine [] [] 1 1 with retries := [.shuffle (packet 9 [] false)] }
     s.retries = .shuffle (packet 9 [] false) :: [] ∧ s.rankHere 0 0 = true) ∧ (shufMachine [] [] 1 1).retries = [] := by
  obtain ⟨d, hd, hne⟩ := another_device
  have route : HasRoute { shufMachine [] [] 3 0 with routes := [(5, [3, 4]), (6, [3, 4])] } d := by
    rcases hd with rfl | rfl <;> exact ⟨hne, 3, by decide, List.not_mem_nil⟩
  exact ⟨⟨_, rfl, rfl, by decide +kernel⟩, ⟨_, rfl, rfl, by decide +kernel, rfl, rfl⟩, ⟨_, rfl, rfl⟩, ⟨⟨_, List.mem_singleton.2 rfl, rfl, rfl, rfl⟩, rfl⟩, ⟨rfl, by decide⟩, ⟨d, route⟩, fun _ h => (List.not_mem_nil h).elim, ⟨rfl, rfl⟩, rfl⟩

/-! ### Completion

The clauses of OperationsAndEventsComplete have the hypotheses of a clause of a statement above, so its witness meets them too:
WaitsHintsAndGroupsComplete those of GroupsAndArrivals, WaitmWaitsForItsWord, ExposeBecomesOutstanding, FixWritesTheValue and LdrecReadsTheRecord;
LaneAndMatrixOperationsComplete, but for the lanes, those of PushesSendExactColumnSums, DrainsDeliverTheRow, SwapModesAndShadowLoads and ImagesAreStoredAndLoaded;
EngineOperationsComplete those of CopyCommandsAreTaken, EngineRegistersAreSet, QueuesPostAndTake, LaunchIsAcceptedOrRefused, CollectivesAreAccepted and ShufflesAreAccepted;
ContextEventsComplete, HostEventsComplete and FabricEventsComplete those of the statements about each event; the issue of a bundle, whose clause names no other instruction, has a witness of its own. -/

/-- A bundle of ADDI g7, g7, 1 in slot S0, held in the loop buffer. -/
def addCode : State := machine { ctxWith [] with loopbuf := [(0x10060, [0x80000000, 0x80738001])] }

theorem witness_IssueOfABundleCompletes :
    let t := addCode.atIssue 1
    let i : Instr := .addi none 7 7 1
    ∃ b ws u d lat P, addCode.matesOf 1 = [] ∧ (addCode.ctx 1).placed = true ∧ (addCode.ctx 1).fw = none ∧ t.passing = false ∧ t.waitsForMates 1 = false ∧ t.cx.arming.bind (·.rest) = none ∧
      t.bundleAt t.cx.pc = .ok b ws u ∧ t.boundary (some b.hdr.quiet) = none ∧ b.words = [⟨0, some i⟩] ∧ b.hdr.quiet = false ∧ u.cx.sres = 0 ∧ u.cx.rpos = 0 ∧ u.cx.sticky = Sticky.none ∧
      u.held [(0, i)] = false ∧ u.illegalMask b (u.cx.acts b) = 0 ∧ u.asks [(0, i)] = none ∧ u.cx.corr = [] ∧ (atSlotOf u b 0).spoiltBy i = none ∧ u.issue.trapped = false ∧ u.issue.xfer = none ∧
      i.wf = true ∧ immediateOp i u.rg = some (d, lat, P) :=
  ⟨_, _, _, _, _, _, by decide, by decide, by decide, by decide, by decide, by decide, rfl, by decide, by decide, by decide, by decide, by decide, by decide, by decide, by decide, by decide, by decide,
    by decide, by decide, by decide, by decide, rfl⟩

/-- Lane operations with registers, with a stream that is ready, and one that draws. -/
theorem witness_OperationsAndEventsComplete :
    (∀ i ∈ [Instr.vclamp none 1 2 3 .i8 7, .vpart none 4 6 .i32 1, .vrand none 1 .f32 0, .plog 1 2 3 6],
      i.slot = some .v ∧ i ≠ .vnop ∧ i.wf = true ∧ (usesOf (machine (ctxWith [])).cx i).q = []) ∧
    (let i : Instr := .vadd viaQ 1 1 0 .i32 .rne 0
     i.slot = some .v ∧ i.wf = true ∧ StreamsReady (machine (streaming 1)) (usesOf (machine (streaming 1)).cx i).q) :=
  ⟨by decide +kernel, by decide, by decide, fun q hq => by
    have h : q ∈ [(1 : QR)] := hq
    obtain rfl : q = 1 := by simpa using h
    exact ⟨3, ⟨255, 1, 1, 1, 0, none⟩, by decide, by decide, by decide⟩⟩

theorem witness_EveryStepKeepsMemoryCanonical : State.reset.mem.wf = true ∧ ∃ t, step State.reset = .next t := ⟨rfl, _, rfl⟩

end Sys2Proof.Tests
end

section
/-! # Proofs: scalar operations and transfers (R82 to R85, R93, R94, R97, R98)

The value that the model computes for each operation is compared with the value that R83 to R85 give by one lemma per function of the model. The two theorems that settle obligations only pair each operation with its lemma. -/

namespace Sys2Proof.Proofs

open Sys2Proof Sys2Proof.Machine Sys2Proof.Spec

/-! ### Words as integers modulo 2^64 -/

theorem isMod_toNat (a : W64) : IsMod a.toNat a := by
  rw [IsMod, BitVec.ofInt_natCast, BitVec.ofNat_toNat, BitVec.setWidth_eq]

theorem isMod_toInt (a : W64) : IsMod a.toInt a := BitVec.ofInt_toInt.symm

theorem isMod_ofNat (n : Nat) : IsMod n (BitVec.ofNat 64 n) := (BitVec.ofInt_natCast 64 n).symm

theorem isMod_add {m n : Int} {x y : W64} (hx : IsMod m x) (hy : IsMod n y) : IsMod (m + n) (x + y) := by
  rw [IsMod] at *; rw [hx, hy, BitVec.ofInt_add]

theorem isMod_sub {m n : Int} {x y : W64} (hx : IsMod m x) (hy : IsMod n y) : IsMod (m - n) (x - y) := by
  rw [IsMod] at *; rw [hx, hy, BitVec.sub_eq_add_neg, ← BitVec.ofInt_neg, ← BitVec.ofInt_add, Int.sub_eq_add_neg]

theorem isMod_mul {m n : Int} {x y : W64} (hx : IsMod m x) (hy : IsMod n y) : IsMod (m * n) (x * y) := by
  rw [IsMod] at *; rw [hx, hy, BitVec.ofInt_mul]

/-- Division by a power of two that rounds towards -∞ is the integer division of the model. -/
theorem fdiv_two_pow (m : Int) (k : Nat) : m.fdiv (2 ^ k) = m / 2 ^ k :=
  Int.fdiv_eq_ediv_of_nonneg m (by positivity)

/-! ### Products, quotients and remainders (R83, R85) -/

theorem isMod_mulHigh (a b : W64) : IsMod ((a.toInt * b.toInt).fdiv (2 ^ 64)) (mulHigh a b) := by
  rw [fdiv_two_pow]; rfl

theorem isMod_mulHighN (a b : W64) : IsMod (((a.toNat : Int) * b.toNat).fdiv (2 ^ 64)) (mulHighN a b) := by
  rw [fdiv_two_pow]; exact_mod_cast isMod_ofNat (a.toNat * b.toNat / 2 ^ 64)

theorem isMod_allOnes : IsMod (-1) (BitVec.allOnes 64) := by rw [IsMod]; decide

theorem toNat_ne_zero {b : W64} (h : b ≠ 0) : (b.toNat : Int) ≠ 0 := by
  exact_mod_cast fun h0 => h (BitVec.eq_of_toNat_eq h0)

theorem toInt_ne_zero {b : W64} (h : b ≠ 0) : b.toInt ≠ 0 := fun h0 => h (BitVec.toInt_inj.1 h0)

theorem remOf_eq_tmod {m n : Int} (h : n ≠ 0) : remOf m n = m.tmod n := by
  rw [remOf, if_neg h, Int.tmod_def, Int.mul_comm]

theorem isMod_quotient (a b : W64) : IsMod (quotOf a.toInt b.toInt) (divRem a b).1 := by
  by_cases h : b = 0
  · subst h; exact isMod_allOnes
  · rw [divRem, if_neg h, quotOf, if_neg (toInt_ne_zero h), IsMod]

theorem isMod_quotientN (a b : W64) : IsMod (quotOf a.toNat b.toNat) (divRemN a b).1 := by
  by_cases h : b = 0
  · subst h; exact isMod_allOnes
  · rw [divRemN, if_neg h, quotOf, if_neg (toNat_ne_zero h), ← Int.ofNat_tdiv]
    exact isMod_ofNat _

theorem isMod_remainder (a b : W64) : IsMod (remOf a.toInt b.toInt) (divRem a b).2 := by
  by_cases h : b = 0
  · subst h; exact isMod_toInt a
  · rw [divRem, if_neg h, remOf_eq_tmod (toInt_ne_zero h), IsMod]

theorem isMod_remainderN (a b : W64) : IsMod (remOf a.toNat b.toNat) (divRemN a b).2 := by
  by_cases h : b = 0
  · subst h; exact isMod_toNat a
  · rw [divRemN, if_neg h, remOf_eq_tmod (toNat_ne_zero h), ← Int.ofNat_tmod]
    exact isMod_ofNat _

/-! ### Shifts (R84) -/

theorem isMod_shiftLeft (a : W64) (k : Nat) : IsMod (a.toNat * 2 ^ k) (a <<< k) := by
  have h : a <<< k = BitVec.ofNat 64 (a.toNat * 2 ^ k) :=
    BitVec.eq_of_toNat_eq (by rw [BitVec.toNat_shiftLeft, Nat.shiftLeft_eq, BitVec.toNat_ofNat])
  rw [h]
  exact_mod_cast isMod_ofNat (a.toNat * 2 ^ k)

theorem isMod_ushiftRight (a : W64) (k : Nat) : IsMod ((a.toNat : Int).fdiv (2 ^ k)) (a >>> k) := by
  have h := isMod_toNat (a >>> k)
  rw [BitVec.toNat_ushiftRight, Nat.shiftRight_eq_div_pow] at h
  rw [fdiv_two_pow]
  exact_mod_cast h

theorem isMod_sshiftRight (a : W64) (k : Nat) : IsMod (a.toInt.fdiv (2 ^ k)) (a.sshiftRight k) := by
  have h := isMod_toInt (a.sshiftRight k)
  rw [BitVec.toInt_sshiftRight, Int.shiftRight_eq_div_pow] at h
  rw [fdiv_two_pow]
  exact_mod_cast h

/-- A rotation carries bit k to bit k + n, modulo 64. -/
theorem getLsbD_rotateLeft_add (a : W64) {n k : Nat} (hn : n < 64) (hk : k < 64) : (a.rotateLeft n).getLsbD ((k + n) % 64) = a.getLsbD k := by
  rw [BitVec.getLsbD_rotateLeft, Nat.mod_eq_of_lt hn]
  rcases Nat.lt_or_ge (k + n) 64 with h | h
  · have hs : ¬k + n < n := by omega
    simp [Nat.mod_eq_of_lt h, hs, h]
  · have hm : (k + n) % 64 = k + n - 64 := by omega
    have hs : k + n - 64 < n := by omega
    have hi : 64 - n + (k + n - 64) = k := by omega
    simp [hm, hs, hi]

/-! ### Lesser and greater (R83) -/

theorem isMod_min_toInt (a b : W64) : IsMod (min a.toInt b.toInt) (if a.slt b then a else b) := by
  by_cases h : a.slt b
  · rw [if_pos h, min_eq_left (BitVec.slt_iff_toInt_lt.1 h).le]; exact isMod_toInt a
  · rw [if_neg h, min_eq_right (not_lt.1 (mt BitVec.slt_iff_toInt_lt.2 h))]; exact isMod_toInt b

theorem isMod_max_toInt (a b : W64) : IsMod (max a.toInt b.toInt) (if a.slt b then b else a) := by
  by_cases h : a.slt b
  · rw [if_pos h, max_eq_right (BitVec.slt_iff_toInt_lt.1 h).le]; exact isMod_toInt b
  · rw [if_neg h, max_eq_left (not_lt.1 (mt BitVec.slt_iff_toInt_lt.2 h))]; exact isMod_toInt a

theorem ult_iff_natCast_lt {a b : W64} : a.ult b = true ↔ (a.toNat : Int) < b.toNat := by
  rw [BitVec.ult_iff_toNat_lt, Int.ofNat_lt]

theorem ule_iff_natCast_le {a b : W64} : a.ule b = true ↔ (a.toNat : Int) ≤ b.toNat := by
  rw [BitVec.ule_iff_toNat_le, Int.ofNat_le]

theorem isMod_min_toNat (a b : W64) : IsMod (min (a.toNat : Int) b.toNat) (if a.ult b then a else b) := by
  by_cases h : a.ult b
  · rw [if_pos h, min_eq_left (ult_iff_natCast_lt.1 h).le]; exact isMod_toNat a
  · rw [if_neg h, min_eq_right (not_lt.1 (mt ult_iff_natCast_lt.2 h))]; exact isMod_toNat b

theorem isMod_max_toNat (a b : W64) : IsMod (max (a.toNat : Int) b.toNat) (if a.ult b then b else a) := by
  by_cases h : a.ult b
  · rw [if_pos h, max_eq_right (ult_iff_natCast_lt.1 h).le]; exact isMod_toNat b
  · rw [if_neg h, max_eq_left (not_lt.1 (mt ult_iff_natCast_lt.2 h))]; exact isMod_toNat a

/-! ### Comparisons (R83) -/

theorem isTruth_truth {p : Prop} {b : Bool} (h : b = true ↔ p) : IsTruth p (truth b) :=
  ⟨fun hp => if_pos (h.2 hp), fun hp => if_neg (mt h.1 hp)⟩

/-! ### Counts of bits and the reversal (R83) -/

theorem leadingZeros_spec (a : W64) :
    (a = 0 ∧ leadingZeros a = 64) ∨
      ((leadingZeros a).toNat < 64 ∧ 2 ^ (63 - (leadingZeros a).toNat) ≤ a.toNat ∧ a.toNat < 2 ^ (64 - (leadingZeros a).toNat)) := by
  by_cases h : a = 0
  · exact .inl ⟨h, if_pos h⟩
  · have h0 : a.toNat ≠ 0 := fun e => h (BitVec.eq_of_toNat_eq e)
    have hl : a.toNat.log2 < 64 := (Nat.log2_lt h0).2 a.isLt
    have hx : (leadingZeros a).toNat = 63 - a.toNat.log2 := by
      rw [leadingZeros, if_neg h, BitVec.toNat_ofNat]; omega
    have e1 : 63 - (63 - a.toNat.log2) = a.toNat.log2 := by omega
    have e2 : 64 - (63 - a.toNat.log2) = a.toNat.log2 + 1 := by omega
    rw [hx, e1, e2]
    exact .inr ⟨by omega, Nat.log2_self_le h0, Nat.lt_log2_self⟩

/-- Where bit i is the lowest one bit of a number, the bits up to it make 2^i. -/
theorem mod_two_pow_succ_of_lowest {n i : Nat} (hi : n.testBit i = true) (hlow : ∀ j < i, n.testBit j = false) : n % 2 ^ (i + 1) = 2 ^ i := by
  refine Nat.eq_of_testBit_eq fun j => ?_
  rw [Nat.testBit_mod_two_pow, Nat.testBit_two_pow]
  rcases Nat.lt_trichotomy j i with h | rfl | h
  · simp [hlow j h, h.ne']
  · simp [hi]
  · have hj : ¬j < i + 1 := by omega
    simp [hj, h.ne]

theorem trailingZeros_spec (a : W64) :
    (a = 0 ∧ trailingZeros a = 64) ∨
      ((trailingZeros a).toNat < 64 ∧ a.toNat % 2 ^ ((trailingZeros a).toNat + 1) = 2 ^ (trailingZeros a).toNat) := by
  cases hf : (List.range 64).find? fun i => a.getLsbD i with
  | none =>
    refine .inl ⟨BitVec.eq_of_getLsbD_eq fun i hi => ?_, by rw [trailingZeros, hf]; rfl⟩
    simpa using List.find?_range_eq_none.1 hf i hi
  | some i =>
    obtain ⟨hbit, hmem, hlow⟩ := List.find?_range_eq_some.1 hf
    have hi : i < 64 := List.mem_range.1 hmem
    have hx : (trailingZeros a).toNat = i := by
      rw [trailingZeros, hf, Option.getD_some, BitVec.toNat_ofNat]; omega
    rw [hx]
    exact .inr ⟨hi, mod_two_pow_succ_of_lowest hbit fun j hj => (Bool.not_eq_true' _).mp (hlow j hj)⟩

theorem oneBits_toNat (a : W64) : (oneBits a).toNat = ((Finset.range 64).filter fun k => a.getLsbD k = true).card := by
  have hcard : ((Finset.range 64).filter fun k => a.getLsbD k = true).card = ((List.range 64).filter fun i => a.getLsbD i).length := by
    simp [Finset.card_def, Finset.filter_val, Finset.range_val, Multiset.range]
  have hle : ((List.range 64).filter fun i => a.getLsbD i).length ≤ 64 := by
    simpa using List.length_filter_le (fun i => a.getLsbD i) (List.range 64)
  rw [hcard, oneBits, BitVec.toNat_ofNat]
  omega

theorem getLsbD_bitReverse (a : W64) {k : Nat} (hk : k < 64) : (bitReverse a).getLsbD (63 - k) = a.getLsbD k := by
  have e : 64 - 1 - (63 - k) = k := by omega
  have h : 63 - k < 64 := by omega
  rw [bitReverse, BitVec.getLsbD_reverse, BitVec.getMsbD, e, decide_eq_true h, Bool.true_and]

/-! ### Three-register operations -/

/-- A scalar result is in flight for its destination, and nothing else changes (R82). -/
theorem scalar_eq (s : State) (lat : Nat) (d : GR) (x : W64) : s.scalar lat d x = .next (pending s lat (.g d x)) := rfl

/-- Settles O3, by the lemma on the value of each operation. -/
theorem registerOperationsGiveTheirResult : Obligations.RegisterOperationsGiveTheirResult := by
  unfold Obligations.RegisterOperationsGiveTheirResult
  intro i s d lat P h
  cases i with
  | add => cases h; exact ⟨_, isMod_add (isMod_toNat _) (isMod_toNat _), scalar_eq ..⟩
  | sub => cases h; exact ⟨_, isMod_sub (isMod_toNat _) (isMod_toNat _), scalar_eq ..⟩
  | mul => cases h; exact ⟨_, isMod_mul (isMod_toNat _) (isMod_toNat _), scalar_eq ..⟩
  | mulh => cases h; exact ⟨_, isMod_mulHigh _ _, scalar_eq ..⟩
  | mulhn => cases h; exact ⟨_, isMod_mulHighN _ _, scalar_eq ..⟩
  | div => cases h; exact ⟨_, isMod_quotient _ _, scalar_eq ..⟩
  | divn => cases h; exact ⟨_, isMod_quotientN _ _, scalar_eq ..⟩
  | rem => cases h; exact ⟨_, isMod_remainder _ _, scalar_eq ..⟩
  | remn => cases h; exact ⟨_, isMod_remainderN _ _, scalar_eq ..⟩
  | and => cases h; exact ⟨_, fun _ _ => BitVec.getLsbD_and, scalar_eq ..⟩
  | or => cases h; exact ⟨_, fun _ _ => BitVec.getLsbD_or, scalar_eq ..⟩
  | xor => cases h; exact ⟨_, fun _ _ => BitVec.getLsbD_xor, scalar_eq ..⟩
  | andn => cases h; exact ⟨_, fun k hk => by rw [BitVec.getLsbD_and, BitVec.getLsbD_not, decide_eq_true hk, Bool.true_and], scalar_eq ..⟩
  | shl => cases h; exact ⟨_, isMod_shiftLeft _ _, scalar_eq ..⟩
  | shr => cases h; exact ⟨_, isMod_ushiftRight _ _, scalar_eq ..⟩
  | sar => cases h; exact ⟨_, isMod_sshiftRight _ _, scalar_eq ..⟩
  | rol => cases h; exact ⟨_, fun k hk => getLsbD_rotateLeft_add _ (Nat.mod_lt _ (by decide)) hk, scalar_eq ..⟩
  | min => cases h; exact ⟨_, isMod_min_toInt _ _, scalar_eq ..⟩
  | max => cases h; exact ⟨_, isMod_max_toInt _ _, scalar_eq ..⟩
  | minn => cases h; exact ⟨_, isMod_min_toNat _ _, scalar_eq ..⟩
  | maxn => cases h; exact ⟨_, isMod_max_toNat _ _, scalar_eq ..⟩
  | seq => cases h; exact ⟨_, isTruth_truth beq_iff_eq, scalar_eq ..⟩
  | sne => cases h; exact ⟨_, isTruth_truth bne_iff_ne, scalar_eq ..⟩
  | slt => cases h; exact ⟨_, isTruth_truth BitVec.slt_iff_toInt_lt, scalar_eq ..⟩
  | sltn => cases h; exact ⟨_, isTruth_truth ult_iff_natCast_lt, scalar_eq ..⟩
  | sle => cases h; exact ⟨_, isTruth_truth BitVec.sle_iff_toInt_le, scalar_eq ..⟩
  | slen => cases h; exact ⟨_, isTruth_truth ule_iff_natCast_le, scalar_eq ..⟩
  | clz => cases h; exact ⟨_, leadingZeros_spec _, scalar_eq ..⟩
  | ctz => cases h; exact ⟨_, trailingZeros_spec _, scalar_eq ..⟩
  | popc => cases h; exact ⟨_, oneBits_toNat _, scalar_eq ..⟩
  | brev => cases h; exact ⟨_, fun _ hk => getLsbD_bitReverse _ hk, scalar_eq ..⟩
  | sel => cases h; exact ⟨_, ⟨fun hc => if_pos hc, fun hc => if_neg (not_not.2 hc)⟩, scalar_eq ..⟩
  | _ => cases h

/-! ### The target of a transfer (R60, R93) -/

theorem isMod_sext64 {w : Nat} (hw : 0 < w) (n : Nat) : IsMod (twosOf w n) (sext64 w n) := by
  obtain ⟨w, rfl⟩ := Nat.exists_eq_succ_of_ne_zero hw.ne'
  have htoInt : (BitVec.ofNat (w + 1) n).toInt = twosOf (w + 1) n := by
    have hpow : 2 ^ (w + 1) = 2 * 2 ^ w := Nat.pow_succ'
    rw [BitVec.toInt_eq_toNat_cond, BitVec.toNat_ofNat, twosOf, Nat.add_sub_cancel]
    congr 1
    rw [hpow, eq_iff_iff]
    omega
  rw [IsMod, ← htoInt]
  rfl

theorem isMod_immediate {w : Nat} (hw : 0 < w) (x : Ext) (f : Nat) : IsMod (immOf w x f) (immediate w x f) := by
  cases x with
  | none => exact isMod_sext64 hw f
  | some e => exact isMod_sext64 (by omega) _

theorem target_eq (s : State) (x : Ext) (o : BitVec 15) : s.target x o = branchTarget s x o := by
  have h : IsMod ((s.cx.pc : Int) + 4 * immOf 15 x o.toNat) (BitVec.ofNat 64 s.cx.pc + 4 * immediate 15 x o.toNat) :=
    isMod_add (isMod_ofNat _) (isMod_mul (isMod_ofNat 4) (isMod_immediate (by decide) x _))
  rw [State.target, h, BitVec.toNat_ofInt]
  rfl

/-! ### Branches, JMP and JMPG (R93, R94) -/

/-- The model's transfer is the one of the statements. -/
theorem transfer_eq (s : State) (x : Xfer) : s.transfer x = withXfer s x := rfl

theorem branch_spec {p : Prop} {b : Bool} (h : b = true ↔ p) (s : State) (x : Ext) (o : BitVec 15) :
    (p → (.next (s.branch x o b) : Out) = .next (withXfer s (.to (branchTarget s x o)))) ∧ (¬p → (.next (s.branch x o b) : Out) = .next s) := by
  refine ⟨fun hp => ?_, fun hp => ?_⟩
  · rw [State.branch, if_pos (h.2 hp), transfer_eq, target_eq]
  · rw [State.branch, if_neg (mt h.1 hp)]

theorem jmpg_target (n : Nat) (a : W64) : (BitVec.ofNat 64 n + a).toNat = (n + a.toNat) % 2 ^ 64 := by
  rw [BitVec.toNat_add, BitVec.toNat_ofNat, Nat.mod_add_mod]

theorem exec_jmpg_aligned {s : State} {a : GR} (h : (s.rg a).toNat % 4 = 0) :
    exec (.jmpg a) s = .next (withXfer s (.to ((s.cx.kernel.code + (s.rg a).toNat) % 2 ^ 64))) := by
  rw [← jmpg_target, ← transfer_eq]
  exact if_neg (not_not.2 h)

theorem exec_jmpg_misaligned {s : State} {a : GR} (h : (s.rg a).toNat % 4 ≠ 0) : exec (.jmpg a) s = .next (s.slotFault .misaligned (s.rg a)) :=
  if_pos h

theorem branchesTransferToTheirTarget : BranchesTransferToTheirTarget := by
  refine fun s => ⟨fun i x o p h => ?_, fun _ => exec_jmpg_aligned, fun _ => exec_jmpg_misaligned⟩
  cases i with
  | beq => cases h; exact branch_spec beq_iff_eq s x o
  | bne => cases h; exact branch_spec bne_iff_ne s x o
  | blt => cases h; exact branch_spec BitVec.slt_iff_toInt_lt s x o
  | bge => cases h; exact branch_spec BitVec.sle_iff_toInt_le s x o
  | bltn => cases h; exact branch_spec BitVec.ult_iff_toNat_lt s x o
  | bgen => cases h; exact branch_spec BitVec.ule_iff_toNat_le s x o
  | jmp => cases h; exact branch_spec (iff_of_true rfl trivial) s x o
  | _ => cases h

/-! ### The bodies that a transfer leaves (R97, R98) -/

theorem has_iff {l : LoopLevel} {a : Nat} : l.has a = true ↔ l.first ≤ a ∧ a < l.after := by
  rw [LoopLevel.has, Bool.and_eq_true, decide_eq_true_iff, decide_eq_true_iff]

theorem not_has_iff {l : LoopLevel} {a : Nat} : (!l.has a) = true ↔ ¬(l.first ≤ a ∧ a < l.after) := by
  rw [Bool.not_eq_true', ← Bool.not_eq_true, has_iff]

theorem goTo_loops (c : Ctx) (a : Nat) : (c.goTo a).loops = c.loops.dropWhile fun e => !e.2.has a := rfl

/-- What `dropWhile` takes off satisfies its predicate, and it stops where the predicate first fails. -/
theorem dropWhile_split {α : Type} (p : α → Bool) (l : List α) :
    ∃ out, l = out ++ l.dropWhile p ∧ (∀ e ∈ out, p e = true) ∧ ∀ e rest, l.dropWhile p = e :: rest → ¬p e = true := by
  refine ⟨l.takeWhile p, List.takeWhile_append_dropWhile.symm, fun e he => List.mem_takeWhile_imp he, fun e rest h => ?_⟩
  have hhead := List.head?_dropWhile_not p l
  rw [h] at hhead
  exact Bool.not_eq_true _ ▸ hhead

/-- The levels that become inactive are the innermost ones, up to the first whose body holds the target. -/
theorem takenTransferLeavesTheBodiesItIsOutside : TakenTransferLeavesTheBodiesItIsOutside := by
  intro c b a
  obtain ⟨out, hloops, hout, hkept⟩ := dropWhile_split (fun e : Nat × LoopLevel => !e.2.has a) c.loops
  rw [← goTo_loops] at hloops hkept
  exact ⟨rfl, rfl, rfl, rfl, rfl, rfl, out, hloops, fun e he => not_has_iff.1 (hout e he), fun e rest h => not_not.1 (mt not_has_iff.2 (hkept e rest h))⟩

/-- Settles O6: what a branch notes, and what the noted transfer does at the end of its issue. -/
theorem branchesTransfer : Obligations.BranchesTransfer :=
  ⟨branchesTransferToTheirTarget, takenTransferLeavesTheBodiesItIsOutside⟩

end Sys2Proof.Proofs
end

section
/-! # Proofs: integer lanes, predicates, lanes and scalar registers (R106, R107, R110, R112 to R114, R124)

Three facts carry both obligations: what a lane of packed lanes is, what an operation does whose streams are ready, and that the lanes of a predicate go into flight without flags. The lane functions of the model are then compared with R110 modulo 2^(8w), one lemma for each function, and the comparisons with R112. -/

namespace Sys2Proof.Proofs

open Sys2Proof Sys2Proof.Machine Sys2Proof.Spec

/-! ### Lanes of a register (R106) -/

theorem lanes_mul_bits (t : Ty) : t.lanes * t.bits = 2048 := by cases t <;> rfl

theorem lanes_mul_width (t : Ty) : t.lanes * t.width = 256 := by cases t <;> rfl

theorem width_pos (t : Ty) : 0 < t.width := by cases t <;> decide

theorem bits_pos (t : Ty) : 0 < t.bits := Nat.mul_pos (by decide) (width_pos t)

theorem laneN_lt (w n i : Nat) : laneN w n i < 2 ^ w := Nat.mod_lt _ (Nat.two_pow_pos w)

theorem laneOf_eq_laneN (w : Nat) (x : VReg) (i : Nat) : laneOf w x i = laneN w x.toNat i := rfl

theorem laneOf_lt (w : Nat) (x : VReg) (i : Nat) : laneOf w x i < 2 ^ w := laneN_lt w x.toNat i

theorem testBit_laneN (w n i j : Nat) : (laneN w n i).testBit j = (decide (j < w) && n.testBit (w * i + j)) := by
  rw [laneN, Nat.testBit_mod_two_pow, Nat.testBit_div_two_pow, Nat.add_comm]

/-- A register of k bits holds every lane that lies below bit k. -/
theorem laneN_ofNat {w i k : Nat} (n : Nat) (h : w * (i + 1) ≤ k) : laneN w (BitVec.ofNat k n).toNat i = laneN w n i := by
  refine Nat.eq_of_testBit_eq fun j => ?_
  rw [testBit_laneN, testBit_laneN, BitVec.toNat_ofNat, Nat.testBit_mod_two_pow]
  by_cases hj : j < w
  · have hk : w * i + j < k := by rw [Nat.mul_succ] at h; omega
    rw [decide_eq_true hk, Bool.true_and]
  · rw [decide_eq_false hj, Bool.false_and, Bool.false_and]

theorem laneN_packLanes (w : Nat) (l : List Nat) (i : Nat) : laneN w (packLanes w l) i = l.getD i 0 % 2 ^ w := by
  induction l generalizing i with
  | nil => rw [packLanes, laneN, Nat.zero_div, List.getD_nil]
  | cons x l ih =>
    cases i with
    | zero => rw [packLanes, laneN, Nat.mul_zero, pow_zero, Nat.div_one, Nat.add_mul_mod_self_left, Nat.mod_mod, List.getD_cons_zero]
    | succ i =>
      have hdrop : (x % 2 ^ w + 2 ^ w * packLanes w l) / 2 ^ w = packLanes w l := by
        rw [Nat.add_mul_div_left _ _ (Nat.two_pow_pos w), Nat.div_eq_of_lt (Nat.mod_lt _ (Nat.two_pow_pos w)), Nat.zero_add]
      rw [packLanes, laneN, Nat.mul_succ, Nat.add_comm (w * i), pow_add, ← Nat.div_div_eq_div_mul, hdrop, List.getD_cons_succ, ← ih i, laneN]

/-- A lane of a register of k bits that n packed lanes fill. -/
theorem laneN_packLanes_range {w n k i : Nat} (f : Nat → Nat) (hk : n * w = k) (hi : i < n) :
    laneN w (BitVec.ofNat k (packLanes w ((List.range n).map f))).toNat i = f i % 2 ^ w := by
  have hle : w * (i + 1) ≤ k := by rw [← hk, Nat.mul_comm n]; exact Nat.mul_le_mul_left w hi
  rw [laneN_ofNat _ hle, laneN_packLanes, List.getD_eq_getElem _ _ (by simpa using hi), List.getElem_map, List.getElem_range]

theorem laneOf_vpack {t : Ty} {i : Nat} (f : Nat → Nat) (hi : i < t.lanes) :
    laneOf t.bits (vpack t.bits ((List.range t.lanes).map f)) i = f i % 2 ^ t.bits :=
  laneN_packLanes_range f (lanes_mul_bits t) hi

/-- All ones in a lane where a choice holds, all zeros elsewhere. -/
theorem ones_mod (w : Nat) (b : Bool) : (if b then 2 ^ w - 1 else 0) % 2 ^ w = if b then 2 ^ w - 1 else 0 := by
  have h := Nat.two_pow_pos w
  refine Nat.mod_eq_of_lt ?_
  split <;> omega

theorem laneOf_laneMask {t : Ty} {i : Nat} (p : PReg) (hi : i < t.lanes) :
    laneOf t.bits (laneMask t.bits (lanesEnabled t p)) i = if p.getLsbD (t.width * i) then 2 ^ t.bits - 1 else 0 := by
  rw [lanesEnabled, laneMask, ← vpack, List.map_map, laneOf_vpack _ hi]
  exact ones_mod ..

/-- The mask of a predicate with n packed results: the enabled lanes take theirs, no other is written. -/
theorem lanesAre_pack (s : State) (t : Ty) (p : PR) {f r : Nat → Nat} (h : ∀ i, f i % 2 ^ t.bits = r i % 2 ^ t.bits) :
    LanesAre t.bits t.lanes (Enabled s t p) r (laneMask t.bits (lanesEnabled t (s.cx.rp p))) (vpack t.bits ((List.range t.lanes).map f)) := by
  intro i hi
  rw [laneOf_laneMask _ hi, laneOf_vpack _ hi]
  exact ⟨fun he => ⟨if_pos he, h i⟩, fun he => if_neg he⟩

/-! ### Stream operands (R20, R108, R277) -/

theorem vecStreams_eq (x : Option VExt) (a b : VR) : vecStreams x a b = streamsOf x a b := by
  cases x with
  | none => rfl
  | some e => rw [streamsOf, BitVec.ofNat_toNat, BitVec.ofNat_toNat]; rfl

theorem vextQA_eq (x : Option VExt) : vextQA x = qaOf x := by cases x <;> rfl

theorem vextQB_eq (x : Option VExt) : vextQB x = qbOf x := by cases x <;> rfl

theorem vsrc_eq (s : State) (stream : Bool) (r : VR) (w : Nat) : s.vsrc stream r w = sourceOf s stream r w := by
  cases stream with
  | false => simp only [State.vsrc, sourceOf, Bool.false_eq_true, if_false]
  | true =>
    have hq : BitVec.ofNat 3 r.toNat = r.setWidth 3 := BitVec.ofNat_toNat 3 r
    simp only [State.vsrc, sourceOf, Ctx.streamRow, if_true, hq]
    cases s.cx.spoolOf (r.setWidth 3) with
    | none => simp only
    | some e => simp only [Ctx.readRow, Spool.rowAt]

theorem streamTake_eq (s : State) (q : QR) : s.streamTake q = consume s [q] := by
  rw [State.streamTake, consume, List.foldl_cons, List.foldl_nil]
  cases s.cx.spoolOf q <;> rfl

theorem streamsTake_eq (s : State) (l : List QR) : s.streamsTake l = consume s l := by
  induction l generalizing s with
  | nil => rfl
  | cons q l ih => rw [State.streamsTake, ih, streamTake_eq]; rfl

theorem streamFault?_ready {s : State} {l : List QR} {q : QR} (h : StreamsReady s l) (hq : q ∈ l) : s.streamFault? q = none := by
  obtain ⟨n, sp, hsp, hrows, hheld⟩ := h q hq
  simp [State.streamFault?, hsp, hrows, hheld]

theorem streamEmpty_ready {s : State} {l : List QR} {q : QR} (h : StreamsReady s l) (hq : q ∈ l) : s.cx.streamEmpty q = false := by
  obtain ⟨n, sp, hsp, hrows, hheld⟩ := h q hq
  simp [Ctx.streamEmpty, hsp, hheld]

/-- Where every stream is ready the operation takes place and consumes an element of each. -/
theorem withStreams_ready {s : State} {l : List QR} (h : StreamsReady s l) (k : State → State) : s.withStreams l k = consume (k s) l := by
  rcases s.withStreams_cases l k with ⟨q, hq, t, hfault, -⟩ | ⟨-, ⟨⟨q, hq, hempty⟩, -⟩ | ⟨-, htake⟩⟩
  · rw [streamFault?_ready h hq] at hfault; cases hfault
  · rw [streamEmpty_ready h hq] at hempty; cases hempty
  · rw [htake, streamsTake_eq]

/-! ### Lanes without flags in flight (R43, R106) -/

theorem orFlags_eq_zero {l : List FlagSet} (h : ∀ f ∈ l, f = 0) : orFlags l = 0 := by
  rw [List.eq_replicate_of_mem h, orFlags]
  induction l.length with
  | zero => rfl
  | succ n ih => rw [List.replicate_succ, List.foldl_cons]; exact ih

theorem enabledFlags_eq_zero (en : List Bool) {fs : List FlagSet} (h : ∀ f ∈ fs, f = 0) : enabledFlags en fs = 0 := by
  refine orFlags_eq_zero fun f hf => ?_
  obtain ⟨⟨b, g⟩, hmem, rfl⟩ := List.mem_map.1 hf
  rw [h g (List.of_mem_zip hmem).2, ite_self]

theorem emit_eq (s : State) (lat : Nat) (e : Eff) : s.emit lat e = pending s lat e := rfl

theorem lanesOut_eq (s : State) (lat w : Nat) (d : VR) (en : List Bool) (l : List Nat) :
    s.lanesOut lat w d en (l.map fun n => (n, 0)) = pending s lat (.v d (laneMask w en) (vpack w l)) := by
  have hflags : enabledFlags en ((l.map fun n => (n, (0 : FlagSet))).map (·.2)) = 0 :=
    enabledFlags_eq_zero en fun f hf => by
      obtain ⟨_, he, rfl⟩ := List.mem_map.1 hf
      obtain ⟨_, _, rfl⟩ := List.mem_map.1 he
      rfl
  rw [State.lanesOut, hflags, State.emitFlags_zero, List.map_map, emit_eq]
  exact congrArg (fun m => pending s lat (.v d (laneMask w en) (vpack w m))) (List.map_id l)

/-- A lane function of the model gives the results g of the rule modulo 2^(8w) and no flag. -/
def IsLaneOp (t : Ty) (f : Nat → Nat → Nat → Nat × FlagSet) (g : Nat → Nat → Nat → Int) : Prop :=
  ∀ a b d, a < 2 ^ t.bits → b < 2 ^ t.bits → d < 2 ^ t.bits → f a b d = ((g a b d % 2 ^ t.bits).toNat, 0)

/-- What an operation on integer lanes answers: its enabled lanes in flight, an element of each stream consumed. -/
def LanesComputed (s : State) (L : LaneForm (Nat → Nat → Nat → Int)) (o : Out) : Prop :=
  ∃ mask data, o = .next (consume (pending s L.lat (.v L.d mask data)) (streamsOf L.x L.a L.b)) ∧
    LanesAre L.t.bits L.t.lanes (Enabled s L.t L.p)
      (fun n => (L.f (laneOf L.t.bits (sourceOf s (qaOf L.x) L.a L.t.bits) n) (laneOf L.t.bits (sourceOf s (qbOf L.x) L.b L.t.bits) n)
        (laneOf L.t.bits (s.rv L.d L.t.bits) n) % 2 ^ L.t.bits).toNat) mask data

section
variable {s : State} {x : Option VExt} {lat : Nat} {d a b : VR} {t : Ty} {p : PR} {g : Nat → Nat → Nat → Int}

theorem vecTri_computes {f : Nat → Nat → Nat → Nat × FlagSet} (hf : IsLaneOp t f g) (hs : StreamsReady s (streamsOf x a b)) :
    LanesComputed s ⟨x, d, a, b, t, p, lat, g⟩ (s.vecTri x lat d a b t p f) := by
  refine ⟨_, _, ?_, lanesAre_pack s t p fun _ => rfl⟩
  rw [State.vecTri, vecStreams_eq, withStreams_ready hs, vextQA_eq, vextQB_eq, vsrc_eq, vsrc_eq, ← lanesOut_eq]
  simp only [vlanes, lanesOf, List.zip_map', List.zipWith_map, List.zipWith_self, List.map_map]
  exact congrArg (fun l => Host.Outcome.next (consume (s.lanesOut lat t.bits d (lanesEnabled t (s.cx.rp p)) l) (streamsOf x a b)))
    (List.map_congr_left fun n _ => hf _ _ _ (laneN_lt ..) (laneN_lt ..) (laneN_lt ..))

theorem vecBin_eq_vecTri (f : Nat → Nat → Nat × FlagSet) :
    s.vecBin x lat d a b t p f = s.vecTri x lat d a b t p fun u v _ => f u v := by
  simp only [State.vecBin, State.vecTri, vlanes, lanesOf, List.zip_map', List.zipWith_map, List.zipWith_self]

theorem vecUn_eq_vecTri (f : Nat → Nat × FlagSet) :
    s.vecUn x lat d a t p f = s.vecTri x lat d a 0 t p fun u _ _ => f u := by
  simp only [State.vecUn, State.vecTri, vlanes, lanesOf, List.zip_map', List.zipWith_map, List.zipWith_self, List.map_map]
  rfl
end

/-! ### Integer lanes (R110) -/

/-- The two's complement of the spec is that of a bit vector. -/
theorem twosOf_eq_toInt {w : Nat} (hw : 0 < w) (n : Nat) : twosOf w n = (BitVec.ofNat w n).toInt := by
  have h2 : 2 ^ w = 2 * 2 ^ (w - 1) := by rw [← pow_succ']; congr 1; omega
  rw [twosOf, BitVec.toInt_eq_toNat_cond, BitVec.toNat_ofNat]
  refine if_congr ?_ rfl rfl
  omega

theorem laneInt_eq_svOf {t : Ty} {a : Nat} (ha : a < 2 ^ t.bits) : laneInt t a = svOf t a := by
  rw [laneInt, svOf, twosOf_eq_toInt (bits_pos t), Nat.mod_eq_of_lt ha]

theorem intLane_eq (t : Ty) (x : Int) : intLane t x = (x % 2 ^ t.bits).toNat := by
  rw [intLane, BitVec.toNat_ofInt]; push_cast; rfl

theorem twosOf_modEq (w n : Nat) : twosOf w n ≡ n [ZMOD 2 ^ w] := by
  have h : ((n % 2 ^ w : Nat) : Int) ≡ n [ZMOD 2 ^ w] := by push_cast; exact Int.mod_modEq ..
  rw [twosOf]
  split
  · exact h
  · push_cast at h ⊢
    exact (Int.sub_emod_right ..).trans h

/-- sv of a lane is the lane modulo 2^(8w), whether the type is signed or not. -/
theorem svOf_modEq (t : Ty) (n : Nat) : svOf t n ≡ n [ZMOD 2 ^ t.bits] := by
  rw [svOf]
  split
  · exact twosOf_modEq t.bits n
  · rfl

theorem natCast_emod_toNat {w n : Nat} (h : n < 2 ^ w) : ((n : Int) % 2 ^ w).toNat = n := by
  rw [Int.emod_eq_of_lt (by positivity) (by exact_mod_cast h), Int.toNat_natCast]

theorem intLane_svOf {t : Ty} {a : Nat} (ha : a < 2 ^ t.bits) : intLane t (svOf t a) = a := by
  rw [intLane_eq, svOf_modEq t a, natCast_emod_toNat ha]

theorem intLane_congr {t : Ty} {x y : Int} (h : x ≡ y [ZMOD 2 ^ t.bits]) : intLane t x = (y % 2 ^ t.bits).toNat := by
  rw [intLane_eq, h]

section
variable {t : Ty} (m : RMode) (ht : t.isInt = true)
include ht

theorem laneAdd_isLaneOp : IsLaneOp t (fun a b _ => laneAdd t m a b) fun a b _ => a + b := by
  intro a b d ha hb _
  dsimp only
  rw [laneAdd, if_pos ht, intOp, laneInt_eq_svOf ha, laneInt_eq_svOf hb, intLane_congr ((svOf_modEq t a).add (svOf_modEq t b))]

theorem laneSub_isLaneOp : IsLaneOp t (fun a b _ => laneSub t m a b) fun a b _ => a - b := by
  intro a b d ha hb _
  dsimp only
  rw [laneSub, if_pos ht, intOp, laneInt_eq_svOf ha, laneInt_eq_svOf hb, intLane_congr ((svOf_modEq t a).sub (svOf_modEq t b))]

theorem laneMul_isLaneOp : IsLaneOp t (fun a b _ => laneMul t m a b) fun a b _ => a * b := by
  intro a b d ha hb _
  dsimp only
  rw [laneMul, if_pos ht, intOp, laneInt_eq_svOf ha, laneInt_eq_svOf hb, intLane_congr ((svOf_modEq t a).mul (svOf_modEq t b))]

theorem laneFma_isLaneOp : IsLaneOp t (laneFma t m) fun a b d => a * b + d := by
  intro a b d ha hb hd
  rw [laneFma, if_pos ht, laneInt_eq_svOf ha, laneInt_eq_svOf hb, laneInt_eq_svOf hd,
    intLane_congr (((svOf_modEq t a).mul (svOf_modEq t b)).add (svOf_modEq t d))]

theorem laneMin_eq {a b : Nat} (ha : a < 2 ^ t.bits) (hb : b < 2 ^ t.bits) : laneMin t a b = intLane t (min (svOf t a) (svOf t b)) := by
  rw [laneMin, if_pos ht, intOp, laneInt_eq_svOf ha, laneInt_eq_svOf hb]

theorem laneMax_eq {a b : Nat} (ha : a < 2 ^ t.bits) (hb : b < 2 ^ t.bits) : laneMax t a b = intLane t (max (svOf t a) (svOf t b)) := by
  rw [laneMax, if_pos ht, intOp, laneInt_eq_svOf ha, laneInt_eq_svOf hb]

theorem laneMin_isLaneOp : IsLaneOp t (fun a b _ => (laneMin t a b, 0)) fun a b _ => min (svOf t a) (svOf t b) := by
  intro a b d ha hb _
  dsimp only
  rw [laneMin_eq ht ha hb, intLane_eq]

theorem laneMax_isLaneOp : IsLaneOp t (fun a b _ => (laneMax t a b, 0)) fun a b _ => max (svOf t a) (svOf t b) := by
  intro a b d ha hb _
  dsimp only
  rw [laneMax_eq ht ha hb, intLane_eq]

/-- The greater of two lanes is one of them, and so its sv is the greater sv. -/
theorem svOf_laneMax {a b : Nat} (ha : a < 2 ^ t.bits) (hb : b < 2 ^ t.bits) :
    laneMax t a b < 2 ^ t.bits ∧ svOf t (laneMax t a b) = max (svOf t a) (svOf t b) := by
  rw [laneMax_eq ht ha hb]
  rcases le_total (svOf t a) (svOf t b) with h | h
  · rw [max_eq_right h, intLane_svOf hb]; exact ⟨hb, rfl⟩
  · rw [max_eq_left h, intLane_svOf ha]; exact ⟨ha, rfl⟩

theorem laneClamp_isLaneOp : IsLaneOp t (laneClamp t) fun a b d => min (max (svOf t d) (svOf t a)) (svOf t b) := by
  intro a b d ha hb hd
  obtain ⟨hlt, hsv⟩ := svOf_laneMax ht hd ha
  rw [laneClamp, laneMin_eq ht hlt hb, hsv, intLane_eq]

theorem laneAbs_isLaneOp : IsLaneOp t (fun a _ _ => laneAbs t a) fun a _ _ => |svOf t a| := by
  intro a b d ha _ _
  dsimp only
  rw [laneAbs, if_pos ht, laneInt_eq_svOf ha, Int.natCast_natAbs, intLane_eq]

theorem laneNeg_isLaneOp : IsLaneOp t (fun a _ _ => laneNeg t a) fun a _ _ => -(a : Int) := by
  intro a b d ha _ _
  dsimp only
  rw [laneNeg, if_pos ht, laneInt_eq_svOf ha, intLane_congr (svOf_modEq t a).neg]

end

section
variable (t : Ty)

theorem clampInt_eq {lo hi : Int} (h : lo ≤ hi) (x : Int) : clampInt lo hi x = max lo (min hi x) := by
  rw [clampInt]
  split_ifs <;> omega

/-- lo and hi of R110. -/
theorem laneRange_eq :
    laneRange t = (if t.signed then -2 ^ (t.bits - 1) else 0, if t.signed then 2 ^ (t.bits - 1) - 1 else 2 ^ t.bits - 1) := by
  rw [laneRange, intRange]
  split <;> rfl

theorem laneRange_le : (laneRange t).1 ≤ (laneRange t).2 := by cases t <;> decide

/-- VADDS and VSUBS hold an exact result to the type's range. -/
theorem intSat_isLaneOp (f : Int → Int → Int) :
    IsLaneOp t (fun a b _ => intSat t f a b) fun a b _ =>
      max (if t.signed then -2 ^ (t.bits - 1) else 0)
        (min (if t.signed then 2 ^ (t.bits - 1) - 1 else 2 ^ t.bits - 1) (f (svOf t a) (svOf t b))) := by
  intro a b d ha hb _
  dsimp only
  rw [intSat, laneInt_eq_svOf ha, laneInt_eq_svOf hb, clampInt_eq (laneRange_le t), intLane_eq, laneRange_eq]

/-- A bitwise operation: its result is a lane as it stands. -/
theorem natOp_isLaneOp {f : Nat → Nat → Nat} (hf : ∀ a b, a < 2 ^ t.bits → b < 2 ^ t.bits → f a b < 2 ^ t.bits) :
    IsLaneOp t (fun a b _ => (f a b, 0)) fun a b _ => ((f a b : Nat) : Int) := by
  intro a b d ha hb _
  dsimp only
  rw [natCast_emod_toNat (hf a b ha hb)]

theorem laneShl_isLaneOp : IsLaneOp t (fun a n _ => laneShl t a n) fun a n _ => if t.bits ≤ n then 0 else a * 2 ^ n := by
  intro a n d _ _ _
  dsimp only
  rw [laneShl]
  split
  · rfl
  · have h : (a : Int) * 2 ^ n % 2 ^ t.bits = ((a * 2 ^ n % 2 ^ t.bits : Nat) : Int) := by push_cast; rfl
    rw [h, Int.toNat_natCast]

theorem laneShr_isLaneOp : IsLaneOp t (fun a n _ => laneShr t a n) fun a n _ => if t.bits ≤ n then 0 else ((a / 2 ^ n : Nat) : Int) := by
  intro a n d ha _ _
  dsimp only
  rw [laneShr]
  split
  · rfl
  · rw [natCast_emod_toNat ((Nat.div_le_self a _).trans_lt ha)]

theorem laneSar_isLaneOp : IsLaneOp t (fun a n _ => laneSar t a n) fun a n _ => (twosOf t.bits a).fdiv (2 ^ n) := by
  intro a n d _ _ _
  have h : ((BitVec.ofNat t.bits a).sshiftRight n).toInt = (twosOf t.bits a).fdiv (2 ^ n) := by
    rw [BitVec.toInt_sshiftRight, Int.shiftRight_eq_div_pow, fdiv_two_pow, twosOf_eq_toInt (bits_pos t)]
    push_cast; rfl
  dsimp only
  rw [laneSar, ← h, ← intLane_eq, intLane, BitVec.ofInt_toInt]

end

/-! ### Integer and bitwise operations (R110) -/

theorem ite_some_none_eq_some {α : Type} {c : Prop} [Decidable c] {x y : α} : (if c then some x else none) = some y ↔ c ∧ x = y := by
  rw [Option.ite_none_right_eq_some, Option.some_inj]

theorem vecLat_of_isInt {t : Ty} (ht : t.isInt = true) (i f : Nat) : vecLat t i f = i := if_pos ht

section
variable {s : State} {x : Option VExt} {d a b : VR} {t : Ty} {p : PR}

theorem vecBin_computes {lat : Nat} {f : Nat → Nat → Nat × FlagSet} {g : Nat → Nat → Nat → Int} (hf : IsLaneOp t (fun u v _ => f u v) g)
    (hs : StreamsReady s (streamsOf x a b)) : LanesComputed s ⟨x, d, a, b, t, p, lat, g⟩ (s.vecBin x lat d a b t p f) := by
  rw [vecBin_eq_vecTri]; exact vecTri_computes hf hs

theorem vecUn_computes {lat : Nat} {f : Nat → Nat × FlagSet} {g : Nat → Nat → Nat → Int} (hf : IsLaneOp t (fun u _ _ => f u) g)
    (hs : StreamsReady s (streamsOf x a 0)) : LanesComputed s ⟨x, d, a, 0, t, p, lat, g⟩ (s.vecUn x lat d a t p f) := by
  rw [vecUn_eq_vecTri]; exact vecTri_computes hf hs

end

/-- Settles O22, by the lemma on the lane function of each operation. -/
theorem integerLanesAreComputed : Obligations.IntegerLanesAreComputed := by
  unfold Obligations.IntegerLanesAreComputed
  intro i s L _ h hs
  change LanesComputed s L (exec i s)
  cases i with
  | vadd => obtain ⟨ht, rfl⟩ := ite_some_none_eq_some.1 h; exact vecLat_of_isInt ht 2 4 ▸ vecBin_computes (laneAdd_isLaneOp _ ht) hs
  | vsub => obtain ⟨ht, rfl⟩ := ite_some_none_eq_some.1 h; exact vecLat_of_isInt ht 2 4 ▸ vecBin_computes (laneSub_isLaneOp _ ht) hs
  | vmul => obtain ⟨ht, rfl⟩ := ite_some_none_eq_some.1 h; exact vecLat_of_isInt ht 2 4 ▸ vecBin_computes (laneMul_isLaneOp _ ht) hs
  | vfma => obtain ⟨ht, rfl⟩ := ite_some_none_eq_some.1 h; exact vecLat_of_isInt ht 2 4 ▸ vecTri_computes (laneFma_isLaneOp _ ht) hs
  | vmin => obtain ⟨ht, rfl⟩ := ite_some_none_eq_some.1 h; exact vecLat_of_isInt ht 2 4 ▸ vecBin_computes (laneMin_isLaneOp ht) hs
  | vmax => obtain ⟨ht, rfl⟩ := ite_some_none_eq_some.1 h; exact vecLat_of_isInt ht 2 4 ▸ vecBin_computes (laneMax_isLaneOp ht) hs
  | vclamp => obtain ⟨ht, rfl⟩ := ite_some_none_eq_some.1 h; exact vecLat_of_isInt ht 2 4 ▸ vecTri_computes (laneClamp_isLaneOp ht) hs
  | vabs => obtain ⟨ht, rfl⟩ := ite_some_none_eq_some.1 h; exact vecUn_computes (laneAbs_isLaneOp ht) hs
  | vneg => obtain ⟨ht, rfl⟩ := ite_some_none_eq_some.1 h; exact vecUn_computes (laneNeg_isLaneOp ht) hs
  | vadds => obtain ⟨-, rfl⟩ := ite_some_none_eq_some.1 h; exact vecBin_computes (intSat_isLaneOp _ _) hs
  | vsubs => obtain ⟨-, rfl⟩ := ite_some_none_eq_some.1 h; exact vecBin_computes (intSat_isLaneOp _ _) hs
  | vand => cases h; exact vecBin_computes (natOp_isLaneOp _ fun _ _ _ hb => Nat.and_lt_two_pow _ hb) hs
  | vor => cases h; exact vecBin_computes (natOp_isLaneOp _ fun _ _ => Nat.or_lt_two_pow) hs
  | vxor => cases h; exact vecBin_computes (natOp_isLaneOp _ fun _ _ => Nat.xor_lt_two_pow) hs
  | vshl => cases h; exact vecBin_computes (laneShl_isLaneOp _) hs
  | vshr => cases h; exact vecBin_computes (laneShr_isLaneOp _) hs
  | vsar => cases h; exact vecBin_computes (laneSar_isLaneOp _) hs
  | _ => cases h

/-! ### Compares (R112) -/

theorem testBit_eq_testBit_laneN {w : Nat} (hw : 0 < w) (n k : Nat) : n.testBit k = (laneN w n (k / w)).testBit (k % w) := by
  rw [testBit_laneN, decide_eq_true (Nat.mod_lt k hw), Bool.true_and, Nat.div_add_mod]

theorem getLsbD_predOf (t : Ty) (f : Nat → Bool) {k : Nat} (hk : k < 256) :
    (predOf t ((List.range t.lanes).map f)).getLsbD k = f (k / t.width) := by
  have hw := width_pos t
  have hlane : k / t.width < t.lanes := by
    rw [Nat.div_lt_iff_lt_mul hw, lanes_mul_width]; exact hk
  rw [predOf, List.map_map, BitVec.getLsbD, testBit_eq_testBit_laneN hw, laneN_packLanes_range _ (lanes_mul_width t) hlane, Function.comp_apply, ones_mod]
  cases f (k / t.width) with
  | false => exact Nat.zero_testBit _
  | true => rw [if_pos rfl, Nat.testBit_two_pow_sub_one, decide_eq_true (Nat.mod_lt k hw)]

theorem laneCmp_iff (t : Ty) (c : Cnd) (a b : Nat) : laneCmp t c a b = true ↔ CndHolds c ((laneVal t a).cmp (laneVal t b)) := by
  rw [laneCmp]
  cases (laneVal t a).cmp (laneVal t b) with
  | none => cases c <;> simp [CndHolds]
  | some o => cases c <;> cases o <;> simp [CndHolds]

theorem laneVal_of_isInt {t : Ty} (ht : t.isInt = true) (a : Nat) : laneVal t a = .ofInt (laneInt t a) := by
  cases t with
  | f16 | bf16 | f32 => cases ht
  | i8 | i16 | i32 | n8 | n16 | n32 => rfl

theorem cmp_ofInt (m n : Int) : (XVal.ofInt m).cmp (.ofInt n) = some (compare m n) := by
  have h (k : Int) : signedOf (decide (k < 0)) (shiftTo k.natAbs 0 0) = k := by
    simp only [shiftTo, signedOf, sub_self, Int.toNat_zero, pow_zero, mul_one, decide_eq_true_eq]
    split <;> omega
  simp only [XVal.ofInt, XVal.cmp, le_refl, if_true, h]

/-- Lanes of either kind are compared as R112 says: integers by sv, floats by value. -/
theorem laneVal_cmp {t : Ty} {a b : Nat} (ha : a < 2 ^ t.bits) (hb : b < 2 ^ t.bits) : (laneVal t a).cmp (laneVal t b) = orderOf t a b := by
  unfold Spec.orderOf
  split
  · next ht => rw [laneVal_of_isInt ht, laneVal_of_isInt ht, cmp_ofInt, laneInt_eq_svOf ha, laneInt_eq_svOf hb]
  · rfl

theorem vcmp_spec (x : Option VExt) (pd : PR) (a b : VR) (t : Ty) (c : Cnd) (p : PR) (s : State) (hs : StreamsReady s (streamsOf x a b)) :
    ∃ r : PReg, exec (.vcmp x pd a b t c p) s = .next (consume (pending s 2 (.p pd r)) (streamsOf x a b)) ∧
      ∀ k, k < 256 → (r.getLsbD k = true ↔ Enabled s t p (k / t.width) ∧
        CndHolds c (orderOf t (laneOf t.bits (sourceOf s (qaOf x) a t.bits) (k / t.width)) (laneOf t.bits (sourceOf s (qbOf x) b t.bits) (k / t.width)))) := by
  refine ⟨predOf t ((List.range t.lanes).map fun i => (s.cx.rp p).getLsbD (t.width * i) &&
    laneCmp t c (laneOf t.bits (sourceOf s (qaOf x) a t.bits) i) (laneOf t.bits (sourceOf s (qbOf x) b t.bits) i)), ?_, fun k hk => ?_⟩
  · change execVcmp x pd a b t c p s = _
    rw [execVcmp, vecStreams_eq, withStreams_ready hs, vextQA_eq, vextQB_eq, vsrc_eq, vsrc_eq]
    simp only [lanesEnabled, vlanes, lanesOf, List.zipWith_map, List.zipWith_self]
    rfl
  · rw [getLsbD_predOf t _ hk, Bool.and_eq_true, laneCmp_iff, laneVal_cmp (laneOf_lt ..) (laneOf_lt ..), Enabled]

/-! ### Selects (R113) -/

theorem getLsbD_mixBits {n : Nat} (m old new : BitVec n) (k : Nat) :
    (mixBits m old new).getLsbD k = if m.getLsbD k then new.getLsbD k else old.getLsbD k := by
  rw [mixBits, BitVec.getLsbD_or, BitVec.getLsbD_and, BitVec.getLsbD_and, BitVec.getLsbD_not]
  by_cases hk : k < n
  · cases m.getLsbD k <;> simp [hk]
  · simp [BitVec.getLsbD_of_ge _ k (not_lt.1 hk)]

theorem testBit_laneOf (w : Nat) (x : VReg) (i j : Nat) : (laneOf w x i).testBit j = (decide (j < w) && x.getLsbD (w * i + j)) :=
  testBit_laneN ..

/-- A lane that a mask picks wholly, or not at all, is the new one, or the old one. -/
theorem laneOf_mixBits {w i : Nat} {m : VReg} (old new : VReg) {b : Bool} (h : laneOf w m i = if b then 2 ^ w - 1 else 0) :
    laneOf w (mixBits m old new) i = laneOf w (if b then new else old) i := by
  refine Nat.eq_of_testBit_eq fun j => ?_
  have hbit := congrArg (·.testBit j) h
  rw [testBit_laneOf, testBit_laneOf, getLsbD_mixBits]
  by_cases hj : j < w
  · have hm : m.getLsbD (w * i + j) = b := by
      cases b <;> simpa [testBit_laneOf, hj, Nat.testBit_two_pow_sub_one] using hbit
    rw [hm]
    cases b <;> rfl
  · rw [decide_eq_false hj, Bool.false_and, Bool.false_and]

theorem vsel_spec (x : Option VExt) (d a b : VR) (t : Ty) (p : PR) (s : State) (hs : StreamsReady s (streamsOf x a b)) :
    ∃ data, exec (.vsel x d a b t p) s = .next (consume (pending s 2 (.v d (BitVec.allOnes 2048) data)) (streamsOf x a b)) ∧
      ∀ i, i < t.lanes → (Enabled s t p i → laneOf t.bits data i = laneOf t.bits (sourceOf s (qaOf x) a t.bits) i) ∧
        (¬Enabled s t p i → laneOf t.bits data i = laneOf t.bits (sourceOf s (qbOf x) b t.bits) i) := by
  refine ⟨mixBits (laneMask t.bits (lanesEnabled t (s.cx.rp p))) (sourceOf s (qbOf x) b t.bits) (sourceOf s (qaOf x) a t.bits), ?_, fun i hi => ?_⟩
  · change execVsel x d a b t p s = _
    rw [execVsel, vecStreams_eq, withStreams_ready hs, vextQA_eq, vextQB_eq, vsrc_eq, vsrc_eq]
    rfl
  · rw [laneOf_mixBits _ _ (laneOf_laneMask _ hi)]
    exact ⟨fun he => congrArg (laneOf t.bits · i) (if_pos he), fun he => congrArg (laneOf t.bits · i) (if_neg he)⟩

/-! ### Predicate logic and counts (R114) -/

theorem getLsbD_plogBits (lop : BitVec 4) (a b : PReg) {k : Nat} (hk : k < 256) :
    (plogBits lop a b).getLsbD k = lop.getLsbD (2 * (a.getLsbD k).toNat + (b.getLsbD k).toNat) := by
  have hif (c : Bool) (x : PReg) : (if c then x else 0).getLsbD k = (c && x.getLsbD k) := by cases c <;> simp
  rw [plogBits]
  simp only [BitVec.getLsbD_or, hif, BitVec.getLsbD_and, BitVec.getLsbD_not, hk, decide_true, Bool.true_and]
  cases a.getLsbD k <;> cases b.getLsbD k <;> simp

theorem bitsSet_eq_card (p : PReg) : bitsSet p = ((Finset.range 256).filter fun k => p.getLsbD k = true).card := by
  simp [bitsSet, Finset.card_def, Finset.filter_val, Finset.range_val, Multiset.range]

theorem bitsSet_le (p : PReg) : bitsSet p ≤ 256 := by
  simpa [bitsSet] using List.length_filter_le (fun j => p.getLsbD j) (List.range 256)

theorem pcnt_toNat (a b : PReg) :
    (BitVec.ofNat 64 (bitsSet (a &&& b))).toNat = ((Finset.range 256).filter fun k => a.getLsbD k = true ∧ b.getLsbD k = true).card := by
  have hle := bitsSet_le (a &&& b)
  have hand : ∀ k, (a &&& b).getLsbD k = true ↔ a.getLsbD k = true ∧ b.getLsbD k = true := fun k => by
    rw [BitVec.getLsbD_and, Bool.and_eq_true]
  rw [BitVec.toNat_ofNat, Nat.mod_eq_of_lt (by omega), bitsSet_eq_card]
  simp only [hand]

theorem predicatesAreComparedSelectedAndCounted : PredicatesAreComparedSelectedAndCounted :=
  ⟨vcmp_spec, vsel_spec, fun _ _ _ lop _ => ⟨_, rfl, fun _ hk => getLsbD_plogBits lop _ _ hk⟩, fun _ _ _ _ => ⟨_, rfl, pcnt_toNat _ _⟩⟩

/-! ### Lanes and scalar registers (R124) -/

theorem vbcast_spec (x : Option VExt) (d : VR) (g : GR) (t : Ty) (p : PR) (s : State) :
    ∃ mask data, exec (.vbcast x d g t p) s = .next (pending s 2 (.v d mask data)) ∧
      LanesAre t.bits t.lanes (Enabled s t p) (fun _ => (s.rg g).toNat) mask data := by
  refine ⟨_, _, ?_, lanesAre_pack s t p fun _ => Nat.mod_mod _ _⟩
  rw [← lanesOut_eq, List.map_map, Function.comp_def, List.map_const', List.length_range]
  rfl

theorem viota_spec (x : Option VExt) (d : VR) (g : GR) (t : Ty) (p : PR) (s : State) :
    ∃ mask data, exec (.viota x d g t p) s = .next (pending s 2 (.v d mask data)) ∧
      LanesAre t.bits t.lanes (Enabled s t p) (fun i => (s.rg g).toNat + i) mask data := by
  refine ⟨_, _, ?_, lanesAre_pack s t p fun _ => Nat.mod_mod _ _⟩
  rw [← lanesOut_eq, List.map_map]
  rfl

/-- A lane extended to 64 bits is its sv. -/
theorem extended_eq_svOf {t : Ty} {v : Nat} (hv : v < 2 ^ t.bits) :
    (if t.signed then sext64 t.bits v else zext64 t.bits v) = BitVec.ofInt 64 (svOf t v) := by
  rw [svOf]
  split
  · rw [twosOf_eq_toInt (bits_pos t)]; rfl
  · rw [zext64, Nat.mod_eq_of_lt hv, BitVec.ofInt_natCast]

theorem vext_spec (x : Option VExt) (d : GR) (a : VR) (g : GR) (t : Ty) (s : State) (hs : StreamsReady s (streamsOf x a 0)) :
    exec (.vext x d a g t) s = .next (consume (pending s 2 (.g d (BitVec.ofInt 64
      (svOf t (laneOf t.bits (sourceOf s (qaOf x) a t.bits) ((s.rg g).toNat % t.lanes)))))) (streamsOf x a 0)) := by
  change execVext x d a g t s = _
  rw [execVext, vecStreams_eq, withStreams_ready hs, vextQA_eq, vsrc_eq, ← extended_eq_svOf (laneOf_lt ..)]
  rfl

/-- A register that holds one lane alone. -/
theorem laneN_single {w x : Nat} (hx : x < 2 ^ w) (n i : Nat) : laneN w (x * 2 ^ (w * n)) i = if i = n then x else 0 := by
  refine Nat.eq_of_testBit_eq fun j => ?_
  rw [testBit_laneN, Nat.testBit_mul_two_pow]
  rcases Nat.lt_trichotomy i n with h | rfl | h
  · have hle : w * i + w ≤ w * n := Nat.mul_le_mul_left w h
    by_cases hj : j < w
    · have hnot : ¬w * n ≤ w * i + j := by omega
      simp [h.ne, hnot]
    · simp [h.ne, hj]
  · by_cases hj : j < w
    · simp [hj]
    · have hfalse : x.testBit j = false := Nat.testBit_lt_two_pow (hx.trans_le (Nat.pow_le_pow_right (by decide) (not_lt.1 hj)))
      simp [hj, hfalse]
  · have hle : w * n + w ≤ w * i := Nat.mul_le_mul_left w h
    have hfalse : x.testBit (w * i + j - w * n) = false :=
      Nat.testBit_lt_two_pow (hx.trans_le (Nat.pow_le_pow_right (by decide) (by omega)))
    simp [h.ne', hfalse]

theorem laneOf_single {t : Ty} {x n i : Nat} (hx : x < 2 ^ t.bits) (hi : i < t.lanes) :
    laneOf t.bits (BitVec.ofNat 2048 (x * 2 ^ (t.bits * n))) i = if i = n then x else 0 := by
  have hle : t.bits * (i + 1) ≤ 2048 := by rw [← lanes_mul_bits t, Nat.mul_comm t.lanes]; exact Nat.mul_le_mul_left _ hi
  rw [laneOf_eq_laneN, laneN_ofNat _ hle, laneN_single hx]

theorem vins_spec (x : Option VExt) (d : VR) (a g : GR) (t : Ty) (s : State) :
    ∃ mask data, exec (.vins x d a g t) s = .next (pending s 2 (.v d mask data)) ∧
      LanesAre t.bits t.lanes (fun i => i = (s.rg a).toNat % t.lanes) (fun _ => (s.rg g).toNat) mask data := by
  refine ⟨_, _, rfl, fun i hi => ?_⟩
  rw [laneOf_single (Nat.sub_lt (Nat.two_pow_pos _) one_pos) hi, laneOf_single (Nat.mod_lt _ (Nat.two_pow_pos _)) hi]
  exact ⟨fun he => ⟨if_pos he, if_pos he⟩, fun he => if_neg he⟩

theorem lanesMeetScalarRegisters : LanesMeetScalarRegisters :=
  ⟨vbcast_spec, viota_spec, vext_spec, vins_spec⟩

/-- Settles O25: compares, selects, predicate logic and counts; broadcast, index, extract and insert. -/
theorem predicatesAndScalarsMeetLanes : Obligations.PredicatesAndScalarsMeetLanes :=
  ⟨predicatesAreComparedSelectedAndCounted, lanesMeetScalarRegisters⟩

end Sys2Proof.Proofs
end
